-- ==== Sys2Proof/Word.lean ====
section
/-! DEFINITION. The word types of the model (R3, R5): a word is 32 bits, a byte is 8. -/

namespace Sys2Proof

/-- A byte (R4). -/
abbrev Byte := BitVec 8
/-- A word of the fabric (R5). -/
abbrev W32 := BitVec 32
/-- A register of a hart, a CSR, a tag. -/
abbrev W64 := BitVec 64
/-- A sparse table: keys strictly rising, one entry a key. -/
abbrev SMap (α : Type) := List (Nat × α)

end Sys2Proof
end

