-- ==== Sys2Proof/Syntax.lean ====
section
/-! DEFINITION. The syntax of the device's steps: node records (Table 2-4), tokens (Table 2-1), what arrives from
outside, and the ONE inductive `Instr`, with a constructor for each row of the table of operations and events. -/

namespace Sys2Proof

/-- The element formats of Table 2-9, in code order 0x0 to 0xF (R83). -/
inductive Fmt where
  | i32 | n32 | i64 | n64 | f32 | bf16x2 | f16x2 | i16x2
  | i8x4 | n8x4 | e4m3x4 | e5m2x4 | e2m3x5 | e3m2x5 | cb4x8 | raw
  deriving DecidableEq, Repr, Inhabited

/-- A node record (Table 2-4, R72) without its opcode, which the constructor of `Instr` names. `len` is the LEN field:
00 one word, 01 two words, 10 three words, 11 refused at load. -/
structure Rec where
  len : BitVec 2
  fmt : Fmt
  imm : Bool
  m   : Bool
  d0  : BitVec 16
  d1  : BitVec 16
  aux : BitVec 16
  lit : W32
  deriving DecidableEq, Repr, Inhabited

/-- The matching action of a token (Table 2-1): 00 normal, 01 sticky, 10 purge, 11 cancel. -/
inductive Act where
  | normal | sticky | purge | cancel
  deriving DecidableEq, Repr, Inhabited

/-- The kind of a token (Table 2-1): 00 data, 01 round marker, 10 end-of-stream, 11 bubble. -/
inductive Kind where
  | data | marker | eos | bubble
  deriving DecidableEq, Repr, Inhabited

/-- A token (R57): the header of Table 2-1 and the payload E0 to E7. -/
structure Token where
  tag   : W64
  node  : BitVec 12
  port  : BitVec 2
  frame : BitVec 10
  round : BitVec 12
  len   : BitVec 3
  fmt   : Fmt
  act   : Act
  kind  : Kind
  exc   : Bool
  err   : Bool
  seq   : BitVec 15
  e     : List W32
  deriving DecidableEq, Repr, Inhabited

/-- A site or an island of a region: the page index within the page set and the position of Table 12-20:
0 to 2 a cell, 3 the MU, 4 STR, 5 MXI, 6 SBE. -/
structure UnitId where
  page : Nat
  pos  : Nat
  deriving DecidableEq, Repr, Inhabited

/-- The AMO operations of the A extension at the home agents (R230), as ATOM's (R242). -/
inductive AmoOp where
  | add | and | or | xor | min | max | minu | maxu | swap
  deriving DecidableEq, Repr, Inhabited

/-- One access to memory by a hart, a host or a peer. `log` is the width: 2^log bytes; `d` the destination register. -/
inductive MemOp where
  | load  (log : Nat) (signed : Bool) (d : BitVec 5)
  | store (log : Nat) (v : W64)
  | lr    (log : Nat) (d : BitVec 5)
  | sc    (log : Nat) (v : W64) (d : BitVec 5)
  | amo   (op : AmoOp) (log : Nat) (v : W64) (d : BitVec 5)
  deriving DecidableEq, Repr, Inhabited

/-- What a Virka packet carries (R415, R418, R425 to R429, R419). -/
inductive Body where
  /-- A token of a circuit to another region (R420). -/
  | token (t : Token)
  /-- A message of SEND: the words, their byte count, MTAG (R425). -/
  | message (words : List W32) (bytes : Nat) (mtag : W32)
  /-- The bytes of a POST and their destination VA (R427). -/
  | post (va : Nat) (words : List W32)
  /-- A contribution to an instance of a reduction tree (R428). -/
  | contribution (tree inst : Nat) (op : BitVec 2) (fmt : Fmt) (words : List W32) (exc : Bool)
  /-- The result of an instance, sent down the tree (R428). -/
  | result (tree inst : Nat) (words : List W32) (exc : Bool)
  /-- The failure of an instance: cause, arrived inputs, DEV of the failing node (R429). -/
  | failure (tree inst cause bitmap dev : Nat)
  /-- The return of an ALLOW credit of capability entry `cap` of region `rid` (R22, R24). -/
  | credit (rid cap : Nat)
  /-- A write through a peer window, at PA[45:0] (R434). -/
  | window (pa : Nat) (bytes : List (BitVec 8))
  /-- A RED, ATOM, CAS or CHUNK of a region through a peer window: the address PA[45:0], the opcode, OPX, the format and the operand words,
  of an f32 RED the ordinal token's E0 first (R434, R242 to R247). -/
  | atomic (pa op opx : Nat) (fmt : Fmt) (words : List W32)
  /-- An AMO of a hart or a host through a peer window (R434, R230). -/
  | access (pa : Nat) (op : MemOp)
  deriving DecidableEq, Repr, Inhabited

/-- A Virka packet: the sender and its capability entry, the destination region and ingress index, the partition (R418),
the body. -/
structure Packet where
  srcDev  : Nat
  srcRid  : Nat
  cap     : Nat
  dstDev  : Nat
  dstRid  : Nat
  eport   : Nat
  part    : BitVec 16
  id      : Nat
  body    : Body
  deriving DecidableEq, Repr, Inhabited

/-- A request of a peer device in a peer window (R434), with the port it comes in by, the requester's DEV and the
partition it carries. -/
structure PeerReq where
  port : Nat
  dev  : Nat
  part : BitVec 16
  off  : Nat
  op   : MemOp
  deriving DecidableEq, Repr, Inhabited

/-- What a VENDOR_DEFINED request carries (Table 14-4): TDISP or IDE key management. -/
inductive VendorMsg where
  | lockInterface (tdi : Nat) | startInterface (tdi : Nat) | stopInterface (tdi : Nat)
  | ideKeyProg (tdi : Nat) | ideKeyStop (tdi : Nat)
  deriving DecidableEq, Repr, Inhabited

/-- The rows of the table of operations and events, one constructor each. Rows of the CC's custom instructions carry
the register fields rd, rs1, rs2 (Table 2-20); rows of node records carry the record; rows of events carry what the
event names. -/
inductive Instr where
  /-- R377. Finds pages by place(), pre-empting if needed, issues the lowest free RID, zeroises the SRAM and leaves the region ALLOCATED. -/
  | rgnAlloc (d a s : BitVec 5)
  /-- R379. Checks and writes a configuration image to the region's dies, reserves Siding shares, and leaves the region LOADED once every die has acknowledged. -/
  | rgnLoad (d a s : BitVec 5)
  /-- R380. Arms a LOADED region for source release, or resumes a FROZEN or QUIESCED region to RUNNING. -/
  | rgnStart (d a s : BitVec 5)
  /-- R381. Sends the freeze wave and retires when every site, island, gateway and CFU stream of the region has halted. -/
  | rgnFreeze (d a : BitVec 5)
  /-- R382. Freezes the region and quiesces every engine, returning QUIESCED or LINKDOWN. -/
  | rgnDrain (d a : BitVec 5)
  /-- R383. Writes the QUIESCED region's context image to a buffer and returns its size. -/
  | rgnSave (d a s : BitVec 5)
  /-- R384. Checks and installs a context image into an ALLOCATED region, leaving it QUIESCED. -/
  | rgnRest (d a s : BitVec 5)
  /-- R385. Relocates a QUIESCED region to a new origin by copying every item and releasing the source pages. -/
  | rgnMove (d a s : BitVec 5)
  /-- R386. Makes the handle stale at once and starts dropping the region's tokens, operations and unconfirmed egress. -/
  | rgnKill (d a : BitVec 5)
  /-- R387. Sets the region's priority level for arbitration and Yard decisions. -/
  | rgnPrio (d a s : BitVec 5)
  /-- R388. Returns the region's state word, optionally writes the status block and empties the exception log, and clears ROLLED. -/
  | rgnStat (d a s : BitVec 5)
  /-- R403. Takes the oldest ready call and writes its call block, or returns NOCALL. -/
  | callTake (d a s : BitVec 5)
  /-- R404. Answers a call by ticket, forming the response token or host response. -/
  | callDone (d a : BitVec 5)
  /-- R456. Reads one fuse word (rs2 = 0). -/
  | secFuseRead (d a s : BitVec 5)
  /-- R456. Blows the bits of rs2 in one fuse word where permitted and reads it back, returning FUSEFAIL on a mismatch. -/
  | secFuseBlow (d a s : BitVec 5)
  /-- R457. Writes a measurement register of a die to memory (EXT = 0). -/
  | secMeasRead (d a s : BitVec 5)
  /-- R457. Extends a measurement register by a digest read from memory (EXT = 1), where the privilege allows it. -/
  | secMeasExtend (d a s : BitVec 5)
  /-- R458. Returns a key slot's valid bit and bound partition without change (QUERY). -/
  | secWipeQuery (d a s : BitVec 5)
  /-- R458. Erases one or all tenant key slots and, with GEN, fills one with a fresh key bound to a partition. -/
  | secWipe (d a s : BitVec 5)
  /-- R459. Draws a 32-byte nonce, writes it to memory and makes it the outstanding nonce. -/
  | secUnlkNonce (d a s : BitVec 5)
  /-- R461. Checks an unlock token and, if it passes, erases tenant keys, extends MEAS7 and opens the debug port. -/
  | secUnlkSubmit (d a s : BitVec 5)
  /-- R459. Closes the debug port, clears DBG and extends MEAS7 by 32 bytes of 0xFF. -/
  | secUnlkClose (d a s : BitVec 5)
  /-- R462. Writes a signed 384-byte attestation report of one die over the caller's nonce. -/
  | secAtst (d a s : BitVec 5)
  /-- R88. An unassigned custom encoding, wrong privilege, nonzero unused register field or unlisted custom CSR access traps with no state change. -/
  | illegalInstruction (w : W32)
  /-- R409. A read of XPARK pops the oldest parking report. -/
  | xparkPop (d : BitVec 5)
  /-- R409. Writing a popped report back with REFUSE = 1 gives every access parked on that page the fault page absent. -/
  | xparkRefuse (v : W64)
  /-- R410. A write to XINVCMD starts a translation invalidation over a region's VA range. -/
  | xinvcmd (v : W64)
  /-- R289. The invalidation completes once no TLB or walk cache holds the range and no pinning operation remains, and BUSY clears. -/
  | invalidationComplete
  /-- R411. A write to CAPDATA rewrites the selected capability entry, at once or pending its outstanding credits. -/
  | capdataWrite (v : W64)
  /-- R411. A pending capability rewrite takes effect when its credits have all returned, and PEND clears. -/
  | capabilityPendingApply (rid idx : Nat)
  /-- R416. A write to LNKDATA stores the selected port, device, partition, TDI, tree or window entry, or sets ERR. -/
  | lnkdataWrite (v : W64)
  /-- R417. A write to PARTSEL sets the partition of an ALLOCATED or LOADED region, or sets ERR. -/
  | partselWrite (v : W64)
  /-- R6. A write to a register with no behaviour of its own stores, clears or sets fields by its access codes. -/
  | csrWrite (csr : BitVec 12) (v : W64)
  /-- R437. A 64-byte host write to CALLWIN queues one host call, or drops it and sets OVF or BAD. -/
  | callwin (tdi : Nat) (call : BitVec 512)
  /-- R471. PWRGD asserted after the rails rise starts bring-up with PLL locking. -/
  | pwrgdAssert (powerOn lpddr : Bool)
  /-- R471. PLLs lock and the TRE leaves reset, reading fuses, testing engines, extending MEAS0 and verifying its firmware. -/
  | pllLock (tests fwOk : Bool)
  /-- R471. HBM4E and LPDDR 6 are trained, slot 0 generated, fabric memories zeroed, CC firmware verified and hart 0 released. -/
  | memoryTrainingDone (trained fwOk : Bool)
  /-- R19. A token advances one hop along its circuit, the switch arbitrating among competing circuits. -/
  | tokenHop (rid k : Nat)
  /-- R22. A freed receiving slot returns one credit to its circuit's origin. -/
  | creditReturn (rid : Nat)
  /-- R82. A sending gateway checks the capability entry and sends the token, drawing on its ALLOW credits. -/
  | gatewayPass (rid k : Nat)
  /-- R82. The receiving gateway places a token through the ingress entry onto the named site's link, or faults bad destination. -/
  | ingressPlace (rid k : Nat)
  /-- R418. A Virka port receives a packet and checks its partition. -/
  | packetReceive (port : Nat) (p : Packet)
  /-- R174. A data token that is first of its operand set is stored as an item in its slot group. -/
  | slotWrite
  /-- R174. A sticky token is stored, replacing an earlier sticky item, and fires a context it completes. -/
  | stickyArrival
  /-- R174. A purge clears the sticky or normal item of its port and sends nothing. -/
  | purgeArrival
  /-- R174. A cancel clears normal items, sends cancels on D0 and D1, and may leave a mark. -/
  | cancelArrival
  /-- R61. A round marker is counted against its node, port and round. -/
  | markerArrival
  /-- R32. An end-of-stream token is counted per port and forwarded once every port has its count and every seen round's marker has gone. -/
  | endOfStreamArrival
  /-- R61. A bubble is absorbed by the first node that receives it, returning its credit. -/
  | bubbleArrival
  /-- R132. A taken firing's result tokens leave on their routes after its latency, in take order. -/
  | aluResultEmit (rid : Nat) (u : UnitId)
  /-- R142. Sends its operand unchanged in any format. -/
  | copy (r : Rec)
  /-- R143. Integer add, wrapping or saturating. -/
  | iadd (r : Rec)
  /-- R143. Integer subtract, wrapping or saturating. -/
  | isub (r : Rec)
  /-- R143. Integer multiply, wrapping or saturating. -/
  | imul (r : Rec)
  /-- R143. High half of the integer product. -/
  | imulh (r : Rec)
  /-- R143. Integer multiply-add, wrapping or saturating. -/
  | imad (r : Rec)
  /-- R144. Integer divide towards zero with defined results for zero divisors. -/
  | idiv (r : Rec)
  /-- R144. Integer remainder with the sign of the dividend. -/
  | irem (r : Rec)
  /-- R142. Integer minimum. -/
  | imin (r : Rec)
  /-- R142. Integer maximum. -/
  | imax (r : Rec)
  /-- R143. Integer absolute value, wrapping or saturating. -/
  | iabs (r : Rec)
  /-- R143. Integer negation, wrapping or saturating. -/
  | ineg (r : Rec)
  /-- R145. Add with carry in, sending the sum on D0 and carry out on D1. -/
  | iaddc (r : Rec)
  /-- R145. Subtract with borrow in, sending the difference on D0 and borrow out on D1. -/
  | isubb (r : Rec)
  /-- R146. Four-way byte dot product accumulated into 32 bits. -/
  | idot4 (r : Rec)
  /-- R142. Clamps a between b and c. -/
  | iclamp (r : Rec)
  /-- R142. Bitwise AND. -/
  | and (r : Rec)
  /-- R142. Bitwise OR. -/
  | or (r : Rec)
  /-- R142. Bitwise XOR. -/
  | xor (r : Rec)
  /-- R142. Bitwise a AND NOT b. -/
  | andn (r : Rec)
  /-- R142. Bitwise NOT. -/
  | not (r : Rec)
  /-- R149. Arbitrary three-input bitwise function from a truth table. -/
  | lut3 (r : Rec)
  /-- R147. Shift left. -/
  | shl (r : Rec)
  /-- R147. Logical shift right. -/
  | shr (r : Rec)
  /-- R147. Arithmetic shift right. -/
  | sar (r : Rec)
  /-- R147. Rotate left. -/
  | rotl (r : Rec)
  /-- R147. Funnel shift of a high and low part. -/
  | funl (r : Rec)
  /-- R142. Counts leading zero bits. -/
  | clz (r : Rec)
  /-- R142. Counts one bits. -/
  | popc (r : Rec)
  /-- R142. Reverses the bit order. -/
  | brev (r : Rec)
  /-- R148. Extracts a bit field. -/
  | bext (r : Rec)
  /-- R148. Inserts a bit field. -/
  | bins (r : Rec)
  /-- R150. Integer compare writing 1 or 0. -/
  | icmp (r : Rec)
  /-- R150. Selects one of two candidates by a predicate bit. -/
  | sel (r : Rec)
  /-- R152. Floating add with one rounding. -/
  | fadd (r : Rec)
  /-- R152. Floating subtract with one rounding. -/
  | fsub (r : Rec)
  /-- R152. Floating multiply with one rounding. -/
  | fmul (r : Rec)
  /-- R152. Fused multiply-add with one rounding. -/
  | ffma (r : Rec)
  /-- R153. Floating minimum, NaN-losing or propagating. -/
  | fmin (r : Rec)
  /-- R153. Floating maximum, NaN-losing or propagating. -/
  | fmax (r : Rec)
  /-- R153. Clears the sign bit. -/
  | fabs (r : Rec)
  /-- R153. Inverts the sign bit. -/
  | fneg (r : Rec)
  /-- R154. Floating compare writing 1 or 0. -/
  | fcmp (r : Rec)
  /-- R155. Rounds to an integral value in its own format. -/
  | frnd (r : Rec)
  /-- R155. Writes a one-hot class mask. -/
  | fclass (r : Rec)
  /-- R155. Multiplies by a power of two with one rounding. -/
  | fscale (r : Rec)
  /-- R156. Two-way dot product of halves added to f32 with one rounding. -/
  | fdot2 (r : Rec)
  /-- R153. Maximum of absolute values. -/
  | famax (r : Rec)
  /-- R157. Converts from the token's format into the record's format by position. -/
  | cvt (r : Rec)
  /-- R158. Converts with a power-of-two scale and stochastic rounding from draw bits. -/
  | cvts (r : Rec)
  /-- R160. Scales f32 values and packs them into a narrow format. -/
  | qpack (r : Rec)
  /-- R161. Expands one part of a packed packet into scaled f32. -/
  | qunpack (r : Rec)
  /-- R159. Computes a block multiplier on D0 and an S24 scale on D1. -/
  | qscale (r : Rec)
  /-- R163. Concatenates two packets. -/
  | pmerge (r : Rec)
  /-- R163. Cuts a packet into leading and trailing parts on D0 and D1. -/
  | psplit (r : Rec)
  /-- R164. Gathers elements by runtime index. -/
  | pext (r : Rec)
  /-- R164. Replaces one element. -/
  | pins (r : Rec)
  /-- R164. Replicates one element to the shape of port 1. -/
  | pbcast (r : Rec)
  /-- R165. Folds a packet's values in index order. -/
  | preduce (r : Rec)
  /-- R164. Permutes elements by a static map. -/
  | pshuf (r : Rec)
  /-- R166. Writes the packet's element count. -/
  | plen (r : Rec)
  /-- R166. Tests whether any, all or no value is set. -/
  | ptest (r : Rec)
  /-- R167. Produces kd10 draws and sends the advanced counter on D1. -/
  | draw (r : Rec)
  /-- R168. Adds 128-bit counters modulo 2^128. -/
  | cadd128 (r : Rec)
  /-- R189. Routes data to D0 or D1 by a predicate, cancelling the other path unless .nocancel. -/
  | steer (r : Rec)
  /-- R190. Forwards every data token of either port. -/
  | merge (r : Rec)
  /-- R191. Sends port 0's data once the control token of the same key has arrived. -/
  | gate (r : Rec)
  /-- R192. Pushes a zero tag field to open a loop context, counting contexts when it has D1. -/
  | enter (r : Rec)
  /-- R192. Increments the innermost tag field. -/
  | next (r : Rec)
  /-- R192. Pops the innermost tag field, acting as a counted exit when port 1 has a circuit. -/
  | leave (r : Rec)
  /-- R193. Pushes a field holding the call site and caller frame. -/
  | callf (r : Rec)
  /-- R193. Pops the call field, restoring the caller frame and sending the call site on D1. -/
  | retf (r : Rec)
  /-- R194. Requests a frame from the pool MU for its token. -/
  | falloc (r : Rec)
  /-- R179. The pool MU grants the lowest free permitted frame and the FALLOC sends its token with that FRAME. -/
  | fallocGrant (rid : Nat)
  /-- R194. Returns the token's frame to its class and sends a completion. -/
  | ffree (r : Rec)
  /-- R194. Sends its data with ACT sticky. -/
  | stick (r : Rec)
  /-- R194. Sends a purge token for its context. -/
  | purge (r : Rec)
  /-- R194. Sends a cancel for its context. -/
  | cancel (r : Rec)
  /-- R196. Stamps passing data with its round and SEQ, closing rounds after a count and keeping replay items. -/
  | mark (r : Rec)
  /-- R197. Keeps one value across rounds, re-sending it before each forwarded marker. -/
  | hold (r : Rec)
  /-- R198. Sends an end-of-stream token for each data token it takes. -/
  | eos (r : Rec)
  /-- R195. Emits the next data token, marker or end-of-stream of its rounds, or a throttling bubble. -/
  | source (r : Rec)
  /-- R198. Absorbs tokens, logging flagged data and reporting markers for seal and completion. -/
  | sink (r : Rec)
  /-- R199. Sends a constant packet from element memory for each trigger. -/
  | const (r : Rec)
  /-- R200. Sends the innermost tag field as n32. -/
  | tagget (r : Rec)
  /-- R200. Sends the whole 64-bit tag as n64 (.tag). -/
  | taggetTag (r : Rec)
  /-- R200. Sends port 0's data with a tag or innermost field taken from port 1. -/
  | tagset (r : Rec)
  /-- R201. Reduces a loop context's values in ascending tag order and closes the loop field. -/
  | oreduce (r : Rec)
  /-- R262. Sends a request for 2^x to the column's CFU. -/
  | ex2 (r : Rec)
  /-- R262. Sends a request for log2 x to the CFU. -/
  | lg2 (r : Rec)
  /-- R262. Sends a request for 1/x to the CFU. -/
  | rcp (r : Rec)
  /-- R262. Sends a request for 1/sqrt x to the CFU. -/
  | rsq (r : Rec)
  /-- R262. Sends a request for sqrt x to the CFU. -/
  | sqrt (r : Rec)
  /-- R262. Sends a request for sin(pi x) to the CFU. -/
  | sinpi (r : Rec)
  /-- R262. Sends a request for cos(pi x) to the CFU. -/
  | cospi (r : Rec)
  /-- R262. Sends a request for tanh x to the CFU. -/
  | tanh (r : Rec)
  /-- R262. Sends a request for erf x to the CFU. -/
  | erf (r : Rec)
  /-- R258. The CFU takes the next request of its column in rotation and computes correctly rounded results. -/
  | cfuRequestServe (col : Nat)
  /-- R255. The CFU returns one reply per destination into the issuing cell's queue, in route order. -/
  | cfuReply (col : Nat)
  /-- R239. Takes a load into the access buffer. -/
  | ld (r : Rec)
  /-- R239. Takes a weak store into the access buffer. -/
  | st (r : Rec)
  /-- R239. Takes an acquire load. -/
  | ldacq (r : Rec)
  /-- R239. Takes a release store. -/
  | strel (r : Rec)
  /-- R240. Takes a load that waits for every word full. -/
  | lds (r : Rec)
  /-- R240. Takes a load that waits for full and then empties the words. -/
  | lde (r : Rec)
  /-- R239. Takes a release store that sets the words full. -/
  | stf (r : Rec)
  /-- R240. Takes a store that waits for every word empty. -/
  | stw (r : Rec)
  /-- R241. Reads the full/empty bits of the addressed words. -/
  | feget (r : Rec)
  /-- R241. Sets the full/empty bits of the addressed words. -/
  | feset (r : Rec)
  /-- R242. Atomic read-modify-write of each addressed value. -/
  | atom (r : Rec)
  /-- R243. Atomic compare-and-swap of each addressed value. -/
  | cas (r : Rec)
  /-- R244. Reduction into memory returning only a completion, ordinal-ordered for f32. -/
  | red (r : Rec)
  /-- R247. Hands out an iteration range from a chunk record in one atomic step. -/
  | chunk (r : Rec)
  /-- R248. Completes once every earlier operation of its chain on its path has completed. -/
  | drain (r : Rec)
  /-- R226. Completes once every earlier access of its chain and context is performed at its scope. -/
  | fence (r : Rec)
  /-- R245. Sets the addressed words empty and ends every wait on them with a loss status. -/
  | syncinv (r : Rec)
  /-- R222. A buffered access whose turn, waits and checks allow it is performed and sends its results. -/
  | accessPerform (rid page k : Nat)
  /-- R227. An access refused by a full waiter list asks again when an entry frees. -/
  | waiterRetry (rid page : Nat)
  /-- R215. A performed or cancelled access in turn retires and advances its context's LAST. -/
  | accessRetire (rid page k : Nat)
  /-- R205. An MU serves a request that another MU or an SBE sends to its slice. -/
  | muRequestPortServe (rid page : Nat)
  /-- R229. A global ATOM, CAS or CHUNK executes at the home agent and makes its line provisional. -/
  | homeAgentRmw (k : Nat)
  /-- R244. A dropped global f32 contribution below NEXT is reported and the region takes the imprecise fault ordinal. -/
  | homeAgentOrdinalReport
  /-- R230. An LR reservation is lost after 2 microseconds. -/
  | reservationExpiry (h : Nat)
  /-- R276. Streams global words into region SRAM. -/
  | sload (r : Rec)
  /-- R276. Streams region SRAM words into the Siding as global writes. -/
  | sstore (r : Rec)
  /-- R277. Streams global words out as tagged packets and an end token. -/
  | sfeed (r : Rec)
  /-- R276. Gathers global rows by an index list into region SRAM. -/
  | sgather (r : Rec)
  /-- R276. Scatters region SRAM rows to global rows by an index list. -/
  | sscatter (r : Rec)
  /-- R279. Probes translations and returns status words without parking. -/
  | sxlat (r : Rec)
  /-- R276. Copies global words to global words through the Siding. -/
  | scopy (r : Rec)
  /-- R275. Pass 1 has checked, translated and pinned every address, and pass 2 begins moving words. -/
  | streamPass1Done (rid : Nat) (u : UnitId) (k : Nat)
  /-- R277. SFEED sends its next packet as route credits allow. -/
  | sfeedPacket (rid : Nat) (u : UnitId) (k : Nat)
  /-- R278. An STR operation whose writes are all performed sends its completion and releases its pins. -/
  | streamComplete (rid : Nat) (u : UnitId) (k : Nat)
  /-- R287. A PWS walk returns a translation, a fault, or an absent page. -/
  | pageWalkComplete (k : Nat)
  /-- R315. Accepts a matrix multiply-accumulate into an accumulator. -/
  | mma (r : Rec)
  /-- R315. Accepts a block-scaled matrix multiply-accumulate. -/
  | mmas (r : Rec)
  /-- R316. Zeroes an accumulator and sets its mode. -/
  | mzero (r : Rec)
  /-- R317. Accepts a write-out of an accumulator to region SRAM. -/
  | mout (r : Rec)
  /-- R318. Accepts a codebook load into a slot. -/
  | mcb (r : Rec)
  /-- R319. Wakes the quadrants of its mask. -/
  | mwake (r : Rec)
  /-- R319. Gates the quadrants of its mask. -/
  | mgate (r : Rec)
  /-- R307. An MMA or MMAS that has read every operand line sends its completion with E0 = K. -/
  | mmaOperandsRead (rid : Nat) (u : UnitId) (k : Nat)
  /-- R317. After earlier operations on its accumulator finish, MOUT writes the rows and sends its completion. -/
  | moutWrite (rid : Nat) (u : UnitId) (k : Nat)
  /-- R311. After earlier users have read their operands, MCB logs the old table and installs the new one. -/
  | mcbInstall (rid : Nat) (u : UnitId) (k : Nat)
  /-- R313. Quadrants become powered or gated and the waiting MWAKE, MGATE or operation proceeds. -/
  | quadrantPowerChange (rid : Nat) (u : UnitId) (k : Nat)
  /-- R337. Generates stream registers from values and draw state. -/
  | sgen (r : Rec)
  /-- R340. Bitwise AND of two streams. -/
  | sand (r : Rec)
  /-- R340. Bitwise XNOR of two streams. -/
  | sxnor (r : Rec)
  /-- R340. Bitwise select between two streams by a third. -/
  | smux (r : Rec)
  /-- R340. Bitwise OR of two streams. -/
  | sor (r : Rec)
  /-- R342. Counts the ones of registers. -/
  | scnt (r : Rec)
  /-- R343. Counts bit-pairs against a threshold with deterministic early stop. -/
  | sdot (r : Rec)
  /-- R338. Regenerates a stream with fresh positions under a new lineage. -/
  | sregen (r : Rec)
  /-- R341. Changes a stream's length by truncation or repetition. -/
  | slen (r : Rec)
  /-- R344. Loads registers from region SRAM. -/
  | sloadv (r : Rec)
  /-- R344. Stores registers to region SRAM as engine writes. -/
  | sstorev (r : Rec)
  /-- R341. Clears registers to a length with zero bits and mask. -/
  | sclr (r : Rec)
  /-- R332. An accepted SBE operation whose effect is complete sends its tokens. -/
  | sbeOperationComplete (rid : Nat) (u : UnitId) (k : Nat)
  /-- R425. Sends a message through a capability entry to a remote mailbox. -/
  | send (r : Rec)
  /-- R425. Posts a buffer at the tail of a mailbox. -/
  | recv (r : Rec)
  /-- R427. Sends bytes to be written at a destination VA of the receiving region. -/
  | post (r : Rec)
  /-- R428. Contributes words to an instance of an in-switch reduction tree. -/
  | nred (r : Rec)
  /-- R430. Sends a call packet to one of the region's call queues. -/
  | call (r : Rec)
  /-- R415. The receiving gateway's acknowledgement lets an item leave the sending Siding. -/
  | linkAcknowledge (id : Nat)
  /-- R425. A message meets a posted buffer at the receiving gateway and its arrival token goes to RECV's MARK. -/
  | messageDelivery (rid k : Nat)
  /-- R427. A POST is translated and written at the receiving device's home agents, or parks or fails. -/
  | postDelivery (rid k : Nat)
  /-- R426. The delivery report of a SEND or POST arrives at its MARK. -/
  | sendReportArrival (rid : Nat) (id status placed sent : Nat)
  /-- R428. When every input of an instance has arrived at a node it is combined in fixed order and sent on. -/
  | nredCombine (tree inst : Nat)
  /-- R429. An input missing DEADLINE fails the instance and the failure propagates. -/
  | nredDeadline (tree inst : Nat)
  /-- R438. A Virka port's UP changes and machine interrupt 17 becomes pending. -/
  | portUpChange (port : Nat) (up : Bool) (peer : BitVec 20)
  /-- R434. A global access in a peer window is sent to and served at the peer device. -/
  | peerAccess (req : PeerReq)
  /-- R449. A TDI's CXL or PCIe access decrypts or encrypts at the home agent under its partition's slot. -/
  | hostMemoryAccess (tdi : Nat) (pa : Nat) (op : MemOp)
  /-- R405. A held call response enters its MARK once the region is RUNNING. -/
  | callResponseDelivery (rid : Nat)
  /-- R419. A probed device's Yard answers once the named region is loaded with the probing partition. -/
  | probe (dev rid : Nat) (part : BitVec 16) (target : Nat)
  /-- R419. A probe answer arrives at the armed region's Yard. -/
  | probeAnswer (rid dev target : Nat)
  /-- R379. A die acknowledges a region's configuration, and the region becomes LOADED when all have. -/
  | dieConfigAck (rid die : Nat)
  /-- R31. The Yard releases an armed region's sources once acknowledgements and any dependency are satisfied. -/
  | sourceRelease (rid : Nat)
  /-- R133. Each site, island, gateway and stream reports halting after completing its taken work. -/
  | freezeHaltReport (rid : Nat)
  /-- R422. An unacknowledged item on a down port or waiting 100 ms ends DRAIN with LINKDOWN. -/
  | drainLinkdown (rid : Nat)
  /-- R386. When every operation of a killed region is done, its SRAM is zeroised and its pages and RID released. -/
  | killComplete (rid : Nat)
  /-- R392. Regions that have run a slice are evicted to restore an equal-level EVICTED region. -/
  | yardSliceExpiry (rid : Nat)
  /-- R392. A region that has waited MINWAIT slices is restored for one slice. -/
  | yardMinimumShare (rid : Nat)
  /-- R392. The Yard restores an EVICTED region when place() finds it an origin. -/
  | yardRestore (rid : Nat)
  /-- R354. Round n seals once its markers reach every sink and its stores and island operations have completed. -/
  | roundSeal (rid : Nat)
  /-- R96. W = 288 cycles after seal with no covering report, the round is confirmed and its held effects released. -/
  | roundConfirm (rid : Nat)
  /-- R367. The pair comparator compares equal-key entries of both members and releases one or faults redundancy mismatch. -/
  | comparatorMatch (k : Nat)
  /-- R357. A strike report reaches the Yard and starts the rollback of every covered region. -/
  | strikeReport (die cx cy : Nat)
  /-- R359. After the freeze, the region discards newer tokens and work, undoes writes, discards egress, resets TFUs, scrubs and resumes. -/
  | rollback (rid : Nat)
  /-- R364. An error tag rolls back round r and newer while keeping egress keys, and re-executes. -/
  | roundReplay (rid : Nat)
  /-- R352. Every 1 ms each sensor checks itself and a cell whose sensors all fail is marked deaf. -/
  | asaSelfCheck (die cx cy : Nat) (allFail : Bool)
  /-- R369. At each interval the Yard withdraws the next cluster, moves or sets aside its regions and starts scan self-test. -/
  | iftInterval
  /-- R369. Scan self-test ends; the cluster returns or is retired and set-aside regions are restored. -/
  | scanSelfTestDone (passed : Bool)
  /-- R468, R469. Every 10 microseconds the Yard raises or lowers the DUTY of D0 and of D1 by its hottest sensor; `base` is the hottest
of DX. -/
  | thermalUpdate (t : BitVec 8 × BitVec 8) (base : BitVec 8)
  /-- R470. A sensor at TCRIT freezes every region and asserts THERMTRIP_N. -/
  | thermalTrip
  /-- R453. An alarm freezes every region and acts by its class's policy, erasing keys or locking down, and reports. -/
  | securityAlarm (cls : Nat) (code : BitVec 8)
  /-- R465. A supply rail leaving its guard band raises the voltage alarm. -/
  | railGuardViolation
  /-- R467. A clock period leaving its guard band raises the clock alarm. -/
  | clockGuardViolation
  /-- R452. The tamper mesh opening or shorting raises the tamper alarm. -/
  | tamperEvent
  /-- R452. The hourly known-answer test of the TRE engines runs and a failure raises the self-test alarm. -/
  | treHourlySelfTest (passed : Bool)
  /-- R463. An access through the debug port is served within the open mask or refused with a debug-misuse alarm. -/
  | debugAccess (bit : Nat) (pa : Nat)
  /-- R445. SPDM GET_VERSION request. -/
  | getVersion
  /-- R445. SPDM GET_CAPABILITIES request. -/
  | getCapabilities
  /-- R445. SPDM NEGOTIATE_ALGORITHMS request. -/
  | negotiateAlgorithms
  /-- R446. SPDM GET_DIGESTS request over the certificate slots. -/
  | getDigests
  /-- R446. SPDM GET_CERTIFICATE request returning a die's chain. -/
  | getCertificate (slot off len : Nat)
  /-- R446. SPDM CHALLENGE signed with the slot's die identity key. -/
  | challenge (slot : Nat) (nonce : BitVec 256)
  /-- R446. SPDM GET_MEASUREMENTS returning signed measurement blocks. -/
  | getMeasurements (slot idx : Nat) (nonce : BitVec 256)
  /-- R445. SPDM KEY_EXCHANGE opening a session. -/
  | keyExchange (owner : Option Nat)
  /-- R445. SPDM FINISH completing a session. -/
  | finish (session : Nat)
  /-- R445. SPDM HEARTBEAT on a session. -/
  | heartbeat (session : Nat)
  /-- R445. SPDM KEY_UPDATE of a session. -/
  | keyUpdate (session : Nat)
  /-- R445. SPDM END_SESSION closing a session. -/
  | endSession (session : Nat)
  /-- R445. SPDM VENDOR_DEFINED request for TDISP and IDE key management. -/
  | vendorDefined (session : Nat) (msg : VendorMsg)
  /-- R445. Any other SPDM request receives ERROR UnsupportedRequest. -/
  | spdmUnsupportedRequest (code : Byte)
  /-- R447. TDISP LOCK_INTERFACE sets BOUND and freezes the TDI's partition. -/
  | lockInterface (tdi : Nat)
  /-- R447. TDISP START_INTERFACE moves the TDI to RUN. -/
  | startInterface (tdi : Nat)
  /-- R447. TDISP STOP_INTERFACE returns the TDI to CONFIG_UNLOCKED, erasing IDE keys and clearing BOUND. -/
  | stopInterface (tdi : Nat)
  /-- R447. A VF configuration change or IDE integrity failure moves a locked or running TDI to ERROR. -/
  | tdiError (tdi : Nat)
  /-- R471. RESET_N held low returns the device to bring-up step 1. -/
  | resetNAssert
  /-- R471. A failed PWRGD returns the device to bring-up step 1. -/
  | pwrgdFail (railsLost : Bool)
  /-- R471. PLLs not locked within 1 ms hold the harts in reset and drive BOOTFAIL. -/
  | pllLockTimeout
  /-- R352. The Yard moves a region off a deaf strike cell at the next opportunity, after which its withheld confirmations proceed. -/
  | deafCellMove (rid : Nat)
  /-- R230. A CC hart's load, store, LR, SC or AMO reaches a home agent under key slot 0, waits on provisional lines, and sets, uses or breaks a reservation. -/
  | ccHartMemoryAccess (va : W64) (op : MemOp)
  /-- R306. The accumulation of an accepted MMA or MMAS finishes, updating the accumulator and EXC_acc and freeing its operation slot for waiting MOUT, MZERO or new acceptances. -/
  | mmaAccumulationDone (rid : Nat) (u : UnitId) (k : Nat)
  deriving DecidableEq, Repr, Inhabited

/-- Who makes the next step. -/
inductive Who where
  /-- Hart `h` fetches and executes the instruction at its pc. -/
  | hart (h : Nat)
  /-- Hart `h` performs a row that one of its CSR or memory instructions stands for. -/
  | hartDoes (h : Nat) (i : Instr)
  /-- Unit `u` of region `rid` looks at the head token of its queue `q` (R127, R205, R269, R306, R330). -/
  | take (rid : Nat) (u : UnitId) (q : Nat)
  /-- The cell `u` of region `rid` makes the next emission of its SOURCE (R185). -/
  | source (rid : Nat) (u : UnitId)
  /-- An event of the device or of the outside world. -/
  | event (i : Instr)
  deriving DecidableEq, Repr, Inhabited

/-- Where an uncorrectable error strikes an array with an error-correcting code (R126, R206, R261, R287, R321, R346): what the
place holds is lost, and it reads as an error until it is written. -/
inductive Upset where
  /-- Token `i` of queue `q` of a unit. -/
  | queue (rid : Nat) (u : UnitId) (q i : Nat)
  /-- Slot `i` of a unit. -/
  | slot (rid : Nat) (u : UnitId) (i : Nat)
  /-- Word `w` of a unit's element memory, of a record or of data. -/
  | element (rid : Nat) (u : UnitId) (w : Nat)
  /-- CFU request `i` of the region's tokens in flight, or its computation. -/
  | request (rid i : Nat)
  /-- Word `w` of a page's SRAM slice. -/
  | sram (rid page w : Nat)
  /-- Entry `i` of a page's undo log. -/
  | undo (rid page i : Nat)
  /-- Accumulator `a` of an MXI. -/
  | accumulator (rid : Nat) (u : UnitId) (a : Nat)
  /-- Register `r` of an SBE. -/
  | register (rid : Nat) (u : UnitId) (r : Nat)
  /-- Word `w` of HBM4E or LPDDR 6, by its physical address divided by 4. -/
  | memory (w : Nat)
  deriving DecidableEq, Repr, Inhabited

/-- One turn: who moves, the fabric cycles that pass before it, the uncorrectable errors that strike meanwhile, what the host writes
to the CHSTAT registers of its call channels (R437), whether what takes time goes on beyond it (the scan of RGN.SAVE, the copy of
RGN.MOVE), and the harts that hart 0's software interrupt releases (R471). -/
structure Turn where
  dt     : Nat
  who    : Who
  upsets : List Upset := []
  chstat : List (Nat × BitVec 64) := []
  slow   : Bool := false
  ipi    : List Nat := []
  deriving DecidableEq, Repr, Inhabited

end Sys2Proof
end

