-- ==== Sys2Proof/Machine/State.lean ====
section
/-! DEFINITION. The state of the device as plain data: what each chapter's state table names, one structure for each
kind of unit, and the state after reset (power-on, before bring-up step 1 ends, R471). -/

namespace Sys2Proof.Machine

/-- The ways the machine stops with a fault: none. The device's own faults (Table 12-6) freeze a region and the harts' faults
are traps; both are next states. -/
inductive Fault where
  deriving DecidableEq, Repr

/-- The ways the machine refuses to give a step a meaning. -/
inductive Refusal where
  /-- Raised only by an arm of the dispatch whose row has no meaning yet, of which there is none. Safe: the machine stops. -/
  | notModelled (mnemonic : String)
  deriving DecidableEq, Repr

/-! ### Region state -/

/-- The states of Table 1-5, with the codes of Table 12-3. -/
inductive RState where
  | free | allocated | loaded | running | frozen | quiesced | evicted
  deriving DecidableEq, Repr, Inhabited

/-- The fault causes of Table 12-6 in code order 0x01 to 0x1F (R390). -/
inductive Cause where
  | operandCollision | packetLengthMismatch | tagLayout | tagOverflow | frameState | roundCount | recordError
  | permission | invalidCapability | badDestination | addressRange | alignment | ordinal | pageTable
  | physicalAddress | streamSize | roundBound | pageAbsent | operandBand | accumulatorMode | accumulatorRound
  | operandError | streamCorrelation | streamLength | registerRange | registerRound | registerError | stateLost
  | errorRepeat | redundancyMismatch | securityAlarm
  deriving DecidableEq, Repr, Inhabited

/-- The fault record of a region (Table 12-5); V is its presence in `Region.fault`. -/
structure FaultRec where
  tag    : W64
  node   : BitVec 12
  round  : BitVec 12
  seq    : BitVec 15
  page   : Nat
  pos    : Nat
  cause  : Cause
  vaf    : Bool
  detail : BitVec 128
  deriving DecidableEq, Repr, Inhabited

/-- One entry of the exception log (Table 3-9). -/
structure XEntry where
  tag   : W64
  node  : BitVec 12
  round : BitVec 12
  page  : Nat
  pos   : Nat
  seq   : BitVec 15
  deriving DecidableEq, Repr, Inhabited

/-- The exception log of a region (Table 3-9). -/
structure XLog where
  lost    : BitVec 32
  entries : List XEntry
  deriving DecidableEq, Repr, Inhabited

/-- A token held in an input queue, with the origin of its circuit (Table 12-8, R400) and its serial at that origin. A
token that came through a receiving gateway has the origin ⟨rid, 7⟩ and the route 16 + i: its slot is a credit of
capability entry i of region rid (R82, R411); rid + 2048 × (DEV + 2) is region rid of device DEV, and 4,095 no region. -/
structure QTok where
  tok   : Token
  org   : UnitId
  route : Nat
  sid   : Nat
  deriving DecidableEq, Repr, Inhabited

/-- A result token of a taken firing that has not left yet (R131, R132). `paid` tells that a credit of its route is
reserved for it (R129): a firing reserves one on each route, and a second token on that route spends one when it leaves. -/
structure Out where
  route : Nat
  ready : Nat
  paid  : Bool
  tok   : Token
  deriving DecidableEq, Repr, Inhabited

/-- Where a token in flight stands (R19, R20, R399). -/
inductive Loc where
  /-- At a site, having arrived by `inp` (0-3 local route, 4 north, 5 east, 6 south, 7 west) under identifier `cin`. -/
  | at (page pos inp cin : Nat)
  /-- Held at the gateway of a site, at the end that its switch entry `index` names. -/
  | gateway (page pos index : Nat)
  /-- Held at a receiving gateway, to be placed through the ingress entry `eport` (R82). -/
  | ingress (eport : Nat)
  /-- In the CFU request stream of the column of its issuing cell. -/
  | cfuRequest
  /-- In the CFU reply stream, computed. -/
  | cfuReply (ready : Nat)
  deriving DecidableEq, Repr, Inhabited

/-- A token in flight on a circuit (R19, R399). -/
structure Flight where
  tok   : Token
  org   : UnitId
  route : Nat
  sid   : Nat
  loc   : Loc
  since : Nat
  /-- For a CFU request: opcode and destinations still to be replied to. -/
  cfuOp : Option (Nat × Fmt × List (BitVec 16))
  /-- The capability entry of the gateway as the token reached it (R411). -/
  cap   : Option W64 := none
  deriving DecidableEq, Repr, Inhabited

/-- One round entry of a counter slot (Table 5-2). -/
structure CEntry where
  round : BitVec 12
  seen  : Bool
  exp   : Nat
  got   : Nat
  deriving DecidableEq, Repr, Inhabited

/-- The position of a SOURCE or MARK (Table 5-2; the emission-opportunity count is R469's). `wrote` is the round that last
wrote it (Table 5-1). -/
structure Position where
  round   : BitVec 12
  seq     : Nat
  done    : BitVec 16
  eosSent : Bool
  k       : BitVec 4
  wrote   : BitVec 12
  deriving DecidableEq, Repr, Inhabited

/-- The accumulator of an OREDUCE (Table 5-2). -/
structure Accum where
  tag   : W64
  round : BitVec 12
  next  : Nat
  k     : Option Nat
  /-- SEQ of the end token, once it has come. -/
  seq   : BitVec 15
  fmt   : Fmt
  /-- The running sum (LEN, elements), present once it holds a value. -/
  sum   : Option (BitVec 3 × List W32)
  exc   : Bool
  err   : Bool
  deriving DecidableEq, Repr, Inhabited

/-- What a slot holds (Tables 5-1 and 5-2); an empty slot is not listed. A counter bears the round that last wrote it. -/
inductive Slot where
  | operand (sticky : Bool) (t : Token)
  | mark (t : Token) (am : BitVec 4)
  | counter (es : List CEntry) (wrote : BitVec 12)
  | position (p : Position)
  | hold (t : Token)
  | accum (a : Accum)
  deriving DecidableEq, Repr, Inhabited

/-- The key of a side-effecting access (R232); `idx` is the value index of Table 12-19. -/
structure Key where
  rid   : Nat
  chain : Nat
  round : BitVec 12
  seq   : BitVec 15
  tag   : W64
  frame : BitVec 10
  own   : Nat
  idx   : Nat
  deriving DecidableEq, Repr, Inhabited

/-- An undo-log item (Table 6-5). -/
inductive UndoItem where
  | word (w : Nat) (full : Bool) (old : W32)
  | seal (pos idx : Nat) (old : Slot)
  | frame (f : Nat) (wasAllocated : Bool)
  | ordinal (w : Nat) (old : Option Nat)
  | replay (node : BitVec 12) (pos : Nat) (t : Token)
  deriving DecidableEq, Repr, Inhabited

/-- An undo-log entry with the round that labels it (Table 6-5); `bad` tells an uncorrectable error in it (R206). -/
structure Undo where
  round : BitVec 12
  item  : UndoItem
  bad   : Bool
  deriving DecidableEq, Repr, Inhabited

/-- Where an access of the access buffer stands (R205, R215, R222). -/
inductive AccSt where
  | buffered | issued | waiting | refused | parked | home | performed | cancelled | lost
  deriving DecidableEq, Repr, Inhabited

/-- An access taken and not yet retired (Table 6-1). `ops` are its operands with their ports and stickiness; `last` is
the queued token whose take completed the set; `results` are the values fixed so far, by value index. -/
structure Access where
  id      : Nat
  op      : Nat
  r       : Rec
  node    : BitVec 12
  ops     : List (BitVec 2 × Bool × Token)
  queue   : Nat
  last    : QTok
  hdr     : Token
  st      : AccSt
  results : SMap W64
  /-- The completion has been sent (a weak store or RED answers at issue, R231). -/
  sent    : Bool
  deriving DecidableEq, Repr, Inhabited

/-- One entry of the wave table (R215, Table 12-19), with the round of the access that opened it. -/
structure Wave where
  chain : Nat
  tag   : W64
  frame : BitVec 10
  round : BitVec 12
  last  : Option Nat
  deriving DecidableEq, Repr, Inhabited

/-- A context of a chain with ITER = 1 whose TAIL has retired in a round (R219). -/
structure IterDone where
  chain : Nat
  tag   : W64
  round : BitVec 12
  deriving DecidableEq, Repr, Inhabited

/-- A request another MU or an island sent to a slice (R205, R329): the asking unit and its access or operation. -/
structure PortReq where
  unit : UnitId
  acc  : Nat
  deriving DecidableEq, Repr, Inhabited

/-- A floating contribution held by an agent (R246); `armed` once every element of its packet has come to its slice (R52). -/
structure Contribution where
  armed : Bool := true
  word  : Nat
  ord   : Nat
  last  : Bool
  value : W32
  opx   : Nat
  key   : Key
  deriving DecidableEq, Repr, Inhabited

/-- A deduplication entry (Table 12-19). `args` are the operands that a home agent compares (R368), `line` the line whose home
agent keeps it (0 at an MU). -/
structure Dedup where
  key   : Key
  line  : Nat
  value : Option W64
  args  : List W32
  deriving DecidableEq, Repr, Inhabited

/-- A leaf translation held by a TLB (R288): the first VA, log2 of the page size, the PA, the permissions. -/
structure Tlb where
  va : Nat
  lg : Nat
  pa : Nat
  r  : Bool
  w  : Bool
  deriving DecidableEq, Repr, Inhabited

/-- The frame pool kept by the pool MU (R178, R179): allocated frames, the waiting requests, oldest first (unit, queue,
depth), and the grants on their way (unit, queue, frame). -/
structure Pool where
  alloc   : List Nat
  waiting : List (UnitId × Nat × Nat)
  granted : List (UnitId × Nat × Nat)
  deriving DecidableEq, Repr, Inhabited

/-- The state of an MU (Table 6-1) beyond what every unit has. `fe` lists the full words, rising, `bad` those that an
uncorrectable error has struck and nothing has written since (R206). -/
structure Mu where
  sram    : List Host.Cell
  fe      : List Nat
  bad     : List Nat
  accs    : List Access
  waves   : List Wave
  iters   : List IterDone
  portq   : List PortReq
  waiters : List PortReq
  refused : List PortReq
  ords    : SMap Nat
  held    : List Contribution
  undo    : List Undo
  dedup   : List Dedup
  tlb     : List Tlb
  pool    : Pool
  nextId  : Nat
  deriving DecidableEq, Repr, Inhabited

/-- How far an operation of an STR has come (R275). -/
inductive StrSt where
  | pass1 | parked (va : Nat) | pass2
  deriving DecidableEq, Repr, Inhabited

/-- An operation of an STR (R269, R275): its trigger, the pinned pages, the words read, the packets fed, the index list as pass 1 read it
(a word that an uncorrectable error has struck is absent), and the words of its source in struck lines (R295). -/
structure StrOp where
  id   : Nat
  op   : Nat
  r    : Rec
  node : BitVec 12
  trig : QTok
  st   : StrSt
  pins : List Tlb
  data : List W32
  fed  : Nat
  sent : Bool
  index : List (Option W32)
  bad  : List Nat
  deriving DecidableEq, Repr, Inhabited

/-- The state of an STR (Table 8-1) beyond what every unit has. `given` counts the triggers at the head of its queue that cancelled
operations gave back (R295). -/
structure Str where
  ops    : List StrOp
  tlb    : List Tlb
  nextId : Nat
  given  : Nat
  deriving DecidableEq, Repr, Inhabited

/-- A descriptor waiting in a matching store (R305, R333). -/
structure MItem where
  group : Nat
  port  : Nat
  tok   : Token
  deriving DecidableEq, Repr, Inhabited

/-- How far an operation of an MXI has come (R306, R307). -/
inductive MxiSt where
  | accepted | read
  deriving DecidableEq, Repr, Inhabited

/-- An accepted operation of an MXI (R306): its operands in port order, the token whose take completed them, the words
read and the codebooks of A and B as they stood then (R311), the recorded E0 if it repeats a key. -/
structure MxiOp where
  id     : Nat
  op     : Nat
  r      : Rec
  node   : BitVec 12
  ops    : List Token
  last   : QTok
  hdr    : Token
  st     : MxiSt
  bookA  : List (BitVec 16)
  bookB  : List (BitVec 16)
  data   : List W32
  bdata  : List W32
  sas    : List W32
  sbs    : List W32
  replay : Option (List W32)
  deriving DecidableEq, Repr, Inhabited

/-- An entry of an island's key store (R308, R334, Table 12-19). `exc` and `err` are the flags that its tokens bore by the operation's
own doing; Table 12-19 records no flag, so an image drops them (log entry 101). -/
structure IKey where
  node    : BitVec 12
  tag     : W64
  frame   : BitVec 10
  round   : BitVec 12
  seq     : BitVec 15
  payload : List W32
  exc     : Bool
  err     : Bool
  deriving DecidableEq, Repr, Inhabited

/-- An accumulator of an MXI (Table 9-1): MODE, the elements that are not zero, the elements with EXC_acc set. -/
structure Acc where
  i32  : Bool
  c    : SMap W32
  exc  : List Nat
  deriving DecidableEq, Repr, Inhabited

/-- The state of an MXI (Table 9-1) beyond what every unit has; `bad` lists the accumulators that an uncorrectable error has
struck (R321). -/
structure Mxi where
  bad      : List Nat
  store    : List MItem
  ops      : List MxiOp
  accs     : List Acc
  copies   : List (Nat × BitVec 12 × Acc)
  touched  : SMap (BitVec 12)
  books    : List (List (BitVec 16))
  bookUndo : List (Nat × BitVec 12 × List (BitVec 16))
  keys     : List IKey
  awake    : BitVec 4
  nextId   : Nat
  deriving DecidableEq, Repr, Inhabited

/-- A stream register of an SBE (R324): LC, the bits (bit i is b[i]), LM, RND if set. -/
structure SReg where
  lc  : BitVec 2
  b   : BitVec 4096
  lm  : BitVec 16
  rnd : Option (BitVec 12)
  deriving DecidableEq, Repr, Inhabited

/-- An accepted operation of an SBE (R330): its operands in port order and the token whose take completed them. -/
structure SbeOp where
  id   : Nat
  op   : Nat
  r    : Rec
  node : BitVec 12
  ops  : List Token
  last : QTok
  hdr  : Token
  replay : Option (List W32)
  deriving DecidableEq, Repr, Inhabited

/-- The state of an SBE (Table 10-1) beyond what every unit has; an unlisted register is as R324's reset. `bad` lists the
registers that an uncorrectable error has struck (R346). -/
structure Sbe where
  bad    : List Nat
  regs   : SMap SReg
  store  : List MItem
  ops    : List SbeOp
  copies : List (Nat × BitVec 12 × SReg)
  keys   : List IKey
  nextId : Nat
  deriving DecidableEq, Repr, Inhabited

/-- What a unit holds beyond queues, records, credits and switch table. -/
inductive Engine where
  | cell | mu (m : Mu) | str (s : Str) | mxi (m : Mxi) | sbe (b : Sbe)
  deriving DecidableEq, Repr, Inhabited

/-- A unit of a region: a cell (Table 4-1), an MU (Table 6-1) or an island (Tables 8-1, 9-1, 10-1). `elem` and
`marks` are element memory and record map, unlisted words being 0 and unoccupied; `bad` lists the words of element memory that
an uncorrectable error has struck (R126). `nextTake` is the first cycle at which the unit may take again (R35, R127). `side` is
an island's attachment position (R397). `owed` counts, for each route, the credits that a ring of full circuits has had back in
advance (R38, R129; log entry 19). -/
structure Site where
  id      : UnitId
  side    : Nat
  stride  : Nat
  queues  : List (List QTok)
  elem    : SMap W32
  marks   : SMap (BitVec 2)
  bad     : List Nat
  slots   : SMap Slot
  credits : List Nat
  owed    : List Nat
  rot     : Nat
  nextTake : Nat
  switch  : List W32
  outq    : List Out
  aluFree : Nat
  nextSid : Nat
  eng     : Engine
  deriving DecidableEq, Repr, Inhabited

/-- A marker-state entry (R472, Table 12-20): `kind` 1 to 4. -/
structure MarkerSt where
  unit  : UnitId
  kind  : Nat
  node  : Nat
  port  : Nat
  round : BitVec 12
  count : Nat
  deriving DecidableEq, Repr, Inhabited

/-- What a held egress entry does (R291): a write, or a RED with its code, FMT and ordinal. -/
inductive HeldOp where
  | write | red (opx : Nat) (fmt : Fmt) (ord : W32)
  deriving DecidableEq, Repr, Inhabited

/-- A line entry of a Siding (R291, R399). `siding` is 0 to 31 for an STR's (16 × die + 8 × side + k), 32 and 33 for
the link gateways of D0 and D1. `pa` is absent while a restored entry waits for its translation (R294). -/
structure Held where
  siding : Nat
  va     : Nat
  pa     : Option Nat
  op     : HeldOp
  rel    : Bool
  mask   : BitVec 16
  data   : List W32
  key    : Key
  /-- The keys of the writes that have merged into it since (R291). -/
  also   : List Key := []
  /-- Kept by a round replay and not met again yet (R364). -/
  kept   : Bool
  /-- Its words that a read-modify-write of the region has taken up since, each with the round of that (R50, R229). -/
  under  : List (Nat × BitVec 12)
  deriving DecidableEq, Repr, Inhabited

/-- How far an item of a link record has come (R415, R420, R424). -/
inductive SendSt where
  /-- In the Siding, its round unconfirmed. -/
  | held
  /-- Its round confirmed; it leaves in order as credits allow. -/
  | ready
  /-- On its way to the receiving device. -/
  | sent
  /-- Acknowledged; its report has not come yet. -/
  | acked
  deriving DecidableEq, Repr, Inhabited

/-- An item a region sends through its link gateway (R420, R424): the packet, its round and key, the record that named
its report's MARK (`report` is D1 with its unit, and the header of the firing). -/
structure Send where
  pkt    : Packet
  gate   : Nat
  round  : BitVec 12
  key    : Key
  st     : SendSt
  since  : Nat
  cap    : Option Nat
  report : Option (UnitId × BitVec 16 × Token)
  /-- The site of the record or of the gateway end. -/
  site   : UnitId
  /-- For NRED: the destination of the result (R428). -/
  raddr  : Nat
  /-- Kept by a round replay and not met again yet (R364). -/
  kept   : Bool
  deriving DecidableEq, Repr, Inhabited

/-- An item kept by the receiving gateway (R421): `words` are written when the MARK `dest` takes token `tok`
(R424), those of a global buffer under the translations `pins`; `stamped` is the round the MARK gave it. -/
structure Item where
  id      : Nat
  pins    : List Tlb
  pkt     : Option Packet
  dest    : Option (UnitId × BitVec 16)
  tok     : Token
  global  : Bool
  addr    : Nat
  words   : List W32
  onWay   : Bool
  stamped : Option (BitVec 12)
  deriving DecidableEq, Repr, Inhabited

/-- A buffer posted by RECV (R425), with the trigger that posted it and the queue it came from (Table 13-6). -/
structure Buffer where
  box    : Nat
  global : Bool
  addr   : Nat
  cap    : Nat
  unit   : UnitId
  dest   : BitVec 16
  hdr    : Token
  queue  : Nat
  trig   : QTok
  deriving DecidableEq, Repr, Inhabited

/-- How far a call has come (R402 to R405). -/
inductive CallSt where
  | unconfirmed | queued | taken | answered | delivered
  deriving DecidableEq, Repr, Inhabited

/-- A call of a region or of a host channel (R402, R437). `resp` is LEN, FMT, EXC and the elements of its answer. -/
structure Call where
  ticket : Nat
  strong : Bool
  queue  : Nat
  tok    : Token
  unit   : UnitId
  dest   : BitVec 16
  key    : Key
  raddr  : Nat
  st     : CallSt
  /-- The step at which it reached the CC (R402), by which the oldest is known (R403). -/
  came   : Nat
  /-- Kept by a round replay and not met again yet (R364). -/
  kept   : Bool
  resp   : Option (BitVec 3 × Fmt × Bool × List W32)
  deriving DecidableEq, Repr, Inhabited

/-- An access or operation parked on an absent page (R290). -/
structure Parked where
  unit     : UnitId
  acc      : Nat
  va       : Nat
  write    : Bool
  reported : Bool
  deriving DecidableEq, Repr, Inhabited

/-- The configuration of a region that its image header and tables give (Table 12-7). -/
structure Config where
  bk      : BitVec 4
  carve   : Nat
  rt      : Nat
  ovf     : Nat
  live    : Nat
  words   : Nat
  egress  : Nat
  seq     : Nat
  tw      : List Nat
  common  : Nat
  reserve : List Nat
  chains  : List W64
  caps    : SMap W64
  ingress : SMap W32
  deriving DecidableEq, Repr, Inhabited

/-- A capability entry's outstanding ALLOW credits and its pending rewrite (R411). -/
structure CapUse where
  idx     : Nat
  out     : Nat
  pending : Option W64
  deriving DecidableEq, Repr, Inhabited

/-- A rollback in progress (R357, R362): `c` is the round rolled back to, absent for the state at RGN.LOAD; `area` the
strike cells (die, cx, cy) whose pages step 7 scrubs; `back` the state to return to. -/
structure Roll where
  c    : Option (BitVec 12)
  area : List (Nat × Nat × Nat)
  back : RState
  deriving DecidableEq, Repr, Inhabited

/-- The role of a region of a redundant pair (R366). -/
inductive Pair where
  | primary (shadow : Nat) | shadow (primary : Nat)
  deriving DecidableEq, Repr, Inhabited

/-- What a member of a redundant pair sends to the pair comparator (R366, R367). -/
inductive CompItem where
  | line (h : Held)
  | send (x : Send)
  | call (c : Call)
  deriving DecidableEq, Repr, Inhabited

/-- An entry of the pair comparator (R367): the member that sent it, whether that is the primary, its round. -/
structure Comp where
  rid     : Nat
  primary : Bool
  round   : BitVec 12
  item    : CompItem
  deriving DecidableEq, Repr, Inhabited

/-- What the Yard does to a region of its own accord: an eviction (R394), a move to an origin (R352, R369, R393) and a
setting aside for in-field test (R369), the last two with the state to return to; `event` tells a move that raises the
YARD event (Table 12-11). -/
inductive Errand where
  | evict | move (x y : Nat) (back : RState) (event : Bool) | test (back : RState)
  deriving DecidableEq, Repr, Inhabited

/-- A region (R30, R374): its handle, place, configuration, units and every item in flight. -/
structure Region where
  rid       : Nat
  gen       : Nat
  /-- This device's DEV as RGN.LOAD or RGN.REST found it (R182). -/
  dev       : Nat
  st        : RState
  killing   : Bool
  prio      : Nat
  x0        : Nat
  y0        : Nat
  w         : Nat
  h         : Nat
  part      : BitVec 16
  pair      : Option Pair
  armed     : Bool
  dep       : Option Nat
  depLost   : Bool
  probes    : List (Nat × Nat)
  acks      : List Nat
  released  : Bool
  /-- RGN.LOAD has been accepted and the dies have not all acknowledged (R379). -/
  loading   : Bool
  halting   : Bool
  draining  : Bool
  errand    : Option Errand
  /-- Set aside for in-field test: it fires nothing (R369). -/
  aside     : Bool
  /-- The state that a restore of the Yard returns to (R369, R392). -/
  backTo    : RState
  /-- Restored by the minimum share, for one slice (R392). -/
  oneSlice  : Bool
  eosEvent  : Bool
  rolled    : Bool
  rolls     : Nat
  fault     : Option FaultRec
  /-- The cycle in which the freezing fault recorded last arose (R389, R412). -/
  faultAt   : Nat
  xlog      : XLog
  heldLog   : List XEntry
  conf      : Option (BitVec 12)
  seals     : List (BitVec 12 × Nat)
  roll      : Option Roll
  replayed  : List (BitVec 12)
  errTags   : List (BitVec 12 × FaultRec)
  /-- The uncorrectable errors for whose sake the region rolled back: the island, what of it was struck (an accumulator, a stream
  register, or an operand line by the node of its record) and the round (R321, R346). -/
  upset     : List (UnitId × Nat × BitVec 12)
  since     : Nat
  cfg       : Config
  units     : List Site
  flights   : List Flight
  freed     : List (UnitId × Nat × Nat)
  markers   : List MarkerSt
  held      : List Held
  /-- Entries of confirmed rounds that wait in the Sidings for room in the pair comparator (R51, R367). -/
  leaving   : List Comp
  sends     : List Send
  items     : List Item
  buffers   : List Buffer
  calls     : List Call
  responses : List Call
  parked    : List Parked
  capUses   : List CapUse
  /-- The capability entries of the image that RGN.LOAD has read (R379). -/
  caps0     : SMap W64
  /-- The slots that the carve-outs and the overflow area hold (R71): unit, index, item. -/
  spilled   : List (UnitId × Nat × Slot)
  deriving DecidableEq, Repr, Inhabited

/-! ### The Control Complex -/

/-- The privilege levels of a hart. -/
inductive Priv where
  | u | s | m
  deriving DecidableEq, Repr, Inhabited

/-- What a custom instruction that has not retired waits for: the region's halt (RGN.FREEZE, R381), its quiescence
(RGN.DRAIN, R382), the dies' acknowledgements (RGN.LOAD, R379), or its turn or pages, upon which the hart performs it
(R373, R386, R391), or the end of its scan or copy (RGN.SAVE, RGN.MOVE: R55); a SUBMIT that waits for its operand, which the hart
performs again too, holds back the RGN instructions (R460). -/
inductive StallKind where
  | freeze | drain | load | again | scan | submit
  deriving DecidableEq, Repr, Inhabited

/-- A custom instruction that has not retired (R373): the region it waits for (2,048 for RGN.ALLOC), its destination
register, what it waits for, when it arrived. -/
structure Stall where
  rid   : Nat
  d     : BitVec 5
  kind  : StallKind
  since : Nat
  deriving DecidableEq, Repr, Inhabited

/-- A hart (R372): the RV64 registers, the mode, the trap and translation registers, PMP, RGNIE, the reservation (the
granule and the cycle it was set, R230). -/
structure Hart where
  x        : List W64
  f        : List W64
  fcsr     : BitVec 8
  pc       : W64
  priv     : Priv
  running  : Bool
  mstatus  : W64
  mtvec    : W64
  medeleg  : W64
  mideleg  : W64
  mie      : W64
  mip      : W64
  mepc     : W64
  mcause   : W64
  mtval    : W64
  mscratch : W64
  stvec    : W64
  sepc     : W64
  scause   : W64
  stval    : W64
  sscratch : W64
  satp     : W64
  mcounteren : W32
  scounteren : W32
  mcountinhibit : W32
  menvcfg  : W64
  senvcfg  : W64
  pmpcfg   : List Byte
  pmpaddr  : List W64
  rgnie    : BitVec 6
  resv     : Option (Nat × Nat)
  stall    : Option Stall
  deriving DecidableEq, Repr, Inhabited

/-- A parking report (R409): the region, the 64 KiB page, whether the access writes, and the access or head that parked. -/
structure Report where
  rid   : Nat
  page  : Nat
  write : Bool
  unit  : UnitId
  acc   : Nat
  deriving DecidableEq, Repr, Inhabited

/-- The CSRs of Table 12-10 that hold state of their own, field by field, and the Yard's bookkeeping. -/
structure Yard where
  rgnip     : BitVec 6
  compact   : Bool
  minwait   : BitVec 16
  slice     : BitVec 32
  xpark     : List Report
  /-- The reports that have been popped and not refused since, oldest first (R409). -/
  xpopped   : List Report
  xinvVpn   : BitVec 41
  inval     : Option (Nat × Nat × Nat)
  capHandle : BitVec 32
  /-- The entry that the last write of CAPDATA rewrites once its credits are back: region id and index (R411). -/
  capLast   : Option (Nat × Nat)
  capErr    : Bool
  capIndex  : BitVec 8
  partHandle : BitVec 32
  partErr   : Bool
  poolBase  : BitVec 31
  poolSize  : BitVec 32
  /-- The images the pool holds: the region id and the byte offset (R394). -/
  pool      : List (Nat × Nat)
  /-- The EVICTED region that evictions make room for (R392). -/
  restoring : Option Nat
  gens      : SMap Nat
  nextTicket : Nat
  reports   : BitVec 32
  rollbacks : BitVec 32
  asaV      : Bool
  asaDie    : BitVec 1
  asaCx     : BitVec 3
  asaCy     : BitVec 3
  asaCycle  : BitVec 32
  deaf0     : W64
  deaf1     : W64
  iftNext   : BitVec 8
  iftFails  : BitVec 16
  iftIntv   : BitVec 16
  iftRet    : BitVec 32
  iftTest   : Option Nat
  tjmax     : BitVec 8
  tlim      : BitVec 8
  duty0     : BitVec 4
  duty1     : BitVec 4
  deriving DecidableEq, Repr, Inhabited

/-! ### Links -/

/-- A port entry (Table 13-3). -/
structure Port where
  up    : Bool
  en    : Bool
  role  : BitVec 2
  dir   : BitVec 3
  peer  : BitVec 20
  drops : BitVec 16
  /-- A partner has announced itself since reset: PEER names it (R414). -/
  known : Bool := false
  deriving DecidableEq, Repr, Inhabited

/-- A tree entry (Table 13-3). -/
structure Tree where
  v        : Bool
  loc      : Bool
  root     : Bool
  parent   : BitVec 4
  child    : BitVec 16
  part     : BitVec 16
  deadline : BitVec 20
  deriving DecidableEq, Repr, Inhabited

/-- An instance of a reduction tree at this node (R428, R429): the inputs that have arrived (16 is the local one), when
the first came, and the outcome once there is one. -/
structure Inst where
  tree   : Nat
  inst   : Nat
  fmt    : Fmt
  op     : BitVec 2
  inputs : List (Nat × Fmt × BitVec 2 × List W32 × Bool)
  first  : Nat
  /-- The combination or the failure has gone up to the parent. -/
  up     : Bool
  out    : Option (Except (Nat × Nat × Nat) (List W32 × Bool))
  /-- The local contributor: its region, its destination address, its MARK and its header. -/
  loc    : Option (Nat × Nat × UnitId × BitVec 16 × Token)
  /-- The item by which it received the outcome (R421), until its round is confirmed. -/
  item   : Option Nat := none
  deriving DecidableEq, Repr, Inhabited

/-- The TDISP states (R447). -/
inductive Tdisp where
  | unlocked | locked | run | error
  deriving DecidableEq, Repr, Inhabited

/-- A TDI: its entry (Table 13-3), TDISP state, IDE keys present, its host call channel (R437, Table 13-8). -/
structure Tdi where
  bound : Bool
  en    : Bool
  part  : BitVec 16
  st    : Tdisp
  ide   : Bool
  bad   : Bool
  ovf   : Bool
  count : BitVec 15
  calls : List Call
  /-- Writes made to host memory through the TDI: the address and 64 bytes (R437). -/
  writes : List (W64 × List Byte)
  /-- MSI-X vector 0 of the function has been signalled. -/
  msix  : Bool
  deriving DecidableEq, Repr, Inhabited

/-- The Link Switch and the link configuration (R413 to R418). -/
structure Links where
  ports   : List Port
  nxm     : BitVec 7
  nym     : BitVec 6
  nzm     : BitVec 7
  devid   : BitVec 20
  parts   : SMap (Bool × BitVec 16)
  trees   : SMap Tree
  windows : SMap (Bool × Bool × BitVec 20)
  space   : BitVec 3
  err     : Bool
  index   : BitVec 16
  insts   : List Inst
  /-- Packets this device has sent out, with the port, oldest last read by nobody of the device. -/
  outbox  : List (Nat × Packet)
  /-- Reports and acknowledgements sent back to a peer (R415, R426): device, item, status, placed, sent. -/
  replies : List (Nat × Nat × Nat × Nat × Nat)
  /-- Answers to probes (R419): the device and region that asked, the region named. -/
  answers : List (Nat × Nat × Nat)
  /-- Items that wait for a region of their RID and partition (R427), contributions that wait for an instance (R428), and
  posts that wait or are parked. -/
  waiting : List Packet
  nextId  : Nat
  deriving DecidableEq, Repr, Inhabited

/-! ### The Trust Engine -/

/-- A key slot (R448): valid, the bound partition, the pair K1 and K2 of 512 bits in all, and the number that the model gives each key
drawn, by which it tells keys apart. -/
structure KeySlot where
  v    : Bool
  part : BitVec 16
  key  : Nat
  bits : BitVec 512 := 0#512
  deriving DecidableEq, Repr, Inhabited

/-- An SPDM session (Table 14-4): its number, its owner (a TDI, or the physical function), whether FINISH came. -/
structure Session where
  id       : Nat
  owner    : Option Nat
  finished : Bool
  keyNo    : Nat
  deriving DecidableEq, Repr, Inhabited

/-- The algorithms of Table 14-4. -/
inductive SpdmAlg where
  | ecdsaP256 | sha256 | ecdheP256 | aes256gcm
  deriving DecidableEq, Repr, Inhabited

/-- Why a request is answered with ERROR: its message is not supported (R445), or it cannot be met. -/
inductive SpdmErr where
  | unsupportedRequest | refused
  deriving DecidableEq, Repr, Inhabited

/-- A response of the SPDM responder (R445, R446): of GET_CAPABILITIES whether pre-shared keys, mutual authentication, measurement
manifests and chunked transfers are supported, the longest transfer and the sessions (Table 14-4). -/
inductive Spdm where
  | version (major minor : Nat)
  | capabilities (psk mutAuth manifest chunked : Bool) (transfer sessions : Nat)
  | algorithms (supported : List SpdmAlg)
  | error (e : SpdmErr)
  | digests (ds : List (Nat × BitVec 256))
  | certificate (slot : Nat) (bytes : List Byte)
  | challengeAuth (slot : Nat) (nonce : BitVec 256) (meas : List (BitVec 256)) (sig : BitVec 512)
  | measurements (slot : Nat) (nonce : BitVec 256) (blocks : List (Nat × BitVec 256)) (sig : BitVec 512)
  | keyExchange (session : Nat) | finish (session : Nat) | heartbeat (session : Nat) | keyUpdate (session : Nat)
  | endSession (session : Nat) | vendor (session : Nat)
  deriving DecidableEq, Repr, Inhabited

/-- The Trust Engine (chapter 14). `meas` and `measCount` are MEAS0 to MEAS7 of D0, D1 and DX; `due` are the alarms, class and code, whose
actions wait for the end of a rollback (R453). -/
structure Trust where
  fuses     : List W32
  /-- The words whose copies disagreed at reset, which read as all ones (R440). -/
  fuseBad   : List Nat
  lcs       : Nat
  meas      : List (List (BitVec 256))
  measCount : List (List Nat)
  keys      : List KeySlot
  nextKey   : Nat
  nonce     : Option (BitVec 256)
  ufail     : BitVec 2
  dbg       : BitVec 16
  lock      : Bool
  alarms    : BitVec 8
  lastalm   : BitVec 8
  reports   : List Nat
  sessions  : List Session
  nextSess  : Nat
  spdm      : List Spdm
  due       : List (Nat × Nat)
  deriving DecidableEq, Repr, Inhabited

/-! ### Memory and the home agents -/

/-- Which key a line of HBM4E or LPDDR 6 was last written under (R449, R474). -/
structure Owner where
  line : Nat
  key  : Nat
  deriving DecidableEq, Repr, Inhabited

/-- A provisional line (R229): the region id that its keys carry, the round, the line's bytes before; `kept` names the regions whose
round replay keeps it and has not met it again yet (R364). -/
structure Prov where
  kept  : List Nat
  line  : Nat
  rid   : Nat
  round : BitVec 12
  old   : List (Nat × Option Byte)
  oldKey : Option Nat
  /-- A read-modify-write has written a word of the line (R230). -/
  wrote : Bool
  deriving DecidableEq, Repr, Inhabited

/-- A global read-modify-write on its way to the home agent (R229): the asking unit's access, and the number of the key under which it
completes (R463). -/
structure HomeReq where
  key  : Nat
  rid  : Nat
  page : Nat
  acc  : Nat
  pas  : List Nat
  deriving DecidableEq, Repr, Inhabited

/-- What the home agents keep (R229, R230, R232, R244, R246). `resv` are the reservations of agents other than the
harts: the agent, the granule, the cycle it was set. -/
structure Home where
  resv    : List (Nat × Nat × Nat)
  prov    : List Prov
  queue   : List HomeReq
  dedup   : List Dedup
  ords    : SMap Nat
  held    : List Contribution
  reports : List Contribution
  deriving DecidableEq, Repr, Inhabited

/-- A page walk of the PWS (R288): region, unit, page of VA, the accesses it serves read, write. -/
structure Walk where
  rid  : Nat
  unit : UnitId
  acc  : Nat
  va   : Nat
  rd   : Bool
  wr   : Bool
  deriving DecidableEq, Repr, Inhabited

/-- Bring-up (Table 15-5): the step the device stands at; 0 is off in step 1 waiting for PWRGD, 9 is running. -/
structure Boot where
  step     : Nat
  powerOn  : Bool
  lpddr    : Bool
  bootfail : Option (BitVec 4)
  thermtrip : Bool
  deriving DecidableEq, Repr, Inhabited

/-- The device. `turn` is the turn being made, `sched` the turns still to be made, `ticks` counts steps, `cycle`
fabric cycles. `cfuRot` is the cell last served in each column (R258), `linkRot` the circuit last served at each switch
(R23). -/
structure State where
  boot    : Boot
  cycle   : Nat
  ticks   : Nat
  turn    : Turn
  sched   : List Turn
  harts   : List Hart
  regions : List Region
  mem     : List Host.Cell
  /-- The bytes of global memory that an uncorrectable error has struck and nothing has written since (R287, R295). -/
  bad     : List Nat
  owners  : List Owner
  home    : Home
  comp    : List Comp
  walks   : List Walk
  cfuRot  : SMap Nat
  linkRot : SMap Nat
  yard    : Yard
  links   : Links
  tdis    : List Tdi
  trust   : Trust
  deriving DecidableEq, Repr, Inhabited

/-! ### Reset -/

/-- A hart at reset (R471 step 8): hart 0 at the firmware entry in M-mode; the base registers at zero, the choice of
log entry 3. -/
def Hart.reset : Hart where
  x := List.replicate 32 0#64
  f := List.replicate 32 0#64
  fcsr := 0#8
  pc := 0#64
  priv := .m
  running := false
  mstatus := 0x0000000A00000000#64
  mtvec := 0#64
  medeleg := 0#64
  mideleg := 0#64
  mie := 0#64
  mip := 0#64
  mepc := 0#64
  mcause := 0#64
  mtval := 0#64
  mscratch := 0#64
  stvec := 0#64
  sepc := 0#64
  scause := 0#64
  stval := 0#64
  sscratch := 0#64
  satp := 0#64
  mcounteren := 0#32
  scounteren := 0#32
  mcountinhibit := 0#32
  menvcfg := 0#64
  senvcfg := 0#64
  pmpcfg := List.replicate 16 0#8
  pmpaddr := List.replicate 16 0#64
  rgnie := 0#6
  resv := none
  stall := none

/-- The Yard at reset: Tables 11-1 to 11-6, 12-11 to 12-17, 13-4, 15-4. -/
def Yard.reset : Yard where
  rgnip := 0#6
  compact := true
  minwait := 64#16
  slice := 1000#32
  xpark := []
  xpopped := []
  xinvVpn := 0#41
  inval := none
  capHandle := 0#32
  capLast := none
  capErr := false
  capIndex := 0#8
  partHandle := 0#32
  partErr := false
  poolBase := 0#31
  poolSize := 0#32
  pool := []
  restoring := none
  gens := []
  nextTicket := 1
  reports := 0#32
  rollbacks := 0#32
  asaV := false
  asaDie := 0#1
  asaCx := 0#3
  asaCy := 0#3
  asaCycle := 0#32
  deaf0 := 0#64
  deaf1 := 0#64
  iftNext := 0#8
  iftFails := 0#16
  iftIntv := 600#16
  iftRet := 0#32
  iftTest := none
  tjmax := 0#8
  tlim := 95#8
  duty0 := 0#4
  duty1 := 0#4

/-- The role of port `p` after reset (Table 13-1). -/
def Port.reset (p : Nat) : Port where
  up := false
  en := true
  role := if p < 12 then 1#2 else 2#2
  dir := if p < 12 then BitVec.ofNat 3 (p / 2) else 0#3
  peer := 0#20
  drops := 0#16

/-- The links at reset (Table 13-3). -/
def Links.reset : Links where
  ports := (List.range 16).map Port.reset
  nxm := 0#7
  nym := 0#6
  nzm := 0#7
  devid := 0#20
  parts := []
  trees := []
  windows := []
  space := 0#3
  err := false
  index := 0#16
  insts := []
  outbox := []
  replies := []
  answers := []
  waiting := []
  nextId := 0

/-- A TDI at reset (Tables 13-3 and 13-8). -/
def Tdi.reset : Tdi where
  bound := false
  en := false
  part := 0#16
  st := .unlocked
  ide := false
  bad := false
  ovf := false
  count := 0#15
  calls := []
  writes := []
  msix := false

/-- The Trust Engine at power-on: blank fuses, registers zero, every key slot empty (R440, R444, R474). -/
def Trust.reset : Trust where
  fuses := List.replicate 64 0#32
  fuseBad := []
  lcs := 0
  meas := List.replicate 3 (List.replicate 8 0#256)
  measCount := List.replicate 3 (List.replicate 8 0)
  keys := List.replicate 64 { v := false, part := 0#16, key := 0 }
  nextKey := 1
  nonce := none
  ufail := 0#2
  dbg := 0#16
  lock := false
  alarms := 0#8
  lastalm := 0#8
  reports := [0, 0, 0]
  sessions := []
  nextSess := 1
  spdm := []
  due := []

/-- The home agents with nothing held. -/
def Home.reset : Home where
  resv := []
  prov := []
  queue := []
  dedup := []
  ords := []
  held := []
  reports := []

/-- The machine at power-on, in bring-up step 1 (R471): no region, every page free, no memory line written (R474). -/
def State.reset : State where
  boot := { step := 1, powerOn := true, lpddr := true, bootfail := none, thermtrip := false }
  cycle := 0
  ticks := 0
  turn := { dt := 0, who := .hart 0 }
  sched := []
  harts := List.replicate 16 Hart.reset
  regions := []
  mem := []
  bad := []
  owners := []
  home := Home.reset
  comp := []
  walks := []
  cfuRot := []
  linkRot := []
  yard := Yard.reset
  links := Links.reset
  tdis := List.replicate 64 Tdi.reset
  trust := Trust.reset

end Sys2Proof.Machine
end

