-- ==== Sys2Proof/Machine/Base.lean ====
section
/-! DEFINITION. Helpers over plain data: sparse tables, list entries, fields of words, the codes of formats, bytes and
words (R4, R59, Table 2-9). -/

namespace Sys2Proof.Machine

/-! ### Sparse tables (keys rising, one entry a key) -/

/-- The entry of a key. -/
def mapGet {α : Type} : SMap α → Nat → Option α
  | [], _ => none
  | (k, v) :: t, a => if k = a then some v else mapGet t a

/-- The table with the entry of a key removed. -/
def mapDel {α : Type} : SMap α → Nat → SMap α
  | [], _ => []
  | (k, v) :: t, a => if k = a then t else (k, v) :: mapDel t a

/-- The table with an entry set, keys kept rising. -/
def mapPut {α : Type} : SMap α → Nat → α → SMap α
  | [], a, x => [(a, x)]
  | (k, v) :: t, a, x =>
    if a < k then (a, x) :: (k, v) :: t
    else if k = a then (a, x) :: t
    else (k, v) :: mapPut t a x

/-- The table with an entry set or removed. -/
def mapSet {α : Type} (m : SMap α) (a : Nat) : Option α → SMap α
  | some x => mapPut m a x
  | none => mapDel m a

/-- The rising list with `a` added. -/
def setAdd : List Nat → Nat → List Nat
  | [], a => [a]
  | k :: t, a => if a < k then a :: k :: t else if k = a then k :: t else k :: setAdd t a

/-- The rising list with `a` removed. -/
def setDel (l : List Nat) (a : Nat) : List Nat := l.filter (· != a)

/-- Entry `i` of a list, or a default. -/
def nth {α : Type} (d : α) (l : List α) (i : Nat) : α := l.getD i d

/-- The list with entry `i` changed by `f`, if it has one. -/
def modNth {α : Type} : List α → Nat → (α → α) → List α
  | [], _, _ => []
  | a :: t, 0, f => f a :: t
  | a :: t, i + 1, f => a :: modNth t i f

/-- The list without entry `i`. -/
def delNth {α : Type} : List α → Nat → List α
  | [], _ => []
  | _ :: t, 0 => t
  | a :: t, i + 1 => a :: delNth t i

/-- The first entry that meets `p`, changed by `f`. -/
def modFirst {α : Type} (p : α → Bool) (f : α → α) : List α → List α
  | [] => []
  | a :: t => if p a then f a :: t else a :: modFirst p f t

/-- The list without the first entry that meets `p`. -/
def delFirst {α : Type} (p : α → Bool) : List α → List α
  | [] => []
  | a :: t => if p a then t else a :: delFirst p t


/-- Whether no two entries are equal. -/
def noRepeat {α : Type} [DecidableEq α] : List α → Bool
  | [] => true
  | a :: t => !t.contains a && noRepeat t

/-! ### Fields of words -/

/-- Bits [hi:lo] of a natural number (R9). -/
def bits (v hi lo : Nat) : Nat := (v >>> lo) % 2 ^ (hi + 1 - lo)

/-- Bit n of a natural number. -/
def bit (v n : Nat) : Bool := v.testBit n

/-- A Bool as 0 or 1. -/
def b2n (b : Bool) : Nat := if b then 1 else 0

/-- A Bool as a word. -/
def b2w (b : Bool) : W32 := if b then 1#32 else 0#32

/-- The signed value of the low `w` bits of `v`. -/
def signed (w v : Nat) : Int :=
  let u := v % 2 ^ w
  if u ≥ 2 ^ (w - 1) then (u : Int) - (2 ^ w : Nat) else u

/-- The low `w` bits of an exact integer (R9, R98). -/
def wrap (w : Nat) (x : Int) : Nat := (x % (2 ^ w : Nat)).toNat

/-- Division rounding up. -/
def ceilDiv (a b : Nat) : Nat := if b = 0 then 0 else (a + b - 1) / b

/-- floor(log2 n), 0 for 0. -/
def log2 (n : Nat) : Nat := n.log2

/-! ### Bytes (R4: little-endian) -/

/-- The number whose little-endian bytes these are. -/
def fromBytes : List Byte → Nat
  | [] => 0
  | b :: t => b.toNat + 256 * fromBytes t

/-- The `n` little-endian bytes of a number. -/
def toBytes : Nat → Nat → List Byte
  | 0, _ => []
  | n + 1, v => BitVec.ofNat 8 v :: toBytes n (v / 256)

/-- The little-endian words of a list of bytes. -/
def toWords (fuel : Nat) (bs : List Byte) : List W32 :=
  match fuel with
  | 0 => []
  | f + 1 => if bs.isEmpty then [] else BitVec.ofNat 32 (fromBytes (bs.take 4)) :: toWords f (bs.drop 4)


/-- The number whose little-endian words these are. -/
def fromWords (ws : List W32) : Nat := ws.foldr (fun w n => w.toNat + 2 ^ 32 * n) 0

/-! ### Rounds (R36) -/

/-- Round `a` is older than round `b`. -/
def older (a b : BitVec 12) : Bool :=
  let d := (b - a).toNat
  1 ≤ d && d ≤ 2047

/-- The newer of two rounds. -/
def newerOf (a b : BitVec 12) : BitVec 12 := if older a b then b else a

/-- Round `r` is newer than the last confirmed round `c`; with none, every round is (R357). -/
def newerThan (c : Option (BitVec 12)) (r : BitVec 12) : Bool :=
  match c with
  | none => true
  | some c => older c r

/-- The round after the last confirmed one: round 0 when there is none (R186, R357). -/
def nextRound : Option (BitVec 12) → BitVec 12
  | none => 0#12
  | some c => c + 1#12

end Sys2Proof.Machine

namespace Sys2Proof
open Machine

/-! ### Formats (Table 2-9) -/

/-- The code of a format. -/
def Fmt.code : Fmt → Nat
  | .i32 => 0 | .n32 => 1 | .i64 => 2 | .n64 => 3 | .f32 => 4 | .bf16x2 => 5 | .f16x2 => 6 | .i16x2 => 7
  | .i8x4 => 8 | .n8x4 => 9 | .e4m3x4 => 10 | .e5m2x4 => 11 | .e2m3x5 => 12 | .e3m2x5 => 13 | .cb4x8 => 14 | .raw => 15

/-- The format of a code. -/
def Fmt.ofCode (n : Nat) : Fmt :=
  match n % 16 with
  | 0 => .i32 | 1 => .n32 | 2 => .i64 | 3 => .n64 | 4 => .f32 | 5 => .bf16x2 | 6 => .f16x2 | 7 => .i16x2
  | 8 => .i8x4 | 9 => .n8x4 | 10 => .e4m3x4 | 11 => .e5m2x4 | 12 => .e2m3x5 | 13 => .e3m2x5 | 14 => .cb4x8 | _ => .raw

/-- The format is an element pair (R59). -/
def Fmt.pair : Fmt → Bool
  | .i64 | .n64 => true
  | _ => false

/-- Sub-elements of one element, 1 for the pair formats (Table 2-2). -/
def Fmt.subs : Fmt → Nat
  | .bf16x2 | .f16x2 | .i16x2 => 2
  | .i8x4 | .n8x4 | .e4m3x4 | .e5m2x4 => 4
  | .e2m3x5 | .e3m2x5 => 5
  | .cb4x8 => 8
  | _ => 1

/-- Bits of one value (Table 2-2). -/
def Fmt.width : Fmt → Nat
  | .i64 | .n64 => 64
  | .bf16x2 | .f16x2 | .i16x2 => 16
  | .i8x4 | .n8x4 | .e4m3x4 | .e5m2x4 => 8
  | .e2m3x5 | .e3m2x5 => 6
  | .cb4x8 => 4
  | _ => 32

/-- The values of the format are signed integers (Table 3-1). -/
def Fmt.isSigned : Fmt → Bool
  | .i32 | .i64 | .i16x2 | .i8x4 => true
  | _ => false

/-- The values of the format are integers (the set I of R142). -/
def Fmt.isInt : Fmt → Bool
  | .i32 | .n32 | .i64 | .n64 | .i16x2 | .i8x4 | .n8x4 => true
  | _ => false

/-- The largest value of an integer format. -/
def Fmt.maxI (f : Fmt) : Int := if f.isSigned then (2 ^ (f.width - 1) : Nat) - 1 else (2 ^ f.width : Nat) - 1

/-- The smallest value of an integer format. -/
def Fmt.minI (f : Fmt) : Int := if f.isSigned then -(2 ^ (f.width - 1) : Nat) else 0

/-- The number of values of elements E0 to E`len` (R59, section 3.1 of The cell). -/
def Fmt.nv (f : Fmt) (len : Nat) : Nat := if f.pair then (len + 1) / 2 else (len + 1) * f.subs

/-- The encoding at packet-wide index `i` of a payload (R59). -/
def Fmt.get (f : Fmt) (e : List W32) (i : Nat) : Nat :=
  if f.pair then (nth 0#32 e (2 * i)).toNat + 2 ^ 32 * (nth 0#32 e (2 * i + 1)).toNat
  else ((nth 0#32 e (i / f.subs)).toNat >>> (i % f.subs * f.width)) % 2 ^ f.width

/-- Element `j` of the payload that holds the encodings `vs` from index 0 on, zeros above (R59, R58). -/
def Fmt.elemOf (f : Fmt) (vs : List Nat) (j : Nat) : W32 :=
  if f.pair then BitVec.ofNat 32 (nth 0 vs (j / 2) >>> (j % 2 * 32))
  else BitVec.ofNat 32 ((List.range f.subs).foldl (fun acc k => acc + (nth 0 vs (j * f.subs + k) % 2 ^ f.width) * 2 ^ (k * f.width)) 0)

/-- The payload that holds the encodings `vs`, eight elements (R58, R60). -/
def Fmt.pack (f : Fmt) (vs : List Nat) : List W32 := (List.range 8).map (f.elemOf vs)

/-- An element as a node writes it in a format: bits [31:30] of an e2m3x5 or e3m2x5 element are zero (R60). -/
def Fmt.element (f : Fmt) (w : W32) : W32 := if f.subs = 5 then w &&& 0x3FFFFFFF#32 else w

end Sys2Proof

namespace Sys2Proof.Machine

/-- The payload with the elements above `len` zeroed (R58). -/
def clearAbove (len : Nat) (e : List W32) : List W32 :=
  (List.range 8).map fun j => if j ≤ len then nth 0#32 e j else 0#32

end Sys2Proof.Machine

namespace Sys2Proof
open Machine

/-- The payload of a packet that a node writes in a format: elements above `len` zero, each valid one as R60 has it. -/
def Fmt.payload (f : Fmt) (len : Nat) (e : List W32) : List W32 := clearAbove len (e.map f.element)

end Sys2Proof
end

