-- ==== Sys2Proof/Machine/Arith.lean ====
section
/-! DEFINITION. Number formats and arithmetic (chapter 3): the floating formats, exact values, the rounding procedure,
conversions, exact sums and products, and the keyed draw function KD10. -/

namespace Sys2Proof.Machine

/-! ### Exact values and floating formats -/

/-- An exact value: NaN, an infinity, or (-1)^neg × m × 2^e (a zero keeps its sign, R100, R110). -/
inductive Num where
  | nan
  | inf (neg : Bool)
  | fin (neg : Bool) (m : Nat) (e : Int)
  deriving DecidableEq, Repr, Inhabited

/-- The floating formats of Table 3-2. -/
inductive FF where
  | f32 | f16 | bf16 | e5m2 | e4m3 | e3m2 | e2m3 | e2m1 | s24
  deriving DecidableEq, Repr, Inhabited

/-- The rounding modes of Table 3-5. -/
inductive Mode where
  | rne | rtz | rdn | rup | rna | sr
  deriving DecidableEq, Repr, Inhabited

/-- The mode of SUB[2:0] (Table 3-5); 110 and 111 are refused at load. -/
def modeOf (n : Nat) : Mode :=
  match n % 8 with
  | 1 => .rtz | 2 => .rdn | 3 => .rup | 4 => .rna | 5 => .sr | _ => .rne

/-- Fraction bits (Table 3-2). -/
def FF.fb : FF → Nat
  | .f32 => 23 | .f16 => 10 | .bf16 => 7 | .e5m2 => 2 | .e4m3 => 3 | .e3m2 => 2 | .e2m3 => 3 | .e2m1 => 1 | .s24 => 15

/-- Exponent bits (Table 3-2). -/
def FF.eb : FF → Nat
  | .f32 | .bf16 | .s24 => 8
  | .f16 | .e5m2 => 5
  | .e4m3 => 4
  | .e3m2 => 3
  | .e2m3 | .e2m1 => 2

/-- Exponent bias (Table 3-2). -/
def FF.bias : FF → Nat
  | .f32 | .bf16 | .s24 => 127
  | .f16 | .e5m2 => 15
  | .e4m3 => 7
  | .e3m2 => 3
  | .e2m3 | .e2m1 => 1

/-- Exponent of the smallest normal. -/
def FF.emin (f : FF) : Int := 1 - (f.bias : Int)

/-- Exponent of the largest finite value and its significand as a count of units in the last place (Table 3-2). -/
def FF.max : FF → Int × Nat
  | .f32 => (127, 2 ^ 24 - 1) | .f16 => (15, 2 ^ 11 - 1) | .bf16 => (127, 2 ^ 8 - 1) | .e5m2 => (15, 7)
  | .e4m3 => (8, 14) | .e3m2 => (4, 7) | .e2m3 => (2, 15) | .e2m1 => (2, 3) | .s24 => (127, 2 ^ 16 - 1)

/-- The format has infinities (Table 3-3). -/
def FF.hasInf : FF → Bool
  | .f32 | .f16 | .bf16 | .e5m2 => true
  | _ => false

/-- The canonical NaN, if the format has one (Table 3-3). -/
def FF.nan : FF → Option Nat
  | .f32 => some 0x7FC00000 | .f16 => some 0x7E00 | .bf16 => some 0x7FC0 | .e5m2 => some 0x7E | .e4m3 => some 0x7F
  | .s24 => some 0x7FC000 | _ => none

/-- The formats on which `.ftz` acts (R102). -/
def FF.flushes : FF → Bool
  | .f32 | .f16 | .bf16 => true
  | _ => false

/-- The sign bit's weight. -/
def FF.signBit (f : FF) : Nat := 2 ^ (f.eb + f.fb)

/-- The encoding of a sign, an exponent field and a fraction. -/
def FF.enc (f : FF) (neg : Bool) (ef m : Nat) : Nat := b2n neg * f.signBit + ef * 2 ^ f.fb + m

/-- The encoding of the largest finite value of a sign. -/
def FF.maxEnc (f : FF) (neg : Bool) : Nat := f.enc neg (f.max.1 + f.bias).toNat (f.max.2 - 2 ^ f.fb)

/-- The encoding of an infinity, in a format that has one. -/
def FF.infEnc (f : FF) (neg : Bool) : Nat := f.enc neg (2 ^ f.eb - 1) 0

/-- The exact value of an encoding (R99, Table 3-3). -/
def FF.decode (f : FF) (v : Nat) : Num :=
  let neg := bit v (f.eb + f.fb)
  let ef := bits v (f.eb + f.fb - 1) f.fb
  let m := v % 2 ^ f.fb
  let allOnes := ef = 2 ^ f.eb - 1
  if f.hasInf && allOnes then (if m = 0 then .inf neg else .nan)
  else if f = .s24 && allOnes then .nan
  else if f = .e4m3 && allOnes && m = 7 then .nan
  else if ef = 0 then .fin neg m (f.emin - f.fb)
  else .fin neg (2 ^ f.fb + m) ((ef : Int) - f.bias - f.fb)

/-- The value with a subnormal read as a zero of its sign when `ftz` is set (R102). -/
def FF.decodeFtz (f : FF) (ftz : Bool) (v : Nat) : Num :=
  match f.decode v with
  | .fin neg m e => if ftz && f.flushes && m < 2 ^ f.fb then .fin neg 0 e else .fin neg m e
  | x => x

/-! ### Rounding (R108 to R110) -/

/-- Whether the part of `m` below 2^sh, of a value of sign `neg` whose integral part is `n`, rounds away from zero. -/
def roundsUp (mode : Mode) (neg : Bool) (n rem sh d wd : Nat) : Bool :=
  if rem = 0 then false
  else match mode with
    | .rne => decide (2 * rem > 2 ^ sh) || (decide (2 * rem = 2 ^ sh) && decide (n % 2 = 1))
    | .rtz => false
    | .rdn => neg
    | .rup => !neg
    | .rna => decide (2 * rem ≥ 2 ^ sh)
    | .sr => decide (d * 2 ^ sh < rem * 2 ^ wd)

/-- m × 2^k rounded to a natural number by the mode, with k of either sign. A shift far below the value is cut to one
that rounds alike, so that no number of the computation grows without bound. -/
def roundNat (mode : Mode) (neg : Bool) (m : Nat) (k : Int) (d wd : Nat) : Nat :=
  if k ≥ 0 then m * 2 ^ k.toNat
  else if m = 0 then 0
  else
    let far : Bool := decide (-k > (log2 m : Int) + 64)
    let sh := if far then 64 else (-k).toNat
    let m' := if far then 1 else m
    let n := m' / 2 ^ sh
    if roundsUp mode neg n (m' % 2 ^ sh) sh d wd then n + 1 else n

/-- overflow(F, s, mode) of R108; always sets EXC. -/
def FF.overflow (f : FF) (neg : Bool) (mode : Mode) (sat : Bool) : Nat :=
  match f with
  | .f32 | .f16 | .bf16 | .e5m2 =>
    if sat then f.maxEnc neg
    else match mode with
      | .rne | .rna | .sr => f.infEnc neg
      | .rtz => f.maxEnc neg
      | .rup => if neg then f.maxEnc true else f.infEnc false
      | .rdn => if neg then f.infEnc true else f.maxEnc false
  | .e4m3 => if sat then f.maxEnc neg else 0x7F
  | _ => f.maxEnc neg

/-- The entry of Table 3-6 for an infinity, with its EXC. -/
def FF.infEntry (f : FF) (neg sat : Bool) : Nat × Bool :=
  match f with
  | .f32 | .f16 | .bf16 | .e5m2 => (f.infEnc neg, false)
  | .e4m3 => (if sat then f.maxEnc neg else 0x7F, true)
  | .s24 => (0x7FC000, true)
  | _ => (f.maxEnc neg, true)

/-- The entry of Table 3-6 for a NaN, with its EXC (R100). -/
def FF.nanEntry (f : FF) : Nat × Bool :=
  match f.nan with
  | some v => (v, false)
  | none => (0, true)

/-- round_to(x, F, mode, d) (R108) with `.sat` and `.ftz`: the encoding and whether EXC is set. -/
def FF.round (f : FF) (mode : Mode) (d wd : Nat) (sat ftz : Bool) : Num → Nat × Bool
  | .nan => f.nanEntry
  | .inf neg => f.infEntry neg sat
  | .fin neg m e =>
    if m = 0 then (f.enc neg 0 0, false)
    else
      let l : Int := (log2 m : Int) + e
      if l > f.max.1 + 1 then (f.overflow neg mode sat, true)
      else
        let ex := if l ≥ f.emin then l else f.emin
        let n := roundNat mode neg m (e - (ex - f.fb)) d wd
        let carry : Bool := decide (n = 2 ^ (f.fb + 1))
        let ex' := if carry then ex + 1 else ex
        let n' := if carry then 2 ^ f.fb else n
        if decide (ex' > f.max.1) || (decide (ex' = f.max.1) && decide (n' > f.max.2)) then (f.overflow neg mode sat, true)
        else if n' < 2 ^ f.fb then
          if ftz && f.flushes then (f.enc neg 0 0, false) else (f.enc neg 0 n', false)
        else (f.enc neg (ex' + f.bias).toNat (n' - 2 ^ f.fb), false)

/-- round_rne(x, F) (R108). -/
def FF.rne (f : FF) (x : Num) : Nat × Bool := f.round .rne 0 0 false false x

/-! ### Exact operations (R110, R152) -/

/-- A value is a NaN. -/
def Num.isNan : Num → Bool
  | .nan => true
  | _ => false

/-- A value is a finite zero. -/
def Num.isZero : Num → Bool
  | .fin _ 0 _ => true
  | _ => false

/-- The sign of a value; a NaN has none. -/
def Num.neg : Num → Bool
  | .nan => false
  | .inf n => n
  | .fin n _ _ => n

/-- The value with its sign inverted. -/
def Num.negate : Num → Num
  | .nan => .nan
  | .inf n => .inf (!n)
  | .fin n m e => .fin (!n) m e

/-- The exact product, and whether it is an invalid operation (0 × infinity). -/
def Num.mul : Num → Num → Num × Bool
  | .nan, _ => (.nan, false)
  | _, .nan => (.nan, false)
  | .inf s, .inf t => (.inf (s != t), false)
  | .inf s, .fin t m _ => if m = 0 then (.nan, true) else (.inf (s != t), false)
  | .fin s m _, .inf t => if m = 0 then (.nan, true) else (.inf (s != t), false)
  | .fin s m e, .fin t n g => (.fin (s != t) (m * n) (e + g), false)

/-- The signed integer that a finite value is a multiple of 2^e of, at an exponent no larger than its own. -/
def Num.at : Num → Int → Int
  | .fin neg m e, g => let v : Int := m * 2 ^ (e - g).toNat; if neg then -v else v
  | _, _ => 0

/-- The exponent of a finite nonzero value; `d` for any other. -/
def Num.expo (d : Int) : Num → Int
  | .fin _ m e => if m = 0 then d else e
  | _ => d

/-- The exact sum of finite values, with the zero sign of R110. -/
def sumFin (mode : Mode) (xs : List Num) : Num :=
  match xs.find? (fun x => !x.isZero) with
  | none =>
    if xs.all Num.neg then .fin true 0 0
    else if xs.all (fun x => !x.neg) then .fin false 0 0
    else .fin (decide (mode = .rdn)) 0 0
  | some x0 =>
    let g := xs.foldl (fun (g : Int) x => let e := x.expo g; if e < g then e else g) (x0.expo 0)
    let t := xs.foldl (fun (t : Int) x => if x.isZero then t else t + x.at g) 0
    if t = 0 then .fin (decide (mode = .rdn)) 0 0
    else .fin (decide (t < 0)) t.natAbs g

/-- The exact sum of values with its special cases: a NaN, infinities of both signs (invalid), one infinity. A NaN among the terms gives NaN and no flag, also
beside infinities of both signs: the manual does not say which of R152's tests such a wider sum meets first (DESIGN CHOICE, log
entry 81). -/
def sumNum (mode : Mode) (xs : List Num) : Num × Bool :=
  if xs.any Num.isNan then (.nan, false)
  else if xs.contains (.inf false) && xs.contains (.inf true) then (.nan, true)
  else if xs.contains (.inf false) then (.inf false, false)
  else if xs.contains (.inf true) then (.inf true, false)
  else (sumFin mode xs, false)

/-- An encoding as a reduction of one value returns it (R100 to R102): a NaN is the canonical one, and with `ftz` a subnormal is a
zero of its sign. -/
def FF.read (f : FF) (ftz : Bool) (v : Nat) : Nat :=
  match f.decodeFtz ftz v with
  | .nan => f.nanEntry.1
  | .fin neg 0 _ => f.enc neg 0 0
  | _ => v

/-- The sum of products and terms of a wider sum (FFMA, FDOT2, a block partial): an invalid product is invalid. -/
def sumProducts (mode : Mode) (ps : List (Num × Num)) (ts : List Num) : Num × Bool :=
  let qs := ps.map fun p => p.1.mul p.2
  let s := sumNum mode (ts ++ qs.map (·.1))
  (s.1, s.2 || qs.any (·.2))

/-- The exact order of two values that are no NaN, -0 below +0 (R101, R153). -/
def Num.lt : Num → Num → Bool
  | .nan, _ => false
  | _, .nan => false
  | .inf true, y => decide (y ≠ .inf true)
  | .inf false, _ => false
  | .fin _ _ _, .inf n => !n
  | .fin s m e, .fin t n g =>
    if m = 0 && n = 0 then s && !t
    else
      let b := if m = 0 then g else if n = 0 then e else if e < g then e else g
      decide ((Num.fin s m e).at (if m = 0 then e else b) < (Num.fin t n g).at (if n = 0 then g else b))

/-- Numerical equality: +0 equals -0 (R154). -/
def Num.eqv (x y : Num) : Bool := !x.isNan && !y.isNan && ((x.isZero && y.isZero) || (!x.lt y && !y.lt x))

/-! ### Integers (R98, R113) -/

/-- sat(x, F) of an integer format (R98). -/
def satI (f : Fmt) (x : Int) : Int := if x > f.maxI then f.maxI else if x < f.minI then f.minI else x

/-- An exact integer stored into an integer format: wrapped, or saturated with EXC (R98, R143). -/
def storeI (f : Fmt) (sat : Bool) (x : Int) : Nat × Bool :=
  if sat then (wrap f.width (satI f x), decide (satI f x ≠ x)) else (wrap f.width x, false)

end Sys2Proof.Machine

namespace Sys2Proof
open Machine

/-- The floating format of an element format; cb4x8 reads through the E2M1 table (section 3.1 of The cell). -/
def Fmt.ff : Fmt → Option FF
  | .f32 => some .f32 | .bf16x2 => some .bf16 | .f16x2 => some .f16 | .e4m3x4 => some .e4m3 | .e5m2x4 => some .e5m2
  | .e2m3x5 => some .e2m3 | .e3m2x5 => some .e3m2 | .cb4x8 => some .e2m1 | _ => none

/-- The signed or unsigned integer that an encoding of the format stands for. -/
def Fmt.int (f : Fmt) (v : Nat) : Int := if f.isSigned then signed f.width v else (v % 2 ^ f.width : Nat)

/-- A value of a format as a reduction of one value returns it. -/
def Fmt.read (f : Fmt) (ftz : Bool) (v : Nat) : Nat :=
  match f.ff with
  | some g => g.read ftz v
  | none => v

/-- The exact value of an encoding of the format, subnormals flushed when `ftz` is set. -/
def Fmt.num (f : Fmt) (ftz : Bool) (v : Nat) : Machine.Num :=
  match f.ff with
  | some g => g.decodeFtz ftz v
  | none => let i := f.int v; .fin (decide (i < 0)) i.natAbs 0

end Sys2Proof

namespace Sys2Proof.Machine

/-- A value rounded into an integer format (R112, R113, Table 3-6): minimum or maximum with EXC beyond the range. -/
def roundInt (f : Fmt) (mode : Mode) (d wd : Nat) : Num → Nat × Bool
  | .nan => (0, true)
  | .inf neg => (wrap f.width (if neg then f.minI else f.maxI), true)
  | .fin neg m e =>
    if m ≠ 0 && decide ((log2 m : Int) + e > 70) then (wrap f.width (if neg then f.minI else f.maxI), true)
    else
      let n : Int := roundNat mode neg m e d wd
      let x := if neg then -n else n
      (wrap f.width (satI f x), decide (satI f x ≠ x))

/-- A value rounded into an element format other than raw bits (R112). -/
def roundFmt (f : Fmt) (mode : Mode) (d wd : Nat) (sat ftz : Bool) (x : Num) : Nat × Bool :=
  match f.ff with
  | some g => g.round mode d wd sat ftz x
  | none => roundInt f mode d wd x

/-- convert(x, S, D) of R157: between integer formats by R113, any other through the exact value. -/
def convert (src dst : Fmt) (mode : Mode) (d wd : Nat) (sat ftz : Bool) (v : Nat) : Nat × Bool :=
  if src.isInt && dst.isInt then storeI dst sat (src.int v)
  else roundFmt dst mode d wd sat ftz (src.num ftz v)

/-- One addition of R152 in an element format: wrapped or saturated for integers, rounded for the floating ones. -/
def addFmt (f : Fmt) (mode : Mode) (sat ftz : Bool) (a b : Nat) : Nat × Bool :=
  match f.ff with
  | some g =>
    let s := sumNum mode [g.decodeFtz ftz a, g.decodeFtz ftz b]
    let r := g.round mode 0 0 sat ftz s.1
    (r.1, r.2 || s.2)
  | none => storeI f sat (f.int a + f.int b)

/-! ### The E2M1 codebook (Table 3-4) -/

/-- The bf16 entries of codebook slot 0 at reset. -/
def e2m1Book : List (BitVec 16) :=
  [0x0000#16, 0x3F00#16, 0x3F80#16, 0x3FC0#16, 0x4000#16, 0x4040#16, 0x4080#16, 0x40C0#16,
   0x8000#16, 0xBF00#16, 0xBF80#16, 0xBFC0#16, 0xC000#16, 0xC040#16, 0xC080#16, 0xC0C0#16]

/-! ### KD10 (R123, R124) -/

/-- rotl(v, n) on 32 bits. -/
def rotl32 (v : W32) (n : Nat) : W32 := v.rotateLeft n

/-- The words of a kd10 state: the counter, then the key. -/
structure Kd where
  x0 : W32
  x1 : W32
  x2 : W32
  x3 : W32
  k0 : W32
  k1 : W32
  k2 : W32
  k3 : W32
  deriving DecidableEq, Repr

/-- Round `i` of kd10. -/
def kdRound (i : Nat) (s : Kd) : Kd :=
  let y0 := s.x0 * 0xC3A52F6B#32 + s.k0
  let y1 := s.x1 * 0xA8F34D27#32 + s.k1
  let y2 := s.x2 * 0x9D6E13C5#32 + s.k2
  let y3 := s.x3 * 0xE4B70A93#32 + s.k3
  let x0 := y0 ^^^ rotl32 y3 5
  let x1 := y1 ^^^ rotl32 x0 13
  let x2 := y2 ^^^ rotl32 x1 21
  let x3 := y3 ^^^ rotl32 x2 29
  ⟨x0, x1, x2, x3, s.k1, s.k2, s.k3, s.k0 + 0x7F4A7C15#32 + BitVec.ofNat 32 i⟩

/-- Rounds `i` to `i + n - 1`. -/
def kdRounds : Nat → Nat → Kd → Kd
  | 0, _, s => s
  | n + 1, i, s => kdRounds n (i + 1) (kdRound i s)

/-- kd10 of a 128-bit counter and key, as four words, lowest first. -/
def kd10 (c k : Nat) : List W32 :=
  let w (v i : Nat) : W32 := BitVec.ofNat 32 (v >>> (32 * i))
  let s := kdRounds 10 1 ⟨w c 0, w c 1, w c 2, w c 3, w k 0, w k 1, w k 2, w k 3⟩
  [s.x0 ^^^ s.k0, s.x1 ^^^ s.k1, s.x2 ^^^ s.k2, s.x3 ^^^ s.k3]

/-- The 128-bit value of elements `i` to `i + 3` (R124). -/
def val128 (e : List W32) (i : Nat) : Nat := fromWords ((e.drop i).take 4)

/-- The four elements of a 128-bit value. -/
def words128 (v : Nat) : List W32 := (List.range 4).map fun i => BitVec.ofNat 32 (v >>> (32 * i))

end Sys2Proof.Machine
end

