-- ==== Sys2Proof/WellFormed.lean ====
section
/-! DEFINITION. What is checked of an instruction as syntax before it has a meaning: a record's fields agree with its length
(R72, R73, R76), and what an event names lies in its range (R4, R12, R14, R374, R413, R436). What RGN.LOAD checks of a record
beyond that (R86, Table 2-19) is in Machine/RecordCheck. -/

namespace Sys2Proof

/-- A record's fields are those of its words (Table 2-4): LEN is not 11, a one-word record has D1 = 0xFFFF, AUX = 0 and
LIT = 0, a two-word one LIT = 0 (R73), and IMM = 1 needs three words. -/
def recOk (r : Rec) : Bool :=
  r.len != 3#2 && (r.len != 0#2 || (r.d1 == 0xFFFF#16 && r.aux == 0#16)) && (r.len == 2#2 || r.lit == 0#32)
    && (!r.imm || r.len == 2#2)

/-- The place of a unit: a page of the device and a position of Table 12-20. -/
def unitOk (u : UnitId) : Bool := decide (u.page < 2048) && decide (u.pos < 7)

/-- The width of an access: 1 to 8 bytes, and 4 or 8 for LR, SC and AMO. -/
def memOpOk : MemOp → Bool
  | .load log _ _ => decide (log < 4)
  | .store log _ => decide (log < 4)
  | .lr log _ => log == 2 || log == 3
  | .sc log _ _ => log == 2 || log == 3
  | .amo _ log _ _ => log == 2 || log == 3

/-- The instruction is well formed. -/
def wellFormed : Instr → Bool
  | .rgnAlloc _ _ _ => true
  | .rgnLoad _ _ _ => true
  | .rgnStart _ _ _ => true
  | .rgnFreeze _ _ => true
  | .rgnDrain _ _ => true
  | .rgnSave _ _ _ => true
  | .rgnRest _ _ _ => true
  | .rgnMove _ _ _ => true
  | .rgnKill _ _ => true
  | .rgnPrio _ _ _ => true
  | .rgnStat _ _ _ => true
  | .callTake _ _ _ => true
  | .callDone _ _ => true
  | .secFuseRead _ _ _ => true
  | .secFuseBlow _ _ _ => true
  | .secMeasRead _ _ _ => true
  | .secMeasExtend _ _ _ => true
  | .secWipeQuery _ _ _ => true
  | .secWipe _ _ _ => true
  | .secUnlkNonce _ _ _ => true
  | .secUnlkSubmit _ _ _ => true
  | .secUnlkClose _ _ _ => true
  | .secAtst _ _ _ => true
  | .illegalInstruction _ => true
  | .xparkPop _ => true
  | .xparkRefuse _ => true
  | .xinvcmd _ => true
  | .invalidationComplete => true
  | .capdataWrite _ => true
  | .capabilityPendingApply rid idx => decide (rid < 2048) && decide (idx < 256)
  | .lnkdataWrite _ => true
  | .partselWrite _ => true
  | .csrWrite _ _ => true
  | .callwin tdi _ => decide (tdi < 64)
  | .pwrgdAssert _ _ => true
  | .pllLock _ _ => true
  | .memoryTrainingDone _ _ => true
  | .tokenHop rid _ => decide (rid < 2048)
  | .creditReturn rid => decide (rid < 2048)
  | .gatewayPass rid _ => decide (rid < 2048)
  | .ingressPlace rid _ => decide (rid < 2048)
  | .packetReceive port _ => decide (port < 16)
  | .slotWrite => true
  | .stickyArrival => true
  | .purgeArrival => true
  | .cancelArrival => true
  | .markerArrival => true
  | .endOfStreamArrival => true
  | .bubbleArrival => true
  | .aluResultEmit rid u => decide (rid < 2048) && unitOk u
  | .copy r => recOk r
  | .iadd r => recOk r
  | .isub r => recOk r
  | .imul r => recOk r
  | .imulh r => recOk r
  | .imad r => recOk r
  | .idiv r => recOk r
  | .irem r => recOk r
  | .imin r => recOk r
  | .imax r => recOk r
  | .iabs r => recOk r
  | .ineg r => recOk r
  | .iaddc r => recOk r
  | .isubb r => recOk r
  | .idot4 r => recOk r
  | .iclamp r => recOk r
  | .and r => recOk r
  | .or r => recOk r
  | .xor r => recOk r
  | .andn r => recOk r
  | .not r => recOk r
  | .lut3 r => recOk r
  | .shl r => recOk r
  | .shr r => recOk r
  | .sar r => recOk r
  | .rotl r => recOk r
  | .funl r => recOk r
  | .clz r => recOk r
  | .popc r => recOk r
  | .brev r => recOk r
  | .bext r => recOk r
  | .bins r => recOk r
  | .icmp r => recOk r
  | .sel r => recOk r
  | .fadd r => recOk r
  | .fsub r => recOk r
  | .fmul r => recOk r
  | .ffma r => recOk r
  | .fmin r => recOk r
  | .fmax r => recOk r
  | .fabs r => recOk r
  | .fneg r => recOk r
  | .fcmp r => recOk r
  | .frnd r => recOk r
  | .fclass r => recOk r
  | .fscale r => recOk r
  | .fdot2 r => recOk r
  | .famax r => recOk r
  | .cvt r => recOk r
  | .cvts r => recOk r
  | .qpack r => recOk r
  | .qunpack r => recOk r
  | .qscale r => recOk r
  | .pmerge r => recOk r
  | .psplit r => recOk r
  | .pext r => recOk r
  | .pins r => recOk r
  | .pbcast r => recOk r
  | .preduce r => recOk r
  | .pshuf r => recOk r
  | .plen r => recOk r
  | .ptest r => recOk r
  | .draw r => recOk r
  | .cadd128 r => recOk r
  | .steer r => recOk r
  | .merge r => recOk r
  | .gate r => recOk r
  | .enter r => recOk r
  | .next r => recOk r
  | .leave r => recOk r
  | .callf r => recOk r
  | .retf r => recOk r
  | .falloc r => recOk r
  | .fallocGrant rid => decide (rid < 2048)
  | .ffree r => recOk r
  | .stick r => recOk r
  | .purge r => recOk r
  | .cancel r => recOk r
  | .mark r => recOk r
  | .hold r => recOk r
  | .eos r => recOk r
  | .source r => recOk r
  | .sink r => recOk r
  | .const r => recOk r
  | .tagget r => recOk r && !r.m
  | .taggetTag r => recOk r && r.m
  | .tagset r => recOk r
  | .oreduce r => recOk r
  | .ex2 r => recOk r
  | .lg2 r => recOk r
  | .rcp r => recOk r
  | .rsq r => recOk r
  | .sqrt r => recOk r
  | .sinpi r => recOk r
  | .cospi r => recOk r
  | .tanh r => recOk r
  | .erf r => recOk r
  | .cfuRequestServe col => decide (col < 128)
  | .cfuReply col => decide (col < 128)
  | .ld r => recOk r
  | .st r => recOk r
  | .ldacq r => recOk r
  | .strel r => recOk r
  | .lds r => recOk r
  | .lde r => recOk r
  | .stf r => recOk r
  | .stw r => recOk r
  | .feget r => recOk r
  | .feset r => recOk r
  | .atom r => recOk r
  | .cas r => recOk r
  | .red r => recOk r
  | .chunk r => recOk r
  | .drain r => recOk r
  | .fence r => recOk r
  | .syncinv r => recOk r
  | .accessPerform rid page _ => decide (rid < 2048) && decide (page < 2048)
  | .waiterRetry rid page => decide (rid < 2048) && decide (page < 2048)
  | .accessRetire rid page _ => decide (rid < 2048) && decide (page < 2048)
  | .muRequestPortServe rid page => decide (rid < 2048) && decide (page < 2048)
  | .homeAgentRmw _ => true
  | .homeAgentOrdinalReport => true
  | .reservationExpiry h => decide (h < 16)
  | .sload r => recOk r
  | .sstore r => recOk r
  | .sfeed r => recOk r
  | .sgather r => recOk r
  | .sscatter r => recOk r
  | .sxlat r => recOk r
  | .scopy r => recOk r
  | .streamPass1Done rid u _ => decide (rid < 2048) && unitOk u
  | .sfeedPacket rid u _ => decide (rid < 2048) && unitOk u
  | .streamComplete rid u _ => decide (rid < 2048) && unitOk u
  | .pageWalkComplete _ => true
  | .mma r => recOk r
  | .mmas r => recOk r
  | .mzero r => recOk r
  | .mout r => recOk r
  | .mcb r => recOk r
  | .mwake r => recOk r
  | .mgate r => recOk r
  | .mmaOperandsRead rid u _ => decide (rid < 2048) && unitOk u
  | .moutWrite rid u _ => decide (rid < 2048) && unitOk u
  | .mcbInstall rid u _ => decide (rid < 2048) && unitOk u
  | .quadrantPowerChange rid u _ => decide (rid < 2048) && unitOk u
  | .sgen r => recOk r
  | .sand r => recOk r
  | .sxnor r => recOk r
  | .smux r => recOk r
  | .sor r => recOk r
  | .scnt r => recOk r
  | .sdot r => recOk r
  | .sregen r => recOk r
  | .slen r => recOk r
  | .sloadv r => recOk r
  | .sstorev r => recOk r
  | .sclr r => recOk r
  | .sbeOperationComplete rid u _ => decide (rid < 2048) && unitOk u
  | .send r => recOk r
  | .recv r => recOk r
  | .post r => recOk r
  | .nred r => recOk r
  | .call r => recOk r
  | .linkAcknowledge _ => true
  | .messageDelivery rid _ => decide (rid < 2048)
  | .postDelivery rid _ => decide (rid < 2048)
  | .sendReportArrival rid _ _ _ _ => decide (rid < 2048)
  | .nredCombine tree _ => decide (tree < 64)
  | .nredDeadline tree _ => decide (tree < 64)
  | .portUpChange port _ _ => decide (port < 16)
  | .peerAccess _ => true
  | .hostMemoryAccess tdi _ op => decide (tdi < 64) && memOpOk op
  | .callResponseDelivery rid => decide (rid < 2048)
  | .probe dev rid _ target => decide (dev < 786432) && decide (rid < 2048) && decide (target < 2048)
  | .probeAnswer rid dev target => decide (rid < 2048) && decide (dev < 786432) && decide (target < 2048)
  | .dieConfigAck rid die => decide (rid < 2048) && decide (die < 2)
  | .sourceRelease rid => decide (rid < 2048)
  | .freezeHaltReport rid => decide (rid < 2048)
  | .drainLinkdown rid => decide (rid < 2048)
  | .killComplete rid => decide (rid < 2048)
  | .yardSliceExpiry rid => decide (rid < 2048)
  | .yardMinimumShare rid => decide (rid < 2048)
  | .yardRestore rid => decide (rid < 2048)
  | .roundSeal rid => decide (rid < 2048)
  | .roundConfirm rid => decide (rid < 2048)
  | .comparatorMatch _ => true
  | .strikeReport die cx cy => decide (die < 2) && decide (cx < 8) && decide (cy < 8)
  | .rollback rid => decide (rid < 2048)
  | .roundReplay rid => decide (rid < 2048)
  | .asaSelfCheck die cx cy _ => decide (die < 2) && decide (cx < 8) && decide (cy < 8)
  | .iftInterval => true
  | .scanSelfTestDone _ => true
  | .thermalUpdate _ _ => true
  | .thermalTrip => true
  | .securityAlarm cls _ => decide (cls < 6)
  | .railGuardViolation => true
  | .clockGuardViolation => true
  | .tamperEvent => true
  | .treHourlySelfTest _ => true
  | .debugAccess bit _ => decide (bit < 16)
  | .getVersion => true
  | .getCapabilities => true
  | .negotiateAlgorithms => true
  | .getDigests => true
  | .getCertificate slot _ _ => decide (slot < 8)
  | .challenge slot _ => decide (slot < 8)
  | .getMeasurements slot _ _ => decide (slot < 8)
  | .keyExchange _ => true
  | .finish _ => true
  | .heartbeat _ => true
  | .keyUpdate _ => true
  | .endSession _ => true
  | .vendorDefined _ _ => true
  | .spdmUnsupportedRequest _ => true
  | .lockInterface tdi => decide (tdi < 64)
  | .startInterface tdi => decide (tdi < 64)
  | .stopInterface tdi => decide (tdi < 64)
  | .tdiError tdi => decide (tdi < 64)
  | .resetNAssert => true
  | .pwrgdFail _ => true
  | .pllLockTimeout => true
  | .deafCellMove rid => decide (rid < 2048)
  | .ccHartMemoryAccess _ op => memOpOk op
  | .mmaAccumulationDone rid u _ => decide (rid < 2048) && unitOk u

end Sys2Proof
end

