-- ==== Sys2Proof/Decode.lean ====
section
/-! DEFINITION. Decoding words to instructions (Tables 2-4, 2-9, 2-11 to 2-20), total on any words and rejecting by
name, and after it the encoder. The variants of one SEC encoding (which operation a register's value selects, R456 to
R459) and events have no words of their own: a word decodes to the first variant, and `refine` in the step chooses. -/

namespace Sys2Proof

/-- Why words are no instruction. -/
inductive DecodeError where
  /-- No word at all. -/
  | empty
  /-- The LEN field of a record is 11 (R72). -/
  | reservedLength
  /-- The record's words are cut short. -/
  | truncated
  /-- The opcode is unassigned (R85). -/
  | unassignedOpcode (op : BitVec 8)
  /-- An unassigned encoding of the custom major opcodes, or a nonzero unused register field (R88). -/
  | illegalCustom (w : W32)
  deriving DecidableEq, Repr, Inhabited

/-- The format of a code (Table 2-9). -/
def fmtOfCode (c : BitVec 4) : Fmt :=
  match c.toNat with
  | 0 => .i32 | 1 => .n32 | 2 => .i64 | 3 => .n64 | 4 => .f32 | 5 => .bf16x2 | 6 => .f16x2 | 7 => .i16x2
  | 8 => .i8x4 | 9 => .n8x4 | 10 => .e4m3x4 | 11 => .e5m2x4 | 12 => .e2m3x5 | 13 => .e3m2x5 | 14 => .cb4x8 | _ => .raw

/-- The code of a format (Table 2-9). -/
def codeOfFmt : Fmt → BitVec 4
  | .i32 => 0#4 | .n32 => 1#4 | .i64 => 2#4 | .n64 => 3#4 | .f32 => 4#4 | .bf16x2 => 5#4 | .f16x2 => 6#4 | .i16x2 => 7#4
  | .i8x4 => 8#4 | .n8x4 => 9#4 | .e4m3x4 => 10#4 | .e5m2x4 => 11#4 | .e2m3x5 => 12#4 | .e3m2x5 => 13#4
  | .cb4x8 => 14#4 | .raw => 15#4

/-- Field [31:30] of word 0: the length of a record, less one. -/
def wordLen (w : W32) : BitVec 2 := w.extractLsb' 30 2
/-- Field [29:22] of word 0: the opcode. -/
def wordOp (w : W32) : BitVec 8 := w.extractLsb' 22 8

/-- The record of its words (Table 2-4). A one-word record has D1 = 0xFFFF, AUX = 0 and LIT = 0, a two-word one LIT = 0
(R73). -/
def recOfWords (w0 w1 w2 : W32) : Rec where
  len := wordLen w0
  fmt := fmtOfCode (w0.extractLsb' 18 4)
  imm := w0.getLsbD 17
  m := w0.getLsbD 16
  d0 := w0.extractLsb' 0 16
  d1 := if wordLen w0 = 0#2 then 0xFFFF#16 else w1.extractLsb' 16 16
  aux := if wordLen w0 = 0#2 then 0#16 else w1.extractLsb' 0 16
  lit := if wordLen w0 = 2#2 then w2 else 0#32

/-- The instruction of an opcode and its record (Tables 2-11 to 2-18); TAGGET with M = 1 is its own row. -/
def instrOfOp (op : BitVec 8) (r : Rec) : Option Instr :=
  match op.toNat with
  | 0 => some (.copy r)
  | 1 => some (.iadd r)
  | 2 => some (.isub r)
  | 3 => some (.imul r)
  | 4 => some (.imulh r)
  | 5 => some (.imad r)
  | 6 => some (.idiv r)
  | 7 => some (.irem r)
  | 8 => some (.imin r)
  | 9 => some (.imax r)
  | 10 => some (.iabs r)
  | 11 => some (.ineg r)
  | 12 => some (.iaddc r)
  | 13 => some (.isubb r)
  | 14 => some (.idot4 r)
  | 15 => some (.iclamp r)
  | 16 => some (.and r)
  | 17 => some (.or r)
  | 18 => some (.xor r)
  | 19 => some (.andn r)
  | 20 => some (.not r)
  | 21 => some (.lut3 r)
  | 22 => some (.shl r)
  | 23 => some (.shr r)
  | 24 => some (.sar r)
  | 25 => some (.rotl r)
  | 26 => some (.funl r)
  | 27 => some (.clz r)
  | 28 => some (.popc r)
  | 29 => some (.brev r)
  | 30 => some (.bext r)
  | 31 => some (.bins r)
  | 32 => some (.icmp r)
  | 33 => some (.sel r)
  | 64 => some (.fadd r)
  | 65 => some (.fsub r)
  | 66 => some (.fmul r)
  | 67 => some (.ffma r)
  | 68 => some (.fmin r)
  | 69 => some (.fmax r)
  | 70 => some (.fabs r)
  | 71 => some (.fneg r)
  | 72 => some (.fcmp r)
  | 73 => some (.frnd r)
  | 74 => some (.fclass r)
  | 75 => some (.fscale r)
  | 76 => some (.fdot2 r)
  | 77 => some (.famax r)
  | 80 => some (.cvt r)
  | 81 => some (.cvts r)
  | 82 => some (.qpack r)
  | 83 => some (.qunpack r)
  | 84 => some (.qscale r)
  | 96 => some (.pmerge r)
  | 97 => some (.psplit r)
  | 98 => some (.pext r)
  | 99 => some (.pins r)
  | 100 => some (.pbcast r)
  | 101 => some (.preduce r)
  | 102 => some (.pshuf r)
  | 103 => some (.plen r)
  | 104 => some (.ptest r)
  | 105 => some (.draw r)
  | 106 => some (.cadd128 r)
  | 112 => some (.steer r)
  | 113 => some (.merge r)
  | 114 => some (.gate r)
  | 115 => some (.enter r)
  | 116 => some (.next r)
  | 117 => some (.leave r)
  | 118 => some (.callf r)
  | 119 => some (.retf r)
  | 120 => some (.falloc r)
  | 121 => some (.ffree r)
  | 122 => some (.stick r)
  | 123 => some (.purge r)
  | 124 => some (.cancel r)
  | 125 => some (.mark r)
  | 126 => some (.hold r)
  | 127 => some (.eos r)
  | 128 => some (.source r)
  | 129 => some (.sink r)
  | 130 => some (.const r)
  | 131 => some (if r.m then .taggetTag r else .tagget r)
  | 132 => some (.tagset r)
  | 133 => some (.oreduce r)
  | 144 => some (.ex2 r)
  | 145 => some (.lg2 r)
  | 146 => some (.rcp r)
  | 147 => some (.rsq r)
  | 148 => some (.sqrt r)
  | 149 => some (.sinpi r)
  | 150 => some (.cospi r)
  | 151 => some (.tanh r)
  | 152 => some (.erf r)
  | 160 => some (.ld r)
  | 161 => some (.st r)
  | 162 => some (.ldacq r)
  | 163 => some (.strel r)
  | 164 => some (.lds r)
  | 165 => some (.lde r)
  | 166 => some (.stf r)
  | 167 => some (.stw r)
  | 168 => some (.feget r)
  | 169 => some (.feset r)
  | 170 => some (.atom r)
  | 171 => some (.cas r)
  | 172 => some (.red r)
  | 173 => some (.chunk r)
  | 174 => some (.drain r)
  | 175 => some (.fence r)
  | 176 => some (.syncinv r)
  | 192 => some (.sload r)
  | 193 => some (.sstore r)
  | 194 => some (.sfeed r)
  | 195 => some (.sgather r)
  | 196 => some (.sscatter r)
  | 197 => some (.sxlat r)
  | 198 => some (.scopy r)
  | 208 => some (.mma r)
  | 209 => some (.mmas r)
  | 210 => some (.mzero r)
  | 211 => some (.mout r)
  | 212 => some (.mcb r)
  | 213 => some (.mwake r)
  | 214 => some (.mgate r)
  | 224 => some (.sgen r)
  | 225 => some (.sand r)
  | 226 => some (.sxnor r)
  | 227 => some (.smux r)
  | 228 => some (.sor r)
  | 229 => some (.scnt r)
  | 230 => some (.sdot r)
  | 231 => some (.sregen r)
  | 232 => some (.slen r)
  | 233 => some (.sloadv r)
  | 234 => some (.sstorev r)
  | 235 => some (.sclr r)
  | 240 => some (.send r)
  | 241 => some (.recv r)
  | 242 => some (.post r)
  | 243 => some (.nred r)
  | 244 => some (.call r)
  | _ => none

/-- The instruction of a record's words. -/
def decodeRecord (w0 w1 w2 : W32) : Except DecodeError Instr :=
  if wordLen w0 = 3#2 then .error .reservedLength
  else match instrOfOp (wordOp w0) (recOfWords w0 w1 w2) with
    | some i => .ok i
    | none => .error (.unassignedOpcode (wordOp w0))

/-- The rd field of a custom instruction. -/
def wordD (w : W32) : BitVec 5 := w.extractLsb' 7 5
/-- The rs1 field of a custom instruction. -/
def wordA (w : W32) : BitVec 5 := w.extractLsb' 15 5
/-- The rs2 field of a custom instruction. -/
def wordS (w : W32) : BitVec 5 := w.extractLsb' 20 5

/-- The low 7 bits of a word: the major opcode of a custom instruction (R87). -/
def wordMajor (w : W32) : BitVec 7 := w.extractLsb' 0 7

/-- The word is of a custom major opcode (R87, R88). -/
def isCustom (w : W32) : Bool := wordMajor w == 0x0B#7 || wordMajor w == 0x2B#7

/-- The custom instruction of a word under the mask 0xFE00_707F (Table 2-20); an unused rs2 must be x0 (R88). -/
def decodeCustom (w : W32) : Except DecodeError Instr :=
  let d := wordD w
  let a := wordA w
  let s := wordS w
  let two (i : Instr) : Except DecodeError Instr := if s = 0#5 then .ok i else .error (.illegalCustom w)
  match (w &&& 0xFE00707F#32).toNat with
  | 0x0000000B => .ok (.rgnAlloc d a s)
  | 0x0200000B => .ok (.rgnLoad d a s)
  | 0x0400000B => .ok (.rgnStart d a s)
  | 0x0600000B => two (.rgnFreeze d a)
  | 0x0800000B => two (.rgnDrain d a)
  | 0x0A00000B => .ok (.rgnSave d a s)
  | 0x0C00000B => .ok (.rgnRest d a s)
  | 0x0E00000B => .ok (.rgnMove d a s)
  | 0x1000000B => two (.rgnKill d a)
  | 0x1200000B => .ok (.rgnPrio d a s)
  | 0x1400000B => .ok (.rgnStat d a s)
  | 0x0000100B => .ok (.callTake d a s)
  | 0x0200100B => two (.callDone d a)
  | 0x0000002B => .ok (.secFuseRead d a s)
  | 0x0200002B => .ok (.secMeasRead d a s)
  | 0x0400002B => .ok (.secWipeQuery d a s)
  | 0x0600002B => .ok (.secUnlkNonce d a s)
  | 0x0800002B => .ok (.secAtst d a s)
  | _ => .error (.illegalCustom w)

/-- Decoding in element memory, total on any words: the record that the words begin (R72). -/
def decodeFabric : List W32 → Except DecodeError Instr
  | [] => .error .empty
  | w0 :: t =>
    if (wordLen w0).toNat > t.length then .error .truncated
    else decodeRecord w0 (t.getD 0 0#32) (t.getD 1 0#32)

/-- Decoding of words whose agent is not given: a word of a custom major opcode is a custom instruction, any other word
begins a record. -/
def decode : List W32 → Except DecodeError Instr
  | [] => .error .empty
  | w0 :: t => if isCustom w0 then decodeCustom w0 else decodeFabric (w0 :: t)

/-- The row of a custom encoding whose register value selects another operation (R456 to R459). -/
def refine (i : Instr) (a s : BitVec 64) : Instr :=
  match i with
  | .secFuseRead d x y => if s = 0#64 then .secFuseRead d x y else .secFuseBlow d x y
  | .secMeasRead d x y => if a.getLsbD 8 then .secMeasExtend d x y else .secMeasRead d x y
  | .secWipeQuery d x y => if a.getLsbD 7 then .secWipeQuery d x y else .secWipe d x y
  | .secUnlkNonce d x y =>
    if a.extractLsb' 0 2 = 1#2 then .secUnlkSubmit d x y
    else if a.extractLsb' 0 2 = 2#2 then .secUnlkClose d x y
    else .secUnlkNonce d x y
  | i => i

/-- The words numbered as the table numbers them, laid out as the hardware stores them, through the decoder. -/
def decodeTableWord (nbits w : Nat) : Option Instr :=
  let v := w % 2 ^ nbits
  match decode [BitVec.ofNat 32 v, BitVec.ofNat 32 (v / 2 ^ 32), BitVec.ofNat 32 (v / 2 ^ 64)] with
  | .ok i => some i
  | .error _ => none

/-! ### The encoder -/

/-- The opcode and record of a record's instruction. -/
def opOf : Instr → Option (BitVec 8 × Rec)
  | .copy r => some (0x00#8, r)
  | .iadd r => some (0x01#8, r)
  | .isub r => some (0x02#8, r)
  | .imul r => some (0x03#8, r)
  | .imulh r => some (0x04#8, r)
  | .imad r => some (0x05#8, r)
  | .idiv r => some (0x06#8, r)
  | .irem r => some (0x07#8, r)
  | .imin r => some (0x08#8, r)
  | .imax r => some (0x09#8, r)
  | .iabs r => some (0x0A#8, r)
  | .ineg r => some (0x0B#8, r)
  | .iaddc r => some (0x0C#8, r)
  | .isubb r => some (0x0D#8, r)
  | .idot4 r => some (0x0E#8, r)
  | .iclamp r => some (0x0F#8, r)
  | .and r => some (0x10#8, r)
  | .or r => some (0x11#8, r)
  | .xor r => some (0x12#8, r)
  | .andn r => some (0x13#8, r)
  | .not r => some (0x14#8, r)
  | .lut3 r => some (0x15#8, r)
  | .shl r => some (0x16#8, r)
  | .shr r => some (0x17#8, r)
  | .sar r => some (0x18#8, r)
  | .rotl r => some (0x19#8, r)
  | .funl r => some (0x1A#8, r)
  | .clz r => some (0x1B#8, r)
  | .popc r => some (0x1C#8, r)
  | .brev r => some (0x1D#8, r)
  | .bext r => some (0x1E#8, r)
  | .bins r => some (0x1F#8, r)
  | .icmp r => some (0x20#8, r)
  | .sel r => some (0x21#8, r)
  | .fadd r => some (0x40#8, r)
  | .fsub r => some (0x41#8, r)
  | .fmul r => some (0x42#8, r)
  | .ffma r => some (0x43#8, r)
  | .fmin r => some (0x44#8, r)
  | .fmax r => some (0x45#8, r)
  | .fabs r => some (0x46#8, r)
  | .fneg r => some (0x47#8, r)
  | .fcmp r => some (0x48#8, r)
  | .frnd r => some (0x49#8, r)
  | .fclass r => some (0x4A#8, r)
  | .fscale r => some (0x4B#8, r)
  | .fdot2 r => some (0x4C#8, r)
  | .famax r => some (0x4D#8, r)
  | .cvt r => some (0x50#8, r)
  | .cvts r => some (0x51#8, r)
  | .qpack r => some (0x52#8, r)
  | .qunpack r => some (0x53#8, r)
  | .qscale r => some (0x54#8, r)
  | .pmerge r => some (0x60#8, r)
  | .psplit r => some (0x61#8, r)
  | .pext r => some (0x62#8, r)
  | .pins r => some (0x63#8, r)
  | .pbcast r => some (0x64#8, r)
  | .preduce r => some (0x65#8, r)
  | .pshuf r => some (0x66#8, r)
  | .plen r => some (0x67#8, r)
  | .ptest r => some (0x68#8, r)
  | .draw r => some (0x69#8, r)
  | .cadd128 r => some (0x6A#8, r)
  | .steer r => some (0x70#8, r)
  | .merge r => some (0x71#8, r)
  | .gate r => some (0x72#8, r)
  | .enter r => some (0x73#8, r)
  | .next r => some (0x74#8, r)
  | .leave r => some (0x75#8, r)
  | .callf r => some (0x76#8, r)
  | .retf r => some (0x77#8, r)
  | .falloc r => some (0x78#8, r)
  | .ffree r => some (0x79#8, r)
  | .stick r => some (0x7A#8, r)
  | .purge r => some (0x7B#8, r)
  | .cancel r => some (0x7C#8, r)
  | .mark r => some (0x7D#8, r)
  | .hold r => some (0x7E#8, r)
  | .eos r => some (0x7F#8, r)
  | .source r => some (0x80#8, r)
  | .sink r => some (0x81#8, r)
  | .const r => some (0x82#8, r)
  | .tagget r => some (0x83#8, r)
  | .tagset r => some (0x84#8, r)
  | .oreduce r => some (0x85#8, r)
  | .ex2 r => some (0x90#8, r)
  | .lg2 r => some (0x91#8, r)
  | .rcp r => some (0x92#8, r)
  | .rsq r => some (0x93#8, r)
  | .sqrt r => some (0x94#8, r)
  | .sinpi r => some (0x95#8, r)
  | .cospi r => some (0x96#8, r)
  | .tanh r => some (0x97#8, r)
  | .erf r => some (0x98#8, r)
  | .ld r => some (0xA0#8, r)
  | .st r => some (0xA1#8, r)
  | .ldacq r => some (0xA2#8, r)
  | .strel r => some (0xA3#8, r)
  | .lds r => some (0xA4#8, r)
  | .lde r => some (0xA5#8, r)
  | .stf r => some (0xA6#8, r)
  | .stw r => some (0xA7#8, r)
  | .feget r => some (0xA8#8, r)
  | .feset r => some (0xA9#8, r)
  | .atom r => some (0xAA#8, r)
  | .cas r => some (0xAB#8, r)
  | .red r => some (0xAC#8, r)
  | .chunk r => some (0xAD#8, r)
  | .drain r => some (0xAE#8, r)
  | .fence r => some (0xAF#8, r)
  | .syncinv r => some (0xB0#8, r)
  | .sload r => some (0xC0#8, r)
  | .sstore r => some (0xC1#8, r)
  | .sfeed r => some (0xC2#8, r)
  | .sgather r => some (0xC3#8, r)
  | .sscatter r => some (0xC4#8, r)
  | .sxlat r => some (0xC5#8, r)
  | .scopy r => some (0xC6#8, r)
  | .mma r => some (0xD0#8, r)
  | .mmas r => some (0xD1#8, r)
  | .mzero r => some (0xD2#8, r)
  | .mout r => some (0xD3#8, r)
  | .mcb r => some (0xD4#8, r)
  | .mwake r => some (0xD5#8, r)
  | .mgate r => some (0xD6#8, r)
  | .sgen r => some (0xE0#8, r)
  | .sand r => some (0xE1#8, r)
  | .sxnor r => some (0xE2#8, r)
  | .smux r => some (0xE3#8, r)
  | .sor r => some (0xE4#8, r)
  | .scnt r => some (0xE5#8, r)
  | .sdot r => some (0xE6#8, r)
  | .sregen r => some (0xE7#8, r)
  | .slen r => some (0xE8#8, r)
  | .sloadv r => some (0xE9#8, r)
  | .sstorev r => some (0xEA#8, r)
  | .sclr r => some (0xEB#8, r)
  | .send r => some (0xF0#8, r)
  | .recv r => some (0xF1#8, r)
  | .post r => some (0xF2#8, r)
  | .nred r => some (0xF3#8, r)
  | .call r => some (0xF4#8, r)
  | .taggetTag r => some (0x83#8, r)
  | _ => none

/-- The fixed bits and register fields of a custom instruction (Table 2-20). -/
def customOf : Instr → Option (W32 × BitVec 5 × BitVec 5 × BitVec 5)
  | .rgnAlloc d a s => some (0x0000000B#32, d, a, s)
  | .rgnLoad d a s => some (0x0200000B#32, d, a, s)
  | .rgnStart d a s => some (0x0400000B#32, d, a, s)
  | .rgnFreeze d a => some (0x0600000B#32, d, a, 0#5)
  | .rgnDrain d a => some (0x0800000B#32, d, a, 0#5)
  | .rgnSave d a s => some (0x0A00000B#32, d, a, s)
  | .rgnRest d a s => some (0x0C00000B#32, d, a, s)
  | .rgnMove d a s => some (0x0E00000B#32, d, a, s)
  | .rgnKill d a => some (0x1000000B#32, d, a, 0#5)
  | .rgnPrio d a s => some (0x1200000B#32, d, a, s)
  | .rgnStat d a s => some (0x1400000B#32, d, a, s)
  | .callTake d a s => some (0x0000100B#32, d, a, s)
  | .callDone d a => some (0x0200100B#32, d, a, 0#5)
  | .secFuseRead d a s => some (0x0000002B#32, d, a, s)
  | .secMeasRead d a s => some (0x0200002B#32, d, a, s)
  | .secWipeQuery d a s => some (0x0400002B#32, d, a, s)
  | .secUnlkNonce d a s => some (0x0600002B#32, d, a, s)
  | .secAtst d a s => some (0x0800002B#32, d, a, s)
  | .secFuseBlow d a s => some (0x0000002B#32, d, a, s)
  | .secMeasExtend d a s => some (0x0200002B#32, d, a, s)
  | .secWipe d a s => some (0x0400002B#32, d, a, s)
  | .secUnlkSubmit d a s => some (0x0600002B#32, d, a, s)
  | .secUnlkClose d a s => some (0x0600002B#32, d, a, s)
  | _ => none

/-- Word 0 of a record (Table 2-4). -/
def encodeWord0 (op : BitVec 8) (r : Rec) : W32 :=
  r.len ++ op ++ codeOfFmt r.fmt ++ BitVec.ofBool r.imm ++ BitVec.ofBool r.m ++ r.d0

/-- The words of a record: as many as its LEN says. -/
def encodeRecord (op : BitVec 8) (r : Rec) : List W32 :=
  let w0 := encodeWord0 op r
  let w1 : W32 := r.d1 ++ r.aux
  match r.len.toNat with
  | 0 => [w0]
  | 1 => [w0, w1]
  | _ => [w0, w1, r.lit]

/-- The word of a custom instruction. -/
def encodeCustom (m : W32) (d a s : BitVec 5) : W32 :=
  m ||| (d.zeroExtend 32 <<< 7) ||| (a.zeroExtend 32 <<< 15) ||| (s.zeroExtend 32 <<< 20)

/-- The words of a well-formed instruction; an event has none. -/
def encode (i : Instr) : List W32 :=
  match opOf i with
  | some (op, r) => encodeRecord op r
  | none =>
    match customOf i with
    | some (m, d, a, s) => [encodeCustom m d a s]
    | none => []

end Sys2Proof
end

