-- ==== Sys2Proof/Config.lean ====
section
/-! DEFINITION. What the manual fixes for the device as a whole, and the values it leaves open: each of those is an
opaque constant, applied to what it may depend on, so that nothing in Lean can evaluate it (assumption log 1). -/

namespace Sys2Proof.Config

/-- Cycles from seal to confirmation, W (R49, R96). -/
def holdCycles : Nat := 288
/-- Fabric cycles of one microsecond (R2). -/
def microsecond : Nat := 1100

/-- Who moves when the schedule of the state is empty: the manual fixes no order among the agents (R8, R35, R38). -/
opaque freeTurn (ticks : Nat) : Turn
/-- What a byte of memory that no write of the reading key has filled reads as (R449, R474). -/
opaque freeByte (ticks addr : Nat) : BitVec 8
/-- What a word holds that an uncorrectable error has struck (R126, R206). -/
opaque lostWord (ticks i : Nat) : BitVec 32
/-- The home agent that serves a line of 64 bytes: the spread over the 256 of them is free (R229, Table 8-6). -/
opaque homeAgent (line : Nat) : Nat
/-- The place among a round's exception-log entries that is appended next (R122). -/
opaque freePick (ticks i : Nat) : Nat
/-- What a byte reads as whose line another key wrote last (R449): the decryption under the reader's key of what the writer's key
encrypted, fixed by the two keys, the address and the line. -/
opaque wrongKey (reader writer addr : Nat) (line : List (Option (BitVec 8))) : BitVec 8
/-- The bits that the TRE's random generator draws (R448, R459). -/
opaque randomBits (ticks : Nat) : BitVec 256
/-- The 512 bits of a key pair that it draws (R448, R458). -/
opaque randomKey (ticks : Nat) : BitVec 512
/-- Whether the peer refuses an access to its window at an address (R434): its window table is not this device's. -/
opaque peerRefuses (ticks addr : Nat) : Bool
/-- The copies of a fuse word disagree when it is read (R440). -/
opaque fuseDisagrees (ticks word : Nat) : Bool
/-- The bits of a fuse word that a blow reaches (R456). -/
opaque blown (ticks : Nat) : BitVec 32
/-- The digests that bring-up measures and the manual does not fix (R444): 0 to 2 the mask ROM of D0, D1 and DX, 3 to 5 their
trim blocks, 6 the TRE's firmware, 7 that of the CC. -/
opaque imageDigest (which : Nat) : BitVec 256
/-- The private identity key of a die, which the TRE derives alike at every reset from the die's secret (R443). -/
opaque identitySecret (die : Nat) : BitVec 256
/-- The number that an ECDSA signature draws afresh (R446, R462). -/
opaque signingNonce (ticks : Nat) : BitVec 256
/-- A byte of a die's certificate chain ahead of its leaf, as the TRE's flash holds it (R443, R446). -/
opaque certByte (die i : Nat) : BitVec 8
/-- The length of that part of the chain (R446). -/
opaque certLength (die : Nat) : Nat
/-- A byte of the leaf that certifies a public key and names the die and DEVSER (R443). -/
opaque leafByte (qx qy die devser i : Nat) : BitVec 8
/-- The length of that leaf. -/
opaque leafLength (die : Nat) : Nat
/-- What a cycle, time or instruction counter of a hart reads (R372): the model keeps no CC time. -/
opaque counter (ticks i : Nat) : BitVec 64
/-- The pc at which hart 0 leaves reset (R471): the firmware entry point. -/
opaque firmwareEntry : BitVec 64

end Sys2Proof.Config
end

