-- ==== Sys2Proof/Machine/Memory.lean ====
section
/-! DEFINITION. Memory as lists of (address, byte) pairs in one canonical form: addresses strictly rising, no entry
equal to what an unlisted address reads as. A slice of region SRAM reads 0 where nothing is listed (R451); global memory
reads a free value there (R449, R474), so any byte may be listed. -/

namespace Sys2Proof.Machine

/-- The byte listed at an address. -/
def cellGet : List Host.Cell → Nat → Option Byte
  | [], _ => none
  | (k, b) :: t, a => if k = a then some b else if a < k then none else cellGet t a

/-- The list with a byte listed at an address. -/
def cellPut : List Host.Cell → Nat → Byte → List Host.Cell
  | [], a, b => [(a, b)]
  | (k, c) :: t, a, b =>
    if a < k then (a, b) :: (k, c) :: t
    else if k = a then (a, b) :: t
    else (k, c) :: cellPut t a b

/-- The list with nothing listed at an address. -/
def cellDel : List Host.Cell → Nat → List Host.Cell
  | [], _ => []
  | (k, c) :: t, a => if k = a then t else (k, c) :: cellDel t a

/-- The addresses rise strictly from above `lo`. -/
def risesFrom : Option Nat → List Host.Cell → Bool
  | _, [] => true
  | none, (k, _) :: t => risesFrom (some k) t
  | some lo, (k, _) :: t => decide (lo < k) && risesFrom (some k) t

/-- The canonical form of global memory: addresses strictly rising. Any byte may be listed, since an unlisted address
reads as no byte of its own. -/
def Memory.wf (m : List Host.Cell) : Bool := risesFrom none m

/-- The canonical form of a slice of region SRAM: addresses strictly rising and no zero listed. -/
def Sram.wf (m : List Host.Cell) : Bool := risesFrom none m && m.all fun c => c.2 != 0#8

/-! ### Region SRAM: unlisted bytes read 0 -/

/-- A byte of a slice. -/
def sramByte (m : List Host.Cell) (a : Nat) : Byte := (cellGet m a).getD 0#8

/-- The slice with a byte written. -/
def sramPut (m : List Host.Cell) (a : Nat) (b : Byte) : List Host.Cell := if b = 0#8 then cellDel m a else cellPut m a b

/-- The bytes from an address on. -/
def sramBytes (m : List Host.Cell) (a : Nat) : Nat → List Byte
  | 0 => []
  | n + 1 => sramByte m a :: sramBytes m (a + 1) n

/-- The slice with bytes written from an address on. -/
def sramWrite (m : List Host.Cell) (a : Nat) : List Byte → List Host.Cell
  | [] => m
  | b :: t => sramWrite (sramPut m a b) (a + 1) t

/-- Word `w` of a slice (R4). -/
def sramWord (m : List Host.Cell) (w : Nat) : W32 := BitVec.ofNat 32 (fromBytes (sramBytes m (4 * w) 4))

/-- The slice with word `w` written. -/
def sramSetWord (m : List Host.Cell) (w : Nat) (v : W32) : List Host.Cell := sramWrite m (4 * w) (toBytes 4 v.toNat)

/-! ### Global memory: lines of 64 bytes, each under the key it was last written with (R449) -/

/-- The key under which a line was last written. -/
def ownerOf (os : List Owner) (line : Nat) : Option Nat := (os.find? fun o => o.line == line).map (·.key)

/-- The line owners with one line's set. -/
def setOwner (os : List Owner) (line key : Nat) : List Owner := { line, key } :: os.filter fun o => o.line != line

/-- The bytes listed of the line of an address. -/
def lineOf (m : List Host.Cell) (a : Nat) : List (Option Byte) := (List.range 64).map fun i => cellGet m (a / 64 * 64 + i)

/-- A byte of global memory read under a key: free where nothing has written it; in a line that another key wrote last, what the
decryption under the reader's key gives (R449, R474). -/
def memByte (s : State) (key a : Nat) : Byte :=
  match ownerOf s.owners (a / 64), cellGet s.mem a with
  | some k, some b => if k = key then b else Config.wrongKey key k a (lineOf s.mem a)
  | some k, none => if k = key then Config.freeByte s.ticks a else Config.wrongKey key k a (lineOf s.mem a)
  | none, _ => Config.freeByte s.ticks a

/-- The bytes from a physical address on, read under a key. -/
def memBytes (s : State) (key a : Nat) : Nat → List Byte
  | 0 => []
  | n + 1 => memByte s key a :: memBytes s key (a + 1) n

/-- The cells without those of a line. -/
def dropLine (m : List Host.Cell) (line : Nat) : List Host.Cell := m.filter fun c => c.1 / 64 != line

/-- The line of an address as key `key` reads what key `old` encrypted (R449). -/
def rekeyLine (m : List Host.Cell) (key old a : Nat) : List Host.Cell :=
  (List.range 64).foldl (fun l i => cellPut l (a / 64 * 64 + i) (Config.wrongKey key old (a / 64 * 64 + i) (lineOf m a))) m

/-- A byte of global memory written under a key. The memory encrypts by line: of a line last written under another key the other bytes are
encrypted again as the writer's key reads them (R449). -/
def memPut (s : State) (key a : Nat) (b : Byte) : State :=
  match ownerOf s.owners (a / 64) with
  | some k =>
    if k = key then { s with mem := cellPut s.mem a b, bad := setDel s.bad a }
    else { s with mem := cellPut (rekeyLine s.mem key k a) a b, bad := setDel s.bad a, owners := setOwner s.owners (a / 64) key }
  | none => { s with mem := cellPut (dropLine s.mem (a / 64)) a b, bad := setDel s.bad a, owners := setOwner s.owners (a / 64) key }

/-- Bytes written from a physical address on under a key. -/
def memWrite (s : State) (key a : Nat) : List Byte → State
  | [] => s
  | b :: t => memWrite (memPut s key a b) key (a + 1) t

/-- Word at a physical byte address. -/
def memWord (s : State) (key a : Nat) : W32 := BitVec.ofNat 32 (fromBytes (memBytes s key a 4))

/-- An uncorrectable error stands in one of the four bytes at an address. -/
def State.badWord (s : State) (a : Nat) : Bool := !s.bad.isEmpty && (List.range 4).any fun i => s.bad.contains (a + i)

/-- Every line loses its contents: the key of its slot is gone (R448, R474). -/
def eraseKey (s : State) (key : Nat) : State :=
  { s with
    mem := s.mem.filter fun c => ownerOf s.owners (c.1 / 64) != some key
    owners := s.owners.filter fun o => o.key != key }

end Sys2Proof.Machine
end

