-- ==== Sys2Proof/Machine/Ops.lean ====
section
/-! DEFINITION. The named operations over the state: finding regions and units, taking a freezing fault and a hart's
trap (each ONE shared operation), returning from a trap, registers of a hart, credits and circuits, the undo log. -/

namespace Sys2Proof.Machine

/-! ### Regions and units -/

/-- The region with an identifier. -/
def State.region? (s : State) (rid : Nat) : Option Region := s.regions.find? fun R => R.rid == rid

/-- The state with a region changed. -/
def State.modRegion (s : State) (rid : Nat) (f : Region → Region) : State :=
  { s with regions := modFirst (fun R => R.rid == rid) f s.regions }

/-- The state with a region replaced. -/
def State.putRegion (s : State) (R : Region) : State := s.modRegion R.rid fun _ => R

/-- The unit of a region at a place. -/
def Region.unit? (R : Region) (u : UnitId) : Option Site := R.units.find? fun U => U.id == u

/-- The region with a unit changed. -/
def Region.modUnit (R : Region) (u : UnitId) (f : Site → Site) : Region :=
  { R with units := modFirst (fun U => U.id == u) f R.units }

/-- The region with a unit replaced. -/
def Region.putUnit (R : Region) (U : Site) : Region := R.modUnit U.id fun _ => U

/-- The region id that keys carry: the primary's for a shadow (R232, R366). -/
def Region.keyRid (R : Region) : Nat := match R.pair with | some (.shadow p) => p | _ => R.rid

/-- The pages of a region (R377): page index i lies at (X0 + i mod W, Y0 + i div W). -/
def Region.pageX (R : Region) (page : Nat) : Nat := R.x0 + page % R.w
/-- The row of a page of a region. -/
def Region.pageY (R : Region) (page : Nat) : Nat := R.y0 + page / R.w
/-- The number of pages. -/
def Region.pages (R : Region) : Nat := R.w * R.h
/-- The die of a page: 0 or 1 (R12). -/
def Region.dieOf (R : Region) (page : Nat) : Nat := if R.pageX page < 32 then 0 else 1
/-- The page index at page coordinates, if it lies in the region. -/
def Region.pageAt? (R : Region) (x y : Nat) : Option Nat :=
  if R.x0 ≤ x && x < R.x0 + R.w && R.y0 ≤ y && y < R.y0 + R.h then some ((y - R.y0) * R.w + (x - R.x0)) else none

/-- The handle of a region (R374). -/
def Region.handle (R : Region) : Nat := R.rid + 2 ^ 16 * R.gen

/-- The region that a handle names: none where the handle is stale (R374, R386). -/
def State.named (s : State) (h : Nat) : Option Region := s.regions.find? fun R => R.handle == h && !R.killing

/-- The region has no pages of its own at present: its image lies in the Yard pool (Table 1-5). -/
def Region.resident (R : Region) : Bool := R.st != .evicted

/-- The MU of a page. -/
def Region.mu? (R : Region) (page : Nat) : Option Mu :=
  match (R.unit? ⟨page, 3⟩).map Site.eng with
  | some (.mu m) => some m
  | _ => none

/-- The region with the MU of a page changed. -/
def Region.modMu (R : Region) (page : Nat) (f : Mu → Mu) : Region :=
  R.modUnit ⟨page, 3⟩ fun U =>
    match U.eng with
    | .mu m => { U with eng := .mu (f m) }
    | _ => U

/-- The page-local position of the attachment site of an island of a kind on a side (R268, R297, R327). -/
def attachAt (pos side : Nat) : Nat := if pos = 5 then (if side = 0 then 1 else 3) else if side = 0 then 0 else 1

/-- The page-local position of an island's attachment site: the image's POS. -/
def attachPos (U : Site) : Nat := attachAt U.id.pos U.side

/-- Firing goes on in the region: RUNNING, with no freeze wave, no rollback and no kill under way (R30, R55, R133). -/
def Region.live (R : Region) : Bool :=
  R.st == .running && !R.halting && R.roll.isNone && !R.killing && !R.aside

/-- An engine may complete what it has accepted: in a region where firing goes on, on the way to its halt, or draining (R55,
R295, R321, R346). -/
def Region.winding (R : Region) : Bool :=
  R.live || ((R.draining || (R.halting && R.st == .running)) && R.roll.isNone && !R.killing && !R.aside)

/-! ### Taking a freezing fault (R52, R389) and resuming from it (R380) -/

/-- How a take or an engine operation ends: it waits where it is (R38, R130, R187), it faults (R52), or it completes. -/
inductive Res where
  | wait
  | fault (c : Cause) (detail : Nat)
  | vaFault (c : Cause) (va : Nat)
  | ok (s : State)

/-- The device-wide event bits of Table 12-11, with bit `n` set. -/
def State.pend (s : State) (n : Nat) : State :=
  { s with yard := { s.yard with rgnip := s.yard.rgnip ||| BitVec.ofNat 6 (2 ^ n) } }

/-- The fault record of a firing at a unit (Table 12-5). -/
def mkFault (u : UnitId) (node : BitVec 12) (t : Token) (c : Cause) (detail : Nat) : FaultRec where
  tag := t.tag
  node := node
  round := t.round
  seq := t.seq
  page := u.page
  pos := u.pos
  cause := c
  vaf := false
  detail := BitVec.ofNat 128 detail

/-- The fault record whose TAG holds a global address (R287). -/
def mkVaFault (u : UnitId) (node : BitVec 12) (t : Token) (c : Cause) (va : Nat) : FaultRec :=
  { mkFault u node t c 0 with tag := BitVec.ofNat 64 va, vaf := true }

/-- The record of an error tag's source (R363): the round, and the fault record that "error repeat" would carry. -/
def Region.raiseErr (R : Region) (u : UnitId) (t : Token) : Region :=
  { R with errTags := R.errTags ++ [(t.round, mkFault u t.node t .errorRepeat 0)] }

/-- The place of a fault's site in the search order of R86: the sites by page and position, then the MXIs, the STRs, the SBEs, each kind
by page; a gateway (position 7), which R86 does not name, comes last (log entry 102). -/
def FaultRec.rank (f : FaultRec) : Nat :=
  if f.pos ≤ 3 then 4 * f.page + f.pos
  else 2 ^ 20 * (if f.pos = 5 then 1 else if f.pos = 4 then 2 else if f.pos = 6 then 3 else 4) + f.page

/-- The record that a region keeps of a new fault `f`: the first (R389), and of several sites that fault in one cycle the one first in the
order of R86. A record of an earlier cycle stands, and so does an alarm's. -/
def Region.keptFault (R : Region) (now : Nat) (f : FaultRec) : FaultRec :=
  match R.fault with
  | none => f
  | some g => if R.faultAt = now && g.cause != .securityAlarm && f.rank < g.rank then f else g

/-- TAKING A FREEZING FAULT: the region goes to FROZEN, the record is kept as R389 says (R52), the FAULT event is raised
(Table 12-11). A region that is not RUNNING keeps its state. -/
def takeFault (s : State) (rid : Nat) (f : FaultRec) : State :=
  (s.modRegion rid fun R =>
    { R with
      st := if R.st = .running then .frozen else R.st
      fault := some (R.keptFault s.cycle f)
      faultAt := if R.fault.isNone then s.cycle else R.faultAt }).pend 1

/-- RETURN FROM A FREEZING FAULT (R380): RGN.START resumes the region, V clears, the firing is taken again. -/
def Region.resume (R : Region) (now : Nat) : Region :=
  { R with st := .running, fault := none, halting := false, draining := false, since := now, errand := none }


/-! ### Harts: registers, traps, returns (R372, the RISC-V privileged architecture) -/

/-- Hart `h`. -/
def State.hart (s : State) (h : Nat) : Hart := nth Hart.reset s.harts h

/-- The state with hart `h` changed. -/
def State.modHart (s : State) (h : Nat) (f : Hart → Hart) : State := { s with harts := modNth s.harts h f }

/-- The hart that makes the step: the harts of the fabric's own events are none, read as hart 0. -/
def State.me (s : State) : Nat :=
  match s.turn.who with
  | .hart h => h
  | .hartDoes h _ => h
  | _ => 0

/-- Register `r` of a hart; x0 reads 0. -/
def Hart.get (H : Hart) (r : BitVec 5) : W64 := if r = 0#5 then 0#64 else nth 0#64 H.x r.toNat

/-- The hart with register `r` written; a write to x0 is discarded. -/
def Hart.set (H : Hart) (r : BitVec 5) (v : W64) : Hart :=
  if r = 0#5 then H else { H with x := modNth H.x r.toNat fun _ => v }

/-- A bit of a register replaced. -/
def setBit (v : W64) (n : Nat) (b : Bool) : W64 :=
  if b then v ||| BitVec.ofNat 64 (2 ^ n) else v &&& ~~~ BitVec.ofNat 64 (2 ^ n)

/-- The two-bit code of a privilege level. -/
def Priv.code : Priv → Nat
  | .u => 0 | .s => 1 | .m => 3

/-- The privilege level of a code. -/
def Priv.ofCode (n : Nat) : Priv := if n = 0 then .u else if n = 1 then .s else .m

/-- TAKING A TRAP: the pc, the cause and the value are saved, the interrupt enable is stacked, the mode rises and the pc
goes to the handler (log entry 2: the RISC-V privileged architecture, which R372 names). `code` is the cause, with bit
63 set for an interrupt. -/
def Hart.trap (H : Hart) (code : W64) (tval : W64) : Hart :=
  let irq := code.msb
  let n := (code &&& 0x3F#64).toNat
  let deleg := if irq then H.mideleg else H.medeleg
  let vector (base : W64) : W64 :=
    let b := base &&& ~~~ 3#64
    if irq && base &&& 3#64 = 1#64 then b + BitVec.ofNat 64 (4 * n) else b
  if H.priv ≠ .m && bit deleg.toNat n then
    let m1 := setBit H.mstatus 5 (bit H.mstatus.toNat 1)
    let m2 := setBit m1 1 false
    let m3 := setBit m2 8 (decide (H.priv = .s))
    { H with sepc := H.pc, scause := code, stval := tval, mstatus := m3, priv := .s, pc := vector H.stvec, stall := none }
  else
    let m1 := setBit H.mstatus 7 (bit H.mstatus.toNat 3)
    let m2 := setBit m1 3 false
    let m3 := setBit (setBit m2 11 (bit H.priv.code 0)) 12 (bit H.priv.code 1)
    { H with mepc := H.pc, mcause := code, mtval := tval, mstatus := m3, priv := .m, pc := vector H.mtvec, stall := none }

/-- RETURN FROM A TRAP taken into M-mode (MRET): the mode, the interrupt enable and the pc are restored. -/
def Hart.mret (H : Hart) : Hart :=
  let mpp := Priv.ofCode (bits H.mstatus.toNat 12 11)
  let m1 := setBit H.mstatus 3 (bit H.mstatus.toNat 7)
  let m2 := setBit m1 7 true
  let m3 := setBit (setBit m2 11 false) 12 false
  let m4 := if mpp = .m then m3 else setBit m3 17 false
  { H with priv := mpp, mstatus := m4, pc := H.mepc }

/-- RETURN FROM A TRAP taken into S-mode (SRET). -/
def Hart.sret (H : Hart) : Hart :=
  let spp := if bit H.mstatus.toNat 8 then Priv.s else Priv.u
  let m1 := setBit H.mstatus 1 (bit H.mstatus.toNat 5)
  let m2 := setBit m1 5 true
  let m3 := setBit (setBit m2 8 false) 17 false
  { H with priv := spp, mstatus := m3, pc := H.sepc }

/-- The illegal-instruction trap (R88), whose value is the instruction's word. -/
def trapIllegal (s : State) (w : W32) : State := s.modHart s.me fun H => H.trap 2#64 (w.zeroExtend 64)

/-- The hart with its instruction retired: rd is written and the pc moves on by 4. -/
def Hart.retire (H : Hart) (d : BitVec 5) (v : W64) : Hart := { (H.set d v) with pc := H.pc + 4#64, stall := none }

/-- The hart retires an instruction: rd is written and the pc moves on by 4. -/
def retire (s : State) (d : BitVec 5) (v : W64) : State := s.modHart s.me fun H => H.retire d v

/-- The hart retires an instruction that writes no register. -/
def retireNone (s : State) : State := s.modHart s.me fun H => { H with pc := H.pc + 4#64, stall := none }

/-- A result word (R375): STATUS, DETAIL and the value in [63:16]. -/
def resultWord (status detail value : Nat) : W64 := BitVec.ofNat 64 (status + 2 ^ 8 * detail + 2 ^ 16 * value)

/-- A status that the instruction returns with nothing changed (R375). -/
def retStatus (s : State) (d : BitVec 5) (status : Nat) : State := retire s d (resultWord status 0 0)

/-- Registers of the hart that makes the step. -/
def State.x (s : State) (r : BitVec 5) : W64 := (s.hart s.me).get r

/-- The hart's mode is S or M (Table 2-20). -/
def State.sm (s : State) : Bool := (s.hart s.me).priv != .u

/-- The hart's mode is M. -/
def State.isM (s : State) : Bool := (s.hart s.me).priv == .m

/-! ### Destinations, credits and circuits (R22, R75, R80, R129) -/

/-- The local route of a destination (Table 2-5). -/
def dRoute (d : BitVec 16) : Nat := d.toNat / 2 ^ 14
/-- The word of the destination record. -/
def dNode (d : BitVec 16) : BitVec 12 := BitVec.ofNat 12 (d.toNat / 4)
/-- The port of the destination. -/
def dPort (d : BitVec 16) : BitVec 2 := BitVec.ofNat 2 d.toNat
/-- The value that names no destination. -/
def noDest : BitVec 16 := 0xFFFF#16

/-- A token addressed to a destination (R64). -/
def aim (t : Token) (d : BitVec 16) : Token := { t with node := dNode d, port := dPort d }

/-- What a firing sends: the destinations that exist, each with its token. -/
abbrev Sends := List (BitVec 16 × Token)

/-- The sends of a record with a token for D0 and one for D1 (R75, R138). -/
def sendsOf (r : Rec) (t0 t1 : Token) : Sends := [(r.d0, t0), (r.d1, t1)].filter fun p => p.1 != noDest

/-- How many of the sends leave on a route. -/
def onRoute (es : Sends) (route : Nat) : Nat := (es.filter fun p => dRoute p.1 == route).length

/-- The unit has a credit for every one of the sends on its route (R22, R128, R255; log entry 18). -/
def Site.canSend (U : Site) (es : Sends) : Bool :=
  (List.range 4).all fun r => onRoute es r ≤ nth 0 U.credits r

/-- The credits after one for every one of the sends is reserved (R129, R255). -/
def spend (credits : List Nat) (es : Sends) : List Nat :=
  (List.range 4).map fun r => nth 0 credits r - onRoute es r

/-- The credits with one for every one of the sends given back. -/
def unspend (credits : List Nat) (es : Sends) : List Nat :=
  (List.range 4).map fun r => nth 0 credits r + onRoute es r

/-- A CFU record (Table 7-3). -/
def cfuOp (op : Nat) : Bool := decide (0x90 ≤ op) && decide (op ≤ 0x98)

/-- The sends as tokens that wait to leave, each on the credit reserved for it (R129). -/
def outsOf (ready : Nat) (es : Sends) : List Out :=
  es.map fun p => { route := dRoute p.1, ready := ready, paid := true, tok := aim p.2 p.1 }

/-- The unit with its result tokens waiting to leave `lat` cycles from now, in take order (R131, R132), a credit reserved for
each (R129). -/
def Site.queueSends (U : Site) (now lat : Nat) (es : Sends) : Site :=
  { U with credits := spend U.credits es, outq := U.outq ++ outsOf (now + lat) es }

/-- The copies of one token that are still on their way, queued, or freed with the credit not yet sent back (R80). -/
def Region.outstanding (R : Region) (org : UnitId) (route sid : Nat) : Bool :=
  R.flights.any (fun f => f.org == org && f.route == route && f.sid == sid)
    || R.units.any (fun U => U.queues.any fun q => q.any fun t => t.org == org && t.route == route && t.sid == sid)
    || R.freed.any fun f => f.1 == org && f.2.1 == route && f.2.2 == sid

/-- One credit more on a route of a unit: one that the unit has had in advance is made good first. -/
def Site.regain (U : Site) (route : Nat) : Site :=
  if 0 < nth 0 U.owed route then { U with owed := modNth U.owed route (· - 1) }
  else { U with credits := modNth U.credits route (· + 1) }

/-- One credit of a route taken back: for a slot that is taken again. -/
def Site.takeBack (U : Site) (route : Nat) : Site :=
  if 0 < nth 0 U.credits route then { U with credits := modNth U.credits route (· - 1) }
  else { U with owed := modNth U.owed route (· + 1) }

/-- One credit more at the origin of a circuit. -/
def Region.giveCredit (R : Region) (org : UnitId) (route : Nat) : Region := R.modUnit org fun U => U.regain route

/-- A slot is freed and its credit starts back (CREDIT_RETURN brings it to the origin). -/
def Region.free (R : Region) (org : UnitId) (route sid : Nat) : Region :=
  { R with freed := R.freed ++ [(org, route, sid)] }

/-- The credit of a freed slot returns once every end has freed its copy (R22, R80); that of a capability entry starts
back to its region. -/
def Region.returnCredit (R : Region) (org : UnitId) (route sid : Nat) : Region :=
  if R.outstanding org route sid then R
  else if org.pos = 7 then R.free org route sid
  else R.giveCredit org route

/-- A token of a unit starts along the circuit of its route (R20, R268): a flight at the origin's switch. -/
def Region.launch (R : Region) (now : Nat) (u : UnitId) (route : Nat) (t : Token) : Region :=
  match R.unit? u with
  | none => R
  | some U =>
    let loc := if u.pos ≤ 3 then Loc.at u.page u.pos route 0 else Loc.at u.page (attachPos U) route 1
    let f : Flight := { tok := t, org := u, route := route, sid := U.nextSid, loc := loc, since := now, cfuOp := none }
    { (R.modUnit u fun U => { U with nextSid := U.nextSid + 1 }) with flights := R.flights ++ [f] }

/-- One waiting token leaves: it spends the credit reserved for it, or one of its route, or that of a token behind it on
the route, which then waits for one (R22, R129, R132). Where the unit has had
credits of the route in advance, as many of its tokens as those wait until they are back, so that no queue holds more than its
slots. -/
def Region.emitOut (R : Region) (now : Nat) (u : UnitId) (o : Out) : Option Region :=
  match R.unit? u with
  | none => none
  | some U =>
    let rest := delFirst (· == o) U.outq
    let go (V : Site) : Region := (R.putUnit V).launch now u o.route o.tok
    let covered : Nat := nth 0 U.credits o.route + (U.outq.filter fun p => p.route == o.route && p.paid).length
    if covered ≤ nth 0 U.owed o.route then none
    else if o.paid then some (go { U with outq := rest })
    else if 0 < nth 0 U.credits o.route then
      some (go { U with outq := rest, credits := modNth U.credits o.route (· - 1) })
    else if rest.any fun p => p.route == o.route && p.paid then
      some (go { U with outq := modFirst (fun p => p.route == o.route && p.paid) (fun p => { p with paid := false }) rest })
    else none

/-- The first waiting token of a unit that can leave: it is due, and no earlier one of its route waits (R132). -/
def Region.emitNext (R : Region) (now : Nat) (u : UnitId) : Option Region :=
  match R.unit? u with
  | none => none
  | some U => U.outq.findSome? fun o =>
    if o.ready ≤ now && (U.outq.find? fun p => p.route == o.route) == some o then R.emitOut now u o else none

/-- Every waiting token of a unit that can leave leaves. -/
def Region.flushOut (now : Nat) (u : UnitId) : Nat → Region → Region
  | 0, R => R
  | n + 1, R =>
    match R.emitNext now u with
    | none => R
    | some R' => Region.flushOut now u n R'

/-- Tokens whose credits were reserved at the take leave (R129). -/
def Region.sendReserved (R : Region) (now : Nat) (u : UnitId) (es : Sends) : Region :=
  let R1 := R.modUnit u fun U => { U with outq := U.outq ++ outsOf now es }
  R1.flushOut now u (((R1.unit? u).map fun U => U.outq.length).getD 0)

/-- Tokens of a unit that leave at once, spending a credit on each route (R22). -/
def Region.sendNow (R : Region) (now : Nat) (u : UnitId) (es : Sends) : Region :=
  (R.modUnit u fun U => { U with credits := spend U.credits es }).sendReserved now u es

/-! ### The undo log (R233, R234, R51) -/

/-- The word entries an item counts for (R234). -/
def UndoItem.size : UndoItem → Nat
  | .seal _ _ _ => 16
  | .replay _ _ _ => 16
  | _ => 1

/-- The entries the undo log of an MU holds. -/
def Mu.undoUsed (m : Mu) : Nat := (m.undo.map fun e => e.item.size).sum

/-- The undo log has room for `n` more entries (Table 6-1). -/
def Mu.undoRoom (m : Mu) (n : Nat) : Bool := m.undoUsed + n ≤ 8192

/-- The MU with an undo entry appended. -/
def Mu.log (m : Mu) (round : BitVec 12) (item : UndoItem) : Mu := { m with undo := m.undo ++ [{ round, item, bad := false }] }

/-! ### The exception log (R121, R122) -/

/-- An entry appended to the log, or counted as lost (R122). -/
def XLog.append (x : XLog) (e : XEntry) : XLog :=
  if x.entries.length < 64 then { x with entries := x.entries ++ [e] }
  else { x with lost := if x.lost = 0xFFFFFFFF#32 then x.lost else x.lost + 1#32 }

end Sys2Proof.Machine
end

