-- ==== Sys2Proof/Machine/Tags.lean ====
section
/-! DEFINITION. Tags (R67 to R69) and slot addresses (R71): the width table TW, pushing, popping and comparing tags. -/

namespace Sys2Proof.Machine

/-- TOP of a tag: the lowest free bit (R67). -/
def tagTop (t : W64) : Nat := t.toNat >>> 58

/-- TW[d] (R67). -/
def twAt (tw : List Nat) (d : Nat) : Nat := nth 0 tw d

/-- The fields counted from bit `b` and depth `d` until TOP (depth of R68). -/
def depthFrom (tw : List Nat) (top : Nat) : Nat → Nat → Nat → Nat
  | 0, d, _ => d
  | fuel + 1, d, b => if b < top then depthFrom tw top fuel (d + 1) (b + twAt tw d) else d

/-- depth(tag) of R68. -/
def depth (tw : List Nat) (t : W64) : Nat := depthFrom tw (tagTop t) 59 0 0

/-- Bits [lo + w - 1 : lo] of a tag replaced by the low bits of a value. -/
def setField (t : W64) (lo w v : Nat) : W64 :=
  let n := t.toNat
  BitVec.ofNat 64 (n - bits n (lo + w - 1) lo * 2 ^ lo + v % 2 ^ w * 2 ^ lo)

/-- The tag with TOP replaced. -/
def setTop (t : W64) (top : Nat) : W64 := BitVec.ofNat 64 (t.toNat % 2 ^ 58 + top * 2 ^ 58)

/-- inner(tag) of R68: the innermost field, 0 at depth 0. -/
def inner (tw : List Nat) (t : W64) : Nat :=
  if tagTop t = 0 then 0
  else let w := twAt tw (depth tw t - 1); bits t.toNat (tagTop t - 1) (tagTop t - w)

/-- The tag with its innermost field replaced. -/
def setInner (tw : List Nat) (t : W64) (v : Nat) : W64 :=
  if tagTop t = 0 then t
  else let w := twAt tw (depth tw t - 1); setField t (tagTop t - w) w v

/-- push_field(tag, w, v) of R68. -/
def pushField (tw : List Nat) (t : W64) (w v : Nat) : Except Cause W64 :=
  let b := tagTop t
  if twAt tw (depth tw t) ≠ w then .error .tagLayout
  else if b + w > 58 then .error .tagOverflow
  else .ok (setTop (setField t b w v) (b + w))

/-- pop_field(tag, w) of R68. -/
def popField (tw : List Nat) (t : W64) (w : Nat) : Except Cause (W64 × Nat) :=
  let d := depth tw t
  let b := tagTop t
  if d = 0 || twAt tw (d - 1) != w then .error .tagLayout
  else .ok (setTop (setField t (b - w) w 0) (b - w), bits t.toNat (b - 1) (b - w))

/-- The loop of tag_lt from depth `d` on: none when every common field is equal. -/
def tagLtFrom (tw : List Nat) (a b : W64) : Nat → Nat → Nat → Option Bool
  | 0, _, _ => none
  | n + 1, d, base =>
    let w := twAt tw d
    let x := bits a.toNat (base + w - 1) base
    let y := bits b.toNat (base + w - 1) base
    if x ≠ y then some (decide (x < y)) else tagLtFrom tw a b n (d + 1) (base + w)

/-- tag_lt(a, b) of R69. -/
def tagLt (tw : List Nat) (a b : W64) : Bool :=
  let da := depth tw a
  let db := depth tw b
  match tagLtFrom tw a b (min da db) 0 0 with
  | some r => r
  | none => decide (da < db)

/-! ### Slot addresses (R71) -/

/-- The frame-store size of a site: 1,024 slots at a cell, 256 at an MU. -/
def storeSize (u : UnitId) : Nat := if u.pos = 3 then 256 else 1024

/-- The slot index of a record's operand (R71): FRAME × S + OFF + bank. -/
def slotIndex (tw : List Nat) (stride : Nat) (sh : Bool) (lb off : Nat) (t : Token) : Nat :=
  let bank := if sh then 0 else inner tw t.tag % (lb + 1)
  t.frame.toNat * stride + off + bank

/-- SH, LB and OFF of a record (R70): Table 2-3 at a cell, OFF alone at an MU, and at LUT3 [7:0] beside the table. -/
def slotFields (u : UnitId) (op : Nat) (r : Rec) : Bool × Nat × Nat :=
  let a := r.aux.toNat
  if u.pos = 3 then (false, 0, a % 128)
  else if op = 0x15 then (false, 0, a % 256)
  else (bit a 15, bits a 14 12, a % 256)

/-- SUB of a record (Table 2-3). -/
def recSub (r : Rec) : Nat := bits r.aux.toNat 11 8

/-- The key of a token at a record (R169): the tag, its innermost field zero in a shared slot. -/
def matchKey (tw : List Nat) (sh : Bool) (t : W64) : W64 := if sh then setInner tw t 0 else t

end Sys2Proof.Machine
end

