-- ==== Sys2Proof/Machine/Circuits.lean ====
section
/-! DEFINITION. Circuits and the graph (R20, R61, R78, R79, R182): where a route ends, the records of a region, its
edges, and which of them bear markers. -/

namespace Sys2Proof.Machine

/-! ### Records in element memory (R72, R74) -/

/-- A word of element memory. -/
def Site.word (U : Site) (w : Nat) : W32 := (mapGet U.elem w).getD 0#32

/-- The use that the record map gives a word: 0 unoccupied, 1 first word of a record, 2 further word, 3 data. -/
def Site.mark (U : Site) (w : Nat) : Nat := ((mapGet U.marks w).getD 0#2).toNat

/-- The opcode and record that begin at a word. -/
def Site.recAt (U : Site) (w : Nat) : Nat × Rec :=
  ((wordOp (U.word w)).toNat, recOfWords (U.word w) (U.word (w + 1)) (U.word (w + 2)))

/-- An uncorrectable error stands in a word of the record at a word (R126). -/
def Site.recordBad (U : Site) (w : Nat) : Bool :=
  !U.bad.isEmpty && (List.range ((U.recAt w).2.len.toNat + 1)).any fun i => U.bad.contains (w + i)

/-- The words at which records begin, rising. -/
def Site.recWords (U : Site) : List Nat := (U.marks.filter fun p => p.2 == 1#2).map (·.1)

/-- The record that a token fires, if a record begins at its NODE. -/
def Site.recOf (U : Site) (t : Token) : Option (Nat × Rec) :=
  if U.mark t.node.toNat = 1 then some (U.recAt t.node.toNat) else none

/-! ### Ports (Tables 4-6 to 4-8, 5-3, 6-6, 9-6, 10-3, 13-5) -/

/-- The operand ports of an opcode. -/
def portsOf (op : Nat) (fmt : Fmt) : Nat :=
  if op ∈ [0x05, 0x0C, 0x0D, 0x0E, 0x0F, 0x15, 0x1A, 0x1F, 0x21, 0x43, 0x4C, 0x51, 0x85, 0xAB] then 3
  else if op = 0xAC then (if fmt = .f32 then 3 else 2)
  else if op = 0xD1 then 4
  else if op = 0x80 then 0
  else if op ∈ [0x00, 0x0A, 0x0B, 0x14, 0x1B, 0x1C, 0x1D, 0x46, 0x47, 0x49, 0x4A, 0x50, 0x54, 0x61, 0x65, 0x66, 0x67, 0x68,
    0x73, 0x74, 0x76, 0x77, 0x78, 0x79, 0x7A, 0x7B, 0x7C, 0x7D, 0x7E, 0x7F, 0x81, 0x82, 0x83,
    0x90, 0x91, 0x92, 0x93, 0x94, 0x95, 0x96, 0x97, 0x98, 0xA0, 0xA2, 0xA4, 0xA5, 0xA8, 0xAD, 0xAE, 0xAF, 0xB0,
    0xC0, 0xC1, 0xC2, 0xC3, 0xC4, 0xC5, 0xC6, 0xD2, 0xD3, 0xD4, 0xD5, 0xD6,
    0xE1, 0xE2, 0xE3, 0xE4, 0xE5, 0xE6, 0xE7, 0xE8, 0xE9, 0xEA, 0xEB, 0xF0, 0xF1, 0xF2, 0xF3, 0xF4] then 1
  else 2

/-- The ports that take tokens: all but the port that LIT supplies (R76). -/
def tokenPorts (op : Nat) (r : Rec) : List Nat := (List.range (portsOf op r.fmt)).filter fun p => !(r.imm && p == 1)

/-- The record matches tokens in a slot group (R170): two tokens or three, at a cell or an MU; MERGE keeps no slot, and
LEAVE and OREDUCE act as their own entries state. -/
def matching (op : Nat) (r : Rec) : Bool :=
  decide (op < 0xC0) && !(op ∈ [0x71, 0x75, 0x85]) && decide (2 ≤ (tokenPorts op r).length)

/-! ### Neighbours and switch entries (R12, R78) -/

/-- Page and position of the neighbour of a site towards 4 north, 5 east, 6 south or 7 west, within the region. Between die-local
column 63 of D0 and column 0 of D1 the link is the die crossing, whose gateways stand on both sides of it (R24, R29; log entry
99). -/
def Region.neighbour (R : Region) (page pos dir : Nat) : Option (Nat × Nat) :=
  let sx := 2 * R.pageX page + pos % 2
  let sy := 2 * R.pageY page + pos / 2
  let at_ (x y : Nat) : Option (Nat × Nat) := (R.pageAt? (x / 2) (y / 2)).map fun p => (p, x % 2 + 2 * (y % 2))
  match dir with
  | 4 => if sy = 0 then none else at_ sx (sy - 1)
  | 5 => if sx = 127 then none else at_ (sx + 1) sy
  | 6 => if sy = 63 then none else at_ sx (sy + 1)
  | 7 => if sx = 0 then none else at_ (sx - 1) sy
  | _ => none

/-- The side by which a token sent towards `dir` arrives. -/
def opposite (dir : Nat) : Nat := match dir with | 4 => 6 | 5 => 7 | 6 => 4 | _ => 5

/-- The field IN of a switch entry (Table 2-7). -/
def seIn (e : W32) : Nat := bits e.toNat 30 28
/-- The field CIN. -/
def seCin (e : W32) : Nat := bits e.toNat 27 24
/-- The directions of the field OUT. -/
def seOut (e : W32) : List Nat := [4, 5, 6, 7].filter fun d => bit e.toNat (27 - d)
/-- The bit LOC. -/
def seLoc (e : W32) : Bool := bit e.toNat 19
/-- The field END. -/
def seEnd (e : W32) : Nat := bits e.toNat 18 17
/-- The field Q. -/
def seQ (e : W32) : Nat := bits e.toNat 16 15
/-- The field COUT. -/
def seCout (e : W32) : Nat := bits e.toNat 14 11
/-- The slots reserved at the end. -/
def seSlots (e : W32) : Nat := bits e.toNat 10 8 + 1
/-- The field CAP. -/
def seCap (e : W32) : Nat := e.toNat % 256

/-- The valid switch entry of (IN, CIN), with its index. -/
def Site.entry? (U : Site) (inp cin : Nat) : Option (Nat × W32) :=
  let es := (List.range U.switch.length).zip U.switch
  es.find? fun p => bit p.2.toNat 31 && seIn p.2 == inp && seCin p.2 == cin

/-- An end of a circuit (R20). -/
inductive End where
  | queue (u : UnitId) (q : Nat)
  | island (u : UnitId)
  | cfu
  | gateway (page pos index : Nat)
  deriving DecidableEq, Repr

/-- A page is the attachment page of an island of a kind on a side (R268, R297, R327). -/
def islandPlaced (pos side x y : Nat) : Bool :=
  let edge := x % 32 == if side = 0 then 0 else 31
  match pos with
  | 4 => edge && y % 4 == 2
  | 5 => x % 2 == 0 && y == (if side = 0 then 0 else 31)
  | 6 => edge && y % 8 == 4
  | _ => true

/-- A site of a region is an attachment site, whether the region uses its island or not (R268). -/
def Region.attaches (R : Region) (page pos : Nat) : Bool :=
  ([(4, 0), (4, 1), (5, 0), (5, 1), (6, 0), (6, 1)] : List (Nat × Nat)).any fun k =>
    attachAt k.1 k.2 == pos && islandPlaced k.1 k.2 (R.pageX page) (R.pageY page)

/-- The island attached at a site (R14). -/
def Region.islandAt (R : Region) (page pos : Nat) : Option UnitId :=
  (R.units.find? fun U => decide (U.id.pos ≥ 4) && U.id.page == page && attachPos U == pos).map (·.id)

/-- The ends of the circuit that arrives at a site by `inp` under `cin`, each with its slots; `none` in the list is a
broken path. -/
def Region.endsFrom (R : Region) : Nat → Nat → Nat → Nat → Nat → List (Option (End × Nat))
  | 0, _, _, _, _ => [none]
  | fuel + 1, page, pos, inp, cin =>
    match (R.unit? ⟨page, pos⟩).bind (·.entry? inp cin) with
    | none => [none]
    | some (i, e) =>
      let here : List (Option (End × Nat)) :=
        if !seLoc e then []
        else match seEnd e with
          | 0 => [some (.queue ⟨page, pos⟩ (seQ e), seSlots e)]
          | 1 => [(R.islandAt page pos).map fun u => (.island u, seSlots e)]
          | 2 => [some (.cfu, seSlots e)]
          | _ => [some (.gateway page pos i, seSlots e)]
      let away := if seLoc e && seEnd e = 3 then [] else (seOut e).flatMap fun d =>
        match R.neighbour page pos d with
        | none => [none]
        | some (p, q) => R.endsFrom fuel p q (opposite d) (seCout e)
      here ++ away

/-- The origin of a unit's route (R78, R268): the switch and the (IN, CIN) under which it enters. -/
def Site.origin (U : Site) (route : Nat) : Nat × Nat × Nat × Nat :=
  if U.id.pos ≤ 3 then (U.id.page, U.id.pos, route, 0) else (U.id.page, attachPos U, route, 1)

/-- The ends of a unit's route. -/
def Region.ends (R : Region) (U : Site) (route : Nat) : List (Option (End × Nat)) :=
  let o := U.origin route
  R.endsFrom (64 * R.pages + 1) o.1 o.2.1 o.2.2.1 o.2.2.2

/-- The slots of a unit's route: those reserved at its ends (R22, R78). -/
def Region.routeSlots (R : Region) (U : Site) (route : Nat) : Option Nat :=
  (R.ends U route).findSome? fun e => e.map (·.2)

/-- The unit at which an end delivers, if it is one of the region's. -/
def End.unit? : End → Option UnitId
  | .queue u _ => some u
  | .island u => some u
  | _ => none

/-! ### Edges and markers (R61, R182) -/

/-- An edge of the graph (R182): one destination of one record, at one of its ends. -/
structure Edge where
  src  : UnitId
  from_ : Nat
  op   : Nat
  d1   : Bool
  dst  : End
  node : Nat
  port : Nat
  deriving DecidableEq, Repr

/-- The entry of a capability index (R81). -/
def Region.cap (R : Region) (i : Nat) : Nat := ((mapGet R.cfg.caps i).getD 0#64).toNat
/-- DEV of a capability entry (Table 2-8). -/
def capDev (c : Nat) : Nat := bits c 59 40
/-- RID of a capability entry. -/
def capRid (c : Nat) : Nat := bits c 39 29
/-- EPORT of a capability entry. -/
def capEport (c : Nat) : Nat := bits c 28 21
/-- ALLOW of a capability entry. -/
def capAllow (c : Nat) : Nat := bits c 20 8

/-- The ends of the circuit that an ingress entry begins (R82): site, outward link and identifier (Table 2-8). A DIR or POS that
the table does not define is taken by its number (log entry 82). -/
def Region.ingressEnds (R : Region) (e : Nat) : List (Option (End × Nat)) :=
  R.endsFrom (64 * R.pages + 1) (bits e 23 12) (bits e 11 10) (bits e 30 28) (bits e 27 24)

/-- The capability entry that a gateway end names. -/
def Region.gateCap (R : Region) (page pos idx : Nat) : Nat :=
  R.cap (((R.unit? ⟨page, pos⟩).map fun U => seCap (nth 0#32 U.switch idx)).getD 0)

/-- The ends that the tokens of an end reach: a gateway end of a crossing within the region goes on at the ingress entry that its
capability names (R24, R82). -/
def Region.endVia (R : Region) : Nat → End → List End
  | 0, e => [e]
  | fuel + 1, e =>
    match e with
    | .gateway page pos i =>
      let c := R.gateCap page pos i
      let x := ((mapGet R.cfg.ingress (capEport c)).getD 0#32).toNat
      if bit c 63 && capDev c == R.dev && capRid c == R.rid then
        (if bit x 31 then (R.ingressEnds x).flatMap fun y => (y.map fun p => R.endVia fuel p.1).getD [] else [])
      else [e]
    | _ => [e]

/-- The edges that leave a record. A CFU's reply enters the queue of its route at the issuing cell (R253, R255). -/
def Region.edgesOf (R : Region) (U : Site) (w : Nat) : List Edge :=
  let (op, r) := U.recAt w
  [(false, r.d0), (true, r.d1)].flatMap fun p =>
    if p.2 = noDest then []
    else (R.ends U (dRoute p.2)).flatMap fun e => ((e.map fun e => R.endVia 4 e.1).getD []).map fun e =>
      { src := U.id, from_ := w, op := op, d1 := p.1, dst := if e = .cfu then .queue U.id (dRoute p.2) else e,
        node := (dNode p.2).toNat, port := (dPort p.2).toNat }

/-- Every edge of the region. -/
def Region.edges (R : Region) : List Edge := R.units.flatMap fun U => U.recWords.flatMap (R.edgesOf U)

/-- The edge ends at a port of a record. -/
def Edge.into (e : Edge) (u : UnitId) (node : Nat) : Bool := e.dst.unit? == some u && e.node == node

/-- One step of the classification: the edges that bear markers given those known to (R182). -/
def bearStep (es : List Edge) (known : List Edge) : List Edge :=
  es.filter fun e =>
    if e.op = 0x80 || e.op = 0x7D then true
    else if e.op = 0x73 && !e.d1 then false
    else known.any fun k => k.into e.src e.from_

/-- The classification after `n` steps. -/
def bearIter (es : List Edge) : Nat → List Edge → List Edge
  | 0, known => known
  | n + 1, known => let next := bearStep es known; if next.length = known.length then known else bearIter es n next

/-- The marker-bearing edges of the region (R182). -/
def Region.bearing (R : Region) : List Edge := let es := R.edges; bearIter es es.length []

/-- The marker-bearing edges that end at an input port (R61). -/
def Region.bearingAt (R : Region) (u : UnitId) (node port : Nat) : Nat :=
  (R.bearing.filter fun e => e.into u node && e.port == port).length

/-- The input ports of a record at which markers arrive. -/
def Region.markerPorts (R : Region) (u : UnitId) (node : Nat) : List Nat :=
  (List.range 4).filter fun p => decide (0 < R.bearingAt u node p)

/-! ### The marker state (R472, R475) -/

/-- The entry of a kind for a record's port and round. -/
def Region.marker? (R : Region) (kind : Nat) (u : UnitId) (node port : Nat) (round : BitVec 12) : Option MarkerSt :=
  R.markers.find? fun m => m.kind == kind && m.unit == u && m.node == node && m.port == port && m.round == round

/-- Markers of a round counted at a port. -/
def Region.counted (R : Region) (u : UnitId) (node port : Nat) (round : BitVec 12) : Nat :=
  ((R.marker? 1 u node port round).map (·.count)).getD 0

/-- The end-of-stream entry of a port. -/
def Region.eosAt (R : Region) (u : UnitId) (node port : Nat) : Option MarkerSt :=
  R.markers.find? fun m => m.kind == 2 && m.unit == u && m.node == node && m.port == port

/-- The region with one more marker counted (R475). -/
def Region.countMarker (R : Region) (u : UnitId) (node port : Nat) (round : BitVec 12) : Region :=
  match R.marker? 1 u node port round with
  | some m => { R with markers := modFirst (· == m) (fun m => { m with count := m.count + 1 }) R.markers }
  | none => { R with markers := R.markers ++ [{ unit := u, kind := 1, node, port, round, count := 1 }] }

/-- The region with one more end-of-stream token counted; the entry keeps the newest round (R32). -/
def Region.countEos (R : Region) (u : UnitId) (node port : Nat) (round : BitVec 12) : Region :=
  match R.eosAt u node port with
  | some m =>
    { R with markers := modFirst (· == m) (fun m => { m with count := m.count + 1, round := newerOf m.round round }) R.markers }
  | none => { R with markers := R.markers ++ [{ unit := u, kind := 2, node, port, round, count := 1 }] }

/-- Every marker-bearing input port has its markers of the round. -/
def Region.markersFull (R : Region) (u : UnitId) (node : Nat) (round : BitVec 12) : Bool :=
  let ps := R.markerPorts u node
  !ps.isEmpty && ps.all fun p => R.counted u node p round == R.bearingAt u node p

/-- Every marker-bearing input port has its end-of-stream tokens. -/
def Region.eosFull (R : Region) (u : UnitId) (node : Nat) : Bool :=
  let ps := R.markerPorts u node
  !ps.isEmpty && ps.all fun p => ((R.eosAt u node p).map (·.count)).getD 0 == R.bearingAt u node p

/-- The node has forwarded its marker of a round: its counts go (R475). -/
def Region.dropMarkers (R : Region) (u : UnitId) (node : Nat) (round : BitVec 12) : Region :=
  { R with markers := R.markers.filter fun m => !(m.kind == 1 && m.unit == u && m.node == node && m.round == round) }

/-- The node has forwarded end-of-stream. -/
def Region.dropEos (R : Region) (u : UnitId) (node : Nat) : Region :=
  { R with markers := R.markers.filter fun m => !(m.kind == 2 && m.unit == u && m.node == node) }

/-- A sink has taken a marker (kind 3) or an end-of-stream token (kind 4) (R185, R472). -/
def Region.sinkTook (R : Region) (kind : Nat) (u : UnitId) (node : Nat) (round : BitVec 12) : Region :=
  if (R.marker? kind u node 0 round).isSome then R
  else { R with markers := R.markers ++ [{ unit := u, kind, node, port := 0, round, count := 0 }] }

end Sys2Proof.Machine
end

