-- ==== Sys2Proof/Machine/Operands.lean ====
section
/-! DEFINITION. Operands of a firing: LIT (R76, R136), broadcast (R63, R135), the length rules (R60, R63), the output
header (R64), and the matching of tokens in slot groups (R169 to R177), at cells and MUs alike. -/

namespace Sys2Proof.Machine

/-! ### Operands -/

/-- An operand of a firing. `lit` marks the operand that LIT supplies. -/
structure Operand where
  port   : Nat
  sticky : Bool
  lit    : Bool
  tok    : Token
  deriving DecidableEq, Repr, Inhabited

/-- A token with nothing in it. -/
def emptyToken : Token where
  tag := 0#64
  node := 0#12
  port := 0#2
  frame := 0#10
  round := 0#12
  len := 0#3
  fmt := .i32
  act := .normal
  kind := .data
  exc := false
  err := false
  seq := 0#15
  e := List.replicate 8 0#32

/-- The operand that LIT supplies on port 1 (R76): one element in the record's format, EXC and ERR 0. In a pair format
it is LIT extended to 64 bits by the format's signedness (R136). -/
def litOperand (r : Rec) : Operand where
  port := 1
  sticky := false
  lit := true
  tok := { emptyToken with
    fmt := r.fmt
    e := clearAbove 1 [r.lit, if r.fmt = .i64 ∧ r.lit.msb then 0xFFFFFFFF#32 else 0#32] }

/-- The operand at a port. -/
def opAt (ops : List Operand) (p : Nat) : Operand :=
  (ops.find? fun o => o.port == p).getD { port := p, sticky := false, lit := false, tok := emptyToken }

/-- LEN of an operand as a number. -/
def Operand.len (o : Operand) : Nat := o.tok.len.toNat

/-- The largest LEN over operands (R64). -/
def maxLen (ops : List Operand) : Nat := ops.foldl (fun n o => max n o.len) 0


/-- The operand gives its value 0 at every index: LIT always, LEN = 0 beside a longer operand (R135). -/
def Operand.broadcast (ops : List Operand) (o : Operand) : Bool := o.lit || (decide (o.len = 0) && decide (0 < maxLen ops))

/-- The encoding of an operand at packet-wide index i in a format (section 3.1 of The cell). -/
def Operand.val (ops : List Operand) (f : Fmt) (o : Operand) (i : Nat) : Nat := f.get o.tok.e (if o.broadcast ops then 0 else i)

/-- Element j of an operand, a broadcast operand giving E0. -/
def Operand.elem (ops : List Operand) (o : Operand) (j : Nat) : W32 :=
  nth 0#32 o.tok.e (if o.broadcast ops then 0 else j)

/-- The rules of R60 and R63 for operands read in a format: equal LEN or LEN 0, an even number of elements in a pair
format. False is "packet length mismatch". -/
def lensOk (f : Fmt) (ops : List Operand) : Bool :=
  ops.all fun o => o.lit ||
    ((decide (o.len = 0) || decide (o.len = maxLen ops)) && (!f.pair || decide (o.len % 2 = 1)))

/-- Operands that are not sticky, in port order, without LIT (R64). -/
def nonSticky (ops : List Operand) : List Operand := ops.filter fun o => !o.sticky && !o.lit

/-- The operand with the lowest port among those not sticky. -/
def firstOp (ops : List Operand) : Token :=
  match nonSticky ops with
  | [] => emptyToken
  | o :: t => (t.foldl (fun (b : Operand) (o : Operand) => if o.port < b.port then o else b) o).tok

/-- The newest ROUND among the operands that are not sticky. -/
def newestRound (ops : List Operand) : BitVec 12 :=
  match nonSticky ops with
  | [] => 0#12
  | o :: t => t.foldl (fun b o => newerOf b o.tok.round) o.tok.round

/-- The output token of a data firing (R64): header by the operands, payload as R58 and R60 have it. -/
def outToken (ops : List Operand) (f : Fmt) (len : Nat) (exc : Bool) (e : List W32) : Token :=
  let first := firstOp ops
  { tag := first.tag, node := 0#12, port := 0#2, frame := first.frame, round := newestRound ops,
    len := BitVec.ofNat 3 len, fmt := f, act := .normal, kind := .data,
    exc := exc || ops.any (·.tok.exc), err := ops.any (·.tok.err), seq := first.seq, e := f.payload len e }

end Sys2Proof.Machine

namespace Sys2Proof

/-- A data token in a pair format with LEN even: a node that it is given to faults "packet length mismatch" (R60). -/
def Token.oddPair (t : Token) : Bool :=
  t.kind == .data && (t.act == .normal || t.act == .sticky) && t.fmt.pair && decide (t.len.toNat % 2 = 0)

end Sys2Proof

namespace Sys2Proof.Machine

/-- cancel(x) of R174. -/
def cancelOf (t : Token) : Token :=
  { t with len := 0#3, act := .cancel, kind := .data, exc := false, err := false, e := List.replicate 8 0#32 }

/-- A marker token for a round (R61); its payload E0 is the count of R183 on ENTER's D1, and 0 elsewhere. -/
def markerToken (round : BitVec 12) (count : Nat) : Token :=
  { emptyToken with round := round, kind := .marker, fmt := .n32, e := clearAbove 0 [BitVec.ofNat 32 count] }

/-- An end-of-stream token. -/
def eosToken (round : BitVec 12) : Token := { emptyToken with round := round, kind := .eos, fmt := .n32 }

/-! ### Slot groups (R170, R172, R174) -/

/-- The slots of a record's group for a token: the primary, and the secondary of a record that matches three tokens. -/
def groupOf (R : Region) (U : Site) (op : Nat) (r : Rec) (t : Token) : List Nat :=
  let (sh, lb, off) := slotFields U.id op r
  let p := slotIndex R.cfg.tw U.stride sh lb off t
  if (tokenPorts op r).length = 3 then [p, p - (lb + 1)] else [p]

/-- The items a group holds, each with its slot. -/
def groupItems (slots : SMap Slot) (g : List Nat) : List (Nat × Slot) := g.filterMap fun i => (mapGet slots i).map fun x => (i, x)

/-- The key of an item at a record. -/
def Slot.key (tw : List Nat) (sh : Bool) : Slot → Option W64
  | .operand _ t => some (matchKey tw sh t.tag)
  | .mark t _ => some (matchKey tw sh t.tag)
  | _ => none

/-- The operands that wait in a group: port, sticky, token, slot. -/
def waitingOps (items : List (Nat × Slot)) : List (Operand × Nat) :=
  items.filterMap fun p =>
    match p.2 with
    | .operand st t => some ({ port := t.port.toNat, sticky := st, lit := false, tok := t }, p.1)
    | _ => none

/-- The mark of a group (Table 5-1), with its slot. -/
def groupMark (items : List (Nat × Slot)) : Option (Nat × Token × BitVec 4) :=
  items.findSome? fun p =>
    match p.2 with
    | .mark t am => some (p.1, t, am)
    | _ => none

/-- Slots cleared. -/
def clearSlots (slots : SMap Slot) (is : List Nat) : SMap Slot := is.foldl mapDel slots

/-- An item stored in the primary slot when that is empty, and otherwise in the secondary (R170). -/
def storeIn (slots : SMap Slot) (g : List Nat) (x : Slot) : SMap Slot :=
  match g.find? fun i => (mapGet slots i).isNone with
  | some i => mapPut slots i x
  | none => slots

/-- What the arrival of a token at a matching record comes to (R174). `seals` are the old sticky items that a newer
round replaces or purges (R177). -/
inductive Arrival where
  | collision
  | quiet (slots : SMap Slot) (seals : List (Nat × Slot))
  | cancelled (slots : SMap Slot)
  | fire (ops : List Operand) (slots : SMap Slot) (seals : List (Nat × Slot))
  deriving DecidableEq, Repr

/-- The seal copy of an item that a token of a newer round replaces or purges (R177). -/
def sealCopy (round : BitVec 12) (i : Nat) : Slot → List (Nat × Slot)
  | .operand true t => if older t.round round then [(i, .operand true t)] else []
  | .hold t => if older t.round round then [(i, .hold t)] else []
  | _ => []

/-- The handling of R174 for token `t` at a matching record. -/
def arrive (R : Region) (U : Site) (op : Nat) (r : Rec) (t : Token) : Arrival :=
  let (sh, _, _) := slotFields U.id op r
  let k := matchKey R.cfg.tw sh t.tag
  let g := groupOf R U op r t
  let items := groupItems U.slots g
  let p := t.port.toNat
  let ws := waitingOps items
  let mark := groupMark items
  let ports := tokenPorts op r
  if items.any fun x => x.2.key R.cfg.tw sh != some k then .collision
  else
    let inAm (am : BitVec 4) (p : Nat) : Bool := bit am.toNat p
    let am : BitVec 4 := (mark.map (·.2.2)).getD 0#4
    let here := ws.filter fun w => w.1.port == p
    let coveredBut (extra : List Nat) (p : Nat) : Bool :=
      extra.contains p || ws.any (fun w => w.1.port == p) || inAm am p
    let normals := ws.filter fun w => !w.1.sticky
    let stickies := ws.filter fun w => w.1.sticky
    let fireWith (st : Bool) (slots : SMap Slot) (seals : List (Nat × Slot)) (old : List (Operand × Nat)) : Arrival :=
      let mine : Operand := { port := p, sticky := st, lit := false, tok := t }
      let all := mine :: (old.map (·.1)) ++ (if r.imm then [litOperand r] else [])
      let inOrder := (List.range 4).filterMap fun q => all.find? fun o => o.port == q
      .fire inOrder slots seals
    match t.act with
    | .purge =>
      .quiet (clearSlots U.slots (here.map (·.2))) (here.flatMap fun w => sealCopy t.round w.2 (.operand w.1.sticky w.1.tok))
    | .sticky =>
      if here.any (fun w => !w.1.sticky) || inAm am p then .collision
      else if ports.all fun q => q == p || stickies.any fun w => w.1.port == q then .collision
      else
        let seals := here.flatMap fun w => sealCopy t.round w.2 (.operand w.1.sticky w.1.tok)
        let cleared := clearSlots U.slots (here.map (·.2))
        let stored := storeIn cleared g (.operand true t)
        let full := ports.all fun q => q == p || coveredBut [] q
        match mark with
        | some (i, _, _) => if full then .quiet (mapDel stored i) seals else .quiet stored seals
        | none =>
          if full && !normals.isEmpty then
            fireWith true (storeIn (clearSlots cleared (normals.map (·.2))) g (.operand true t)) seals (ws.filter fun w => w.1.port != p)
          else .quiet stored seals
    | .normal | .cancel =>
      if !here.isEmpty || inAm am p then .collision
      else match mark with
        | some (i, mt, am) =>
          let am' := am ||| BitVec.ofNat 4 (2 ^ p)
          if ports.all fun q => coveredBut [p] q then .quiet (mapDel U.slots i) []
          else .quiet (mapPut U.slots i (.mark mt am')) []
        | none =>
          if t.act = .cancel then
            let a := p :: normals.map (·.1.port)
            let cleared := clearSlots U.slots (normals.map (·.2))
            if ports.all fun q => a.contains q || stickies.any fun w => w.1.port == q then .cancelled cleared
            else
              let am' : BitVec 4 := a.foldl (fun m q => m ||| BitVec.ofNat 4 (2 ^ q)) 0#4
              .cancelled (storeIn cleared g (.mark t am'))
          else if ports.all fun q => q == p || coveredBut [] q then
            fireWith false (clearSlots U.slots (normals.map (·.2))) [] ws
          else .quiet (storeIn U.slots g (.operand false t)) []

/-- The operands of a record that takes its single token without a slot (R176): a sticky token counts as a normal one. -/
def soleOperands (r : Rec) (t : Token) : List Operand :=
  let o : Operand := { port := t.port.toNat, sticky := false, lit := false, tok := t }
  if r.imm then (if o.port = 0 then [o, litOperand r] else [litOperand r, o]) else [o]

end Sys2Proof.Machine
end

