-- ==== Sys2Proof/Machine/Rounds.lean ====
section
/-! DEFINITION. Forwarding of markers and end-of-stream tokens (R32, R61, R182 to R184), the counter slots of counted
entries and exits (R183), and the sinks' reports (R185). -/

namespace Sys2Proof.Machine

/-! ### State slots (R173) -/

/-- The index of a record's state slot: slot_addr with FRAME = 0 and LB = 0, so SOFF itself (R173). -/
def soff (op : Nat) (r : Rec) : Nat :=
  if op = 0x73 || op = 0x75 || op = 0x7E then r.lit.toNat % 256
  else if op = 0x85 then bits r.lit.toNat 15 8
  else r.aux.toNat % 256

/-- The round entries of a counter slot (Table 5-2). -/
def counterOf (slots : SMap Slot) (i : Nat) : List CEntry :=
  match mapGet slots i with
  | some (.counter es _) => es
  | _ => []

/-- The counter slot with its entries replaced by a token of a round; the slot is empty once no entry is valid. -/
def putCounter (slots : SMap Slot) (i : Nat) (round : BitVec 12) (es : List CEntry) : SMap Slot :=
  if es.isEmpty then mapDel slots i else mapPut slots i (.counter es round)

/-- The entry of a round, or a fresh one where fewer than four rounds are tracked (R183); none where the token or marker
must wait. -/
def entryFor (es : List CEntry) (round : BitVec 12) : Option CEntry :=
  match es.find? fun e => e.round == round with
  | some e => some e
  | none => if es.length < 4 then some { round, seen := false, exp := 0, got := 0 } else none

/-- The entries with one replaced or added. -/
def putEntry (es : List CEntry) (e : CEntry) : List CEntry :=
  if es.any fun x => x.round == e.round then es.map fun x => if x.round = e.round then e else x else es ++ [e]

/-- An ENTER with D1 is a counted entry (R192). -/
def countedEntry (op : Nat) (r : Rec) : Bool := op == 0x73 && r.d1 != noDest

/-- A LEAVE whose port 1 has a circuit, or an OREDUCE whose port 2 has one, is a counted exit (R183, R192). -/
def Region.countedExit (R : Region) (u : UnitId) (node op : Nat) : Bool :=
  (op == 0x75 && R.edges.any fun e => e.into u node && e.port == 1)
    || (op == 0x85 && R.edges.any fun e => e.into u node && e.port == 2)

/-- A link or call record (R424, R430): it absorbs markers and counts among the sinks. -/
def linkOp (op : Nat) : Bool := decide (0xF0 ≤ op) && decide (op ≤ 0xF4)

/-! ### Firings still to take (R184) -/

/-- A slot of a record holds a normal item, a mark or an open accumulator of a round. -/
def Slot.pending (node : Nat) (round : BitVec 12) : Slot → Bool
  | .operand false t => t.node.toNat == node && t.round == round
  | .mark t _ => t.node.toNat == node && t.round == round
  | _ => false

/-- The record at `node` of a unit still has a firing of the round to take or to complete (R184, R221, R280, R307,
R332): a waiting operand, an open accumulator, an access or operation that has not sent its completion. At an island every
operation of the round that it has accepted counts, whichever record's it is (R307, R332). -/
def Region.pendingAt (_R : Region) (U : Site) (node op : Nat) (r : Rec) (round : BitVec 12) : Bool :=
  let tokOf (x : Slot) : Bool := x.pending node round
  let accum : Bool := op == 0x85 && U.slots.any fun p =>
    match p.2 with
    | .accum a => a.round == round && p.1 % U.stride == (r.aux.toNat % 256) - 1
    | _ => false
  let engine : Bool :=
    match U.eng with
    | .cell => false
    | .mu m => m.accs.any fun a => a.node.toNat == node && a.hdr.round == round && !a.sent && a.st != .performed && a.st != .cancelled
    | .str x => x.ops.any fun o => o.node.toNat == node && o.trig.tok.round == round && !o.sent
    | .mxi x => x.ops.any (fun o => o.hdr.round == round && o.st == .accepted)
        || x.store.any fun i => i.tok.node.toNat == node && i.tok.round == round
    | .sbe x => x.ops.any (fun o => o.hdr.round == round)
        || x.store.any fun i => i.tok.node.toNat == node && i.tok.round == round
  U.slots.any (fun p => tokOf p.2) || accum || engine

/-! ### What a node forwards (R61, R32) -/

/-- A list of rounds, oldest first (R36). -/
def sortRounds : List (BitVec 12) → List (BitVec 12)
  | [] => []
  | r :: t =>
    let rec ins (r : BitVec 12) : List (BitVec 12) → List (BitVec 12)
      | [] => [r]
      | x :: t => if x = r then x :: t else if older r x then r :: x :: t else x :: ins r t
    ins r (sortRounds t)

/-- The destinations on which a record forwards markers: D1 of a counted entry, none of an uncounted ENTER, a MARK, a
SINK or a link record, otherwise D0 and D1. -/
def markerDests (op : Nat) (r : Rec) : List (BitVec 16) :=
  if op = 0x73 then [r.d1].filter (· != noDest)
  else if op = 0x7D || op = 0x81 || linkOp op then []
  else [r.d0, r.d1].filter (· != noDest)

/-- The value that HOLD sends before the marker of a round (R197). -/
def heldValue (slots : SMap Slot) (op : Nat) (r : Rec) (round : BitVec 12) : Option Token :=
  if op = 0x7E then
    match mapGet slots (soff op r) with
    | some (.hold t) => some { t with round := round, seq := 0#15, act := .normal, kind := .data }
    | _ => none
  else none

/-- One round's forwarding: the tokens sent, and the region with the node's counts of that round gone. -/
def Region.forwardRound (R : Region) (u : UnitId) (node op : Nat) (r : Rec) (round : BitVec 12) : Sends × Region :=
  match R.unit? u with
  | none => ([], R)
  | some U =>
    let ds := markerDests op r
    let es := counterOf U.slots (soff op r)
    let count := if countedEntry op r then ((es.find? fun e => e.round == round).map (·.exp)).getD 0 else 0
    let held := heldValue U.slots op r round
    let vals : Sends := match held with
      | some t => ds.map fun d => (d, t)
      | none => []
    let marks : Sends := ds.map fun d => (d, markerToken round count)
    let R1 := R.dropMarkers u node round
    let R2 := if countedEntry op r || R.countedExit u node op then
        R1.modUnit u fun U => { U with slots := putCounter U.slots (soff op r) round (es.filter fun e => e.round != round) }
      else R1
    let R3 := if op = 0x81 || linkOp op then R2.sinkTook 3 u node round else R2
    (vals ++ marks, R3)

/-- The rounds whose marker the node may forward now, oldest first. -/
def Region.readyRounds (R : Region) (U : Site) (node op : Nat) (r : Rec) : List (BitVec 12) :=
  let rounds :=
    if R.countedExit U.id node op then
      ((counterOf U.slots (soff op r)).filter fun e => e.seen && e.exp == e.got).map (·.round)
    else
      ((R.markers.filter fun m => m.kind == 1 && m.unit == U.id && m.node == node).map (·.round)).filter
        (R.markersFull U.id node)
  sortRounds (rounds.filter fun n => !R.pendingAt U node op r n)

/-- What the node forwards now, beside the tokens `pre` that the same step sends: the markers of the rounds that are
complete, then end-of-stream once every port has its count and no marker is left (R32, R61). What finds no credit is
forwarded as credits return (R22, R128); where `pre` is empty the first marker is asked for in any case, and the step
waits for its credit. -/
def Region.forwards (R : Region) (u : UnitId) (node op : Nat) (r : Rec) (pre : Sends := []) : Sends × Region :=
  match R.unit? u with
  | none => ([], R)
  | some U =>
    if op = 0x7D then ([], R)
    else
      let fits (acc es : Sends) : Bool := (pre.isEmpty && acc.isEmpty) || es.isEmpty
        || U.canSend (pre ++ acc ++ es)
      let step (acc : Sends × Region × Bool) (n : BitVec 12) : Sends × Region × Bool :=
        let x := acc.2.1.forwardRound u node op r n
        if acc.2.2 && fits acc.1 x.1 then (acc.1 ++ x.1, x.2, true) else (acc.1, acc.2.1, false)
      let (es, R1, _) := (R.readyRounds U node op r).foldl step ([], R, true)
      let left : Bool := R1.markers.any (fun m => m.kind == 1 && m.unit == u && m.node == node)
        || (R1.countedExit u node op
          && ((R1.unit? u).map fun U => (counterOf U.slots (soff op r)).any (·.seen)).getD false)
      if R1.eosFull u node && !left then
        let round := ((R1.markers.filter fun m => m.kind == 2 && m.unit == u && m.node == node).map (·.round)).foldl
          (fun (b : Option (BitVec 12)) x => some (match b with | none => x | some y => newerOf y x)) none
        let n := round.getD 0#12
        let ends : Sends := (markerDests op r).map fun d => (d, eosToken n)
        if R1.pendingAt U node op r n || !fits es ends then (es, R1)
        else
          let R2 := R1.dropEos u node
          let R3 := if op = 0x81 || linkOp op then R2.sinkTook 4 u node n else R2
          (es ++ ends, R3)
      else (es, R1)

/-- The marker port of a counted exit (R183). -/
def exitPort (op : Nat) : Nat := if op = 0x85 then 2 else 1

/-- A marker counted at a node's port (R475, R183): in the counter slot at a counted exit's marker port, elsewhere in the
marker state. None where the marker must wait for a counter entry: a record tracks four rounds at once. -/
def Region.takeMarker (R : Region) (u : UnitId) (node op : Nat) (r : Rec) (t : Token) : Option Region :=
  if R.countedExit u node op && t.port.toNat == exitPort op then
    match R.unit? u with
    | none => none
    | some U =>
      match entryFor (counterOf U.slots (soff op r)) t.round with
      | none => none
      | some e =>
        let e' := { e with seen := true, exp := (nth 0#32 t.e 0).toNat }
        some (R.modUnit u fun U => { U with slots := putCounter U.slots (soff op r) t.round (putEntry (counterOf U.slots (soff op r)) e') })
  else if op = 0x7D || (op = 0x73 && !countedEntry op r) then some R
  else if countedEntry op r && ((R.unit? u).map fun U => (entryFor (counterOf U.slots (soff op r)) t.round).isNone).getD false then none
  else some (R.countMarker u node t.port.toNat t.round)

/-- An end-of-stream token counted at a node's port (R32). -/
def Region.takeEos (R : Region) (u : UnitId) (node op : Nat) (r : Rec) (t : Token) : Region :=
  if op = 0x73 && !countedEntry op r then R else R.countEos u node t.port.toNat t.round

end Sys2Proof.Machine
end

