-- ==== Sys2Proof/Machine/Translate.lean ====
section
/-! DEFINITION. The physical map, keys, page walks and the Siding (chapter 8, sections 5 and 6; R448 to R450). -/

namespace Sys2Proof.Machine

/-! ### The physical address map (Table 8-6) and keys (R449) -/

/-- What a physical address reaches. -/
inductive Target where
  | hbm | lpddr | host
  | peer (window off : Nat)
  | none
  deriving DecidableEq, Repr

/-- Table 8-6. An absent LPDDR 6 tier is no target (R284). -/
def targetOf (s : State) (pa : Nat) : Target :=
  if pa < 2 ^ 39 then .hbm
  else if 2 ^ 40 ≤ pa && pa < 2 ^ 41 then (if s.boot.lpddr then .lpddr else .none)
  else if 2 ^ 51 ≤ pa && pa < 3 * 2 ^ 50 then .host
  else if 3 * 2 ^ 50 ≤ pa && pa < 2 ^ 52 then .peer (bits pa 49 46) (pa % 2 ^ 46)
  else .none

/-- The address lies in HBM4E or a present LPDDR 6 tier (R285). -/
def inDeviceMemory (s : State) (pa : Nat) : Bool := targetOf s pa == .hbm || targetOf s pa == .lpddr

/-- The number of the key of a slot: 0, no key at all, where the slot is not valid; 64 + k stands for key k itself, under which an access
that a home agent holds completes (R463). -/
def State.slotKey (s : State) (slot : Nat) : Nat :=
  if 64 ≤ slot then slot - 64
  else
    let k := nth { v := false, part := 0#16, key := 0 } s.trust.keys slot
    if k.v then k.key else 0

/-- The slot bound to a partition, if one is valid (R448). -/
def State.slotOf (s : State) (part : BitVec 16) : Option Nat :=
  (List.range 64).find? fun i =>
    let k := nth { v := false, part := 0#16, key := 0 } s.trust.keys i
    k.v && k.part == part

/-- The key under which an address is read or written for a slot: host memory is under none (R449). -/
def keyFor (s : State) (slot pa : Nat) : Nat := if inDeviceMemory s pa then s.slotKey slot else 0

/-- A word read at a physical address through a slot. A peer window's words come from the peer: free (log entry 6). -/
def readWord (s : State) (slot pa : Nat) : W32 :=
  match targetOf s pa with
  | .peer _ _ => BitVec.ofNat 32 (fromBytes ((List.range 4).map fun i => Config.freeByte s.ticks (pa + i)))
  | _ => memWord s (keyFor s slot pa) pa

/-- Bytes read at a physical address through a slot. -/
def readBytes (s : State) (slot pa n : Nat) : List Byte :=
  match targetOf s pa with
  | .peer _ _ => (List.range n).map fun i => Config.freeByte s.ticks (pa + i)
  | _ => memBytes s (keyFor s slot pa) pa n

/-- Reservations on the granule of an address, but those of agent `but`, are broken (R230). Harts are the agents 0 to
15. -/
def breakResv (s : State) (but : Option Nat) (pa : Nat) : State :=
  { s with home := { s.home with resv := s.home.resv.filter fun x => x.2.1 != pa / 64 || some x.1 == but }, harts := (List.range s.harts.length).zip s.harts |>.map fun p =>
      match p.2.resv with
      | some (g, _) => if g = pa / 64 && some p.1 != but then { p.2 with resv := none } else p.2
      | none => p.2 }

/-- This device's DEV. -/
def State.self (s : State) : Nat := s.links.devid.toNat

/-- One of the two directions of a dimension of the torus (R414): the shorter way, + when both are equal. -/
def torusDir (n from_ dest : Nat) : Option Bool :=
  let d := (dest + n - from_) % n
  if d = 0 then none else some (decide (2 * d ≤ n))

/-- The port of this device on which a packet for a device starts (R414): the board-peer port whose PEER it is, up or down, or the
first dimension that differs, by the shorter way, on the port of that direction that the packet's entry chooses (log
entry 9). -/
def firstPort (s : State) (src dev rid eport : Nat) : Option Nat :=
  let ports := (List.range 16).zip s.links.ports
  match ports.find? fun p => p.2.role == 2#2 && p.2.en && p.2.known && p.2.peer.toNat == dev with
  | some p => some p.1
  | none =>
    let nx := s.links.nxm.toNat + 1
    let ny := s.links.nym.toNat + 1
    let nz := s.links.nzm.toNat + 1
    let me := s.self
    let dir : Option Nat :=
      match torusDir nx (me % nx) (dev % nx) with
      | some plus => some (if plus then 0 else 1)
      | none => match torusDir ny (me / nx % ny) (dev / nx % ny) with
        | some plus => some (if plus then 2 else 3)
        | none => (torusDir nz (me / nx / ny % nz) (dev / nx / ny % nz)).map fun plus => if plus then 4 else 5
    match dir with
    | none => none
    | some d =>
      let ps := (ports.filter fun p => p.2.role == 1#2 && p.2.dir.toNat == d && p.2.en).map (·.1)
      if ps.isEmpty then none else ps[(src + rid + eport) % ps.length]?

/-- The port is up. -/
def State.portUp (s : State) (p : Nat) : Bool := (s.links.ports[p]?).any (·.up)

/-- A packet put out on a port. -/
def State.putOut (s : State) (port : Nat) (p : Packet) : State :=
  { s with links := { s.links with outbox := s.links.outbox ++ [(port, p)] } }

/-- A packet through peer window `w` to the window's device (R434), with a partition (R418). -/
def State.toPeer (s : State) (part : BitVec 16) (w : Nat) (body : Body) : State :=
  let dev := ((mapGet s.links.windows w).map fun x => x.2.2.toNat).getD 0
  match firstPort s s.self dev 0 w with
  | none => s
  | some p => s.putOut p { srcDev := s.self, srcRid := 0, cap := 0, dstDev := dev, dstRid := 0, eport := w, part := part,
                           id := s.links.nextId, body }

/-- The partition of the slot under which a requester writes, 0xFFFF for slot 0 (R417, R418). -/
def State.slotPart (s : State) (slot : Nat) : BitVec 16 := (nth { v := false, part := 0#16, key := 0 } s.trust.keys slot).part

/-- Bytes written through peer window `w` at an offset (R434): a packet to the window's device, with the partition of the slot under
which the requester writes. -/
def State.writePeer (s : State) (slot w off : Nat) (bs : List Byte) : State := s.toPeer (s.slotPart slot) w (.window off bs)

/-- Bytes written at a physical address through a slot; a window's bytes go to the peer. -/
def writeBytes (s : State) (slot pa : Nat) (bs : List Byte) : State :=
  match targetOf s pa with
  | .peer w off => s.writePeer slot w off bs
  | .none => s
  | _ => breakResv (memWrite s (keyFor s slot pa) pa bs) none pa

/-- Every window rule of R434 holds for a physical address, and the peer does not refuse it (log entry 6). -/
def windowOk (s : State) (pa : Nat) (wr : Bool) : Bool :=
  match targetOf s pa with
  | .peer w _ =>
    match mapGet s.links.windows w with
    | some (v, w, _) => v && (!wr || w) && !Config.peerRefuses s.ticks pa
    | none => false
  | .none => false
  | _ => true

/-! ### Page walks (R285 to R287) -/

/-- What a walk returns. -/
inductive WalkRes where
  | absent
  | fault (c : Cause)
  | page (t : Tlb)
  deriving DecidableEq, Repr

/-- The index of a level (Table 8-7). -/
def vaIndex (l va : Nat) : Nat :=
  match l with
  | 3 => bits va 56 39 | 2 => bits va 38 30 | 1 => bits va 29 21 | _ => bits va 20 16

/-- log2 of the page a leaf of a level maps (Table 8-7). -/
def leafLog (l : Nat) : Nat := match l with | 2 => 30 | 1 => 21 | _ => 16

/-- log2 of the alignment of the table that an entry of a level points to (Table 8-7). -/
def tableLog (l : Nat) : Nat := match l with | 3 => 12 | 2 => 12 | _ => 8

/-- The loop of walk(VA, access) at a level (R287); an uncorrectable error in an entry is "page table". -/
def walkFrom (s : State) (va : Nat) (rd wr : Bool) : Nat → Nat → WalkRes
  | l, t =>
    let at_ := t + 8 * vaIndex l va
    let e := fromBytes (memBytes s (s.slotKey 0) at_ 8)
    let leaf := bit e 62
    let r := bit e 61
    let w := bit e 60
    let pa := bits e 51 8 * 256
    if s.badWord at_ || s.badWord (at_ + 4) then .fault .pageTable
    else if !bit e 63 then .absent
    else if bits e 59 52 ≠ 0 || bits e 7 0 ≠ 0 || (w && !r) || (leaf && l == 3) || (!leaf && l == 0)
        || pa % 2 ^ (if leaf then leafLog l else tableLog l) ≠ 0
        || (!leaf && !inDeviceMemory s pa) then .fault .pageTable
    else if leaf then
      if (rd && !r) || (wr && !w) then .fault .permission
      else .page { va := va / 2 ^ leafLog l * 2 ^ leafLog l, lg := leafLog l, pa := pa, r := r, w := w }
    else match l with
      | 0 => .fault .pageTable
      | l' + 1 => walkFrom s va rd wr l' pa

/-- walk(VA, access) of R287 with the address check of R284. -/
def walkVa (s : State) (rt va : Nat) (rd wr : Bool) : WalkRes :=
  if !inDeviceMemory s rt then .fault .pageTable
  else match walkFrom s va rd wr 3 rt with
    | .page t => if targetOf s (t.pa + va % 2 ^ t.lg) = .none then .fault .physicalAddress else .page t
    | x => x

/-- A TLB's translation of an address (R288). -/
def tlbFind (ts : List Tlb) (va : Nat) : Option Tlb := ts.find? fun t => t.va ≤ va && va < t.va + 2 ^ t.lg

/-- The physical address of a virtual one under a translation. -/
def Tlb.paOf (t : Tlb) (va : Nat) : Nat := t.pa + (va - t.va)

/-- A TLB with a translation added, the oldest one giving way when `cap` are held (R288). -/
def tlbAdd (cap : Nat) (ts : List Tlb) (t : Tlb) : List Tlb :=
  let ts := ts.filter fun x => x.va != t.va || x.lg != t.lg
  if ts.length < cap then ts ++ [t] else ts.drop 1 ++ [t]

/-- A walk asked for at the PWS, once for an access and page (R288). -/
def askWalk (s : State) (w : Walk) : State :=
  if s.walks.any fun x => x.rid == w.rid && x.unit == w.unit && x.acc == w.acc && x.va == w.va then s
  else { s with walks := s.walks ++ [w] }

/-! ### Sidings (R228, R291, R292) -/

/-- The Siding of an MU: the STR whose span holds its row, on the die edge nearer to it (R228). -/
def Region.muSiding (R : Region) (page : Nat) : Nat :=
  16 * R.dieOf page + 8 * (if (2 * R.pageX page + 1) % 64 < 32 then 0 else 1) + (2 * R.pageY page + 1) / 8

/-- The Siding of an STR island (R228). -/
def Region.strSiding (R : Region) (U : Site) : Nat := 16 * R.dieOf U.id.page + 8 * U.side + R.pageY U.id.page / 4

/-- The Siding of the link gateway of a page's die (R415). -/
def Region.linkSiding (R : Region) (page : Nat) : Nat := 32 + R.dieOf page

/-- An MU record that can place an entry in a Siding (R292). -/
def sendsGlobal (op : Nat) (r : Rec) : Bool := op ∈ [0xA1, 0xA3, 0xAC] && bit r.aux.toNat 9

/-- The gateway end leads out of the device's region: its capability names another region (R420). -/
def Region.outward (R : Region) (self : Nat) (cap : Nat) : Bool :=
  match mapGet R.cfg.caps cap with
  | some e => bits e.toNat 59 40 ≠ self || bits e.toNat 39 29 ≠ R.rid
  | none => true

/-- The pages and islands of the region that send through a Siding (R292). -/
def Region.senders (R : Region) (self siding : Nat) : Nat :=
  let has (U : Site) (p : Nat → Rec → Bool) : Bool := U.recWords.any fun w => p (U.recAt w).1 (U.recAt w).2
  let mus := R.units.filter fun U => U.id.pos == 3 && R.muSiding U.id.page == siding && has U sendsGlobal
  let strs := R.units.filter fun U => U.id.pos == 4 && R.strSiding U == siding && has U fun op _ => op ∈ [0xC1, 0xC4, 0xC6]
  let links := (List.range R.pages).filter fun p => R.linkSiding p == siding && R.units.any fun U =>
    U.id.page == p && decide (U.id.pos ≤ 3)
      && (has U (fun op _ => linkOp op)
        || U.switch.any fun e => bit e.toNat 31 && seLoc e && seEnd e == 3 && R.outward self (seCap e))
  mus.length + strs.length + links.length

/-- The region's share at a Siding (R292). -/
def Region.share (R : Region) (self siding : Nat) : Nat := 2 * ceilDiv R.cfg.egress 64 * R.senders self siding

/-- A comparator entry is a line of a Siding. -/
def Comp.lineIn (c : Comp) (siding : Nat) : Bool := match c.item with | .line h => h.siding == siding | _ => false

/-- Entries of the region in a Siding, those that wait for the pair comparator too (R51, R367). -/
def Region.heldIn (R : Region) (siding : Nat) : Nat :=
  (R.held.filter fun h => h.siding == siding).length + (R.leaving.filter fun c => c.lineIn siding).length
/-- Entries of a round in a Siding. -/
def Region.heldRound (R : Region) (siding : Nat) (round : BitVec 12) : Nat :=
  (R.held.filter fun h => h.siding == siding && h.key.round == round).length

/-- Whether a Siding takes `n` more lines of a round: it may need to wait (R51), or the round passes its half of the
share (R292). -/
inductive SidingRoom where
  | room | wait | bound
  deriving DecidableEq, Repr

/-- Room in the region's share (R292). -/
def Region.sidingRoom (R : Region) (self siding : Nat) (round : BitVec 12) (n : Nat) : SidingRoom :=
  let share := R.share self siding
  if R.heldRound siding round + n > share / 2 then .bound
  else if R.heldIn siding + n > share then .wait
  else .room

/-- The operation that places an entry is of an MU (0), of an STR (1), of a link record (2) or of a gateway (3): the ranges of
OWN (log entry 35). -/
def Key.placer (k : Key) : Nat := k.own / 1024

/-- The entry holds a write of this key (R232, R291). -/
def Held.has (h : Held) (k : Key) : Bool := h.key == k || h.also.contains k

/-- A word of a global write accepted into a Siding: merged into the entry placed there last when that is a write of
the same line (its VA and its PA), round and chain by the same MU or STR, and otherwise a new entry (R291); `pa` is absent where
the translation is still to come (R294). -/
def Region.holdWord (R : Region) (siding va : Nat) (pa : Option Nat) (rel : Bool) (key : Key) (v : W32) : Region :=
  let w := va / 4 % 16
  let line := va / 64 * 64
  let put (h : Held) : Held := { h with
    mask := h.mask ||| BitVec.ofNat 16 (2 ^ w), data := modNth h.data w fun _ => v, under := h.under.filter (·.1 != w)
    also := if h.has key then h.also else h.also ++ [key] }
  let fresh : Held :=
    { siding, va := line, pa := pa.map fun a => a / 64 * 64, op := .write, rel, mask := BitVec.ofNat 16 (2 ^ w),
      data := modNth (List.replicate 16 0#32) w fun _ => v, key, kept := false, under := [] }
  let lastHere := (R.held.reverse.find? fun h => h.siding == siding)
  match lastHere with
  | some h =>
    if h.op = .write && h.va == line && h.pa == fresh.pa && h.key.round == key.round && h.key.chain == key.chain && h.key.placer == key.placer
        && h.rel == rel && !h.kept then
      { R with held := (modFirst (· == h) put R.held.reverse).reverse }
    else { R with held := R.held ++ [fresh] }
  | none => { R with held := R.held ++ [fresh] }

/-- A RED contribution accepted into a Siding: never merged (R291). -/
def Region.holdRed (R : Region) (siding va pa : Nat) (opx : Nat) (f : Fmt) (ord : W32) (key : Key) (vs : List W32) : Region :=
  let w := va / 4 % 16
  let data := (List.range vs.length).foldl (fun d i => modNth d (w + i) fun _ => nth 0#32 vs i) (List.replicate 16 0#32)
  let mask := (List.range vs.length).foldl (fun m i => m ||| BitVec.ofNat 16 (2 ^ (w + i))) 0#16
  let h : Held :=
    { siding := siding, va := va / 64 * 64, pa := some (pa / 64 * 64), op := .red opx f ord, rel := false,
      mask := mask, data := data, key := key, kept := false, under := [] }
  { R with held := R.held ++ [h] }

/-! ### Reductions applied to memory (R242, R244, R246) -/

/-- The new value of an integer atomic (R242); `b` is the operand. -/
def atomNew (opx : Nat) (f : Fmt) (old b : Nat) : Nat :=
  match opx with
  | 0 => (old + b) % 2 ^ f.width
  | 1 => old &&& b
  | 2 => old ||| b
  | 3 => old ^^^ b
  | 4 => if f.int old ≤ f.int b then old else b
  | 5 => if f.int old ≥ f.int b then old else b
  | _ => b

/-- One f32 contribution applied: .add rounds RNE without flush, .min and .max follow R101 (R244). -/
def redF32 (opx : Nat) (old v : Nat) : Nat :=
  let a := FF.f32.decode old
  let b := FF.f32.decode v
  match opx with
  | 0 => (addFmt .f32 .rne false false old v).1
  | 4 => if a.isNan then (if b.isNan then 0x7FC00000 else v) else if b.isNan then old else if b.lt a then v else old
  | _ => if a.isNan then (if b.isNan then 0x7FC00000 else v) else if b.isNan then old else if a.lt b then v else old

/-- The fold of f32 contributions to one word from NEXT on, stopping at the first ordinal not among them (R293). -/
def foldOrd (cs : List (Nat × Nat × Nat)) : Nat → Nat → Nat → Nat
  | 0, _, v => v
  | fuel + 1, next, v =>
    match cs.find? fun c => c.1 == next with
    | some (_, opx, b) => foldOrd cs fuel (next + 1) (redF32 opx v b)
    | none => v

/-- One held entry applied to the aligned pair of words `w`, `w + 1` of its line; f32 contributions apply later (R293). -/
def applyHeld (w : Nat) (v : Nat × Nat) (h : Held) : Nat × Nat :=
  let has (i : Nat) : Bool := bit h.mask.toNat i
  let d (i : Nat) : Nat := (nth 0#32 h.data i).toNat
  match h.op with
  | .write => (if has w then d w else v.1, if has (w + 1) then d (w + 1) else v.2)
  | .red opx f _ =>
    if f = .f32 then v
    else if f.pair then
      if has w then
        let n := atomNew opx f (v.1 + 2 ^ 32 * v.2) (d w + 2 ^ 32 * d (w + 1))
        (n % 2 ^ 32, n / 2 ^ 32)
      else v
    else (if has w then atomNew opx f v.1 (d w) else v.1, if has (w + 1) then atomNew opx f v.2 (d (w + 1)) else v.2)

/-- The number that `n` bytes of a line held before its provisional change; a byte that nothing had written is free. -/
def Prov.before (s : State) (p : Prov) (pa n : Nat) : Nat :=
  fromBytes ((List.range n).map fun i =>
    match p.old.find? fun c => c.1 == pa + i with
    | some (_, some b) => b
    | _ => Config.freeByte s.ticks (pa + i))

/-- A word of memory as the region reads it: of a line that a round replay keeps provisional and has not met again, the
word from before (R364). -/
def keptWord (s : State) (R : Region) (slot pa : Nat) : W32 :=
  match s.home.prov.find? fun p => p.kept.contains R.rid && p.line == pa / 64 && p.rid == R.keyRid with
  | some p => BitVec.ofNat 32 (p.before s pa 4)
  | none => readWord s slot pa

/-- A held entry without the words that a read-modify-write of the region has taken up: memory holds what became of those (R50,
R229), unless a round replay has not met the read-modify-write again (R364). -/
def Held.seen (s : State) (R : Region) (h : Held) : Held :=
  if h.under.isEmpty then h
  else
    let gone (i : Nat) : Bool := h.under.any fun x => x.1 == i && !s.home.prov.any fun p =>
      h.pa == some (p.line * 64) && p.rid == R.keyRid && p.round == x.2 && p.kept.contains R.rid
    { h with mask := (List.range 16).foldl (fun m i => if gone i then m &&& ~~~ BitVec.ofNat 16 (2 ^ i) else m) h.mask }

/-- The entries of a line that apply to what the region reads there, in entry order: those at a pair's comparator, those that wait for
it, then those of open rounds (R50, R293, R367). A kept entry not met again does not count (R364). -/
def heldAt (s : State) (R : Region) (pa : Nat) : List Held :=
  let waiting := if R.pair.isNone then [] else (s.comp ++ R.leaving).filterMap fun c => match c.item with
    | .line h => if c.rid = R.rid then some h else none
    | _ => none
  ((waiting ++ R.held).filter fun h => h.pa == some (pa / 64 * 64) && !h.kept).map (Held.seen s R)

/-- A word as the region's writes and integer REDs leave it: memory, then the held entries in entry order (R50, R293). `slot` is
the region's key slot. -/
def plainWord (s : State) (R : Region) (slot pa : Nat) : Nat :=
  let w := pa / 4 % 16
  let even := w / 2 * 2
  let base := pa / 8 * 8
  let v := (heldAt s R pa).foldl (applyHeld even) ((keptWord s R slot base).toNat, (keptWord s R slot (base + 4)).toNat)
  if w = even then v.1 else v.2

/-- A word as the region sees it: memory, then the region's held writes and integer REDs in entry order, then its f32
REDs from the home agent's NEXT on (R50, R293). -/
def viewWord (s : State) (R : Region) (slot pa : Nat) : W32 :=
  let w := pa / 4 % 16
  let fs := (heldAt s R pa).filterMap fun h =>
    match h.op with
    | .red opx .f32 ord =>
      if bit h.mask.toNat w then some (ord.toNat % 2 ^ 31, opx, (nth 0#32 h.data w).toNat) else none
    | _ => none
  let next := (mapGet s.home.ords (pa / 4)).getD 0
  BitVec.ofNat 32 (foldOrd fs fs.length next (plainWord s R slot pa))

/-- The word that the region reads comes from a word of memory that an uncorrectable error has struck: no held write covers it
(R206, R295). -/
def viewBad (s : State) (R : Region) (pa : Nat) : Bool :=
  s.badWord pa && !(heldAt s R pa).any fun h => h.op == .write && bit h.mask.toNat (pa / 4 % 16)

/-- An uncorrectable error stands in the line of memory that a region reads at an address. -/
def viewLineBad (s : State) (R : Region) (pa : Nat) : Bool :=
  !s.bad.isEmpty && (List.range 16).any fun i => viewBad s R (pa / 64 * 64 + 4 * i)

/-- An entry of a restored Siding waits for its translation: a read of the region waits until every entry has one (R293,
R294). -/
def Region.heldUntranslated (R : Region) : Bool := R.held.any fun h => h.pa.isNone

/-! ### Provisional lines (R229) -/

/-- The line is provisional for an agent other than the region (R229): the access waits. -/
def provBlocks (s : State) (rid : Option Nat) (pa : Nat) : Bool :=
  s.home.prov.any fun p => p.line == pa / 64 && some p.rid != rid

end Sys2Proof.Machine
end

