-- ==== Sys2Proof/Machine/Slice.lean ====
section
/-! DEFINITION. Region SRAM and its accesses (chapter 6): addresses and their checks, writes with undo entries and
full/empty bits, waiters, ordinal reductions, and the completion of an access. -/

namespace Sys2Proof.Machine

/-! ### Fields of a memory record (Table 2-6) -/

/-- CHAIN. -/
def mrChain (r : Rec) : Nat := bits r.aux.toNat 15 10
/-- AS: true is global. -/
def mrGlobal (r : Rec) : Bool := bit r.aux.toNat 9
/-- SCOPE. -/
def mrScope (r : Rec) : Nat := bits r.aux.toNat 8 7
/-- PRED. -/
def mrPred (r : Rec) : Nat := bits r.lit.toNat 31 22
/-- OWN. -/
def mrOwn (r : Rec) : Nat := bits r.lit.toNat 21 12
/-- SUCC. -/
def mrSucc (r : Rec) : Nat := bits r.lit.toNat 11 2
/-- HEAD. -/
def mrHead (r : Rec) : Bool := bit r.lit.toNat 1
/-- TAIL. -/
def mrTail (r : Rec) : Bool := bit r.lit.toNat 0
/-- OPX = M × 4 + SCOPE (R242). -/
def mrOpx (r : Rec) : Nat := 4 * b2n r.m + mrScope r

/-- The global base of a chain (R211, R212). -/
def Region.chainBase (R : Region) (c : Nat) : Nat := (nth 0#64 R.cfg.chains c).toNat % 2 ^ 51 * 64
/-- ITER of a chain. -/
def Region.chainIter (R : Region) (c : Nat) : Bool := bit (nth 0#64 R.cfg.chains c).toNat 62
/-- The LIVE bound of a chain. -/
def Region.chainLive (R : Region) (c : Nat) : Nat := bits (nth 0#64 R.cfg.chains c).toNat 57 51 + 1

/-- Class acquire or both (Table 6-4). -/
def isAcquire (op : Nat) : Bool := op ∈ [0xA2, 0xA4, 0xA5, 0xA7, 0xAE, 0xAF]
/-- Class release or both (Table 6-4). -/
def isRelease (op : Nat) : Bool := op ∈ [0xA3, 0xA6, 0xB0, 0xA7, 0xAE, 0xAF]
/-- The access may write a word or a full/empty bit (R218, R232). -/
def writesMem (op : Nat) : Bool := op ∈ [0xA1, 0xA3, 0xA5, 0xA6, 0xA7, 0xA9, 0xAA, 0xAB, 0xAC, 0xAD, 0xB0]
/-- Side-effecting accesses (R232): every write, atomic, RED, CHUNK, FESET and SYNCINV; LDE is none. -/
def sideEffect (op : Nat) : Bool := writesMem op && op != 0xA5
/-- The access waits on full/empty bits (R227). -/
def waitsFe (op : Nat) : Bool := op ∈ [0xA4, 0xA5, 0xA7]

/-! ### Addresses (R207, R208, R214) -/

/-- PAGE of a region SRAM address. -/
def saPage (a : Nat) : Nat := bits a 29 18
/-- OFFSET of a region SRAM address. -/
def saOff (a : Nat) : Nat := a % 2 ^ 18
/-- The first byte of the carve-out (R71). -/
def Region.carveBase (R : Region) : Nat := 2 ^ 18 - 256 * R.cfg.carve

/-- The checks of R208, each on every address before the next: the cause and the lowest-indexed address. -/
def Region.checkSram (R : Region) (align : Nat) (as : List Nat) : Option (Cause × Nat) :=
  match as.find? fun a => a ≥ 2 ^ 30 || saPage a ≥ R.pages with
  | some a => some (.addressRange, a)
  | none =>
    match as.find? fun a => saOff a % align ≠ 0 with
    | some a => some (.alignment, a)
    | none =>
      match as.find? fun a => saOff a ≥ R.carveBase with
      | some a => some (.permission, a)
      | none => none

/-- The number of values of an access: elements, or pairs of them (R214). -/
def accValues (f : Fmt) (ops : List Operand) : Nat := if f.pair then (maxLen ops + 1) / 2 else maxLen ops + 1

/-- The address of value i: element by element, or consecutive from E0 (R214). -/
def accAddr (f : Fmt) (ops : List Operand) (i : Nat) : Nat :=
  let a := opAt ops 0
  if a.len = 0 && decide (0 < maxLen ops) then (nth 0#32 a.tok.e 0).toNat + (if f.pair then 8 else 4) * i
  else (nth 0#32 a.tok.e (if f.pair then 2 * i else i)).toNat

/-- The data value i of a port: a LEN = 0 operand beside a longer access is broadcast whole (R214). -/
def accData (f : Fmt) (ops : List Operand) (port i : Nat) : Nat :=
  let o := opAt ops port
  let j := if o.len = 0 then 0 else i
  if f.pair then (nth 0#32 o.tok.e (2 * j)).toNat + 2 ^ 32 * (nth 0#32 o.tok.e (2 * j + 1)).toNat
  else (nth 0#32 o.tok.e j).toNat

/-- The operands of an access as the firing had them. -/
def Access.operands (a : Access) : List Operand :=
  a.ops.map fun o => { port := o.1.toNat, sticky := o.2.1, lit := false, tok := o.2.2 }

/-- An access with CHUNK's or a fence's shape has one value or none; any other has those of R214. -/
def Access.count (a : Access) : Nat :=
  if a.op = 0xAD then 1
  else if a.op = 0xAE || a.op = 0xAF then 0
  else accValues a.r.fmt a.operands

/-- The region-relative or base-relative addresses of an access, by value index. -/
def Access.addrs (a : Access) : List Nat :=
  if a.op = 0xAD then [accAddr .n32 a.operands 0]
  else (List.range a.count).map (accAddr a.r.fmt a.operands)

/-- Bytes of one value. -/
def Access.bytes (a : Access) : Nat := if a.op = 0xAD then 16 else if a.r.fmt.pair then 8 else 4

/-- The length rules of a memory record (R60, R63, R214): data operands of equal LEN or LEN 0, an address operand of the
access's LEN or LEN 0, LEN odd in a pair format; CHUNK's address and RED's ordinal have LEN 0. -/
def memLensOk (op : Nat) (r : Rec) (ops : List Operand) : Bool :=
  let l := maxLen ops
  if op = 0xAE || op = 0xAF then true
  else if op = 0xAD then decide ((opAt ops 0).len = 0)
  else
    (ops.all fun o => decide (o.len = 0) || decide (o.len = l))
      && (decide ((opAt ops 0).len = l) || ops.any fun o => o.port != 0 && decide (o.len = l))
      && (!r.fmt.pair || decide (l % 2 = 1))
      && (!(op == 0xAC && r.fmt == .f32) || decide ((opAt ops 2).len = 0))

/-! ### Words of a slice with undo entries and full/empty bits (R209, R233) -/

/-- The full/empty bit of a word. -/
def Mu.full (m : Mu) (w : Nat) : Bool := m.fe.contains w

/-- A word written: its old value and bit logged first, the word set full (R209, R233). -/
def Mu.write (m : Mu) (round : BitVec 12) (w : Nat) (v : W32) : Mu :=
  let m := m.log round (.word w (m.full w) (sramWord m.sram w))
  { m with sram := sramSetWord m.sram w v, fe := setAdd m.fe w, bad := setDel m.bad w }

/-- A full/empty bit set or cleared, the value unchanged and logged (R233, R241). -/
def Mu.setFe (m : Mu) (round : BitVec 12) (w : Nat) (full : Bool) : Mu :=
  let m := m.log round (.word w (m.full w) (sramWord m.sram w))
  { m with fe := if full then setAdd m.fe w else setDel m.fe w }

/-- A value of a slice at a byte offset. -/
def Mu.value (m : Mu) (pair : Bool) (off : Nat) : Nat :=
  (sramWord m.sram (off / 4)).toNat + (if pair then 2 ^ 32 * (sramWord m.sram (off / 4 + 1)).toNat else 0)

/-- A value written at a byte offset. -/
def Mu.writeValue (m : Mu) (round : BitVec 12) (pair : Bool) (off v : Nat) : Mu :=
  let m := m.write round (off / 4) (BitVec.ofNat 32 v)
  if pair then m.write round (off / 4 + 1) (BitVec.ofNat 32 (v / 2 ^ 32)) else m

/-- The words of a value. -/
def valueWords (pair : Bool) (off : Nat) : List Nat := if pair then [off / 4, off / 4 + 1] else [off / 4]

/-- The words that one value of an access occupies: CHUNK's four (R247). -/
def Access.wordsOf (a : Access) (off : Nat) : List Nat :=
  if a.op = 0xAD then [off / 4, off / 4 + 1, off / 4 + 2, off / 4 + 3] else valueWords a.r.fmt.pair off

/-- The access reads the words it addresses: a load, an atomic, a reduction or CHUNK (R206). -/
def readsMem (op : Nat) : Bool := op ∈ [0xA0, 0xA2, 0xA4, 0xA5, 0xAA, 0xAB, 0xAC, 0xAD]

/-- An uncorrectable error stands in a word that the access reads for a value at an offset (R206). -/
def Mu.readsBad (m : Mu) (a : Access) (off : Nat) : Bool := readsMem a.op && (a.wordsOf off).any m.bad.contains

/-- The access with ERR on what it sends (R65, R206). -/
def Access.withErr (a : Access) (bad : Bool) : Access := { a with hdr := { a.hdr with err := a.hdr.err || bad } }

/-! ### Accesses in the buffer -/

/-- The access of an id at a chain's MU. -/
def Region.acc? (R : Region) (page id : Nat) : Option Access := (R.mu? page).bind fun m => m.accs.find? fun a => a.id == id

/-- The region with an access changed. -/
def Region.modAcc (R : Region) (page id : Nat) (f : Access → Access) : Region :=
  R.modMu page fun m => { m with accs := modFirst (fun a => a.id == id) f m.accs }

/-- The key of an access (R232). -/
def Region.keyOf (R : Region) (a : Access) (idx : Nat) : Key where
  rid := R.keyRid
  chain := mrChain a.r
  round := a.hdr.round
  seq := a.hdr.seq
  tag := a.hdr.tag
  frame := a.hdr.frame
  own := mrOwn a.r
  idx := idx

/-- The completion token: n32, LEN 0, E0 (R237). -/
def completion (hdr : Token) (e0 : Nat) : Token :=
  { hdr with fmt := .n32, len := 0#3, e := clearAbove 0 [BitVec.ofNat 32 e0] }

/-- The value token of an access. -/
def valueToken (a : Access) (vals : List Nat) : Token :=
  if a.op = 0xAD then
    let v := nth 0 vals 0
    { a.hdr with fmt := .n32, len := 1#3, e := clearAbove 1 [BitVec.ofNat 32 v, BitVec.ofNat 32 (v / 2 ^ 32)] }
  else
    let n := maxLen a.operands
    let e := if a.r.fmt.pair then vals.flatMap fun v => [BitVec.ofNat 32 v, BitVec.ofNat 32 (v / 2 ^ 32)]
      else vals.map (BitVec.ofNat 32)
    { a.hdr with fmt := a.r.fmt, len := BitVec.ofNat 3 n, e := a.r.fmt.payload n e }

/-- The record returns values (Table 6-6). -/
def returnsValues (op : Nat) : Bool := op ∈ [0xA0, 0xA2, 0xA4, 0xA5, 0xA8, 0xAA, 0xAB, 0xAD]

/-- The tokens of a completed access (R237, Table 6-6); `lost` marks a wait that SYNCINV ended (R240). -/
def accessSends (a : Access) (vals : List Nat) (lost : Bool) : Sends :=
  let zero := vals.map fun _ => 0
  let vt := if lost then { valueToken a zero with exc := true } else valueToken a vals
  let status := completion a.hdr (b2n lost)
  if a.op = 0xA4 || a.op = 0xA5 then sendsOf a.r vt status
  else if a.op = 0xA7 then sendsOf a.r (completion a.hdr 0) status
  else if returnsValues a.op then sendsOf a.r vt vt
  else sendsOf a.r (completion a.hdr 0) (completion a.hdr 0)

/-- The operands of an access, in port order: LEN and payload of each (R368). -/
def Access.args (a : Access) : List W32 := a.ops.flatMap fun o => BitVec.ofNat 32 o.2.2.len.toNat :: clearAbove o.2.2.len.toNat o.2.2.e

/-- The deduplication entries of a performed access: one for each value it returns, otherwise one (R232). -/
def Region.dedupOf (R : Region) (a : Access) (vals : List Nat) : List Dedup :=
  if !sideEffect a.op then []
  else if returnsValues a.op then (List.range vals.length).map fun i =>
    { key := R.keyOf a i, line := 0, value := some (BitVec.ofNat 64 (nth 0 vals i)), args := a.args }
  else [{ key := R.keyOf a 0, line := 0, value := none, args := a.args }]

/-- An access performed: its tokens are sent if they have not been, its keys are kept, and it waits to retire (R215,
R222, R232). One that an uncorrectable error kept from its change of memory leaves no key, since a replay performs it (R364), and raises
an error tag where it has no destination (R206, R363). -/
def Region.finish (R : Region) (now page : Nat) (a : Access) (vals : List Nat) (lost : Bool) : Region :=
  let es := accessSends a vals lost
  let R0 := if !a.hdr.err || !writesMem a.op || !es.isEmpty then R else R.raiseErr ⟨page, 3⟩ { a.hdr with node := a.node }
  let R1 := if a.sent then R0 else R0.sendReserved now ⟨page, 3⟩ es
  let R2 := R1.modMu page fun m => { m with
    dedup := m.dedup ++ (if a.hdr.err then [] else (R.dedupOf a vals).filter fun d => !m.dedup.any fun x => x.key == d.key) }
  R2.modAcc page a.id fun x => { x with st := .performed, sent := true }

/-! ### Full/empty waits (R227, R240) -/

/-- Every word of the access is in the state it waits for. -/
def Mu.feReady (m : Mu) (a : Access) : Bool :=
  let ws := a.addrs.flatMap fun x => valueWords a.r.fmt.pair (saOff x)
  if a.op = 0xA7 then ws.all fun w => !m.full w else ws.all m.full

/-- LDS, LDE and STW on a slice whose words are ready: every word at once (R240). -/
def Mu.performFe (m : Mu) (a : Access) : Mu × List Nat :=
  let pair := a.r.fmt.pair
  let as := a.addrs.map saOff
  let vals := as.map (m.value pair)
  let round := a.hdr.round
  if a.op = 0xA5 then ((as.flatMap (valueWords pair)).foldl (fun m w => m.setFe round w false) m, vals)
  else if a.op = 0xA7 then
    ((List.range as.length).foldl (fun m i => m.writeValue round pair (nth 0 as i) (accData a.r.fmt a.operands 1 i)) m, vals)
  else (m, vals)

/-- Undo entries that an access appends on a slice for `n` values. -/
def undoNeed (a : Access) (n : Nat) : Nat :=
  if a.op = 0xAD then 1
  else if writesMem a.op then (if a.r.fmt.pair then 2 * n else n) else 0

/-- An earlier waiter of the page is ready on a word of the access and waits for room in the undo log alone: the word is that waiter's
(R249). -/
def Region.awaited (R : Region) (m : Mu) (earlier : List PortReq) (a : Access) : Bool :=
  let words (b : Access) : List Nat := b.addrs.flatMap fun x => valueWords b.r.fmt.pair (saOff x)
  earlier.any fun q => match R.acc? q.unit.page q.acc with
    | some b => b.op != 0xA4 && m.feReady b && (words b).any (words a).contains
    | none => false

/-- The first waiter that can be performed, after those of `before`, in arrival order (R227, R249). -/
def Region.nextWaiter (R : Region) (m : Mu) : List PortReq → List PortReq → Option PortReq
  | _, [] => none
  | before, q :: rest =>
    let can : Bool := match R.acc? q.unit.page q.acc with
      | some a => m.feReady a && m.undoRoom (undoNeed a a.count) && !R.awaited m before a
      | none => false
    if can then some q else Region.nextWaiter R m (before ++ [q]) rest

/-- One waiter of a page examined: performed if its words are ready (WAITER_WAKE). -/
def Region.wakeOne (R : Region) (now page : Nat) (q : PortReq) : Region :=
  match R.mu? page, R.acc? q.unit.page q.acc with
  | some m, some a =>
    if m.feReady a && m.undoRoom (undoNeed a a.count) then
      let (m', vals) := m.performFe a
      let R1 := R.modMu page fun _ => { m' with waiters := m'.waiters.filter (· != q) }
      R1.finish now q.unit.page (a.withErr (a.addrs.any fun x => m.readsBad a (saOff x))) vals false
    else R
  | _, _ => R

/-- Passes over the waiters in arrival order until none is ready (R227). -/
def Region.wakePasses (now page : Nat) : Nat → Region → Region
  | 0, R => R
  | n + 1, R =>
    match (R.mu? page).bind fun m => R.nextWaiter m [] m.waiters with
    | none => R
    | some q => Region.wakePasses now page n (R.wakeOne now page q)

/-- The waiters of a page examined after a word changed state (R227). -/
def Region.wake (R : Region) (now page : Nat) : Region :=
  Region.wakePasses now page (((R.mu? page).map fun m => m.waiters.length).getD 0) R

/-! ### Engine writes (R48, R233, R276) -/

/-- Words written into region SRAM by an engine: each logged, set full, waiters woken. None where an undo log has no
room (R51). The list pairs a region SRAM address with its word. -/
def Region.engineWrite (R : Region) (now : Nat) (round : BitVec 12) (ws : List (Nat × W32)) : Option Region :=
  let pages := (ws.map fun p => saPage p.1).eraseDups
  let fits := pages.all fun pg =>
    match R.mu? pg with
    | some m => m.undoRoom (ws.filter fun p => saPage p.1 == pg).length
    | none => true
  if !fits then none
  else
    let R1 := ws.foldl (fun R p => R.modMu (saPage p.1) fun m => m.write round (saOff p.1 / 4) p.2) R
    some (pages.foldl (fun R pg => R.wake now pg) R1)

/-- A word of region SRAM. -/
def Region.sramWordAt (R : Region) (a : Nat) : W32 :=
  match R.mu? (saPage a) with
  | some m => sramWord m.sram (saOff a / 4)
  | none => 0#32

/-- An uncorrectable error stands in the line of 64 bytes that holds an address of region SRAM. -/
def Region.lineBad (R : Region) (a : Nat) : Bool :=
  match R.mu? (saPage a) with
  | some m => m.bad.any fun w => w / 16 == saOff a / 64
  | none => false

/-! ### Floating reductions in ordinal order (R246) -/

/-- The held contribution that the MU handles next: one with the ordinal NEXT of its word's entry, or one whose word has no
entry yet and which can open one; each with room in the undo log (R246, R51). -/
def Mu.nextHeld (m : Mu) : Option Contribution :=
  m.held.find? fun c =>
    match mapGet m.ords c.word with
    | some next => c.armed && c.ord == next && m.undoRoom 2
    | none => c.armed && decide (m.ords.length < 32) && m.undoRoom 1

/-- A held contribution handled: its word's entry opened at NEXT = 0, or the word changed, then NEXT, and the last closes the entry
(R246). A word that an uncorrectable error has struck is left unchanged (R206). -/
def Mu.applyHeld (m : Mu) (c : Contribution) : Mu :=
  match mapGet m.ords c.word with
  | none => { m.log c.key.round (.ordinal c.word none) with ords := mapPut m.ords c.word 0 }
  | some next =>
    let v := redF32 c.opx (sramWord m.sram c.word).toNat c.value.toNat
    let m1 := if m.bad.contains c.word then m else m.write c.key.round c.word (BitVec.ofNat 32 v)
    let m2 := m1.log c.key.round (.ordinal c.word (some next))
    { m2 with
      held := delFirst (· == c) m2.held
      ords := if c.last then mapDel m2.ords c.word else mapPut m2.ords c.word (next + 1) }

/-- The held contributions handled while one can be (R246): the keys of those applied, each with whether an uncorrectable error
stood in its word. -/
def Mu.foldHeld : Nat → Mu → List (Key × Bool) → Mu × List (Key × Bool)
  | 0, m, ks => (m, ks)
  | fuel + 1, m, ks =>
    match m.nextHeld with
    | none => (m, ks)
    | some c => Mu.foldHeld fuel (m.applyHeld c)
        (if (mapGet m.ords c.word).isSome then ks ++ [(c.key, m.bad.contains c.word)] else ks)

/-- The held contributions of an MU handled as far as they go; each is handled at most twice, to open and to apply. -/
def Mu.fold (m : Mu) : Mu × List (Key × Bool) := Mu.foldHeld (2 * m.held.length) m []

/-- The contribution's ordinal is below its word's NEXT (R246): the freezing fault "ordinal". -/
def Mu.tooLate (m : Mu) (c : Contribution) : Bool := decide (c.ord < (mapGet m.ords c.word).getD 0)

/-- The held contributions of a packet can be applied: all its elements have come (R52). -/
def Mu.arm (m : Mu) (mine : Key → Bool) : Mu :=
  { m with held := m.held.map fun c => if mine c.key then { c with armed := true } else c }

/-! ### An access on one slice -/

/-- How an access on a slice ends for the values that lie there. -/
inductive SliceRes where
  | wait
  | fault (c : Cause) (detail : Nat)
  | ok (R : Region)

/-- CHUNK's step on the words NEXT, END, MIN, DIV (R247): the count, and NEXT before. -/
def chunkStep (next fin mn dv : Nat) : Nat × Nat :=
  let rem := if fin > next then fin - next else 0
  let m := max mn 1
  let d := max dv 1
  let c := if rem = 0 then 0 else min rem (max m (ceilDiv rem d))
  (c, next)

/-- One value of a non-waiting access performed on its slice: the slice after, and the value returned (R239, R241 to
R243, R247). A word that an uncorrectable error has struck is left unchanged by what reads it (R206). -/
def Mu.performValue (m : Mu) (a : Access) (i off : Nat) : Mu × Nat :=
  let pair := a.r.fmt.pair
  let round := a.hdr.round
  let data (p : Nat) := accData a.r.fmt a.operands p i
  if m.readsBad a off then (m, m.value pair off)
  else match a.op with
  | 0xA1 | 0xA3 | 0xA6 => (m.writeValue round pair off (data 1), 0)
  | 0xA8 => (m, b2n (m.full (off / 4)))
  | 0xA9 => (m.setFe round (off / 4) (bit (data 1) 0), 0)
  | 0xAA => (m.writeValue round pair off (atomNew (mrOpx a.r) a.r.fmt (m.value pair off) (data 1)), m.value pair off)
  | 0xAB => (if m.value pair off = data 1 then m.writeValue round pair off (data 2) else m, m.value pair off)
  | 0xAC => (m.writeValue round pair off (atomNew (mrOpx a.r) a.r.fmt (m.value pair off) (data 1)), 0)
  | 0xAD =>
    let w (k : Nat) := (sramWord m.sram (off / 4 + k)).toNat
    let (c, next) := chunkStep (w 0) (w 1) (w 2) (w 3)
    (if c > 0 then m.write round (off / 4) (BitVec.ofNat 32 (next + c)) else m, c + 2 ^ 32 * next)
  | 0xB0 => (m.setFe round (off / 4) false, 0)
  | _ => (m, m.value pair off)

/-- The values recorded for an access, in order, once each has one. -/
def Access.done? (a : Access) : Option (List Nat) :=
  let vs := (List.range a.count).map fun i => mapGet a.results i
  if vs.all (·.isSome) then some (vs.map fun v => (v.getD 0#64).toNat) else none

/-- The accesses that wait on words that SYNCINV emptied end their waits with a loss status (R240, R245). -/
def Region.loseWaiters (R : Region) (now page : Nat) (ws : List Nat) : Region :=
  let qs := ((R.mu? page).map (·.waiters)).getD []
  qs.foldl (fun R q =>
    match R.acc? q.unit.page q.acc with
    | some a =>
      if (a.addrs.flatMap fun x => valueWords a.r.fmt.pair (saOff x)).any ws.contains then
        let R1 := R.modMu page fun m => { m with waiters := m.waiters.filter (· != q) }
        R1.finish now q.unit.page a ((List.range a.count).map fun _ => 0) true
      else R
    | none => R) R

/-- The access of a contribution's key: its chain page and itself. -/
def Region.redOf (R : Region) (k : Key) : Option (Nat × Access) :=
  R.units.findSome? fun U =>
    match U.eng with
    | .mu m => (m.accs.find? fun a => a.op == 0xAC && { R.keyOf a k.idx with rid := k.rid } == k && a.st != .performed).map
        fun a => (U.id.page, a)
    | _ => none

/-- The access of a held contribution that its word's NEXT has passed while it was held (R246; log entry 106). -/
def Region.lateRed (R : Region) : Option (Nat × Access) :=
  R.units.findSome? fun U =>
    match U.eng with
    | .mu m => (m.held.find? m.tooLate).bind fun c => R.redOf c.key
    | _ => none

/-- The keys of applied contributions recorded at the accesses they belong to, which complete when all theirs are; an error in
a word that one met sets ERR (R206). -/
def Region.creditKeys (R : Region) (now : Nat) (ks : List (Key × Bool)) : Region :=
  ks.foldl (fun R p =>
    let k := p.1
    match (R.redOf k).map fun x => (x.1, x.2.id) with
    | none => R
    | some (page, id) =>
      let R1 := R.modAcc page id fun a => { a.withErr p.2 with results := mapPut a.results k.idx 0#64 }
      match R1.acc? page id with
      | some a =>
        match a.done? with
        | some vs => R1.finish now page a vs false
        | none => R1
      | none => R1) R

/-- The indices of an access whose words lie on a page. -/
def Access.onPage (a : Access) (page : Nat) : List Nat :=
  (List.range a.count).filter fun i => saPage (nth 0 a.addrs i) == page

/-- The contributions of a packet are applied as far as they go, once every element has come to its slice (R52, R246). -/
def Region.armAll (R : Region) (now cp : Nat) (a : Access) : Region :=
  let here (i : Nat) : Bool := (R.mu? (saPage (nth 0 a.addrs i))).any fun m => m.held.any fun c => c.key == R.keyOf a i
  let done (i : Nat) : Bool := ((R.acc? cp a.id).map fun x => (mapGet x.results i).isSome).getD false
  if !(List.range a.count).all (fun i => here i || done i) then R
  else (a.addrs.map saPage).eraseDups.foldl (fun R p =>
    match R.mu? p with
    | none => R
    | some m =>
      let (m', ks) := (m.arm fun k => k == R.keyOf a k.idx).fold
      ((R.modMu p fun _ => m').creditKeys now ks).wake now p) R

/-- What waited for room or for a change of a word goes on (R51, R227, R246): on every page the held contributions that can be
applied are, then the waiters whose words are ready are performed. -/
def Region.recheck (R : Region) (now : Nat) : Region :=
  (List.range R.pages).foldl (fun R page =>
    match R.mu? page with
    | none => R
    | some m =>
      let (m', ks) := m.fold
      (((R.modMu page fun _ => m').creditKeys now ks).wake now page)) R

/-- An access of chain page `cp` performed for its values on page `page`: region SRAM side of ACCESS_PERFORM and of
MU_REQUEST_PORT_SERVE. -/
def Region.performSlice (R : Region) (now cp : Nat) (a : Access) (page : Nat) : SliceRes :=
  match R.mu? page with
  | none => .wait
  | some m =>
    let is := a.onPage page
    if waitsFe a.op then
      if m.waiters.any (fun q => q.unit == ⟨cp, 3⟩ && q.acc == a.id) then .wait
      else if m.feReady a && !R.awaited m m.waiters a then
        if !m.undoRoom (undoNeed a a.count) then .wait
        else
          let (m', vals) := m.performFe a
          let R1 := (R.modMu page fun _ => m').finish now cp (a.withErr (a.addrs.any fun x => m.readsBad a (saOff x))) vals false
          .ok (R1.wake now page)
      else if m.waiters.length < 64 then
        .ok ((R.modMu page fun m => { m with waiters := m.waiters ++ [{ unit := ⟨cp, 3⟩, acc := a.id }] }).modAcc cp a.id
          fun x => { x with st := .waiting })
      else if m.refused.any (fun q => q.unit == ⟨cp, 3⟩ && q.acc == a.id) then .wait
      else .ok ((R.modMu page fun m => { m with refused := m.refused ++ [{ unit := ⟨cp, 3⟩, acc := a.id }] }).modAcc cp a.id
        fun x => { x with st := .refused })
    else if a.op = 0xAC && a.r.fmt = .f32 then
      let ordw := (nth 0#32 (opAt a.operands 2).tok.e 0).toNat
      let part (i : Nat) : Contribution :=
        { word := saOff (nth 0 a.addrs i) / 4, ord := ordw % 2 ^ 31, last := bit ordw 31,
          value := BitVec.ofNat 32 (accData .f32 a.operands 1 i), opx := mrOpx a.r, key := R.keyOf a i, armed := false }
      let new (i : Nat) : Bool := !(m.held.any fun c => c.key == R.keyOf a i)
        && !((R.acc? cp a.id).map fun x => (mapGet x.results i).isSome).getD true
      let parts := (is.filter new).map part
      let twice : Bool := !bit ordw 31 && decide ((parts.map (·.word)).eraseDups.length < parts.length)
      if parts.any m.tooLate || twice then .fault .ordinal 0
      else .ok ((R.modMu page fun m => { m with held := m.held ++ parts }).armAll now cp a)
    else if !m.undoRoom (undoNeed a is.length) then .wait
    else
      let step (acc : Mu × SMap W64) (i : Nat) : Mu × SMap W64 :=
        let (m', v) := acc.1.performValue a i (saOff (nth 0 a.addrs i))
        (m', mapPut acc.2 i (BitVec.ofNat 64 v))
      let (m', res) := is.foldl step (m, a.results)
      let R1 := (R.modMu page fun _ => m').modAcc cp a.id fun x =>
        { x.withErr (is.any fun i => m.readsBad a (saOff (nth 0 a.addrs i))) with results := res }
      let R2 := if a.op = 0xB0 then R1.loseWaiters now page (is.map fun i => saOff (nth 0 a.addrs i) / 4) else R1
      let R3 := match R2.acc? cp a.id with
        | some x =>
          match x.done? with
          | some vs => R2.finish now cp x vs false
          | none => R2
        | none => R2
      .ok (if writesMem a.op then R3.wake now page else R3)

end Sys2Proof.Machine
end

