-- ==== Sys2Proof/Machine/Take.lean ====
section
/-! DEFINITION. A take (R127 to R130): the head token of a queue, what happens to its record's slots, and how the result
comes about. -/

namespace Sys2Proof.Machine

/-- A take under way: the region with the head popped and its credit back at its origin (R129). -/
structure Take where
  now  : Nat
  u    : UnitId
  q    : Nat
  R    : Region
  U    : Site
  qt   : QTok
  deriving DecidableEq, Repr

/-- The token taken. -/
def Take.t (k : Take) : Token := k.qt.tok
/-- The first word of its record. -/
def Take.node (k : Take) : Nat := k.qt.tok.node.toNat

/-- The head of a queue. -/
def Region.head? (R : Region) (u : UnitId) (q : Nat) : Option QTok :=
  (R.unit? u).bind fun U => (nth [] U.queues q).head?

/-- An STR's count of the triggers that cancelled operations gave back, changed by `f` (R295). -/
def Engine.given (f : Nat → Nat) : Engine → Engine
  | .str x => .str { x with given := f x.given }
  | e => e

/-- The region with the head of a queue gone, no credit returned yet. -/
def Region.popOnly (R : Region) (u : UnitId) (q : Nat) : Region :=
  R.modUnit u fun U => { U with queues := modNth U.queues q (fun l => l.drop 1), eng := U.eng.given (· - 1) }

/-- The take of a queue's head: the slot is freed and its credit returns in the same cycle (R129). -/
def Region.takeAt (R : Region) (now : Nat) (u : UnitId) (q : Nat) : Option Take :=
  match R.head? u q with
  | none => none
  | some qt =>
    let R1 := (R.popOnly u q).returnCredit qt.org qt.route qt.sid
    (R1.unit? u).map fun U => { now, u, q, R := R1, U, qt }

/-- What a take comes to before it is committed: it stays, it faults, or it sends and leaves the region so. -/
inductive TRes where
  | wait
  | fault (c : Cause)
  | ok (es : Sends) (R : Region)
  deriving DecidableEq, Repr

/-- Seal copies written to the undo log of the page's MU, labelled with the round (R177); none when the log is full. -/
def Region.logSeals (R : Region) (u : UnitId) (round : BitVec 12) (seals : List (Nat × Slot)) : Option Region :=
  if seals.isEmpty then some R
  else match R.mu? u.page with
    | none => some R
    | some m =>
      if m.undoRoom (16 * seals.length) then
        some (R.modMu u.page fun m => seals.foldl (fun m p => m.log round (.seal u.pos p.1 p.2)) m)
      else none

/-- The region with a unit's slots replaced. -/
def Region.setSlots (R : Region) (u : UnitId) (slots : SMap Slot) : Region := R.modUnit u fun U => { U with slots := slots }

/-- A firing: a matching record fires when the token completes its operands (R174, R175), any other with its one token
(R176). `f` computes from the operands, in port order. -/
def Take.firing (k : Take) (op : Nat) (r : Rec) (f : List Operand → Region → TRes) : TRes :=
  if matching op r then
    match arrive k.R k.U op r k.t with
    | .collision => .fault .operandCollision
    | .fire ops slots seals =>
      match k.R.logSeals k.u k.t.round seals with
      | none => .wait
      | some R => f ops (R.setSlots k.u slots)
    | _ => .wait
  else f (soleOperands r k.t) k.R

/-- A take of a TFU record's port 0, which a pair-format token with LEN even is not fit for (R60). -/
def Take.whole (k : Take) (x : TRes) : TRes := if k.t.oddPair then .fault .packetLengthMismatch else x

/-- A firing that sends tokens and does nothing else. -/
def Take.sendFiring (k : Take) (op : Nat) (r : Rec) (f : List Operand → Except Cause Sends) : TRes :=
  k.firing op r fun ops R =>
    match f ops with
    | .ok es => .ok es R
    | .error c => .fault c

/-- The output of a TFU record: FMT, LEN and payload from port 0, the rest by R64 (R188). -/
def passToken (ops : List Operand) : Token :=
  let a := (opAt ops 0).tok
  { outToken ops a.fmt 0 false [] with len := a.len, e := a.fmt.payload a.len.toNat a.e }

end Sys2Proof.Machine
end

