-- ==== Sys2Proof/Machine/Virka.lean ====
section
/-! DEFINITION. Capability entries, link gateways and the take of a link or call record (R82, R414 to R430): ports and
paths, partitions, room in a link gateway's Siding, source words, and what a firing comes to. -/

namespace Sys2Proof.Machine

/-! ### Capability entries and gateways (R25, R82, R411, R420) -/

/-- Outstanding ALLOW credits of a capability entry (R411). -/
def Region.capOut (R : Region) (i : Nat) : Nat := ((R.capUses.find? fun c => c.idx == i).map (·.out)).getD 0

/-- The outstanding credits of an entry set. -/
def Region.setCapOut (R : Region) (i n : Nat) : Region :=
  if R.capUses.any fun c => c.idx == i then
    { R with capUses := R.capUses.map fun c => if c.idx = i then { c with out := n } else c }
  else { R with capUses := R.capUses ++ [{ idx := i, out := n, pending := none }] }

/-- Number of lines that an item takes in a link gateway's Siding: its words in lines of 64 bytes, and one at least (log
entry 8). -/
def Send.lines (x : Send) : Nat :=
  match x.pkt.body with
  | .message ws _ _ => max 1 (ceilDiv ws.length 16)
  | .post _ ws => max 1 (ceilDiv ws.length 16)
  | .contribution _ _ _ _ ws _ => max 1 (ceilDiv ws.length 16)
  | _ => 1

/-- The node that the fault record of an item names: the token's, or the record's. -/
def Send.node (x : Send) : BitVec 12 :=
  match x.pkt.body with
  | .token t => t.node
  | _ => BitVec.ofNat 12 (x.key.own - 3072)

/-- The link gateway that keeps an incoming item (R421): that of the die of its MARK or of its ingress entry's site; one that is bound to
no place yet is kept on the die of page 0 (log entry 105). -/
def Region.itemGate (R : Region) (i : Item) : Nat :=
  match i.dest, i.pkt.map (fun p : Packet => (p.body, p.eport)) with
  | some (u, _), _ => R.linkSiding u.page
  | none, some (.token _, e) => R.linkSiding (bits ((mapGet R.cfg.ingress e).getD 0#32).toNat 23 12)
  | none, _ => R.linkSiding 0

/-- The lines that an incoming item takes there, counted as an item's that is sent (log entry 8). -/
def Item.lines (i : Item) : Nat :=
  match i.pkt.map (fun p : Packet => p.body) with
  | some (.message ws _ _) => max 1 (ceilDiv ws.length 16)
  | _ => max 1 (ceilDiv i.words.length 16)

/-- Lines of a region's incoming items at a link gateway (R421). -/
def Region.itemLines (R : Region) (sd : Nat) : Nat := ((R.items.filter fun i => R.itemGate i == sd).map Item.lines).sum

/-- A region whose shares are reserved (R292). -/
def Region.holdsShare (R : Region) : Bool := !R.killing && (R.loading || !(R.st == .allocated || R.st == .evicted || R.st == .free))

/-- The lines of a Siding that no share reserves and no other region's incoming items take. -/
def State.spareLines (s : State) (rid sd : Nat) : Nat :=
  4096 - ((s.regions.filter Region.holdsShare).map fun Q => Q.share s.self sd).sum
    - ((s.regions.filter fun Q => Q.rid != rid).map fun Q => Q.itemLines sd).sum

/-- Lines of the region's own share that `extra` more lines of incoming items come to: those that the spare lines do not hold (R421; log
entry 105). -/
def Region.incoming (R : Region) (s : State) (sd extra : Nat) : Nat := R.itemLines sd + extra - s.spareLines R.rid sd

/-- Lines of a link gateway that an entry on its way to the pair comparator still takes (R51). -/
def Region.leavingLines (R : Region) (sd : Nat) (c : Comp) : Nat :=
  match c.item with
  | .line h => if h.siding = sd then 1 else 0
  | .send x => if x.gate = sd then x.lines else 0
  | .call x => if R.linkSiding x.unit.page = sd then 1 else 0

/-- Lines of what the region sends at a link gateway: items, unconfirmed calls, held writes, what waits for the comparator. -/
def Region.sentLines (R : Region) (sd : Nat) : Nat :=
  (R.leaving.map (R.leavingLines sd)).sum + ((R.sends.filter fun x => x.gate == sd && x.st != .acked).map Send.lines).sum
    + (R.calls.filter fun c => c.st == .unconfirmed && R.linkSiding c.unit.page == sd).length
    + (R.held.filter fun h => h.siding == sd).length

/-- Room for an incoming item (R421): in the spare lines of the Siding, or in the region's share. -/
def Region.inRoom (R : Region) (s : State) (i : Item) : Bool :=
  let sd := R.itemGate i
  let more := R.incoming s sd i.lines
  decide (more = 0) || decide (R.sentLines sd + more ≤ R.share s.self sd)

/-- Room for an item of `n` lines in the region's share at a link gateway (R292, R433), of which incoming items take `taken`. -/
def Region.linkRoomBeside (R : Region) (self page : Nat) (round : BitVec 12) (n taken : Nat) : SidingRoom :=
  let sd := R.linkSiding page
  let share := R.share self sd
  let mine := R.sends.filter fun x => x.gate == sd && x.st != .acked
  let packets := R.calls.filter fun c => c.st == .unconfirmed && R.linkSiding c.unit.page == sd
  let writes := R.held.filter fun h => h.siding == sd
  let ofRound := ((mine.filter fun x => x.round == round).map Send.lines).sum
    + (packets.filter fun c => c.tok.round == round).length + (writes.filter fun h => h.key.round == round).length
  if ofRound + n > share / 2 then .bound
  else if R.sentLines sd + taken + n > share then .wait
  else .room

/-- Room for an item of `n` lines that the region sends (R51, R292, R421). -/
def Region.linkRoom (R : Region) (s : State) (page : Nat) (round : BitVec 12) (n : Nat) : SidingRoom :=
  R.linkRoomBeside s.self page round n (R.incoming s (R.linkSiding page) 0)

/-- An ALLOW credit back at its capability entry (R22, R82): of a region of this device, or by Virka to that of another (R24), in a packet
of the region's partition. -/
def State.returnAllow (s : State) (part : BitVec 16) (page i : Nat) : State :=
  if page < 4096 then s.modRegion page fun S => S.setCapOut i (S.capOut i - 1)
  else
    let dev := page / 2048 - 2
    match firstPort s s.self dev (page % 2048) 0 with
    | none => s
    | some p => s.putOut p { srcDev := s.self, srcRid := 0, cap := i, dstDev := dev, dstRid := page % 2048, eport := 0, part := part,
                             id := s.links.nextId, body := .credit (page % 2048) i }

/-- A partition is configured on a port (R418, Table 13-3). -/
def partOn (s : State) (port : Nat) (part : BitVec 16) : Bool :=
  part != 0#16 && (List.range 16).any fun k => mapGet s.links.parts (port * 16 + k) == some (true, part)

/-- The sending gateway's partition check (R418): within this device there is no port to pass. -/
def sendPartOk (s : State) (dev rid eport : Nat) (part : BitVec 16) : Bool :=
  if dev = s.self then true
  else match firstPort s s.self dev rid eport with
    | some p => partOn s p part
    | none => false

/-- The region that a capability entry of this device names is held under that id (R82). -/
def capHeld (s : State) (c : Nat) : Bool := decide (capDev c ≠ s.self) || (s.region? (capRid c)).isSome

/-- The key that names a token's item: the round, header and gateway of the send (R232). -/
def tokenKey (R : Region) (i : Nat) (t : Token) : Key where
  rid := R.keyRid
  chain := 64
  round := t.round
  seq := t.seq
  tag := t.tag
  frame := t.frame
  own := i
  idx := (t.kind.ctorIdx * 2 ^ 12 + t.node.toNat) * 4 + t.port.toNat

/-- Round `r` of the region is confirmed. -/
def Region.isConfirmed (R : Region) (r : BitVec 12) : Bool := !newerThan R.conf r

/-- The item of a token at a sending link gateway's Siding (R420), under an id, by the capability entry `c` numbered `i`; it may leave at
once where its round is confirmed already, as an end-of-stream token's can be. -/
def Region.tokenItem (R : Region) (self id now page i c : Nat) (t : Token) : Send :=
  { pkt := { srcDev := self, srcRid := R.rid, cap := i, dstDev := capDev c, dstRid := capRid c, eport := capEport c, part := R.part,
             id := id, body := .token t }
    gate := R.linkSiding page, round := t.round, key := tokenKey R i t, st := if R.isConfirmed t.round then .ready else .held, since := now, cap := some i,
    report := none, site := ⟨page, 7⟩, raddr := 0, kept := false }

/-- A token's item in the sending link gateway's Siding (R420). -/
def tokenSend (s : State) (R : Region) (page i c : Nat) (t : Token) : Send := R.tokenItem s.self s.links.nextId s.cycle page i c t

/-! ### The take of a link or call record (R423 to R430) -/

/-- Minimum LEN of port 0 (Table 13-5). -/
def linkMin (op : Nat) : Nat :=
  match op with
  | 0xF0 => 2 | 0xF1 => 1 | 0xF2 => 3 | 0xF3 => 3 | _ => 0

/-- What a firing of a link or call record comes to: it waits, faults, parks on an absent page, or is accepted with the
credits it reserves, the tokens it sends at once and the region after. -/
inductive LRes where
  | wait
  | fault (c : Cause) (detail : Nat)
  | vaFault (c : Cause) (va : Nat)
  | park (va : Nat) (wr : Bool)
  | ok (reserve now : Sends) (R : Region)

/-- Source words read at the take, and whether an uncorrectable error stands in one of them. -/
inductive LRead where
  | wait
  | fault (c : Cause) (detail : Nat)
  | vaFault (c : Cause) (va : Nat)
  | park (va : Nat)
  | ok (ws : List W32) (bad : Bool)
  deriving DecidableEq, Repr

/-- Translations of a list of addresses. -/
inductive Walked where
  | fault (c : Cause) (va : Nat)
  | absent (va : Nat)
  | ok (ts : List Tlb)
  deriving DecidableEq, Repr

/-- Every address translated (R287), a page of those before serving those after. -/
def walkAll (s : State) (R : Region) (rd wr : Bool) : List Nat → List Tlb → Walked
  | [], ts => .ok ts
  | va :: vas, ts =>
    if (tlbFind ts va).isSome then walkAll s R rd wr vas ts
    else match walkVa s R.cfg.rt va rd wr with
      | .absent => .absent va
      | .fault c => .fault c va
      | .page t => if windowOk s (t.paOf va) wr then walkAll s R rd wr vas (ts ++ [t]) else .fault .physicalAddress va

/-- The addresses of `n` words of a link record: region SRAM addresses, or offsets from the chain's GB (R208, R212). -/
def linkAddrs (R : Region) (r : Rec) (a n : Nat) : List Nat :=
  (List.range n).map fun i => (if bit r.aux.toNat 9 then R.chainBase (mrChain r) else 0) + a + 4 * i

/-- The checks of R208 and R212 on the words of a link record. -/
def linkCheck (R : Region) (r : Rec) (as : List Nat) : Option (Cause × Nat) :=
  if bit r.aux.toNat 9 then
    match as.find? (· ≥ 2 ^ 57) with
    | some a => some (.addressRange, a)
    | none => (as.find? (· % 4 ≠ 0)).map fun a => (.alignment, a)
  else R.checkSram 4 as

/-- An uncorrectable error stands in a word of region SRAM (R206). -/
def Region.sramBadAt (R : Region) (a : Nat) : Bool :=
  match R.mu? (saPage a) with
  | some m => m.bad.contains (saOff a / 4)
  | none => false

/-- The source words of SEND, POST and NRED (R424), global ones as the region sees them (R50). -/
def linkRead (s : State) (R : Region) (r : Rec) (a n : Nat) : LRead :=
  let as := linkAddrs R r a n
  match linkCheck R r as with
  | some (c, x) => .fault c x
  | none =>
    if !bit r.aux.toNat 9 then .ok (as.map R.sramWordAt) (as.any R.sramBadAt)
    else match s.slotOf R.part with
      | none => .vaFault .permission (nth 0 as 0)
      | some slot => match walkAll s R true false as [] with
        | .fault c va => .vaFault c va
        | .absent va => .park va
        | .ok ts =>
          let pas := as.map fun va => ((tlbFind ts va).map fun t => t.paOf va).getD 0
          if R.heldUntranslated || pas.any (provBlocks s (some R.keyRid)) then .wait
          else .ok (pas.map (viewWord s R slot)) (pas.any (viewBad s R))

/-- The key of a link or call packet (R232): the record and its unit stand for OWN and the value index. -/
def linkKey (R : Region) (u : UnitId) (r : Rec) (hdr : Token) : Key where
  rid := R.keyRid
  chain := mrChain r
  round := hdr.round
  seq := hdr.seq
  tag := hdr.tag
  frame := hdr.frame
  own := 3072 + hdr.node.toNat
  idx := 4 * u.page + u.pos

/-- The region with an item of a record placed in the link gateway's Siding, or with the kept one met again (R364, R424). -/
def Region.addSend (R : Region) (x : Send) : Region :=
  if R.sends.any fun y => y.kept && y.key == x.key then
    { R with sends := R.sends.map fun y => if y.key = x.key then { y with kept := false } else y }
  else { R with sends := R.sends ++ [x] }

/-- The item of a SEND, POST or NRED of a record of unit `u`, under an id. -/
def Region.itemOf (R : Region) (self id now : Nat) (u : UnitId) (r : Rec) (hdr : Token) (cap : Option Nat) (body : Body)
    (report : BitVec 16) (raddr : Nat) : Send :=
  let c := match cap with | some i => R.cap i | none => 0
  { pkt := { srcDev := self, srcRid := R.rid, cap := cap.getD 0, dstDev := capDev c, dstRid := capRid c, eport := capEport c,
             part := R.part, id := id, body := body }
    gate := R.linkSiding u.page, round := hdr.round, key := linkKey R u r hdr, st := .held, since := now, cap := cap,
    report := if report = noDest then none else some (u, report, hdr), site := u, raddr := raddr, kept := false }

/-- The item of a SEND, POST or NRED that a take forms. -/
def recordSend (s : State) (R : Region) (k : Take) (r : Rec) (hdr : Token) (cap : Option Nat) (body : Body)
    (report : BitVec 16) (raddr : Nat) : Send := R.itemOf s.self s.links.nextId s.cycle k.u r hdr cap body report raddr

/-- An item accepted into the Siding if the region's share has room (R292, R433). -/
def acceptSend (s : State) (R : Region) (k : Take) (reserve now : Sends) (x : Send) : LRes :=
  if R.sends.any fun y => y.kept && y.key == x.key then .ok reserve now (R.addSend x)
  else match R.linkRoom s k.u.page x.round x.lines with
    | .bound => .fault .roundBound 0
    | .wait => .wait
    | .room => .ok reserve now (R.addSend x)

/-- The source words go into an item, or say why the firing stops. -/
def LRead.andThen (x : LRead) (f : List W32 → Bool → LRes) : LRes :=
  match x with
  | .wait => .wait
  | .fault c d => .fault c d
  | .vaFault c va => .vaFault c va
  | .park va => .park va false
  | .ok ws bad => f ws bad

/-- A region may contribute to a tree (R428): a valid capability entry with RED = 1 names it. -/
def Region.contributes (R : Region) (tree : Nat) : Bool :=
  R.cfg.caps.any fun e => bit e.2.toNat 63 && bit e.2.toNat 60 && capEport e.2.toNat == tree

/-- The conditions of R428 on a contribution. -/
def treeOk (s : State) (R : Region) (tree : Nat) : Bool :=
  match mapGet s.links.trees tree with
  | none => false
  | some t => t.v && t.loc && t.part == R.part && R.contributes tree
      && !s.regions.any fun Q => Q.rid != R.rid && Q.contributes tree && Q.part == t.part

/-- A firing of a link or call record (R423 to R430). Where a source word holds an uncorrectable error, the record's tokens carry ERR
(R52, Table 1-8). -/
def linkRes (s : State) (k : Take) (op : Nat) (r : Rec) : LRes :=
  let R := k.R
  let e (i : Nat) : Nat := (nth 0#32 k.t.e i).toNat
  let hdr := { outToken [{ port := 0, sticky := false, lit := false, tok := k.t }] .n32 0 false [] with node := k.t.node }
  let d0 (t : Token) : Sends := ([(r.d0, t)] : Sends).filter fun p => p.1 != noDest
  let all := sendsOf r hdr hdr
  let badBytes (n lo : Nat) : Bool := decide (n < lo) || decide (65536 < n) || n % 4 != 0
  if k.t.len.toNat < linkMin op || k.t.oddPair then .fault .packetLengthMismatch 0
  else if hdr.err then
    let es := if op = 0xF0 || op = 0xF2 then d0 (completion hdr (e 1)) else []
    .ok es es (if es.isEmpty then R.raiseErr k.u k.t else R)
  else match op with
    | 0xF1 =>
      let n := e 1
      if badBytes n 0 then .fault .alignment n
      else match linkCheck R r (linkAddrs R r (e 0) (n / 4)) with
        | some (c, x) => .fault c x
        | none =>
          let box := r.lit.toNat % 256
          let total := (s.regions.map fun R => R.buffers.length).sum
          if (R.buffers.filter fun b => b.box == box).length ≥ 16 || total ≥ 4096 then .wait
          else .ok all [] { R with buffers := R.buffers ++ [{
            box := box, global := bit r.aux.toNat 9, addr := nth (e 0) (linkAddrs R r (e 0) 1) 0, cap := n, unit := k.u,
            dest := r.d0, hdr := hdr, queue := k.q, trig := k.qt }] }
    | 0xF3 =>
      let tree := r.lit.toNat % 64
      let n := e 2
      if !treeOk s R tree then .fault .invalidCapability 0
      else if n = 0 || n > 16384 then .fault .alignment n
      else match R.checkSram 4 ((List.range n).map fun i => e 1 + 4 * i) with
        | some (c, x) => .fault c x
        | none => (linkRead s R r (e 0) n).andThen fun ws bad =>
          let body := Body.contribution tree (e 3) (BitVec.ofNat 2 r.aux.toNat) r.fmt ws false
          let R1 := if bad && r.d0 == noDest then R.raiseErr k.u k.t else R
          acceptSend s R1 k all [] (recordSend s R1 k r { hdr with err := bad } none body r.d0 (e 1))
    | 0xF4 =>
      let c : Call := { ticket := 0, strong := r.m, queue := r.aux.toNat % 4, tok := { k.t with act := .normal }, unit := k.u, dest := r.d0,
                        key := linkKey R k.u r hdr, raddr := 0, st := .unconfirmed, came := 0, kept := false, resp := none }
      if R.calls.any fun x => x.kept && x.key == c.key then
        .ok all [] { R with calls := R.calls.map fun x => if x.key = c.key then { x with kept := false } else x }
      else match R.linkRoom s k.u.page hdr.round 1 with
        | .bound => .fault .roundBound 0
        | .wait => .wait
        | .room => .ok all [] { R with calls := R.calls ++ [c] }
    | _ =>
      let i := r.lit.toNat % 256
      let n := e 1
      if badBytes n 4 then .fault .alignment n
      else if !bit (R.cap i) 63 || !bit (R.cap i) 61 || !capHeld s (R.cap i) then .fault .invalidCapability 0
      else (linkRead s R r (e 0) (n / 4)).andThen fun ws bad =>
        let body := if op = 0xF0 then Body.message ws n (nth 0#32 k.t.e 2) else Body.post (e 2 + 2 ^ 32 * e 3) ws
        let h := { hdr with err := bad }
        let R1 := if bad && all.isEmpty then R.raiseErr k.u k.t else R
        acceptSend s R1 k all (d0 (completion h n)) (recordSend s R1 k r h (some i) body r.d1 0)

/-- The parking report of a link record's head is already queued (R290). -/
def Region.headParked (R : Region) (u : UnitId) (q va : Nat) : Bool :=
  R.parked.any fun p => p.unit == u && p.acc == q && p.va / 2 ^ 16 == va / 2 ^ 16

/-- A link or call firing can be taken now, or is to fault or to park (R128). -/
def linkReady (s : State) (k : Take) (op : Nat) (r : Rec) : Bool :=
  match linkRes s k op r with
  | .wait => false
  | .park va _ => !k.R.headParked k.u k.q va
  | .fault _ _ => true
  | .vaFault _ _ => true
  | .ok reserve _ _ => k.U.canSend reserve

end Sys2Proof.Machine
end

