-- ==== Sys2Proof/Machine/Tfu.lean ====
section
/-! DEFINITION. What the TFU records do (chapter 5, section 5), one function for each record: the tokens sent and the
region left, a wait, or a fault. `Steer.lean` holds the meanings built on them. -/

namespace Sys2Proof.Machine

/-! ### Steering (R189 to R191) -/

/-- STEER (R189). The cancel has the header of the data, or where a sticky item supplies that, the one of R175. -/
def steerRes (k : Take) (r : Rec) : TRes :=
  k.sendFiring 0x70 r fun ops =>
    let a := (opAt ops 0).tok
    let q := bit (nth 0#32 (opAt ops 1).tok.e 0).toNat 0
    let out := passToken ops
    let cut := cancelOf (if (opAt ops 0).sticky then out else a)
    let chosen := if q then r.d0 else r.d1
    let other := if q then r.d1 else r.d0
    let es : Sends := if r.m then [(chosen, out)] else if q then [(chosen, out), (other, cut)] else [(other, cut), (chosen, out)]
    if a.oddPair then .error .packetLengthMismatch else .ok (es.filter fun p => p.1 != noDest)

/-- The data token of a record with one port, as it is passed on: ACT 00 (R176). -/
def Take.plain (k : Take) : Token := { k.t with act := .normal, e := k.t.fmt.payload k.t.len.toNat k.t.e }

/-- MERGE (R190): every data token of either port, ACT 00. -/
def mergeRes (k : Take) (r : Rec) : TRes := k.whole (.ok (sendsOf r k.plain k.plain) k.R)

/-- GATE (R191). -/
def gateRes (k : Take) (r : Rec) : TRes :=
  k.sendFiring 0x72 r fun ops =>
    let o := passToken ops
    if (opAt ops 0).tok.oddPair then .error .packetLengthMismatch else .ok (sendsOf r o o)

/-! ### Contexts (R183, R192, R193) -/

/-- The width in AUX[5:0]. -/
def recWidth (r : Rec) : Nat := r.aux.toNat % 64

/-- A token with another tag, sent on. -/
def retag (t : Token) (tag : W64) : Token := { t with tag := tag }

/-- EXP or GOT of a round raised by one in a counter slot: a wait where four other rounds are tracked, a fault past
2^20 - 1 (R183). -/
def bumpCounter (R : Region) (u : UnitId) (i : Nat) (round : BitVec 12) (isExp : Bool) : Option (Except Cause Region) :=
  match R.unit? u with
  | none => none
  | some U =>
    let es := counterOf U.slots i
    match entryFor es round with
    | none => none
    | some e =>
      let v := if isExp then e.exp else e.got
      if v + 1 > 2 ^ 20 - 1 then some (.error .roundCount)
      else
        let e' := if isExp then { e with exp := e.exp + 1 } else { e with got := e.got + 1 }
        some (.ok (R.setSlots u (putCounter U.slots i round (putEntry es e'))))

/-- ENTER (R192): the push; a counted entry counts the context and sends data on D0 only. -/
def enterRes (k : Take) (r : Rec) : TRes := k.whole <|
  match pushField k.R.cfg.tw k.t.tag (recWidth r) 0 with
  | .error c => .fault c
  | .ok tag =>
    let es : Sends := [(r.d0, retag k.plain tag)].filter fun p => p.1 != noDest
    if countedEntry 0x73 r then
      match bumpCounter k.R k.u (soff 0x73 r) k.t.round true with
      | none => .wait
      | some (.error c) => .fault c
      | some (.ok R) => .ok es R
    else .ok es k.R

/-- The tag of NEXT (R192). -/
def nextTag (tw : List Nat) (t : W64) (w : Nat) : Except Cause W64 :=
  let d := depth tw t
  if d = 0 || twAt tw (d - 1) != w then .error .tagLayout
  else if inner tw t = 2 ^ w - 1 then .error .tagOverflow
  else .ok (setInner tw t (inner tw t + 1))

/-- NEXT (R192). -/
def nextRes (k : Take) (r : Rec) : TRes := k.whole <|
  match nextTag k.R.cfg.tw k.t.tag (recWidth r) with
  | .error c => .fault c
  | .ok tag => let o := retag k.plain tag; .ok (sendsOf r o o) k.R

/-- A counted exit forwards what is complete once a context has left (R183). -/
def Region.afterExit (R : Region) (k : Take) (op : Nat) (r : Rec) (es : Sends) : TRes :=
  let (fs, R') := R.forwards k.u k.node op r es
  .ok (es ++ fs) R'

/-- A context of LEAVE leaves with the tokens `es` (R183, R192). -/
def leaveWith (k : Take) (r : Rec) (es : Sends) : TRes :=
  if k.R.countedExit k.u k.node 0x75 then
    match bumpCounter k.R k.u (soff 0x75 r) k.t.round false with
    | none => .wait
    | some (.error c) => .fault c
    | some (.ok R) => R.afterExit k 0x75 r es
  else .ok es k.R

/-- LEAVE (R192); a data token on port 1 is "packet length mismatch". -/
def leaveRes (k : Take) (r : Rec) : TRes := k.whole <|
  if k.t.port ≠ 0#2 then .fault .packetLengthMismatch
  else match popField k.R.cfg.tw k.t.tag (recWidth r) with
    | .error c => .fault c
    | .ok (tag, _) => let o := retag k.plain tag; leaveWith k r (sendsOf r o o)

/-- CALLF (R193). -/
def callfRes (k : Take) (r : Rec) : TRes := k.whole <|
  match pushField k.R.cfg.tw k.t.tag (recWidth r) (r.lit.toNat * 2 ^ 10 + k.t.frame.toNat) with
  | .error c => .fault c
  | .ok tag => let o := retag k.plain tag; .ok (sendsOf r o o) k.R

/-- RETF (R193): the caller's tag and frame on both tokens, the call site on D1. -/
def retfRes (k : Take) (r : Rec) : TRes := k.whole <|
  match popField k.R.cfg.tw k.t.tag (recWidth r) with
  | .error c => .fault c
  | .ok (tag, v) =>
    let o := { retag k.plain tag with frame := BitVec.ofNat 10 v }
    let site := { o with fmt := .n32, len := 0#3, e := clearAbove 0 [BitVec.ofNat 32 (v >>> 10)] }
    .ok (sendsOf r o site) k.R

/-! ### Frames and actions (R178 to R180, R194) -/

/-- The class of a frame: `none` is the common pool, `some d` the reserve of depth d (R178); outside both, no class. -/
def frameClass (common : Nat) : List Nat → Nat → Nat → Option (Option Nat)
  | rs, f, d =>
    if f < common then some none
    else
      let rec go (base d : Nat) : List Nat → Option (Option Nat)
        | [] => none
        | a :: t => if f < base + a then some (some d) else go (base + a) (d + 1) t
      go common d rs

/-- The first frame of a depth's reserve. -/
def reserveBase (c : Config) (d : Nat) : Nat := c.common + (c.reserve.take d).sum

/-- The lowest free frame a request of a depth may take: the common pool first, then its reserve (R179). -/
def freeFrame (c : Config) (alloc : List Nat) (d : Nat) : Option Nat :=
  match (List.range c.common).find? fun f => !alloc.contains f with
  | some f => some f
  | none => ((List.range (nth 0 c.reserve d)).map (· + reserveBase c d)).find? fun f => !alloc.contains f

/-- The frame pool of the region: its page index 0 (R178). -/
def Region.pool (R : Region) : Pool :=
  match R.mu? 0 with
  | some m => m.pool
  | none => { alloc := [], waiting := [], granted := [] }

/-- The region with its pool changed. -/
def Region.modPool (R : Region) (f : Pool → Pool) : Region := R.modMu 0 fun m => { m with pool := f m.pool }

/-- The region with a frame-pool entry in the pool MU's undo log (R180). -/
def Region.logFrame (R : Region) (round : BitVec 12) (f : Nat) (was : Bool) : Region :=
  R.modMu 0 fun m => m.log round (.frame f was)

/-- Room for an entry in the pool MU's undo log. -/
def Region.poolRoom (R : Region) : Bool := ((R.mu? 0).map fun m => m.undoRoom 1).getD false

/-- FALLOC (R179, R194): the frame granted on its way to this queue, or the lowest one the depth may take when no older
request may take it. A request that finds none waits at the pool MU. -/
def fallocRes (k : Take) (r : Rec) : TRes := k.whole <|
  let d := depth k.R.cfg.tw k.t.tag
  let p := k.R.pool
  let send (R : Region) (f : Nat) : TRes :=
    let o := { k.plain with frame := BitVec.ofNat 10 f }
    .ok (sendsOf r o o) (R.logFrame k.t.round f false)
  if !k.R.poolRoom then .wait
  else match p.granted.find? fun g => g.1 == k.u && g.2.1 == k.q with
    | some g => send (k.R.modPool fun p => { p with granted := delFirst (· == g) p.granted }) g.2.2
    | none =>
      if p.waiting.any fun w => w.1 == k.u && w.2.1 == k.q then .wait
      else match freeFrame k.R.cfg p.alloc d with
        | some f =>
          if p.waiting.any fun w => freeFrame k.R.cfg p.alloc w.2.2 == some f then .wait
          else send (k.R.modPool fun p => { p with alloc := setAdd p.alloc f }) f
        | none => .wait

/-- A FALLOC that finds no frame registers its request at the pool MU, once (R179). -/
def Region.requestFrame (R : Region) (u : UnitId) (q : Nat) (t : Token) : Region :=
  if R.pool.waiting.any (fun w => w.1 == u && w.2.1 == q) || R.pool.granted.any (fun g => g.1 == u && g.2.1 == q) then R
  else R.modPool fun p => { p with waiting := p.waiting ++ [(u, q, depth R.cfg.tw t.tag)] }

/-- FFREE (R180, R194). -/
def ffreeRes (k : Take) (r : Rec) : TRes := k.whole <|
  let f := k.t.frame.toNat
  if !k.R.pool.alloc.contains f || (frameClass k.R.cfg.common k.R.cfg.reserve f 0).isNone then .fault .frameState
  else if !k.R.poolRoom then .wait
  else
    let R := (k.R.modPool fun p => { p with alloc := setDel p.alloc f }).logFrame k.t.round f true
    .ok (sendsOf r k.plain k.plain) R

/-- STICK (R194). -/
def stickRes (k : Take) (r : Rec) : TRes := k.whole <| let o := { k.plain with act := .sticky }; .ok (sendsOf r o o) k.R

/-- PURGE (R194). -/
def purgeRes (k : Take) (r : Rec) : TRes := k.whole <|
  let o := { k.t with act := .purge, len := 0#3, e := List.replicate 8 0#32 }
  .ok (sendsOf r o o) k.R

/-- CANCEL (R194). -/
def cancelRes (k : Take) (r : Rec) : TRes := k.whole <| let o := cancelOf k.t; .ok (sendsOf r o o) k.R

/-! ### Rounds and streams (R195 to R198) -/

/-- The position of a SOURCE or MARK; before the first emission it stands at round 0, SEQ 0 (R185). -/
def positionOf (slots : SMap Slot) (i : Nat) : Position :=
  match mapGet slots i with
  | some (.position p) => p
  | _ => { round := 0#12, seq := 0, done := 0#16, eosSent := false, k := 0#4, wrote := 0#12 }

/-- Tokens per round of a SOURCE or MARK: LIT[15:0]. -/
def perRound (r : Rec) : Nat := r.lit.toNat % 2 ^ 16
/-- Rounds of a SOURCE: LIT[31:16], 0 unbounded. -/
def roundsOf (r : Rec) : Nat := bits r.lit.toNat 31 16

/-- The DUTY that a region's sources take: the larger of the dies that hold its pages (R469). -/
def State.dutyOf (s : State) (R : Region) : Nat :=
  let d (die : Nat) : Nat :=
    if (List.range R.pages).any fun p => R.dieOf p == die then (if die = 0 then s.yard.duty0 else s.yard.duty1).toNat else 0
  max (d 0) (d 1)

/-- What a SOURCE emits next and its position after (R195, R469): a bubble, data, a marker, end-of-stream, or nothing
once it has stopped. -/
def sourceEmit (duty : Nat) (r : Rec) (p : Position) : Option (Token × Position) :=
  let rounds := roundsOf r
  if p.eosSent then none
  else
    let p' := { p with k := p.k + 1#4, wrote := p.round }
    if (p.k.toNat * duty) % 16 < duty then some ({ emptyToken with kind := .bubble, fmt := .n32, round := p.round }, p')
    else if rounds ≠ 0 && p.done.toNat ≥ rounds then some (eosToken (p.round - 1#12), { p' with eosSent := true })
    else if p.seq ≥ perRound r then
      some (markerToken p.round 0, { p' with round := p.round + 1#12, seq := 0, done := p.done + 1#16 })
    else
      let v := BitVec.ofNat 32 (p.done.toNat * perRound r + p.seq)
      some ({ emptyToken with round := p.round, seq := BitVec.ofNat 15 p.seq, fmt := .n32, e := clearAbove 0 [v] },
        { p' with seq := p.seq + 1 })

/-- The SOURCE record that a cell holds (R182: at most one). -/
def Site.source? (U : Site) : Option (Nat × Rec) :=
  (U.recWords.map fun w => (w, U.recAt w)).findSome? fun p => if p.2.1 = 0x80 then some (p.1, p.2.2) else none

/-- The words that an item places when the MARK takes its token (R424). -/
def Region.itemFor (R : Region) (k : Take) : Option Item :=
  R.items.find? fun i => i.onWay && i.stamped.isNone && i.tok.tag == k.t.tag && i.tok.seq == k.t.seq && i.tok.e == k.t.e
    && i.tok.round == k.t.round
    && i.dest.any fun p => dNode p.2 == k.t.node && R.edges.any fun e => e.src == p.1 && e.into k.u k.node

/-- The words of an item of a global buffer accepted into the region's link gateway Siding, as writes of the round that
the MARK stamps (R424, R425), a word of a restored item's to be translated (R294); entries kept by a round replay are met again
(R364). -/
def Region.holdItem (R : Region) (k : Take) (round : BitVec 12) (it : Item) : Region :=
  let key : Key := { rid := R.keyRid, chain := 0, round := round, seq := it.tok.seq, tag := it.tok.tag, frame := it.tok.frame,
                     own := 2048, idx := it.id }
  if R.held.any fun h => h.kept && h.has key then
    { R with held := R.held.map fun h => if h.has key then { h with kept := false } else h }
  else (List.range it.words.length).foldl (fun R j =>
    let va := it.addr + 4 * j
    R.holdWord (R.linkSiding k.u.page) va ((tlbFind it.pins va).map fun t => t.paOf va) false key (nth 0#32 it.words j)) R

/-- MARK's data token (R196, R360, R424): stamped with the current round and the next SEQ, a replay item kept, an item's
words written as engine writes of that round; after the last of a round, the marker. -/
def markRes (k : Take) (r : Rec) : TRes := k.whole <|
  let i := soff 0x7D r
  let p := positionOf k.U.slots i
  let stamped := { k.plain with round := p.round, seq := BitVec.ofNat 15 p.seq }
  let last : Bool := p.seq + 1 ≥ perRound r
  let p1 := { p with wrote := p.round }
  let p' := if last then { p1 with round := p.round + 1#12, seq := 0, done := p.done + 1#16 } else { p1 with seq := p.seq + 1 }
  let es := sendsOf r stamped stamped ++ (if last then sendsOf r (markerToken p.round 0) (markerToken p.round 0) else [])
  match k.R.mu? k.u.page with
  | none => .wait
  | some m =>
    if !m.undoRoom 16 then .wait
    else
      let R1 := (k.R.modMu k.u.page fun m => m.log p.round (.replay k.t.node k.u.pos k.t)).setSlots k.u
        (mapPut k.U.slots i (.position p'))
      match k.R.itemFor k with
      | none => .ok es R1
      | some it =>
        let R2 := { R1 with items := modFirst (fun x => x.id == it.id) (fun x => { x with stamped := some p.round }) R1.items }
        if it.global then
          let R3 := R2.holdItem k p.round it
          let sd := R2.linkSiding k.u.page
          match R2.linkRoomBeside R2.dev k.u.page p.round (R3.heldIn sd - R2.heldIn sd) 0 with
          | .bound => .fault .roundBound
          | .wait => .wait
          | .room => .ok es R3
        else match R2.engineWrite k.now p.round ((List.range it.words.length).map fun j => (it.addr + 4 * j, nth 0#32 it.words j)) with
          | none => .wait
          | some R3 => .ok es R3

/-- MARK's end-of-stream (R196): an open round that holds a token closes first. -/
def markEosRes (k : Take) (r : Rec) : TRes :=
  let i := soff 0x7D r
  let p := positionOf k.U.slots i
  if p.seq > 0 then
    let p' := { p with round := p.round + 1#12, seq := 0, done := p.done + 1#16, eosSent := true, wrote := p.round }
    .ok (sendsOf r (markerToken p.round 0) (markerToken p.round 0) ++ sendsOf r (eosToken p.round) (eosToken p.round))
      (k.R.setSlots k.u (mapPut k.U.slots i (.position p')))
  else
    let n := if p.done = 0#16 then p.round else p.round - 1#12
    .ok (sendsOf r (eosToken n) (eosToken n)) (k.R.setSlots k.u (mapPut k.U.slots i (.position { p with eosSent := true, wrote := n })))

/-- HOLD (R197): the value replaces the held one, which a newer round first logs (R177); nothing is sent. -/
def holdRes (k : Take) (r : Rec) : TRes := k.whole <|
  let i := soff 0x7E r
  let seals := match mapGet k.U.slots i with | some x => sealCopy k.t.round i x | none => []
  match k.R.logSeals k.u k.t.round seals with
  | none => .wait
  | some R => .ok [] (R.setSlots k.u (mapPut k.U.slots i (.hold k.plain)))

/-- EOS (R198). -/
def eosRes (k : Take) (r : Rec) : TRes := k.whole <|
  let o := { eosToken k.t.round with tag := k.t.tag, frame := k.t.frame }
  .ok (sendsOf r o o) k.R

/-- SINK (R198): ERR is discarded and raises an error tag (R363), EXC alone is logged with its round (R121, R122). -/
def sinkRes (k : Take) (_r : Rec) : TRes := k.whole <|
  if k.t.err then .ok [] (k.R.raiseErr k.u k.t)
  else if k.t.exc then
    let e : XEntry := { tag := k.t.tag, node := k.t.node, round := k.t.round, page := k.u.page, pos := k.u.pos, seq := k.t.seq }
    .ok [] { k.R with heldLog := k.R.heldLog ++ [e] }
  else .ok [] k.R

/-! ### Constants and tags (R199, R200) -/

/-- CONST (R199); an uncorrectable error in a word of the packet sets ERR (R52, Table 1-8). -/
def constRes (k : Take) (r : Rec) : TRes := k.whole <|
  let len := bits r.lit.toNat 14 12
  let w := r.lit.toNat % 2 ^ 12
  let bad : Bool := (List.range (len + 1)).any fun j => k.U.bad.contains (w + j)
  let o := { k.t with act := .normal, fmt := r.fmt, len := BitVec.ofNat 3 len, exc := false, err := k.t.err || bad,
                      e := r.fmt.payload len ((List.range 8).map fun j => k.U.word (w + j)) }
  .ok (sendsOf r o o) k.R

/-- TAGGET with M = 0 (R200). -/
def taggetRes (k : Take) (r : Rec) : TRes := k.whole <|
  let o := { k.t with act := .normal, fmt := .n32, len := 0#3, e := clearAbove 0 [BitVec.ofNat 32 (inner k.R.cfg.tw k.t.tag)] }
  .ok (sendsOf r o o) k.R

/-- TAGGET with M = 1, `.tag` (R200). -/
def taggetTagRes (k : Take) (r : Rec) : TRes := k.whole <|
  let o := { k.t with act := .normal, fmt := .n64, len := 1#3,
                      e := clearAbove 1 [k.t.tag.truncate 32, (k.t.tag >>> 32).truncate 32] }
  .ok (sendsOf r o o) k.R

/-- Some depth's widths sum to a TOP (R200). -/
def topReached (tw : List Nat) (top : Nat) : Bool := (List.range 59).any fun d => (tw.take d).sum == top

/-- The new tag of TAGSET (R200). -/
def tagsetTag (tw : List Nat) (r : Rec) (t : W64) (b : Operand) : Except Cause W64 :=
  if r.m then
    if b.lit || b.len ≠ 1 then .error .packetLengthMismatch
    else
      let n := (nth 0#32 b.tok.e 0).toNat + 2 ^ 32 * (nth 0#32 b.tok.e 1).toNat
      let top := n >>> 58
      if top > 58 || n % 2 ^ 58 ≥ 2 ^ top || !topReached tw top then .error .tagLayout
      else .ok (BitVec.ofNat 64 n)
  else if !b.lit && b.len ≠ 0 then .error .packetLengthMismatch
  else
    let d := depth tw t
    let v := (nth 0#32 b.tok.e 0).toNat
    if d = 0 then .error .tagLayout
    else if v ≥ 2 ^ twAt tw (d - 1) then .error .tagOverflow
    else .ok (setInner tw t v)

/-- TAGSET (R200). -/
def tagsetRes (k : Take) (r : Rec) : TRes :=
  k.sendFiring 0x84 r fun ops =>
    let a := (opAt ops 0).tok
    match (if a.oddPair then .error .packetLengthMismatch else tagsetTag k.R.cfg.tw r a.tag (opAt ops 1)) with
    | .error c => .error c
    | .ok tag => let o := retag (passToken ops) tag; .ok (sendsOf r o o)

/-! ### Tag-ordered reduction (R201) -/

/-- The sum of an accumulator with one value added, element by element in rec.FMT, and whether an addition set EXC. -/
def accumAdd (r : Rec) (len : Nat) (x y : List W32) : List W32 × Bool :=
  let f := r.fmt
  let sub := recSub r
  let n := f.nv len
  let vs := (List.range n).map fun i => addFmt f (modeOf sub) r.m (bit sub 3) (f.get x i) (f.get y i)
  (f.pack (vs.map (·.1)), vs.any (·.2))

/-- consume(v) of R201; none is "packet length mismatch" (R60 too). The first value is the sum as R100 to R102 leave it. -/
def Accum.consume (a : Accum) (r : Rec) (t : Token) : Option Accum :=
  if t.act = .cancel then some { a with next := a.next + 1 }
  else if t.oddPair || (r.fmt.pair && decide (t.len.toNat % 2 = 0)) then none
  else match a.sum with
    | none =>
      let vs := (List.range (r.fmt.nv t.len.toNat)).map fun i => r.fmt.read (bit (recSub r) 3) (r.fmt.get t.e i)
      some { a with sum := some (t.len, r.fmt.pack vs), next := a.next + 1, exc := a.exc || t.exc, err := a.err || t.err }
    | some (len, x) =>
      if len ≠ t.len then none
      else
        let (y, e) := accumAdd r len.toNat x t.e
        some { a with sum := some (len, y), next := a.next + 1, exc := a.exc || t.exc || e, err := a.err || t.err }

/-- The value or the cancel that waits in a bank of OREDUCE: a cancel as the mark of port 0 (Table 5-1). -/
def Slot.parked : Slot → Option Token
  | .operand _ t => some t
  | .mark t _ => some t
  | _ => none

/-- The banks consumed in order while the bank of NEXT holds iteration NEXT (R201); `base` is the slot of bank 0. -/
def drainBanks (tw : List Nat) (r : Rec) (base banks : Nat) : Nat → SMap Slot → Accum → Option (SMap Slot × Accum)
  | 0, slots, a => some (slots, a)
  | fuel + 1, slots, a =>
    let i := base + a.next % banks
    match (mapGet slots i).bind Slot.parked with
    | some t =>
      if inner tw t.tag = a.next then
        match a.consume r t with
        | none => none
        | some a' => drainBanks tw r base banks fuel (mapDel slots i) a'
      else some (slots, a)
    | _ => some (slots, a)

/-- OREDUCE (R201), for data tokens and cancels of ports 0 and 1; a sticky token counts as a normal one (log entry 23). The end token's SEQ reaches the result through the
accumulator's sum only when it is the last to come, so it waits in the accumulator: `k` with its SEQ and flags. -/
def oreduceRes (k : Take) (r : Rec) : TRes :=
  let tw := k.R.cfg.tw
  let off := r.aux.toNat % 256
  let banks := bits r.aux.toNat 14 12 + 1
  let base := k.t.frame.toNat * k.U.stride + off
  let ai := base - 1
  if k.t.port = 2#2 then .fault .packetLengthMismatch
  else match popField tw k.t.tag (r.lit.toNat % 64) with
    | .error c => .fault c
    | .ok (outer, i) =>
      let opened : Except Cause Accum :=
        match mapGet k.U.slots ai with
        | some (.accum a) => if a.tag = outer then .ok a else .error .operandCollision
        | some _ => .error .operandCollision
        | none => .ok { tag := outer, round := k.t.round, next := 0, k := none, fmt := r.fmt, sum := none, exc := false, err := false, seq := 0#15 }
      match opened with
      | .error c => .fault c
      | .ok a =>
        let exit (R : Region) (es : Sends) : TRes :=
          if R.countedExit k.u k.node 0x85 then
            match bumpCounter R k.u (soff 0x85 r) a.round false with
            | none => .wait
            | some (.error c) => .fault c
            | some (.ok R') => R'.afterExit k 0x85 r es
          else .ok es R
        let conclude (slots : SMap Slot) (a : Accum) : TRes :=
          match drainBanks tw r base banks banks slots a with
          | none => .fault .packetLengthMismatch
          | some (slots, a) =>
            if a.k = some a.next then
              let (len, e) := a.sum.getD (0#3, List.replicate 8 0#32)
              let o : Token := { emptyToken with tag := a.tag, frame := k.t.frame, round := a.round, seq := a.seq, fmt := r.fmt,
                                                 len := len, e := e, exc := a.exc, err := a.err }
              exit (k.R.setSlots k.u (mapDel slots ai)) (sendsOf r o o)
            else .ok [] (k.R.setSlots k.u (mapPut slots ai (.accum a)))
        if k.t.port = 1#2 then
          if a.k.isSome || i < a.next then .fault .operandCollision
          else if k.t.act = .cancel then
            let parked := (List.range banks).filter fun b =>
              match (mapGet k.U.slots (base + b)).bind Slot.parked with
              | some t => (popField tw t.tag (r.lit.toNat % 64)).toOption.map (·.1) == some outer
              | none => false
            let slots := mapDel (clearSlots k.U.slots (parked.map (base + ·))) ai
            let o := { cancelOf k.t with tag := a.tag }
            exit (k.R.setSlots k.u slots) (sendsOf r o o)
          else conclude k.U.slots { a with k := some i, seq := k.t.seq, exc := a.exc || k.t.exc, err := a.err || k.t.err }
        else
          let past : Bool := match a.k with | some n => decide (i ≥ n) | none => false
          if i < a.next || past then .fault .operandCollision
          else if i > a.next then
            if (mapGet k.U.slots (base + i % banks)).isSome then .fault .operandCollision
            else if k.t.oddPair then .fault .packetLengthMismatch
            else
              let item : Slot := if k.t.act = .cancel then .mark k.t 1#4 else .operand false k.t
              .ok [] (k.R.setSlots k.u (mapPut (mapPut k.U.slots ai (.accum a)) (base + i % banks) item))
          else match a.consume r k.t with
            | none => .fault .packetLengthMismatch
            | some a' => conclude k.U.slots a'

/-! ### Cancels, purges and the other kinds (R61, R134, R174, R176) -/

/-- The cancel that a record without a slot forwards, its tag changed as the record changes tags (R176): a result, or
nothing where the record absorbs it (R190, R192, R194, R197, R198). -/
def forwardCancel (k : Take) (op : Nat) (r : Rec) : TRes :=
  let tw := k.R.cfg.tw
  let t := k.t
  let both (tag : W64) : TRes := .ok (sendsOf r (retag t tag) (retag t tag)) k.R
  match op with
  | 0x71 | 0x78 | 0x7E | 0x81 => .ok [] k.R
  | 0x73 =>
    if countedEntry op r then .ok [] k.R
    else match pushField tw t.tag (recWidth r) 0 with
      | .ok tag => .ok (([(r.d0, retag t tag)] : Sends).filter fun p => p.1 != noDest) k.R
      | .error c => .fault c
  | 0x74 => match nextTag tw t.tag (recWidth r) with
    | .ok tag => both tag
    | .error c => .fault c
  | 0x75 =>
    if t.port ≠ 0#2 then .fault .packetLengthMismatch
    else match popField tw t.tag (recWidth r) with
      | .ok (tag, _) => leaveWith k r (sendsOf r (retag t tag) (retag t tag))
      | .error c => .fault c
  | 0x76 => match pushField tw t.tag (recWidth r) (r.lit.toNat * 2 ^ 10 + t.frame.toNat) with
    | .ok tag => both tag
    | .error c => .fault c
  | 0x77 => match popField tw t.tag (recWidth r) with
    | .ok (tag, v) =>
      let o := { retag t tag with frame := BitVec.ofNat 10 v }
      .ok (sendsOf r o o) k.R
    | .error c => .fault c
  | _ => both t.tag

/-- A token that a matching record stores, or that clears or annihilates items, sending nothing (R174). -/
def quietRes (k : Take) (op : Nat) (r : Rec) : TRes :=
  match arrive k.R k.U op r k.t with
  | .collision => .fault .operandCollision
  | .quiet slots seals =>
    match k.R.logSeals k.u k.t.round seals with
    | none => .wait
    | some R => .ok [] (R.setSlots k.u slots)
  | _ => .wait

/-- A cancel at any record (R174, R176, R201); TAGSET's goes on under the tag of port 0 (R200). -/
def cancelArrivalRes (k : Take) (op : Nat) (r : Rec) : TRes :=
  if op = 0x85 then oreduceRes k r
  else if matching op r then
    match arrive k.R k.U op r k.t with
    | .collision => .fault .operandCollision
    | .quiet slots _ => .ok [] (k.R.setSlots k.u slots)
    | .cancelled slots =>
      let t0 := cancelOf k.t
      let first := ((waitingOps (groupItems k.U.slots (groupOf k.R k.U op r k.t))).find? fun w => w.1.port == 0).map (·.1.tok.tag)
      let t := if op = 0x84 then { t0 with tag := first.getD k.t.tag } else t0
      .ok (sendsOf r t t) (k.R.setSlots k.u slots)
    | .fire _ _ _ => .wait
  else forwardCancel k op r

/-- A purge at any record: it clears its port's item, or is absorbed (R174, R176), also at OREDUCE's ports 0 and 1 (log entry 23).
At the marker port of LEAVE or OREDUCE it is a data token, which faults (R192, R201). -/
def purgeArrivalRes (k : Take) (op : Nat) (r : Rec) : TRes :=
  if (op = 0x75 && k.t.port ≠ 0#2) || (op = 0x85 && k.t.port = 2#2) then .fault .packetLengthMismatch
  else if matching op r then quietRes k op r else .ok [] k.R

/-- A marker (R61, R183): counted, and the markers that are now complete are forwarded. -/
def markerArrivalRes (k : Take) (op : Nat) (r : Rec) : TRes :=
  match k.R.takeMarker k.u k.node op r k.t with
  | none => .wait
  | some R => let (es, R') := R.forwards k.u k.node op r; .ok es R'

/-- An end-of-stream token (R32, R196). -/
def eosArrivalRes (k : Take) (op : Nat) (r : Rec) : TRes :=
  if op = 0x7D then markEosRes k r
  else
    let R := k.R.takeEos k.u k.node op r k.t
    let (es, R') := R.forwards k.u k.node op r
    .ok es R'

/-- A bubble is absorbed (R61); what the node has ready to forward goes. -/
def bubbleArrivalRes (k : Take) (op : Nat) (r : Rec) : TRes := let (es, R') := k.R.forwards k.u k.node op r; .ok es R'

/-- The TFU record of an opcode. -/
def tfuRes (k : Take) (op : Nat) (r : Rec) : TRes :=
  match op with
  | 0x70 => steerRes k r | 0x71 => mergeRes k r | 0x72 => gateRes k r | 0x73 => enterRes k r | 0x74 => nextRes k r
  | 0x75 => leaveRes k r | 0x76 => callfRes k r | 0x77 => retfRes k r | 0x78 => fallocRes k r | 0x79 => ffreeRes k r
  | 0x7A => stickRes k r | 0x7B => purgeRes k r | 0x7C => cancelRes k r | 0x7D => markRes k r | 0x7E => holdRes k r
  | 0x7F => eosRes k r | 0x81 => sinkRes k r | 0x82 => constRes k r
  | 0x83 => if r.m then taggetTagRes k r else taggetRes k r
  | 0x84 => tagsetRes k r | 0x85 => oreduceRes k r
  | _ => .wait

end Sys2Proof.Machine
end

