-- ==== Sys2Proof/Machine/Select.lean ====
section
/-! DEFINITION. Which head a cell or an MU takes (R35, R127 to R130, R205), and how a take is committed. -/

namespace Sys2Proof.Machine

/-! ### Admission of a memory access (R205, R215, R220) -/

/-- What an MU's take of a memory record comes to: the credits it reserves, the tokens it sends at once, the region. -/
inductive MRes where
  | wait
  | fault (c : Cause)
  | ok (reserve send : Sends) (R : Region)

/-- The wave entry of a context. -/
def Mu.wave? (m : Mu) (chain : Nat) (t : Token) : Option Wave :=
  m.waves.find? fun w => w.chain == chain && w.tag == t.tag && w.frame == t.frame

/-- The access of a firing placed in the buffer (R205): ready only with a free entry there, and with a wave-table entry
where it begins a context, of the table's 128 and of the chain's LIVE (R220). -/
def Region.admitted (R : Region) (page : Nat) (a : Access) : Option Region :=
  match R.mu? page with
  | none => none
  | some m =>
    let c := mrChain a.r
    let known := (m.wave? c a.hdr).isSome
    if m.accs.length ≥ 32 then none
    else if known then some (R.modMu page fun m => { m with accs := m.accs ++ [{ a with id := m.nextId }], nextId := m.nextId + 1 })
    else if m.waves.length ≥ 128 || (m.waves.filter fun w => w.chain == c).length ≥ R.chainLive c then none
    else some (R.modMu page fun m => { m with
      accs := m.accs ++ [{ a with id := m.nextId }], nextId := m.nextId + 1,
      waves := m.waves ++ [{ chain := c, tag := a.hdr.tag, frame := a.hdr.frame, round := a.hdr.round, last := none }] })

/-- A new access of a firing. -/
def newAccess (k : Take) (op : Nat) (r : Rec) (ops : List Operand) (hdr : Token) (st : AccSt) : Access where
  id := 0
  op := op
  r := r
  node := k.t.node
  ops := ops.map fun o => (BitVec.ofNat 2 o.port, o.sticky, o.tok)
  queue := k.q
  last := k.qt
  hdr := hdr
  st := st
  results := []
  sent := false

/-- The take of a memory record whose operands are complete (R205, R216): the access enters the buffer, the credits of its
destinations reserved (R129). One with ERR performs nothing, answers at once with a zero payload and ERR, and raises an
error tag where no destination takes that (R363). -/
def memFiring (k : Take) (op : Nat) (r : Rec) (ops : List Operand) (R : Region) : MRes :=
  if !memLensOk op r ops then .fault .packetLengthMismatch
  else
    let hdr := outToken ops r.fmt 0 false []
    if hdr.err then
      let a := { newAccess k op r ops hdr .cancelled with sent := true }
      match R.admitted k.u.page a with
      | none => .wait
      | some R' =>
        let vals := (List.range a.count).map fun _ => 0
        let es := (accessSends a vals false).map fun p => (p.1, { p.2 with err := true })
        .ok [] es (if es.isEmpty then R'.raiseErr k.u { k.t with round := hdr.round } else R')
    else
      match R.admitted k.u.page (newAccess k op r ops hdr .buffered) with
      | none => .wait
      | some R' => .ok (sendsOf r hdr hdr) [] R'

/-- A memory record's data token: matched, then admitted. -/
def memRes (k : Take) (op : Nat) (r : Rec) : MRes :=
  if matching op r then
    match arrive k.R k.U op r k.t with
    | .collision => .fault .operandCollision
    | .fire ops slots seals =>
      match k.R.logSeals k.u k.t.round seals with
      | none => .wait
      | some R => memFiring k op r ops (R.setSlots k.u slots)
    | _ => .wait
  else memFiring k op r (soleOperands r k.t) k.R

/-- A cancel at a memory record: forwarded by R174 or R176, its context's access cancelled (R216). -/
def memCancelRes (k : Take) (op : Nat) (r : Rec) : MRes :=
  let c := cancelOf k.t
  let add (R : Region) : MRes :=
    match R.admitted k.u.page { newAccess k op r [] { c with act := .normal } .cancelled with sent := true } with
    | none => .wait
    | some R' => .ok [] (sendsOf r c c) R'
  if matching op r then
    match arrive k.R k.U op r k.t with
    | .collision => .fault .operandCollision
    | .quiet slots _ => .ok [] [] (k.R.setSlots k.u slots)
    | .cancelled slots => add (k.R.setSlots k.u slots)
    | .fire _ _ _ => .wait
  else add k.R

/-! ### Ready heads (R128) -/

/-- A TRes of a cell or MU as an MRes. -/
def TRes.toM : TRes → MRes
  | .wait => .wait
  | .fault c => .fault c
  | .ok es R => .ok [] es R

/-- What the take of a head would come to, by its kind, action and record; an ALU, CFU or link firing is told by its
destinations alone. -/
def headRes (k : Take) : MRes :=
  match k.U.recOf k.t with
  | none => .wait
  | some (op, r) =>
    match k.t.kind with
    | .bubble => (bubbleArrivalRes k op r).toM
    | .marker => (markerArrivalRes k op r).toM
    | .eos => (eosArrivalRes k op r).toM
    | .data =>
      match k.t.act with
      | .purge => (purgeArrivalRes k op r).toM
      | .cancel => if k.u.pos = 3 then memCancelRes k op r else (cancelArrivalRes k op r).toM
      | _ =>
        let quiet : Bool := matching op r && (match arrive k.R k.U op r k.t with
          | .quiet _ _ => true
          | _ => false)
        if quiet then (quietRes k op r).toM
        else if k.u.pos = 3 then memRes k op r
        else if decide (0x70 ≤ op) && decide (op ≤ 0x85) then (tfuRes k op r).toM
        else (k.sendFiring op r fun _ => .ok (sendsOf r k.t k.t)).toM

/-- The head is a firing of an ALU record (R131). -/
def Take.isAlu (k : Take) : Bool :=
  match k.U.recOf k.t with
  | some (op, r) =>
    decide (op < 0x70) && k.t.kind == .data && (k.t.act == .normal || k.t.act == .sticky)
      && !(matching op r && (match arrive k.R k.U op r k.t with
        | .quiet _ _ => true
        | _ => false))
  | none => false

/-- The head is a firing of a link or call record (R424). -/
def Take.linkFiring (k : Take) : Option (Nat × Rec) :=
  match k.U.recOf k.t with
  | some (op, r) =>
    if linkOp op && k.t.kind == .data && (k.t.act == .normal || k.t.act == .sticky) then some (op, r) else none
  | none => none

/-- The head's take can complete in this cycle (R128). -/
def Take.ready (k : Take) : Bool :=
  (match headRes k with
    | .wait => false
    | .fault _ => true
    | .ok reserve send R => ((R.unit? k.u).map fun U => U.canSend (reserve ++ send)).getD false)
  && (!k.isAlu || decide (k.U.aluFree ≤ k.now))

/-- The emission that a released SOURCE of a cell makes next, if its route has credit (R185). -/
def State.sourceNext (s : State) (R : Region) (U : Site) : Option (Nat × Rec × Token × Position) :=
  if !R.released || U.id.pos > 2 then none
  else match U.source? with
    | none => none
    | some (w, r) =>
      match sourceEmit (s.dutyOf R) r (positionOf U.slots (soff 0x80 r)) with
      | none => none
      | some (t, p) => if U.canSend (sendsOf r t t) then some (w, r, t, p) else none

/-- The slots that the take of a data token reads or writes, but for state slots, which lie in the frame store (R71, R170,
R201). -/
def Take.slotIdx (k : Take) (op : Nat) (r : Rec) : List Nat :=
  if op = 0x85 then
    let base := k.t.frame.toNat * k.U.stride + r.aux.toNat % 256
    (List.range (bits r.aux.toNat 14 12 + 2)).map (base - 1 + ·)
  else if matching op r then groupOf k.R k.U op r k.t
  else []

/-- The virtual address of a slot behind the overflow pointer (R71). -/
def Region.slotVa (R : Region) (u : UnitId) (i : Nat) : Option Nat :=
  if i < storeSize u + R.cfg.carve then none else some (R.cfg.ovf + ((4 * u.page + u.pos) * 2 ^ 18 + i) * 64)

/-- The slots of a cell or an MU that its frame store does not hold (R71). -/
def Site.beyond (U : Site) : List (UnitId × Nat × Slot) :=
  if U.id.pos > 3 then [] else (U.slots.filter fun p => storeSize U.id ≤ p.1).map fun p => (U.id, p.1, p.2)

/-- The slots of a region that its frame stores do not hold. -/
def Region.beyond (R : Region) : List (UnitId × Nat × Slot) := R.units.flatMap Site.beyond

/-- What keeps a head from its take beside R128's conditions: an uncorrectable error in its record (R126), or a slot behind the
overflow pointer that the page's MU cannot reach: a fault of its translation, or an absent page (R128, R287, R290). -/
inductive HeadStop where
  | bad
  | fault (c : Cause) (va : Nat)
  | absent (va : Nat)
  deriving DecidableEq, Repr

/-- A slot behind the overflow pointer reached through the page's MU. -/
def State.slotStop (s : State) (R : Region) (va : Nat) : Option HeadStop :=
  if (s.slotOf R.part).isNone then some (.fault .permission va)
  else match walkVa s R.cfg.rt va true true with
    | .page t => if windowOk s (t.paOf va) true then none else some (.fault .physicalAddress va)
    | .fault c => some (.fault c va)
    | .absent => some (.absent va)

/-- What keeps a head from its take. -/
def State.headStop (s : State) (R : Region) (k : Take) : Option HeadStop :=
  if k.U.recordBad k.node then some .bad
  else match k.U.recOf k.t with
    | none => none
    | some (op, r) =>
      if k.t.kind != .data then none
      else (k.slotIdx op r).findSome? fun i => (R.slotVa k.u i).bind (s.slotStop R)

/-- The unit by which a parked head is known: an MU's head has a code of its own beside the accesses of the MU. -/
def headUnit (u : UnitId) : UnitId := if u.pos = 3 then ⟨u.page, 10⟩ else u

/-- The head may be served: it is ready, or its stop is told now (R126, R128, R290). -/
def State.served (s : State) (R : Region) (k : Take) : Bool :=
  match s.headStop R k with
  | some (.absent va) => !R.headParked (headUnit k.u) k.q va
  | some _ => true
  | none =>
    match k.linkFiring with
    | some (op, r) => linkReady s k op r
    | none => k.ready

/-- The rounds at the positions that are ready: Q0 to Q3, and 4 for the SOURCE (R35); none in a cycle in which the cell has taken
already (R127). -/
def State.candidates (s : State) (R : Region) (U : Site) : List (Nat × BitVec 12) :=
  if s.cycle < U.nextTake then [] else
  let qs := (List.range 4).filterMap fun q =>
    match R.takeAt s.cycle U.id q with
    | some k => if s.served R k then some (q, k.t.round) else none
    | none => none
  match s.sourceNext R U with
  | some (_, _, t, _) => qs ++ [(4, t.round)]
  | none => qs

/-- The position served next (R35): the oldest round, and among equals the first in rotation after the one last served. -/
def State.choice (s : State) (R : Region) (U : Site) : Option Nat :=
  let cs := s.candidates R U
  let oldest := (cs.filter fun c => cs.all fun d => !older d.2 c.2).map (·.1)
  ((List.range 5).map fun i => (U.rot + 1 + i) % 5).find? oldest.contains

/-! ### Committing a take -/

/-- The take that this turn names, where the region runs, R35 chooses that queue and nothing keeps the head from it. -/
def State.taking (s : State) : Option (Nat × Take) :=
  match s.turn.who with
  | .take rid u q =>
    match s.region? rid with
    | none => none
    | some R =>
      if !R.live then none
      else match R.unit? u, R.takeAt s.cycle u q with
        | some U, some k => if u.pos ≤ 3 && s.choice R U == some q && (s.headStop R k).isNone then some (rid, k) else none
        | _, _ => none
  | _ => none

/-- The record and node of a take, as its fault record names them (R52). -/
def faultTake (s : State) (rid : Nat) (k : Take) (c : Cause) : State := takeFault s rid (mkFault k.u k.t.node k.t c 0)

/-- A cell's take committed: its tokens wait `lat` cycles to leave (R131), the rotation pointer moves (R128). -/
def commitCell (s : State) (rid : Nat) (k : Take) (lat occ : Nat) : TRes → State
  | .wait => s
  | .fault c => faultTake s rid k c
  | .ok es R =>
    match R.unit? k.u with
    | none => s
    | some U =>
      if !U.canSend es then s
      else s.putRegion (R.modUnit k.u fun U =>
        { (U.queueSends s.cycle lat es) with rot := k.q, nextTake := s.cycle + 1, aluFree := if occ = 0 then U.aluFree else s.cycle + occ })

/-- An MU's take committed: reserved credits are spent, tokens sent at once leave (R129, R205). -/
def commitMu (s : State) (rid : Nat) (k : Take) : MRes → State
  | .wait => s
  | .fault c => faultTake s rid k c
  | .ok reserve send R =>
    match R.unit? k.u with
    | none => s
    | some U =>
      if !U.canSend (reserve ++ send) then s
      else s.putRegion ((R.modUnit k.u fun U => { U with credits := spend U.credits (reserve ++ send), rot := k.q, nextTake := s.cycle + 1 }).sendReserved
        s.cycle k.u send)

end Sys2Proof.Machine
end

