-- ==== Sys2Proof/Machine/Flags.lean ====
section
/-! DEFINITION. Results of an ALU firing: the EXC flag (R111, R120), output headers (R137, R138), the occupancy and
latency of Table 4-2, and the one operation by which every ALU record is taken and fired. -/

namespace Sys2Proof.Machine

/-! ### Results and their flag -/

/-- The result of an ALU firing: its format, LEN and elements, the EXC that arises in it (R111), and the format, LEN and
elements of a second result for D1 (Table 4-4). -/
structure AluOut where
  fmt : Fmt
  len : Nat
  e   : List W32
  exc : Bool
  snd : Option (Fmt × Nat × List W32)
  deriving DecidableEq, Repr

/-- A result without a second one. -/
def AluOut.one (fmt : Fmt) (len : Nat) (e : List W32) (exc : Bool) : AluOut := { fmt, len, e, exc, snd := none }

/-- What an ALU record computes from its operands, in port order; an error is a freezing fault (R140). -/
abbrev AluFn := Rec → List Operand → Except Cause AluOut

/-- The tokens of a result (R64, R137, R138): the D1 token differs from the D0 token in what the second result says. -/
def aluSends (r : Rec) (ops : List Operand) (o : AluOut) : Sends :=
  let t0 := outToken ops o.fmt o.len o.exc o.e
  let t1 := match o.snd with
    | none => t0
    | some (f, l, e) => { t0 with fmt := f, len := BitVec.ofNat 3 l, e := f.payload l e }
  sendsOf r t0 t1

/-! ### Value by value (section 3.1 of The cell) -/

/-- A result computed index by index over the operands' values in a format: `g` takes the encoding on each port to the
encoding of the result and its EXC. -/
def perValue (inF outF : Fmt) (ops : List Operand) (g : (Nat → Nat) → Nat × Bool) : Except Cause AluOut :=
  if !lensOk inF ops then .error .packetLengthMismatch
  else
    let l := maxLen ops
    let vs := (List.range (inF.nv l)).map fun i => g fun p => (opAt ops p).val ops inF i
    .ok (.one outF l (outF.pack (vs.map (·.1))) (vs.any (·.2)))

/-- A result of whole elements computed element by element, in a format that is no pair. -/
def perElement (outF : Fmt) (ops : List Operand) (g : Nat → Nat × Bool) : Except Cause AluOut :=
  if !lensOk .raw ops then .error .packetLengthMismatch
  else
    let l := maxLen ops
    let vs := (List.range (l + 1)).map g
    .ok (.one outF l (vs.map fun v => BitVec.ofNat 32 v.1) (vs.any (·.2)))

/-- `.ftz` of a record (R102). -/
def recFtz (r : Rec) : Bool := bit (recSub r) 3
/-- The rounding mode of a record (Table 3-5). -/
def recMode (r : Rec) : Mode := modeOf (recSub r)

/-- A floating result rounded into a format by the record's mode, `.sat` and `.ftz`; an invalid operation sets EXC
(R111, R152). -/
def FF.result (g : FF) (r : Rec) (x : Num × Bool) : Nat × Bool :=
  let y := g.round (recMode r) 0 0 r.m (recFtz r) x.1
  (y.1, y.2 || x.2)

/-! ### Occupancy and latency (Table 4-2) -/

/-- The rows of Table 4-2. -/
inductive Cost where
  | simple | mul | div | div64 | float | draw
  deriving DecidableEq, Repr

/-- Cycles that the ALU is occupied; `wide` is 5 to 8 elements. -/
def Cost.occ (c : Cost) (wide : Bool) : Nat :=
  match c with
  | .div => if wide then 16 else 8
  | .div64 => if wide then 32 else 16
  | _ => if wide then 2 else 1

/-- Cycles from the take to the result. -/
def Cost.lat (c : Cost) (wide : Bool) : Nat :=
  match c with
  | .simple => 2
  | .mul => 4
  | .div => if wide then 18 else 10
  | .div64 => if wide then 34 else 18
  | .float => 5
  | .draw => 12

/-- The take works on 5 to 8 elements: counted over the operands, those still waiting in its slots included, and not over the
result (log entry 28). -/
def Take.wide (k : Take) (op : Nat) (r : Rec) : Bool :=
  let ops := if matching op r then
      match arrive k.R k.U op r k.t with
      | .fire ops _ _ => ops
      | _ => []
    else soleOperands r k.t
  decide (3 < maxLen ops)

/-- AN ALU FIRING (R127 to R131, R134): the head of the queue that R35 chooses is taken with its partners, computed,
and its tokens wait for their latency. It is taken only while the ALU is free. -/
def aluExec (s : State) (op : Nat) (r : Rec) (c : Cost) (f : AluFn) : State :=
  match s.taking with
  | none => s
  | some (rid, k) =>
    if s.cycle < k.U.aluFree then s
    else
      let wide := k.wide op r
      commitCell s rid k (c.lat wide) (c.occ wide) (k.sendFiring op r fun ops => (f r ops).map (aluSends r ops))

end Sys2Proof.Machine
end

