-- ==== Sys2Proof/Machine/CellInt.lean ====
section
/-! DEFINITION. The integer and logic records (Table 4-6, opcodes 0x00 to 0x21). -/

namespace Sys2Proof.Machine

/-- The outcome of every step that is a next state. -/
abbrev Out1 := Host.Outcome State Fault Refusal

/-- An arithmetic record (R143): the formula exactly, then wrapped or saturated. -/
def intArith (r : Rec) (ops : List Operand) (g : (Nat → Int) → Int) : Except Cause AluOut :=
  perValue r.fmt r.fmt ops fun v => storeI r.fmt r.m (g fun p => r.fmt.int (v p))

/-- A record over the encodings that never sets EXC. -/
def bitwise (r : Rec) (ops : List Operand) (g : (Nat → Nat) → Nat) : Except Cause AluOut :=
  perValue r.fmt r.fmt ops fun v => (g v % 2 ^ r.fmt.width, false)

/-- COPY (R142): its operand unchanged. -/
def copyOut : AluFn := fun r ops => bitwise r ops fun v => v 0
/-- IADD (R143). -/
def iaddOut : AluFn := fun r ops => intArith r ops fun v => v 0 + v 1
/-- ISUB (R143). -/
def isubOut : AluFn := fun r ops => intArith r ops fun v => v 0 - v 1
/-- IMUL (R143). -/
def imulOut : AluFn := fun r ops => intArith r ops fun v => v 0 * v 1
/-- IMULH (R142): floor(a × b / 2^w). -/
def imulhOut : AluFn := fun r ops => intArith r ops fun v => v 0 * v 1 / (2 ^ r.fmt.width : Nat)
/-- IMAD (R143). -/
def imadOut : AluFn := fun r ops => intArith r ops fun v => v 0 * v 1 + v 2
/-- Division towards zero of one pair of values with its cases of R144. -/
def idivVal (f : Fmt) (sat : Bool) (a b : Int) : Nat × Bool :=
  if b = 0 then (wrap f.width (if a ≥ 0 then f.maxI else f.minI), true)
  else storeI f sat (Int.tdiv a b)
/-- IDIV (R144). -/
def idivOut : AluFn := fun r ops => perValue r.fmt r.fmt ops fun v => idivVal r.fmt r.m (r.fmt.int (v 0)) (r.fmt.int (v 1))
/-- IREM (R144). -/
def iremOut : AluFn := fun r ops => perValue r.fmt r.fmt ops fun v =>
  let a := r.fmt.int (v 0)
  let b := r.fmt.int (v 1)
  if b = 0 then (wrap r.fmt.width a, true) else (wrap r.fmt.width (Int.tmod a b), false)
/-- IMIN (R142). -/
def iminOut : AluFn := fun r ops => intArith r ops fun v => min (v 0) (v 1)
/-- IMAX (R142). -/
def imaxOut : AluFn := fun r ops => intArith r ops fun v => max (v 0) (v 1)
/-- IABS (R143). -/
def iabsOut : AluFn := fun r ops => intArith r ops fun v => (v 0).natAbs
/-- INEG (R143). -/
def inegOut : AluFn := fun r ops => intArith r ops fun v => -(v 0)
/-- A sum or difference with its carry or borrow out on D1 (R145); `t` is the exact result. -/
def carryOut (r : Rec) (ops : List Operand) (t : (Nat → Nat) → Int) : Except Cause AluOut :=
  match perValue r.fmt r.fmt ops fun v => (wrap 32 (t v), false),
        perValue r.fmt r.fmt ops fun v => (b2n (decide (t v ≥ (2 ^ 32 : Nat)) || decide (t v < 0)), false) with
  | .ok y, .ok z => .ok { y with snd := some (z.fmt, z.len, z.e) }
  | .error c, _ => .error c
  | _, .error c => .error c
/-- IADDC (R145). -/
def iaddcOut : AluFn := fun r ops => carryOut r ops fun v => v 0 + v 1 + (v 2 % 2 : Nat)
/-- ISUBB (R145). -/
def isubbOut : AluFn := fun r ops => carryOut r ops fun v => (v 0 : Int) - v 1 - (v 2 % 2 : Nat)
/-- IDOT4 (R146). -/
def idot4Out : AluFn := fun r ops =>
  let g : Fmt := if r.fmt = .i8x4 then .i32 else .n32
  perElement g ops fun j =>
    let c := g.int ((opAt ops 2).val ops g j)
    let p (k : Nat) : Int := r.fmt.int ((opAt ops 0).val ops r.fmt (4 * j + k)) * r.fmt.int ((opAt ops 1).val ops r.fmt (4 * j + k))
    storeI g r.m (c + p 0 + p 1 + p 2 + p 3)
/-- ICLAMP (R142). -/
def iclampOut : AluFn := fun r ops => intArith r ops fun v => min (max (v 0) (v 1)) (v 2)
/-- AND (R142). -/
def andOut : AluFn := fun r ops => bitwise r ops fun v => v 0 &&& v 1
/-- OR (R142). -/
def orOut : AluFn := fun r ops => bitwise r ops fun v => v 0 ||| v 1
/-- XOR (R142). -/
def xorOut : AluFn := fun r ops => bitwise r ops fun v => v 0 ^^^ v 1
/-- The bits of a w-bit encoding inverted. -/
def notBits (w x : Nat) : Nat := 2 ^ w - 1 - x % 2 ^ w
/-- ANDN (R142). -/
def andnOut : AluFn := fun r ops => bitwise r ops fun v => v 0 &&& notBits r.fmt.width (v 1)
/-- NOT (R142). -/
def notOut : AluFn := fun r ops => bitwise r ops fun v => notBits r.fmt.width (v 0)
/-- LUT3 (R149): TT in AUX[15:8]. -/
def lut3Out : AluFn := fun r ops => bitwise r ops fun v =>
  let tt := r.aux.toNat / 256
  (List.range r.fmt.width).foldl (fun y q =>
    y + 2 ^ q * b2n (bit tt (4 * b2n (bit (v 0) q) + 2 * b2n (bit (v 1) q) + b2n (bit (v 2) q)))) 0
/-- SHL (R147). -/
def shlOut : AluFn := fun r ops => bitwise r ops fun v => if v 1 ≥ r.fmt.width then 0 else v 0 * 2 ^ v 1
/-- SHR (R147). -/
def shrOut : AluFn := fun r ops => bitwise r ops fun v => if v 1 ≥ r.fmt.width then 0 else v 0 / 2 ^ v 1
/-- SAR (R147). -/
def sarOut : AluFn := fun r ops => bitwise r ops fun v =>
  let w := r.fmt.width
  wrap w (signed w (v 0) / (2 ^ min (v 1) (w - 1) : Nat))
/-- ROTL (R147). -/
def rotlOut : AluFn := fun r ops => bitwise r ops fun v =>
  let w := r.fmt.width
  let n := v 1 % w
  v 0 * 2 ^ n % 2 ^ w + v 0 / 2 ^ (w - n)
/-- FUNL (R147). -/
def funlOut : AluFn := fun r ops => bitwise r ops fun v =>
  let w := r.fmt.width
  (v 0 * 2 ^ w + v 1) * 2 ^ (v 2 % w) / 2 ^ w
/-- CLZ (R142). -/
def clzOut : AluFn := fun r ops => bitwise r ops fun v => if v 0 = 0 then r.fmt.width else r.fmt.width - 1 - log2 (v 0)
/-- POPC (R142). -/
def popcOut : AluFn := fun r ops => bitwise r ops fun v => ((List.range r.fmt.width).filter (bit (v 0))).length
/-- BREV (R142). -/
def brevOut : AluFn := fun r ops => bitwise r ops fun v =>
  (List.range r.fmt.width).foldl (fun y q => y + 2 ^ (r.fmt.width - 1 - q) * b2n (bit (v 0) q)) 0
/-- The clipped field of a control value (R148): position and length. -/
def fieldOf (b : Nat) : Nat × Nat := let pos := b % 32; (pos, min (bits b 13 8) (32 - pos))
/-- BEXT (R148). -/
def bextOut : AluFn := fun r ops => bitwise r ops fun v =>
  let (pos, len) := fieldOf (v 1)
  let f := v 0 / 2 ^ pos % 2 ^ len
  if len = 0 then 0 else if r.fmt = .i32 then wrap 32 (signed len f) else f
/-- BINS (R148). -/
def binsOut : AluFn := fun r ops => bitwise r ops fun v =>
  let (pos, len) := fieldOf (v 1)
  v 0 - v 0 / 2 ^ pos % 2 ^ len * 2 ^ pos + v 2 % 2 ^ len * 2 ^ pos
/-- A condition of ICMP (R150). -/
def icmpCond (sub : Nat) (a b : Int) : Bool :=
  match sub with
  | 0 => a = b | 1 => a ≠ b | 2 => a < b | 3 => a ≤ b | 4 => a > b | _ => a ≥ b
/-- ICMP (R150). -/
def icmpOut : AluFn := fun r ops => bitwise r ops fun v => b2n (icmpCond (recSub r) (r.fmt.int (v 0)) (r.fmt.int (v 1)))
/-- SEL (R150). -/
def selOut : AluFn := fun r ops => bitwise r ops fun v => if bit (v 0) 0 then v 1 else v 2

/-! ### The meanings -/

/-- COPY. -/
def execCopy (r : Rec) (s : State) : Out1 := .next (aluExec s 0x00 r .simple copyOut)
/-- IADD. -/
def execIadd (r : Rec) (s : State) : Out1 := .next (aluExec s 0x01 r .simple iaddOut)
/-- ISUB. -/
def execIsub (r : Rec) (s : State) : Out1 := .next (aluExec s 0x02 r .simple isubOut)
/-- IMUL. -/
def execImul (r : Rec) (s : State) : Out1 := .next (aluExec s 0x03 r .mul imulOut)
/-- IMULH. -/
def execImulh (r : Rec) (s : State) : Out1 := .next (aluExec s 0x04 r .mul imulhOut)
/-- IMAD. -/
def execImad (r : Rec) (s : State) : Out1 := .next (aluExec s 0x05 r .mul imadOut)
/-- IDIV. -/
def execIdiv (r : Rec) (s : State) : Out1 := .next (aluExec s 0x06 r (if r.fmt.pair then .div64 else .div) idivOut)
/-- IREM. -/
def execIrem (r : Rec) (s : State) : Out1 := .next (aluExec s 0x07 r (if r.fmt.pair then .div64 else .div) iremOut)
/-- IMIN. -/
def execImin (r : Rec) (s : State) : Out1 := .next (aluExec s 0x08 r .simple iminOut)
/-- IMAX. -/
def execImax (r : Rec) (s : State) : Out1 := .next (aluExec s 0x09 r .simple imaxOut)
/-- IABS. -/
def execIabs (r : Rec) (s : State) : Out1 := .next (aluExec s 0x0A r .simple iabsOut)
/-- INEG. -/
def execIneg (r : Rec) (s : State) : Out1 := .next (aluExec s 0x0B r .simple inegOut)
/-- IADDC. -/
def execIaddc (r : Rec) (s : State) : Out1 := .next (aluExec s 0x0C r .simple iaddcOut)
/-- ISUBB. -/
def execIsubb (r : Rec) (s : State) : Out1 := .next (aluExec s 0x0D r .simple isubbOut)
/-- IDOT4. -/
def execIdot4 (r : Rec) (s : State) : Out1 := .next (aluExec s 0x0E r .mul idot4Out)
/-- ICLAMP. -/
def execIclamp (r : Rec) (s : State) : Out1 := .next (aluExec s 0x0F r .simple iclampOut)
/-- AND. -/
def execAnd (r : Rec) (s : State) : Out1 := .next (aluExec s 0x10 r .simple andOut)
/-- OR. -/
def execOr (r : Rec) (s : State) : Out1 := .next (aluExec s 0x11 r .simple orOut)
/-- XOR. -/
def execXor (r : Rec) (s : State) : Out1 := .next (aluExec s 0x12 r .simple xorOut)
/-- ANDN. -/
def execAndn (r : Rec) (s : State) : Out1 := .next (aluExec s 0x13 r .simple andnOut)
/-- NOT. -/
def execNot (r : Rec) (s : State) : Out1 := .next (aluExec s 0x14 r .simple notOut)
/-- LUT3. -/
def execLut3 (r : Rec) (s : State) : Out1 := .next (aluExec s 0x15 r .simple lut3Out)
/-- SHL. -/
def execShl (r : Rec) (s : State) : Out1 := .next (aluExec s 0x16 r .simple shlOut)
/-- SHR. -/
def execShr (r : Rec) (s : State) : Out1 := .next (aluExec s 0x17 r .simple shrOut)
/-- SAR. -/
def execSar (r : Rec) (s : State) : Out1 := .next (aluExec s 0x18 r .simple sarOut)
/-- ROTL. -/
def execRotl (r : Rec) (s : State) : Out1 := .next (aluExec s 0x19 r .simple rotlOut)
/-- FUNL. -/
def execFunl (r : Rec) (s : State) : Out1 := .next (aluExec s 0x1A r .simple funlOut)
/-- CLZ. -/
def execClz (r : Rec) (s : State) : Out1 := .next (aluExec s 0x1B r .simple clzOut)
/-- POPC. -/
def execPopc (r : Rec) (s : State) : Out1 := .next (aluExec s 0x1C r .simple popcOut)
/-- BREV. -/
def execBrev (r : Rec) (s : State) : Out1 := .next (aluExec s 0x1D r .simple brevOut)
/-- BEXT. -/
def execBext (r : Rec) (s : State) : Out1 := .next (aluExec s 0x1E r .simple bextOut)
/-- BINS. -/
def execBins (r : Rec) (s : State) : Out1 := .next (aluExec s 0x1F r .simple binsOut)
/-- ICMP. -/
def execIcmp (r : Rec) (s : State) : Out1 := .next (aluExec s 0x20 r .simple icmpOut)
/-- SEL. -/
def execSel (r : Rec) (s : State) : Out1 := .next (aluExec s 0x21 r .simple selOut)

end Sys2Proof.Machine
end

