-- ==== Sys2Proof/Machine/CellFloat.lean ====
section
/-! DEFINITION. The floating records (Table 4-7, opcodes 0x40 to 0x4D). -/

namespace Sys2Proof.Machine

/-- The floating format of a record; f32 for a format that a loaded record of this family cannot have (R151). -/
def recFF (r : Rec) : FF := r.fmt.ff.getD .f32

/-- The exact value on a port with `.ftz`. -/
def recNum (r : Rec) (v : Nat) : Num := (recFF r).decodeFtz (recFtz r) v

/-- A floating record with one rounding, value by value (R152). -/
def floatArith (r : Rec) (ops : List Operand) (g : (Nat → Num) → Num × Bool) : Except Cause AluOut :=
  perValue r.fmt r.fmt ops fun v => (recFF r).result r (g fun p => recNum r (v p))

/-- FADD (R152). -/
def faddOut : AluFn := fun r ops => floatArith r ops fun v => sumNum (recMode r) [v 0, v 1]
/-- FSUB (R152). -/
def fsubOut : AluFn := fun r ops => floatArith r ops fun v => sumNum (recMode r) [v 0, (v 1).negate]
/-- FMUL (R152). -/
def fmulOut : AluFn := fun r ops => floatArith r ops fun v => (v 0).mul (v 1)
/-- FFMA (R152). -/
def ffmaOut : AluFn := fun r ops => floatArith r ops fun v => sumProducts (recMode r) [(v 0, v 1)] [v 2]

/-- The encoding as read: a subnormal that `.ftz` flushes is the zero of its sign (R102, R153). -/
def readEnc (r : Rec) (v : Nat) : Nat :=
  match recNum r v with
  | .fin neg 0 _ => (recFF r).enc neg 0 0
  | _ => v

/-- The canonical NaN of the record's format. -/
def canonNan (r : Rec) : Nat := (recFF r).nanEntry.1

/-- The choice between two operands with the NaN rules of R153; `first` says that the first is chosen. -/
def pick (r : Rec) (a b : Nat) (first : Num → Num → Bool) : Nat :=
  let x := recNum r a
  let y := recNum r b
  if r.m && (x.isNan || y.isNan) then canonNan r
  else if x.isNan && y.isNan then canonNan r
  else if x.isNan then readEnc r b
  else if y.isNan then readEnc r a
  else if first x y then readEnc r a
  else readEnc r b

/-- FMIN (R153). -/
def fminOut : AluFn := fun r ops => bitwise r ops fun v => pick r (v 0) (v 1) fun x y => !y.lt x
/-- FMAX (R153). -/
def fmaxOut : AluFn := fun r ops => bitwise r ops fun v => pick r (v 0) (v 1) fun x y => !x.lt y
/-- The encoding with its sign bit clear. -/
def absEnc (r : Rec) (v : Nat) : Nat := v % (recFF r).signBit
/-- FABS (R153). -/
def fabsOut : AluFn := fun r ops => bitwise r ops fun v =>
  if (recNum r (v 0)).isNan then canonNan r else absEnc r (readEnc r (v 0))
/-- FNEG (R153). -/
def fnegOut : AluFn := fun r ops => bitwise r ops fun v =>
  if (recNum r (v 0)).isNan then canonNan r else readEnc r (v 0) ^^^ (recFF r).signBit
/-- FAMAX (R153). -/
def famaxOut : AluFn := fun r ops => bitwise r ops fun v => pick r (absEnc r (v 0)) (absEnc r (v 1)) fun x y => !x.lt y

/-- The integer format that masks and comparisons are written in (Table 4-3). -/
def maskFmt (r : Rec) : Fmt := if r.fmt = .f32 then .i32 else .i16x2

/-- The conditions of FCMP (R154). -/
def fcmpCond (c : Nat) (x y : Num) : Bool :=
  let un := x.isNan || y.isNan
  match c with
  | 0 => x.eqv y
  | 1 => !un && !x.eqv y && x.lt y
  | 2 => !un && (x.eqv y || x.lt y)
  | 3 => un
  | _ => !un && !x.eqv y

/-- FCMP (R154). -/
def fcmpOut : AluFn := fun r ops => perValue r.fmt (maskFmt r) ops fun v =>
  let x := recNum r (v 0)
  let y := recNum r (v 1)
  let c := recSub r % 8
  (b2n (fcmpCond c x y != r.m), (c = 1 || c = 2 || c = 4) && (x.isNan || y.isNan))

/-- FRND (R155). -/
def frndOut : AluFn := fun r ops => perValue r.fmt r.fmt ops fun v =>
  match recNum r (v 0) with
  | .fin neg m e => (((recFF r).rne (.fin neg (roundNat (recMode r) neg m e 0 0) 0)).1, false)
  | x => (((recFF r).rne x).1, false)

/-- The class bit of a value (R155). -/
def classOf (g : FF) : Num → Nat
  | .nan => 8
  | .inf neg => if neg then 0 else 7
  | .fin neg m e =>
    if m = 0 then (if neg then 3 else 4)
    else if (log2 m : Int) + e < g.emin then (if neg then 2 else 5)
    else if neg then 1 else 6

/-- FCLASS (R155). -/
def fclassOut : AluFn := fun r ops => perValue r.fmt (maskFmt r) ops fun v => (2 ^ classOf (recFF r) (recNum r (v 0)), false)

/-- A value times 2^n. -/
def Num.scale (n : Int) : Num → Num
  | .fin neg m e => .fin neg m (e + n)
  | x => x

/-- FSCALE (R155): port 1 holds signed integers laid out like the record's format. -/
def fscaleOut : AluFn := fun r ops => perValue r.fmt r.fmt ops fun v =>
  (recFF r).result r ((recNum r (v 0)).scale (signed r.fmt.width (v 1)), false)

/-- FDOT2 (R156). -/
def fdot2Out : AluFn := fun r ops => perElement .f32 ops fun j =>
  let h (p i : Nat) : Num := recNum r ((opAt ops p).val ops r.fmt (2 * j + i))
  let c := FF.f32.decodeFtz (recFtz r) ((opAt ops 2).val ops .f32 j)
  FF.f32.result r (sumProducts (recMode r) [(h 0 0, h 1 0), (h 0 1, h 1 1)] [c])

/-! ### The meanings -/

/-- FADD. -/
def execFadd (r : Rec) (s : State) : Out1 := .next (aluExec s 0x40 r .float faddOut)
/-- FSUB. -/
def execFsub (r : Rec) (s : State) : Out1 := .next (aluExec s 0x41 r .float fsubOut)
/-- FMUL. -/
def execFmul (r : Rec) (s : State) : Out1 := .next (aluExec s 0x42 r .float fmulOut)
/-- FFMA. -/
def execFfma (r : Rec) (s : State) : Out1 := .next (aluExec s 0x43 r .float ffmaOut)
/-- FMIN. -/
def execFmin (r : Rec) (s : State) : Out1 := .next (aluExec s 0x44 r .float fminOut)
/-- FMAX. -/
def execFmax (r : Rec) (s : State) : Out1 := .next (aluExec s 0x45 r .float fmaxOut)
/-- FABS. -/
def execFabs (r : Rec) (s : State) : Out1 := .next (aluExec s 0x46 r .float fabsOut)
/-- FNEG. -/
def execFneg (r : Rec) (s : State) : Out1 := .next (aluExec s 0x47 r .float fnegOut)
/-- FCMP. -/
def execFcmp (r : Rec) (s : State) : Out1 := .next (aluExec s 0x48 r .float fcmpOut)
/-- FRND. -/
def execFrnd (r : Rec) (s : State) : Out1 := .next (aluExec s 0x49 r .float frndOut)
/-- FCLASS. -/
def execFclass (r : Rec) (s : State) : Out1 := .next (aluExec s 0x4A r .float fclassOut)
/-- FSCALE. -/
def execFscale (r : Rec) (s : State) : Out1 := .next (aluExec s 0x4B r .float fscaleOut)
/-- FDOT2. -/
def execFdot2 (r : Rec) (s : State) : Out1 := .next (aluExec s 0x4C r .float fdot2Out)
/-- FAMAX. -/
def execFamax (r : Rec) (s : State) : Out1 := .next (aluExec s 0x4D r .float famaxOut)

end Sys2Proof.Machine
end

