-- ==== Sys2Proof/Machine/CellConvert.lean ====
section
/-! DEFINITION. Conversion and quantisation records (section 6 of The cell, opcodes 0x50 to 0x54). -/

namespace Sys2Proof.Machine

/-- The lengths agree with the largest or are 0, and the source and the destination are no pair format with LEN even
(R60, R63, R157). -/
def convLensOk (src dst : Fmt) (ops : List Operand) : Bool :=
  lensOk .raw ops && (!src.pair || decide ((opAt ops 0).len % 2 = 1)) && (!dst.pair || decide (maxLen ops % 2 = 1))

/-- The position of value i of a format: element and sub-element (section 6.1). -/
def posOf (f : Fmt) (i : Nat) : Nat × Nat := if f.pair then (2 * i, 0) else (i / f.subs, i % f.subs)

/-- The value index of a format at a position, if it has one. -/
def indexAt (f : Fmt) (j k : Nat) : Option Nat :=
  if f.pair then (if k = 0 && j % 2 = 0 then some (j / 2) else none)
  else if k < f.subs then some (j * f.subs + k) else none

/-- A conversion by position (R157): `g` takes the position and the source encoding to the result. -/
def perPosition (r : Rec) (ops : List Operand) (g : Nat → Nat → Nat → Nat × Bool) : Except Cause AluOut :=
  let a := opAt ops 0
  let src := a.tok.fmt
  if !convLensOk src r.fmt ops then .error .packetLengthMismatch
  else
    let l := maxLen ops
    if src = .raw then .ok (.one r.fmt l ((List.range (l + 1)).map (a.elem ops)) false)
    else
      let vs := (List.range (r.fmt.nv l)).map fun i =>
        let (j, k) := posOf r.fmt i
        match indexAt src j k with
        | some x => g j k (a.val ops src x)
        | none => (0, false)
      .ok (.one r.fmt l (r.fmt.pack (vs.map (·.1))) (vs.any (·.2)))

/-- CVT (R157). -/
def cvtOut : AluFn := fun r ops => perPosition r ops fun _ _ v =>
  convert (opAt ops 0).tok.fmt r.fmt (recMode r) 0 0 r.m (recFtz r) v

/-- The draw field of a position and its width (R109). -/
def drawField (f : Fmt) (d : W32) (k : Nat) : Nat × Nat :=
  if f.pair then (d.toNat, 32) else let wd := 32 / f.subs; (d.toNat >>> (wd * k) % 2 ^ wd, wd)

/-- CVTS (R158). -/
def cvtsOut : AluFn := fun r ops => perPosition r ops fun j k v =>
  let n := signed 32 ((opAt ops 1).elem ops j).toNat
  let (d, wd) := drawField r.fmt ((opAt ops 2).elem ops j) k
  roundFmt r.fmt .sr d wd r.m (recFtz r) (((opAt ops 0).tok.fmt.num (recFtz r) v).scale n)

/-- t(F) of R159: floor(log2(maxf(F))). -/
def qTop (f : Fmt) : Int :=
  match f with
  | .i8x4 => 6 | .n8x4 => 7 | .e4m3x4 => 8 | .e5m2x4 => 15 | .e2m3x5 => 2 | .e3m2x5 => 4 | _ => 2

/-- k of R159 for the valid elements: none when one is NaN or infinite. -/
def qScaleExp (f : Fmt) (xs : List Num) : Option Int :=
  if xs.any fun x => match x with | .fin _ _ _ => false | _ => true then none
  else
    let ls := xs.filterMap fun x =>
      match x with
      | .fin _ m e => if m = 0 then none else some ((log2 m : Int) + e)
      | _ => none
    match ls with
    | [] => some 0
    | l :: t => some (min (max (t.foldl max l - qTop f) (-126)) 126)

/-- QSCALE (R159). -/
def qscaleOut : AluFn := fun r ops =>
  let a := opAt ops 0
  let n := a.len + 1
  let xs := (List.range n).map fun j => FF.f32.decode (nth 0#32 a.tok.e j).toNat
  let (m, sc, exc) : Nat × Nat × Bool := match qScaleExp r.fmt xs with
    | none => (0x7FC00000, 0x7FC000, true)
    | some k => ((FF.f32.rne (.fin false 1 (-k))).1, (FF.s24.rne (.fin false 1 k)).1, false)
  .ok { fmt := .f32, len := a.len, e := List.replicate n (BitVec.ofNat 32 m), exc := exc,
        snd := some (.raw, a.len, List.replicate n (BitVec.ofNat 32 sc)) }

/-- QPACK (R160): `.ftz` flushes the operands of both ports and results in bf16 and f16 (R102; log entry 29). -/
def qpackOut : AluFn := fun r ops =>
  if !lensOk .raw ops then .error .packetLengthMismatch
  else
    let l := maxLen ops
    let vs := (List.range (l + 1)).map fun j =>
      let a := FF.f32.decodeFtz (recFtz r) ((opAt ops 0).elem ops j).toNat
      let b := FF.f32.decodeFtz (recFtz r) ((opAt ops 1).elem ops j).toNat
      let x := a.mul b
      let y := roundFmt r.fmt (recMode r) 0 0 r.m (recFtz r) x.1
      (y.1, y.2 || x.2)
    .ok (.one r.fmt l (r.fmt.pack (vs.map (·.1))) (vs.any (·.2)))

/-- QUNPACK (R161). -/
def qunpackOut : AluFn := fun r ops =>
  let a := opAt ops 0
  let src : Fmt := if a.tok.fmt = .raw then .f32 else a.tok.fmt
  if !convLensOk src .f32 ops then .error .packetLengthMismatch
  else
    let l := maxLen ops
    let n := l + 1
    let vs := (List.range n).map fun j =>
      let i := r.lit.toNat % 8 * n + j
      if i < src.nv a.len then
        let sc := FF.s24.decode (((opAt ops 1).elem ops j).toNat % 2 ^ 24)
        let x := (src.num false (a.val ops src i)).mul sc
        let y := FF.f32.rne x.1
        (y.1, y.2 || x.2 || sc.isNan)
      else (0, false)
    .ok (.one .f32 l (vs.map fun v => BitVec.ofNat 32 v.1) (vs.any (·.2)))

/-! ### The meanings -/

/-- CVT. -/
def execCvt (r : Rec) (s : State) : Out1 := .next (aluExec s 0x50 r .float cvtOut)
/-- CVTS. -/
def execCvts (r : Rec) (s : State) : Out1 := .next (aluExec s 0x51 r .float cvtsOut)
/-- QPACK. -/
def execQpack (r : Rec) (s : State) : Out1 := .next (aluExec s 0x52 r .float qpackOut)
/-- QUNPACK. -/
def execQunpack (r : Rec) (s : State) : Out1 := .next (aluExec s 0x53 r .float qunpackOut)
/-- QSCALE. -/
def execQscale (r : Rec) (s : State) : Out1 := .next (aluExec s 0x54 r .float qscaleOut)

end Sys2Proof.Machine
end

