-- ==== Sys2Proof/Machine/CellPacket.lean ====
section
/-! DEFINITION. Packet records and keyed draws (sections 7 and 8 of The cell, opcodes 0x60 to 0x6A). -/

namespace Sys2Proof.Machine

/-- An operand read in the record's format breaks no rule of R60. -/
def pairOk (f : Fmt) (o : Operand) : Bool := !f.pair || o.lit || decide (o.len % 2 = 1)

/-- A result of whole elements, refused where a pair format would get an odd number of them (R60, R164). -/
def wholeOut (f : Fmt) (len : Nat) (e : List W32) : Except Cause AluOut :=
  if f.pair && decide (len % 2 = 0) then .error .packetLengthMismatch else .ok (.one f len e false)

/-- Element j of an operand of an element-moving record; a broadcast operand gives its value 0 at every value position (R63, R135,
R136). -/
def Operand.whole (ops : List Operand) (f : Fmt) (o : Operand) (j : Nat) : W32 :=
  if o.broadcast ops then f.elemOf (List.replicate (f.nv 7) (f.get o.tok.e 0)) j else nth 0#32 o.tok.e j

/-- PMERGE (R163): the equal-LEN rule and broadcast do not apply. -/
def pmergeOut : AluFn := fun r ops =>
  let a := opAt ops 0
  let b := opAt ops 1
  let l := a.len + b.len + 1
  if !pairOk r.fmt a || !pairOk r.fmt b || l > 7 then .error .packetLengthMismatch
  else wholeOut r.fmt l (a.tok.e.take (a.len + 1) ++ b.tok.e.take (b.len + 1))
/-- PSPLIT (R163). -/
def psplitOut : AluFn := fun r ops =>
  let a := opAt ops 0
  let k := recSub r % 8
  if !pairOk r.fmt a || a.len < k then .error .packetLengthMismatch
  else .ok { fmt := r.fmt, len := k - 1, e := a.tok.e.take k, exc := false,
             snd := some (r.fmt, a.len - k, a.tok.e.drop k) }
/-- PEXT (R164): port 1 is read as n32. A broadcast port 0 gives its value 0 at every value position of the element that index 0 names
(R63; log entry 103). -/
def pextOut : AluFn := fun r ops =>
  let a := opAt ops 0
  let l := maxLen ops
  if !lensOk .raw ops || !pairOk r.fmt a then .error .packetLengthMismatch
  else wholeOut r.fmt l ((List.range (l + 1)).map fun j =>
    let i := ((opAt ops 1).elem ops j).toNat % 8
    if i ≤ a.len then a.whole ops r.fmt i else 0#32)
/-- PINS (R164). -/
def pinsOut : AluFn := fun r ops =>
  let a := opAt ops 0
  let l := maxLen ops
  let i := recSub r % 8
  if !lensOk r.fmt ops || i > a.len then .error .packetLengthMismatch
  else wholeOut r.fmt l ((List.range (l + 1)).map fun j =>
    if j = i then (opAt ops 1).whole ops r.fmt j else a.whole ops r.fmt j)
/-- PBCAST (R164): the shape is port 1's. -/
def pbcastOut : AluFn := fun r ops =>
  let a := opAt ops 0
  let l := (opAt ops 1).len
  let i := recSub r % 8
  if !pairOk r.fmt a || i > a.len then .error .packetLengthMismatch
  else wholeOut r.fmt l (List.replicate (l + 1) (nth 0#32 a.tok.e i))
/-- PREDUCE (R165): a left fold in index order. -/
def preduceOut : AluFn := fun r ops =>
  let a := opAt ops 0
  if !lensOk r.fmt ops then .error .packetLengthMismatch
  else
    let first := r.fmt.read (recFtz r) (r.fmt.get a.tok.e 0)
    let y := (List.range (r.fmt.nv a.len - 1)).foldl (fun (acc : Nat × Bool) i =>
      let z := addFmt r.fmt (recMode r) r.m (recFtz r) acc.1 (r.fmt.get a.tok.e (i + 1))
      (z.1, acc.2 || z.2)) (first, false)
    .ok (.one r.fmt a.len (r.fmt.pack [y.1]) y.2)
/-- PSHUF (R164). -/
def pshufOut : AluFn := fun r ops =>
  let a := opAt ops 0
  if !lensOk r.fmt ops then .error .packetLengthMismatch
  else wholeOut r.fmt a.len ((List.range (a.len + 1)).map fun j =>
    let i := r.lit.toNat >>> (3 * j) % 8
    if i ≤ a.len then nth 0#32 a.tok.e i else 0#32)
/-- PLEN (R166). -/
def plenOut : AluFn := fun r ops =>
  let a := opAt ops 0
  if !lensOk r.fmt ops then .error .packetLengthMismatch
  else .ok (.one .n32 a.len [BitVec.ofNat 32 (a.len + 1)] false)
/-- PTEST (R166). -/
def ptestOut : AluFn := fun r ops =>
  let a := opAt ops 0
  if !lensOk r.fmt ops then .error .packetLengthMismatch
  else
    let vs := (List.range (r.fmt.nv a.len)).map fun i => decide (r.fmt.get a.tok.e i ≠ 0)
    let y := match recSub r with
      | 0 => vs.any id
      | 1 => vs.all id
      | _ => !vs.any id
    .ok (.one .n32 a.len [b2w y] false)

/-- The LEN rule of DRAW and CADD128: 3 or 7. -/
def lenDraw (l : Nat) : Bool := l = 3 || l = 7

/-- DRAW (R167): the draws on D0, the advanced counter on D1. -/
def drawOut : AluFn := fun r ops =>
  let a := opAt ops 0
  let b := opAt ops 1
  if !lenDraw a.len || a.len ≠ b.len then .error .packetLengthMismatch
  else
    let c := val128 a.tok.e 0
    let k := val128 b.tok.e 0
    let n := c + r.lit.toNat
    let y := if a.len = 7 then kd10 c k ++ kd10 ((c + 1) % 2 ^ 128) k else kd10 c k
    let z := if a.len = 7 then words128 n ++ words128 (n + 1) else words128 n
    .ok { fmt := r.fmt, len := a.len, e := y, exc := false, snd := some (r.fmt, a.len, z) }
/-- CADD128 (R168). -/
def cadd128Out : AluFn := fun r ops =>
  let a := opAt ops 0
  let b := opAt ops 1
  if !lenDraw a.len || !(b.lit || decide (b.len = 0) || decide (b.len = a.len)) then .error .packetLengthMismatch
  else
    let add (g : Nat) : Nat := if b.lit || b.len = 0 then (nth 0#32 b.tok.e 0).toNat else val128 b.tok.e g
    let y (g : Nat) : List W32 := words128 (val128 a.tok.e g + add g)
    .ok (.one r.fmt a.len (if a.len = 7 then y 0 ++ y 4 else y 0) false)

/-! ### The meanings -/

/-- PMERGE. -/
def execPmerge (r : Rec) (s : State) : Out1 := .next (aluExec s 0x60 r .simple pmergeOut)
/-- PSPLIT. -/
def execPsplit (r : Rec) (s : State) : Out1 := .next (aluExec s 0x61 r .simple psplitOut)
/-- PEXT. -/
def execPext (r : Rec) (s : State) : Out1 := .next (aluExec s 0x62 r .simple pextOut)
/-- PINS. -/
def execPins (r : Rec) (s : State) : Out1 := .next (aluExec s 0x63 r .simple pinsOut)
/-- PBCAST. -/
def execPbcast (r : Rec) (s : State) : Out1 := .next (aluExec s 0x64 r .simple pbcastOut)
/-- PREDUCE. -/
def execPreduce (r : Rec) (s : State) : Out1 := .next (aluExec s 0x65 r .simple preduceOut)
/-- PSHUF. -/
def execPshuf (r : Rec) (s : State) : Out1 := .next (aluExec s 0x66 r .simple pshufOut)
/-- PLEN. -/
def execPlen (r : Rec) (s : State) : Out1 := .next (aluExec s 0x67 r .simple plenOut)
/-- PTEST. -/
def execPtest (r : Rec) (s : State) : Out1 := .next (aluExec s 0x68 r .simple ptestOut)
/-- DRAW. -/
def execDraw (r : Rec) (s : State) : Out1 := .next (aluExec s 0x69 r .draw drawOut)
/-- CADD128. -/
def execCadd128 (r : Rec) (s : State) : Out1 := .next (aluExec s 0x6A r .simple cadd128Out)

end Sys2Proof.Machine
end

