-- ==== Sys2Proof/Machine/CfuMath.lean ====
section
/-! DEFINITION. The nine functions of the Column Function Unit (R262 to R264), correctly rounded. Values that no format
holds exactly are computed in fixed point with 320 fraction bits, far beyond what rounding to 24 bits can need (log
entry 7); the exact cases of R264 are exact. -/

namespace Sys2Proof.Machine

/-- One. -/
def fpOne : Nat := 2 ^ 320
/-- ln 2. -/
def fpLn2 : Nat := 0xb17217f7d1cf79abc9e3b39803f2f6af40f343267298b62d8a0d175b8baafa2be7b876206debac98
/-- π. -/
def fpPi : Nat := 0x3243f6a8885a308d313198a2e03707344a4093822299f31d0082efa98ec4e6c89452821e638d01377
/-- 2/√π. -/
def fpTwoOverRootPi : Nat := 0x120dd750429b6d11ae3a914fed7fd8688281341d7587cea2e7342b06199cc416180eb39f0b24e1e22

/-- The product of two fixed-point numbers. -/
def fpMul (a b : Nat) : Nat := a * b / fpOne

/-- m × 2^e in fixed point; exact for e ≥ -320. -/
def fpOf (m : Nat) (e : Int) : Nat := if e ≥ 0 then m * 2 ^ (e.toNat + 320) else m * 2 ^ 320 / 2 ^ (-e).toNat

/-- Σ y^k / k! from term k on, `t` being term k. -/
def expSum (y : Nat) : Nat → Nat → Nat → Nat
  | 0, _, _ => 0
  | n + 1, k, t => t + expSum y n (k + 1) (fpMul t y / (k + 1))

/-- e^y for 0 ≤ y < 1. -/
def fpExp (y : Nat) : Nat := expSum y 75 0 fpOne

/-- e^-y for y ≥ 0: the whole multiples of ln 2 first. -/
def fpExpNeg (y : Nat) : Nat :=
  let n := y / fpLn2
  let r := y - n * fpLn2
  fpOne * fpOne / fpExp r / 2 ^ n

/-- Σ z^(2j+1) / (2j+1), `t` being z^(2j+1) and `q` z². -/
def atanhSum (q : Nat) : Nat → Nat → Nat → Nat
  | 0, _, _ => 0
  | n + 1, j, t => t / (2 * j + 1) + atanhSum q n (j + 1) (fpMul t q)

/-- ln u for 1 ≤ u < 2. -/
def fpLn (u : Nat) : Nat :=
  let z := (u - fpOne) * fpOne / (u + fpOne)
  2 * atanhSum (fpMul z z) 105 0 z

/-- Σ (-1)^j y^(2j+i) / (2j+i)! from a term on: `t` is that term, `d` its index, `pos` its sign. -/
def trigSum (q : Nat) : Nat → Nat → Bool → Nat → Int
  | 0, _, _, _ => 0
  | n + 1, d, pos, t => (if pos then (t : Int) else -t) + trigSum q n (d + 2) (!pos) (fpMul t q / ((d + 1) * (d + 2)))

/-- sin(πu) for 0 ≤ u ≤ 1/2, by the sine below 1/4 and the cosine above. -/
def fpSinPi (u : Nat) : Nat :=
  if 4 * u ≤ fpOne then let y := fpMul fpPi u; (trigSum (fpMul y y) 40 1 true y).toNat
  else let y := fpMul fpPi (fpOne / 2 - u); (trigSum (fpMul y y) 40 0 true fpOne).toNat

/-- sin(πt) for 0 ≤ t < 2: the sign and the magnitude. -/
def fpSinPiFull (t : Nat) : Bool × Nat :=
  let neg := decide (fpOne ≤ t)
  let u := t % fpOne
  (neg, fpSinPi (if 2 * u > fpOne then fpOne - u else u))

/-- Σ 2^k x^(2k+1) / (1·3·…·(2k+1)), `t` being term k and `q` x². -/
def erfSum (q : Nat) : Nat → Nat → Nat → Nat
  | 0, _, _ => 0
  | n + 1, k, t => t + erfSum q n (k + 1) (2 * fpMul t q / (2 * k + 3))

/-- erf x for 0 ≤ x < 6. -/
def fpErf (x : Nat) : Nat :=
  let q := fpMul x x
  fpMul (fpMul fpTwoOverRootPi (fpExpNeg q)) (erfSum q 320 0 x)

/-- tanh x for 0 ≤ x. -/
def fpTanh (x : Nat) : Nat := let e := fpExpNeg (2 * x); (fpOne - e) * fpOne / (fpOne + e)

/-- The integer square root: the largest y with y² ≤ n, by bits from 2^k down. -/
def isqrt (n : Nat) : Nat → Nat → Nat
  | 0, y => y
  | k + 1, y => isqrt n k (if (y + 2 ^ k) * (y + 2 ^ k) ≤ n then y + 2 ^ k else y)

/-- A fixed-point magnitude as an exact value. -/
def fpNum (neg : Bool) (m : Nat) : Num := .fin neg m (-320)

/-- The value m × 2^e is an integer. -/
def isIntegral (m : Nat) (e : Int) : Bool := e ≥ 0 || decide (m % 2 ^ (-e).toNat = 0)

/-- 2^x of a finite nonzero x (R264: exact for an integer). -/
def ex2Num (neg : Bool) (m : Nat) (e : Int) : Num :=
  if (log2 m : Int) + e ≥ 9 then .fin false 1 (if neg then -600 else 600)
  else
    let x := fpOf m e
    let n : Int := if neg then -((x + fpOne - 1) / fpOne : Nat) else (x / fpOne : Nat)
    let f : Nat := if neg then (n.natAbs * fpOne) - x else x % fpOne
    if f = 0 then .fin false 1 n else .fin false (fpExp (fpMul f fpLn2)) (n - 320)

/-- log2 x of a finite positive x that is not 1. -/
def lg2Num (m : Nat) (e : Int) : Num :=
  let k : Int := (log2 m : Int) + e
  let u := m * fpOne / 2 ^ log2 m
  let v : Int := k * (fpOne : Nat) + (if u = fpOne then 0 else fpLn u * fpOne / fpLn2 : Nat)
  fpNum (decide (v < 0)) v.natAbs

/-- 1/x of a finite nonzero x, with a sticky bit below. -/
def rcpNum (neg : Bool) (m : Nat) (e : Int) : Num :=
  let n := 2 ^ 200
  .fin neg (2 * (n / m) + b2n (decide (n % m ≠ 0))) (-e - 201)

/-- √x of a finite positive x, with a sticky bit below. -/
def sqrtNum (m : Nat) (e : Int) : Num :=
  let m' := if e % 2 = 0 then m else 2 * m
  let e' := if e % 2 = 0 then e else e - 1
  let n := m' * 2 ^ 160
  let y := isqrt n 120 0
  .fin false (2 * y + b2n (decide (y * y ≠ n))) (e' / 2 - 81)

/-- 1/√x of a finite positive x, with a sticky bit below. -/
def rsqNum (m : Nat) (e : Int) : Num :=
  let m' := if e % 2 = 0 then m else 2 * m
  let e' := if e % 2 = 0 then e else e - 1
  let n := 2 ^ 240 / m'
  let y := isqrt n 125 0
  .fin false (2 * y + b2n (decide (y * y * m' ≠ 2 ^ 240))) (-e' / 2 - 121)

/-- What a CFU function gives a value (R262, Table 7-4): the exact or nearly exact value, and the EXC of Table 7-4. -/
def cfuVal (op : Nat) (x : Num) : Num × Bool :=
  match op, x with
  | _, .nan => (.nan, false)
  | 0x90, .inf neg => (if neg then .fin false 0 0 else .inf false, false)
  | 0x90, .fin neg m e => (if m = 0 then .fin false 1 0 else ex2Num neg m e, false)
  | 0x91, .inf neg => if neg then (.nan, true) else (.inf false, false)
  | 0x91, .fin neg m e =>
    if m = 0 then (.inf true, true) else if neg then (.nan, true)
    else if m = 2 ^ log2 m && (log2 m : Int) + e = 0 then (.fin false 0 0, false) else (lg2Num m e, false)
  | 0x92, .inf neg => (.fin neg 0 0, false)
  | 0x92, .fin neg m e => if m = 0 then (.inf neg, true) else (rcpNum neg m e, false)
  | 0x93, .inf neg => if neg then (.nan, true) else (.fin false 0 0, false)
  | 0x93, .fin neg m e => if m = 0 then (.inf neg, true) else if neg then (.nan, true) else (rsqNum m e, false)
  | 0x94, .inf neg => if neg then (.nan, true) else (.inf false, false)
  | 0x94, .fin neg m e => if m = 0 then (.fin neg 0 0, false) else if neg then (.nan, true) else (sqrtNum m e, false)
  | 0x95, .inf _ => (.nan, true)
  | 0x95, .fin neg m e =>
    if m = 0 || isIntegral m e then (.fin neg 0 0, false)
    else let (n, v) := fpSinPiFull (fpOf m e % (2 * fpOne)); (fpNum (n != neg) v, false)
  | 0x96, .inf _ => (.nan, true)
  | 0x96, .fin _ m e =>
    if m = 0 then (.fin false 1 0, false)
    else if e ≥ 1 then (.fin false 1 0, false)
    else
      let (n, v) := fpSinPiFull ((fpOf m e + fpOne / 2) % (2 * fpOne))
      if v = 0 then (.fin false 0 0, false) else (fpNum n v, false)
  | 0x97, .inf neg => (.fin neg 1 0, false)
  | 0x97, .fin neg m e =>
    if m = 0 then (.fin neg 0 0, false)
    else if (log2 m : Int) + e ≥ 6 then (fpNum neg (fpOne - 1), false)
    else (fpNum neg (fpTanh (fpOf m e)), false)
  | 0x98, .inf neg => (.fin neg 1 0, false)
  | 0x98, .fin neg m e =>
    if m = 0 then (.fin neg 0 0, false)
    else if (log2 m : Int) + e ≥ 3 || fpOf m e ≥ 6 * fpOne then (fpNum neg (fpOne - 1), false)
    else (fpNum neg (fpErf (fpOf m e)), false)
  | _, _ => (.nan, false)

/-- A CFU function on an encoding: always RNE, never flushed (R262, R265). -/
def cfuEnc (op : Nat) (f : Fmt) (v : Nat) : Nat × Bool :=
  let g := f.ff.getD .f32
  let x := cfuVal op (g.decode v)
  let y := g.rne x.1
  (y.1, y.2 || x.2)

end Sys2Proof.Machine
end

