-- ==== Sys2Proof/Machine/Cfu.lean ====
section
/-! DEFINITION. The Column Function Unit (chapter 7): the firing of a CFU record, the service of requests and the
replies. Requests and replies are flights of their region (R260). -/

namespace Sys2Proof.Machine

/-- A request, or a token forwarded like one, into the request stream (R255, R256); `ds` are the destinations that a
computed request answers, and a forwarded token has none. Each destination has a serial of its own. -/
def Region.cfuSend (R : Region) (now : Nat) (u : UnitId) (route op : Nat) (fmt : Fmt) (ds : List (BitVec 16)) (t : Token) :
    Region :=
  match R.unit? u with
  | none => R
  | some U =>
    let f : Flight := { tok := t, org := u, route := route, sid := U.nextSid, loc := .cfuRequest, since := now,
                        cfuOp := some (op, fmt, ds) }
    let R1 := R.modUnit u fun U => { U with nextSid := U.nextSid + max 1 ds.length }
    { R1 with flights := R1.flights ++ [f] }

/-- A take of a token that a CFU record forwards (R256): one token per destination into the request stream. -/
def commitCfu (s : State) (rid : Nat) (k : Take) (op : Nat) (r : Rec) : TRes → State
  | .wait => s
  | .fault c => faultTake s rid k c
  | .ok es R =>
    match R.unit? k.u with
    | none => s
    | some U =>
      if !U.canSend es then s
      else
        let R1 := R.modUnit k.u fun U => { U with credits := spend U.credits es, rot := k.q, nextTake := s.cycle + 1 }
        s.putRegion (es.foldl (fun R p => R.cfuSend s.cycle k.u (dRoute p.1) op r.fmt [] (aim p.2 p.1)) R1)

/-- THE FIRING OF A CFU RECORD (R255): ready with a credit for each destination, whether or not the ALU is free; one
request leaves with the operand, the function, the format and the destinations. -/
def cfuExec (s : State) (op : Nat) (r : Rec) : State :=
  match s.taking with
  | none => s
  | some (_, k) =>
    let es := sendsOf r k.t k.t
    match k.R.unit? k.u with
    | none => s
    | some U =>
      if !U.canSend es then s
      else
        let R1 := k.R.modUnit k.u fun U => { U with credits := spend U.credits es, rot := k.q, nextTake := s.cycle + 1 }
        s.putRegion (R1.cfuSend s.cycle k.u (dRoute r.d0) op r.fmt (es.map (·.1)) k.t)

/-- EX2. -/
def execEx2 (r : Rec) (s : State) : Out1 := .next (cfuExec s 0x90 r)
/-- LG2. -/
def execLg2 (r : Rec) (s : State) : Out1 := .next (cfuExec s 0x91 r)
/-- RCP. -/
def execRcp (r : Rec) (s : State) : Out1 := .next (cfuExec s 0x92 r)
/-- RSQ. -/
def execRsq (r : Rec) (s : State) : Out1 := .next (cfuExec s 0x93 r)
/-- SQRT. -/
def execSqrt (r : Rec) (s : State) : Out1 := .next (cfuExec s 0x94 r)
/-- SINPI. -/
def execSinpi (r : Rec) (s : State) : Out1 := .next (cfuExec s 0x95 r)
/-- COSPI. -/
def execCospi (r : Rec) (s : State) : Out1 := .next (cfuExec s 0x96 r)
/-- TANH. -/
def execTanh (r : Rec) (s : State) : Out1 := .next (cfuExec s 0x97 r)
/-- ERF. -/
def execErf (r : Rec) (s : State) : Out1 := .next (cfuExec s 0x98 r)

/-! ### Service (R257, R258, R262) -/

/-- The site column and row of a unit of a region. -/
def Region.siteX (R : Region) (u : UnitId) : Nat := 2 * R.pageX u.page + u.pos % 2
/-- The site row. -/
def Region.siteY (R : Region) (u : UnitId) : Nat := 2 * R.pageY u.page + u.pos / 2

/-- The payload of a reply and whether an element sets EXC (R262). -/
def cfuPayload (op : Nat) (f : Fmt) (t : Token) : List W32 × Bool :=
  let vs := (List.range (f.nv t.len.toNat)).map fun i => cfuEnc op f (f.get t.e i)
  (clearAbove t.len.toNat (f.pack (vs.map (·.1))), vs.any (·.2))

/-- The reply token of a request, its NODE and PORT still to be set (R255). -/
def cfuReplyToken (op : Nat) (f : Fmt) (t : Token) : Token :=
  let (e, exc) := cfuPayload op f t
  { t with fmt := f, act := .normal, kind := .data, exc := t.exc || exc, e := e }

/-- Cycles from the take at the cell to the reply (Table 7-1). -/
def cfuLat (op : Nat) (t : Token) : Nat :=
  let base := if op ≤ 0x92 then 20 else if op ≤ 0x94 then 24 else 28
  if t.len.toNat > 3 then base + 1 else base

/-- The requests waiting in a column of regions that run: the region, the cell's row, the flight. -/
def State.cfuRequests (s : State) (col : Nat) : List (Nat × Nat × Flight) :=
  s.regions.flatMap fun R =>
    if R.live then
      (R.flights.filter fun f => f.loc == .cfuRequest && R.siteX f.org == col).map fun f => (R.rid, R.siteY f.org, f)
    else []

/-- The request served next: the first cell in rotation after the one last served (R37, R258). A column that has served none begins
with the cell of row 0 (log entry 83), and of a cell's requests on several routes the oldest goes first (log entry 100): the model's
choices. -/
def State.cfuNext (s : State) (col : Nat) : Option (Nat × Nat × Flight) :=
  let cs := s.cfuRequests col
  let last := (mapGet s.cfuRot col).getD 63
  ((List.range 64).map fun i => (last + 1 + i) % 64).findSome? fun row => cs.find? fun c => c.2.1 == row

/-- CFU_REQUEST_SERVE (R258): the request is taken and computed; a forwarded token passes without being computed. -/
def execCfuRequestServe (col : Nat) (s : State) : Out1 :=
  match s.cfuNext col with
  | none => .next s
  | some (rid, row, f) =>
    let done : Flight :=
      match f.cfuOp with
      | some (op, fmt, ds) =>
        { f with tok := if ds.isEmpty then f.tok else cfuReplyToken op fmt f.tok
                 loc := .cfuReply (max s.cycle (f.since + cfuLat op f.tok)) }
      | none => { f with loc := .cfuReply s.cycle }
    .next { (s.modRegion rid fun R => { R with flights := modFirst (· == f) (fun _ => done) R.flights }) with
      cfuRot := mapPut s.cfuRot col row }

/-- A token appended to an input queue (R127). -/
def Region.enqueue (R : Region) (u : UnitId) (q : Nat) (x : QTok) : Region :=
  R.modUnit u fun U => { U with queues := modNth U.queues q fun l => l ++ [x] }

/-- The replies of a flight, D0's first (R255), or the forwarded token. -/
def cfuReplies (f : Flight) : List QTok :=
  let ds := match f.cfuOp with
    | some (_, _, ds) => ds
    | none => []
  if ds.isEmpty then [{ tok := f.tok, org := f.org, route := f.route, sid := f.sid }]
  else (List.range ds.length).map fun i =>
    { tok := aim f.tok (nth noDest ds i), org := f.org, route := f.route, sid := f.sid + i }

/-- A credit of a flight's route is owed (R38). -/
def Region.owes (R : Region) (f : Flight) : Bool := (R.unit? f.org).any fun U => decide (0 < nth 0 U.owed f.route)

/-- The first reply of a column that is due: no earlier request of its route is outstanding (R257), and no credit of the route is
owed (R38). Of due replies on several routes, which have no order, the oldest request's of a region goes first (log entry 100): the
model's choice. -/
def Region.cfuDue (R : Region) (col now : Nat) : Option Flight :=
  let fs := R.flights.filter fun f =>
    (match f.loc with
      | .cfuRequest => true
      | .cfuReply _ => true
      | _ => false) && R.siteX f.org == col
  let first (f : Flight) : Bool := (fs.find? fun g => g.org == f.org && g.route == f.route) == some f
  fs.find? fun f =>
    match f.loc with
    | .cfuReply ready => decide (ready ≤ now) && first f && !R.owes f
    | _ => false

/-- CFU_REPLY (R255): the replies enter queue Qr of the issuing cell, whose slots are reserved; a reply of a region that
is being killed is dropped (Table 7-2). -/
def execCfuReply (col : Nat) (s : State) : Out1 :=
  match s.regions.findSome? fun R => (R.cfuDue col s.cycle).map fun f => (R, f) with
  | none => .next s
  | some (R, f) =>
    let R1 := { R with flights := delFirst (· == f) R.flights }
    if R.killing then .next (s.putRegion R1)
    else .next (s.putRegion ((cfuReplies f).foldl (fun R x => R.enqueue f.org f.route x) R1))

end Sys2Proof.Machine
end

