-- ==== Sys2Proof/Machine/Steer.lean ====
section
/-! DEFINITION. The meanings of the TFU records (section 5 of The Tag and Frame Unit, opcodes 0x70 to 0x85), of the
SOURCE's emission, and of the frame pool's grant. -/

namespace Sys2Proof.Machine

/-- A TFU TAKE (R127, R188): the head that R35 chooses is taken and what it sends waits two cycles, the latency of a
simple record. -/
def tfuExec (s : State) (f : Take → TRes) : State :=
  match s.taking with
  | none => s
  | some (rid, k) => commitCell s rid k 2 0 (f k)

/-- STEER. -/
def execSteer (r : Rec) (s : State) : Out1 := .next (tfuExec s fun k => steerRes k r)
/-- MERGE. -/
def execMerge (r : Rec) (s : State) : Out1 := .next (tfuExec s fun k => mergeRes k r)
/-- GATE. -/
def execGate (r : Rec) (s : State) : Out1 := .next (tfuExec s fun k => gateRes k r)
/-- ENTER. -/
def execEnter (r : Rec) (s : State) : Out1 := .next (tfuExec s fun k => enterRes k r)
/-- NEXT. -/
def execNext (r : Rec) (s : State) : Out1 := .next (tfuExec s fun k => nextRes k r)
/-- LEAVE. -/
def execLeave (r : Rec) (s : State) : Out1 := .next (tfuExec s fun k => leaveRes k r)
/-- CALLF. -/
def execCallf (r : Rec) (s : State) : Out1 := .next (tfuExec s fun k => callfRes k r)
/-- RETF. -/
def execRetf (r : Rec) (s : State) : Out1 := .next (tfuExec s fun k => retfRes k r)

/-- The head of the queue that the turn names. -/
def State.headTok (s : State) : Option (Region × UnitId × Nat × Token) :=
  match s.turn.who with
  | .take rid u q => (s.region? rid).bind fun R => (R.head? u q).map fun x => (R, u, q, x.tok)
  | _ => none

/-- FALLOC (R179, R194): a frame is taken; where the pool has none for it the request registers at the pool MU, in the
order of arrival, and the token waits at its head. -/
def execFalloc (r : Rec) (s : State) : Out1 :=
  match s.taking with
  | some (rid, k) => .next (commitCell s rid k 2 0 (fallocRes k r))
  | none =>
    match s.headTok with
    | some (R, u, q, t) => if R.live then .next (s.putRegion (R.requestFrame u q t)) else .next s
    | none => .next s

/-- FALLOC_GRANT (R179): the oldest waiting request that a free frame serves gets the lowest one it may take; its
FALLOC sends when it is taken. -/
def execFallocGrant (rid : Nat) (s : State) : Out1 :=
  match s.region? rid with
  | none => .next s
  | some R =>
    if !R.live then .next s
    else
      let p := R.pool
      match p.waiting.findSome? fun w => (freeFrame R.cfg p.alloc w.2.2).map fun f => (w, f) with
      | none => .next s
      | some (w, f) => .next (s.putRegion (R.modPool fun p => { p with
          alloc := setAdd p.alloc f
          waiting := delFirst (· == w) p.waiting
          granted := p.granted ++ [(w.1, w.2.1, f)] }))

/-- FFREE. -/
def execFfree (r : Rec) (s : State) : Out1 := .next (tfuExec s fun k => ffreeRes k r)
/-- STICK. -/
def execStick (r : Rec) (s : State) : Out1 := .next (tfuExec s fun k => stickRes k r)
/-- PURGE. -/
def execPurge (r : Rec) (s : State) : Out1 := .next (tfuExec s fun k => purgeRes k r)
/-- CANCEL. -/
def execCancel (r : Rec) (s : State) : Out1 := .next (tfuExec s fun k => cancelRes k r)
/-- MARK. -/
def execMark (r : Rec) (s : State) : Out1 := .next (tfuExec s fun k => markRes k r)
/-- HOLD. -/
def execHold (r : Rec) (s : State) : Out1 := .next (tfuExec s fun k => holdRes k r)
/-- EOS. -/
def execEos (r : Rec) (s : State) : Out1 := .next (tfuExec s fun k => eosRes k r)

/-- SOURCE (R195, R469): the next emission of a released SOURCE, when R35 serves it. A SOURCE takes no token: one
addressed to it stays where it is. -/
def execSource (r : Rec) (s : State) : Out1 :=
  match s.turn.who with
  | .source rid u =>
    match s.region? rid with
    | none => .next s
    | some R =>
      match R.unit? u with
      | none => .next s
      | some U =>
        if !R.live || s.choice R U != some 4 || (U.source?.any fun p => U.recordBad p.1) then .next s
        else match s.sourceNext R U with
          | none => .next s
          | some (_, _, t, p) =>
            .next (s.putRegion (R.modUnit u fun U =>
              { (U.queueSends s.cycle 2 (sendsOf r t t)) with
                rot := 4, nextTake := s.cycle + 1, slots := mapPut U.slots (soff 0x80 r) (.position p) }))
  | _ => .next s

/-- SINK. -/
def execSink (r : Rec) (s : State) : Out1 := .next (tfuExec s fun k => sinkRes k r)
/-- CONST. -/
def execConst (r : Rec) (s : State) : Out1 := .next (tfuExec s fun k => constRes k r)
/-- TAGGET. -/
def execTagget (r : Rec) (s : State) : Out1 := .next (tfuExec s fun k => taggetRes k r)
/-- TAGGET.tag. -/
def execTaggetTag (r : Rec) (s : State) : Out1 := .next (tfuExec s fun k => taggetTagRes k r)
/-- TAGSET. -/
def execTagset (r : Rec) (s : State) : Out1 := .next (tfuExec s fun k => tagsetRes k r)
/-- OREDUCE. -/
def execOreduce (r : Rec) (s : State) : Out1 := .next (tfuExec s fun k => oreduceRes k r)

end Sys2Proof.Machine
end

