-- ==== Sys2Proof/Machine/Fabric.lean ====
section
/-! DEFINITION. The network (R19 to R26, R80, R82): results leaving a cell, hops, credits, gateways. -/

namespace Sys2Proof.Machine

/-! ### Results leave (R131, R132) -/

/-- ALU_RESULT_EMIT (R132): one due result starts along its circuit, in take order on each route. Firings taken before a
freeze still leave (R133). -/
def execAluResultEmit (rid : Nat) (u : UnitId) (s : State) : Out1 :=
  match (s.region? rid).bind fun R => R.emitNext s.cycle u with
  | none => .next s
  | some R => .next (s.putRegion R)

/-! ### Hops (R19 to R23) -/

/-- Where a flight stands on a circuit: site, IN and CIN. -/
def Flight.place? (f : Flight) : Option (Nat × Nat × Nat × Nat) :=
  match f.loc with
  | .at page pos inp cin => some (page, pos, inp, cin)
  | _ => none

/-- The switch entry that carries a flight on, with its index. -/
def Region.entryOf (R : Region) (f : Flight) : Option (Nat × W32) :=
  match f.place? with
  | some (page, pos, inp, cin) => (R.unit? ⟨page, pos⟩).bind (·.entry? inp cin)
  | none => none

/-- The links that an entry sends on; a gateway end sends on none (R79). -/
def outLinks (e : W32) : List Nat := if seLoc e && seEnd e = 3 then [] else seOut e

/-- The number of a circuit at a switch. -/
def circuitNo (f : Flight) : Nat :=
  match f.loc with
  | .at _ _ inp cin => inp * 16 + cin
  | _ => 0

/-- The column of a site of the device. -/
def Region.switchX (R : Region) (page pos : Nat) : Nat := 2 * R.pageX page + pos % 2

/-- The number of a switch of the device. -/
def Region.switchNo (R : Region) (page pos : Nat) : Nat := (2 * R.pageY page + pos / 2) * 128 + R.switchX page pos

/-- The number of the link that leaves a switch in a direction. -/
def Region.linkNo (R : Region) (page pos dir : Nat) : Nat := 4 * R.switchNo page pos + (dir - 4)

/-- The first cycle at which a token sent over a link now is at the next switch: a die crossing takes six cycles at least (R24). -/
def Region.arrival (R : Region) (now page pos dir : Nat) : Nat :=
  if (dir = 5 && R.switchX page pos == 63) || (dir = 7 && R.switchX page pos == 64) then now + 5 else now

/-- Flight `f` goes before flight `g` on a link of their switch (R23): one that has waited 256 cycles first, the longest waiting
first among several, and otherwise in rotation after the circuit that the link served last. A switch serves one region's
circuits. -/
def hopBefore (now last : Nat) (f g : Flight) : Bool :=
  let old (x : Flight) : Bool := decide (x.since + 256 ≤ now)
  let rot (x : Flight) : Nat := (circuitNo x + 127 - last % 128) % 128
  if old f && old g && f.since ≠ g.since then decide (f.since < g.since)
  else if old f != old g then old f
  else decide (rot f ≤ rot g)

/-- The flight may hop: it is the oldest of its circuit at the switch (R21), has been there for a cycle (R19), and no
flight that competes with it for a link goes before it on that link. A link that has served no circuit yet begins with circuit 0
(log entry 83). -/
def Region.mayHop (R : Region) (now : Nat) (rot : SMap Nat) (f : Flight) : Bool :=
  match f.place? with
  | none => false
  | some (page, pos, _, _) =>
    let here := R.flights.filter fun g =>
      match g.loc with
      | .at p q _ _ => p == page && q == pos
      | _ => false
    let heads := here.filter fun g => (here.find? fun h => circuitNo h == circuitNo g) == some g
    let ls := ((R.entryOf f).map fun e => outLinks e.2).getD []
    let last (d : Nat) : Nat := (mapGet rot (R.linkNo page pos d)).getD 127
    decide (f.since < now) && heads.contains f && heads.all fun g =>
      g == f || (((R.entryOf g).map fun e => outLinks e.2).getD []).all fun d => !ls.contains d || hopBefore now (last d) f g

/-- A flight's copy at an end of its circuit (R20): appended to a queue or an island channel (R127), put into the CFU
request stream, or held at a gateway. -/
def Region.arriveEnd (R : Region) (now : Nat) (f : Flight) (page pos index : Nat) (e : W32) : Region :=
  let x : QTok := { tok := f.tok, org := f.org, route := f.route, sid := f.sid }
  match seEnd e with
  | 0 => R.enqueue ⟨page, pos⟩ (seQ e) x
  | 1 =>
    match R.islandAt page pos with
    | some u => R.enqueue u 0 x
    | none => R
  | 2 => { R with flights := R.flights ++ [{ f with loc := .cfuRequest, since := now }] }
  | _ =>
    let i := ((R.unit? ⟨page, pos⟩).map fun U => seCap (nth 0#32 U.switch index)).getD 0
    { R with flights := R.flights ++ [{ f with loc := .gateway page pos index, since := now, cap := mapGet R.cfg.caps i }] }

/-- TOKEN_HOP (R19, R20): flight `k` of a region goes one hop on: into the end at this site, and a copy over every link
that the entry names, all in the same cycle. -/
def execTokenHop (rid k : Nat) (s : State) : Out1 :=
  match s.region? rid with
  | none => .next s
  | some R =>
    match R.flights[k]? with
    | none => .next s
    | some f =>
      match f.place?, R.entryOf f with
      | some (page, pos, _, _), some (i, e) =>
        if !R.mayHop s.cycle s.linkRot f then .next s
        else
          let R0 := { R with flights := delNth R.flights k }
          let R1 := if seLoc e then R0.arriveEnd s.cycle f page pos i e else R0
          let R2 := (outLinks e).foldl (fun R d =>
            match R.neighbour page pos d with
            | some (p, q) => { R with flights := R.flights ++ [{ f with loc := .at p q (opposite d) (seCout e), since := R.arrival s.cycle page pos d }] }
            | none => R) R1
          let s1 := s.putRegion R2
          .next { s1 with linkRot := (outLinks e).foldl (fun m d => mapPut m (R.linkNo page pos d) (circuitNo f)) s1.linkRot }
      | _, _ => .next s

/-! ### Credits (R22, R80, R82) -/

/-- Markers and end-of-stream tokens of a unit that waited for a credit leave (R61, R22). -/
def Region.forwardMore (R : Region) (now : Nat) (u : UnitId) : Region :=
  match R.unit? u with
  | none => R
  | some U =>
    U.recWords.foldl (fun R w =>
      let (op, r) := U.recAt w
      let (es, R1) := R.forwards u w op r
      match R1.unit? u with
      | none => R
      | some U1 =>
        if es.isEmpty || !U1.canSend es then R
        else if cfuOp op then
          es.foldl (fun R p => R.cfuSend now u (dRoute p.1) op r.fmt [] (aim p.2 p.1))
            (R1.modUnit u fun U => { U with credits := spend U.credits es })
        else if u.pos ≤ 2 then R1.modUnit u fun U => U.queueSends now 2 es
        else R1.sendNow now u es) R

/-! ### Rings of full circuits (R38, R42, R129) -/

/-- What the record of a queue's head sends: on these circuits its firing needs credits. A link or call record waits for what is
outside the region (R38). -/
def Site.headSends (U : Site) (q : Nat) : Sends :=
  match (nth [] U.queues q).head? with
  | none => []
  | some x => match U.recOf x.tok with
    | some (op, r) => if linkOp op then [] else sendsOf r x.tok x.tok
    | none => []

/-- The routes on which the head of a queue lacks a credit. -/
def Site.headLacks (U : Site) (q : Nat) : List Nat :=
  let es := U.headSends q
  (List.range 4).filter fun r => decide (nth 0 U.credits r < onRoute es r)

/-- The queues in which the tokens of a route stand at their ends. -/
def Region.queuesOf (R : Region) (U : Site) (route : Nat) : List (UnitId × Nat) :=
  ((R.ends U route).filterMap id).flatMap fun e => (R.endVia 4 e.1).filterMap fun x => match x with
    | .queue v q => some (v, q)
    | .island v => some (v, 0)
    | .cfu => some (U.id, route)
    | .gateway _ _ _ => none

/-- The queues whose heads the head of a queue waits for: those at the ends of the circuits that it lacks a credit of. -/
def Region.waitsFor (R : Region) (x : UnitId × Nat) : List (UnitId × Nat) :=
  match R.unit? x.1 with
  | none => []
  | some U => (U.headLacks x.2).flatMap (R.queuesOf U)

/-- The queues that heads wait for, and those that theirs wait for, in at most `n` rounds. -/
def Region.waitChain (R : Region) : Nat → List (UnitId × Nat) → List (UnitId × Nat)
  | 0, seen => seen
  | n + 1, seen =>
    let more := ((seen.flatMap R.waitsFor).eraseDups).filter fun x => !seen.contains x
    if more.isEmpty then seen else Region.waitChain R n (seen ++ more)

/-- A circuit of which the head of a queue waits for its own take: the circuits of a ring are full, and every one of its heads waits
for the next. All of them are taken in one cycle, the credit of each before the reservations of the one behind it (R129). -/
def Region.ringAt (R : Region) (x : UnitId × Nat) : Option (UnitId × Nat) :=
  if (R.waitChain (4 * R.units.length) (R.waitsFor x)).contains x then
    match R.unit? x.1 with
    | none => none
    | some U => ((U.headLacks x.2).find? fun r =>
        (R.waitChain (4 * R.units.length) (R.queuesOf U r)).contains x).map fun r => (x.1, r)
  else none

/-- A route whose circuit has fewer slots than the head's record sends tokens on it, every one of them free. -/
def Region.narrowAt (R : Region) (x : UnitId × Nat) : Option (UnitId × Nat) :=
  match R.unit? x.1 with
  | none => none
  | some U => ((U.headLacks x.2).find? fun r => match R.routeSlots U r with
    | some n => n == nth 0 U.credits r && !((nth [] U.queues x.2).any fun y => (U.recOf y.tok).any fun p => cfuOp p.1)
    | none => false).map fun r => (x.1, r)

/-- The origin and route that a credit is given in advance (R38, R129; log entry 19): none has had one already. -/
def Region.inAdvance (R : Region) : Option (UnitId × Nat) :=
  let places := R.units.flatMap fun U => (List.range U.queues.length).map fun q => (U.id, q)
  (places.findSome? fun x => (R.ringAt x).orElse fun _ => R.narrowAt x).filter fun p =>
    (R.unit? p.1).all fun U => nth 0 U.owed p.2 == 0

/-- A credit given in advance of its return. -/
def Site.advance (U : Site) (route : Nat) : Site :=
  { U with credits := modNth U.credits route (· + 1), owed := modNth U.owed route (· + 1) }

/-- The region in which a ring of full circuits goes on, if it has one. -/
def Region.relieve (R : Region) : Region :=
  match R.inAdvance with
  | none => R
  | some (u, r) => R.modUnit u fun U => U.advance r

/-! ### Gateways (R25, R82, R420) -/

/-- Every end of the circuit that an ingress entry begins is a queue or an island with a record at the token's NODE. -/
def Region.ingressOk (R : Region) (e : Nat) (t : Token) : Bool :=
  let ends := R.ingressEnds e
  bit e 31 && !ends.isEmpty && ends.all fun x =>
    match x with
    | some (.queue u _, _) => ((R.unit? u).map fun U => U.mark t.node.toNat == 1).getD false
    | some (.island u, _) => ((R.unit? u).map fun U => U.mark t.node.toNat == 1).getD false
    | _ => false

/-- INGRESS_PLACE (R82): a token at the receiving gateway is placed through its ingress entry onto the named site's
outward link, under CIN, a crossing between the dies no sooner than 6 cycles after it began (R24); the freezing fault "bad destination" where the entry is invalid or NODE begins no record at an
end. -/
def execIngressPlace (rid k : Nat) (s : State) : Out1 :=
  match s.region? rid with
  | none => .next s
  | some R =>
    match R.flights[k]? with
    | none => .next s
    | some f =>
      match f.loc with
      | .ingress eport =>
        let e := ((mapGet R.cfg.ingress eport).getD 0#32).toNat
        if !R.live || (R.flights.take k).any fun g => g.loc == .ingress eport then .next s
        else if f.org == ⟨rid, 7⟩ && decide (s.cycle < f.since + 6) then .next s
        else if !R.ingressOk e f.tok then
          .next (takeFault s rid (mkFault ⟨bits e 23 12, 7⟩ f.tok.node f.tok .badDestination 0))
        else
          let g := { f with loc := .at (bits e 23 12) (bits e 11 10) (bits e 30 28) (bits e 27 24), since := s.cycle }
          .next (s.putRegion { R with flights := R.flights.set k g })
      | _ => .next s

end Sys2Proof.Machine
end

