-- ==== Sys2Proof/Machine/MemUnit.lean ====
section
/-! DEFINITION. The Memory Unit (chapter 6): the take of each memory record, wave order, the performance of accesses on
slices and on global memory, retirement, waiters, the request port, the home agent's read-modify-writes. -/

namespace Sys2Proof.Machine

/-- THE TAKE OF A MEMORY RECORD (R205): its access enters the access buffer. -/
def memExec (s : State) (op : Nat) (r : Rec) : State :=
  match s.taking with
  | none => s
  | some (rid, k) => commitMu s rid k (memRes k op r)

/-- LD. -/
def execLd (r : Rec) (s : State) : Out1 := .next (memExec s 0xA0 r)
/-- ST. -/
def execSt (r : Rec) (s : State) : Out1 := .next (memExec s 0xA1 r)
/-- LDACQ. -/
def execLdacq (r : Rec) (s : State) : Out1 := .next (memExec s 0xA2 r)
/-- STREL. -/
def execStrel (r : Rec) (s : State) : Out1 := .next (memExec s 0xA3 r)
/-- LDS. -/
def execLds (r : Rec) (s : State) : Out1 := .next (memExec s 0xA4 r)
/-- LDE. -/
def execLde (r : Rec) (s : State) : Out1 := .next (memExec s 0xA5 r)
/-- STF. -/
def execStf (r : Rec) (s : State) : Out1 := .next (memExec s 0xA6 r)
/-- STW. -/
def execStw (r : Rec) (s : State) : Out1 := .next (memExec s 0xA7 r)
/-- FEGET. -/
def execFeget (r : Rec) (s : State) : Out1 := .next (memExec s 0xA8 r)
/-- FESET. -/
def execFeset (r : Rec) (s : State) : Out1 := .next (memExec s 0xA9 r)
/-- ATOM. -/
def execAtom (r : Rec) (s : State) : Out1 := .next (memExec s 0xAA r)
/-- CAS. -/
def execCas (r : Rec) (s : State) : Out1 := .next (memExec s 0xAB r)
/-- RED. -/
def execRed (r : Rec) (s : State) : Out1 := .next (memExec s 0xAC r)
/-- CHUNK. -/
def execChunk (r : Rec) (s : State) : Out1 := .next (memExec s 0xAD r)
/-- DRAIN. -/
def execDrain (r : Rec) (s : State) : Out1 := .next (memExec s 0xAE r)
/-- FENCE. -/
def execFence (r : Rec) (s : State) : Out1 := .next (memExec s 0xAF r)
/-- SYNCINV. -/
def execSyncinv (r : Rec) (s : State) : Out1 := .next (memExec s 0xB0 r)

/-! ### Wave order (R215, R218, R219) -/

/-- Two accesses are of one chain and context. -/
def Access.sameContext (a b : Access) : Bool :=
  mrChain a.r == mrChain b.r && a.hdr.tag == b.hdr.tag && a.hdr.frame == b.hdr.frame

/-- The iteration of the context before has retired its TAIL, where the chain orders iterations (R219). -/
def Region.iterReady (R : Region) (m : Mu) (a : Access) : Bool :=
  let tw := R.cfg.tw
  let v := inner tw a.hdr.tag
  !R.chainIter (mrChain a.r) || decide (v = 0)
    || m.iters.any fun d => d.chain == mrChain a.r && d.round == a.hdr.round && d.tag == setInner tw a.hdr.tag (v - 1)

/-- The access is in turn (R215). -/
def Region.inTurn (R : Region) (m : Mu) (a : Access) : Bool :=
  (mrHead a.r || (match m.wave? (mrChain a.r) a.hdr with
    | some w => w.last == some (mrPred a.r)
    | none => false)) && R.iterReady m a

/-- The accesses between LAST and an access in wave order, nearest first, when every one of them is in the buffer and the
first is in turn (R218). -/
def Region.between (R : Region) (m : Mu) : Nat → Access → Option (List Access)
  | 0, _ => none
  | n + 1, a =>
    if R.inTurn m a then some []
    else match m.accs.find? fun b => b.id != a.id && b.sameContext a && mrOwn b.r == mrPred a.r with
      | none => none
      | some b => (R.between m n b).map (b :: ·)

/-- An access has not been performed and may still touch memory. -/
def Access.open (a : Access) : Bool := a.st != .performed && a.st != .cancelled && a.st != .lost

/-- The lines that an access touches, with its address space (R218). -/
def Region.linesOf (R : Region) (a : Access) : List (Bool × Nat) :=
  a.addrs.map fun x => (mrGlobal a.r, (if mrGlobal a.r then R.chainBase (mrChain a.r) + x else x) / 64)

/-- Two accesses touch one line and one of them writes. -/
def Region.conflict (R : Region) (a b : Access) : Bool :=
  (writesMem a.op || writesMem b.op) && (R.linesOf a).any (R.linesOf b).contains

/-- R218: the access may be performed now, in turn or by overtaking. -/
def Region.mayPerform (R : Region) (m : Mu) (a : Access) : Bool :=
  match R.between m (m.accs.length + 1) a with
  | none => false
  | some bs => bs.isEmpty
      || (!isRelease a.op && bs.all fun b => !isAcquire b.op && !(b.open && R.conflict a b))

/-- A weak global store or RED of the chain, taken before access `id`, has been answered but not yet accepted into a Siding (R53,
R225). -/
def Mu.weakPending (m : Mu) (chain id : Nat) : Bool :=
  m.accs.any fun b => decide (b.id < id) && mrChain b.r == chain && mrGlobal b.r && (b.op == 0xA1 || b.op == 0xAC) && b.sent && b.open

/-- Chain of an STR record (Table 8-5: AUX[15:10]). -/
def StrOp.chain (o : StrOp) : Nat := bits o.r.aux.toNat 15 10

/-- Operations of STR islands that name a chain, by opcode. -/
def Region.strPending (R : Region) (chain : Nat) (ops : List Nat) : Bool :=
  R.units.any fun U =>
    match U.eng with
    | .str x => x.ops.any fun o => o.chain == chain && ops.contains o.op && !o.sent
    | _ => false

/-- The record at `node` of a unit is an NRED that names a chain (Table 13-5: AUX[15:10]). -/
def Region.nredOf (R : Region) (chain : Nat) (u : UnitId) (node : BitVec 12) : Bool :=
  match (R.unit? u).map (·.recAt node.toNat) with
  | some (op, r) => op == 0xF3 && bits r.aux.toNat 15 10 == chain
  | none => false

/-- An NRED of a chain has been taken and its result is not placed yet (R428): its contribution waits to leave, its instance is open,
or its words wait for the MARK. -/
def Region.nredPending (R : Region) (insts : List Inst) (chain : Nat) : Bool :=
  let mine (p : UnitId × BitVec 16 × Token) : Bool := R.nredOf chain p.1 p.2.2.node
  (R.sends.any fun x => match x.pkt.body with
    | .contribution _ _ _ _ _ _ => x.report.any mine
    | _ => false)
    || (insts.any fun x => x.out.isNone && x.loc.any fun l => l.1 == R.rid && mine l.2.2)
    || R.items.any fun i => i.onWay && i.stamped.isNone && i.dest.any fun d => mine (d.1, d.2, i.tok)

/-- DRAIN's path is clear (R248): every earlier operation of its chain that writes into the path has completed. Of an MU's accesses those
taken before it are earlier; of operations of other units, those in flight (log entry 86). -/
def Region.drained (R : Region) (insts : List Inst) (m : Mu) (a : Access) : Bool :=
  let c := mrChain a.r
  match mrScope a.r with
  | 0 => !(m.accs.any fun b => b.id < a.id && mrChain b.r == c && !mrGlobal b.r && writesMem b.op && b.open)
      && !R.strPending c [0xC0, 0xC3, 0xC5] && !R.nredPending insts c
  | 1 => !(m.accs.any fun b => b.id < a.id && mrChain b.r == c && mrGlobal b.r && writesMem b.op && b.open)
      && !R.strPending c [0xC1, 0xC4, 0xC6]
  | 2 => !R.strPending c [0xC0, 0xC1, 0xC2, 0xC3, 0xC4, 0xC5, 0xC6]
  | _ => true

/-- Waits of a release, fence or drain beyond its turn (R53, R225, R226, R231, R248): a STREL at any scope, any other release and
a FENCE at .dv or .sy wait until the chain's earlier weak stores have been translated and accepted. -/
def Region.releaseReady (R : Region) (insts : List Inst) (m : Mu) (a : Access) : Bool :=
  if a.op = 0xAE then R.drained insts m a
  else if a.op = 0xA3 || (isRelease a.op && decide (2 ≤ mrScope a.r)) then !m.weakPending (mrChain a.r) a.id
  else true

/-! ### Withdrawing an access (R52, R55, R235) -/

/-- The operands of an access return to where they were (R52, R55): those that waited, to their slots, and the token that
completed the set to the head of its queue; the entry, its wave and its reserved credits go. -/
def Region.undoFiring (R : Region) (page : Nat) (a : Access) : Region :=
  let u : UnitId := ⟨page, 3⟩
  match R.unit? u with
  | none => R
  | some U =>
    let t := a.last.tok
    let g := groupOf R U a.op a.r t
    let others := a.ops.filter fun o => o.1 != t.port && !o.2.1
    let slots0 := if t.act = .sticky && matching a.op a.r then
        clearSlots U.slots (((waitingOps (groupItems U.slots g)).filter fun w => w.1.port == t.port.toNat).map (·.2))
      else U.slots
    let slots := others.foldl (fun sl o => storeIn sl g (.operand false o.2.2)) slots0
    let R1 := R.modUnit u fun U =>
      { U with
        slots := slots
        queues := modNth U.queues a.queue fun l => a.last :: l
        credits := if a.sent then U.credits else unspend U.credits (sendsOf a.r a.hdr a.hdr) }
    let R2 := R1.modMu page fun m =>
      let accs := m.accs.filter fun b => b.id != a.id
      { m with
        accs := accs
        waves := m.waves.filter fun w => w.last.isSome
          || accs.any fun b => mrChain b.r == w.chain && b.hdr.tag == w.tag && b.hdr.frame == w.frame
        waiters := m.waiters }
    let R3 := { R2 with units := R2.units.map fun V =>
      match V.eng with
      | .mu m => { V with eng := .mu { m with
          held := m.held.filter fun c => !(c.key == R.keyOf a c.key.idx)
          portq := m.portq.filter fun q => !(q.unit == u && q.acc == a.id)
          waiters := m.waiters.filter fun q => !(q.unit == u && q.acc == a.id)
          refused := m.refused.filter fun q => !(q.unit == u && q.acc == a.id) } }
      | _ => V }
    if a.last.org.pos = 7 then R3
    else R3.modUnit a.last.org fun V => V.takeBack a.last.route

/-- A fault of an access: a precise one undoes the firing first (R52); one whose completion was sent leaves it (R231). -/
def accFault (s : State) (R : Region) (page : Nat) (a : Access) (c : Cause) (detail : Nat) (va : Bool) : State :=
  let f := if va then mkVaFault ⟨page, 3⟩ a.node a.hdr c detail else mkFault ⟨page, 3⟩ a.node a.hdr c detail
  let R1 := if a.sent then R else R.undoFiring page a
  takeFault (s.putRegion R1) R.rid f

/-! ### Repeats (R232) -/

/-- The recorded values of an access whose keys are all kept. -/
def recorded (R : Region) (store : List Dedup) (a : Access) : Option (List Nat) :=
  if !sideEffect a.op then none
  else
    let n := if returnsValues a.op then a.count else 1
    let es := (List.range n).map fun i => store.find? fun d => d.key == R.keyOf a i
    if !es.isEmpty && es.all (·.isSome) then
      some (if returnsValues a.op then es.map fun e => ((e.bind (·.value)).getD 0#64).toNat
        else (List.range a.count).map fun _ => 0)
    else none

/-- The held entries of an access that its round's replay has met again (R364). -/
def Region.metAgain (R : Region) (a : Access) : Region :=
  { R with held := R.held.map fun h =>
      if h.kept && (h.key :: h.also).any fun x => { R.keyOf a x.idx with rid := x.rid } == x then { h with kept := false } else h }

/-- The provisional lines of an access that its round's replay has met again: the region reads them as they stand (R364). -/
def State.metLines (s : State) (R : Region) (a : Access) : State :=
  let lines := (s.home.dedup.filter fun d => d.key == R.keyOf a d.key.idx).map (·.line)
  let met (p : Prov) : Prov :=
    if p.rid == R.keyRid && p.round == a.hdr.round && lines.contains p.line then { p with kept := p.kept.filter (· != R.rid) } else p
  { s with home := { s.home with prov := s.home.prov.map met } }

/-- The deduplication entries that an access takes (R232). -/
def Access.dedupNeed (a : Access) : Nat := if !sideEffect a.op then 0 else if returnsValues a.op then a.count else 1

/-- The entries that accesses under way will take: those issued to a target or waiting there. -/
def Mu.dedupDue (m : Mu) : Nat :=
  ((m.accs.filter fun b => b.st != .buffered && b.open).map Access.dedupNeed).sum

/-- Room in the deduplication store for an access (R232), beside the entries kept and those under way: one that is under way
itself has had its room since it was issued. -/
def Mu.dedupRoom (m : Mu) (a : Access) : Bool :=
  a.st != .buffered || decide (m.dedup.length + m.dedupDue + a.dedupNeed ≤ 4096)

/-! ### Region SRAM -/

/-- The alignment of an access's addresses (R208). -/
def Access.align (a : Access) : Nat := if a.op = 0xAD then 16 else if a.r.fmt.pair then 8 else 4

/-- The access must lie in one page's slice (R214). -/
def oneSlice (op : Nat) : Bool := op ∈ [0xA4, 0xA5, 0xA7, 0xA9, 0xB0]

/-- An access to region SRAM performed on its own page, the other pages asked through their request ports (R205). -/
def sramPerform (s : State) (R : Region) (page : Nat) (a : Access) : State :=
  match R.checkSram a.align a.addrs with
  | some (c, x) => accFault s R page a c x false
  | none =>
    let pages := (a.addrs.map saPage).eraseDups
    if oneSlice a.op && pages.length > 1 then accFault s R page a .addressRange (nth 0 a.addrs 0) false
    else
      let own := if pages.contains page then R.performSlice s.cycle page a page else .ok R
      match own with
      | .wait => s
      | .fault c d => accFault s R page a c d false
      | .ok R1 =>
        let away := pages.filter (· != page)
        let R2 := away.foldl (fun R p => R.modMu p fun m => { m with portq := m.portq ++ [{ unit := ⟨page, 3⟩, acc := a.id }] }) R1
        s.putRegion (if away.isEmpty then R2 else R2.modAcc page a.id fun x =>
          if x.st = .buffered then { x with st := .issued } else x)

/-- An access of the page's own MU to its slice can be performed now: requests of its own page come first (R37). -/
def Region.ownFirst (R : Region) (insts : List Inst) (now page : Nat) : Bool :=
  match R.mu? page with
  | none => false
  | some m => R.live && m.accs.any fun a =>
      a.st == .buffered && !mrGlobal a.r && a.addrs.any (fun x => saPage x == page) && (R.checkSram a.align a.addrs).isNone
        && R.mayPerform m a && R.releaseReady insts m a && m.dedupRoom a && (recorded R m.dedup a).isNone
        && !(m.held.any fun c => c.key == R.keyOf a c.key.idx)
        && (match R.performSlice now page a page with | .ok _ => true | _ => false)

/-- MU_REQUEST_PORT_SERVE (R205, R37): the oldest request of another MU on this slice, when the page's own MU has none that can be
performed. -/
def execMuRequestPortServe (rid page : Nat) (s : State) : Out1 :=
  match s.region? rid with
  | none => .next s
  | some R =>
    if !(R.live || R.halting || R.st == .frozen) || R.ownFirst s.links.insts s.cycle page then .next s
    else match (R.mu? page).bind (·.portq.head?) with
      | none => .next s
      | some q =>
        let pop (R : Region) : Region := R.modMu page fun m => { m with portq := delFirst (· == q) m.portq }
        match R.acc? q.unit.page q.acc with
        | none => .next (s.putRegion (pop R))
        | some a =>
          match R.performSlice s.cycle q.unit.page a page with
          | .wait => .next s
          | .fault c d => .next (accFault s R q.unit.page a c d false)
          | .ok R1 => .next (s.putRegion (pop R1))

/-- WAITER_RETRY (R227): the access refused longest asks the slice again once its waiter list has an entry. -/
def execWaiterRetry (rid page : Nat) (s : State) : Out1 :=
  match s.region? rid with
  | none => .next s
  | some R =>
    match R.mu? page with
    | none => .next s
    | some m =>
      if !R.live || m.waiters.length ≥ 64 then .next s
      else match m.refused with
        | [] => .next s
        | q :: rest =>
          let R1 := R.modMu page fun m => { m with refused := rest }
          match R1.acc? q.unit.page q.acc with
          | none => .next (s.putRegion R1)
          | some a =>
            match R1.performSlice s.cycle q.unit.page a page with
            | .ok R2 => .next (s.putRegion R2)
            | _ => .next s

/-! ### Global memory (R212, R228, R229) -/

/-- The global addresses of an access (R212). -/
def Region.globalAddrs (R : Region) (a : Access) : List Nat := a.addrs.map fun x => R.chainBase (mrChain a.r) + x

/-- The access reads memory: a load or a read-modify-write. -/
def globalRead (op : Nat) : Bool := op ∈ [0xA0, 0xA2, 0xAA, 0xAB, 0xAD]
/-- The access writes global memory. -/
def globalWrite (op : Nat) : Bool := op ∈ [0xA1, 0xA3, 0xAA, 0xAB, 0xAC, 0xAD]


/-- Values of a global access accepted into the region's Siding (R228, R291): every word in ascending value order. -/
def Region.holdAll (R : Region) (siding : Nat) (a : Access) (gas pas : List Nat) : Region :=
  let f := a.r.fmt
  let rel := a.op == 0xA3 && decide (2 ≤ mrScope a.r)
  (List.range a.count).foldl (fun R i =>
    let va := nth 0 gas i
    let pa := nth 0 pas i
    let v := accData f a.operands 1 i
    let ws : List W32 := if f.pair then [BitVec.ofNat 32 v, BitVec.ofNat 32 (v / 2 ^ 32)] else [BitVec.ofNat 32 v]
    if a.op = 0xAC then
      R.holdRed siding va pa (mrOpx a.r) f (nth 0#32 (opAt a.operands 2).tok.e 0) (R.keyOf a i) ws
    else (List.range ws.length).foldl (fun R j =>
      R.holdWord siding (va + 4 * j) (some (pa + 4 * j)) rel (R.keyOf a 0) (nth 0#32 ws j)) R) R

/-- A global access whose every address is translated. -/
def globalPerform (s : State) (R : Region) (page : Nat) (a : Access) (ts : List Tlb) : State :=
  let gas := R.globalAddrs a
  let pas := (List.range gas.length).map fun i => (nth default ts i).paOf (nth 0 gas i)
  let rd := globalRead a.op
  let wr := globalWrite a.op
  let bad := (List.range gas.length).find? fun i => let t := nth default ts i; (rd && !t.r) || (wr && !t.w)
  let gone := (List.range gas.length).find? fun i => !windowOk s (nth 0 pas i) wr
  match s.slotOf R.part with
  | none => accFault s R page a .permission (nth 0 gas 0) true
  | some slot =>
    match bad, gone with
    | some i, _ => accFault s R page a .permission (nth 0 gas i) true
    | none, some i => accFault s R page a .physicalAddress (nth 0 gas i) true
    | none, none =>
      if R.heldUntranslated && globalRead a.op then s
      else if a.op = 0xA0 || a.op = 0xA2 then
        if pas.any fun pa => provBlocks s (some R.keyRid) pa then s
        else
          let vals := pas.map fun pa =>
            (viewWord s R slot pa).toNat + (if a.r.fmt.pair then 2 ^ 32 * (viewWord s R slot (pa + 4)).toNat else 0)
          let bad := pas.any fun pa => viewBad s R pa || (a.r.fmt.pair && viewBad s R (pa + 4))
          s.putRegion (R.finish s.cycle page (a.withErr bad) vals false)
      else if a.op = 0xA1 || a.op = 0xA3 || a.op = 0xAC then
        let sd := R.muSiding page
        let R1 := R.holdAll sd a gas pas
        match R.sidingRoom s.self sd a.hdr.round (R1.heldIn sd - R.heldIn sd) with
        | .bound => accFault s R page a .roundBound (nth 0 gas 0) true
        | .wait => s
        | .room => s.putRegion (R1.finish s.cycle page a ((List.range a.count).map fun _ => 0) false)
      else
        { (s.putRegion (R.modAcc page a.id fun x => { x with st := .home })) with
          home := { s.home with queue := s.home.queue ++ [{ key := s.slotKey slot, rid := R.rid, page := page, acc := a.id, pas := pas }] } }

/-- A global access: its checks, its translations (a TLB miss asks the PWS), its performance. A weak store or RED is
answered at issue, before translation (R231). -/
def globalAccess (s : State) (R : Region) (page : Nat) (m : Mu) (a : Access) : State :=
  let gas := R.globalAddrs a
  match gas.find? (· ≥ 2 ^ 57) with
  | some x => accFault s R page a .addressRange x false
  | none =>
    match gas.find? fun x => x % a.align ≠ 0 with
    | some x => accFault s R page a .alignment x false
    | none =>
      if (s.slotOf R.part).isNone then accFault s R page a .permission (nth 0 gas 0) true
      else
        let weak := a.op == 0xA1 || a.op == 0xAC
        let R1 := if weak && !a.sent then
            (R.sendReserved s.cycle ⟨page, 3⟩ (accessSends a [] false)).modAcc page a.id fun x => { x with sent := true, st := .issued }
          else R.modAcc page a.id fun x => { x with st := .issued }
        let a1 := { a with st := .issued, sent := a.sent || weak }
        let ts := gas.map (tlbFind m.tlb)
        match (List.range gas.length).find? fun i => (nth none ts i).isNone with
        | some i =>
          askWalk (s.putRegion R1)
            { rid := R.rid, unit := ⟨page, 3⟩, acc := a.id, va := nth 0 gas i,
              rd := globalRead a.op, wr := globalWrite a.op }
        | none => globalPerform (s.putRegion R1) R1 page a1 (ts.map (·.getD default))

/-- ACCESS_PERFORM (R222): access `k` of a page's buffer, when its turn or R218 and its waits allow it. -/
def execAccessPerform (rid page k : Nat) (s : State) : Out1 :=
  match s.region? rid with
  | none => .next s
  | some R =>
    match R.mu? page with
    | none => .next s
    | some m =>
      match m.accs[k]? with
      | none => .next s
      | some a =>
        if !R.live || !(a.st == .buffered || (a.st == .issued && mrGlobal a.r)) then .next s
        else if !R.mayPerform m a || !R.releaseReady s.links.insts m a then .next s
        else match recorded R m.dedup a with
          | some vals =>
            .next ((s.metLines R a).putRegion ((R.finish s.cycle page a vals false).metAgain a))
          | none =>
            if !m.dedupRoom a then .next s
            else if a.op = 0xAE || a.op = 0xAF then .next (s.putRegion (R.finish s.cycle page a [] false))
            else if mrGlobal a.r then .next (globalAccess s R page m a)
            else .next (sramPerform s R page a)

/-- ACCESS_RETIRE (R215): a performed or cancelled access in turn; LAST := OWN, and the TAIL frees the context's entry, which starts
afresh where another access of the context is in the buffer. -/
def execAccessRetire (rid page k : Nat) (s : State) : Out1 :=
  match s.region? rid with
  | none => .next s
  | some R =>
    match R.mu? page with
    | none => .next s
    | some m =>
      match m.accs[k]? with
      | none => .next s
      | some a =>
        if !R.live || a.open || !R.inTurn m a then .next s
        else
          let c := mrChain a.r
          let mine (w : Wave) : Bool := w.chain == c && w.tag == a.hdr.tag && w.frame == a.hdr.frame
          let more : Bool := m.accs.any fun b => b.id != a.id && b.sameContext a
          let waves := if mrTail a.r then
              (if more then m.waves.map fun w => if mine w then { w with last := none } else w else m.waves.filter fun w => !mine w)
            else m.waves.map fun w => if mine w then { w with last := some (mrOwn a.r) } else w
          let done : IterDone := { chain := c, tag := a.hdr.tag, round := a.hdr.round }
          let iters := if mrTail a.r && R.chainIter c && !m.iters.contains done then m.iters ++ [done] else m.iters
          let R1 := R.modMu page fun m => { m with accs := delNth m.accs k, waves := waves, iters := iters }
          let (es, R2) := R1.forwards ⟨page, 3⟩ a.node.toNat a.op a.r
          .next (match R2.unit? ⟨page, 3⟩ with
            | some U => if U.canSend es then s.putRegion (R2.sendNow s.cycle ⟨page, 3⟩ es) else s
            | none => s)

/-! ### The home agents (R229, R230) -/

/-- A line's bytes as they stand. -/
def lineBytes (s : State) (line : Nat) : List (Nat × Option Byte) :=
  (List.range 64).map fun i => (line * 64 + i, cellGet s.mem (line * 64 + i))

/-- A line put back as it was (R229). -/
def restoreLine (s : State) (p : Prov) : State :=
  { s with
    mem := p.old.foldl (fun m c => match c.2 with | some b => cellPut m c.1 b | none => cellDel m c.1) s.mem
    owners := match p.oldKey with
      | some k => setOwner s.owners p.line k
      | none => s.owners.filter fun o => o.line != p.line
    bad := s.bad.filter fun a => a / 64 != p.line }

/-- The new value of a global ATOM or CAS, if it writes (R242, R243). -/
def rmwNew (a : Access) (i old : Nat) : Option Nat :=
  if a.op = 0xAA then some (atomNew (mrOpx a.r) a.r.fmt old (accData a.r.fmt a.operands 1 i))
  else if old = accData a.r.fmt a.operands 1 i then some (accData a.r.fmt a.operands 2 i)
  else none

/-- A comparator entry with its line changed. -/
def Comp.modLine (c : Comp) (f : Held → Held) : Comp := match c.item with | .line h => { c with item := .line (f h) } | _ => c

/-- Words that a read-modify-write of round `round` writes: the region's held entries of them are taken up (R50), and the line is
one that it has written (R230). -/
def State.takeUp (s : State) (rid : Nat) (round : BitVec 12) (pa n : Nat) : State :=
  let news (h : Held) : List (Nat × BitVec 12) :=
    ((List.range n).map fun k => (pa / 4 % 16 + k, round)).filter fun x => bit h.mask.toNat x.1 && !h.under.contains x
  let up (h : Held) : Held :=
    if h.pa = some (pa / 64 * 64) && (match h.op with | .red _ .f32 _ => false | _ => true) then
      { h with under := h.under ++ news h }
    else h
  let keyRid := ((s.region? rid).map Region.keyRid).getD rid
  let mark (p : Prov) : Prov := if p.line == pa / 64 && p.rid == keyRid && p.round == round then { p with wrote := true } else p
  let s1 := s.modRegion rid fun R => { R with held := R.held.map up, leaving := R.leaving.map (·.modLine up) }
  { s1 with
    home := { s1.home with prov := s1.home.prov.map mark }
    comp := s1.comp.map fun c => if c.rid = rid then c.modLine up else c }

/-- What a read-modify-write sends through a peer window for value `i` (R434): its operand words. -/
def Access.atomicBody (a : Access) (i off : Nat) : Body :=
  let words (v : Nat) : List W32 := (List.range (if a.r.fmt.pair then 2 else 1)).map fun k => BitVec.ofNat 32 (v >>> (32 * k))
  let v (p : Nat) : List W32 := words (accData a.r.fmt a.operands p i)
  .atomic off a.op (mrOpx a.r) a.r.fmt (if a.op = 0xAD then [] else if a.op = 0xAA then v 1 else v 1 ++ v 2)

/-- A value of a global ATOM, CAS or CHUNK executed at its home agent: the state after, the value returned, and whether an
uncorrectable error stood in a word it read, which is then left unchanged (R206). It reads each word as the region's own writes
leave it (R50, R224). A peer's agents execute what lies in its window, and what they answer is free (R434; log entry 6). -/
def rmwValue (s : State) (rid slot : Nat) (a : Access) (i pa : Nat) : State × Nat × Bool :=
  let key := keyFor s slot pa
  let R := (s.region? rid).getD default
  let w (k : Nat) : Nat := plainWord s R slot (pa + 4 * k)
  let n := if a.op = 0xAD then 4 else if a.r.fmt.pair then 2 else 1
  let bad : Bool := (List.range n).any fun k => viewBad s R (pa + 4 * k)
  match targetOf s pa with
  | .peer x off =>
    let old : Nat := if a.op = 0xAD then (chunkStep (w 0) (w 1) (w 2) (w 3)).1 + 2 ^ 32 * (chunkStep (w 0) (w 1) (w 2) (w 3)).2
      else w 0 + (if a.r.fmt.pair then 2 ^ 32 * w 1 else 0)
    (s.toPeer R.part x (a.atomicBody i off), old, false)
  | _ =>
  if a.op = 0xAD then
    let (c, next) := chunkStep (w 0) (w 1) (w 2) (w 3)
    (if c > 0 && !bad then memWrite (s.takeUp rid a.hdr.round pa 1) key pa (toBytes 4 (next + c)) else s, c + 2 ^ 32 * next, bad)
  else
    let old := w 0 + (if a.r.fmt.pair then 2 ^ 32 * w 1 else 0)
    (match rmwNew a i old with
      | some v => if bad then s else memWrite (s.takeUp rid a.hdr.round pa n) key pa (toBytes a.bytes v)
      | none => s, old, bad)

/-- A read-modify-write that performs nothing, its key being kept, takes the region's held entries up all the same (R232, R368):
`old` is the value recorded for value `i`. -/
def State.takeUpAgain (s : State) (rid : Nat) (a : Access) (i pa old : Nat) : State :=
  if a.op = 0xAD then (if old % 2 ^ 32 = 0 then s else s.takeUp rid a.hdr.round pa 1)
  else if (rmwNew a i old).isSome then s.takeUp rid a.hdr.round pa (if a.r.fmt.pair then 2 else 1) else s

/-- The home agent of a line, one of 256 (R11); which one is free (Table 8-6). -/
def homeAgent (line : Nat) : Nat := Config.homeAgent line % 256

/-- At no home agent do `lines` come to more than `cap`; the lines may repeat. -/
def agentsHold (cap : Nat) (lines : List Nat) : Bool :=
  decide (lines.length ≤ cap)
    || lines.all fun l => decide ((lines.filter fun x => homeAgent x == homeAgent l).length ≤ cap)

/-- Every home agent has an entry for each line that it does not hold yet, of its 32 (R229). -/
def Home.provRoom (h : Home) (lines : List Nat) : Bool := agentsHold 32 (h.prov.map (·.line) ++ lines).eraseDups

/-- Every home agent has room for the keys of an access, of its 8,192 (Table 11-4). -/
def Home.dedupRoom (h : Home) (lines : List Nat) : Bool := agentsHold 8192 (h.dedup.map (·.line) ++ lines)

/-- The record that a key identifies (R232): the MU record of its chain and OWN, the STR record whose first word its OWN above
1,024 gives, or the link or call record of the unit that its value index gives (log entry 35). -/
def Region.recordOfKey (R : Region) (key : Key) : UnitId × Nat :=
  if key.own ≥ 3072 then (⟨key.idx / 4, key.idx % 4⟩, key.own - 3072) else
  let found := R.units.findSome? fun U =>
    if U.id.pos = 3 then
      (U.recWords.find? fun w =>
        let (op, r) := U.recAt w
        decide (0xA0 ≤ op) && decide (op ≤ 0xB0) && mrChain r == key.chain && mrOwn r == key.own).map fun w => (U.id, w)
    else if U.id.pos = 4 then
      (U.recWords.find? fun w =>
        w + 1024 == key.own && bits (U.recAt w).2.aux.toNat 15 10 == key.chain).map fun w => (U.id, w)
    else none
  found.getD (⟨0, 3⟩, 0)

/-- The DETAIL of a fault that names a key (Table 12-5): the fields of the key beside its TAG, as bytes 8 to 18 of a
deduplication entry lay them out (Table 12-19; log entry 10). -/
def keyDetail (k : Key) : Nat :=
  k.seq.toNat + 2 ^ 15 + 2 ^ 16 * k.round.toNat + 2 ^ 32 * k.frame.toNat + 2 ^ 48 * k.own + 2 ^ 64 * k.rid + 2 ^ 80 * k.chain

/-- A fault recorded against a key (R244, R294): the record that the key identifies, with the key's TAG, ROUND and SEQ. -/
def Region.keyFault (R : Region) (key : Key) (c : Cause) : FaultRec :=
  let (u, w) := R.recordOfKey key
  mkFault u (BitVec.ofNat 12 w) { emptyToken with tag := key.tag, frame := key.frame, round := key.round, seq := key.seq } c
    (if c = .redundancyMismatch then keyDetail key else 0)

/-- The values of a read-modify-write at its home agents, in value order: one whose key is kept performs nothing and is the recorded one
(R232, R368), any other is performed under the key that the access came with (R463). The last component names the values that an
uncorrectable error kept from their change (R206). -/
def homeValues (s : State) (R : Region) (a : Access) (q : HomeReq) : State × List Nat × List Nat :=
  (List.range q.pas.length).foldl (fun acc i =>
    let pa := nth 0 q.pas i
    match s.home.dedup.find? fun d => d.key == R.keyOf a i with
    | some d =>
      let v := (d.value.getD 0#64).toNat
      (acc.1.takeUpAgain R.rid a i pa v, acc.2.1 ++ [v], acc.2.2)
    | none =>
      let (s', v, bad) := rmwValue acc.1 R.rid (64 + q.key) a i pa
      (s', acc.2.1 ++ [v], if bad then acc.2.2 ++ [i] else acc.2.2)) (s, [], [])

/-- HOME_AGENT_RMW (R229): a global ATOM, CAS or CHUNK executes at the home agent, which keeps its keys and holds its
lines provisional for the region until the round is confirmed; a repeat of a kept key returns the recorded value (R232), after the
operands of a pair's two accesses are compared (R368). It waits for another region's provisional line, and for one of the 32
entries. -/
def execHomeAgentRmw (k : Nat) (s : State) : Out1 :=
  match s.home.queue[k]? with
  | none => .next s
  | some q =>
    let s0 := { s with home := { s.home with queue := delNth s.home.queue k } }
    match s.region? q.rid with
    | none => .next s0
    | some R =>
      match R.acc? q.page q.acc with
      | none => .next s0
      | some a =>
        let known (i : Nat) : Option Dedup := s.home.dedup.find? fun d => d.key == R.keyOf a i
        let other := (List.range q.pas.length).any fun i => (known i).any fun d => d.args != a.args
        match R.pair, other with
        | some p, true =>
          let mate := match p with | .primary x => x | .shadow x => x
          .next (takeFault (takeFault s0 R.rid (R.keyFault (R.keyOf a 0) .redundancyMismatch)) mate
            (R.keyFault (R.keyOf a 0) .redundancyMismatch))
        | _, _ =>
          let new := (List.range q.pas.length).filter fun i => (known i).isNone
          let pas := new.map (nth 0 q.pas)
          let lines := (pas.map (· / 64)).eraseDups
          if !new.isEmpty && ((pas.any fun pa => provBlocks s (some R.keyRid) pa) || !s.home.provRoom lines
              || !s.home.dedupRoom (pas.map (· / 64)) || R.heldUntranslated) then .next s
          else
            let provs := lines.filterMap fun l =>
              if s.home.prov.any fun p => p.line == l && p.rid == R.keyRid && p.round == a.hdr.round then none
              else some { kept := [], wrote := false, line := l, rid := R.keyRid, round := a.hdr.round, old := lineBytes s l, oldKey := ownerOf s.owners l }
            let s1 := ({ s0 with home := { s0.home with prov := s0.home.prov ++ provs } }).metLines R a
            let (s2, vals, bad) := homeValues s1 R a q
            let keys := ((R.dedupOf a vals).filter fun d => new.contains d.key.idx && !bad.contains d.key.idx).map fun d =>
              { d with line := nth 0 q.pas d.key.idx / 64 }
            let s3 := { s2 with home := { s2.home with dedup := s2.home.dedup ++ keys } }
            .next (s3.modRegion R.rid fun Q => Q.finish s.cycle q.page (a.withErr (!bad.isEmpty)) vals false)

/-- HOME_AGENT_ORDINAL_REPORT (R244): the report of a dropped f32 contribution reaches the Yard, and its region takes the
imprecise freezing fault "ordinal", which names the record that the key identifies. -/
def execHomeAgentOrdinalReport (s : State) : Out1 :=
  match s.home.reports with
  | [] => .next s
  | c :: rest =>
    let s1 := { s with home := { s.home with reports := rest } }
    match s.region? c.key.rid with
    | none => .next s1
    | some R => .next (takeFault s1 c.key.rid (R.keyFault c.key .ordinal))

/-- RESERVATION_EXPIRY (R230): a reservation is lost 2 microseconds after it was set. Agents below 16 are the harts. -/
def execReservationExpiry (h : Nat) (s : State) : Out1 :=
  let due (since : Nat) : Bool := decide (since + 2 * Config.microsecond ≤ s.cycle)
  if 16 ≤ h then
    .next { s with home := { s.home with resv := s.home.resv.filter fun x => !(x.1 == h && due x.2.2) } }
  else match (s.hart h).resv with
    | some (_, since) => .next (if due since then s.modHart h fun H => { H with resv := none } else s)
    | none => .next s

/-! ### Confirmed egress at the home agents (R244, R246, R293) -/

/-- The bytes of a line from before its provisional change, `n` of them from a byte on changed by `f`. -/
def Prov.change (s : State) (p : Prov) (pa n : Nat) (f : Nat → Nat) : Prov :=
  let bs := toBytes n (f (p.before s pa n))
  { p with old := p.old.map fun c => if pa ≤ c.1 && c.1 < pa + n then (c.1, some (nth 0#8 bs (c.1 - pa))) else c }

/-- `n` bytes changed by `f` at the home agent by a region's confirmed egress; a line that the region itself holds provisional is
restored with the change. Of what a read-modify-write of round `under` has taken up, memory holds the change already. -/
def changeGlobal (s : State) (slot keyRid pa n : Nat) (under : Option (BitVec 12)) (f : Nat → Nat) : State :=
  let mine (p : Prov) : Bool := p.line == pa / 64 && p.rid == keyRid && match under with
    | some r => !older r p.round
    | none => true
  let s1 := if under.isSome then s else writeBytes s slot pa (toBytes n (f (fromBytes (readBytes s slot pa n))))
  { s1 with home := { s1.home with prov := s1.home.prov.map fun p => if mine p then p.change s pa n f else p } }

/-- The home agent's fold of the contributions it holds for a word while one has the ordinal NEXT (R246). -/
def homeFold (slot keyRid w : Nat) : Nat → State → State
  | 0, s => s
  | n + 1, s =>
    let next := (mapGet s.home.ords w).getD 0
    match s.home.held.find? fun c => c.word == w && c.ord == next with
    | none => s
    | some c =>
      let s1 := if s.badWord (4 * w) then s else changeGlobal s slot keyRid (4 * w) 4 none fun old => redF32 c.opx old c.value.toNat
      homeFold slot keyRid w n { s1 with home := { s1.home with
        held := delFirst (· == c) s1.home.held
        ords := if c.last then mapDel s1.home.ords w else mapPut s1.home.ords w (next + 1) } }

/-- The contributions held for a word that its NEXT has passed are dropped and reported (R244, R246; log entry 106). -/
def homeDrop (s : State) (w : Nat) : State :=
  let passed (c : Contribution) : Bool := c.word == w && decide (c.ord < (mapGet s.home.ords w).getD 0)
  { s with home := { s.home with held := s.home.held.filter fun c => !passed c, reports := s.home.reports ++ s.home.held.filter passed } }

/-- A confirmed f32 contribution at its home agent (R244, R246): one below NEXT is dropped and reported, any other is
held and the word folded on. -/
def homeContribute (s : State) (slot keyRid : Nat) (c : Contribution) : State :=
  let next := (mapGet s.home.ords c.word).getD 0
  if c.ord < next then { s with home := { s.home with reports := s.home.reports ++ [c] } }
  else
    let s1 := { s with home := { s.home with held := s.home.held ++ [c], ords := mapPut s.home.ords c.word next } }
    homeDrop (homeFold slot keyRid c.word s1.home.held.length s1) c.word

end Sys2Proof.Machine
end

