-- ==== Sys2Proof/Machine/Island.lean ====
section
/-! DEFINITION. What the islands share (R268, R269, R306, R330): the take of a token from the island's queue, its
commitment, the matching store, and putting a token back. -/

namespace Sys2Proof.Machine

/-- The take of the head of an island's queue that this turn names, where the region runs and its record can be read (R126, R269,
R306, R330). The freed slot's credit starts back, and the island takes nothing more in this cycle (R269, R330). -/
def State.islandTaking (s : State) : Option (Nat × Take) :=
  match s.turn.who with
  | .take rid u _ =>
    match s.region? rid with
    | none => none
    | some R =>
      if !R.live || u.pos < 4 || ((R.unit? u).any fun U => s.cycle < U.nextTake) then none
      else match R.head? u 0 with
        | none => none
        | some qt =>
          let R1 := ((R.popOnly u 0).free qt.org qt.route qt.sid).modUnit u fun U => { U with nextTake := s.cycle + 1 }
          ((R1.unit? u).filter fun U => !U.recordBad qt.tok.node.toNat).map fun U => (rid, { now := s.cycle, u := u, q := 0, R := R1, U := U, qt := qt })
  | _ => none

/-- An island's take committed: what it sends leaves at once, on the credits of its routes. -/
def commitIsland (s : State) (rid : Nat) (k : Take) : TRes → State
  | .wait => s
  | .fault c => faultTake s rid k c
  | .ok es R =>
    match R.unit? k.u with
    | none => s
    | some U => if U.canSend es then s.putRegion (R.sendNow s.cycle k.u es) else s

/-- Tokens that an island's operation sends, if its credits allow. -/
def Region.islandSend (R : Region) (now : Nat) (u : UnitId) (es : Sends) : Option Region :=
  match R.unit? u with
  | none => none
  | some U => if U.canSend es then some (R.sendNow now u es) else none

/-- A token put back at the head of a queue, its slot taken again (R52, R55): the credit on its way is called back, or
one returned is spent. -/
def Region.putBack (R : Region) (u : UnitId) (q : Nat) (x : QTok) : Region :=
  let more (n : Nat) : Nat := if n = 0 then 0 else n + 1
  let R1 := R.modUnit u fun U => { U with queues := modNth U.queues q (fun l => x :: l), eng := U.eng.given more }
  if R1.freed.contains (x.org, x.route, x.sid) then { R1 with freed := delFirst (· == (x.org, x.route, x.sid)) R1.freed }
  else if x.org.pos = 7 then R1
  else R1.modUnit x.org fun V => V.takeBack x.route

/-- The header of an operation's tokens (R64): `ops` in port order. -/
def headerOf (ops : List Token) (f : Fmt) : Token :=
  outToken (ops.map fun t => { port := t.port.toNat, sticky := false, lit := false, tok := t }) f 0 false []

/-- An entry of a key store is that of a record's firing with this header (R308, R334). -/
def IKey.is (y : IKey) (node : BitVec 12) (hdr : Token) : Bool :=
  y.node == node && y.tag == hdr.tag && y.frame == hdr.frame && y.round == hdr.round && y.seq == hdr.seq

/-- A one-word n32 token with a header. -/
def wordToken (hdr : Token) (v : Nat) : Token := { hdr with fmt := .n32, len := 0#3, e := clearAbove 0 [BitVec.ofNat 32 v] }

/-! ### Uncorrectable errors (R321, R346) -/

/-- The error in `place` of an island (an accumulator, a stream register, or 16 + an address of a span of operands) has been met in this
round already: what meets it now is the same error in the round's re-execution. -/
def Region.metBefore (R : Region) (u : UnitId) (place : Nat) (round : BitVec 12) : Bool := R.upset.contains (u, place, round)

/-- The error in `place` of an island is met for the first time in a round (R321, R346): the region rolls back as a covering
strike would. No cell is struck, so no slice is scrubbed for it. -/
def Region.meet (R : Region) (u : UnitId) (place : Nat) (round : BitVec 12) : Region :=
  { R with upset := R.upset ++ [(u, place, round)], roll := some { c := R.conf, area := [], back := R.st } }

/-! ### Matching stores (R305, R333) -/

/-- What an arrival at a matching group comes to (R174 with one position a port). -/
inductive MatchRes where
  | collision
  | quiet (items : List MItem)
  | cancelled (items : List MItem)
  | fire (ops : List Token) (items : List MItem)

/-- The arrival of a data token or a cancel at a group of `ports` ports. An item whose token has ACT 11 is a port that a
mark holds. -/
def matchGroup (items : List MItem) (g ports : Nat) (t : Token) : MatchRes :=
  let mine := items.filter fun i => i.group == g
  let rest := items.filter fun i => i.group != g
  let p := t.port.toNat
  let held := mine.map (·.port)
  let marked := mine.any fun i => i.tok.act == .cancel
  let markOf (q : Nat) : MItem := { group := g, port := q, tok := { cancelOf t with port := BitVec.ofNat 2 q } }
  let full := (List.range ports).all fun q => q == p || held.contains q
  if mine.any fun i => i.tok.tag != t.tag || i.tok.frame != t.frame then .collision
  else if held.contains p then .collision
  else if marked then (if full then .quiet rest else .quiet (items ++ [markOf p]))
  else if t.act = .cancel then
    if full then .cancelled rest else .cancelled (rest ++ (held ++ [p]).map markOf)
  else if full then
    .fire ((List.range ports).filterMap fun q =>
      if q = p then some t else (mine.find? fun i => i.port == q).map (·.tok)) rest
  else .quiet (items ++ [{ group := g, port := p, tok := { t with act := .normal } }])

/-- An operation's end: its tokens leave on the credits reserved for them, and after them the markers it held back, at
whichever records of the unit they wait, as the credits allow (R132, R307, R332). -/
def Region.endOperation (R : Region) (now : Nat) (u : UnitId) (es : Sends) : Region :=
  (R.sendReserved now u es).forwardMore now u

end Sys2Proof.Machine
end

