-- ==== Sys2Proof/Machine/Stream.lean ====
section
/-! DEFINITION. The Streamers (chapter 8, sections 1 to 4): shapes, addresses, the two passes, SFEED's packets, SXLAT. -/

namespace Sys2Proof.Machine

/-! ### Shapes and addresses (R270, R271) -/

/-- A shape record (Table 8-2). -/
structure Shape where
  n0 : Nat
  n1 : Nat
  n2 : Nat
  n3 : Nat
  gs : List Int
  ss : List Int
  deriving DecidableEq, Repr

/-- The shape record that begins at a word of an island. -/
def Site.shape (U : Site) (w : Nat) : Shape :=
  let x (i : Nat) : Nat := (U.word (w + i)).toNat
  { n0 := x 0 % 2 ^ 16 + 1, n1 := x 0 / 2 ^ 16 + 1, n2 := x 1 % 2 ^ 16 + 1, n3 := x 1 / 2 ^ 16 + 1,
    gs := [signed 32 (x 2), signed 32 (x 3), signed 32 (x 4)], ss := [signed 32 (x 5), signed 32 (x 6), signed 32 (x 7)] }

/-- Words of a shape. -/
def Shape.words (h : Shape) : Nat := h.n0 * h.n1 * h.n2 * h.n3

/-- The offset of word k with strides (R271). -/
def Shape.offset (h : Shape) (st : List Int) (k : Nat) : Int :=
  let i0 := k % h.n0
  let i1 := k / h.n0 % h.n1
  let i2 := k / (h.n0 * h.n1) % h.n2
  let i3 := k / (h.n0 * h.n1 * h.n2)
  (4 * i0 : Nat) + (i1 : Int) * nth 0 st 0 + (i2 : Int) * nth 0 st 1 + (i3 : Int) * nth 0 st 2

/-- The n64 value of two elements of a trigger (R274). -/
def trigOffset (t : Token) (j : Nat) : Nat := (nth 0#32 t.e j).toNat + 2 ^ 32 * (nth 0#32 t.e (j + 1)).toNat

/-- The least LEN of a trigger (Table 8-4). -/
def trigMin (op : Nat) : Nat :=
  match op with
  | 0xC0 | 0xC1 => 2
  | 0xC3 | 0xC4 | 0xC6 => 3
  | _ => 1

/-- An address of a stream: a global virtual one with its access, one of region SRAM, or a global one that is checked and not
accessed. -/
inductive SAddr where
  | global (va : Int) (wr : Bool)
  | sram (a : Int)
  | only (va : Int)
  deriving DecidableEq, Repr

/-- The shape that a record names. -/
def Site.shapeOf (U : Site) (r : Rec) : Shape := U.shape (r.aux.toNat % 2 ^ 10)

/-- The index list of SGATHER and SSCATTER (R275): addresses, then words. -/
def indexAddrs (h : Shape) (t : Token) : List Nat := (List.range h.n1).map fun j => (nth 0#32 t.e 3).toNat + 4 * j

/-- The index list read (R275), each line whole: a word of a struck line is absent. -/
def Region.indexList (R : Region) (h : Shape) (op : Nat) (t : Token) : List (Option W32) :=
  if op = 0xC3 || op = 0xC4 then (indexAddrs h t).map fun a => if R.lineBad a then none else some (R.sramWordAt a) else []

/-- Source and destination of word k (Table 8-5), with the index list `xs`; a row without an index has neither. -/
def streamAddr (R : Region) (h : Shape) (op : Nat) (r : Rec) (t : Token) (xs : List (Option W32)) (k : Nat) :
    Option SAddr × Option SAddr :=
  let gb : Int := R.chainBase (bits r.aux.toNat 15 10)
  let ga : Int := gb + trigOffset t 0
  let g : Int := ga + h.offset h.gs k
  let sa : Int := (nth 0#32 t.e 2).toNat
  let sr : Int := sa + h.offset h.ss k
  let row (f : Int → Option SAddr × Option SAddr) : Option SAddr × Option SAddr := match nth none xs (k / h.n0 % h.n1) with
    | some i => f (ga + (i.toNat : Int) + (4 * (k % h.n0) : Nat))
    | none => (none, none)
  match op with
  | 0xC0 => (some (.global g false), some (.sram sr))
  | 0xC1 => (some (.sram sr), some (.global g true))
  | 0xC2 => (some (.global g false), none)
  | 0xC3 => row fun gx => (some (.global gx false), some (.sram sr))
  | 0xC4 => row fun gx => (some (.sram sr), some (.global gx true))
  | _ => (some (.global g false), some (.global (gb + trigOffset t 2 + h.offset h.ss k) true))

/-- The checks of R212 on a global address. -/
def checkGlobal (va : Int) : Option (Cause × Nat × Bool) :=
  if va < 0 || va ≥ (2 ^ 57 : Nat) then some (.addressRange, va.toNat, false)
  else if va % 4 ≠ 0 then some (.alignment, va.toNat, false)
  else none

/-- The checks of R208 and R212 on one address: the cause and the address. -/
def Region.checkAddr (R : Region) : SAddr → Option (Cause × Nat × Bool)
  | .global va _ => checkGlobal va
  | .only va => checkGlobal va
  | .sram a =>
    if a < 0 then some (.addressRange, 0, false)
    else (R.checkSram 4 [a.toNat]).map fun p => (p.1, p.2, false)

/-- The pinned translations that cover an address, or the TLB's (R288). -/
def pinFor (pins tlb : List Tlb) (va : Nat) : Option Tlb :=
  match tlbFind pins va with
  | some t => some t
  | none => tlbFind tlb va

/-- How pass 1 stands after looking at some addresses: a fault, a translation to ask for, a full page list, or the pins so far. -/
inductive Pass1 where
  | fault (c : Cause) (detail : Nat) (va : Bool)
  | miss (va : Nat) (wr : Bool) (pins : List Tlb)
  | full
  | ok (pins : List Tlb)
  deriving DecidableEq, Repr

/-- One address of pass 1 (R275): checked, translated, its page pinned: at most 1,024 for an operation, and while the page list has
room for `room` of them. -/
def pass1Addr (s : State) (R : Region) (tlb : List Tlb) (room : Nat) (pins : List Tlb) (a : SAddr) : Pass1 :=
  match R.checkAddr a with
  | some (c, d, v) => .fault c d v
  | none =>
    match a with
    | .sram _ => .ok pins
    | .only _ => .ok pins
    | .global va wr =>
      match pinFor pins tlb va.toNat with
      | none => .miss va.toNat wr pins
      | some t =>
        if (wr && !t.w) || (!wr && !t.r) then .fault .permission va.toNat true
        else if !windowOk s (t.paOf va.toNat) wr then .fault .physicalAddress va.toNat true
        else if pins.contains t then .ok pins
        else if pins.length ≥ 1024 then .fault .streamSize 0 false
        else if pins.length ≥ room then .full
        else .ok (pins ++ [t])

/-- Pass 1 over a list of addresses. -/
def pass1Over (s : State) (R : Region) (tlb : List Tlb) (room : Nat) : List SAddr → List Tlb → Pass1
  | [], pins => .ok pins
  | a :: as, pins =>
    match pass1Addr s R tlb room pins a with
    | .ok pins => pass1Over s R tlb room as pins
    | x => x

/-- Every address of an operation in stream order, the index list first and then GA itself (R274, R275). -/
def streamAddrs (R : Region) (h : Shape) (op : Nat) (r : Rec) (t : Token) (xs : List (Option W32)) : List SAddr :=
  let index : List SAddr := if op = 0xC3 || op = 0xC4 then
      ((indexAddrs h t).map fun (a : Nat) => SAddr.sram (a : Int)) ++ [.only (R.chainBase (bits r.aux.toNat 15 10) + trigOffset t 0 : Nat)]
    else []
  index ++ (List.range h.words).flatMap fun k =>
    let (a, b) := streamAddr R h op r t xs k
    a.toList ++ b.toList

/-! ### Operations -/

/-- The streamer of a unit. -/
def Site.str? (U : Site) : Option Str := match U.eng with | .str x => some x | _ => none

/-- The region with an operation of a streamer changed. -/
def Region.modStr (R : Region) (u : UnitId) (f : Str → Str) : Region :=
  R.modUnit u fun U => match U.eng with | .str x => { U with eng := .str (f x) } | _ => U

/-- The completion of an operation, or SFEED's end token on D1 alone (R277, R278, R280). -/
def strSends (R : Region) (o : StrOp) (n : Nat) (err : Bool) : Except Cause Sends :=
  let hdr := headerOf [o.trig.tok] .n32
  let w (v : Nat) : Token := { wordToken hdr v with err := hdr.err || err }
  if o.op = 0xC2 then
    match pushField R.cfg.tw hdr.tag (o.r.lit.toNat % 64) n with
    | .error c => .error c
    | .ok tag => .ok (([(o.r.d1, { w n with tag := tag })] : Sends).filter fun p => p.1 != noDest)
  else .ok (sendsOf o.r (w n) (w n))

/-- The destinations whose credits a stream operation reserves at its take (R129): those of its completion, or of SFEED's
end token. -/
def strReserve (op : Nat) (r : Rec) (t : Token) : Sends := if op = 0xC2 then ([(r.d1, t)] : Sends).filter (·.1 != noDest) else sendsOf r t t

/-- THE TAKE OF A STREAM RECORD (R269, R274, R275): an operation slot is taken and pass 1 begins. A trigger with ERR
performs nothing and is answered at once (R280), but with M = 0 behind the record's operations under way (R278). -/
def strExec (s : State) (op : Nat) (r : Rec) : State :=
  match s.islandTaking with
  | none => s
  | some (rid, k) =>
    match k.U.str? with
    | none => s
    | some x =>
      let o : StrOp := { id := x.nextId, op := op, r := r, node := k.t.node, trig := k.qt, st := .pass1, pins := [], data := [],
                         fed := 0, sent := false, index := [], bad := [] }
      if k.t.err && (r.m || !x.ops.any fun p => p.node == k.t.node) then
        match strSends k.R o 0 true with
        | .error c => faultTake s rid k c
        | .ok es => commitIsland s rid k (.ok es (if es.isEmpty then k.R.raiseErr k.u k.t else k.R))
      else if !k.t.err && k.t.len.toNat < trigMin op then faultTake s rid k .packetLengthMismatch
      else if x.ops.length ≥ 8 || !k.U.canSend (strReserve op r k.t) then s
      else
        let o' := if k.t.err then { o with st := .pass2 } else o
        s.putRegion ((k.R.modStr k.u fun x => { x with ops := x.ops ++ [o'], nextId := x.nextId + 1 }).modUnit k.u fun U =>
          { U with credits := spend U.credits (strReserve op r k.t) })

/-- SLOAD. -/
def execSload (r : Rec) (s : State) : Out1 := .next (strExec s 0xC0 r)
/-- SSTORE. -/
def execSstore (r : Rec) (s : State) : Out1 := .next (strExec s 0xC1 r)
/-- SFEED. -/
def execSfeed (r : Rec) (s : State) : Out1 := .next (strExec s 0xC2 r)
/-- SGATHER. -/
def execSgather (r : Rec) (s : State) : Out1 := .next (strExec s 0xC3 r)
/-- SSCATTER. -/
def execSscatter (r : Rec) (s : State) : Out1 := .next (strExec s 0xC4 r)
/-- SCOPY. -/
def execScopy (r : Rec) (s : State) : Out1 := .next (strExec s 0xC6 r)

/-- The status word of a translation (R279). -/
def xlatStatus (t : Tlb) : Nat := 1 + 2 * b2n t.r + 4 * b2n t.w + 8 * (if t.lg = 16 then 0 else if t.lg = 21 then 1 else 2)

/-- SXLAT's probes of the offsets of its trigger, in order. -/
def xlatWords (s : State) (R : Region) (gb : Nat) (t : Token) : Nat → Nat → Except (Cause × Nat) (List W32)
  | 0, _ => .ok []
  | n + 1, j =>
    let va := gb + trigOffset t (2 * j)
    if va ≥ 2 ^ 57 then .error (.addressRange, va)
    else if va % 4 ≠ 0 then .error (.alignment, va)
    else
      let st : Except (Cause × Nat) Nat := match walkVa s R.cfg.rt va false false with
        | .absent => .ok 0
        | .page t => .ok (xlatStatus t)
        | .fault c => .error (c, va)
      match st with
      | .error e => .error e
      | .ok v => (xlatWords s R gb t n (j + 1)).map (BitVec.ofNat 32 v :: ·)

/-- SXLAT (R279): translations probed at the take; it never parks, and uses no operation slot. A trigger with ERR performs nothing, of
whatever LEN (R280). -/
def execSxlat (r : Rec) (s : State) : Out1 :=
  match s.islandTaking with
  | none => .next s
  | some (rid, k) =>
    let n := (k.t.len.toNat + 1) / 2
    let hdr := headerOf [k.t] .n32
    let out (e : List W32) (err : Bool) : Token :=
      { hdr with len := BitVec.ofNat 3 (n - 1), err := hdr.err || err, e := clearAbove (n - 1) e }
    if k.t.err then
      let es := sendsOf r (wordToken hdr 0) (wordToken hdr 0)
      .next (commitIsland s rid k (.ok es (if es.isEmpty then k.R.raiseErr k.u k.t else k.R)))
    else if k.t.len.toNat % 2 = 0 then .next (faultTake s rid k .packetLengthMismatch)
    else match xlatWords s k.R (k.R.chainBase (bits r.aux.toNat 15 10)) k.t n 0 with
      | .error (c, va) => .next (takeFault s rid (mkVaFault k.u k.t.node k.t c va))
      | .ok e => .next (commitIsland s rid k (.ok (sendsOf r (out e false) (out e false)) k.R))

/-- A freezing fault of an operation (R275): the firing is undone, the trigger back at the head of its queue. -/
def strFault (s : State) (R : Region) (u : UnitId) (o : StrOp) (c : Cause) (detail : Nat) (va : Bool) : State :=
  let R1 := ((R.modStr u fun x => { x with ops := x.ops.filter fun p => p.id != o.id }).putBack u 0 o.trig).modUnit u fun U =>
    { U with credits := unspend U.credits (strReserve o.op o.r o.trig.tok) }
  let f := if va then mkVaFault u o.node o.trig.tok c detail else mkFault u o.node o.trig.tok c detail
  takeFault (s.putRegion R1) R.rid f

/-- The words of an operation's source as pass 2 begins (R276, R282). -/
def streamRead (s : State) (R : Region) (slot : Nat) (h : Shape) (o : StrOp) (pins : List Tlb) : List W32 :=
  (List.range h.words).map fun k =>
    match (streamAddr R h o.op o.r o.trig.tok o.index k).1 with
    | some (.sram a) => R.sramWordAt a.toNat
    | some (.global va _) =>
      match tlbFind pins va.toNat with
      | some t => viewWord s R slot (t.paOf va.toNat)
      | none => 0#32
    | _ => 0#32

/-- The words of an operation that come from a line that an uncorrectable error has struck, or of a row whose index was (R295). -/
def streamBad (s : State) (R : Region) (h : Shape) (o : StrOp) (pins : List Tlb) : List Nat :=
  (List.range h.words).filter fun k =>
    match (streamAddr R h o.op o.r o.trig.tok o.index k).1 with
    | some (.sram a) => R.lineBad a.toNat
    | some (.global va _) => ((tlbFind pins va.toNat).map fun t => viewLineBad s R (t.paOf va.toNat)).getD false
    | _ => true

/-- A word of an operation's source that the region reads from memory lies in a line that is provisional for another region (R229), or
restored egress is still to be translated (R293). -/
def streamBlocked (s : State) (R : Region) (h : Shape) (o : StrOp) (pins : List Tlb) : Bool :=
  (List.range h.words).any fun i =>
    match (streamAddr R h o.op o.r o.trig.tok o.index i).1 with
    | some (.global va _) => R.heldUntranslated || match tlbFind pins va.toNat with
      | some t => provBlocks s (some R.keyRid) (t.paOf va.toNat)
      | none => false
    | _ => false

/-- The page-list entries that an operation of a streamer finds: those that the others have left of the 4,096 (R267). -/
def Str.pageRoom (x : Str) (id : Nat) : Nat := 4096 - ((x.ops.filter fun p => p.id != id).map fun p => p.pins.length).sum

/-- STREAM_PASS1_DONE (R275): the index list is read, every address is checked, translated and pinned; then pass 2 begins. A
translation that the TLB lacks is asked of the PWS. -/
def execStreamPass1Done (rid : Nat) (u : UnitId) (k : Nat) (s : State) : Out1 :=
  match s.region? rid with
  | none => .next s
  | some R =>
    match (R.unit? u).bind fun U => U.str?.map fun x => (U, x) with
    | none => .next s
    | some (U, x) =>
      match x.ops[k]? with
      | none => .next s
      | some o =>
        if !R.live || o.st != .pass1 then .next s
        else
          let h := U.shapeOf o.r
          let o1 := if o.index.isEmpty then { o with index := R.indexList h o.op o.trig.tok } else o
          match s.slotOf R.part with
          | none => .next (strFault s R u o .permission (R.chainBase o.chain) true)
          | some slot =>
            match pass1Over s R x.tlb (x.pageRoom o.id) (streamAddrs R h o.op o.r o.trig.tok o1.index) o.pins with
            | .fault c d v => .next (strFault s R u o c d v)
            | .full => .next s
            | .miss va wr pins =>
              .next (askWalk (s.putRegion (R.modStr u fun x => { x with ops := x.ops.set k { o1 with pins := pins } }))
                { rid := rid, unit := u, acc := o.id, va := va, rd := !wr, wr := wr })
            | .ok pins =>
              if streamBlocked s R h o1 pins then .next s
              else match strSends R o 0 false with
                | .error c => .next (strFault s R u o c 0 false)
                | .ok _ =>
                  let o' := { o1 with st := .pass2, pins := pins, data := streamRead s R slot h o1 pins, bad := streamBad s R h o1 pins }
                  .next (s.putRegion (R.modStr u fun x => { x with ops := x.ops.set k o' }))

/-! ### SFEED (R277) -/

/-- Packet length of SFEED: words of a full packet. -/
def feedWords (r : Rec) : Nat := bits r.lit.toNat 8 6 + 1
/-- The packet count of SFEED. -/
def feedCount (o : StrOp) : Nat := ceilDiv o.data.length (feedWords o.r)

/-- Packet p of SFEED; one with a word of a struck line carries ERR (R295). -/
def feedPacket (tw : List Nat) (o : StrOp) (p : Nat) : Except Cause Token :=
  let ws := (o.data.drop (p * feedWords o.r)).take (feedWords o.r)
  let hdr := headerOf [o.trig.tok] o.r.fmt
  (pushField tw hdr.tag (o.r.lit.toNat % 64) p).map fun tag =>
    { hdr with
      tag := tag, len := BitVec.ofNat 3 (ws.length - 1), e := o.r.fmt.payload (ws.length - 1) ws
      err := hdr.err || o.bad.any fun k => k / feedWords o.r == p }

/-- SFEED_PACKET (R277): the next packet leaves on D0 as its route's credit allows. -/
def execSfeedPacket (rid : Nat) (u : UnitId) (k : Nat) (s : State) : Out1 :=
  match s.region? rid with
  | none => .next s
  | some R =>
    match ((R.unit? u).bind (·.str?)).bind (·.ops[k]?) with
    | none => .next s
    | some o =>
      if !(R.live || (R.draining && R.winding)) || o.op ≠ 0xC2 || o.st != .pass2 || o.fed ≥ feedCount o then .next s
      else match feedPacket R.cfg.tw o o.fed with
        | .error c => .next (strFault s R u o c 0 false)
        | .ok t =>
          let es : Sends := ([(o.r.d0, t)] : Sends).filter fun p => p.1 != noDest
          match R.islandSend s.cycle u es with
          | none => .next s
          | some R1 => .next (s.putRegion (R1.modStr u fun x => { x with ops := x.ops.set k { o with fed := o.fed + 1 } }))

/-! ### Completion (R278, R283) -/

/-- Destination words of an operation with their values, the higher k after the lower (R276); those of struck lines are not written
(R295). -/
def streamWrites (R : Region) (h : Shape) (o : StrOp) : List (SAddr × W32) :=
  ((List.range h.words).filter fun k => !o.bad.contains k).filterMap fun k =>
    (streamAddr R h o.op o.r o.trig.tok o.index k).2.map fun a => (a, nth 0#32 o.data k)

/-- The key of a stream's Siding entry (R232): the record stands for its OWN. -/
def strKey (R : Region) (o : StrOp) : Key where
  rid := R.keyRid
  chain := o.chain
  round := o.trig.tok.round
  seq := o.trig.tok.seq
  tag := o.trig.tok.tag
  frame := o.trig.tok.frame
  own := 1024 + o.node.toNat
  idx := 0

/-- The writes of an operation performed: engine writes, or entries of the island's Siding. -/
inductive StreamDone where
  | wait
  | bound
  | ok (R : Region)

/-- Every destination word written (R276). A word that the operation has in the Siding since before a round replay is met again and not
written anew (R364). -/
def streamPerform (s : State) (R : Region) (U : Site) (o : StrOp) : StreamDone :=
  let h := U.shapeOf o.r
  let ws := streamWrites R h o
  let sram := ws.filterMap fun p => match p.1 with | .sram a => some (a.toNat, p.2) | _ => none
  let glob := ws.filterMap fun p => match p.1 with | .global va _ => some (va.toNat, p.2) | _ => none
  let round := o.trig.tok.round
  if glob.isEmpty then
    match R.engineWrite s.cycle round sram with
    | some R1 => .ok R1
    | none => .wait
  else
    let sd := R.strSiding U
    let key := strKey R o
    let there (va : Nat) : Bool := R.held.any fun h => h.has key && h.va == va / 64 * 64 && bit h.mask.toNat (va / 4 % 16)
    let R0 := { R with held := R.held.map fun h => if h.has key then { h with kept := false } else h }
    let R1 := (glob.filter fun p => !there p.1).foldl (fun R p =>
      match tlbFind o.pins p.1 with
      | some t => R.holdWord sd p.1 (some (t.paOf p.1)) false key p.2
      | none => R) R0
    match R.sidingRoom s.self sd round (R1.heldIn sd - R.heldIn sd) with
    | .bound => .bound
    | .wait => .wait
    | .room => .ok R1

/-- STREAM_COMPLETE (R278, R283): the operation's writes are performed, its completion or end token leaves, in the order
of the record's triggers unless `.any`, and its pins go. An operation that a drain will cancel holds none back: its trigger is taken
anew (R295). -/
def execStreamComplete (rid : Nat) (u : UnitId) (k : Nat) (s : State) : Out1 :=
  match s.region? rid with
  | none => .next s
  | some R =>
    match (R.unit? u).bind fun U => U.str?.map fun x => (U, x) with
    | none => .next s
    | some (U, x) =>
      match x.ops[k]? with
      | none => .next s
      | some o =>
        let early := !o.r.m && x.ops.any fun p => p.node == o.node && decide (p.id < o.id) && (p.st == .pass2 || !R.draining)
        let bare := o.op == 0xC2 || o.trig.tok.err
        if !R.winding || o.st != .pass2 || early || (o.op = 0xC2 && o.fed < feedCount o) then .next s
        else
          let done := if bare then StreamDone.ok R else streamPerform s R U o
          match done with
          | .wait => .next s
          | .bound => .next (strFault s R u o .roundBound 0 false)
          | .ok R1 =>
            match strSends R o (if o.op = 0xC2 then feedCount o else o.data.length - o.bad.length) (o.op != 0xC2 && !o.bad.isEmpty) with
            | .error c => .next (strFault s R u o c 0 false)
            | .ok es =>
              let lost := o.trig.tok.err || (o.op != 0xC2 && !o.bad.isEmpty)
              let R2 := (if lost && es.isEmpty then R1.raiseErr u { o.trig.tok with node := o.node } else R1).modStr u fun x =>
                { x with ops := x.ops.filter fun p => p.id != o.id }
              .next (s.putRegion (R2.endOperation s.cycle u es))

end Sys2Proof.Machine
end

