-- ==== Sys2Proof/Machine/Walk.lean ====
section
/-! DEFINITION. Page walks and parking (R287 to R290), parking reports (R409), translation invalidation (R289, R410). -/

namespace Sys2Proof.Machine

/-- The report of a parked access of a region. -/
def Parked.report (p : Parked) (rid : Nat) : Report := { rid := rid, page := p.va / 2 ^ 16, write := p.write, unit := p.unit, acc := p.acc }

/-- A parking report queued while the queue of 64 has room (R409); the report raises the event PARK (Table 12-11). -/
def queueReport (s : State) (R : Region) (p : Parked) : State :=
  let room := decide (s.yard.xpark.length < 64)
  let s1 := s.putRegion { R with parked := R.parked ++ [{ p with reported := room }] }
  if room then
    ({ s1 with yard := { s1.yard with xpark := s1.yard.xpark ++ [p.report R.rid] } }).pend 2
  else s1

/-- A stream operation changed by its id. -/
def Region.modStrOp (R : Region) (u : UnitId) (id : Nat) (f : StrOp → StrOp) : Region :=
  R.modStr u fun x => { x with ops := modFirst (fun o => o.id == id) f x.ops }

/-- The stream operation of an id. -/
def Region.strOp? (R : Region) (u : UnitId) (id : Nat) : Option StrOp :=
  ((R.unit? u).bind (·.str?)).bind fun x => x.ops.find? fun o => o.id == id

/-- A translation found for a walk: into the TLB of an MU (32) or an STR (256), or into the restored entries of its page
that wait for it (R288, R294). -/
def Region.translated (R : Region) (w : Walk) (t : Tlb) : Region :=
  match w.unit.pos with
  | 3 => R.modMu w.unit.page fun m => { m with tlb := tlbAdd 32 m.tlb t }
  | 4 => R.modStr w.unit fun x => { x with tlb := tlbAdd 256 x.tlb t }
  | _ => { R with held := R.held.map fun h =>
      if h.pa.isNone && h.va / 2 ^ 16 == w.va / 2 ^ 16 then { h with pa := some (t.paOf h.va) } else h }

/-- The fault of a walk at what asked for it (R275, R287, R294). -/
def walkFault (s : State) (R : Region) (w : Walk) (c : Cause) : State :=
  match w.unit.pos with
  | 3 => match R.acc? w.unit.page w.acc with
    | some a => if a.open then accFault s R w.unit.page a c w.va true else s
    | none => s
  | 4 => match R.strOp? w.unit w.acc with
    | some o => if o.st = .pass2 then s else strFault s R w.unit o c w.va true
    | none => s
  | _ => match R.held.find? fun h => h.pa.isNone && h.va / 2 ^ 16 == w.va / 2 ^ 16 with
    | some h => takeFault s R.rid (R.keyFault h.key c)
    | none => s

/-- What asked for a walk parks on an absent page (R290). -/
def Region.park (R : Region) (w : Walk) : Region :=
  match w.unit.pos with
  | 3 => R.modAcc w.unit.page w.acc fun a => { a with st := .parked }
  | 4 => R.modStrOp w.unit w.acc fun o => if o.st = .pass1 then { o with st := .parked w.va } else o
  | _ => R

/-- What asked for a walk still waits for it. -/
def Region.wants (R : Region) (w : Walk) : Bool :=
  match w.unit.pos with
  | 3 => match R.acc? w.unit.page w.acc with
    | some a => a.open
    | none => false
  | 4 => match R.strOp? w.unit w.acc with
    | some o => o.st == .pass1
    | none => false
  | _ => R.held.any fun h => h.pa.isNone && h.va / 2 ^ 16 == w.va / 2 ^ 16

/-- The die whose PWS takes a walk. -/
def walkDie (s : State) (w : Walk) : Nat := ((s.region? w.rid).map fun R => R.dieOf w.unit.page).getD 0

/-- The PWS of its die runs walk `k`: fewer than 1,024 that were asked for earlier are still to be done there (R18, R288). -/
def walkRuns (s : State) (k : Nat) (w : Walk) : Bool :=
  decide (k < 1024) || decide (((s.walks.take k).filter fun x => walkDie s x == walkDie s w).length < 1024)

/-- PAGE_WALK_COMPLETE (R287, R288, R290): walk `k`, if the PWS runs it, returns a translation, a fault, or an absent page, on which its
access or operation parks. -/
def execPageWalkComplete (k : Nat) (s : State) : Out1 :=
  match s.walks[k]? with
  | none => .next s
  | some w =>
    let s0 := { s with walks := delNth s.walks k }
    match s.region? w.rid with
    | none => .next s0
    | some R =>
      if !walkRuns s k w then .next s
      else if !R.wants w then .next s0
      else match walkVa s R.cfg.rt w.va w.rd w.wr with
        | .page t => .next (s0.putRegion (R.translated w t))
        | .fault c => .next (walkFault s0 R w c)
        | .absent =>
          .next (queueReport s0 (R.park w) { unit := w.unit, acc := w.acc, va := w.va, write := w.wr, reported := false })

/-! ### XPARK (R409) -/

/-- The value of XPARK for a report. -/
def xparkValue (p : Report) : W64 := BitVec.ofNat 64 (2 ^ 63 + 2 ^ 61 * b2n p.write + 2 ^ 11 * p.page + p.rid)

/-- A pop of XPARK (R409): the oldest report, which a later write may refuse. -/
def popReport (s : State) : Option (Report × State) :=
  match s.yard.xpark with
  | [] => none
  | p :: rest => some (p, { s with yard := { s.yard with xpark := rest, xpopped := s.yard.xpopped ++ [p] } })

/-- A report that found the queue full is queued once there is room. -/
def queueUnreported (s : State) : State :=
  if s.yard.xpark.length ≥ 64 then s
  else match s.regions.findSome? fun R => (R.parked.find? fun p => !p.reported).map fun p => (R, p) with
    | none => s
    | some (R, p) =>
      let s1 := s.putRegion { R with parked := modFirst (· == p) (fun p => { p with reported := true }) R.parked }
      ({ s1 with yard := { s1.yard with xpark := s1.yard.xpark ++ [p.report R.rid] } }).pend 2

/-- XPARK_POP (R409): a read of XPARK pops the oldest report; with none it reads V = 0. U-mode traps. -/
def execXparkPop (d : BitVec 5) (s : State) : Out1 :=
  if !s.sm then .next (trapIllegal s 0#32)
  else match popReport s with
    | none => .next (retire s d 0#64)
    | some (p, s1) => .next (retire (queueUnreported s1) d (xparkValue p))

/-- Bytes of an item. -/
def packetBytes (p : Packet) : Nat :=
  match p.body with
  | .message _ n _ => n
  | .post _ ws => 4 * ws.length
  | _ => 0

/-- The answer to the sender of an item (R426): status, bytes placed, bytes sent. -/
def answerSender (s : State) (p : Packet) (status placed sent : Nat) : State :=
  { s with links := { s.links with replies := s.links.replies ++ [(p.srcDev, p.id, status, placed, sent)] } }

/-- A head parked at a queue of a unit takes the fault "page absent". -/
def headAbsent (s : State) (R : Region) (p : Parked) (u : UnitId) : State :=
  match R.head? u p.acc with
  | none => s
  | some q => takeFault s R.rid (mkVaFault u q.tok.node q.tok .pageAbsent p.va)

/-- A parked access of a region refused (R290): it takes the fault "page absent"; a refused POST writes nothing and is
answered with status 2 (R427); a message's placement faults at the record that posted its buffer. -/
def refuseParked (s : State) (rid : Nat) (p : Parked) : State :=
  match s.region? rid with
  | none => s
  | some R0 =>
    let R := { R0 with parked := delFirst (· == p) R0.parked }
    let s := s.putRegion R
    match p.unit.pos with
    | 9 => match s.links.waiting.find? fun q => q.id == p.acc && q.dstRid == rid with
      | some q =>
        let bytes := match q.body with | .post _ ws => 4 * ws.length | _ => 0
        answerSender { s with links := { s.links with waiting := delFirst (· == q) s.links.waiting } } q 2 0 bytes
      | none =>
        match R.items.find? fun i => i.id == p.acc with
        | none => s
        | some i => match R.buffers.find? fun b => some b.box == i.pkt.map (·.eport) with
          | none => s
          | some b => takeFault s rid (mkVaFault b.unit b.hdr.node b.hdr .pageAbsent p.va)
    | 0 | 1 | 2 => headAbsent s R p p.unit
    | 10 => headAbsent s R p ⟨p.unit.page, 3⟩
    | _ => walkFault s R { rid := rid, unit := p.unit, acc := p.acc, va := p.va, rd := !p.write, wr := p.write } .pageAbsent

/-- XPARK_REFUSE (R409): a popped value written back with REFUSE = 1 faults every access of the region parked on the
page, first the one whose parking queued the popped report; any other value written is ignored. -/
def execXparkRefuse (v : W64) (s : State) : Out1 :=
  if !s.sm then .next (trapIllegal s 0#32)
  else match s.yard.xpopped.find? fun p => v == xparkValue p ||| 0x4000000000000000#64 with
    | none => .next (retireNone s)
    | some p =>
      let s0 := { s with yard := { s.yard with xpopped := s.yard.xpopped.filter fun q => !(q.rid == p.rid && q.page == p.page) } }
      match s0.region? p.rid with
      | none => .next (retireNone s0)
      | some R =>
        let here := R.parked.filter fun q => q.va / 2 ^ 16 == p.page
        let mine (q : Parked) : Bool := q.unit == p.unit && q.acc == p.acc
        .next (retireNone ((here.filter mine ++ here.filter fun q => !mine q).foldl (fun s q => refuseParked s p.rid q) s0))

/-! ### Invalidation (R289, R410) -/

/-- XINVCMD (R410): a write starts the invalidation of a region's range; while one is in progress the hart stalls, taking no interrupt,
and performs the write again; a stale handle is ignored. -/
def execXinvcmd (v : W64) (s : State) : Out1 :=
  if !s.sm then .next (trapIllegal s 0#32)
  else if s.yard.inval.isSome then .next (s.modHart s.me fun H =>
    { H with stall := some { rid := 2052, d := 0#5, kind := .again, since := (H.stall.map (·.since)).getD s.ticks } })
  else match s.named (v.toNat % 2 ^ 32) with
    | none => .next (retireNone s)
    | some R => .next (retireNone { s with yard := { s.yard with
        inval := some (R.rid, s.yard.xinvVpn.toNat, bits v.toNat 62 32) } })

/-- Two ranges of addresses meet. -/
def rangesMeet (a n b m : Nat) : Bool := decide (a < b + m) && decide (b < a + n)

/-- A parked item of the range takes its walk again (R290). -/
def Region.unpark (R : Region) (p : Parked) : Region :=
  match p.unit.pos with
  | 3 => R.modAcc p.unit.page p.acc fun a => if a.st = .parked then { a with st := .issued } else a
  | 4 => R.modStrOp p.unit p.acc fun o => match o.st with
    | .parked _ => { o with st := .pass1 }
    | _ => o
  | _ => R

/-- INVALIDATION_COMPLETE (R289): no operation pins a page of the range; every translation of the range goes, what is
parked there asks again, and BUSY clears. -/
def execInvalidationComplete (s : State) : Out1 :=
  match s.yard.inval with
  | none => .next s
  | some (rid, vpn, count) =>
    let s1 := { s with yard := { s.yard with inval := none } }
    match s.region? rid with
    | none => .next s1
    | some R =>
      let lo := if count = 0 then 0 else vpn * 2 ^ 16
      let n := if count = 0 then 2 ^ 57 else count * 2 ^ 16
      let hit (t : Tlb) : Bool := rangesMeet t.va (2 ^ t.lg) lo n
      let pinned := R.units.any fun U => match U.str? with
        | some x => x.ops.any fun o => o.pins.any hit
        | none => false
      if pinned then .next s
      else
        let units := R.units.map fun U =>
          match U.eng with
          | .mu m => { U with eng := .mu { m with tlb := m.tlb.filter fun t => !hit t } }
          | .str x => { U with eng := .str { x with tlb := x.tlb.filter fun t => !hit t } }
          | _ => U
        let again := R.parked.filter fun p => decide (lo ≤ p.va) && decide (p.va < lo + n)
        let R1 := again.foldl Region.unpark { R with units := units, parked := R.parked.filter fun p => !again.contains p }
        let s2 := s1.putRegion R1
        .next ((again.filter fun p => p.unit.pos == 8).foldl (fun s p =>
          askWalk s { rid := rid, unit := p.unit, acc := p.acc, va := p.va, rd := false, wr := true }) s2)

end Sys2Proof.Machine
end

