-- ==== Sys2Proof/Machine/Alarm.lean ====
section
/-! DEFINITION. The alarms (R452, R453) and the accesses of agents other than regions at the home agents (R229, R230,
R434, R449). -/

namespace Sys2Proof.Machine

/-! ### Alarms -/

/-- The fault record of an alarm: it names no round of the program (R389). -/
def alarmRecord (code : Nat) : FaultRec where
  tag := 0#64
  node := 0#12
  round := 0#12
  seq := 0#15
  page := 0
  pos := 0
  cause := .securityAlarm
  vaf := false
  detail := BitVec.ofNat 128 code

/-- A fuse word as the TRE reads it: all ones where its copies disagreed at reset (R440). -/
def State.fuse (s : State) (w : Nat) : W32 := if s.trust.fuseBad.contains w then 0xFFFFFFFF#32 else nth 0#32 s.trust.fuses w

/-- POLICY of an alarm class (Table 14-1, word 1). -/
def State.policy (s : State) (cls : Nat) : Nat := bits (s.fuse 1).toNat (2 * cls + 1) (2 * cls)

/-- The freeze of a region by an alarm (R453): a RUNNING region becomes FROZEN with the alarm's record; one that a rollback is taking
back to RUNNING, a faulted one among them whose record goes with its round, becomes FROZEN when that ends (R55), and one that the
Yard has quiesced for an errand of its own becomes so when the errand ends. -/
def Region.alarm (code : Nat) (R : Region) : Region :=
  let going : Bool := match R.errand with
    | some (.move _ _ back _) => back == .running
    | some (.test back) => back == .running
    | some .evict => true
    | none => false
  match R.roll with
  | some x =>
    let goes : Bool := R.fault.any fun f => f.cause != .securityAlarm && newerThan x.c f.round
    let resumes : Bool := x.back == .running || (going && (R.fault.isNone || goes)) || (x.back == .frozen && !R.halting && goes)
    if resumes then { R with fault := some (alarmRecord code), roll := some { x with back := .frozen } } else R
  | none =>
    if R.st = .running then { R with st := .frozen, fault := some (alarmRecord code) }
    else if R.fault.isNone && going then { R with fault := some (alarmRecord code) }
    else R

/-- The tenant key slots erased, with every line that their keys last wrote (R448, R474). -/
def eraseSlot (s : State) (i : Nat) : State :=
  let k := s.slotKey i
  let s1 := { s with trust := { s.trust with keys := modNth s.trust.keys i fun x => { x with v := false, part := 0#16, bits := 0#512 } } }
  if k = 0 then s1 else eraseKey s1 k

/-- Slots 1 to 63 erased. -/
def eraseTenants (s : State) : State := (List.range 63).foldl (fun s i => eraseSlot s (i + 1)) s

/-- Every TDI in LOCKED or RUN goes to ERROR, its IDE keys erased (R447, R453). -/
def failTdis (s : State) : State :=
  { s with tdis := s.tdis.map fun t => if t.st = .locked || t.st = .run then { t with st := .error, ide := false } else t }

/-- A unit's element memory and slice zeroed, every word empty, the slots of its carve-out with the slice (R71, R451, R453); those of
its frame store lie in no SRAM that is zeroed. -/
def Site.zero (U : Site) : Site :=
  let V := { U with elem := [], bad := [], slots := U.slots.filter fun p => decide (p.1 < storeSize U.id) }
  match U.eng with
  | .mu m => { V with eng := .mu { m with sram := [], fe := [], bad := [] } }
  | _ => V

/-- Every fabric SRAM slice and element memory zeroed; an EVICTED region has none. -/
def zeroFabric (s : State) : State :=
  { s with regions := s.regions.map fun R => if R.st = .evicted then R else { R with units := R.units.map Site.zero } }

/-- Machine interrupt `n` pending on every hart that enables it in mie (R438, R453). -/
def pendMachine (s : State) (n : Nat) : State :=
  { s with harts := s.harts.map fun H => if bit H.mie.toNat n then { H with mip := setBit H.mip n true } else H }

/-- What follows the freeze of an alarm (Table 14-6): the actions of its class's policy, the report. -/
def alarmActions (s : State) (cls code : Nat) : State :=
  let p := s.policy cls
  let s3 := if p ≥ 1 then failTdis (eraseTenants s) else s
  let s4 := if p ≥ 2 then { zeroFabric s3 with trust := { s3.trust with lock := true } } else s3
  let n := s4.trust.alarms
  pendMachine { s4 with trust := { s4.trust with
    lastalm := BitVec.ofNat 8 code, alarms := if n = 0xFF#8 then n else n + 1#8 } } 18

/-- A rollback is in progress on a region that keeps its pages. -/
def State.rollingBack (s : State) : Bool := s.regions.any fun R => R.roll.isSome

/-- AN ALARM (R453): the freeze of every region, and then what follows it, once every rollback in progress has ended. -/
def raiseAlarm (s : State) (cls code : Nat) : State :=
  let some_ := s.regions.any fun R => R.st == .running
  let s1 := { s with regions := s.regions.map (Region.alarm code) }
  let s2 := if some_ then s1.pend 1 else s1
  if s2.rollingBack then { s2 with trust := { s2.trust with due := s2.trust.due ++ [(cls, code)] } } else alarmActions s2 cls code

/-- The actions of alarms that waited for rollbacks, once these have ended. -/
def State.alarmsDue (s : State) : State :=
  if s.trust.due.isEmpty || s.rollingBack then s
  else s.trust.due.foldl (fun s a => alarmActions s a.1 a.2) { s with trust := { s.trust with due := [] } }

/-- SECURITY_ALARM (R453): an alarm of a class with its code (Table 14-5). -/
def execSecurityAlarm (cls : Nat) (code : BitVec 8) (s : State) : Out1 := .next (raiseAlarm s cls code.toNat)

/-- RAIL_GUARD_VIOLATION (R465): the voltage alarm. -/
def execRailGuardViolation (s : State) : Out1 := .next (raiseAlarm s 0 1)
/-- CLOCK_GUARD_VIOLATION (R467): the clock alarm. -/
def execClockGuardViolation (s : State) : Out1 := .next (raiseAlarm s 1 2)
/-- TAMPER_EVENT (R452): the tamper alarm. -/
def execTamperEvent (s : State) : Out1 := .next (raiseAlarm s 3 4)
/-- TRE_HOURLY_SELF_TEST (R452): a failed known-answer test raises the self-test alarm. -/
def execTreHourlySelfTest (passed : Bool) (s : State) : Out1 := .next (if passed then s else raiseAlarm s 5 6)

/-- A packet dropped for its partition (R418): DROPS counts it and the partition alarm is raised. -/
def dropPacket (s : State) (port : Nat) : State :=
  let up (p : Port) : Port := { p with drops := if p.drops = 0xFFFF#16 then p.drops else p.drops + 1#16 }
  raiseAlarm { s with links := { s.links with ports := modNth s.links.ports port up } } 2 3

/-! ### Accesses of harts, the host and peers at the home agents (R229, R230) -/

/-- The result of an AMO on `w`-bit values (R230). -/
def amoNew (op : AmoOp) (w old v : Nat) : Nat :=
  match op with
  | .add => (old + v) % 2 ^ w
  | .and => old &&& v
  | .or => old ||| v
  | .xor => old ^^^ v
  | .min => if signed w old ≤ signed w v then old else v
  | .max => if signed w old ≥ signed w v then old else v
  | .minu => if old ≤ v then old else v
  | .maxu => if old ≥ v then old else v
  | .swap => v

/-- The bytes that an access touches: 2^log. -/
def opBytes : MemOp → Nat
  | .load l _ _ | .store l _ | .lr l _ | .sc l _ _ | .amo _ l _ _ => 2 ^ l

/-- The access writes. -/
def opWrites : MemOp → Bool
  | .load _ _ _ | .lr _ _ => false
  | _ => true

/-- The register that takes its result, if any. -/
def opDest : MemOp → BitVec 5
  | .load _ _ d | .lr _ d | .sc _ _ d | .amo _ _ _ d => d
  | .store _ _ => 0#5

/-- A value of `n` bytes extended to 64 bits. -/
def extend (n v : Nat) (sgn : Bool) : W64 := if sgn then BitVec.ofInt 64 (signed (8 * n) v) else BitVec.ofNat 64 v

/-- The agent's reservation on a granule holds: it was set less than 2 µs ago, and no write has taken it (R230). -/
def State.holdsResv (s : State) (agent g : Nat) : Bool :=
  let r : Option (Nat × Nat) := if agent < 16 then (s.hart agent).resv else (s.home.resv.find? fun x => x.1 == agent).map (·.2)
  match r with
  | some (h, at_) => h == g && decide (s.cycle < at_ + 2 * Config.microsecond)
  | none => false

/-- An agent's reservation set or given up. -/
def State.setReserved (s : State) (agent : Nat) (g : Option Nat) : State :=
  if agent < 16 then s.modHart agent fun H => { H with resv := g.map fun g => (g, s.cycle) }
  else
    let rest := s.home.resv.filter fun x => x.1 != agent
    { s with home := { s.home with resv := match g with | some g => (agent, g, s.cycle) :: rest | none => rest } }

/-- Bytes that an agent writes: reservations of the other agents on the granule go (R230). -/
def agentWrite (s : State) (agent slot pa : Nat) (bs : List Byte) : State :=
  match targetOf s pa with
  | .peer w off => s.writePeer slot w off bs
  | .none => s
  | _ => breakResv (memWrite s (keyFor s slot pa) pa bs) (some agent) pa

/-- AN AGENT'S ACCESS (R229, R230): none while it waits for a provisional line, else the state after and the result. An
SC succeeds while the reservation holds, answering 0, and otherwise writes nothing and answers 1. -/
def agentAccess (s : State) (agent slot pa : Nat) (op : MemOp) : Option (State × W64) :=
  let n := opBytes op
  if (List.range n).any fun i => provBlocks s none (pa + i) then none
  else
    let old := fromBytes (readBytes s slot pa n)
    match op with
    | .load _ sgn _ => some (s, extend n old sgn)
    | .store _ v => some (agentWrite s agent slot pa (toBytes n v.toNat), 0#64)
    | .lr _ _ => some (s.setReserved agent (some (pa / 64)), extend n old true)
    | .sc _ v _ =>
      if s.holdsResv agent (pa / 64) then
        some ((agentWrite s agent slot pa (toBytes n v.toNat)).setReserved agent none, 0#64)
      else some (s.setReserved agent none, 1#64)
    | .amo o _ v _ =>
      match targetOf s pa with
      | .peer w off => some (s.toPeer (s.slotPart slot) w (.access off op), extend n old true)
      | _ => some (agentWrite s agent slot pa (toBytes n (amoNew o (8 * n) old (v.toNat % 2 ^ (8 * n)))), extend n old true)

/-- HOST_MEMORY_ACCESS (R436, R447, R449, R450): a TDI's access to HBM4E or LPDDR 6 under the slot of its partition, or, numbered 64, the
physical function's under slot 0. A TDI that is not in RUN with EN = 1, or whose partition has no valid slot, receives Unsupported
Request, and nothing changes. The host's agents are 16 and up. -/
def execHostMemoryAccess (tdi pa : Nat) (op : MemOp) (s : State) : Out1 :=
  match s.tdis[tdi]? with
  | none => if tdi = 64 && inDeviceMemory s pa then .next (((agentAccess s (16 + tdi) 0 pa op).map (·.1)).getD s) else .next s
  | some t =>
    if t.st ≠ .run || !t.en || !inDeviceMemory s pa then .next s
    else match s.slotOf t.part with
      | none => .next s
      | some slot => .next (((agentAccess s (16 + tdi) slot pa op).map (·.1)).getD s)

/-- A valid window entry of this device names a peer (R434). -/
def peerKnown (s : State) (dev : Nat) : Bool := (List.range 16).any fun w => match mapGet s.links.windows w with
  | some (v, _, d) => v && d.toNat == dev
  | none => false

/-- The slot under which a peer's access is served (R449). -/
def peerSlot (s : State) (part : BitVec 16) : Option Nat := if part = 0xFFFF#16 then some 0 else s.slotOf part

/-- A peer's write in one of its windows (R434): served where a window entry names it; none while it waits for a provisional line. -/
def serveWindow (s : State) (dev : Nat) (part : BitVec 16) (off : Nat) (bs : List Byte) : Option State :=
  if !peerKnown s dev || !inDeviceMemory s off then some s
  else if (List.range bs.length).any fun i => provBlocks s none (off + i) then none
  else match peerSlot s part with
    | none => some s
    | some slot => some (agentWrite s (81 + dev) slot off bs)

/-- A peer's access in one of its windows (R434): served where a window entry names it; none while it waits for a provisional line. -/
def serveAccess (s : State) (dev : Nat) (part : BitVec 16) (off : Nat) (op : MemOp) : Option State :=
  if !peerKnown s dev || !inDeviceMemory s off then some s
  else match peerSlot s part with
    | none => some s
    | some slot => (agentAccess s (81 + dev) slot off op).map (·.1)

/-- A peer's read-modify-write in one of its windows (R434), executed at the home agent as one of this device's is (R229, R242 to R247):
an f32 RED is held for its ordinal (R246). What goes back is the links' own (log entry 6). -/
def serveAtomic (s : State) (dev : Nat) (part : BitVec 16) (off op opx : Nat) (f : Fmt) (ws : List W32) : Option State :=
  let n := if op = 0xAD then 16 else if f.pair then 8 else 4
  if !peerKnown s dev || !inDeviceMemory s off then some s
  else if (List.range n).any fun i => provBlocks s none (off + i) then none
  else match peerSlot s part with
    | none => some s
    | some slot =>
      let word (k : Nat) : Nat := (readWord s slot (off + 4 * k)).toNat
      let bad : Bool := (List.range (n / 4)).any fun k => s.badWord (off + 4 * k)
      let old := if f.pair then word 0 + 2 ^ 32 * word 1 else word 0
      let e (k : Nat) : Nat := (nth 0#32 ws k).toNat
      let v (p : Nat) : Nat := if f.pair then e (2 * p) + 2 ^ 32 * e (2 * p + 1) else e p
      let put (m x : Nat) : State := if bad then s else agentWrite s (81 + dev) slot off (toBytes m x)
      some (if op = 0xAC && f == .f32 then
          homeContribute s slot (2048 + dev) { word := off / 4, ord := e 0 % 2 ^ 31, last := bit (e 0) 31, value := nth 0#32 ws 1, opx := opx,
                                               key := { (default : Key) with rid := 2048 + dev }, armed := true }
        else if op = 0xAD then
          let c := chunkStep (word 0) (word 1) (word 2) (word 3)
          if c.1 > 0 then put 4 (c.2 + c.1) else s
        else if op = 0xAB then (if old = v 0 then put n (v 1) else s)
        else put n (atomNew opx f old (v 0)))

/-- PEER_ACCESS (R418, R434, R449): a peer's access in one of its windows, served where a valid window entry of this
device names the requester, under slot 0 for partition 0xFFFF and otherwise under the slot of its partition. The port
drops what carries a partition that it does not know. -/
def execPeerAccess (req : PeerReq) (s : State) : Out1 :=
  if !partOn s req.port req.part then .next (dropPacket s req.port)
  else if !peerKnown s req.dev || !inDeviceMemory s req.off then .next s
  else .next ((serveAccess s req.dev req.part req.off req.op).getD s)

end Sys2Proof.Machine
end

