-- ==== Sys2Proof/Machine/Matrix.lean ====
section
/-! DEFINITION. The Matrix Islands (chapter 9): descriptors and their checks, acceptance, operand reads, accumulation,
write-out, codebooks, power gating. -/

namespace Sys2Proof.Machine

/-! ### Fields (Tables 9-4 to 9-6) -/

/-- ACC. -/
def mxAcc (r : Rec) : Nat := bits r.aux.toNat 15 14
/-- CBA, and CB of MCB. -/
def mxCba (r : Rec) : Nat := bits r.aux.toNat 13 12
/-- CBB. -/
def mxCbb (r : Rec) : Nat := bits r.aux.toNat 11 10
/-- LB. -/
def mxLb (r : Rec) : Nat := bits r.aux.toNat 9 7
/-- OFF. -/
def mxOff (r : Rec) : Nat := r.aux.toNat % 64
/-- QM. -/
def mxQm (r : Rec) : BitVec 4 := BitVec.ofNat 4 r.aux.toNat
/-- K. -/
def mxK (r : Rec) : Nat := r.lit.toNat % 2 ^ 13

/-- A descriptor (Table 9-4); `n` is MR or NC. -/
structure Desc where
  base : Nat
  rs   : Nat
  bs   : Nat
  n    : Nat
  rep  : Nat
  deriving DecidableEq, Repr

/-- The descriptor of a token. -/
def descOf (t : Token) : Desc :=
  let e (i : Nat) : Nat := (nth 0#32 t.e i).toNat
  { base := e 0, rs := e 1 % 2 ^ 16, bs := e 1 / 2 ^ 16, n := e 2 % 2 ^ 8 + 1, rep := bits (e 2) 10 8 }

/-- The address of a segment (R302). -/
def Desc.seg (d : Desc) (i b : Nat) : Nat := d.base + (i % 2 ^ (7 - d.rep)) * d.rs + b * d.bs
/-- The address of a scale word or an output row (R302). -/
def Desc.row (d : Desc) (i b : Nat) : Nat := d.base + i * d.rs + b * d.bs

/-- The port's token of an operation. -/
def opTok (ops : List Token) (p : Nat) : Token := nth emptyToken ops p

/-- The format of the B operand (R315). -/
def mmaB (r : Rec) : Fmt :=
  if r.m then (if r.fmt = .e4m3x4 then .e5m2x4 else if r.fmt = .e2m3x5 then .e3m2x5 else r.fmt) else r.fmt

/-- Bytes of a segment (Table 9-2). -/
def segBytes (f : Fmt) : Nat :=
  match f with
  | .cb4x8 => 16 | .e2m3x5 | .e3m2x5 => 28 | .bf16x2 | .f16x2 => 64 | _ => 32

/-- Blocks of 32 along K (R106). -/
def mxBlocks (r : Rec) : Nat := ceilDiv (mxK r) 32

/-! ### The checks of R303 -/

/-- What an operation touches: first byte, bytes, and whether its descriptor is aligned. -/
structure Span where
  addr : Nat
  size : Nat
  ok   : Bool
  deriving DecidableEq, Repr

/-- The descriptor's fields are multiples of 4. -/
def Desc.aligned (d : Desc) : Bool := d.base % 4 == 0 && d.rs % 4 == 0 && d.bs % 4 == 0

/-- Every segment and scale word of an MMA or MMAS, in the order of R303. -/
def mmaSpans (op : Nat) (r : Rec) (ops : List Token) : List Span :=
  let a := descOf (opTok ops 0)
  let b := descOf (opTok ops 1)
  let sa := descOf (opTok ops 2)
  let sb := descOf (opTok ops 3)
  let nb := mxBlocks r
  let spans (n : Nat) (g : Nat → Nat → Span) : List Span := (List.range n).flatMap fun i => (List.range nb).map (g i)
  spans a.n (fun i k => ⟨a.seg i k, segBytes r.fmt, a.aligned⟩) ++ spans b.n (fun i k => ⟨b.seg i k, segBytes (mmaB r), b.aligned⟩)
    ++ (if op = 0xD1 then spans a.n (fun i k => ⟨sa.row i k, 4, sa.aligned⟩) ++ spans b.n (fun i k => ⟨sb.row i k, 4, sb.aligned⟩)
      else [])

/-- Bytes of an output row (R317). -/
def rowBytes (f : Fmt) : Nat := if f = .bf16x2 then 256 else 512

/-- Every output row of a MOUT; BS is no field of its descriptor. -/
def moutSpans (r : Rec) (t : Token) : List Span :=
  let d := { descOf t with bs := 0 }
  (List.range 128).map fun i => ⟨d.row i 0, rowBytes r.fmt, d.aligned⟩

/-- A page lies in the operand band of an island (R298). -/
def Region.inBand (R : Region) (U : Site) (page : Nat) : Bool :=
  R.pageX page / 2 == R.pageX U.id.page / 2 && decide (R.pageY page < 16) == decide (U.side = 0)

/-- The checks of R303: the cause and the address it names. -/
def Region.checkSpans (R : Region) (U : Site) (ss : List Span) : Option (Cause × Nat) :=
  let last (x : Span) : Nat := x.addr + x.size - 1
  match ss.find? fun x => last x ≥ 2 ^ 30 || saPage x.addr ≥ R.pages || saPage x.addr != saPage (last x) with
  | some x => some (.addressRange, x.addr)
  | none =>
    match ss.find? fun x => !x.ok with
    | some x => some (.alignment, x.addr)
    | none =>
      match ss.find? fun x => saOff (last x) ≥ R.carveBase with
      | some x => some (.permission, x.addr)
      | none => (ss.find? fun x => !R.inBand U (saPage x.addr)).map fun x => (.operandBand, x.addr)

/-! ### State of an island -/

/-- The matrix island of a unit. -/
def Site.mxi? (U : Site) : Option Mxi := match U.eng with | .mxi x => some x | _ => none

/-- The region with the state of a matrix island changed. -/
def Region.modMxi (R : Region) (u : UnitId) (f : Mxi → Mxi) : Region :=
  R.modUnit u fun U => match U.eng with | .mxi x => { U with eng := .mxi (f x) } | _ => U

/-- An accumulator at reset (Table 9-1). -/
def Acc.reset : Acc := { i32 := false, c := [], exc := [] }
/-- Accumulator `a`. -/
def Mxi.acc (x : Mxi) (a : Nat) : Acc := nth Acc.reset x.accs a
/-- Codebook `s`. -/
def Mxi.book (x : Mxi) (s : Nat) : List (BitVec 16) := nth [] x.books s

/-- An MMA or MMAS. -/
def isMma (op : Nat) : Bool := op == 0xD0 || op == 0xD1
/-- An operation that names an accumulator. -/
def usesAcc (op : Nat) : Bool := decide (0xD0 ≤ op) && decide (op ≤ 0xD3)

/-- The operation performs nothing: an operand has ERR, or its key was held (R65, R308). -/
def MxiOp.idle (o : MxiOp) : Bool := o.hdr.err || o.replay.isSome

/-- Earlier-accepted operations. -/
def Mxi.before (x : Mxi) (o : MxiOp) : List MxiOp := x.ops.filter fun p => p.id < o.id

/-- An earlier operation on the same accumulator has not finished (R306). -/
def Mxi.accBusy (x : Mxi) (o : MxiOp) : Bool :=
  (x.before o).any fun p => usesAcc p.op && mxAcc p.r == mxAcc o.r && !p.idle

/-- The quadrants that an MMA or MMAS needs (R313). -/
def needQuads (ops : List Token) : BitVec 4 :=
  let mr := (descOf (opTok ops 0)).n
  let nc := (descOf (opTok ops 1)).n
  BitVec.ofNat 4 (1 + (if nc > 64 then 2 else 0) + (if mr > 64 then 4 else 0) + (if mr > 64 && nc > 64 then 8 else 0))

/-- The destinations of an operation's completion. -/
def MxiOp.dests (o : MxiOp) : Sends := sendsOf o.r o.hdr o.hdr

/-- The completion of an operation may be sent: no earlier one on a route of its own is still to be sent (R307). -/
def Mxi.mySend (x : Mxi) (o : MxiOp) : Bool :=
  !((x.before o).any fun p => p.st == .accepted && p.dests.any fun d => o.dests.any fun e => dRoute d.1 == dRoute e.1)

/-- E0 of a completion (Table 9-6). -/
def mxiE0 (op : Nat) (r : Rec) : Nat :=
  if isMma op then mxK r else if op = 0xD3 then (if r.fmt = .bf16x2 then 8192 else 16384) else 0

/-- The completion's token. -/
def MxiOp.done (o : MxiOp) (exc : Bool) : Token :=
  if o.hdr.err then wordToken o.hdr 0
  else
    let v := match o.replay with
      | some ws => (nth 0#32 ws 0).toNat
      | none => mxiE0 o.op o.r
    { wordToken o.hdr v with exc := o.hdr.exc || exc }

/-- The EXC that the first operation of the key bore (R308). -/
def Region.mxiExc (R : Region) (u : UnitId) (o : MxiOp) : Bool :=
  match (R.unit? u).bind (·.mxi?) with
  | some x => x.keys.any fun y => y.is o.node o.hdr && y.exc
  | none => false

/-- The completion of operation `o` leaves, its EXC kept at its key; `keep` leaves the operation in its slot, its completion sent. -/
def Region.mxiComplete (R : Region) (now : Nat) (u : UnitId) (o : MxiOp) (exc keep : Bool) : Region :=
  let e := exc || R.mxiExc u o
  let R1 := R.modMxi u fun x =>
    { x with
      ops := if keep then x.ops.map fun p => if p.id = o.id then { o with st := .read } else p
        else x.ops.filter fun p => p.id != o.id
      keys := if exc then x.keys.map fun y => if y.is o.node o.hdr then { y with exc := true } else y else x.keys }
  let t := o.done e
  let R2 := if o.hdr.err && o.dests.isEmpty then R1.raiseErr u o.hdr else R1
  R2.endOperation now u (sendsOf o.r t t)

/-- A freezing fault of an accepted operation (R303, R52): the firing is undone, its descriptors return to their
matching-store positions, the last to the head of the queue; its key goes. -/
def mxiFault (s : State) (R : Region) (u : UnitId) (o : MxiOp) (c : Cause) (detail : Nat) : State :=
  let tw := R.cfg.tw
  let g := mxOff o.r + inner tw o.hdr.tag % (mxLb o.r + 1)
  let back := o.ops.filter fun t => t.port != o.last.tok.port
  let R1 := R.modMxi u fun x =>
    { x with
      ops := x.ops.filter fun p => p.id != o.id
      keys := x.keys.filter fun y => !y.is o.node o.hdr
      store := x.store ++ (if isMma o.op then back.map fun t => { group := g, port := t.port.toNat, tok := t } else []) }
  let R2 := (R1.putBack u 0 o.last).modUnit u fun U => { U with credits := unspend U.credits o.dests }
  takeFault (s.putRegion R2) R.rid (mkFault u o.node o.hdr c detail)

/-- The place of the error that an operation of accumulator `a` meets: the accumulator, or 16 + the address of its first struck span. -/
def Region.mxiPlace (R : Region) (x : Mxi) (a : Nat) (ss : List Span) : Nat :=
  if x.bad.contains a then a
  else ((ss.find? fun p => R.lineBad p.addr || (List.range (p.size / 4)).any fun i => R.lineBad (p.addr + 4 * i)).map fun p => 16 + p.addr).getD a

/-- An operation meets the uncorrectable error in a place (R321): its region rolls back, or, where that error was met in this round
before, the freezing fault "operand error". A fault after the completion has left keeps the operation in its slot. -/
def mxiMeet (s : State) (R : Region) (u : UnitId) (o : MxiOp) (place : Nat) : State :=
  if !R.metBefore u place o.hdr.round then s.putRegion (R.meet u place o.hdr.round)
  else if o.st = .accepted then mxiFault s R u o .operandError 0
  else takeFault s R.rid (mkFault u o.node o.hdr .operandError 0)

/-- An uncorrectable error stands in a line of some span (R321). -/
def Region.spansBad (R : Region) (ss : List Span) : Bool :=
  ss.any fun x => R.lineBad x.addr || (List.range (x.size / 4)).any fun i => R.lineBad (x.addr + 4 * i)

/-! ### Rounds of an accumulator (R312) -/

/-- What R312 says of an operation of a round about to change accumulator `a`: a fault, a wait, or the island with its
copy. -/
inductive CopyRes where
  | fault
  | wait
  | ok (x : Mxi)

/-- Accumulator `a` has its copy of a round. -/
def Mxi.copied (x : Mxi) (a : Nat) (round : BitVec 12) : Bool := x.copies.any fun c => c.1 == a && c.2.1 == round

/-- The copy before a round's first change of accumulator `a`. -/
def Mxi.copyAcc (x : Mxi) (a : Nat) (round : BitVec 12) : CopyRes :=
  let mine := x.copies.filter fun c => c.1 == a
  let stale : Bool := match mapGet x.touched a with
    | some n => older round n
    | none => false
  if stale then .fault
  else if mine.any fun c => c.2.1 == round then .ok { x with touched := mapPut x.touched a round }
  else if mine.length ≥ 2 then .wait
  else .ok { x with copies := x.copies ++ [(a, round, x.acc a)], touched := mapPut x.touched a round }

/-! ### Acceptance (R305, R306, R308, R309) -/

/-- MODE of an accumulator once every accepted operation has taken effect. -/
def Mxi.modeAfter (x : Mxi) (a : Nat) : Bool :=
  x.ops.foldl (fun m o => if o.op == 0xD2 && mxAcc o.r == a && !o.idle then decide (o.r.fmt = .i32) else m) (x.acc a).i32

/-- The least LEN of the descriptors of a record (Table 9-4). -/
def minLens (op : Nat) : List Nat :=
  match op with
  | 0xD0 => [2, 2]
  | 0xD1 => [2, 2, 1, 1]
  | 0xD3 => [1]
  | 0xD4 => [7]
  | _ => [0]

/-- The checks of acceptance: lengths (R302, R318), addresses (R303), mode (R309). -/
def Region.mxiChecks (R : Region) (U : Site) (x : Mxi) (op : Nat) (r : Rec) (ops : List Token) : Option (Cause × Nat) :=
  let lens := minLens op
  if (List.range lens.length).any fun p => (opTok ops p).len.toNat < nth 0 lens p then some (.packetLengthMismatch, 0)
  else if isMma op then
    match R.checkSpans U (mmaSpans op r ops) with
    | some f => some f
    | none =>
      if x.modeAfter (mxAcc r) != (op == 0xD0 && r.fmt == .i8x4) then some (.accumulatorMode, 0) else none
  else none

/-- The operation that a firing accepts, where the take is ready (R306): a slot, room in the key store, a credit on each
destination route. -/
inductive AcceptRes where
  | wait
  | fault (c : Cause) (detail : Nat)
  | ok (R : Region) (o : MxiOp)

/-- Acceptance of an operation with its operands in port order. -/
def Region.mxiAccept (R : Region) (k : Take) (x : Mxi) (op : Nat) (r : Rec) (ops : List Token) : AcceptRes :=
  let hdr := headerOf ops .n32
  let held := x.keys.find? fun y => y.is k.t.node hdr
  if x.ops.length ≥ 8 || (held.isNone && x.keys.length ≥ 256) || !k.U.canSend (sendsOf r hdr hdr) then .wait
  else
    let bad := if hdr.err || held.isSome then none else R.mxiChecks k.U x op r ops
    match bad with
    | some (c, d) => .fault c d
    | none =>
      let o : MxiOp :=
        { id := x.nextId, op := op, r := r, node := k.t.node, ops := ops, last := k.qt, hdr := hdr, st := .accepted,
          bookA := [], bookB := [], data := [], bdata := [], sas := [], sbs := [],
          replay := if hdr.err then none else held.map (·.payload) }
      let key : IKey := { node := k.t.node, tag := hdr.tag, frame := hdr.frame, round := hdr.round, seq := hdr.seq,
                          payload := [BitVec.ofNat 32 (if hdr.err then 0 else mxiE0 op r)], exc := false, err := false }
      .ok ((R.modMxi k.u fun x =>
        { x with ops := x.ops ++ [o], nextId := x.nextId + 1, keys := if held.isSome then x.keys else x.keys ++ [key] }).modUnit
          k.u fun U => { U with credits := spend U.credits (sendsOf r hdr hdr) }) o

/-- MZERO applied (R316), where its turn has come and its completion may leave. Zeroing reads nothing but what its copy takes. -/
def mzeroApply (s : State) (R : Region) (u : UnitId) (o : MxiOp) : Option State :=
  match (R.unit? u).bind (·.mxi?) with
  | none => none
  | some x =>
    if !x.mySend o then none
    else if o.idle then some (s.putRegion (R.mxiComplete s.cycle u o false false))
    else if x.accBusy o then none
    else if x.bad.contains (mxAcc o.r) && !x.copied (mxAcc o.r) o.hdr.round then some (mxiMeet s R u o (mxAcc o.r))
    else match x.copyAcc (mxAcc o.r) o.hdr.round with
      | .wait => none
      | .fault => some (mxiFault s R u o .accumulatorRound 0)
      | .ok x' =>
        let zero : Acc := { i32 := decide (o.r.fmt = .i32), c := [], exc := [] }
        let R1 := R.modMxi u fun _ =>
          { x' with accs := modNth x'.accs (mxAcc o.r) fun _ => zero, bad := x'.bad.filter (· != mxAcc o.r) }
        some (s.putRegion (R1.mxiComplete s.cycle u o false false))

/-- An earlier operation feeds quadrants of a mask (R313). -/
def Mxi.feeds (x : Mxi) (o : MxiOp) (q : BitVec 4) : Bool :=
  (x.before o).any fun p => isMma p.op && !p.idle && needQuads p.ops &&& q != 0#4

/-- MWAKE and MGATE complete where there is nothing to change, or with the change `go` (R313, R319). -/
def powerApply (s : State) (R : Region) (u : UnitId) (o : MxiOp) (go : Bool) : Option State :=
  match (R.unit? u).bind (·.mxi?) with
  | none => none
  | some x =>
    let q := mxQm o.r
    let next := if o.op = 0xD5 then x.awake ||| q else x.awake &&& ~~~ q
    if !x.mySend o then none
    else if o.idle then some (s.putRegion (R.mxiComplete s.cycle u o false false))
    else if (o.op = 0xD6 && x.feeds o q) || (!go && next != x.awake) then none
    else some (s.putRegion ((R.modMxi u fun x => { x with awake := next }).mxiComplete s.cycle u o false false))

/-- THE TAKE OF A MATRIX RECORD (R305, R306): matched, then accepted; MZERO, MWAKE and MGATE that have nothing to wait
for take effect with it. -/
def mxiExec (s : State) (op : Nat) (r : Rec) : State :=
  match s.islandTaking with
  | none => s
  | some (rid, k) =>
    match k.U.mxi? with
    | none => s
    | some x =>
      let accept (R : Region) (ops : List Token) : State :=
        match R.mxiAccept k x op r ops with
        | .wait => s
        | .fault c d => takeFault s rid (mkFault k.u k.t.node k.t c d)
        | .ok R1 o =>
          let s1 := s.putRegion R1
          let now? := if op = 0xD2 then mzeroApply s1 R1 k.u o
            else if op = 0xD5 || op = 0xD6 then powerApply s1 R1 k.u o false else none
          now?.getD s1
      if isMma op then
        match matchGroup x.store (mxOff r + inner k.R.cfg.tw k.t.tag % (mxLb r + 1)) (if op = 0xD1 then 4 else 2) k.t with
        | .collision => faultTake s rid k .operandCollision
        | .quiet items => s.putRegion (k.R.modMxi k.u fun x => { x with store := items })
        | .cancelled items =>
          commitIsland s rid k (.ok (sendsOf r (cancelOf k.t) (cancelOf k.t)) (k.R.modMxi k.u fun x => { x with store := items }))
        | .fire ops items => accept (k.R.modMxi k.u fun x => { x with store := items }) ops
      else accept k.R [k.t]

/-- MMA. -/
def execMma (r : Rec) (s : State) : Out1 := .next (mxiExec s 0xD0 r)
/-- MMAS. -/
def execMmas (r : Rec) (s : State) : Out1 := .next (mxiExec s 0xD1 r)
/-- MZERO. -/
def execMzero (r : Rec) (s : State) : Out1 := .next (mxiExec s 0xD2 r)
/-- MOUT. -/
def execMout (r : Rec) (s : State) : Out1 := .next (mxiExec s 0xD3 r)
/-- MCB. -/
def execMcb (r : Rec) (s : State) : Out1 := .next (mxiExec s 0xD4 r)
/-- MWAKE. -/
def execMwake (r : Rec) (s : State) : Out1 := .next (mxiExec s 0xD5 r)
/-- MGATE. -/
def execMgate (r : Rec) (s : State) : Out1 := .next (mxiExec s 0xD6 r)

/-! ### Operand reads (R304, R307, R311) -/

/-- The operation `k` of a matrix island of a region that lets its work go on. -/
def State.mxiOp? (s : State) (rid : Nat) (u : UnitId) (k : Nat) : Option (Region × Mxi × MxiOp) :=
  match s.region? rid with
  | none => none
  | some R =>
    if !R.winding then none
    else match (R.unit? u).bind (·.mxi?) with
      | none => none
      | some x => (x.ops[k]?).map fun o => (R, x, o)

/-- The words of a span of region SRAM. -/
def Region.spanWords (R : Region) (addr size : Nat) : List W32 :=
  (List.range (size / 4)).map fun i => R.sramWordAt (addr + 4 * i)

/-- Every segment or scale word of one operand, row by row and block by block. -/
def Region.readTile (R : Region) (n nb : Nat) (at_ : Nat → Nat → Nat) (size : Nat) : List W32 :=
  (List.range n).flatMap fun i => (List.range nb).flatMap fun b => R.spanWords (at_ i b) size

/-- An earlier MCB loads a codebook that the operation names (R311). -/
def Mxi.bookBusy (x : Mxi) (o : MxiOp) : Bool :=
  o.r.fmt == .cb4x8 && (x.before o).any fun p => p.op == 0xD4 && !p.idle && (mxCba p.r == mxCba o.r || mxCba p.r == mxCbb o.r)

/-- MMA_OPERANDS_READ (R304, R307): the quadrants are powered, the accumulator's copy is made (R312), every operand line
is read, and the completion with E0 = K leaves. An uncorrectable error in an operand line, a scale line or the accumulator is R321's. -/
def execMmaOperandsRead (rid : Nat) (u : UnitId) (k : Nat) (s : State) : Out1 :=
  match s.mxiOp? rid u k with
  | none => .next s
  | some (R, x, o) =>
    if !isMma o.op || o.st != .accepted || !x.mySend o then .next s
    else if o.idle then .next (s.putRegion (R.mxiComplete s.cycle u o false false))
    else if x.bookBusy o || needQuads o.ops &&& ~~~ x.awake != 0#4 then .next s
    else
      let a := mxAcc o.r
      if x.accBusy o then .next s
      else if x.bad.contains a || R.spansBad (mmaSpans o.op o.r o.ops) then .next (mxiMeet s R u o (R.mxiPlace x a (mmaSpans o.op o.r o.ops)))
      else match x.copyAcc a o.hdr.round with
        | .wait => .next s
        | .fault => .next (mxiFault s R u o .accumulatorRound 0)
        | .ok x' =>
          let da := descOf (opTok o.ops 0)
          let db := descOf (opTok o.ops 1)
          let nb := mxBlocks o.r
          let scales (d : Desc) (n : Nat) : List W32 := if o.op = 0xD1 then R.readTile n nb d.row 4 else []
          let o' := { o with
            data := R.readTile da.n nb da.seg (segBytes o.r.fmt)
            bdata := R.readTile db.n nb db.seg (segBytes (mmaB o.r))
            sas := scales (descOf (opTok o.ops 2)) da.n
            sbs := scales (descOf (opTok o.ops 3)) db.n
            bookA := x.book (mxCba o.r)
            bookB := x.book (mxCbb o.r) }
          .next (s.putRegion ((R.modMxi u fun _ => x').mxiComplete s.cycle u o' false true))

/-! ### Accumulation (R115 to R117, R315) -/

/-- The exact value of element `t` of a segment (R115): a code goes through its codebook. -/
def segNum (f : Fmt) (book : List (BitVec 16)) (seg : List W32) (t : Nat) : Num :=
  if f = .cb4x8 then FF.bf16.decode (nth 0#16 book (f.get seg t)).toNat else f.num false (f.get seg t)

/-- The block partial of two segments (R115). -/
def blockPartial (fa fb : Fmt) (ba bb : List (BitVec 16)) (sa sb : List W32) (n : Nat) : Num :=
  (sumNum .rne ((List.range n).map fun t => ((segNum fa ba sa t).mul (segNum fb bb sb t)).1)).1

/-- One block of an f32 element (R116): the element and its flag. An S24 NaN scale is an invalid operation (Table 3-7). -/
def blockF32 (p sa sb : Num) (c : Nat) : Nat × Bool :=
  let x := p.mul sa
  let y := x.1.mul sb
  let r := FF.f32.rne y.1
  let z := addFmt .f32 .rne false false c r.1
  (z.1, decide (sa = .nan) || decide (sb = .nan) || x.2 || y.2 || r.2 || z.2)

/-- An element after every block of an operation: its encoding and whether a flag was set. -/
def mmaElement (o : MxiOp) (i32 : Bool) (i j : Nat) (c0 : Nat) : Nat × Bool :=
  let nb := mxBlocks o.r
  let fa := o.r.fmt
  let fb := mmaB o.r
  let wa := segBytes fa / 4
  let wb := segBytes fb / 4
  (List.range nb).foldl (fun (acc : Nat × Bool) b =>
    let sa := (o.data.drop ((i * nb + b) * wa)).take wa
    let sb := (o.bdata.drop ((j * nb + b) * wb)).take wb
    let p := blockPartial fa fb o.bookA o.bookB sa sb (min 32 (mxK o.r - 32 * b))
    if i32 then (wrap 32 ((acc.1 : Int) + p.at 0), acc.2)
    else
      let scale (ws : List W32) (n : Nat) : Num :=
        if o.op = 0xD1 then FF.s24.decode ((nth 0#32 ws (n * nb + b)).toNat % 2 ^ 24) else .fin false 1 0
      let z := blockF32 p (scale o.sas i) (scale o.sbs j) acc.1
      (z.1, acc.2 || z.2)) (c0, false)

/-- The accumulator after an operation. -/
def mmaApply (o : MxiOp) (A : Acc) : Acc :=
  let mr := (descOf (opTok o.ops 0)).n
  let nc := (descOf (opTok o.ops 1)).n
  ((List.range mr).flatMap fun i => (List.range nc).map fun j => (i, j)).foldl (fun A (p : Nat × Nat) =>
    let ix := p.1 * 128 + p.2
    let z := mmaElement o A.i32 p.1 p.2 ((mapGet A.c ix).getD 0#32).toNat
    { A with
      c := mapSet A.c ix (if z.1 = 0 then none else some (BitVec.ofNat 32 z.1))
      exc := if z.2 then setAdd A.exc ix else A.exc }) A

/-- MMA_ACCUMULATION_DONE (R306, R315): the accumulation of an operation that has read its operands finishes, in
acceptance order on its accumulator, and its slot is free. An MZERO that waited for it takes effect then (R316). -/
def execMmaAccumulationDone (rid : Nat) (u : UnitId) (k : Nat) (s : State) : Out1 :=
  match s.mxiOp? rid u k with
  | none => .next s
  | some (R, x, o) =>
    if o.op = 0xD2 then .next ((mzeroApply s R u o).getD s)
    else if !isMma o.op || o.st != .read || x.accBusy o then .next s
    else if x.bad.contains (mxAcc o.r) then .next (mxiMeet s R u o (mxAcc o.r))
    else
      .next (s.putRegion (R.modMxi u fun x =>
        { x with ops := x.ops.filter fun p => p.id != o.id, accs := modNth x.accs (mxAcc o.r) (mmaApply o) }))

/-! ### MOUT, MCB, power (R317, R311, R313) -/

/-- The words that MOUT writes and the EXC of its completion (R317). -/
def moutWords (r : Rec) (d : Desc) (A : Acc) : List (Nat × W32) × Bool :=
  let el (i j : Nat) : Nat := ((mapGet A.c (i * 128 + j)).getD 0#32).toNat
  if r.fmt = .bf16x2 then
    let half (i j : Nat) : Nat × Bool := FF.bf16.rne (FF.f32.decode (el i j))
    ((List.range 128).flatMap fun i => (List.range 64).map fun j =>
        (d.row i 0 + 4 * j, BitVec.ofNat 32 ((half i (2 * j)).1 + 2 ^ 16 * (half i (2 * j + 1)).1)),
      (A.c.any fun p => (FF.bf16.rne (FF.f32.decode p.2.toNat)).2) || !A.exc.isEmpty)
  else
    ((List.range 128).flatMap fun i => (List.range 128).map fun j => (d.row i 0 + 4 * j, BitVec.ofNat 32 (el i j)),
      !A.exc.isEmpty)

/-- MOUT_WRITE (R317): after the earlier operations on its accumulator, the rows are checked and written, the
accumulator cleared by `.zero`, the completion sent. -/
def execMoutWrite (rid : Nat) (u : UnitId) (k : Nat) (s : State) : Out1 :=
  match s.mxiOp? rid u k with
  | none => .next s
  | some (R, x, o) =>
    if o.op ≠ 0xD3 || !x.mySend o then .next s
    else if o.idle then .next (s.putRegion (R.mxiComplete s.cycle u o false false))
    else if x.accBusy o then .next s
    else match (R.unit? u).bind fun U => R.checkSpans U (moutSpans o.r (opTok o.ops 0)) with
      | some (c, d) => .next (mxiFault s R u o c d)
      | none =>
        let A := x.acc (mxAcc o.r)
        if x.bad.contains (mxAcc o.r) then .next (mxiMeet s R u o (mxAcc o.r))
        else if (o.r.fmt = .f32 && A.i32) || (o.r.fmt = .i32 && !A.i32) || (o.r.fmt = .bf16x2 && A.i32) then
          .next (mxiFault s R u o .accumulatorMode 0)
        else
          let copy := if o.r.m then x.copyAcc (mxAcc o.r) o.hdr.round else .ok x
          match copy with
          | .wait => .next s
          | .fault => .next (mxiFault s R u o .accumulatorRound 0)
          | .ok x' =>
            let (ws, exc) := moutWords o.r { descOf (opTok o.ops 0) with bs := 0 } A
            let x'' := if o.r.m then { x' with accs := modNth x'.accs (mxAcc o.r) fun A => { A with c := [], exc := [] } } else x'
            match (R.modMxi u fun _ => x'').engineWrite s.cycle o.hdr.round ws with
            | none => .next s
            | some R1 => .next (s.putRegion (R1.mxiComplete s.cycle u o exc false))

/-- The 16 entries of a codebook's token (R103, R318). -/
def bookOf (t : Token) : List (BitVec 16) :=
  (List.range 16).map fun i => BitVec.ofNat 16 ((nth 0#32 t.e (i / 2)).toNat >>> (16 * (i % 2)))

/-- MCB_INSTALL (R311): once every earlier MMA or MMAS that names the slot has read its operands, the old table goes to
the undo list and the new one is installed. -/
def execMcbInstall (rid : Nat) (u : UnitId) (k : Nat) (s : State) : Out1 :=
  match s.mxiOp? rid u k with
  | none => .next s
  | some (R, x, o) =>
    let slot := mxCba o.r
    let used := (x.before o).any fun p => p.st == .accepted && !p.idle
      && ((isMma p.op && p.r.fmt == .cb4x8 && (mxCba p.r == slot || mxCbb p.r == slot)) || (p.op == 0xD4 && mxCba p.r == slot))
    if o.op ≠ 0xD4 || !x.mySend o then .next s
    else if o.idle then .next (s.putRegion (R.mxiComplete s.cycle u o false false))
    else if used || x.bookUndo.length ≥ 16 then .next s
    else
      let x' := { x with books := modNth x.books slot fun _ => bookOf (opTok o.ops 0),
                         bookUndo := x.bookUndo ++ [(slot, o.hdr.round, x.book slot)] }
      .next (s.putRegion ((R.modMxi u fun _ => x').mxiComplete s.cycle u o false false))

/-- QUADRANT_POWER_CHANGE (R313, R319): the quadrants of a waiting MWAKE are powered, those of an MGATE gated, or those
that a waiting MMA or MMAS needs are woken. -/
def execQuadrantPowerChange (rid : Nat) (u : UnitId) (k : Nat) (s : State) : Out1 :=
  match s.mxiOp? rid u k with
  | none => .next s
  | some (R, _, o) =>
    if o.op = 0xD5 || o.op = 0xD6 then .next ((powerApply s R u o true).getD s)
    else if isMma o.op && o.st == .accepted && !o.idle then
      .next (s.putRegion (R.modMxi u fun x => { x with awake := x.awake ||| needQuads o.ops }))
    else .next s

end Sys2Proof.Machine
end

