-- ==== Sys2Proof/Machine/Stochastic.lean ====
section
/-! DEFINITION. The Stochastic Bitstream Engine (chapter 10): stream registers, generation, the records, completion. -/

namespace Sys2Proof.Machine

/-! ### Fields (Table 10-2) -/

/-- LC. -/
def sbLc (r : Rec) : BitVec 2 := BitVec.ofNat 2 (bits r.aux.toNat 15 14)
/-- G. -/
def sbG (r : Rec) : Nat := bits r.aux.toNat 13 10
/-- NC, or RC. -/
def sbNc (r : Rec) : Nat := r.aux.toNat % 512
/-- RD. -/
def sbRd (r : Rec) : Nat := bits r.lit.toNat 26 18
/-- RB. -/
def sbRb (r : Rec) : Nat := bits r.lit.toNat 17 9
/-- RA. -/
def sbRa (r : Rec) : Nat := r.lit.toNat % 512
/-- The matching group of SGEN. -/
def sbGroup (r : Rec) : Nat := r.lit.toNat % 16

/-! ### Streams (R324) -/

/-- The length that LC encodes. -/
def lcLen (c : BitVec 2) : Nat := match c.toNat with | 0 => 64 | 1 => 256 | 2 => 1024 | _ => 4096

/-- A stream register at reset. -/
def SReg.reset : SReg := { lc := 0#2, b := 0#4096, lm := 0#16, rnd := none }

/-- Register `i` of an engine. -/
def Sbe.reg (x : Sbe) (i : Nat) : SReg := (mapGet x.regs i).getD SReg.reset

/-- The length of a register. -/
def SReg.len (g : SReg) : Nat := lcLen g.lc

/-- The ones of a number below bit `n`. -/
def onesOf : Nat → Nat → Nat
  | 0, _ => 0
  | n + 1, v => v % 2 + onesOf n (v / 2)

/-- The count of a register (R324). -/
def SReg.count (g : SReg) : Nat := onesOf g.len g.b.toNat

/-! ### Generation (R336, R337) -/

/-- Positions i and j of a list exchanged. -/
def swapAt (l : List Nat) (i j : Nat) : List Nat :=
  let a := nth 0 l i
  let b := nth 0 l j
  (l.set i b).set j a

/-- The permutation after step `i` and the `n` steps from it on (R336). -/
def permFrom (L start key : Nat) : Nat → Nat → List Nat → List Nat
  | 0, _, perm => perm
  | n + 1, i, perm =>
    let w := (nth 0#32 (kd10 ((start + i / 4) % 2 ^ 128) key) (i % 4)).toNat
    permFrom L start key n (i + 1) (swapAt perm i (i + w * (L - i) / 2 ^ 32))

/-- sgen_bits(c, L, C, K) of R336: the first c steps decide it. -/
def sgenBits (c L start key : Nat) : BitVec 4096 :=
  let perm := permFrom L start key (min c (L - 1)) 0 (List.range L)
  BitVec.ofNat 4096 ((perm.take c).foldl (fun v j => v + 2 ^ j) 0)

/-- The count of an SGEN value, and whether EXC is set (R337). -/
def sgenCount (r : Rec) (L : Nat) (x : W32) : Nat × Bool :=
  if r.fmt = .n32 then (if x.toNat > L then (L, true) else (x.toNat, false))
  else
    let v := FF.f32.decode x.toNat
    let p : Num :=
      if r.m then
        match (sumNum .rne [v, .fin false 1 0]).1 with
        | .fin s m e => .fin s m (e - 1)
        | y => y
      else v
    match p with
    | .nan => (0, true)
    | .inf n => if n then (0, true) else (L, true)
    | .fin s m e =>
      if s && m ≠ 0 then (0, true)
      else if (Num.fin false 1 0).lt p then (L, true)
      else (roundNat .rne false m (e + log2 L) 0 0, false)

/-! ### State of an engine -/

/-- The stochastic engine of a unit. -/
def Site.sbe? (U : Site) : Option Sbe := match U.eng with | .sbe x => some x | _ => none

/-- The region with the state of an engine changed. -/
def Region.modSbe (R : Region) (u : UnitId) (f : Sbe → Sbe) : Region :=
  R.modUnit u fun U => match U.eng with | .sbe x => { U with eng := .sbe (f x) } | _ => U

/-- Registers that an operation reads (Table 10-3). -/
def SbeOp.reads (o : SbeOp) : List Nat :=
  let from_ (a : Nat) : List Nat := (List.range (sbNc o.r + 1)).map (a + ·)
  match o.op with
  | 0xE1 | 0xE2 | 0xE4 => [sbRa o.r, sbRb o.r]
  | 0xE3 => [sbRa o.r, sbRb o.r, sbNc o.r]
  | 0xE5 | 0xEA => from_ (sbRa o.r)
  | 0xE6 => from_ (sbRa o.r) ++ from_ (sbRb o.r)
  | 0xE7 | 0xE8 => [sbRa o.r]
  | _ => []

/-- Registers that an operation writes (Table 10-3). -/
def SbeOp.writes (o : SbeOp) : List Nat :=
  match o.op with
  | 0xE0 => (List.range ((opTok o.ops 0).len.toNat + 1)).map (sbRd o.r + ·)
  | 0xE9 | 0xEB => (List.range (sbNc o.r + 1)).map (sbRd o.r + ·)
  | 0xE5 | 0xE6 | 0xEA => []
  | _ => [sbRd o.r]

/-- The operation performs nothing (R332, R334). -/
def SbeOp.idle (o : SbeOp) : Bool := o.hdr.err || o.replay.isSome

/-- An earlier operation touches a register of this one, and one of the two writes it (R331). -/
def Sbe.regBusy (x : Sbe) (o : SbeOp) : Bool :=
  !o.idle && x.ops.any fun p => decide (p.id < o.id) && !p.idle
    && (p.writes.any (fun g => o.reads.contains g || o.writes.contains g) || p.reads.any o.writes.contains)

/-- Destinations of an operation's tokens. -/
def SbeOp.dests (o : SbeOp) : Sends := sendsOf o.r o.hdr o.hdr

/-- No earlier operation has still to send on a route of this one (R332). -/
def Sbe.mySend (x : Sbe) (o : SbeOp) : Bool :=
  !(x.ops.any fun p => decide (p.id < o.id) && p.dests.any fun d => o.dests.any fun e => dRoute d.1 == dRoute e.1)

/-! ### What an operation computes -/

/-- The registers in which an operation meets an uncorrectable error (R346): those that it reads, or that it copies before the round's
first change of them (R335). -/
def Sbe.struck (x : Sbe) (o : SbeOp) : List Nat :=
  let copied (i : Nat) : Bool := x.copies.any fun c => c.1 == i && c.2.1 == o.hdr.round
  x.bad.filter fun i => o.reads.contains i || (o.writes.contains i && !copied i)

/-- An SLOADV reads a word of region SRAM that an uncorrectable error has struck: its result carries ERR (R206). -/
def Region.loadBad (R : Region) (o : SbeOp) : Bool :=
  o.op == 0xE9 &&
    (let a := (nth 0#32 (opTok o.ops 0).e 0).toNat
     (List.range ((sbNc o.r + 1) * (lcLen (sbLc o.r) / 32))).any fun i =>
       ((R.mu? (saPage (a + 4 * i))).map fun m => m.bad.contains (saOff (a + 4 * i) / 4)).getD false)

/-- The effect of an operation: registers changed, words stored, the payload of D0 with its format, that of D1 where it
differs, EXC. -/
structure SbeEffect where
  regs : List (Nat × SReg)
  mem  : List (Nat × W32)
  fmt  : Fmt
  d0   : List W32
  d1   : Option (List W32)
  exc  : Bool
  deriving DecidableEq, Repr

/-- An effect on one register, its count in E0. -/
def regEffect (rd : Nat) (g : SReg) : SbeEffect :=
  { regs := [(rd, g)], mem := [], fmt := .n32, d0 := [BitVec.ofNat 32 g.count], d1 := none, exc := false }

/-- The pairwise disjointness of lineage masks (R326). -/
def disjointMasks : List (BitVec 16) → Bool
  | [] => true
  | m :: ms => (ms.all fun k => m &&& k == 0#16) && disjointMasks ms

/-- The mask of the low `n` bits. -/
def lowMask (n : Nat) : BitVec 4096 := BitVec.ofNat 4096 (2 ^ n - 1)

/-- SAND, SXNOR, SMUX and SOR (R340). -/
def bitwiseEffect (x : Sbe) (op : Nat) (r : Rec) : Except Cause SbeEffect :=
  let A := x.reg (sbRa r)
  let B := x.reg (sbRb r)
  let X := x.reg (sbNc r)
  let ins := if op = 0xE3 then [A, B, X] else [A, B]
  if ins.any fun g => g.lc != A.lc then .error .streamLength
  else if !disjointMasks (ins.map (·.lm)) then .error .streamCorrelation
  else
    let y := match op with
      | 0xE1 => A.b &&& B.b
      | 0xE2 => ~~~ (A.b ^^^ B.b) &&& lowMask A.len
      | 0xE4 => A.b ||| B.b
      | _ => (B.b &&& X.b) ||| (A.b &&& ~~~ X.b)
    .ok (regEffect (sbRd r) { lc := A.lc, b := y, lm := ins.foldl (fun m g => m ||| g.lm) 0#16, rnd := none })

/-- The loop of SDOT over granules of 64 bit-pairs (R343): d, s and b at its exit. -/
def sdotLoop (ones : Nat → Nat) (total t : Nat) : Nat → Nat → Nat → Nat × Nat × Nat
  | 0, s, b => (b2n (decide (s ≥ t)), s, b)
  | n + 1, s, b =>
    if s ≥ t then (1, s, b)
    else if s + (total - b) < t then (0, s, b)
    else sdotLoop ones total t n (s + ones (b / 64)) (b + 64)

/-- SDOT (R343). -/
def sdotEffect (x : Sbe) (r : Rec) (t : Nat) : Except Cause SbeEffect :=
  let n := sbNc r + 1
  let a (q : Nat) : SReg := x.reg (sbRa r + q)
  let b (q : Nat) : SReg := x.reg (sbRb r + q)
  let qs := List.range n
  let L := (a 0).len
  if qs.any fun q => (a q).lc != (a 0).lc || (b q).lc != (a 0).lc then .error .streamLength
  else if qs.any fun q => (a q).lm &&& (b q).lm != 0#16 then .error .streamCorrelation
  else
    let ones (g : Nat) : Nat :=
      let q := g / (L / 64)
      let i := g % (L / 64) * 64
      let u := ((a q).b.toNat >>> i) % 2 ^ 64
      let v := ((b q).b.toNat >>> i) % 2 ^ 64
      let both := onesOf 64 (if r.m then u ^^^ v else u &&& v)
      if r.m then 64 - both else both
    let res := sdotLoop ones (n * L) t (n * L / 64 + 1) 0 0
    .ok { regs := [], mem := [], fmt := .n32, d0 := [res.1, res.2.1, res.2.2].map (BitVec.ofNat 32), d1 := none, exc := false }

/-- The draw state after `n` counters (R337, R338). -/
def drawState (t : Token) (n : Nat) : List W32 := words128 ((val128 t.e 0 + n) % 2 ^ 128) ++ words128 (val128 t.e 4)

/-- SGEN (R337). -/
def sgenEffect (r : Rec) (v t : Token) : SbeEffect :=
  let n := v.len.toNat + 1
  let L := lcLen (sbLc r)
  let cs := (List.range n).map fun q => sgenCount r L (nth 0#32 v.e q)
  let reg (q : Nat) : SReg :=
    { lc := sbLc r, b := sgenBits (nth (0, false) cs q).1 L ((val128 t.e 0 + 1024 * q) % 2 ^ 128) (val128 t.e 4),
      lm := BitVec.ofNat 16 (2 ^ sbG r), rnd := none }
  { regs := (List.range n).map fun q => (sbRd r + q, reg q), mem := [], fmt := .n32, d0 := cs.map fun c => BitVec.ofNat 32 c.1,
    d1 := some (drawState t (1024 * n)), exc := cs.any (·.2) }

/-- SREGEN (R338). -/
def sregenEffect (x : Sbe) (r : Rec) (t : Token) : SbeEffect :=
  let g := x.reg (sbRa r)
  let h : SReg :=
    { lc := g.lc, b := sgenBits g.count g.len (val128 t.e 0) (val128 t.e 4), lm := BitVec.ofNat 16 (2 ^ sbG r), rnd := none }
  { regEffect (sbRd r) h with d1 := some (drawState t 1024) }

/-- The bits of a stream repeated or cut to a length (R341). -/
def slenBits (g : SReg) (L : Nat) : BitVec 4096 :=
  let v := g.b.toNat
  BitVec.ofNat 4096 (((List.range (ceilDiv L g.len)).foldl (fun acc i => acc + v * 2 ^ (i * g.len)) 0) % 2 ^ L)

/-- The addresses of the words of `n` registers of a length from an address on (R344). -/
def regAddrs (a n L : Nat) : List (List Nat) :=
  (List.range n).map fun q => (List.range (L / 32)).map fun i => a + q * (L / 8) + 4 * i

/-- The address checks of R344: R208 on every word, and the words of one register in one slice. -/
def Region.checkRegs (R : Region) (as : List (List Nat)) : Option (Cause × Nat) :=
  match R.checkSram 4 as.flatten with
  | some f => some f
  | none => (as.find? fun l => l.any fun a => saPage a != saPage (nth 0 l 0)).map fun l => (.addressRange, nth 0 l 0)

/-- SLOADV (R344). -/
def sloadvEffect (R : Region) (r : Rec) (a : Nat) : Except (Cause × Nat) SbeEffect :=
  let L := lcLen (sbLc r)
  let as := regAddrs a (sbNc r + 1) L
  match R.checkRegs as with
  | some f => .error f
  | none =>
    let reg (l : List Nat) : SReg :=
      { lc := sbLc r, b := BitVec.ofNat 4096 (fromWords (l.map R.sramWordAt)), lm := BitVec.ofNat 16 (2 ^ sbG r), rnd := none }
    let gs := as.map reg
    .ok { regs := (List.range gs.length).map fun q => (sbRd r + q, nth SReg.reset gs q), mem := [], fmt := .n32,
          d0 := [BitVec.ofNat 32 (gs.map SReg.count).sum], d1 := none, exc := false }

/-- SSTOREV (R344). -/
def sstorevEffect (R : Region) (x : Sbe) (r : Rec) (a : Nat) : Except (Cause × Nat) SbeEffect :=
  let n := sbNc r + 1
  let g (q : Nat) : SReg := x.reg (sbRa r + q)
  if (List.range n).any fun q => (g q).lc != (g 0).lc then .error (.streamLength, 0)
  else
    let as := regAddrs a n (g 0).len
    match R.checkRegs as with
    | some f => .error f
    | none =>
      let ws := (List.range n).flatMap fun q =>
        let l := nth [] as q
        (List.range l.length).map fun i => (nth 0 l i, BitVec.ofNat 32 ((g q).b.toNat >>> (32 * i)))
      .ok { regs := [], mem := ws, fmt := .n32, d0 := [BitVec.ofNat 32 ws.length], d1 := none, exc := false }

/-- The effect of an operation (R337 to R344). -/
def sbeEffect (R : Region) (x : Sbe) (o : SbeOp) : Except (Cause × Nat) SbeEffect :=
  let t := opTok o.ops 0
  let r := o.r
  let plain (e : Except Cause SbeEffect) : Except (Cause × Nat) SbeEffect := e.mapError fun c => (c, 0)
  match o.op with
  | 0xE0 => .ok (sgenEffect r t (opTok o.ops 1))
  | 0xE5 =>
    let v (q : Nat) : W32 :=
      let g := x.reg (sbRa r + q)
      if r.m then BitVec.ofInt 32 (2 * (g.count : Int) - g.len) else BitVec.ofNat 32 g.count
    .ok { regs := [], mem := [], fmt := if r.m then .i32 else .n32, d0 := (List.range (sbNc r + 1)).map v, d1 := none,
          exc := false }
  | 0xE6 => plain (sdotEffect x r (nth 0#32 t.e 0).toNat)
  | 0xE7 => .ok (sregenEffect x r t)
  | 0xE8 =>
    let g := x.reg (sbRa r)
    .ok (regEffect (sbRd r) { lc := sbLc r, b := slenBits g (lcLen (sbLc r)), lm := g.lm, rnd := none })
  | 0xE9 => sloadvEffect R r (nth 0#32 t.e 0).toNat
  | 0xEA => sstorevEffect R x r (nth 0#32 t.e 0).toNat
  | 0xEB => .ok { regs := (List.range (sbNc r + 1)).map fun q => (sbRd r + q, { SReg.reset with lc := sbLc r }), mem := [],
                  fmt := .n32, d0 := [0#32], d1 := none, exc := false }
  | op => plain (bitwiseEffect x op r)

/-- How many elements D0's token has. -/
def SbeOp.width (o : SbeOp) : Nat :=
  match o.op with
  | 0xE0 => (opTok o.ops 0).len.toNat + 1
  | 0xE5 => sbNc o.r + 1
  | 0xE6 => 3
  | _ => 1

/-- The payload of D1 where it is the draw state (R337, R338); a repeated operation forms it again from its operand (R473). -/
def SbeOp.draw (o : SbeOp) : Option (List W32) :=
  match o.op with
  | 0xE0 => some (drawState (opTok o.ops 1) (1024 * ((opTok o.ops 0).len.toNat + 1)))
  | 0xE7 => some (drawState (opTok o.ops 0) 1024)
  | _ => none

/-- The payload of D0 as a repeated operation sends it again (R334). -/
def SbeOp.again (o : SbeOp) (ws : List W32) : List W32 := (List.range o.width).map (nth 0#32 ws)

/-- The tokens of an operation with their payloads. -/
def SbeOp.tokens (o : SbeOp) (fmt : Fmt) (d0 : List W32) (d1 : Option (List W32)) (exc : Bool) : Sends :=
  let n := d0.length - 1
  let t0 := { o.hdr with fmt := fmt, len := BitVec.ofNat 3 n, e := clearAbove n d0, exc := o.hdr.exc || exc }
  let t1 := match d1 with
    | none => t0
    | some ws => { t0 with fmt := .raw, len := 7#3, e := clearAbove 7 ws }
  sendsOf o.r t0 t1

/-! ### Copies (R335) -/

/-- The registers changed by an operation of a round, each first copied. -/
def Sbe.setRegs (x : Sbe) (round : BitVec 12) (rs : List (Nat × SReg)) : Sbe :=
  rs.foldl (fun x p =>
    let copied := x.copies.any fun c => c.1 == p.1 && c.2.1 == round
    { x with
      copies := if copied then x.copies else x.copies ++ [(p.1, round, x.reg p.1)]
      bad := setDel x.bad p.1
      regs := mapPut x.regs p.1 { p.2 with rnd := some round } }) x

/-- Copies that a round's change of registers would add. -/
def Sbe.copiesNeeded (x : Sbe) (round : BitVec 12) (rs : List (Nat × SReg)) : Nat :=
  (rs.filter fun p => !x.copies.any fun c => c.1 == p.1 && c.2.1 == round).length

/-- A destination register was changed by a newer round (R335). -/
def Sbe.staleRound (x : Sbe) (round : BitVec 12) (rs : List (Nat × SReg)) : Bool :=
  rs.any fun p => match (x.reg p.1).rnd with
    | some n => older round n
    | none => false

/-! ### Acceptance and completion -/

/-- THE TAKE OF A STOCHASTIC RECORD (R330, R333, R334): matched, its lengths and registers checked, accepted into a slot
with the credits of its destinations. -/
def sbeExec (s : State) (op : Nat) (r : Rec) : State :=
  match s.islandTaking with
  | none => s
  | some (rid, k) =>
    match k.U.sbe? with
    | none => s
    | some x =>
      let accept (R : Region) (ops : List Token) : State :=
        let hdr := headerOf ops .n32
        let held := x.keys.find? fun y => y.is k.t.node hdr
        let draw := if op = 0xE0 then 1 else 0
        let n := (opTok ops 0).len.toNat
        if x.ops.length ≥ 8 || (held.isNone && x.keys.length ≥ 256) || !k.U.canSend (sendsOf r hdr hdr) then s
        else if !hdr.err && held.isNone && (op = 0xE0 || op = 0xE7) && (opTok ops draw).len ≠ 7#3 then
          faultTake s rid k .packetLengthMismatch
        else if !hdr.err && held.isNone && op = 0xE0 && sbRd r + n > 511 then faultTake s rid k .registerRange
        else
          let o : SbeOp := { id := x.nextId, op := op, r := r, node := k.t.node, ops := ops, last := k.qt, hdr := hdr,
                             replay := if hdr.err then none else held.map (·.payload) }
          let key : IKey := { node := k.t.node, tag := hdr.tag, frame := hdr.frame, round := hdr.round, seq := hdr.seq,
                              payload := [], exc := false, err := false }
          s.putRegion ((R.modSbe k.u fun x =>
            { x with ops := x.ops ++ [o], nextId := x.nextId + 1, keys := if held.isSome then x.keys else x.keys ++ [key] }).modUnit
              k.u fun U => { U with credits := spend U.credits (sendsOf r hdr hdr) })
      if op = 0xE0 then
        match matchGroup x.store (sbGroup r) 2 k.t with
        | .collision => faultTake s rid k .operandCollision
        | .quiet items => s.putRegion (k.R.modSbe k.u fun x => { x with store := items })
        | .cancelled items =>
          commitIsland s rid k (.ok (sendsOf r (cancelOf k.t) (cancelOf k.t)) (k.R.modSbe k.u fun x => { x with store := items }))
        | .fire ops items => accept (k.R.modSbe k.u fun x => { x with store := items }) ops
      else accept k.R [k.t]

/-- SGEN. -/
def execSgen (r : Rec) (s : State) : Out1 := .next (sbeExec s 0xE0 r)
/-- SAND. -/
def execSand (r : Rec) (s : State) : Out1 := .next (sbeExec s 0xE1 r)
/-- SXNOR. -/
def execSxnor (r : Rec) (s : State) : Out1 := .next (sbeExec s 0xE2 r)
/-- SMUX. -/
def execSmux (r : Rec) (s : State) : Out1 := .next (sbeExec s 0xE3 r)
/-- SOR. -/
def execSor (r : Rec) (s : State) : Out1 := .next (sbeExec s 0xE4 r)
/-- SCNT. -/
def execScnt (r : Rec) (s : State) : Out1 := .next (sbeExec s 0xE5 r)
/-- SDOT. -/
def execSdot (r : Rec) (s : State) : Out1 := .next (sbeExec s 0xE6 r)
/-- SREGEN. -/
def execSregen (r : Rec) (s : State) : Out1 := .next (sbeExec s 0xE7 r)
/-- SLEN. -/
def execSlen (r : Rec) (s : State) : Out1 := .next (sbeExec s 0xE8 r)
/-- SLOADV. -/
def execSloadv (r : Rec) (s : State) : Out1 := .next (sbeExec s 0xE9 r)
/-- SSTOREV. -/
def execSstorev (r : Rec) (s : State) : Out1 := .next (sbeExec s 0xEA r)
/-- SCLR. -/
def execSclr (r : Rec) (s : State) : Out1 := .next (sbeExec s 0xEB r)

/-- A freezing fault of an accepted operation (R52): the firing is undone, its key gone, its operands back. -/
def sbeFault (s : State) (R : Region) (u : UnitId) (o : SbeOp) (c : Cause) (detail : Nat) : State :=
  let back := o.ops.filter fun t => t.port != o.last.tok.port
  let R1 := R.modSbe u fun x =>
    { x with
      ops := x.ops.filter fun p => p.id != o.id
      keys := x.keys.filter fun y => !y.is o.node o.hdr
      store := x.store ++ (if o.op = 0xE0 then back.map fun t => { group := sbGroup o.r, port := t.port.toNat, tok := t } else []) }
  let R2 := (R1.putBack u 0 o.last).modUnit u fun U => { U with credits := unspend U.credits o.dests }
  takeFault (s.putRegion R2) R.rid (mkFault u o.node o.hdr c detail)

/-- The tokens of operation `o` leave and its slot is free; `payload`, with the flags they bear, is kept at its key (R334). -/
def Region.sbeComplete (R : Region) (now : Nat) (u : UnitId) (o : SbeOp) (es : Sends) (payload : Option (List W32 × Bool)) : Region :=
  let R1 := R.modSbe u fun x =>
    { x with
      ops := x.ops.filter fun p => p.id != o.id
      keys := match payload with
        | some ws => x.keys.map fun y => if y.is o.node o.hdr then { y with payload := ws.1, exc := ws.2, err := o.hdr.err } else y
        | none => x.keys }
  let R2 := if o.hdr.err && es.isEmpty then R1.raiseErr u o.hdr else R1
  R2.endOperation now u es

/-- An operation meets the uncorrectable errors in registers (R346): its region rolls back for the first that this round has not met
before; where it has met them all, the freezing fault "register error". -/
def sbeMeet (s : State) (R : Region) (u : UnitId) (x : Sbe) (o : SbeOp) : State :=
  match (x.struck o).find? fun i => !R.metBefore u i o.hdr.round with
  | some i => s.putRegion (R.meet u i o.hdr.round)
  | none => sbeFault s R u o .registerError 0

/-- The EXC of SGEN's clamp, formed again from the repeated operand (R337). -/
def SbeOp.clamped (o : SbeOp) : Bool :=
  o.op == 0xE0 &&
    (let v := opTok o.ops 0
     (List.range (v.len.toNat + 1)).any fun q => (sgenCount o.r (lcLen (sbLc o.r)) (nth 0#32 v.e q)).2)

/-- The tokens that operation `o` sends again where its key is held (R334), the flags of the first among them; where an operand bears
ERR, the tokens with ERR (R65). -/
def SbeOp.repeated (o : SbeOp) (key : Option IKey) : Sends :=
  let fmt := if o.op = 0xE5 && o.r.m then Fmt.i32 else .n32
  if o.hdr.err then o.tokens fmt (o.again []) (o.draw.map fun _ => List.replicate 8 0#32) false
  else
    let y : IKey := key.getD default
    let o' := { o with hdr := { o.hdr with err := y.err } }
    o'.tokens fmt (o.again y.payload) o.draw (y.exc || o.clamped)

/-- SBE_OPERATION_COMPLETE (R331, R332): operation `k` takes effect, in acceptance order where registers are shared, and
sends its tokens. -/
def execSbeOperationComplete (rid : Nat) (u : UnitId) (k : Nat) (s : State) : Out1 :=
  match s.region? rid with
  | none => .next s
  | some R =>
    if !R.winding then .next s
    else match (R.unit? u).bind (·.sbe?) with
      | none => .next s
      | some x =>
        match x.ops[k]? with
        | none => .next s
        | some o =>
          if !x.mySend o || x.regBusy o then .next s
          else if o.idle then
            .next (s.putRegion (R.sbeComplete s.cycle u o (o.repeated (x.keys.find? fun y => y.is o.node o.hdr)) none))
          else if !(x.struck o).isEmpty then .next (sbeMeet s R u x o)
          else match sbeEffect R x o with
            | .error (c, d) => .next (sbeFault s R u o c d)
            | .ok f =>
              if x.staleRound o.hdr.round f.regs then .next (sbeFault s R u o .registerRound 0)
              else if x.copies.length + x.copiesNeeded o.hdr.round f.regs > 1024 then .next s
              else
                let R1 := R.modSbe u fun x => x.setRegs o.hdr.round f.regs
                match (if f.mem.isEmpty then some R1 else R1.engineWrite s.cycle o.hdr.round f.mem) with
                | none => .next s
                | some R2 =>
                  let o' := if R.loadBad o then { o with hdr := { o.hdr with err := true } } else o
                  .next (s.putRegion (R2.sbeComplete s.cycle u o' (o'.tokens f.fmt f.d0 f.d1 f.exc) (some (f.d0, f.exc))))

end Sys2Proof.Machine
end

