-- ==== Sys2Proof/Machine/Arrivals.lean ====
section
/-! DEFINITION. Arrivals: what comes of the head of a queue that is no firing of its own record: slot writes, sticky
tokens, purges, cancels, markers, end-of-stream tokens, bubbles (R32, R61, R174, R176). -/

namespace Sys2Proof.Machine

/-- The meaning of a matching record (R170), by its opcode. -/
def fireMatching (op : Nat) (r : Rec) (s : State) : Out1 :=
  match op with
  | 0x01 => execIadd r s
  | 0x02 => execIsub r s
  | 0x03 => execImul r s
  | 0x04 => execImulh r s
  | 0x05 => execImad r s
  | 0x06 => execIdiv r s
  | 0x07 => execIrem r s
  | 0x08 => execImin r s
  | 0x09 => execImax r s
  | 0x0C => execIaddc r s
  | 0x0D => execIsubb r s
  | 0x0E => execIdot4 r s
  | 0x0F => execIclamp r s
  | 0x10 => execAnd r s
  | 0x11 => execOr r s
  | 0x12 => execXor r s
  | 0x13 => execAndn r s
  | 0x15 => execLut3 r s
  | 0x16 => execShl r s
  | 0x17 => execShr r s
  | 0x18 => execSar r s
  | 0x19 => execRotl r s
  | 0x1A => execFunl r s
  | 0x1E => execBext r s
  | 0x1F => execBins r s
  | 0x20 => execIcmp r s
  | 0x21 => execSel r s
  | 0x40 => execFadd r s
  | 0x41 => execFsub r s
  | 0x42 => execFmul r s
  | 0x43 => execFfma r s
  | 0x44 => execFmin r s
  | 0x45 => execFmax r s
  | 0x48 => execFcmp r s
  | 0x4B => execFscale r s
  | 0x4C => execFdot2 r s
  | 0x4D => execFamax r s
  | 0x51 => execCvts r s
  | 0x52 => execQpack r s
  | 0x53 => execQunpack r s
  | 0x60 => execPmerge r s
  | 0x62 => execPext r s
  | 0x63 => execPins r s
  | 0x64 => execPbcast r s
  | 0x69 => execDraw r s
  | 0x6A => execCadd128 r s
  | 0x70 => execSteer r s
  | 0x72 => execGate r s
  | 0x84 => execTagset r s
  | 0xA1 => execSt r s
  | 0xA3 => execStrel r s
  | 0xA6 => execStf r s
  | 0xA7 => execStw r s
  | 0xA9 => execFeset r s
  | 0xAA => execAtom r s
  | 0xAB => execCas r s
  | 0xAC => execRed r s
  | _ => .next s

/-- A take of a cell or MU settled by its kind of unit: cells and MUs at once, a CFU record's forwarded tokens through
the request stream (R256). -/
def commitTake (s : State) (rid : Nat) (k : Take) (op : Nat) (r : Rec) (x : TRes) : State :=
  if k.u.pos = 3 then commitMu s rid k x.toM
  else if cfuOp op then commitCfu s rid k op r x
  else commitCell s rid k 2 0 x

/-- The head that the turn names, with its record: at a cell or an MU as R35 chooses it, at an island the head of its
queue. -/
def State.arrival (s : State) : Option (Nat × Take × Nat × Rec) :=
  match s.taking with
  | some (rid, k) => (k.U.recOf k.t).map fun p => (rid, k, p.1, p.2)
  | none => s.islandTaking.bind fun p => (p.2.U.recOf p.2.t).map fun q => (p.1, p.2, q.1, q.2)

/-- SLOT_WRITE (R174, R305, R333): a data token that does not complete its operand set is stored. -/
def execSlotWrite (s : State) : Out1 :=
  match s.arrival with
  | none => .next s
  | some (rid, k, op, r) =>
    if k.t.kind ≠ .data || k.t.act = .purge || k.t.act = .cancel then .next s
    else if k.u.pos = 5 then .next (mxiExec s op r)
    else if k.u.pos = 6 then .next (sbeExec s op r)
    else if k.u.pos = 4 || !matching op r then .next s
    else .next (commitTake s rid k op r (quietRes k op r))

/-- STICKY_ARRIVAL (R174): a sticky token at a matching record is stored, replacing an earlier one; where it completes a
context, the record fires. -/
def execStickyArrival (s : State) : Out1 :=
  match s.arrival with
  | none => .next s
  | some (rid, k, op, r) =>
    if k.t.kind ≠ .data || k.t.act ≠ .sticky || k.u.pos > 3 || !matching op r then .next s
    else match arrive k.R k.U op r k.t with
      | .fire _ _ _ => fireMatching op r s
      | _ => .next (commitTake s rid k op r (quietRes k op r))

/-- PURGE_ARRIVAL (R174, R176): a purge clears the item of its port, or is absorbed. -/
def execPurgeArrival (s : State) : Out1 :=
  match s.arrival with
  | none => .next s
  | some (rid, k, op, r) =>
    if k.t.kind ≠ .data || k.t.act ≠ .purge then .next s
    else if k.u.pos > 3 then .next (commitIsland s rid k (.ok [] k.R))
    else .next (commitTake s rid k op r (purgeArrivalRes k op r))

/-- CANCEL_ARRIVAL (R174, R176, R216): a cancel clears normal items, goes on to D0 and D1, and may leave a mark. -/
def execCancelArrival (s : State) : Out1 :=
  match s.arrival with
  | none => .next s
  | some (rid, k, op, r) =>
    if k.t.kind ≠ .data || k.t.act ≠ .cancel then .next s
    else if k.u.pos = 3 then .next (commitMu s rid k (memCancelRes k op r))
    else if k.u.pos = 5 && isMma op then .next (mxiExec s op r)
    else if k.u.pos = 6 && op = 0xE0 then .next (sbeExec s op r)
    else if k.u.pos > 3 then .next (commitIsland s rid k (.ok (sendsOf r (cancelOf k.t) (cancelOf k.t)) k.R))
    else .next (commitTake s rid k op r (cancelArrivalRes k op r))

/-- A marker, an end-of-stream token or a bubble taken: what it comes to, committed where it was taken. -/
def controlArrival (s : State) (kind : Kind) (f : Take → Nat → Rec → TRes) : State :=
  match s.arrival with
  | none => s
  | some (rid, k, op, r) =>
    if k.t.kind ≠ kind then s
    else if k.u.pos > 3 then commitIsland s rid k (f k op r)
    else commitTake s rid k op r (f k op r)

/-- MARKER_ARRIVAL (R61): a marker is counted; the markers that are complete are forwarded. -/
def execMarkerArrival (s : State) : Out1 := .next (controlArrival s .marker markerArrivalRes)

/-- END_OF_STREAM_ARRIVAL (R32): an end-of-stream token is counted, and forwarded once every port has its count. -/
def execEndOfStreamArrival (s : State) : Out1 := .next (controlArrival s .eos eosArrivalRes)

/-- BUBBLE_ARRIVAL (R61): a bubble is absorbed by the node that it reaches. -/
def execBubbleArrival (s : State) : Out1 := .next (controlArrival s .bubble bubbleArrivalRes)

end Sys2Proof.Machine
end

