-- ==== Sys2Proof/Machine/HartMem.lean ====
section
/-! DEFINITION. The addresses of a hart (R372, R373): PMP, Sv57, the faults of both, and the memory operands of the custom
instructions. The base architecture is RISC-V's, which the manual names and does not repeat (log entry 2). -/

namespace Sys2Proof.Machine

/-- What an access asks of PMP and of the page tables. -/
inductive Kind3 where
  | fetch | load | store
  deriving DecidableEq, Repr

/-- The exception code of an access fault. -/
def accessFault : Kind3 → W64
  | .fetch => 1#64
  | .load => 5#64
  | .store => 7#64

/-- The exception code of a page fault. -/
def pageFault : Kind3 → W64
  | .fetch => 12#64
  | .load => 13#64
  | .store => 15#64

/-- Number of consecutive ones from bit 0 of a NAPOT address. -/
def onesFrom : Nat → Nat → Nat
  | 0, _ => 0
  | n + 1, a => if a % 2 = 1 then 1 + onesFrom n (a / 2) else 0

/-- The physical addresses that PMP entry `i` matches: the first and the one after the last. -/
def Hart.pmpRange (H : Hart) (i : Nat) : Nat × Nat :=
  let c := (nth 0#8 H.pmpcfg i).toNat
  let a := (nth 0#64 H.pmpaddr i).toNat % 2 ^ 54
  match bits c 4 3 with
  | 0 => (0, 0)
  | 1 => (if i = 0 then 0 else (nth 0#64 H.pmpaddr (i - 1)).toNat % 2 ^ 54 * 4, 4 * a)
  | 2 => (4 * a, 4 * a + 4)
  | _ => let size := 2 ^ (onesFrom 54 a + 3); (4 * a / size * size, 4 * a / size * size + size)

/-- PMP lets a mode access `n` bytes at a physical address: the lowest entry that matches a byte of them must match every one, and
decides, locked ones in M-mode too. -/
def Hart.pmpOk (H : Hart) (p : Priv) (k : Kind3) (pa n : Nat) : Bool :=
  match (List.range 16).find? fun i => decide ((H.pmpRange i).1 < pa + n) && decide (pa < (H.pmpRange i).2) with
  | none => p == .m
  | some i =>
    let c := (nth 0#8 H.pmpcfg i).toNat
    decide ((H.pmpRange i).1 ≤ pa) && decide (pa + n ≤ (H.pmpRange i).2)
      && ((p == .m && !bit c 7) || bit c (match k with | .fetch => 2 | .load => 0 | .store => 1))

/-- The mode whose rights a data access has (MPRV). -/
def Hart.dataPriv (H : Hart) : Priv := if bit H.mstatus.toNat 17 then Priv.ofCode (bits H.mstatus.toNat 12 11) else H.priv

/-- A walk of the Sv57 tables from a level down: the physical address, or the exception code. Entries are read under key slot 0, as
S-mode loads that PMP checks. -/
def svWalk (s : State) (H : Hart) (p : Priv) (k : Kind3) (va : Nat) : Nat → Nat → Except W64 Nat
  | l, table =>
    let at_ := table + 8 * bits va (12 + 9 * l + 8) (12 + 9 * l)
    let e := fromBytes (readBytes s 0 at_ 8)
    let ppn := bits e 53 10
    let r := bit e 1
    let w := bit e 2
    let x := bit e 3
    if !H.pmpOk .s .load at_ 8 then .error (accessFault k)
    else if !bit e 0 || (!r && w) || bits e 63 54 ≠ 0 then .error (pageFault k)
    else if r || x then
      let sum := bit H.mstatus.toNat 18
      let mxr := bit H.mstatus.toNat 19
      let rights := match k with
        | .fetch => x
        | .load => r || (mxr && x)
        | .store => w
      let user := if p = .u then bit e 4 else !bit e 4 || (sum && decide (k ≠ .fetch))
      if !rights || !user || ppn % 2 ^ (9 * l) ≠ 0 || !bit e 6 || (decide (k = .store) && !bit e 7) then .error (pageFault k)
      else .ok (ppn / 2 ^ (9 * l) * 2 ^ (12 + 9 * l) + va % 2 ^ (12 + 9 * l))
    else match l with
      | 0 => .error (pageFault k)
      | l' + 1 => svWalk s H p k va l' (ppn * 4096)

/-- THE ADDRESS OF A HART'S ACCESS of `n` bytes in one page: the physical address, or the exception code. -/
def State.hartAddr (s : State) (H : Hart) (p : Priv) (k : Kind3) (va n : Nat) : Except W64 Nat :=
  let pa : Except W64 Nat :=
    if p = .m || bits H.satp.toNat 63 60 ≠ 10 then .ok va
    else if signed 57 va ≠ signed 64 va then .error (pageFault k)
    else svWalk s H p k (va % 2 ^ 57) 4 (H.satp.toNat % 2 ^ 44 * 4096)
  match pa with
  | .error c => .error c
  | .ok a => if !H.pmpOk p k a n || !windowOk s a (decide (k = .store)) then .error (accessFault k) else .ok a

/-- A memory operand of a custom instruction: it waits for a provisional line, it traps with a code and an address, or every
byte has a physical address. -/
inductive Operand3 where
  | wait
  | trap (code : W64) (va : Nat)
  | ok (pa : Nat → Nat)

/-- The `j`-th part of `n` bytes at an address, cut at the multiples of 8: its first byte and its length. No part crosses a page. -/
def partOf (va n j : Nat) : Nat × Nat :=
  let a := if j = 0 then va else va - va % 8 + 8 * j
  (a, min (va - va % 8 + 8 * (j + 1)) (va + n) - a)

/-- The operand of `n` bytes at a virtual address of the issuing hart (R373), each part of it translated and checked. -/
def State.operand (s : State) (k : Kind3) (va : W64) (n : Nat) : Operand3 :=
  let H := s.hart s.me
  let v := va.toNat
  let part (j : Nat) : Except W64 Nat := s.hartAddr H H.dataPriv k ((partOf v n j).1 % 2 ^ 64) (partOf v n j).2
  let js := List.range (ceilDiv (v % 8 + n) 8)
  let bad := js.findSome? fun j => match part j with
    | .error c => some (c, (partOf v n j).1 % 2 ^ 64)
    | .ok _ => none
  match bad with
  | some (c, a) => .trap c a
  | none =>
    let pa (i : Nat) : Nat := match part ((v % 8 + i) / 8) with
      | .ok a => a + (v + i - (partOf v n ((v % 8 + i) / 8)).1)
      | .error _ => 0
    if js.any fun j => provBlocks s none (pa ((partOf v n j).1 - v)) then .wait else .ok pa

/-- The instruction ends in a trap of its memory operand: nothing else has changed (R373). -/
def trapOperand (s : State) (code : W64) (va : Nat) : State := s.modHart s.me fun H => H.trap code (BitVec.ofNat 64 va)

/-- A byte of a memory operand, read under key slot 0. -/
def State.operandByte (s : State) (pa : Nat → Nat) (i : Nat) : Byte := nth 0#8 (readBytes s 0 (pa i) 1) 0

/-- Bytes written to a memory operand from an offset on, under key slot 0. -/
def operandWrite (pa : Nat → Nat) : Nat → List Byte → State → State
  | _, [], s => s
  | i, b :: t, s => operandWrite pa (i + 1) t (writeBytes s 0 (pa i) [b])

/-- The `n` bytes at an address from which a hart fetches, or the exception. -/
def State.fetchAt (s : State) (H : Hart) (n : Nat) (va : W64) : Except (W64 × W64) Nat :=
  match s.hartAddr H H.priv .fetch va.toNat n with
  | .error c => .error (c, va)
  | .ok pa => .ok (fromBytes (readBytes s 0 pa n))

/-- The instruction at a hart's pc (R372), its bits and its length, or the exception code and its value: two bytes, and two more
where the lowest two bits are 11. -/
def State.fetchHart (s : State) (h : Nat) : Except (W64 × W64) (W32 × Nat) :=
  let H := s.hart h
  match s.fetchAt H 2 H.pc with
  | .error e => .error e
  | .ok lo =>
    if lo % 4 ≠ 3 then .ok (BitVec.ofNat 32 lo, 2)
    else match s.fetchAt H 2 (H.pc + 2#64) with
      | .error e => .error e
      | .ok hi => .ok (BitVec.ofNat 32 (lo + 2 ^ 16 * hi), 4)

end Sys2Proof.Machine
end

