-- ==== Sys2Proof/Machine/Link.lean ====
section
/-! DEFINITION. The links (chapter 13): the link and call records, what leaves a link gateway after confirmation, what
arrives from other regions and devices, reduction trees, probes, call responses. -/

namespace Sys2Proof.Machine

/-! ### The records (R423 to R430) -/

/-- THE TAKE OF A LINK OR CALL RECORD: accepted into the link gateway's Siding, its local completion sent (R424). -/
def linkExec (s : State) (op : Nat) (r : Rec) : State :=
  match s.taking with
  | none => s
  | some (rid, k) =>
    match linkRes s k op r with
    | .wait => s
    | .fault c d => takeFault s rid (mkFault k.u k.t.node k.t c d)
    | .vaFault c va => takeFault s rid (mkVaFault k.u k.t.node k.t c va)
    | .park va wr =>
      match s.region? rid with
      | none => s
      | some R =>
        if R.headParked k.u k.q va then s
        else queueReport s R { unit := k.u, acc := k.q, va := va, write := wr, reported := false }
    | .ok reserve now R =>
      if !k.U.canSend reserve then s
      else
        let R1 := R.modUnit k.u fun U =>
          { U with credits := spend U.credits reserve, outq := U.outq ++ outsOf (s.cycle + 2) now, rot := k.q, nextTake := s.cycle + 1 }
        { s.putRegion R1 with links := { s.links with nextId := s.links.nextId + 1 } }

/-- SEND (R425). -/
def execSend (r : Rec) (s : State) : Out1 := .next (linkExec s 0xF0 r)
/-- RECV (R425). -/
def execRecv (r : Rec) (s : State) : Out1 := .next (linkExec s 0xF1 r)
/-- POST (R427). -/
def execPost (r : Rec) (s : State) : Out1 := .next (linkExec s 0xF2 r)
/-- NRED (R428). -/
def execNred (r : Rec) (s : State) : Out1 := .next (linkExec s 0xF3 r)
/-- CALL (R430). -/
def execCall (r : Rec) (s : State) : Out1 := .next (linkExec s 0xF4 r)

/-- A later token of a link record (R424) waits to leave on the credit that the firing reserved for it. -/
def Region.laterToken (R : Region) (now : Nat) (u : UnitId) (d : BitVec 16) (t : Token) : Region :=
  R.modUnit u fun U => { U with outq := U.outq ++ [{ route := dRoute d, ready := now, paid := true, tok := aim t d }] }

/-! ### What arrives at a region (R421, R426, R427) -/

/-- The region of an id and partition that receives items (R427). -/
def State.receiver? (s : State) (rid : Nat) (part : BitVec 16) : Option Region :=
  s.regions.find? fun R => R.rid == rid && R.part == part && !R.killing
    && (R.st == .loaded || R.st == .running || R.st == .frozen || R.st == .quiesced)

/-- The region that an item names is being killed, or was killed and its id not issued again (R426, Table 13-6). -/
def State.gone (s : State) (rid : Nat) : Bool :=
  match s.region? rid with
  | some R => R.killing
  | none => (mapGet s.yard.gens rid).isSome

/-- The origin that names an item's ALLOW credit. -/
def creditOrg (s : State) (p : Packet) : UnitId := ⟨if p.srcDev = s.self then p.srcRid else p.srcRid + 2048 * (p.srcDev + 2), 7⟩

/-- An item kept by the receiving gateway (R421). -/
def keptItem (p : Packet) (t : Token) : Item :=
  { id := p.id, pins := [], pkt := some p, dest := none, tok := t, global := false, addr := 0, words := [], onWay := false,
    stamped := none }

/-- A token placed at the receiving gateway's ingress (R82), and kept (R421). -/
def Region.takeIn (R : Region) (s : State) (p : Packet) (t : Token) : Region :=
  let f : Flight := { tok := t, org := creditOrg s p, route := 16 + p.cap, sid := p.id, loc := .ingress p.eport,
                      since := s.cycle, cfuOp := none }
  { R with items := R.items ++ [{ keptItem p t with onWay := true }], flights := R.flights ++ [f] }

/-- Items that wait at this device for a region it does not hold (R427). -/
def State.homeless (s : State) : Nat :=
  (s.links.waiting.filter fun p => (s.receiver? p.dstRid p.part).isNone).length

/-- An item added to those that wait. -/
def State.wait (s : State) (p : Packet) : State := { s with links := { s.links with waiting := s.links.waiting ++ [p] } }

/-- An item that no region receives any more (R33, R426): a token is dropped, its credit back; a message's or POST's sender is
answered with status 3. -/
def dropItem (s : State) (p : Packet) : State :=
  match p.body with
  | .token _ => s.returnAllow p.part (creditOrg s p).page p.cap
  | _ => answerSender s p 3 0 (packetBytes p)

/-- A token, message or POST delivered to this device: kept for its region where its Siding has room, held until that is loaded (256 at
most), or answered "no destination" (R421, R426, R427). None while it must wait where it is. -/
def deliverItem (s : State) (p : Packet) : Option State :=
  let hold : Option State := if s.homeless < 256 then some (s.wait p) else none
  match s.receiver? p.dstRid p.part, p.body with
  | some R, .token t => if R.inRoom s (keptItem p t) then some (s.putRegion (R.takeIn s p t)) else none
  | some R, .message _ _ _ =>
    if R.inRoom s (keptItem p emptyToken) then some (s.putRegion { R with items := R.items ++ [keptItem p emptyToken] }) else none
  | some _, _ => some (s.wait p)
  | none, _ => if s.gone p.dstRid then some (dropItem s p) else hold

/-- A region just loaded takes what waited for it (R427); posts wait on for POST_DELIVERY. -/
def adoptWaiting (s : State) (rid : Nat) : State :=
  match s.region? rid with
  | none => s
  | some R =>
    let mine (p : Packet) : Bool := p.dstRid == rid && p.part == R.part && match p.body with
      | .token _ => true
      | .message _ _ _ => true
      | _ => false
    (s.links.waiting.filter mine).foldl (fun s p =>
      let s1 := { s with links := { s.links with waiting := delFirst (· == p) s.links.waiting } }
      (deliverItem s1 p).getD s) s

/-! ### Reduction trees (R428, R429) -/

/-- A tree entry. -/
def State.tree (s : State) (t : Nat) : Tree :=
  (mapGet s.links.trees t).getD
    { v := false, loc := false, root := false, parent := 0#4, child := 0#16, part := 0#16, deadline := 0#20 }

/-- The instance of a tree. -/
def State.inst? (s : State) (t i : Nat) : Option Inst := s.links.insts.find? fun x => x.tree == t && x.inst == i

/-- An instance changed. -/
def State.modInst (s : State) (t i : Nat) (f : Inst → Inst) : State :=
  { s with links := { s.links with insts := modFirst (fun x => x.tree == t && x.inst == i) f s.links.insts } }

/-- A packet of a tree. -/
def treePacket (s : State) (t : Nat) (body : Body) : Packet :=
  { srcDev := s.self, srcRid := 0, cap := 0, dstDev := 0, dstRid := 0, eport := t, part := (s.tree t).part,
    id := s.links.nextId, body := body }

/-- The outcome of an instance as it goes to another node. -/
def outcomeBody (t i : Nat) : Except (Nat × Nat × Nat) (List W32 × Bool) → Body
  | .ok (ws, exc) => .result t i ws exc
  | .error (c, b, d) => .failure t i c b d

/-- The outcome at the local contributor (R428, R429): its words wait for the MARK, its token, with the
trigger's EXC and the reduction's (R120), waits to leave. -/
def localOutcome (s : State) (tree i : Nat) (loc : Nat × Nat × UnitId × BitVec 16 × Token)
    (o : Except (Nat × Nat × Nat) (List W32 × Bool)) : State :=
  let (rid, addr, u, d, hdr) := loc
  let (e, ws, exc) : List Nat × List W32 × Bool := match o with
    | .ok (ws, exc) => ([0, 0, 0, i], ws, exc)
    | .error (c, b, dev) => ([c, b, dev, i], [], false)
  let t : Token := { hdr with fmt := .n32, len := 3#3, exc := hdr.exc || exc, e := clearAbove 3 (e.map (BitVec.ofNat 32)) }
  let it : Item := { id := s.links.nextId, pins := [], pkt := none, dest := some (u, d), tok := t, global := false, addr := addr,
                     words := ws, onWay := true, stamped := none }
  let s1 := (s.modRegion rid fun R => ({ R with items := R.items ++ [it] }).laterToken s.cycle u d t).modInst tree i fun x =>
    { x with loc := some loc, item := some it.id }
  { s1 with links := { s1.links with nextId := s1.links.nextId + 1 } }

/-- The outcomes that every local receiver has confirmed (R429): the item is gone from its region, or the region is. -/
def releaseOutcomes (s : State) : State :=
  let ended (x : Inst) : Bool := x.out.isSome && (match x.loc, x.item with
    | some loc, some i => !((s.region? loc.1).any fun R => R.items.any fun y => y.id == i)
    | _, _ => false)
  { s with links := { s.links with insts := s.links.insts.filter fun x => !ended x } }

/-- The ports of the children of a tree, rising. -/
def childPorts (t : Tree) : List Nat := (List.range 16).filter fun p => bit t.child.toNat p

/-- The inputs of a tree at this node, in the order of combination (R428): 16 is the local one. -/
def treeInputs (t : Tree) : List Nat := (if t.loc then [16] else []) ++ childPorts t

/-- The first outcome of an instance recorded, and sent down to the children and the local contributor; each tree keeps its
last four outcomes, each until its local receiver has confirmed it (R429). -/
def settleInst (s : State) (t i : Nat) (o : Except (Nat × Nat × Nat) (List W32 × Bool)) : State :=
  match (s.inst? t i).filter fun x => x.out.isNone with
  | none => s
  | some x =>
    let s1 := s.modInst t i fun x => { x with out := some o }
    let s2 := (childPorts (s.tree t)).foldl (fun s p => s.putOut p (treePacket s t (outcomeBody t i o))) s1
    let s3 := match x.loc with
      | some loc => localOutcome s2 t i loc o
      | none => s2
    let done := s3.links.insts.filter fun x => x.tree == t && x.out.isSome
    let old := done.take (done.length - 4)
    { s3 with links := { s3.links with insts := s3.links.insts.filter fun x => !old.contains x } }

/-- An outcome found at this node (R428, R429): at the root it settles the instance, elsewhere it goes up to the parent.
Where the parent's port is down it settles those below. -/
def outcomeHere (s : State) (t i : Nat) (up : Body) (o : Except (Nat × Nat × Nat) (List W32 × Bool)) : State :=
  let e := s.tree t
  let pUp := ((s.links.ports[e.parent.toNat]?).map Port.up).getD false
  if e.root then settleInst s t i o
  else match o with
    | .error _ => if pUp then (s.putOut e.parent.toNat (treePacket s t up)).modInst t i fun x => { x with up := true }
      else settleInst s t i o
    | .ok _ => (s.putOut e.parent.toNat (treePacket s t up)).modInst t i fun x => { x with up := true }

/-- A failure of an instance found at this node (R429): its cause and the inputs that had arrived. -/
def failInst (s : State) (x : Inst) (cause : Nat) : State :=
  let bitmap := (x.inputs.map fun p => 2 ^ p.1).sum
  outcomeHere s x.tree x.inst (.failure x.tree x.inst cause bitmap s.self) (.error (cause, bitmap, s.self))

/-- A contribution at this node (R428): to an open instance, to a new one where fewer than four of the tree are open, or
answered with the outcome held (R429). None while it must wait. -/
def contribute (s : State) (t i input : Nat) (op : BitVec 2) (f : Fmt) (ws : List W32) (exc : Bool)
    (loc : Option (Nat × Nat × UnitId × BitVec 16 × Token)) : Option State :=
  match s.inst? t i with
  | some x =>
    match x.out with
    | some o => match loc with
      | some loc => some (localOutcome s t i loc o)
      | none => some (s.putOut input (treePacket s t (outcomeBody t i o)))
    | none =>
      if x.inputs.any fun p => p.1 == input then some s
      else some (s.modInst t i fun x => { x with
        inputs := x.inputs ++ [(input, f, op, ws, exc)], loc := if input = 16 then loc else x.loc })
  | none =>
    if (s.links.insts.filter fun x => x.tree == t && x.out.isNone).length ≥ 4 then none
    else
      let x : Inst := { tree := t, inst := i, fmt := f, op := op, inputs := [(input, f, op, ws, exc)], first := s.cycle,
                        up := false, out := none, loc := loc }
      some { s with links := { s.links with insts := s.links.insts ++ [x] } }

/-- A record of a format with no modifiers. -/
def plainRec (f : Fmt) : Rec := { len := 0#2, fmt := f, imm := false, m := false, d0 := noDest, d1 := noDest, aux := 0#16, lit := 0#32 }

/-- One value combined (R428): sums wrap or round RNE, minima and maxima follow R101. -/
def nredValue (f : Fmt) (op : Nat) (a b : Nat) : Nat × Bool :=
  if op = 0 then
    if f.ff.isSome then addFmt f .rne false false a b else (wrap f.width (f.int a + f.int b), false)
  else
    let less := if f.ff.isSome then (if op = 1 then pick (plainRec f) a b fun x y => !y.lt x else pick (plainRec f) a b fun x y => !x.lt y)
      else if op = 1 then (if f.int a ≤ f.int b then a else b) else (if f.int a ≥ f.int b then a else b)
    (less, false)

/-- Two packets of words combined value by value. -/
def nredWords (f : Fmt) (op : Nat) (as bs : List W32) : List W32 × Bool :=
  let n := as.length * f.subs
  let rs := (List.range n).map fun i => nredValue f op (f.get as i) (f.get bs i)
  ((List.range as.length).map fun j => f.elemOf (rs.map (·.1)) j, rs.any (·.2))

/-! ### What leaves (R415, R418, R420, R427) -/

/-- What comes of an item that is to leave. -/
inductive DRes where
  | wait
  | fault
  | ok (s : State)

/-- An item whose round is confirmed leaves its Siding: to a region of this device, or out on its first port after the
partition check (R418); a token draws on its entry's ALLOW credits (R82). -/
def dispatchOne (s : State) (rid : Nat) (x : Send) : DRes :=
  let here (f : Send → Send) (s : State) : State := s.modRegion rid fun R => { R with sends := modFirst (· == x) f R.sends }
  let gone (s : State) : State := s.modRegion rid fun R => { R with sends := delFirst (· == x) R.sends }
  match x.pkt.body with
  | .contribution t i op f ws exc =>
    let loc := x.report.map fun p => (rid, x.raddr, p.1, p.2.1, p.2.2)
    if !(s.tree t).root && !partOn s (s.tree t).parent.toNat x.pkt.part then .fault
    else match contribute s t i 16 op f ws exc loc with
    | some s' => .ok (gone s')
    | none => .wait
  | body =>
    let cap := x.cap.getD 0
    let isTok : Bool := match body with | .token _ => true | _ => false
    match s.region? rid with
    | none => .wait
    | some R =>
      if isTok && R.capOut cap ≥ capAllow (R.cap cap) then .wait
      else
        let draw (s : State) : State := if isTok then s.modRegion rid fun R => R.setCapOut cap (R.capOut cap + 1) else s
        if x.pkt.dstDev = s.self then
          match deliverItem (draw s) x.pkt with
          | none => .wait
          | some s' => .ok (if x.report.isSome then here (fun x => { x with st := .acked }) s' else gone s')
        else if !sendPartOk s x.pkt.dstDev x.pkt.dstRid x.pkt.eport x.pkt.part then .fault
        else match firstPort s s.self x.pkt.dstDev x.pkt.dstRid x.pkt.eport with
          | none => .fault
          | some p => if !s.portUp p then .wait else .ok (here (fun x => { x with st := .sent, since := s.cycle }) ((draw s).putOut p x.pkt))

/-- Every item of a region that can leave now does, those of one capability entry in order. -/
def dispatchSends (s : State) (rid : Nat) : State :=
  match s.region? rid with
  | none => s
  | some R =>
    let step (acc : State × List (Option Nat)) (x : Send) : State × List (Option Nat) :=
      if acc.2.contains x.cap && x.cap.isSome then acc
      else match dispatchOne acc.1 rid x with
        | .wait => (acc.1, x.cap :: acc.2)
        | .fault => (takeFault acc.1 rid (mkFault ⟨x.site.page, 7⟩ x.node
            { emptyToken with tag := x.key.tag, round := x.round, seq := x.key.seq } .invalidCapability 0), x.cap :: acc.2)
        | .ok s' => (s', acc.2)
    ((R.sends.filter fun x => x.st == .ready).foldl step (s, [])).1

/-- The items of every region that can leave now: an instance's end lets a contribution in that waited for it (R428), room at a receiver
lets its senders' items in (R421). -/
def dispatchAll (s : State) : State := (s.regions.map (·.rid)).foldl dispatchSends s

/-- NRED_COMBINE (R428, R429): every input of an instance has come: combined in order and sent on, or failed where two
disagree in word count, FMT or OPR. -/
def execNredCombine (tree inst : Nat) (s : State) : Out1 :=
  match s.inst? tree inst with
  | none => .next s
  | some x =>
    let need := treeInputs (s.tree tree)
    if x.out.isSome || x.up || !need.all (fun p => x.inputs.any fun q => q.1 == p) then .next s
    else
      let ins := need.filterMap fun p => x.inputs.find? fun q => q.1 == p
      match ins with
      | [] => .next s
      | a :: rest =>
        if rest.any fun b => b.2.1 != a.2.1 || b.2.2.1 != a.2.2.1 || b.2.2.2.1.length != a.2.2.2.1.length then
          .next (dispatchAll (failInst s x 2))
        else
          let (ws, exc) := rest.foldl (fun acc b =>
            let y := nredWords a.2.1 a.2.2.1.toNat acc.1 b.2.2.2.1
            (y.1, acc.2 || y.2 || b.2.2.2.2)) (a.2.2.2.1, a.2.2.2.2)
          .next (dispatchAll (outcomeHere s tree inst (.contribution tree inst a.2.2.1 a.2.1 ws exc) (.ok (ws, exc))))

/-- NRED_DEADLINE (R429): an input has missed the deadline, counted from the first arrival at this node; 0 means none. -/
def execNredDeadline (tree inst : Nat) (s : State) : Out1 :=
  match s.inst? tree inst with
  | none => .next s
  | some x =>
    let d := (s.tree tree).deadline.toNat
    if d = 0 || x.out.isSome || x.up || s.cycle < x.first + d * Config.microsecond
        || (treeInputs (s.tree tree)).all (fun p => x.inputs.any fun q => q.1 == p) then .next s
    else .next (dispatchAll (failInst s x 1))

/-- GATEWAY_PASS (R25, R82): a token held at a gateway is checked against the capability entry that it found there
(R411). A crossing between the
dies goes on to the receiving gateway with an ALLOW credit (R24); a token for another region waits in the link gateway's
Siding for its round's confirmation, if that is still to come, a marker counting at this sink (R185, R420). A failed check is the freezing fault
"invalid capability", the token staying. -/
def execGatewayPass (rid k : Nat) (s : State) : Out1 :=
  match s.region? rid with
  | none => .next s
  | some R =>
    match R.flights[k]? with
    | none => .next s
    | some f =>
      match f.loc with
      | .gateway page pos idx =>
        if !R.live then .next s
        else
          let i := ((R.unit? ⟨page, pos⟩).map fun U => seCap (nth 0#32 U.switch idx)).getD 0
          let c := (f.cap.map BitVec.toNat).getD (R.cap i)
          let earlier := (R.flights.take k).any fun g => g.loc == .gateway page pos idx
          let own : Bool := decide (capDev c = s.self) && decide (capRid c = R.rid)
          if earlier then .next s
          else if !bit c 63 || !bit c 62 || !capHeld s c then
            .next (takeFault s rid (mkFault ⟨page, 7⟩ f.tok.node f.tok .invalidCapability 0))
          else
            let freed := ({ R with flights := delNth R.flights k }).free f.org f.route f.sid
            if own then
              if R.capOut i ≥ capAllow c then .next s
              else
                let g := { f with org := ⟨rid, 7⟩, route := 16 + i,
                                  sid := ((f.sid * 1024 + f.org.page) * 8 + f.org.pos) * 4 + f.route,
                                  loc := .ingress (capEport c), since := s.cycle, cap := none }
                .next (s.putRegion ({ freed with flights := freed.flights ++ [g] }.setCapOut i (R.capOut i + 1)))
            else match R.linkRoom s page f.tok.round 1 with
              | .bound => .next (takeFault s rid (mkFault ⟨page, 7⟩ f.tok.node f.tok .roundBound 0))
              | .wait => .next s
              | .room =>
                let kept := freed.sends.any fun x => x.kept && x.key == tokenKey R i f.tok
                let R1 := if kept then
                  { freed with sends := freed.sends.map fun x => if x.key == tokenKey R i f.tok then { x with kept := false } else x }
                  else { freed with sends := freed.sends ++ [tokenSend s R page i c f.tok] }
                let R2 := match f.tok.kind with
                  | .marker => R1.sinkTook 3 ⟨page, pos⟩ (0xF000 + idx) f.tok.round
                  | .eos => R1.sinkTook 4 ⟨page, pos⟩ (0xF000 + idx) f.tok.round
                  | _ => R1
                let s1 := s.putRegion R2
                .next (dispatchSends { s1 with links := { s1.links with nextId := s1.links.nextId + 1 } } rid)
      | _ => .next s

/-- CREDIT_RETURN (R22, R80): the oldest freed slot's credit reaches its origin, once every end has freed its copy; an
ALLOW credit reaches its capability entry (R82). Where none is on its way, a ring of full circuits has one in advance (R38, R129). -/
def execCreditReturn (rid : Nat) (s : State) : Out1 :=
  match s.region? rid with
  | none => .next s
  | some R =>
    match R.freed with
    | [] => .next (if R.live then s.putRegion R.relieve else s)
    | (org, route, sid) :: rest =>
      let R1 := { R with freed := rest }
      let s1 := s.putRegion R1
      if org.pos = 7 then
        if R1.outstanding org route sid then .next s1
        else .next (dispatchSends (s1.returnAllow R.part org.page (route - 16)) org.page)
      else
        let R2 := R1.returnCredit org route sid
        let R3 := if org.pos ≤ 2 then R2
          else R2.flushOut s.cycle org (((R2.unit? org).map fun U => U.outq.length).getD 0)
        .next (s.putRegion (if R3.live || R3.halting || R3.st = .frozen then R3.forwardMore s.cycle org else R3))

/-! ### Events of the links -/

/-- LINK_ACKNOWLEDGE (R415): the receiving gateway has item `id`: it leaves the sending Siding. A token's ALLOW credit is back when the
receiver has freed its slot (R22, R24). -/
def execLinkAcknowledge (id : Nat) (s : State) : Out1 :=
  match s.regions.findSome? fun R => (R.sends.find? fun x => x.pkt.id == id && x.st == .sent).map fun x => (R, x) with
  | none => .next s
  | some (R, x) =>
    let R1 := if x.report.isSome then { R with sends := modFirst (· == x) (fun x => { x with st := .acked }) R.sends }
      else { R with sends := delFirst (· == x) R.sends }
    let s1 := s.putRegion R1
    .next (dispatchSends { s1 with links := { s1.links with outbox := s1.links.outbox.filter fun p => p.2 != x.pkt } } R.rid)

/-- Two items came through one capability entry (R425, R427). -/
def sameEntry (p q : Packet) : Bool :=
  p.srcDev == q.srcDev && p.srcRid == q.srcRid && p.dstRid == q.dstRid && p.eport == q.eport

/-- The packet is a POST. -/
def isPost (p : Packet) : Bool := match p.body with | .post _ _ => true | _ => false

/-- MESSAGE_DELIVERY (R425, R426): message `k` of the region's items meets the head buffer of its mailbox, after the
earlier items of its capability entry; the arrival token goes to RECV's MARK, the words wait for it (R424), the sender
is answered. A global buffer's pages are translated now; an absent one parks the message (R290). -/
def execMessageDelivery (rid k : Nat) (s : State) : Out1 :=
  match s.region? rid with
  | none => .next s
  | some R =>
    match R.items[k]? with
    | none => .next s
    | some it =>
      match it.pkt with
      | none => .next s
      | some p =>
        match p.body with
        | .message ws bytes mtag =>
          let waits (j : Item) : Bool := !j.onWay && match j.pkt with | some q => sameEntry p q | none => false
          let behind := (R.items.take k).any waits || s.links.waiting.any fun q => isPost q && sameEntry p q && decide (q.id < p.id)
          match R.buffers.find? fun b => b.box == p.eport with
          | none => .next s
          | some b =>
            if !R.live || it.onWay || behind then .next s
            else
              let n := min bytes b.cap
              let words := ws.take (n / 4)
              let e := clearAbove 3 [b2w (decide (n < bytes)), BitVec.ofNat 32 n, BitVec.ofNat 32 bytes, mtag]
              let t : Token := { b.hdr with fmt := .n32, len := 3#3, e := e }
              let done (pins : List Tlb) : State :=
                let it' := { it with pins := pins, dest := some (b.unit, b.dest), tok := t, global := b.global, addr := b.addr,
                                     words := words, onWay := true }
                let R1 := { R with items := R.items.set k it', buffers := delFirst (· == b) R.buffers }
                answerSender (s.putRegion (R1.laterToken s.cycle b.unit b.dest t)) p
                  (if n < bytes then 1 else 0) n bytes
              if !b.global then .next (done [])
              else
                let vas := (List.range words.length).map fun i => b.addr + 4 * i
                match s.slotOf R.part, walkAll s R false true vas [] with
                | none, _ => .next (takeFault s rid (mkVaFault b.unit b.hdr.node b.hdr .permission b.addr))
                | _, .fault c va => .next (takeFault s rid (mkVaFault b.unit b.hdr.node b.hdr c va))
                | _, .absent va =>
                  if R.headParked ⟨b.unit.page, 9⟩ p.id va then .next s
                  else .next (queueReport s R { unit := ⟨b.unit.page, 9⟩, acc := p.id, va := va, write := true, reported := false })
                | _, .ok ts => .next (done ts)
        | _ => .next s

/-- POST_DELIVERY (R427): POST `k` of those waiting is translated by the receiving region's page table and written at the
home agents, in the order of its capability entry: no permission is status 4, an absent page parks it. -/
def execPostDelivery (rid k : Nat) (s : State) : Out1 :=
  match s.links.waiting[k]? with
  | none => .next s
  | some p =>
    match p.body with
    | .post va ws =>
      let bytes := 4 * ws.length
      let rest := { s with links := { s.links with waiting := delNth s.links.waiting k } }
      if p.dstRid ≠ rid || (s.links.waiting.take k).any (fun q => isPost q && sameEntry p q) then .next s
      else if s.gone rid then .next (answerSender rest p 3 0 bytes)
      else match s.receiver? rid p.part with
        | none => .next s
        | some R =>
          let vas := (List.range ws.length).map fun i => va + 4 * i
          if vas.any (· ≥ 2 ^ 57) then .next (answerSender rest p 4 0 bytes)
          else match s.slotOf R.part, walkAll s R false true vas [] with
            | none, _ => .next (answerSender rest p 4 0 bytes)
            | _, .fault _ _ => .next (answerSender rest p 4 0 bytes)
            | _, .absent x =>
              if R.headParked ⟨0, 9⟩ p.id x then .next s
              else .next (queueReport s R { unit := ⟨0, 9⟩, acc := p.id, va := x, write := true, reported := false })
            | some slot, .ok ts =>
              let pas := vas.map fun v => ((tlbFind ts v).map fun t => t.paOf v).getD 0
              if pas.any (provBlocks s (some R.keyRid)) then .next s
              else
                let w (s : State) (i : Nat) : State := writeBytes s slot (nth 0 pas i) (toBytes 4 (nth 0#32 ws i).toNat)
                .next (answerSender ((List.range ws.length).foldl w rest) p 0 bytes bytes)
    | _ => .next s

/-- SEND_REPORT_ARRIVAL (R426): the report of an item of a region goes to the MARK of D1. A report of this device's own
delivery must have been made. -/
def execSendReportArrival (rid id status placed sent : Nat) (s : State) : Out1 :=
  match s.region? rid with
  | none => .next s
  | some R =>
    match R.sends.find? fun x => x.pkt.id == id && (x.st == .sent || x.st == .acked) with
    | none => .next s
    | some x =>
      match x.report with
      | none => .next s
      | some (u, d, hdr) =>
        let own : Bool := x.pkt.dstDev == s.self
        let reply := (s.self, id, status, placed, sent)
        if !R.live || (own && !s.links.replies.contains reply) then .next s
        else
          let t : Token := { hdr with fmt := .n32, len := 2#3, e := clearAbove 2 ([status, placed, sent].map (BitVec.ofNat 32)) }
          let sends := if x.st = .acked then delFirst (· == x) R.sends
            else modFirst (· == x) (fun x => { x with report := none }) R.sends
          let s1 := s.putRegion (({ R with sends := sends }).laterToken s.cycle u d t)
          .next { s1 with links := { s1.links with replies := delFirst (· == reply) s1.links.replies } }

/-- A packet for this device that came in by a port: of a tree (R428, R429), a credit (R24), an access in a window (R434), an item. None
while it must wait. -/
def treeArrival (s : State) (port : Nat) (p : Packet) : Option State :=
  match p.body with
  | .contribution t i op f ws exc => contribute s t i port op f ws exc none
  | .result t i ws exc => some (settleInst s t i (.ok (ws, exc)))
  | .failure t i c b d =>
    let e := s.tree t
    if !e.root && e.parent.toNat = port then some (settleInst s t i (.error (c, b, d)))
    else match s.inst? t i with
      | some _ => some (outcomeHere s t i p.body (.error (c, b, d)))
      | none =>
        let x : Inst := { tree := t, inst := i, fmt := .i32, op := 0#2, inputs := [], first := s.cycle, up := false, out := none,
                          loc := none }
        some (outcomeHere { s with links := { s.links with insts := s.links.insts ++ [x] } } t i p.body (.error (c, b, d)))
  | .credit rid i => some (dispatchSends (s.returnAllow p.part rid i) rid)
  | .window off bs => serveWindow s p.srcDev p.part off bs
  | .atomic off op opx f ws => serveAtomic s p.srcDev p.part off op opx f ws
  | .access off op => serveAccess s p.srcDev p.part off op
  | _ => deliverItem s p

/-- A packet is for a tree rather than for a region. -/
def isTree (p : Packet) : Bool :=
  match p.body with
  | .contribution _ _ _ _ _ _ => true
  | .result _ _ _ _ => true
  | .failure _ _ _ _ _ => true
  | _ => false

/-- PACKET_RECEIVE (R418): a port checks the packet's partition, dropping it with an alarm where that is not configured;
what is for another device goes on by R414. A packet that finds no room is held on its virtual channel. -/
def execPacketReceive (port : Nat) (p : Packet) (s : State) : Out1 :=
  match s.links.ports[port]? with
  | none => .next s
  | some x =>
    if !x.up || !x.en then .next s
    else if !partOn s port p.part then .next (dropPacket s port)
    else if isTree p || p.dstDev = s.self then .next (((treeArrival s port p).map dispatchAll).getD s)
    else match firstPort s p.srcDev p.dstDev p.dstRid p.eport with
      | some q => .next (if s.portUp q then s.putOut q p else s)
      | none => .next s

/-- PORT_UP_CHANGE (R429, R432, R438): UP and PEER change, machine interrupt 17 becomes pending where mie[17] is set, a port
that goes down fails the open instances of its trees, and what waited for one that comes up leaves. -/
def execPortUpChange (port : Nat) (up : Bool) (peer : BitVec 20) (s : State) : Out1 :=
  match s.links.ports[port]? with
  | none => .next s
  | some x =>
    if x.up = up then .next s
    else
      let s1 := { s with links := { s.links with
        ports := modNth s.links.ports port fun x => { x with up := up, peer := if up then peer else x.peer, known := x.known || up } } }
      let s2 := pendMachine s1 17
      let on (x : Inst) : Bool :=
        let e := s.tree x.tree
        x.out.isNone && e.v && (bit e.child.toNat port || (!e.root && e.parent.toNat == port))
      .next (dispatchAll (if up then s2 else (s2.links.insts.filter on).foldl (fun s x => failInst s x 1) s2))

/-- CALL_RESPONSE_DELIVERY (R405, R421): the first held response of a RUNNING region enters the MARK of its call, and is kept by the link
gateway where that has room. -/
def execCallResponseDelivery (rid : Nat) (s : State) : Out1 :=
  match s.region? rid with
  | none => .next s
  | some R =>
    match R.responses with
    | [] => .next s
    | c :: rest =>
      if !R.live then .next s
      else match c.resp with
        | none => .next s
        | some (len, f, exc, e) =>
          let t : Token := { c.tok with len := len, fmt := f, exc := exc, err := false, act := .normal, kind := .data,
                                        e := f.payload len.toNat e }
          let it : Item := { id := s.links.nextId, pins := [], pkt := none, dest := some (c.unit, c.dest), tok := t, global := false,
                             addr := 0, words := [], onWay := true, stamped := none }
          if !R.inRoom s it then .next s
          else
            let s1 := s.putRegion (({ R with responses := rest, items := R.items ++ [it] }).laterToken s.cycle c.unit c.dest t)
            .next { s1 with links := { s1.links with nextId := s1.links.nextId + 1 } }

/-- PROBE (R419): the Yard of this device answers a probe for region `target` once that is LOADED, RUNNING, FROZEN or
QUIESCED with the probing region's partition. A probe of this device's own is one that an ARMED region has made, of that region's
partition. -/
def execProbe (dev rid : Nat) (part : BitVec 16) (target : Nat) (s : State) : Out1 :=
  match s.receiver? target part with
  | none => .next s
  | some _ =>
    let made : Bool := dev != s.self || (s.region? rid).any fun R => R.armed && R.probes.contains (dev, target) && R.part == part
    if !made || s.links.answers.contains (dev, rid, target) then .next s
    else .next { s with links := { s.links with answers := s.links.answers ++ [(dev, rid, target)] } }

/-- PROBE_ANSWER (R419): the answer to a probe of an armed region arrives; one of this device's own Yard has been made. -/
def execProbeAnswer (rid dev target : Nat) (s : State) : Out1 :=
  match s.region? rid with
  | none => .next s
  | some R =>
    let own : Bool := dev == s.self
    if !R.armed || !R.probes.contains (dev, target) || (own && !s.links.answers.contains (dev, rid, target)) then .next s
    else
      let s1 := s.putRegion { R with probes := delFirst (· == (dev, target)) R.probes }
      .next { s1 with links := { s1.links with answers := delFirst (· == (dev, rid, target)) s1.links.answers } }

end Sys2Proof.Machine
end

