-- ==== Sys2Proof/Machine/Round.lean ====
section
/-! DEFINITION. Seals, confirmation and rollback (chapter 11; R96, R186, R228 to R234, R291 to R294): ONE operation takes a
region back to a round; the redundant pair's comparator. -/

namespace Sys2Proof.Machine

/-! ### Seal (R96, R185, R354) -/

/-- The sinks of a region (R185): its SINK, link and call records, and the gateway ends of its circuits to other regions. -/
def Region.sinks (R : Region) (self : Nat) : List (UnitId × Nat) :=
  let recs := R.units.flatMap fun U => (U.recWords.filter fun w =>
    let op := (U.recAt w).1
    op == 0x81 || linkOp op).map fun w => (U.id, w)
  let ends := R.edges.filterMap fun e => match e.dst with
    | .gateway page pos i =>
      if R.outward self (((R.unit? ⟨page, pos⟩).map fun U => seCap (nth 0#32 U.switch i)).getD 0) then
        some ((⟨page, pos⟩ : UnitId), 0xF000 + i)
      else none
    | _ => none
  recs ++ ends.eraseDups

/-- The oldest round that has not sealed. -/
def Region.openRound (R : Region) : BitVec 12 :=
  match R.seals.getLast? with
  | some p => p.1 + 1#12
  | none => nextRound R.conf

/-- An engine still works on round `n`: a weak store that no Siding has accepted, or an island operation whose completion
has not gone (R354). -/
def Site.workOf (U : Site) (n : BitVec 12) : Bool :=
  match U.eng with
  | .cell => false
  | .mu m => m.accs.any fun a => a.hdr.round == n && (a.op == 0xA1 || a.op == 0xAC) && a.open
  | .str x => x.ops.any fun o => o.trig.tok.round == n && !o.sent
  | .mxi x => x.ops.any fun o => o.hdr.round == n && o.st == .accepted
  | .sbe x => x.ops.any fun o => o.hdr.round == n

/-- Round `n` meets the conditions of R354. -/
def Region.canSeal (R : Region) (self : Nat) (n : BitVec 12) : Bool :=
  R.markers.any (fun m => m.kind == 3 && m.round == n)
    && (let ss := R.sinks self
        !ss.isEmpty && ss.all fun p => (R.marker? 3 p.1 p.2 0 n).isSome)
    && !R.units.any (·.workOf n) && !R.held.any fun h => h.pa.isNone && h.key.round == n

/-- The oldest round that is open can seal now. -/
def Region.sealDue (R : Region) (self : Nat) : Bool :=
  !R.killing && R.roll.isNone && (R.st == .running || R.st == .frozen || R.st == .quiesced) && R.canSeal self R.openRound

/-- The oldest round that is open sealed at a cycle. -/
def Region.sealOpen (R : Region) (now : Nat) : Region := { R with seals := R.seals ++ [(R.openRound, now)] }

/-- Every round that can seal at a cycle sealed, at most `n` of them. -/
def Region.sealAll (self now : Nat) : Nat → Region → Region
  | 0, R => R
  | n + 1, R => if R.sealDue self then Region.sealAll self now n (R.sealOpen now) else R

/-- ROUND_SEAL (R354): the oldest round that is open seals. -/
def execRoundSeal (rid : Nat) (s : State) : Out1 :=
  match s.region? rid with
  | none => .next s
  | some R => .next (if R.sealDue s.self then s.putRegion (R.sealOpen s.cycle) else s)

/-! ### Release of held egress (R293) -/

/-- A held entry released to its home agents (R293), those of a peer by packets (R434). A reduction leaves a word unchanged that an
uncorrectable error has struck (R206). -/
def releaseEntry (s : State) (slot keyRid : Nat) (h : Held) : State :=
  match h.pa with
  | none => s
  | some pa =>
    let d (i : Nat) : W32 := nth 0#32 h.data i
    let ws := (List.range 16).filter fun i => bit h.mask.toNat i
    let under (i : Nat) : Option (BitVec 12) := (h.under.find? fun x => x.1 == i).map (·.2)
    match h.op with
    | .write => ws.foldl (fun s i => changeGlobal s slot keyRid (pa + 4 * i) 4 (under i) fun _ => (d i).toNat) s
    | .red opx f ord =>
      match targetOf s pa with
      | .peer w off => ws.foldl (fun s i =>
          if f.pair && i % 2 = 1 then s
          else
            let v := if f = .f32 then [ord, d i] else if f.pair then [d i, d (i + 1)] else [d i]
            s.toPeer (s.slotPart slot) w (.atomic (off + 4 * i) 0xAC opx f v)) s
      | _ =>
      if f = .f32 then ws.foldl (fun s i =>
        homeContribute s slot keyRid { word := pa / 4 + i, ord := ord.toNat % 2 ^ 31, last := ord.msb, value := d i, opx := opx,
                                       key := h.key }) s
      else if f.pair then
        (ws.filter fun i => i % 2 == 0).foldl (fun s i =>
          if s.badWord (pa + 4 * i) || s.badWord (pa + 4 * i + 4) then s
          else changeGlobal s slot keyRid (pa + 4 * i) 8 (under i) fun old => atomNew opx f old ((d i).toNat + 2 ^ 32 * (d (i + 1)).toNat)) s
      else ws.foldl (fun s i =>
        if s.badWord (pa + 4 * i) then s
        else changeGlobal s slot keyRid (pa + 4 * i) 4 (under i) fun old => atomNew opx f old (d i).toNat) s

/-- An entry of a region released under its tenant slot; where the partition has none any more, the region takes the freezing fault
"permission" against the entry's key, and nothing is written (R450, R463). -/
def Region.release (R : Region) (s : State) (h : Held) : State :=
  match s.slotOf R.part with
  | some slot => releaseEntry s slot R.keyRid h
  | none => takeFault s R.rid (R.keyFault h.key .permission)

/-- An entry meets a line that is provisional for another region (R229). -/
def Held.blocked (h : Held) (s : State) (keyRid : Nat) : Bool :=
  match h.pa with
  | some pa => provBlocks s (some keyRid) pa
  | none => true

/-! ### Confirmation (R96, R355) -/

/-- The partner of a paired region, while it lives. -/
def Region.partner? (R : Region) (s : State) : Option Region :=
  match R.pair with
  | some (.primary x) => (s.region? x).filter fun Q => Q.pair == some (.shadow R.rid) && !Q.killing
  | some (.shadow x) => (s.region? x).filter fun Q => Q.pair == some (.primary R.rid) && !Q.killing
  | none => none

/-- A region of a pair is the primary. -/
def Region.isPrimary (R : Region) : Bool := match R.pair with | some (.primary _) => true | _ => false

/-- A unit's state that only round `n` kept goes (R355); the finished contexts of a chain's loop stay while an access of their round
has yet to retire (R219). -/
def Site.confirm (U : Site) (n : BitVec 12) : Site :=
  match U.eng with
  | .cell => U
  | .mu m => { U with eng := .mu { m with
      undo := m.undo.filter fun e => e.round != n
      dedup := m.dedup.filter fun d => d.key.round != n
      iters := m.iters.filter fun d => newerThan (some n) d.round || m.accs.any fun a => mrChain a.r == d.chain && a.hdr.round == d.round } }
  | .str _ => U
  | .mxi x => { U with eng := .mxi { x with
      copies := x.copies.filter fun c => c.2.1 != n
      touched := x.touched.filter fun t => t.2 != n
      bookUndo := x.bookUndo.filter fun b => b.2.1 != n
      keys := x.keys.filter fun k => k.round != n } }
  | .sbe x => { U with eng := .sbe { x with
      copies := x.copies.filter fun c => c.2.1 != n
      keys := x.keys.filter fun k => k.round != n } }

/-- An item that confirmation of round `n` frees (R421): a token of the round, or one placed in it. -/
def Item.freed (i : Item) (n : BitVec 12) : Bool :=
  match i.stamped with
  | some r => r == n
  | none => i.dest.isNone && i.onWay && i.tok.round == n

/-- A list in an order that `pick` gives: which of those left is next. -/
def reorder {α : Type} (pick : Nat → Nat) : Nat → List α → List α
  | 0, l => l
  | n + 1, l =>
    match l with
    | [] => []
    | [x] => [x]
    | _ =>
      let i := pick n % l.length
      match l[i]? with
      | some x => x :: reorder pick n (delNth l i)
      | none => l

/-- The region's own state after the confirmation of round `n` at step `t`. The order in which the round's exception-log entries
are appended, and so which are kept where the log overflows, is free (R122). -/
def Region.confirm (R : Region) (t : Nat) (n : BitVec 12) : Region :=
  let pair := R.pair.isSome
  let log := if R.pair.isSome && !R.isPrimary then R.xlog
    else
      let es := R.heldLog.filter fun e => e.round == n
      (reorder (Config.freePick t) es.length es).foldl XLog.append R.xlog
  let sends := if pair then R.sends.filter fun x => !(x.st == .held && x.round == n)
    else R.sends.map fun x => if x.st = .held && x.round = n then { x with st := .ready } else x
  let calls := if pair then R.calls.filter fun c => !(c.st == .unconfirmed && c.tok.round == n)
    else R.calls.map fun c => if c.st = .unconfirmed && c.tok.round = n then { c with st := .queued } else c
  { R with
    conf := some n
    seals := R.seals.drop 1
    held := R.held.filter fun h => h.key.round != n
    sends := sends
    calls := calls
    xlog := log
    heldLog := R.heldLog.filter fun e => e.round != n
    units := R.units.map fun U => U.confirm n
    items := R.items.filter fun i => !i.freed n
    markers := R.markers.filter fun m => !(m.kind == 3 && m.round == n)
    replayed := R.replayed.filter (· != n)
    upset := R.upset.filter fun x => x.2.2 != n
    errTags := R.errTags.filter fun t => t.1 != n }

/-- The end-of-stream event is due (R185, R355): every sink has taken end-of-stream, the newest of them confirmed. -/
def Region.eosDue (R : Region) (self : Nat) : Bool :=
  !R.eosEvent && R.markers.any (·.kind == 4)
    && (let ss := R.sinks self
        !ss.isEmpty && ss.all fun p => R.markers.any fun m =>
          m.kind == 4 && m.unit == p.1 && m.node == p.2 && !newerThan R.conf m.round)

/-- The end-of-stream event of a region recorded once it is due (R32, R355; Table 12-11). -/
def noteEos (s : State) (rid : Nat) : State :=
  match s.region? rid with
  | none => s
  | some R => if R.eosDue s.self then (s.putRegion { R with eosEvent := true }).pend 3 else s

/-- What waited for room in a region where firing goes on goes on (R51, R227, R246). -/
def State.recheck (s : State) (rid : Nat) : State := s.modRegion rid fun R => if R.live then R.recheck s.cycle else R

/-- Egress entries without a translation ask for one (R294): in a region on its pages that holds no fault record, for each page that
is neither being walked nor parked. -/
def askHeld (s : State) (R : Region) : State :=
  if R.killing || R.fault.isSome || !(R.st == .running || R.st == .frozen || R.st == .quiesced) then s
  else R.held.foldl (fun s h =>
    if h.pa.isSome || R.parked.any fun p => p.unit.pos == 8 && p.va / 2 ^ 16 == h.va / 2 ^ 16 then s
    else askWalk s { rid := R.rid, unit := ⟨0, 8⟩, acc := 0, va := h.va / 2 ^ 16 * 2 ^ 16, rd := false, wr := true }) s

/-- A FALLOC that waits when the freeze wave arrives is withdrawn (R179). -/
def Region.withdrawFrames (R : Region) : Region :=
  if R.live || R.pool.waiting.isEmpty then R else R.modPool fun p => { p with waiting := [] }

/-- An MU of the region keeps a waiter or a contribution. -/
def Region.keepsWaiters (R : Region) : Bool :=
  R.units.any fun U => match U.eng with
    | .mu m => !m.waiters.isEmpty || !m.held.isEmpty
    | _ => false

/-- The key of a comparator entry. -/
def CompItem.key : CompItem → Key
  | .line h => h.key
  | .send x => x.key
  | .call c => c.key

/-- Two entries are for one thing: equal keys, and for lines one address. -/
def CompItem.sameKey : CompItem → CompItem → Bool
  | .line a, .line b => a.key == b.key && a.va == b.va
  | .send a, .send b => a.key == b.key
  | .call a, .call b => a.key == b.key
  | _, _ => false

/-- The entry that one of another member is compared with (R367): of its round and of equal key. -/
def Comp.meets (c d : Comp) : Bool := d.rid != c.rid && d.round == c.round && d.item.sameKey c.item

/-- The lines that the comparator holds: one entry for those that have met. -/
def compLines : List Comp → Nat
  | [] => 0
  | c :: t => (if t.any c.meets then 0 else match c.item with | .send x => x.lines | _ => 1) + compLines t

/-- The entries of a region that wait for the comparator's room enter it, in order (R51, R367): one whose partner is there takes none.
At most `n` enter. -/
def enterComp (rid : Nat) : Nat → State → State
  | 0, s => s
  | n + 1, s =>
    match (s.region? rid).bind fun R => R.leaving.head?.map fun c => (R, c) with
    | none => s
    | some (R, c) =>
      if s.comp.any c.meets || compLines (c :: s.comp) ≤ 4096 then
        enterComp rid n { s.putRegion { R with leaving := R.leaving.drop 1 } with comp := s.comp ++ [c] }
      else s

/-- Every region's entries that can enter the comparator do. -/
def State.entered (s : State) : State :=
  (s.regions.filter fun R => !R.leaving.isEmpty).foldl (fun s R => enterComp R.rid R.leaving.length s) s

/-- A contribution that NEXT has passed while it was held is the freezing fault "ordinal" of its access (R246; log entry 106). -/
def takeLate (s : State) (rid : Nat) : State :=
  match (s.region? rid).bind fun R => R.lateRed.map fun x => (R, x) with
  | some (R, page, a) => if R.live then accFault s R page a .ordinal 0 false else s
  | none => s

/-- What holds at the end of a cycle takes effect in it: rounds seal at the first cycle at which they can (R96), the end-of-stream
event is recorded (R32), what waits for a frame in a region that halts is withdrawn (R179), egress that lost its translation is
translated again (R294), what waits for the pair comparator enters it (R367), waiters that found no room are examined again (R51, R227,
R246), and a contribution that its word's NEXT has passed faults (R246). -/
def State.settled (s : State) : State :=
  let s0 := { s with regions := s.regions.map fun R => (Region.sealAll s.self s.cycle R.markers.length R).withdrawFrames }
  let s1 := (s.regions.map (·.rid)).foldl noteEos s0
  let s2 := (s.regions.filter Region.heldUntranslated).foldl askHeld s1
  let waiting := (s.regions.filter Region.keepsWaiters).map (·.rid)
  waiting.foldl takeLate (waiting.foldl State.recheck s2.entered)

/-- What a member of a pair sends to the comparator at the confirmation of round `n`, in entry order (R366, R367). -/
def Region.toComp (R : Region) (n : BitVec 12) : List Comp :=
  let c (i : CompItem) : Comp := { rid := R.rid, primary := R.isPrimary, round := n, item := i }
  (R.held.filter fun h => h.key.round == n).map (fun h => c (.line h))
    ++ (R.sends.filter fun x => x.st == .held && x.round == n).map (fun x => c (.send x))
    ++ (R.calls.filter fun x => x.st == .unconfirmed && x.tok.round == n).map fun x => c (.call x)

/-- A page of the region lies in a deaf strike cell (R352). -/
def Region.deafPage (R : Region) (s : State) : Bool :=
  (List.range R.pages).any fun p =>
    let x := R.pageX p % 32
    let y := R.pageY p
    bit (if R.dieOf p = 0 then s.yard.deaf0 else s.yard.deaf1).toNat (8 * (y / 4) + x / 4)

/-- A call is ready (R403): it has come to the CC, and if it is strong no strong call of its queue is outstanding. -/
def Call.ready (c : Call) (cs : List Call) : Bool :=
  c.st == .queued && (!c.strong || !cs.any fun d => d.strong && d.queue == c.queue && d.st == .taken)

/-- The calls of a confirmed round reach the CC (R402). -/
def Region.stampCalls (R : Region) (t : Nat) (n : BitVec 12) : Region :=
  { R with calls := R.calls.map fun c => if c.st == .queued && c.tok.round == n && c.came == 0 then { c with came := t } else c }

/-- THE CONFIRMATION of a region's oldest sealed round, if it is due: 288 cycles after its seal (R96), no page in a deaf
cell (R352), no rollback in progress, no entry of it that waits for a provisional line of another region, and none of an earlier round
that still waits for the pair comparator. Its held egress is released in entry order (R293), or goes to the pair's comparator, as that
has room (R367); everything kept for its rollback goes (R355). The lines released with it that a read-modify-write wrote break the
reservations on them (R230). -/
def confirmOne (s : State) (rid : Nat) : Option State :=
  match s.region? rid with
  | none => none
  | some R =>
    match R.seals with
    | [] => none
    | (n, t) :: _ =>
      let mine := R.held.filter fun h => h.key.round == n
      let pair := R.pair.isSome
      let lines := R.toComp n
      if s.cycle < t + Config.holdCycles || R.killing || R.roll.isSome || R.deafPage s then none
      else if !pair && mine.any fun h => h.blocked s R.keyRid then none
      else if !R.leaving.isEmpty then none
      else
        let partnerDone : Bool := match R.partner? s with
          | some Q => !newerThan Q.conf n
          | none => true
        let s1 := if pair then s else mine.foldl R.release s
        let keep (k : Nat) (r : BitVec 12) : Bool := !(k == R.keyRid && r == n && partnerDone)
        let shown := s1.home.prov.filter fun p => p.wrote && !keep p.rid p.round
        let s2 := shown.foldl (fun s p => breakResv s none (p.line * 64)) { s1 with home := { s1.home with
          prov := s1.home.prov.filter fun p => keep p.rid p.round
          dedup := s1.home.dedup.filter fun d => keep d.key.rid d.key.round } }
        let R1 := (((s2.region? rid).getD R).confirm s.ticks n).stampCalls s.ticks n
        let s3 := (s2.putRegion (if pair then { R1 with leaving := lines } else R1)).entered
        let s4 := if R1.calls.any (fun c => c.ready R1.calls && c.tok.round == n && c.came == s.ticks) then s3.pend 0 else s3
        some (dispatchAll (releaseOutcomes ((noteEos s4 rid).recheck rid)))

/-- ROUND_CONFIRM (R96, R355). -/
def execRoundConfirm (rid : Nat) (s : State) : Out1 := .next ((confirmOne s rid).getD s)

/-- Every confirmation of a region that is due (R96: a report at cycle t leaves those due by t). -/
def confirmDue (rid : Nat) : Nat → State → State
  | 0, s => s
  | n + 1, s =>
    match confirmOne s rid with
    | some s' => confirmDue rid n s'
    | none => s

/-! ### The pair comparator (R366, R367) -/

/-- Two entries of one key agree in address, data, word mask and operation. -/
def CompItem.agrees : CompItem → CompItem → Bool
  | .line a, .line b => a.op == b.op && a.mask == b.mask && a.data == b.data && a.rel == b.rel
  | .send a, .send b => a.pkt.body == b.pkt.body && a.pkt.dstDev == b.pkt.dstDev && a.pkt.dstRid == b.pkt.dstRid
      && a.pkt.eport == b.pkt.eport
  | .call a, .call b => a.strong == b.strong && a.queue == b.queue && a.tok == b.tok
  | _, _ => false

/-- The entry of the primary released (R367): to memory, to the link gateway, or to its call queue. -/
def releaseComp (s : State) (c : Comp) : State :=
  match s.region? c.rid with
  | none => s
  | some P =>
    match c.item with
    | .line h => P.release s h
    | .send x => dispatchSends (s.putRegion { P with sends := P.sends ++ [{ x with st := .ready }] }) P.rid
    | .call x =>
      let c := { x with st := .queued, came := s.ticks }
      let s1 := s.putRegion { P with calls := P.calls ++ [c] }
      if c.ready P.calls then s1.pend 0 else s1

/-- A mismatch of a pair stands in a round not newer than `n`: entries of one key differ, or a member has confirmed its round
without the other's entry (R367). -/
def State.mismatched (s : State) (P Q : Region) (n : BitVec 12) : Bool :=
  let against (A B : Region) : Bool := s.comp.any fun c => c.rid == A.rid && !older n c.round
    && match s.comp.find? fun d => d.rid == B.rid && d.round == c.round && d.item.sameKey c.item with
      | some d => !d.item.agrees c.item
      | none => !newerThan B.conf c.round && !B.leaving.any c.meets
  against P Q || against Q P

/-- COMPARATOR_MATCH (R367): the primary's entry `k`, oldest of its kind first, meets the shadow's of equal key: equal
entries release the primary's, unequal ones, and one whose partner confirmed its round without it, fault both regions, and
nothing of that round or a newer one is released. -/
def execComparatorMatch (k : Nat) (s : State) : Out1 :=
  match s.comp[k]? with
  | none => .next s
  | some c =>
    match s.region? c.rid with
    | none => .next { s with comp := delNth s.comp k }
    | some R =>
      match R.partner? s with
      | none => .next s
      | some Q =>
        let lost : Bool := s.comp.any fun d => d.rid == c.rid && decide (older d.round c.round)
        let isLine : Bool := match c.item with | .line _ => true | _ => false
        let before : Bool := (s.comp.take k).any fun d => d.rid == c.rid && (match d.item with | .line _ => isLine | _ => !isLine)
        let both : State :=
          takeFault (takeFault s R.rid (R.keyFault c.item.key .redundancyMismatch)) Q.rid (Q.keyFault c.item.key .redundancyMismatch)
        match s.comp.find? fun d => d.rid == Q.rid && d.round == c.round && d.item.sameKey c.item with
        | some d =>
          if !d.item.agrees c.item then .next both
          else if !c.primary || before || lost || s.mismatched R Q c.round then .next s
          else match c.item with
            | .line h => if h.blocked s R.keyRid then .next s
              else .next (releaseComp { s with comp := (s.comp.filter fun x => x != c && x != d) } c)
            | _ => .next (releaseComp { s with comp := (s.comp.filter fun x => x != c && x != d) } c)
        | none => if newerThan Q.conf c.round || Q.leaving.any c.meets then .next s else .next both

/-! ### Rollback (R186, R359, R360, R364) -/

/-- Rounds completed when round c + 1 began (R186 step 4). -/
def doneAt (c : Option (BitVec 12)) (d : BitVec 16) : BitVec 16 :=
  match c with
  | none => 0#16
  | some c => d - (d - (c + 1#12).zeroExtend 16) % 4096#16

/-- A position stepped back to SEQ 0 of round c + 1 (R186 step 4). -/
def Position.back (p : Position) (c : Option (BitVec 12)) : Position :=
  let ended := if p.done = 0#16 then p.round else p.round - 1#12
  if newerThan c p.round then
    { p with round := nextRound c, seq := 0, done := doneAt c p.done, eosSent := p.eosSent && !newerThan c ended }
  else p

/-- A slot after the rollback, if it still holds anything (R186 steps 2 to 4). -/
def Slot.back (c : Option (BitVec 12)) : Slot → Option Slot
  | .operand st t => if newerThan c t.round then none else some (.operand st t)
  | .mark t am => if newerThan c t.round then none else some (.mark t am)
  | .counter es wrote =>
    let es := es.filter fun e => !newerThan c e.round
    if es.isEmpty then none else some (.counter es wrote)
  | .position p => some (.position (p.back c))
  | .hold t => if newerThan c t.round then none else some (.hold t)
  | .accum a => if newerThan c a.round then none else some (.accum a)

/-- One undo entry replayed on the region (Table 6-5): `page` is the MU that holds it. One that an uncorrectable error has struck
restores nothing. -/
def Region.undoOne (R : Region) (page : Nat) (e : Undo) : Region :=
  if e.bad then R
  else match e.item with
  | .word w full old => R.modMu page fun m => { m with
      sram := sramSetWord m.sram w old, fe := if full then setAdd m.fe w else setDel m.fe w, bad := setDel m.bad w }
  | .seal pos i old => R.modUnit ⟨page, pos⟩ fun U => { U with slots := mapPut U.slots i old }
  | .frame f was => R.modMu page fun m => { m with pool := { m.pool with
      alloc := if was then setAdd m.pool.alloc f else setDel m.pool.alloc f } }
  | .ordinal w old => R.modMu page fun m => { m with ords := mapSet m.ords w old }
  | .replay _ _ _ => R

/-- Every MU's undo entries of rounds newer than c replayed, newest first, and dropped (R359 step 4). -/
def Region.undoAll (R : Region) (c : Option (BitVec 12)) : Region :=
  (List.range R.pages).foldl (fun R page =>
    match R.mu? page with
    | none => R
    | some m =>
      let mine := m.undo.filter fun e => newerThan c e.round
      let R1 := mine.reverse.foldl (fun R e => R.undoOne page e) R
      R1.modMu page fun m => { m with undo := m.undo.filter fun e => !newerThan c e.round }) R

/-- The page of the first MU with an undo entry newer than c that an uncorrectable error has struck (R206). -/
def Region.badUndo (R : Region) (c : Option (BitVec 12)) : Option Nat :=
  (List.range R.pages).find? fun page => ((R.mu? page).map fun m => m.undo.any fun e => e.bad && newerThan c e.round).getD false

/-- Frames granted to requests of rounds newer than c, and those requests, given up (R180, R359 step 4): a FALLOC at the head of a
queue has changed nothing yet. -/
def Region.dropGrants (R : Region) (c : Option (BitVec 12)) : Region :=
  let gone (u : UnitId) (q : Nat) : Bool := match R.head? u q with
    | some t => newerThan c t.tok.round
    | none => true
  R.modPool fun p =>
    let back := (p.granted.filter fun g => gone g.1 g.2.1).map (·.2.2)
    { alloc := p.alloc.filter fun f => !back.contains f
      waiting := p.waiting.filter fun w => !gone w.1 w.2.1
      granted := p.granted.filter fun g => !gone g.1 g.2.1 }

/-- The copy of accumulator `a` with the oldest label newer than c (R312). -/
def Mxi.copyFor (x : Mxi) (c : Option (BitVec 12)) (a : Nat) : Option Acc :=
  let mine := x.copies.filter fun p => p.1 == a && newerThan c p.2.1
  (mine.find? fun p => mine.all fun q => q.2.1 == p.2.1 || older p.2.1 q.2.1).map (·.2.2)

/-- The copy of register `i` with the oldest label newer than c (R335). -/
def Sbe.copyFor (x : Sbe) (c : Option (BitVec 12)) (i : Nat) : Option SReg :=
  let mine := x.copies.filter fun p => p.1 == i && newerThan c p.2.1
  (mine.find? fun p => mine.all fun q => q.2.1 == p.2.1 || older p.2.1 q.2.1).map (·.2.2)

/-- The engine of a unit taken back to round c (R359 steps 3 to 5). `global` tells of a key whether its access was
global, whose keys a replay keeps (R364). -/
def Engine.back (c : Option (BitVec 12)) (replay : Bool) (global : Key → Bool) : Engine → Engine
  | .cell => .cell
  | .mu m =>
    let accs := m.accs.filter fun a => !newerThan c a.hdr.round
    .mu { m with
      accs := accs
      waves := m.waves.filter fun w => !newerThan c w.round
      iters := m.iters.filter fun d => !newerThan c d.round
      held := m.held.filter fun x => !newerThan c x.key.round
      dedup := m.dedup.filter fun d => !newerThan c d.key.round || (replay && global d.key) }
  | .str x => .str { x with ops := x.ops.filter fun o => !newerThan c o.trig.tok.round }
  | .mxi x => .mxi { x with
      store := x.store.filter fun i => !newerThan c i.tok.round
      ops := x.ops.filter fun o => !newerThan c o.hdr.round
      accs := (List.range x.accs.length).map fun a => (x.copyFor c a).getD (nth default x.accs a)
      bad := x.bad.filter fun a => (x.copyFor c a).isNone
      copies := x.copies.filter fun p => !newerThan c p.2.1
      touched := x.touched.filter fun t => !newerThan c t.2
      books := (x.bookUndo.reverse.filter fun b => newerThan c b.2.1).foldl (fun bs b => modNth bs b.1 fun _ => b.2.2) x.books
      bookUndo := x.bookUndo.filter fun b => !newerThan c b.2.1
      keys := x.keys.filter fun k => !newerThan c k.round }
  | .sbe x =>
    let idx := (x.copies.map (·.1)).eraseDups
    .sbe { x with
      store := x.store.filter fun i => !newerThan c i.tok.round
      ops := x.ops.filter fun o => !newerThan c o.hdr.round
      regs := idx.foldl (fun m i => match x.copyFor c i with | some g => mapPut m i g | none => m) x.regs
      bad := x.bad.filter fun i => (x.copyFor c i).isNone
      copies := x.copies.filter fun p => !newerThan c p.2.1
      keys := x.keys.filter fun k => !newerThan c k.round }

/-- Requests of accesses that are gone leave their lists. -/
def Region.pruneRequests (R : Region) : Region :=
  let there (q : PortReq) : Bool := (R.acc? q.unit.page q.acc).isSome
  { R with units := R.units.map fun U => match U.eng with
      | .mu m => { U with eng := .mu { m with
          portq := m.portq.filter there, waiters := m.waiters.filter there, refused := m.refused.filter there } }
      | _ => U }

/-- Later tokens that link and call records of a unit still hold a credit of a route for (R424). -/
def Region.laterHeld (R : Region) (s : State) (u : UnitId) (route : Nat) (old : BitVec 12 → Bool) : Nat :=
  let mine (v : UnitId) (d : BitVec 16) (round : BitVec 12) : Bool := v == u && dRoute d == route && old round
  (R.sends.filter fun x => match x.report with
      | some (v, d, _) => mine v d x.round
      | none => false).length
    + (R.buffers.filter fun b => mine b.unit b.dest b.hdr.round).length
    + ((R.calls.filter (·.st != .answered) ++ R.responses).filter fun c => mine c.unit c.dest c.tok.round).length
    + (s.links.insts.filter fun x => x.out.isNone && match x.loc with
      | some (rid, _, v, d, hdr) => rid == R.rid && mine v d hdr.round
      | none => false).length

/-- Credits of a route that operations of a unit which have not completed hold reserved (R129, R205, R269, R306, R330). -/
def Site.reserved (U : Site) (route : Nat) (old : BitVec 12 → Bool) : Nat :=
  let some_ (es : Sends) : Nat := onRoute es route
  match U.eng with
  | .cell => 0
  | .mu m => ((m.accs.filter fun a => old a.hdr.round && !a.sent && a.st != .cancelled).map fun a => some_ (sendsOf a.r a.hdr a.hdr)).sum
  | .str x => ((x.ops.filter fun o => old o.trig.tok.round && !o.sent).map fun o => some_ (strReserve o.op o.r o.trig.tok)).sum
  | .mxi x => ((x.ops.filter fun o => old o.hdr.round && o.st == .accepted).map fun o => some_ (sendsOf o.r o.hdr o.hdr)).sum
  | .sbe x => ((x.ops.filter fun o => old o.hdr.round).map fun o => some_ (sendsOf o.r o.hdr o.hdr)).sum

/-- The serials that a flight stands for: a CFU request answers each of its destinations on a credit of its own (R255). -/
def Flight.sids (f : Flight) : List Nat :=
  match f.cfuOp with
  | some (_, _, ds) => (List.range (max 1 ds.length)).map (f.sid + ·)
  | none => [f.sid]

/-- Credits of a route that are spent or reserved: tokens outstanding, waiting results, operations and later tokens. -/
def Region.creditsUsed (R : Region) (s : State) (old : BitVec 12 → Bool) (U : Site) (route : Nat) : Nat :=
  let sids := ((R.flights.filter fun f => f.org == U.id && f.route == route).flatMap Flight.sids
    ++ (R.units.flatMap fun V => V.queues.flatMap fun q =>
      (q.filter fun t => t.org == U.id && t.route == route).map (·.sid))).eraseDups
  let paid := (U.outq.filter fun o => o.route == route && o.paid).length
  sids.length + paid + U.reserved route old + R.laterHeld s U.id route old

/-- Credits of a unit recounted (R359 step 2, R400): slots less those used; what is used beyond the slots is owed. -/
def Region.recount (R : Region) (s : State) (old : BitVec 12 → Bool) (U : Site) : Site :=
  let of (none_ : List Nat) (f : Nat → Nat → Nat) : List Nat := (List.range 4).map fun route =>
    match R.routeSlots U route with
    | none => nth 0 none_ route
    | some n => f n (R.creditsUsed s old U route)
  { U with credits := of U.credits fun n k => n - k, owed := of U.owed fun n k => k - n }

/-- The replay items that a MARK emits again (R360): those of rounds newer than c whose token's own round is not. -/
def Region.replays (R : Region) (c : Option (BitVec 12)) : List (UnitId × Token) :=
  (List.range R.pages).flatMap fun page => match R.mu? page with
    | none => []
    | some m => m.undo.filterMap fun e => match e.item with
      | .replay _ pos t => if newerThan c e.round && !newerThan c t.round then some (⟨page, pos⟩, t) else none
      | _ => none

/-- The queue by which tokens reach a record. -/
def Region.queueInto (R : Region) (u : UnitId) (node : Nat) : Nat :=
  (R.edges.findSome? fun e => match e.dst with
    | .queue v q => if v = u && e.node = node then some q else none
    | _ => none).getD 0

/-- Replay items put at the head of their MARK's queue, in stamping order (R360). Their origin is the unit itself: no slot
of a circuit is theirs. -/
def Region.reinject (R : Region) (xs : List (UnitId × Token)) : Region :=
  xs.reverse.foldl (fun R x =>
    let q := R.queueInto x.1 x.2.node.toNat
    R.modUnit x.1 fun U => { U with queues := modNth U.queues q fun l =>
      { tok := x.2, org := x.1, route := 4, sid := 0 } :: l }) R

/-- The kept tokens of newer rounds delivered again, in their original order, ahead of new arrivals (R421); one whose slot
is free again takes none. -/
def Region.redeliver (R : Region) (s : State) (before : Region) (c : Option (BitVec 12)) : List Flight :=
  R.items.filterMap fun i => match i.pkt with
    | none => none
    | some p => match p.body with
      | .token t =>
        if !newerThan c t.round then none
        else
          let org := creditOrg s p
          let live : Bool := before.outstanding org (16 + p.cap) p.id
          some { tok := t, org := if live then org else ⟨4095, 7⟩, route := 16 + p.cap, sid := p.id, loc := .ingress p.eport,
                 since := s.cycle, cfuOp := none }
      | _ => none

/-- An item after the rollback (R421): one placed in a newer round waits for its MARK's token again; one whose token was
of a newer round goes back to its mailbox. -/
def Item.back (c : Option (BitVec 12)) (i : Item) : Item :=
  let isTok : Bool := match i.pkt with | some p => (match p.body with | .token _ => true | _ => false) | none => false
  if isTok then i
  else if i.pkt.isNone then { i with stamped := none }
  else if i.onWay && newerThan c i.tok.round then
    { i with onWay := false, stamped := none, dest := none, words := [], pins := [], tok := emptyToken }
  else match i.stamped with
    | some r => if newerThan c r then { i with stamped := none } else i
    | none => i

/-- Crossing tokens of the region itself that are gone give their ALLOW credits back. -/
def Region.crossBack (R before : Region) : Region :=
  let copies (X : Region) : List (Nat × Nat) :=
    ((X.flights.filter fun f => f.org == ⟨R.rid, 7⟩).map (fun f => (f.route, f.sid))
      ++ (X.units.flatMap fun V => V.queues.flatMap fun q => (q.filter fun t => t.org == ⟨R.rid, 7⟩).map fun t => (t.route, t.sid))
      ++ (X.freed.filter fun f => f.1 == ⟨R.rid, 7⟩).map fun f => (f.2.1, f.2.2)).eraseDups
  let now := copies R
  ((copies before).filter fun p => !now.contains p).foldl (fun R p => R.setCapOut (p.1 - 16) (R.capOut (p.1 - 16) - 1)) R

/-- The region itself taken back to round c (R359 steps 2 to 6); `replay` keeps its egress with the keys (R364). -/
def Region.back (R : Region) (s : State) (c : Option (BitVec 12)) (replay keepFault : Bool) : Region :=
  let newer := newerThan c
  let again := R.replays c
  let R1 := (R.dropGrants c).undoAll c
  let global (k : Key) : Bool := let (u, w) := R.recordOfKey k; match R.unit? u with
    | some U => mrGlobal (U.recAt w).2
    | none => false
  let unit (U : Site) : Site := { U with
    queues := U.queues.map fun q => q.filter fun t => !newer t.tok.round
    outq := U.outq.filter fun o => !newer o.tok.round
    slots := U.slots.filterMap fun p => (p.2.back c).map fun x => (p.1, x)
    aluFree := 0
    eng := (U.eng.back c replay global).given fun n => (((nth [] U.queues 0).take n).filter fun t => !newer t.tok.round).length }
  let markHeld (h : Held) : Held := if newer h.key.round then { h with kept := true } else h
  let uncover (h : Held) : Held := { h with under := h.under.filter fun x => !newer x.2 }
  let keepSend (x : Send) : Bool := !(x.st == .held && newer x.round)
  let keepCall (x : Call) : Bool := !(x.st == .unconfirmed && newer x.tok.round)
  let markSend (x : Send) : Send := if keepSend x then x else { x with kept := true }
  let markCall (x : Call) : Call := if keepCall x then x else { x with kept := true }
  let fault : Option FaultRec := match R1.fault with
    | none => none
    | some f => if f.cause = Cause.securityAlarm || keepFault || !newer f.round then some f else none
  let R2 := { R1 with
    units := R1.units.map unit
    flights := R1.flights.filter fun f => !newer f.tok.round
    freed := R1.freed.filter fun f => f.1.pos == 7
    markers := R1.markers.filter fun m => !newer m.round
    held := if replay then R1.held.map markHeld else (R1.held.filter fun (h : Held) => !newer h.key.round).map uncover
    sends := if replay then R1.sends.map markSend else R1.sends.filter keepSend
    calls := if replay then R1.calls.map markCall else R1.calls.filter keepCall
    buffers := R1.buffers.filter fun b => !newer b.hdr.round
    items := R1.items.map (Item.back c)
    heldLog := R1.heldLog.filter fun e => !newer e.round
    errTags := R1.errTags.filter fun t => !newer t.1
    replayed := if replay then R1.replayed else R1.replayed.filter fun r => !newer r
    seals := R1.seals.filter fun p => !newer p.1
    fault := fault
    rolled := true
    rolls := R1.rolls + 1 }
  let R3 := { R2 with flights := R2.redeliver s R c ++ R2.flights }
  let R4 := (R3.crossBack R).pruneRequests.reinject again
  let R5 := { R4 with units := R4.units.map (R4.recount s fun r => !newer r) }
  { R5 with parked := R5.parked.filter fun p => match p.unit.pos with
      | 3 => (R5.acc? p.unit.page p.acc).isSome
      | 4 => (R5.strOp? p.unit p.acc).isSome
      | 8 => R5.held.any fun h => h.pa.isNone
      | 9 => true
      | _ => false }

/-- What the home agents hold of a region's rounds newer than c given up (R229, R359 steps 4 and 5): its provisional lines are
restored, newest first, and its keys dropped. -/
def rollHome (s : State) (keyRid : Nat) (c : Option (BitVec 12)) : State :=
  let mine (k : Nat) (r : BitVec 12) : Bool := k == keyRid && newerThan c r
  let s1 := (s.home.prov.filter fun p => mine p.rid p.round).reverse.foldl restoreLine s
  { s1 with home := { s1.home with
    prov := s1.home.prov.filter fun p => !mine p.rid p.round
    dedup := s1.home.dedup.filter fun d => !mine d.key.rid d.key.round } }

/-- A REGION TAKEN BACK TO ROUND c (R359, R364): its own state, and what the home agents hold of its newer rounds, but for a replay,
which keeps that, and for the lines and keys that a pair shares. -/
def rollRegion (s : State) (rid : Nat) (c : Option (BitVec 12)) (replay keepFault : Bool) : State :=
  match s.region? rid with
  | none => s
  | some R =>
    let R1 := R.back s c replay keepFault
    let s1 := { s.putRegion R1 with home := { s.home with
      queue := s.home.queue.filter fun q => q.rid != rid || (R1.acc? q.page q.acc).isSome } }
    if replay then
      let mark (p : Prov) : Prov :=
        if p.rid == R.keyRid && newerThan c p.round && !p.kept.contains rid then { p with kept := p.kept ++ [rid] } else p
      { s1 with home := { s1.home with prov := s1.home.prov.map mark } }
    else if R.pair.isSome then
      { s1 with home := { s1.home with prov := s1.home.prov.map fun p => { p with kept := p.kept.filter (· != rid) } } }
    else rollHome s1 R.keyRid c

/-- ASACNT.ROLLBACKS counts a rollback (R358). -/
def countRollback (s : State) : State :=
  let n := s.yard.rollbacks
  { s with yard := { s.yard with rollbacks := if n = 0xFFFFFFFF#32 then n else n + 1#32 } }

/-- A FROZEN region holds provisional lines of a round that has not sealed (R229). -/
def Region.provOpen (R : Region) (s : State) : Bool :=
  s.home.prov.any fun p => p.rid == R.keyRid && newerThan R.conf p.round

/-- The strike cell of a page (R348): its die and its place there. -/
def Region.cellOf (R : Region) (page : Nat) : Nat × Nat × Nat := (R.dieOf page, R.pageX page % 32 / 4, R.pageY page / 4)

/-- The lowest page of the areas whose slice holds a word that no error-correcting code restores, and its lowest such word (R359
step 7). -/
def Region.scrub (R : Region) (area : List (Nat × Nat × Nat)) : Option (Nat × Nat) :=
  (List.range R.pages).findSome? fun p =>
    if area.contains (R.cellOf p) then (R.mu? p).bind fun m => m.bad.head?.map fun w => (p, w) else none

/-- A fault record that names an MU. -/
def muFault (page : Nat) (c : Cause) (detail : Nat) : FaultRec := mkFault ⟨page, 3⟩ 0#12 emptyToken c detail

/-- A region taken back, with the freezing fault "record error" where an undo entry that its rollback needs is struck (R206). -/
def rollWith (s : State) (R : Region) (c : Option (BitVec 12)) (replay keepFault : Bool) (f : Region → Region) : State :=
  let s1 := (rollRegion s R.rid c replay keepFault).modRegion R.rid f
  match R.badUndo c with
  | some page => takeFault s1 R.rid (muFault page .recordError 0)
  | none => s1

/-- The region itself has had read-modify-writes answered at home agents in a round that has not sealed (R229). -/
def Region.rmwOpen (R : Region) : Bool :=
  R.units.any fun U => match U.eng with
    | .mu m => m.dedup.any fun d => newerThan R.conf d.key.round && d.value.isSome && mrGlobal (U.recAt (R.recordOfKey d.key).2).2
    | _ => false

/-- A member of a pair taken back to its newest confirmed round for the sake of its provisional lines (R229), its fault record kept. -/
def rollOpen (s : State) (R : Region) : State :=
  if R.rmwOpen then countRollback (rollWith s R R.conf false true id) else s

/-- The rollback of a pair whose frozen member holds provisional lines of a round not sealed (R229): each member that holds them goes
back, and where the other does not run the lines that neither has confirmed are restored. Those that a running member still holds stay
provisional for it. -/
def rollPair (s : State) (R Q : Region) : State :=
  let c := match R.conf, Q.conf with
    | some a, some b => some (newerOf a b)
    | some a, none => some a
    | none, x => x
  if Q.st = .running then rollOpen s R
  else rollHome (rollOpen (rollOpen s R) Q) R.keyRid c

/-- ROLLBACK (R359): a region whose rollback a report has started goes back to its last confirmed round and returns to
the state it was in; a fault of a round that is gone returns it to RUNNING, or to FROZEN by RGN.FREEZE (R55). A word of the covered
area that stays uncorrectable is the freezing fault "state lost". A FROZEN region that holds provisional lines of a round not
sealed goes back too, its fault record kept, once its sealed rounds are confirmed (R229). -/
def execRollback (rid : Nat) (s : State) : Out1 :=
  match s.region? rid with
  | none => .next s
  | some R =>
    match R.roll with
    | some x =>
      let s1 := countRollback (rollWith s R x.c false false fun Q =>
        let undone : Bool := R.fault.isSome && Q.fault.isNone && x.back == .frozen
        { Q with roll := none, st := if undone && !R.halting && !s.boot.thermtrip then .running else x.back })
      let s2 := match (s1.region? rid).bind fun Q => Q.scrub x.area with
        | some (page, w) => takeFault s1 rid (muFault page .stateLost w)
        | none => s1
      .next (s2.recheck rid)
    | none =>
      if R.st ≠ .frozen || R.killing || !R.seals.isEmpty || !R.provOpen s then .next s
      else match R.partner? s with
        | none => .next (countRollback (rollWith s R R.conf false true id))
        | some Q =>
          if Q.roll.isSome || (Q.st ≠ .running && !Q.seals.isEmpty) then .next s else .next (rollPair s R Q)

/-- ROUND_REPLAY (R363 to R365): the oldest error tag's round and those newer run again, their egress kept; a tag of a
round already replayed is the freezing fault "error repeat". -/
def execRoundReplay (rid : Nat) (s : State) : Out1 :=
  match s.region? rid with
  | none => .next s
  | some R =>
    match R.errTags.find? fun t => R.errTags.all fun q => !older q.1 t.1 with
    | none => .next s
    | some (r, f) =>
      if !R.live then .next s
      else if R.replayed.contains r then
        .next (takeFault (s.putRegion { R with errTags := delFirst (· == (r, f)) R.errTags }) rid f)
      else
        let c := if R.conf.isNone && r = 0#12 then none else some (r - 1#12)
        .next ((rollWith s R c true false fun Q => { Q with replayed := Q.replayed ++ [r] }).recheck rid)

end Sys2Proof.Machine
end

