-- ==== Sys2Proof/Machine/Image.lean ====
section
/-! DEFINITION. The layouts of a context image (R395 to R400, R472, R473; Tables 2-1, 3-9, 5-1, 5-2, 6-5, 12-5, 12-7, 12-8,
12-19, 12-20): what each item of a region's state is as bytes, and what such bytes stand for. -/

namespace Sys2Proof.Machine

/-! ### Fields of bytes -/

/-- A field of an image: its byte offset, its size in bytes, its little-endian value (R4). -/
abbrev Field := Nat × Nat × Nat

/-- Byte `i` of what the fields lay out; a byte that no field names is zero (R395). -/
def fieldByte (fs : List Field) (i : Nat) : Byte :=
  match fs.find? fun f => f.1 ≤ i && i < f.1 + f.2.1 with
  | some f => BitVec.ofNat 8 (f.2.2 >>> (8 * (i - f.1)))
  | none => 0#8

/-- The bytes that the fields lay out. -/
def fieldBytes (n : Nat) (fs : List Field) : List Byte := (List.range n).map (fieldByte fs)

/-- The fields moved by an offset. -/
def shift (n : Nat) (fs : List Field) : List Field := fs.map fun f => (n + f.1, f.2)

/-- Entries of one size from an offset on. -/
def table (off size : Nat) (vs : List Nat) : List Field := (List.range vs.length).map fun i => (off + size * i, size, nth 0 vs i)

/-- A bitmap of the numbers in a list, byte by byte, those bytes that are not zero. -/
def bitmap (off : Nat) (ns : List Nat) : List Field :=
  ((ns.map (· / 8)).eraseDups).map fun b => (off + b, 1, ((ns.filter fun n => n / 8 == b).map fun n => 2 ^ (n % 8)).sum)

/-- Bytes read from an image: its bytes by offset. -/
abbrev Bytes := Nat → Byte

/-- The little-endian number of `n` bytes at an offset. -/
def numAt (b : Bytes) (off n : Nat) : Nat := fromBytes ((List.range n).map fun i => b (off + i))

/-- The image from an offset on. -/
def bytesFrom (b : Bytes) (off : Nat) : Bytes := fun i => b (off + i)

/-- The numbers whose bits are set in a bitmap of `n` bits. -/
def bitsAt (b : Bytes) (off n : Nat) : List Nat := (List.range n).filter fun i => bit (b (off + i / 8)).toNat (i % 8)

/-! ### Tokens (Table 2-1) -/

/-- The code of an action. -/
def actCode : Act → Nat
  | .normal => 0 | .sticky => 1 | .purge => 2 | .cancel => 3
/-- The action of a code. -/
def actOf (n : Nat) : Act := match n % 4 with | 0 => .normal | 1 => .sticky | 2 => .purge | _ => .cancel
/-- The code of a kind. -/
def kindCode : Kind → Nat
  | .data => 0 | .marker => 1 | .eos => 2 | .bubble => 3
/-- The kind of a code. -/
def kindOf (n : Nat) : Kind := match n % 4 with | 0 => .data | 1 => .marker | 2 => .eos | _ => .bubble

/-- The header of a token (Table 2-1). -/
def tokenHeader (t : Token) : Nat :=
  t.seq.toNat + 2 ^ 15 * b2n t.err + 2 ^ 16 * b2n t.exc + 2 ^ 17 * kindCode t.kind + 2 ^ 19 * actCode t.act + 2 ^ 21 * t.fmt.code
    + 2 ^ 25 * t.len.toNat + 2 ^ 28 * t.round.toNat + 2 ^ 40 * t.frame.toNat + 2 ^ 50 * t.port.toNat + 2 ^ 52 * t.node.toNat
    + 2 ^ 64 * t.tag.toNat

/-- The 48 bytes of a token: header, then payload. -/
def tokenNum (t : Token) : Nat := tokenHeader t + 2 ^ 128 * fromWords t.e

/-- The eight words of a 256-bit number. -/
def words8 (n : Nat) : List W32 := (List.range 8).map fun i => BitVec.ofNat 32 (n >>> (32 * i))

/-- The token of 48 bytes. -/
def tokenOf (n : Nat) : Token where
  tag := BitVec.ofNat 64 (n >>> 64)
  node := BitVec.ofNat 12 (n >>> 52)
  port := BitVec.ofNat 2 (n >>> 50)
  frame := BitVec.ofNat 10 (n >>> 40)
  round := BitVec.ofNat 12 (n >>> 28)
  len := BitVec.ofNat 3 (n >>> 25)
  fmt := Fmt.ofCode (n >>> 21)
  act := actOf (n >>> 19)
  kind := kindOf (n >>> 17)
  exc := bit n 16
  err := bit n 15
  seq := BitVec.ofNat 15 n
  e := words8 (n >>> 128)

/-! ### Slots (Tables 5-1 and 5-2) -/

/-- An operand's fields in a slot, with ST. -/
def slotToken (st : Nat) (t : Token) : Nat :=
  fromWords t.e + 2 ^ 256 * t.tag.toNat + 2 ^ 320 * t.round.toNat + 2 ^ 332 * t.seq.toNat + 2 ^ 347 * t.len.toNat
    + 2 ^ 350 * t.fmt.code + 2 ^ 354 * b2n t.exc + 2 ^ 355 * b2n t.err + 2 ^ 356 * t.port.toNat + 2 ^ 358 * st

/-- One round entry of a counter slot. -/
def counterNum (e : CEntry) : Nat :=
  2 ^ 63 + 2 ^ 62 * b2n e.seen + 2 ^ 50 * e.round.toNat + 2 ^ 30 * (e.exp % 2 ^ 20) + 2 ^ 10 * (e.got % 2 ^ 20)

/-- The 64 bytes of a slot. A position that has sent all of 32,768 tokens, whose SEQ needs a sixteenth bit, has it in [432] (log
entry 96). -/
def slotNum : Slot → Nat
  | .operand false t => slotToken 1 t
  | .operand true t => slotToken 2 t
  | .mark t am => slotToken 3 { t with e := [] } + 2 ^ 360 * am.toNat
  | .counter es wrote =>
    ((List.range es.length).map fun j => 2 ^ (64 * j) * counterNum (nth default es j)).sum + 2 ^ 320 * wrote.toNat + 2 ^ 358
  | .position p =>
    2 ^ 320 * p.wrote.toNat + 2 ^ 358 + 2 ^ 384 * p.round.toNat + 2 ^ 396 * (p.seq % 2 ^ 15) + 2 ^ 411 * p.done.toNat
      + 2 ^ 427 * b2n p.eosSent + 2 ^ 428 * p.k.toNat + 2 ^ 432 * (p.seq / 2 ^ 15 % 2)
  | .hold t => slotToken 1 t + 2 ^ 384 * t.frame.toNat
  | .accum a =>
    let (len, e) := a.sum.getD (0#3, [])
    fromWords e + 2 ^ 256 * a.tag.toNat + 2 ^ 320 * a.round.toNat + 2 ^ 332 * a.seq.toNat + 2 ^ 347 * len.toNat
      + 2 ^ 350 * a.fmt.code + 2 ^ 354 * b2n a.exc + 2 ^ 355 * b2n a.err + 2 ^ 358 + 2 ^ 384 * (a.next % 2 ^ 32) + 2 ^ 416 * (a.k.getD 0 % 2 ^ 32)
      + 2 ^ 448 * b2n a.k.isSome + 2 ^ 449 * b2n a.sum.isSome

/-- The operand that a slot's fields give; NODE and FRAME are its record's and the slot's own. -/
def slotOperand (n node frame : Nat) : Token where
  tag := BitVec.ofNat 64 (n >>> 256)
  node := BitVec.ofNat 12 node
  port := BitVec.ofNat 2 (n >>> 356)
  frame := BitVec.ofNat 10 frame
  round := BitVec.ofNat 12 (n >>> 320)
  len := BitVec.ofNat 3 (n >>> 347)
  fmt := Fmt.ofCode (n >>> 350)
  act := .normal
  kind := .data
  exc := bit n 354
  err := bit n 355
  seq := BitVec.ofNat 15 (n >>> 332)
  e := words8 n

/-- What owns a slot. -/
inductive SlotUse where
  | counter | position | hold | accum
  | operand (node : Nat)
  deriving DecidableEq, Repr

/-- The record that a slot index of a site belongs to (R71, R173): a state slot has FRAME 0 and the offset SOFF. -/
def Region.slotUse (R : Region) (U : Site) (i : Nat) : SlotUse :=
  let recs := U.recWords.map fun w => (w, U.recAt w)
  let state := recs.findSome? fun p =>
    let (w, op, r) := p
    if soff op r ≠ i then none
    else if countedEntry op r || R.countedExit U.id w op then some SlotUse.counter
    else if op = 0x80 || op = 0x7D then some .position
    else if op = 0x7E then some .hold
    else none
  match state with
  | some x => x
  | none =>
    let o := i % U.stride
    match recs.find? fun p => p.2.1 == 0x85 && (slotFields U.id p.2.1 p.2.2).2.2 == o + 1 with
    | some _ => .accum
    | none =>
      let mine (p : Nat × Nat × Rec) : Bool :=
        let (_, lb, off) := slotFields U.id p.2.1 p.2.2
        let lo := if (tokenPorts p.2.1 p.2.2).length = 3 then off - (lb + 1) else off
        (matching p.2.1 p.2.2 || p.2.1 == 0x85) && lo ≤ o && o ≤ off + lb
      .operand (((recs.find? mine).map (·.1)).getD 0)

/-- The item of a slot's 64 bytes, if it holds one. -/
def slotOf (use : SlotUse) (frame n : Nat) : Option Slot :=
  let st := bits n 359 358
  if st = 0 then none
  else match use with
    | .counter =>
      let es := (List.range 4).filterMap fun j =>
        let v := n >>> (64 * j) % 2 ^ 64
        if bit v 63 then some { round := BitVec.ofNat 12 (v >>> 50), seen := bit v 62, exp := bits v 49 30, got := bits v 29 10 }
        else none
      if es.isEmpty then none else some (.counter es (BitVec.ofNat 12 (n >>> 320)))
    | .position => some (.position {
        round := BitVec.ofNat 12 (n >>> 384), seq := bits n 410 396 + 2 ^ 15 * bits n 432 432, done := BitVec.ofNat 16 (n >>> 411), eosSent := bit n 427,
        k := BitVec.ofNat 4 (n >>> 428), wrote := BitVec.ofNat 12 (n >>> 320) })
    | .hold => some (.hold (slotOperand n 0 (bits n 393 384)))
    | .accum => some (.accum {
        tag := BitVec.ofNat 64 (n >>> 256), round := BitVec.ofNat 12 (n >>> 320), next := bits n 415 384,
        k := if bit n 448 then some (bits n 447 416) else none, seq := BitVec.ofNat 15 (n >>> 332), fmt := Fmt.ofCode (n >>> 350),
        sum := if bit n 449 then some (BitVec.ofNat 3 (n >>> 347), words8 n) else none, exc := bit n 354, err := bit n 355 })
    | .operand node =>
      let t := slotOperand n node frame
      if st = 3 then some (.mark (cancelOf t) (BitVec.ofNat 4 (n >>> 360))) else some (.operand (st == 2) t)

/-! ### Undo entries (Table 6-5, R360) -/

/-- One 64-bit entry. -/
def undoWord (round : BitVec 12) (kind : Nat) (fe : Bool) (word old : Nat) : Nat :=
  2 ^ 52 * round.toNat + 2 ^ 49 * kind + 2 ^ 48 * b2n fe + 2 ^ 32 * (word % 2 ^ 16) + old % 2 ^ 32

/-- The 16 entries of a 64-byte item; the second one carries what its index has above the field. -/
def undo16 (round : BitVec 12) (kind word high n : Nat) : List Nat :=
  (List.range 16).map fun i => undoWord round kind false (if i = 1 then high else word) (n >>> (32 * i))

/-- The entries of an undo item. The item index of a seal copy is its slot's, with the site's position above 14 bits of it and the
rest in the second entry; that of an ordinal entry is its word, FE telling whether the entry was open; a replay item's FRAME stands
where a held value's does (log entry 11). -/
def undoNums (e : Undo) : List Nat :=
  match e.item with
  | .word w full old => [undoWord e.round 0 full w old.toNat]
  | .seal pos i old => undo16 e.round 1 (i % 2 ^ 14 + 2 ^ 14 * pos) (i / 2 ^ 14) (slotNum old)
  | .frame f was => [undoWord e.round 2 false f (b2n was)]
  | .ordinal w old => [undoWord e.round 3 old.isSome w (old.getD 0)]
  | .replay node pos t => undo16 e.round 4 (node.toNat + 2 ^ 12 * pos) 0 (slotToken 1 t + 2 ^ 384 * t.frame.toNat)

/-- The undo items of a list of entries, oldest first. -/
def undoOf (use : Nat → Nat → SlotUse) (stride : Nat → Nat) : Nat → List Nat → List Undo
  | 0, _ => []
  | _, [] => []
  | fuel + 1, n :: rest =>
    let round := BitVec.ofNat 12 (n >>> 52)
    let w := bits n 47 32
    let big := ((List.range 16).map fun i => 2 ^ (32 * i) * (nth 0 (n :: rest) i % 2 ^ 32)).sum
    match bits n 51 49 with
    | 0 => { round := round, item := .word w (bit n 48) (BitVec.ofNat 32 n), bad := false } :: undoOf use stride fuel rest
    | 1 =>
      let pos := w / 2 ^ 14
      let i := w % 2 ^ 14 + 2 ^ 14 * bits (nth 0 rest 0) 47 32
      let tail := undoOf use stride fuel (rest.drop 15)
      match slotOf (use pos i) (i / max 1 (stride pos)) big with
      | some x => { round := round, item := .seal pos i x, bad := false } :: tail
      | none => tail
    | 2 => { round := round, item := .frame w (bit n 0), bad := false } :: undoOf use stride fuel rest
    | 3 => { round := round, item := .ordinal w (if bit n 48 then some (n % 2 ^ 32) else none), bad := false } :: undoOf use stride fuel rest
    | _ => { round := round, item := .replay (BitVec.ofNat 12 w) (w / 2 ^ 12 % 4) (slotOperand big (w % 2 ^ 12) (bits big 393 384)), bad := false }
        :: undoOf use stride fuel (rest.drop 15)

/-! ### Entries of Table 12-19 -/

/-- A wave-table entry. -/
def waveNum (w : Wave) : Nat :=
  w.tag.toNat + 2 ^ 64 * w.frame.toNat + 2 ^ 79 + 2 ^ 80 * w.chain + 2 ^ 96 * (w.last.getD 0) + 2 ^ 111 * b2n w.last.isSome

/-- The wave of an entry, opened in the round given. -/
def waveOf (round : BitVec 12) (n : Nat) : Option Wave :=
  if bit n 79 then some { chain := bits n 85 80, tag := BitVec.ofNat 64 n, frame := BitVec.ofNat 10 (n >>> 64), round := round,
                          last := if bit n 111 then some (bits n 105 96) else none }
  else none

/-- A key as bytes 0 to 18 of an entry (V set). -/
def keyNum (k : Key) : Nat :=
  k.tag.toNat + 2 ^ 64 * k.seq.toNat + 2 ^ 79 + 2 ^ 80 * k.round.toNat + 2 ^ 96 * k.frame.toNat + 2 ^ 112 * k.own + 2 ^ 128 * k.rid
    + 2 ^ 144 * k.chain

/-- The key of an entry, of region `rid`. -/
def keyOfNum (rid idx n : Nat) : Key where
  rid := rid
  chain := bits n 151 144
  round := BitVec.ofNat 12 (n >>> 80)
  seq := BitVec.ofNat 15 (n >>> 64)
  tag := BitVec.ofNat 64 n
  frame := BitVec.ofNat 10 (n >>> 96)
  own := bits n 127 112
  idx := idx

/-- A deduplication entry. -/
def dedupNum (d : Dedup) : Nat :=
  keyNum d.key + 2 ^ 152 * d.key.idx + 2 ^ 155 * b2n d.value.isSome + 2 ^ 192 * (d.value.getD 0#64).toNat

/-- The deduplication entry of 32 bytes. -/
def dedupOf (rid n : Nat) : Option Dedup :=
  if bit n 79 then some { key := keyOfNum rid (bits n 154 152) n, line := 0,
                          value := if bit n 155 then some (BitVec.ofNat 64 (n >>> 192)) else none, args := [] }
  else none

/-- A performed access (R235). -/
def performedNum (a : Access) : Nat :=
  a.hdr.tag.toNat + 2 ^ 64 * a.hdr.frame.toNat + 2 ^ 79 + 2 ^ 80 * mrChain a.r + 2 ^ 88 * b2n (mrHead a.r) + 2 ^ 89 * b2n (mrTail a.r)
    + 2 ^ 90 * b2n (a.st == .cancelled) + 2 ^ 96 * mrPred a.r + 2 ^ 112 * mrOwn a.r

/-- The payload that a key store records (Table 12-19). -/
def islandPayload (op : Nat) (ws : List W32) : Nat :=
  if op = 0xE0 || op = 0xE5 then ((List.range ws.length).map fun i => 2 ^ (16 * i) * ((nth 0#32 ws i).toNat % 2 ^ 16)).sum % 2 ^ 128
  else fromWords (ws.take 4) % 2 ^ 128

/-- The recorded words of a key store's payload. -/
def islandWords (op : Nat) (bip : Bool) (n : Nat) : List W32 :=
  if op = 0xE0 then (List.range 8).map fun i => BitVec.ofNat 32 (bits n (16 * i + 15) (16 * i))
  else if op = 0xE5 then (List.range 8).map fun i =>
    let v := bits n (16 * i + 15) (16 * i)
    if bip then BitVec.ofInt 32 (signed 16 v) else BitVec.ofNat 32 v
  else if op = 0xE6 then (List.range 3).map fun i => BitVec.ofNat 32 (n >>> (32 * i))
  else [BitVec.ofNat 32 n]

/-- A key-store entry. -/
def islandKeyNum (op : Nat) (k : IKey) : Nat :=
  k.node.toNat + 2 ^ 15 + 2 ^ 16 * k.frame.toNat + 2 ^ 32 * k.round.toNat + 2 ^ 48 * k.seq.toNat + 2 ^ 64 * k.tag.toNat
    + 2 ^ 128 * islandPayload op k.payload

/-- The key of a key-store entry; `f` gives the opcode and the `.bip` flag of a record. -/
def islandKeyOf (f : Nat → Nat × Bool) (n : Nat) : Option IKey :=
  if bit n 15 then
    let node := n % 2 ^ 12
    some { node := BitVec.ofNat 12 node, tag := BitVec.ofNat 64 (n >>> 64), frame := BitVec.ofNat 10 (n >>> 16),
           round := BitVec.ofNat 12 (n >>> 32), seq := BitVec.ofNat 15 (n >>> 48),
           payload := islandWords (f node).1 (f node).2 (n >>> 128), exc := false, err := false }
  else none

/-- The 246 bytes of the frame pool: the map of allocated frames, then the free frames of each class (Table 12-19). -/
def poolFields (off common : Nat) (reserve : List Nat) (p : Pool) : List Field :=
  let free (lo n : Nat) : Nat := ((List.range n).filter fun i => !p.alloc.contains (lo + i)).length
  let step (acc : Nat × List Nat) (n : Nat) : Nat × List Nat := (acc.1 + n, acc.2 ++ [free acc.1 n])
  bitmap off p.alloc ++ table (off + 128) 2 ((common :: reserve).foldl step (0, [])).2

/-! ### Queues and records -/

/-- The two-bit record map (R74). -/
def markFields (off : Nat) (marks : SMap (BitVec 2)) : List Field :=
  ((marks.map fun p => p.1 / 4).eraseDups).map fun b =>
    (off + b, 1, ((marks.filter fun p => p.1 / 4 == b).map fun p => p.2.toNat * 4 ^ (p.1 % 4)).sum)

/-- The record map of an image. -/
def marksAt (b : Bytes) (off n : Nat) : SMap (BitVec 2) :=
  (List.range n).filterMap fun w =>
    let v := (b (off + w / 4)).toNat / 4 ^ (w % 4) % 4
    if v = 0 then none else some (w, BitVec.ofNat 2 v)

/-- The words of element memory that are not zero. -/
def elemAt (b : Bytes) (off n : Nat) : SMap W32 :=
  (List.range n).filterMap fun w =>
    let v := numAt b (off + 4 * w) 4
    if v = 0 then none else some (w, BitVec.ofNat 32 v)

/-- The page of an origin: of a token that came in through a gateway it tells whether an ALLOW credit of the region's own is spent on it
(log entry 12). -/
def originPage (u : UnitId) : Nat := if u.pos = 7 then (if u.page = 4095 then 2 ^ 16 - 1 else 0) else u.page

/-- The origin that such a page and a position name, of region `rid`. -/
def originAt (rid page pos : Nat) : UnitId := if pos = 7 then ⟨if page = 2 ^ 16 - 1 then 4095 else rid, 7⟩ else ⟨page, pos⟩

/-- The origin of a queued token (Table 12-8, R400): page, position, route. A token that came in through a gateway has
position 7 and its capability entry (log entry 12). -/
def originNum (t : QTok) : Nat := originPage t.org + 2 ^ 16 * t.org.pos + 2 ^ 24 * (t.route % 2 ^ 8)

/-- The queued tokens of an image's queue. Serials count from `sid`, the same for all copies of a token of one origin. -/
def queueAt (rid : Nat) (b : Bytes) (off orgs count : Nat) : List QTok :=
  (List.range (min 8 count)).map fun i =>
    let o := numAt b (orgs + 4 * i) 4
    let pos := bits o 23 16
    { tok := tokenOf (numAt b (off + 48 * i) 48), org := originAt rid (o % 2 ^ 16) pos, route := o / 2 ^ 24, sid := 0 }

/-- The header of a section (R397). -/
def sectionHeader (type page pos len count : Nat) : List Field := [(0, 4, type), (4, 2, page), (6, 1, pos), (8, 8, len), (16, 4, count)]

/-- The sizes of the sections (Table 12-8). -/
def sectionLen (type : Nat) : Nat :=
  match type with
  | 1 => 0x15000 | 2 => 0x7A000 | 3 => 0x2000 | 4 => 0xD2000 | _ => 0xD5000

/-- What every unit's section holds: credits, counts, queues and their origins, record map, element memory. -/
def unitFields (U : Site) (org : Nat) : List Field :=
  let elemOff := 0x1000
  (List.range (min 4 U.queues.length)).flatMap (fun q =>
      let l := nth [] U.queues q
      table (0x100 + 0x180 * q) 48 ((l.take 8).map fun t => tokenNum t.tok) ++ table (org + 0x20 * q) 4 ((l.take 8).map originNum))
    ++ markFields 0xC00 U.marks ++ U.elem.map fun p => (elemOff + 4 * p.1, 4, p.2.toNat)

end Sys2Proof.Machine
end

