-- ==== Sys2Proof/Machine/ImageOut.lean ====
section
/-! DEFINITION. The context image of a region as bytes (R383, R395 to R400, R472, R473): the header, the sections of pages and
islands, and the four sections at the end. -/

namespace Sys2Proof.Machine

/-! ### Records of the header -/

/-- The code of a cause (Table 12-6). -/
def causeCode (c : Cause) : Nat := c.ctorIdx + 1

/-- The 256 bits of a fault record (Table 12-5), with V. -/
def faultNum (f : FaultRec) : Nat :=
  f.detail.toNat + 2 ^ 128 + 2 ^ 129 * b2n f.vaf + 2 ^ 130 * causeCode f.cause + 2 ^ 138 * (f.pos % 8) + 2 ^ 141 * (f.page % 2 ^ 12)
    + 2 ^ 153 * f.seq.toNat + 2 ^ 168 * f.round.toNat + 2 ^ 180 * f.node.toNat + 2 ^ 192 * f.tag.toNat

/-- An entry of the exception log (Table 3-9). -/
def xentryNum (e : XEntry) : Nat :=
  2 ^ 11 * e.seq.toNat + 2 ^ 26 * (e.pos % 4) + 2 ^ 28 * (e.page % 2 ^ 12) + 2 ^ 40 * e.round.toNat + 2 ^ 52 * e.node.toNat
    + 2 ^ 64 * e.tag.toNat

/-- The exception log: header, then entries. -/
def xlogFields (off : Nat) (x : XLog) : List Field :=
  (off, 8, x.entries.length + 2 ^ 32 * x.lost.toNat) :: table (off + 8) 16 (x.entries.map xentryNum)

/-- CONF as the image gives it (Table 12-7). -/
def roundOrNone (c : Option (BitVec 12)) : Nat := match c with | some r => r.toNat | none => 0xFFFF

/-- The width table as one number (Table 12-7). -/
def widthNum (tw : List Nat) : Nat := ((List.range 58).map fun d => 2 ^ (6 * d) * (nth 0 tw d % 64)).sum

/-- A region's configuration as its image gives it: a capability entry with the rewrite that waits for its credits (R411, R412). -/
def Region.imageConfig (R : Region) : Config :=
  { R.cfg with caps := R.capUses.foldl (fun m u => match u.pending with | some v => mapPut m u.idx v | none => m) R.cfg.caps }

/-- The configuration items of a header (Table 12-7). -/
def configFields (c : Config) : List Field :=
  [(0x1D, 1, c.bk.toNat), (0x1E, 2, c.carve), (0x20, 8, c.rt), (0x28, 8, c.ovf), (0x36, 2, c.live), (0x38, 4, c.words), (0x3C, 4, c.egress),
    (0x40, 4, c.seq), (0x44, 44, widthNum c.tw), (0x80, 2, c.common)] ++ table 0x82 2 c.reserve
    ++ table 0x600 8 (c.chains.map (·.toNat)) ++ (c.caps.map fun p => (0x800 + 8 * p.1, 8, p.2.toNat))
    ++ c.ingress.map fun p => (0x1000 + 4 * p.1, 4, p.2.toNat)

/-- The header of a region's image (R396). -/
def Region.header (R : Region) (total : Nat) : List Field :=
  [(0, 8, 0x3130474D495A5249), (8, 4, 1), (12, 4, 1), (16, 8, total), (0x18, 2, R.w), (0x1A, 2, R.h),
    (0x1C, 1, R.prio), (0x30, 2, roundOrNone R.conf), (0x32, 2, R.openRound.toNat), (0x34, 2, R.x0 + 2 ^ 8 * R.y0),
    (0x100, 32, (R.fault.map faultNum).getD 0), (0x120, 8, R.rolls)]
    ++ xlogFields 0x140 R.xlog ++ configFields R.imageConfig

/-! ### Sections of units (Table 12-8) -/

/-- A section: its length and what it holds. -/
abbrev Section := Nat × List Field

/-- The page-local position that names a section (R397). -/
def sectionPos (U : Site) : Nat := if U.id.pos ≤ 3 then U.id.pos else attachPos U

/-- The TYPE of a unit's section. -/
def sectionType (U : Site) : Nat := match U.id.pos with | 3 => 2 | 4 => 3 | 5 => 4 | 6 => 5 | _ => 1

/-- Waiting tokens of a route that have a credit reserved. -/
def Site.paidOn (U : Site) (r : Nat) : Nat := (U.outq.filter fun o => o.route == r && o.paid).length

/-- The unit's credits as the image gives them (R400): those that it has had in advance stand for credits reserved for waiting tokens,
or else are taken off. -/
def Site.imageCredits (U : Site) : List Nat :=
  (List.range 4).map fun r => nth 0 U.credits r - (nth 0 U.owed r - U.paidOn r)

/-- The waiting tokens of a unit, in order, those that have no credit told: the last of a route where credits of it are owed. -/
def Site.waitingOuts (U : Site) : List Out :=
  let unpaid (o : Out) (later : List Out) : Bool := (later.filter fun p => p.route == o.route && p.paid).length < nth 0 U.owed o.route
  (List.range U.outq.length).filterMap fun i => (U.outq[i]?).map fun o =>
    if o.paid && unpaid o (U.outq.drop (i + 1)) then { o with paid := false } else o

/-- Slots of the frame store. -/
def slotFieldsAt (off n : Nat) (slots : SMap Slot) : List Field :=
  (slots.filter fun p => p.1 < n).map fun p => (off + 64 * p.1, 64, slotNum p.2)

/-- What a cell's or an MU's section begins with. -/
def siteFields (U : Site) : List Field :=
  table 0x40 4 (U.switch.map (·.toNat)) ++ table 0x80 1 U.imageCredits ++ [(0x84, 1, U.rot), (0x98, 2, U.stride)]
    ++ table 0x88 1 (U.queues.map fun q => min 8 q.length) ++ unitFields U 0x700

/-- The slots that a site keeps outside its frame store, as fields of its page's slice (R71): those of the carve-out. -/
def Region.carveFields (R : Region) (page : Nat) : List Field :=
  [0, 1, 2, 3].flatMap fun pos => match R.unit? ⟨page, pos⟩ with
    | none => []
    | some U =>
      let n := if pos = 3 then 256 else 1024
      (U.slots.filter fun p => n ≤ p.1 && p.1 < n + R.cfg.carve).map fun p =>
        (R.carveBase + pos * R.cfg.carve * 64 + (p.1 - n) * 64, 64, slotNum p.2)

/-- What an MU's section holds beyond that. -/
def Region.muFields (R : Region) (page : Nat) (U : Site) (m : Mu) : List Field :=
  let undo := m.undo.flatMap undoNums
  let done := m.accs.filter fun a => !a.open
  [(0x8C, 2, undo.length), (0x90, 2, m.dedup.length), (0x92, 2, done.length)] ++ slotFieldsAt 0x2000 256 U.slots
    ++ table 0x6000 16 (m.waves.map waveNum)
    ++ table 0x6800 16 (m.ords.map fun p => p.1 + 2 ^ 16 + 2 ^ 32 * (p.2 % 2 ^ 31))
    ++ table 0x6C00 16 (done.map performedNum) ++ bitmap 0x7000 m.fe ++ table 0x9000 8 undo ++ table 0x19000 32 (m.dedup.map dedupNum)
    ++ (if page = 0 then poolFields 0x39000 R.cfg.common R.cfg.reserve m.pool else [])
    ++ ((m.sram.filter fun c => decide (c.1 < R.carveBase)).map fun c => (0x3A000 + c.1, 1, c.2.toNat)) ++ shift 0x3A000 (R.carveFields page)

/-- Triggers that cancelled operations gave back stand at the head of an island's queue, in no slot of it: those that RGN.DRAIN put
there, and in any case what a queue of eight does not hold (R267, R295). -/
def Site.excess (U : Site) (q : Nat) : Nat :=
  let l := nth [] U.queues q
  max (l.length - 8) (match U.str? with | some x => min x.given l.length | none => 0)

/-- What every island's section begins with. -/
def islandFields (U : Site) (origins : Nat) : List Field :=
  table 0x40 1 U.imageCredits ++ (0x44, 1, min 8 (nth [] U.queues 0).length) :: unitFields { U with queues := U.queues.take 1 } origins

/-- One accumulator: its words and EXC bits. -/
def accFields (off exc : Nat) (A : Acc) : List Field := (A.c.map fun p => (off + 4 * p.1, 4, p.2.toNat)) ++ bitmap exc A.exc

/-- A waiting descriptor's place in a matching store. -/
def mitemFields (off ports : Nat) (xs : List MItem) : List Field :=
  xs.map fun i => (off + 48 * (ports * i.group + i.port), 48, tokenNum i.tok)

/-- The copies of an accumulator, at most two (R312). -/
def Mxi.copiesOf (x : Mxi) (a : Nat) : List (BitVec 12 × Acc) := (x.copies.filter fun c => c.1 == a).map (·.2)

/-- What an MXI's section holds beyond that. -/
def mxiFields (U : Site) (x : Mxi) : List Field :=
  let op (node : BitVec 12) : Nat := (U.recAt node.toNat).1
  table 0x48 1 (x.accs.map fun a => b2n a.i32)
    ++ ([0, 1, 2, 3].flatMap fun a =>
      let cs := x.copiesOf a
      (List.range cs.length).flatMap fun s =>
        let c := nth default cs s
        (0x50 + 4 * (2 * a + s), 4, 2 ^ 31 + 2 ^ 16 * b2n c.2.i32 + c.1.toNat)
          :: accFields (0x4A000 + 0x11000 * (2 * a + s)) (0x4A000 + 0x11000 * (2 * a + s) + 0x10000) c.2)
    ++ (List.range 4).flatMap (fun i => table (0x400 + 32 * i) 2 ((nth [] x.books i).map (·.toNat)))
    ++ (List.range x.bookUndo.length).flatMap (fun i =>
      let b := nth (0, 0#12, []) x.bookUndo i
      table (0x480 + 48 * i) 2 (b.2.2.map (·.toNat)) ++ [(0x480 + 48 * i + 32, 1, b.1), (0x480 + 48 * i + 34, 2, 2 ^ 15 + b.2.1.toNat)])
    ++ table 0x2000 32 (x.keys.map fun k => islandKeyNum (op k.node) k) ++ mitemFields 0x4000 4 x.store
    ++ (List.range 4).flatMap fun a => accFields (0x8000 + 0x10000 * a) (0x48000 + 0x800 * a) (nth default x.accs a)

/-- Register metadata (Table 12-8). -/
def sregMeta (g : SReg) : Nat :=
  g.lc.toNat + 2 ^ 16 * g.lm.toNat + 2 ^ 32 * (g.rnd.getD 0#12).toNat + 2 ^ 44 * b2n g.rnd.isSome

/-- What an SBE's section holds beyond that. -/
def sbeFields (U : Site) (x : Sbe) : List Field :=
  let op (node : BitVec 12) : Nat := (U.recAt node.toNat).1
  (0x48, 2, x.copies.length) :: mitemFields 0x400 2 x.store ++ table 0x2000 32 (x.keys.map fun k => islandKeyNum (op k.node) k)
    ++ x.regs.flatMap (fun p => [(0x4000 + 8 * p.1, 8, sregMeta p.2), (0x5000 + 512 * p.1, 512, p.2.b.toNat)])
    ++ (List.range x.copies.length).flatMap fun k =>
      let c := nth (0, 0#12, default) x.copies k
      let g := c.2.2
      [(0x45000 + 576 * k, 8, c.1 % 2 ^ 9 + 2 ^ 9 * g.lc.toNat + 2 ^ 11 * g.lm.toNat + 2 ^ 27 * c.2.1.toNat + 2 ^ 39 * (g.rnd.getD 0#12).toNat
        + 2 ^ 51 * b2n g.rnd.isSome), (0x45000 + 576 * k + 8, 512, g.b.toNat)]

/-- The section of a unit. -/
def Region.unitSection (R : Region) (U : Site) : Section :=
  let t := sectionType U
  let body := match U.eng with
    | .cell => siteFields U ++ slotFieldsAt 0x5000 1024 U.slots
    | .mu m => siteFields U ++ R.muFields U.id.page U m
    | .str _ =>
      let n := U.excess 0
      let l := nth [] U.queues 0
      islandFields { U with queues := [l.drop n] } 0x300 ++ table 0x400 48 ((l.take n).map fun t => tokenNum t.tok)
    | .mxi x => islandFields U 0x300 ++ mxiFields U x
    | .sbe x => islandFields U 0x300 ++ sbeFields U x
  (sectionLen t, sectionHeader t U.id.page (sectionPos U) (sectionLen t) 0 ++ body)

/-! ### In flight (R399) -/

/-- An in-flight entry: END is 0 for every end of the circuit. -/
structure InFlight where
  tok   : Token
  page  : Nat
  pos   : Nat
  route : Nat
  way   : Nat
  fin   : Nat
  deriving DecidableEq, Repr, Inhabited

/-- Its 64 bytes. -/
def inFlightNum (e : InFlight) : Nat :=
  tokenNum e.tok + 2 ^ 384 * (e.page % 2 ^ 16) + 2 ^ 400 * e.pos + 2 ^ 408 * (e.route % 2 ^ 8) + 2 ^ 416 * e.way + 2 ^ 424 * e.fin

/-- END for the single end at a page and position. -/
def oneEnd (page pos : Nat) : Nat := 2 ^ 15 + page % 2 ^ 12 + 2 ^ 12 * pos

/-- The page and position of an end. -/
def Region.endPlace (R : Region) (org : UnitId) : End → Nat × Nat
  | .queue u _ => (u.page, u.pos)
  | .island u => (u.page, ((R.unit? u).map attachPos).getD 0)
  | .cfu => (org.page, org.pos)
  | .gateway page pos _ => (page, pos)

/-- The entries of a token in flight. -/
def Region.flightEntries (R : Region) (f : Flight) : List InFlight :=
  let e (t : Token) (way fin : Nat) : InFlight := { tok := t, page := originPage f.org, pos := f.org.pos, route := f.route, way := way, fin := fin }
  match f.loc with
  | .at page pos inp cin =>
    let left := R.endsFrom (64 * R.pages + 1) page pos inp cin
    let all := ((R.unit? f.org).map fun U => R.ends U f.route).getD []
    if left = all then [e f.tok 0 0]
    else left.filterMap fun x => x.map fun y => let (p, q) := R.endPlace f.org y.1; e f.tok 0 (oneEnd p q)
  | .gateway page pos _ => [e f.tok 3 (oneEnd page pos)]
  | .ingress eport => [{ e f.tok 3 (oneEnd eport 0) with route := f.route - 16 }]
  | .cfuRequest => [e f.tok 1 0]
  | .cfuReply _ => (cfuReplies f).map fun x => e x.tok 2 0

/-- Words in entries of eight, of one origin position. -/
def wordEntries (pos : Nat) (ws : List W32) : List InFlight :=
  (List.range (ceilDiv ws.length 8)).map fun i =>
    let l : Nat := min 8 (ws.length - 8 * i) - 1
    { tok := { emptyToken with len := BitVec.ofNat 3 l, fmt := .n32, e := clearAbove l (ws.drop (8 * i)) }, page := 0, pos := pos, route := 0,
      way := 3, fin := 0 }

/-- The in-flight entries of an item that a link gateway holds for an unconfirmed round (R56, R399: WHERE = 3; log entry 84). A
token has origin POS 8 and its capability entry as the page. An item of a link record has origin POS 9 at the record's unit and the
trigger that forms it, and behind it entries of POS 10 with its words, eight in each. -/
def Send.entries (x : Send) : List InFlight :=
  let u : UnitId := x.site
  let fin := oneEnd u.page (u.pos % 4)
  let t (e : List Nat) : Token :=
    { (x.report.map (·.2.2)).getD emptyToken with
      tag := x.key.tag, frame := x.key.frame, round := x.round, seq := x.key.seq, node := x.node, len := 3#3, fmt := .n32,
      e := clearAbove 3 (e.map (BitVec.ofNat 32)) }
  let item (e : List Nat) (ws : List W32) : List InFlight :=
    { tok := t e, page := u.page, pos := 9, route := 0, way := 3, fin := fin }
      :: wordEntries 10 ws
  match x.pkt.body with
  | .token tok => [{ tok := tok, page := x.pkt.cap, pos := 8, route := 0, way := 3, fin := fin }]
  | .message ws n mtag => item [0, n, mtag.toNat, 0] ws
  | .post va ws => item [0, 4 * ws.length, va, va / 2 ^ 32] ws
  | .contribution _ inst _ _ ws _ => item [0, x.raddr, ws.length, inst] ws
  | _ => []

/-- An item that the receiver has acknowledged and whose report is still to come (R426): the entry that forms it again, with route 1,
and its number. -/
def Send.awaiting (x : Send) : List InFlight :=
  match x.entries with
  | [] => []
  | e :: _ =>
    [{ e with route := 1 },
      { e with pos := 10, tok := { emptyToken with fmt := .n32, len := 1#3, e := clearAbove 1 [BitVec.ofNat 32 x.pkt.id, BitVec.ofNat 32 (x.pkt.id / 2 ^ 32)] } }]

/-- The egress of open rounds that link gateways hold, items and calls, and the items whose reports are to come (R56, R422). -/
def Region.egress (R : Region) : List InFlight :=
  (R.sends.filter fun x => x.st == .held).flatMap Send.entries ++ (R.sends.filter fun x => x.st == .acked).flatMap Send.awaiting
    ++ (R.calls.filter fun c => c.st == .unconfirmed).map fun c =>
      { tok := c.tok, page := c.unit.page, pos := 9, route := 0, way := 3, fin := oneEnd c.unit.page (c.unit.pos % 4) }

/-- The in-flight entries of an item that the receiving gateway keeps (R421, R422; log entry 84): origin POS 12 has its token, POS 13
what else it has, POS 14 its words. -/
def Item.entries (i : Item) : List InFlight :=
  let (kind, ws, a, b) : Nat × List W32 × Nat × Nat := match i.pkt.map (fun p : Packet => p.body) with
    | some (.token _) => (1, [], 0, 0)
    | some (.message ws n mtag) => (2, ws, n, mtag.toNat)
    | some (.post va ws) => (3, ws, va, va / 2 ^ 32)
    | _ => (0, i.words, 0, 0)
  let p : Packet := i.pkt.getD default
  let (u, d) : UnitId × BitVec 16 := i.dest.getD (default, noDest)
  let flags := kind + 4 * b2n i.onWay + 8 * b2n i.global + 16 * b2n i.stamped.isSome + 32 * b2n i.dest.isSome
  let info : List Nat := [i.addr, i.addr / 2 ^ 32, (i.stamped.getD 0#12).toNat + 2 ^ 16 * d.toNat, p.srcDev, p.srcRid + 2 ^ 16 * p.dstRid,
    p.eport % 2 ^ 8 + 2 ^ 8 * (p.cap % 2 ^ 8) + 2 ^ 16 * p.part.toNat, a, b]
  let fin := oneEnd u.page (u.pos % 4)
  [{ tok := i.tok, page := u.page, pos := 12, route := flags, way := 3, fin := fin },
    { tok := { emptyToken with tag := BitVec.ofNat 64 i.id, len := 7#3, fmt := .n32, e := info.map (BitVec.ofNat 32) }, page := u.page, pos := 13,
      route := 0, way := 3, fin := fin }] ++ wordEntries 14 ws

/-- The rounds of the contexts of an MU's chains, which the wave table of an image does not give, and the contexts of loops that have
ended (R219; log entry 33): origin POS 11, with the chain as NODE, on port 0 or 1. -/
def Mu.contexts (m : Mu) (page : Nat) : List InFlight :=
  let e (chain port : Nat) (tag : W64) (frame : BitVec 10) (round : BitVec 12) : InFlight :=
    { tok := { emptyToken with tag := tag, frame := frame, round := round, node := BitVec.ofNat 12 chain, port := BitVec.ofNat 2 port },
      page := page, pos := 11, route := 0, way := 3, fin := oneEnd page 3 }
  (m.waves.map fun w => e w.chain 0 w.tag w.frame w.round) ++ m.iters.map fun d => e d.chain 1 d.tag 0#10 d.round

/-- Every in-flight entry of a region (R399, R405, R432): tokens that a queue of eight does not hold, the triggers of posted
buffers, tokens on circuits, result tokens that have not left, one without a credit with END 1 (R400; log entry 84), responses held at the
CC, what link gateways hold, and the contexts of chains. -/
def Region.inFlight (R : Region) : List InFlight :=
  let queued (u : UnitId) (t : QTok) : InFlight :=
    { tok := t.tok, page := originPage t.org, pos := t.org.pos, route := if t.org.pos = 7 then t.route - 16 else t.route, way := 0,
      fin := oneEnd u.page u.pos }
  let spill := R.units.flatMap fun U => if U.id.pos = 4 then [] else U.queues.flatMap fun q => (q.drop 8).map (queued U.id)
  let posted := R.buffers.map fun b => { queued b.unit b.trig with way := 3 }
  let waiting := R.units.flatMap fun U => U.waitingOuts.map fun o =>
    ({ tok := o.tok, page := U.id.page, pos := U.id.pos, route := o.route, way := 0, fin := b2n !o.paid } : InFlight)
  let contexts := (List.range R.pages).flatMap fun p => match R.mu? p with | some m => m.contexts p | none => []
  let answers := (R.responses.filter fun c => c.st != .delivered).filterMap fun c => c.resp.map fun x =>
    ({ tok := aim { c.tok with act := .normal, kind := .data, err := false, len := x.1, fmt := x.2.1, exc := x.2.2.1, e := x.2.2.2 } c.dest,
       page := c.unit.page, pos := c.unit.pos, route := dRoute c.dest, way := 4, fin := 0 } : InFlight)
  spill ++ posted ++ R.flights.flatMap R.flightEntries ++ waiting ++ answers ++ R.egress ++ R.items.flatMap Item.entries ++ contexts

/-! ### Held egress, held log, markers -/

/-- The 128 bytes of a held-egress entry. -/
def heldNum (h : Held) : Nat :=
  let (op, ord) : Nat × Nat := match h.op with
    | .write => (0, 0)
    | .red opx f o => (0x80 + 16 * opx + f.code, if f = .f32 then o.toNat else 0)
  h.va + 2 ^ 64 * op + 2 ^ 72 * b2n h.rel + 2 ^ 80 * h.mask.toNat + 2 ^ 96 * h.key.round.toNat + 2 ^ 128 * keyNum h.key
    + 2 ^ 384 * fromWords h.data + 2 ^ 896 * ord

/-- The 16 bytes of a marker-state entry (Table 12-20). -/
def markerNum (m : MarkerSt) : Nat :=
  m.unit.page + 2 ^ 16 * m.unit.pos + 2 ^ 24 * m.kind + 2 ^ 32 * (m.node % 2 ^ 16) + 2 ^ 48 * m.port + 2 ^ 64 * m.round.toNat
    + 2 ^ 80 * (m.count % 2 ^ 16)

/-- A section of entries of one size (TYPE 6 to 9). -/
def listSection (type size : Nat) (vs : List Nat) : Section :=
  let len := 4096 * ceilDiv (64 + size * vs.length) 4096
  (len, sectionHeader type 0 0 len vs.length ++ table 64 size vs)

/-! ### The whole image -/

/-- The region as its image gives it: a token on which another region's ALLOW credit is spent names no region, since that credit is back
with its owner when the image comes to be restored (R82, R386, R401). -/
def Region.imaged (R : Region) : Region :=
  let org (u : UnitId) : UnitId := if u.pos = 7 && u.page != R.rid then ⟨4095, 7⟩ else u
  let queued (t : QTok) : QTok := { t with org := org t.org }
  { R with
    units := R.units.map fun U => { U with queues := U.queues.map fun q => q.map queued }
    flights := R.flights.map fun f => { f with org := org f.org }
    buffers := R.buffers.map fun b => { b with trig := queued b.trig } }

/-- Every section, in the order of R395. -/
def Region.sections (whole : Region) : List Section :=
  let R := whole.imaged
  let pages := (List.range R.pages).flatMap fun p => [0, 1, 2, 3].filterMap fun pos => (R.unit? ⟨p, pos⟩).map R.unitSection
  let kind (k : Nat) := (List.range R.pages).flatMap fun p => (R.units.filter fun U => U.id == ⟨p, k⟩).map R.unitSection
  pages ++ kind 5 ++ kind 4 ++ kind 6
    ++ [listSection 6 64 (R.inFlight.map inFlightNum), listSection 7 128 (R.held.map heldNum), listSection 8 16 (R.heldLog.map xentryNum),
        listSection 9 16 (R.markers.map markerNum)]

/-- Sections laid out one after another. -/
def layOut : Nat → List Section → List Field
  | _, [] => []
  | off, (n, fs) :: t => shift off fs ++ layOut (off + n) t

/-- The bytes of the image (IMGSZ, in units of 4 KiB, is this over 4,096). -/
def Region.imageLen (R : Region) : Nat := 0x2000 + (R.sections.map (·.1)).sum

/-- The context image of a region: its length and its bytes. -/
def Region.image (R : Region) : List Byte :=
  let n := R.imageLen
  fieldBytes n (R.header n ++ layOut 0x2000 R.sections)

end Sys2Proof.Machine
end

