-- ==== Sys2Proof/Machine/ImageIn.lean ====
section
/-! DEFINITION. What the bytes of an image stand for (R379, R384, R395 to R400, R472, R473): its header, its sections, and the
region they configure or restore. -/

namespace Sys2Proof.Machine

/-! ### The header and the sections -/

/-- The value of MAGIC (Table 12-7). -/
def imageMagic : Nat := 0x3130474D495A5249

/-- A section found in an image: its TYPE, PAGE and POS, where it lies, its LENGTH and COUNT. -/
structure Sect where
  type  : Nat
  page  : Nat
  pos   : Nat
  off   : Nat
  len   : Nat
  count : Nat
  deriving DecidableEq, Repr, Inhabited

/-- The section whose header lies at an offset (R397). -/
def sectAt (b : Bytes) (off : Nat) : Sect where
  type := numAt b off 4
  page := numAt b (off + 4) 2
  pos := numAt b (off + 6) 1
  off := off
  len := numAt b (off + 8) 8
  count := numAt b (off + 16) 4

/-- W of an image, in pages. -/
def imageW (b : Bytes) : Nat := numAt b 0x18 2
/-- H of an image. -/
def imageH (b : Bytes) : Nat := numAt b 0x1A 2

/-- The sections of sites, page by page. -/
def siteSects (b : Bytes) : List Sect :=
  (List.range (imageW b * imageH b)).flatMap fun p =>
    [0, 1, 2, 3].map fun q => sectAt b (0x2000 + 0xB9000 * p + 0x15000 * q)

/-- The sections of islands from an offset on, and where they end. -/
def islandSects (b : Bytes) : Nat → Nat → List Sect × Nat
  | 0, off => ([], off)
  | n + 1, off =>
    let x := sectAt b off
    if x.type = 3 || x.type = 4 || x.type = 5 then
      let (xs, fin) := islandSects b n (off + sectionLen x.type)
      (x :: xs, fin)
    else ([], off)

/-- The four sections at the end. -/
def tailSects (b : Bytes) (off : Nat) : List Sect :=
  let a := sectAt b off
  let c := sectAt b (off + a.len)
  let d := sectAt b (off + a.len + c.len)
  [a, c, d, sectAt b (off + a.len + c.len + d.len)]

/-- The islands of an image. -/
def imageIslands (b : Bytes) : List Sect × Nat :=
  let n := imageW b * imageH b
  islandSects b (3 * n) (0x2000 + 0xB9000 * n)

/-- The rank of an island's section in the order of R395. -/
def islandRank (x : Sect) : Nat := (match x.type with | 4 => 0 | 3 => 1 | _ => 2) * 2 ^ 16 + x.page

/-- The header is good (R379 step 1): MAGIC, VERSION, KIND and TOTAL, with every section where R395 puts it. -/
def imageOk (b : Bytes) (kind : Nat) : Bool :=
  let sites := siteSects b
  let (isl, off) := imageIslands b
  let tail := tailSects b off
  let ranks := isl.map islandRank
  numAt b 0 8 == imageMagic && numAt b 8 4 == 1 && numAt b 12 4 == kind
    && ((List.range sites.length).all fun i =>
      let x := nth default sites i
      x.type == (if i % 4 = 3 then 2 else 1) && x.page == i / 4 && x.pos == i % 4 && x.len == sectionLen x.type)
    && (isl.all fun x => x.len == sectionLen x.type
      && (if x.type = 4 then x.pos == 1 || x.pos == 3 else x.pos == 0 || x.pos == 1))
    && ((List.range ranks.length).all fun i => i == 0 || decide (nth 0 ranks (i - 1) < nth 0 ranks i))
    && ((List.range 4).all fun i =>
      let x := nth default tail i
      let size := if i = 0 then 64 else if i = 1 then 128 else 16
      x.type == 6 + i && x.len % 4096 == 0 && decide (64 + size * x.count ≤ x.len))
    && numAt b 16 8 == off + (tail.map (·.len)).sum

/-! ### The configuration (Table 12-7) -/

/-- The configuration of a header. -/
def configOf (b : Bytes) : Config where
  bk := BitVec.ofNat 4 (numAt b 0x1D 1)
  carve := numAt b 0x1E 2
  rt := numAt b 0x20 8
  ovf := numAt b 0x28 8
  live := numAt b 0x36 2
  words := numAt b 0x38 4
  egress := numAt b 0x3C 4
  seq := numAt b 0x40 4
  tw := (List.range 58).map fun d => numAt b 0x44 44 >>> (6 * d) % 64
  common := numAt b 0x80 2
  reserve := (List.range 58).map fun d => numAt b (0x82 + 2 * d) 2
  chains := (List.range 64).map fun c => BitVec.ofNat 64 (numAt b (0x600 + 8 * c) 8)
  caps := (List.range 256).filterMap fun i =>
    let v := numAt b (0x800 + 8 * i) 8
    if v = 0 then none else some (i, BitVec.ofNat 64 v)
  ingress := (List.range 256).filterMap fun i =>
    let v := numAt b (0x1000 + 4 * i) 4
    if v = 0 then none else some (i, BitVec.ofNat 32 v)

/-- The cause of a code (Table 12-6). -/
def causeOf (n : Nat) : Cause :=
  nth .securityAlarm
    [.operandCollision, .packetLengthMismatch, .tagLayout, .tagOverflow, .frameState, .roundCount, .recordError, .permission,
      .invalidCapability, .badDestination, .addressRange, .alignment, .ordinal, .pageTable, .physicalAddress, .streamSize, .roundBound,
      .pageAbsent, .operandBand, .accumulatorMode, .accumulatorRound, .operandError, .streamCorrelation, .streamLength, .registerRange,
      .registerRound, .registerError, .stateLost, .errorRepeat, .redundancyMismatch, .securityAlarm] (n - 1)

/-- The fault record of 256 bits, where V is set. -/
def faultOf (n : Nat) : Option FaultRec :=
  if bit n 128 then
    some { tag := BitVec.ofNat 64 (n >>> 192), node := BitVec.ofNat 12 (n >>> 180), round := BitVec.ofNat 12 (n >>> 168),
           seq := BitVec.ofNat 15 (n >>> 153), page := bits n 152 141, pos := bits n 140 138, cause := causeOf (bits n 137 130),
           vaf := bit n 129, detail := BitVec.ofNat 128 n }
  else none

/-- An entry of the exception log. -/
def xentryOf (n : Nat) : XEntry where
  tag := BitVec.ofNat 64 (n >>> 64)
  node := BitVec.ofNat 12 (n >>> 52)
  round := BitVec.ofNat 12 (n >>> 40)
  page := bits n 39 28
  pos := bits n 27 26
  seq := BitVec.ofNat 15 (n >>> 11)

/-- The exception log at an offset. -/
def xlogOf (b : Bytes) (off : Nat) : XLog :=
  let h := numAt b off 8
  { lost := BitVec.ofNat 32 (h >>> 32), entries := (List.range (min 64 (h % 128))).map fun i => xentryOf (numAt b (off + 8 + 16 * i) 16) }

/-! ### Units (Table 12-8) -/

/-- The triggers that cancelled operations of an STR gave back (Table 12-8): their slots are free already. -/
def givenAt (b : Bytes) (x : Sect) : List QTok :=
  if x.type ≠ 3 then []
  else (((List.range 8).map fun i => numAt b (x.off + 0x400 + 48 * i) 48).filter (· != 0)).map fun n =>
    { tok := tokenOf n, org := ⟨4095, 7⟩, route := 0, sid := 0 }

/-- A unit's configuration items, its credits and its queues. -/
def siteOf (rid : Nat) (b : Bytes) (x : Sect) : Site :=
  let o := x.off
  let cell := decide (x.type ≤ 2)
  let words := if x.type = 1 then 4096 else 1024
  let queues := if cell then (List.range 4).map fun q =>
      queueAt rid b (o + 0x100 + 0x180 * q) (o + 0x700 + 0x20 * q) (numAt b (o + 0x88 + q) 1)
    else
      let l := queueAt rid b (o + 0x100) (o + 0x300) (numAt b (o + 0x44) 1)
      [givenAt b x ++ l]
  { id := ⟨x.page, match x.type with | 3 => 4 | 4 => 5 | 5 => 6 | _ => x.pos⟩
    side := if x.type = 4 then (if x.pos = 1 then 0 else 1) else if cell then 0 else x.pos
    stride := if cell then numAt b (o + 0x98) 2 else 1
    queues := queues
    elem := elemAt b (o + 0x1000) words
    marks := marksAt b (o + 0xC00) words
    bad := []
    slots := []
    credits := (List.range 4).map fun r => numAt b (o + (if cell then 0x80 else 0x40) + r) 1
    owed := [0, 0, 0, 0]
    rot := if cell then numAt b (o + 0x84) 1 else 0
    nextTake := 0
    switch := if cell then (List.range 16).map fun i => BitVec.ofNat 32 (numAt b (o + 0x40 + 4 * i) 4) else []
    outq := []
    aluFree := 0
    nextSid := 1001
    eng := match x.type with
      | 2 => .mu default
      | 3 => .str { (default : Str) with given := (givenAt b x).length }
      | 4 => .mxi default
      | 5 => .sbe default
      | _ => .cell }

/-- The slots of a site: those of its frame store, of its carve bank and of the overflow area, which `ovf` reads. -/
def Region.slotsOf (R : Region) (b : Bytes) (x : Sect) (slice : Bytes) (ovf : Bytes) (U : Site) : SMap Slot :=
  let n := if x.type = 2 then 256 else 1024
  let base := x.off + (if x.type = 2 then 0x2000 else 0x5000)
  let cellNo := 4 * U.id.page + U.id.pos
  let numOf (i : Nat) : Nat :=
    if i < n then numAt b (base + 64 * i) 64
    else if i < n + R.cfg.carve then numAt slice (R.carveBase + U.id.pos * R.cfg.carve * 64 + (i - n) * 64) 64
    else numAt ovf ((cellNo * 2 ^ 18 + i) * 64) 64
  let total := max (n + R.cfg.carve) (1024 * U.stride)
  (List.range total).filterMap fun i => (slotOf (R.slotUse U i) (i / max 1 U.stride) (numOf i)).map fun s => (i, s)

/-- The record of a chain's wave at an MU. -/
def Site.waveRecord (U : Site) (chain own : Nat) : Nat × Nat × Rec :=
  ((U.recWords.map fun w => (w, U.recAt w)).find? fun p => decide (0xA0 ≤ p.2.1) && mrChain p.2.2 == chain && mrOwn p.2.2 == own).getD
    (0, 0, default)

/-- A performed access of an image (R235). -/
def performedOf (U : Site) (round : BitVec 12) (id n : Nat) : Option Access :=
  if !bit n 79 then none
  else
    let (w, op, r) := U.waveRecord (bits n 85 80) (bits n 121 112)
    let t : Token := { emptyToken with
      tag := BitVec.ofNat 64 n, frame := BitVec.ofNat 10 (n >>> 64), round := round, node := BitVec.ofNat 12 w }
    some { id := id, op := op, r := r, node := BitVec.ofNat 12 w, ops := [], queue := 0,
           last := { tok := t, org := U.id, route := 4, sid := 0 }, hdr := t,
           st := if bit n 90 then .cancelled else .performed, results := [], sent := true }

/-- The MU of a section. Its contexts and performed accesses bear the round after CONF until an entry in flight gives another (log
entry 33). -/
def Region.muOf (R : Region) (b : Bytes) (x : Sect) (U : Site) : Mu :=
  let o := x.off
  let round := nextRound R.conf
  let uses (pos i : Nat) : SlotUse := match R.unit? ⟨x.page, pos⟩ with
    | some V => R.slotUse V i
    | none => .operand 0
  let stride (pos : Nat) : Nat := ((R.unit? ⟨x.page, pos⟩).map Site.stride).getD 1
  let undoN := numAt b (o + 0x8C) 2
  { (default : Mu) with
    sram := (List.range (2 ^ 18)).filterMap fun i => let v := b (o + 0x3A000 + i); if v = 0#8 then none else some (i, v)
    fe := bitsAt b (o + 0x7000) 65536
    accs := (List.range (numAt b (o + 0x92) 2)).filterMap fun i => performedOf U round i (numAt b (o + 0x6C00 + 16 * i) 16)
    waves := (List.range 128).filterMap fun i => waveOf round (numAt b (o + 0x6000 + 16 * i) 16)
    iters := []
    ords := (List.range 32).filterMap fun i =>
      let n := numAt b (o + 0x6800 + 16 * i) 16
      if bit n 16 then some (n % 2 ^ 16, bits n 62 32) else none
    undo := undoOf uses stride undoN ((List.range undoN).map fun i => numAt b (o + 0x9000 + 8 * i) 8)
    dedup := (List.range 4096).filterMap fun i => Sys2Proof.Machine.dedupOf R.keyRid (numAt b (o + 0x19000 + 32 * i) 32)
    pool := { alloc := if x.page = 0 then bitsAt b (o + 0x39000) 1024 else [], waiting := [], granted := [] }
    nextId := 32 }

/-- An accumulator at two offsets. -/
def accOf (b : Bytes) (off exc : Nat) (i32 : Bool) : Acc where
  i32 := i32
  c := (List.range 16384).filterMap fun i => let v := numAt b (off + 4 * i) 4; if v = 0 then none else some (i, BitVec.ofNat 32 v)
  exc := bitsAt b exc 16384

/-- The descriptors of a matching store: a place of zeros is empty (log entry 13). -/
def mitemsOf (b : Bytes) (off groups ports : Nat) : List MItem :=
  (List.range (groups * ports)).filterMap fun i =>
    let n := numAt b (off + 48 * i) 48
    if n = 0 then none else some { group := i / ports, port := i % ports, tok := tokenOf n }

/-- A codebook at an offset. -/
def bookAt (b : Bytes) (off : Nat) : List (BitVec 16) := (List.range 16).map fun i => BitVec.ofNat 16 (numAt b (off + 2 * i) 2)

/-- The opcode and the `.bip` flag of an island's record. -/
def Site.keyShape (U : Site) (node : Nat) : Nat × Bool := ((U.recAt node).1, (U.recAt node).2.m)

/-- The MXI of a section; its quadrants stay gated, as the image gives no state of theirs (R297; log entry 85). -/
def mxiOf (b : Bytes) (o : Nat) (U : Site) : Mxi :=
  let copies := (List.range 8).filterMap fun i =>
    let l := numAt b (o + 0x50 + 4 * i) 4
    if bit l 31 then
      some (i / 2, BitVec.ofNat 12 l, accOf b (o + 0x4A000 + 0x11000 * i) (o + 0x4A000 + 0x11000 * i + 0x10000) (bit l 16))
    else none
  { (default : Mxi) with
    store := mitemsOf b (o + 0x4000) 64 4
    accs := (List.range 4).map fun a => accOf b (o + 0x8000 + 0x10000 * a) (o + 0x48000 + 0x800 * a) (numAt b (o + 0x48 + a) 1 == 1)
    copies := copies
    touched := copies.foldl (fun m c => match mapGet m c.1 with
      | some r => mapPut m c.1 (newerOf r c.2.1)
      | none => mapPut m c.1 c.2.1) []
    books := (List.range 4).map fun i => bookAt b (o + 0x400 + 32 * i)
    bookUndo := (List.range 16).filterMap fun i =>
      let n := numAt b (o + 0x480 + 48 * i + 34) 2
      if bit n 15 then some (numAt b (o + 0x480 + 48 * i + 32) 1, BitVec.ofNat 12 n, bookAt b (o + 0x480 + 48 * i)) else none
    keys := (List.range 256).filterMap fun i => islandKeyOf U.keyShape (numAt b (o + 0x2000 + 32 * i) 32) }

/-- The SBE of a section. -/
def sbeOf (b : Bytes) (o : Nat) (U : Site) : Sbe :=
  let reg (i : Nat) : SReg :=
    let n := numAt b (o + 0x4000 + 8 * i) 8
    { lc := BitVec.ofNat 2 n, b := BitVec.ofNat 4096 (numAt b (o + 0x5000 + 512 * i) 512), lm := BitVec.ofNat 16 (n >>> 16),
      rnd := if bit n 44 then some (BitVec.ofNat 12 (n >>> 32)) else none }
  { (default : Sbe) with
    regs := (List.range 512).filterMap fun i => let g := reg i; if g = SReg.reset then none else some (i, g)
    store := mitemsOf b (o + 0x400) 16 2
    copies := (List.range (min 1024 (numAt b (o + 0x48) 2))).map fun k =>
      let n := numAt b (o + 0x45000 + 576 * k) 8
      (n % 2 ^ 9, BitVec.ofNat 12 (n >>> 27),
        { lc := BitVec.ofNat 2 (n >>> 9), b := BitVec.ofNat 4096 (numAt b (o + 0x45000 + 576 * k + 8) 512),
          lm := BitVec.ofNat 16 (n >>> 11), rnd := if bit n 51 then some (BitVec.ofNat 12 (n >>> 39)) else none })
    keys := (List.range 256).filterMap fun i => islandKeyOf U.keyShape (numAt b (o + 0x2000 + 32 * i) 32) }

/-! ### In flight (R399, R400) -/

/-- An in-flight entry of 64 bytes. -/
def inFlightOf (n : Nat) : InFlight where
  tok := tokenOf n
  page := bits n 399 384
  pos := bits n 407 400
  route := bits n 415 408
  way := bits n 423 416
  fin := bits n 439 424

/-- The queue of a unit in which a circuit ends, or by which its record is reached. -/
def Region.endQueue (R : Region) (org : UnitId) (route : Nat) (u : UnitId) (node : Nat) : Nat :=
  let ends := ((R.unit? org).map fun U => R.ends U route).getD []
  (ends.findSome? fun e => match e with
    | some (.queue v q, _) => if v = u then some q else none
    | _ => none).getD (R.queueInto u node)

/-- The unit that an end names: the island attached there where the circuit ends in its channel. -/
def Region.endUnit (R : Region) (org : UnitId) (route page pos : Nat) : UnitId :=
  let ends := ((R.unit? org).map fun U => R.ends U route).getD []
  (ends.findSome? fun e => match e with
    | some (.island v, _) => if R.endPlace org (.island v) = (page, pos) then some v else none
    | _ => none).getD ⟨page, pos⟩

/-- The gateway of a circuit at a place. -/
def Region.endGateway (R : Region) (org : UnitId) (route page pos : Nat) : Option Nat :=
  (((R.unit? org).map fun U => R.ends U route).getD []).findSome? fun e => match e with
    | some (.gateway p q i, _) => if p = page && q = pos then some i else none
    | _ => none

/-- The CFU request that a token in the stream is (R255): computed where its record is a CFU record that it fires. -/
def Site.cfuRequest (U : Site) (t : Token) : Option (Nat × Fmt × List (BitVec 16)) :=
  match U.recOf t with
  | some (op, r) =>
    if cfuOp op && t.kind == .data && (t.act == .normal || t.act == .sticky) then
      some (op, r.fmt, (sendsOf r t t).map (·.1))
    else some (op, r.fmt, [])
  | none => some (0x90, .f32, [])

/-- The call or item of a link record that an entry of POS 9 gives (log entry 84). -/
def Region.deliverRecord (R : Region) (now : Nat) (u : UnitId) (t : Token) : Region :=
  let (op, r) := ((R.unit? u).map fun U => U.recAt t.node.toNat).getD (0, default)
  let hdr : Token := { t with len := 0#3, fmt := .n32, e := clearAbove 0 [] }
  let e (i : Nat) : Nat := (nth 0#32 t.e i).toNat
  let add (cap : Option Nat) (body : Body) (report : BitVec 16) (raddr : Nat) : Region :=
    { R with sends := R.sends ++ [R.itemOf R.dev 0 now u r hdr cap body report raddr] }
  match op with
  | 0xF0 => add (some (r.lit.toNat % 256)) (.message [] (e 1) (nth 0#32 t.e 2)) r.d1 0
  | 0xF2 => add (some (r.lit.toNat % 256)) (.post (e 2 + 2 ^ 32 * e 3) []) r.d1 0
  | 0xF3 => add none (.contribution (r.lit.toNat % 64) (e 3) (BitVec.ofNat 2 r.aux.toNat) r.fmt [] false) r.d0 (e 1)
  | 0xF4 =>
    let c : Call := { ticket := 0, strong := r.m, queue := r.aux.toNat % 4, tok := { t with act := .normal }, unit := u, dest := r.d0,
                      key := linkKey R u r t, raddr := 0, st := .unconfirmed, came := 0, kept := false, resp := none }
    { R with calls := R.calls ++ [c] }
  | _ => R

/-- The newest item sent, changed. -/
def Region.modLastSend (R : Region) (f : Send → Send) : Region :=
  match R.sends.reverse with
  | x :: t => { R with sends := (f x :: t).reverse }
  | [] => R

/-- The words of an entry of POS 10 added to the newest item of a link record, or the number of one whose report is to come (log
entry 84). -/
def Region.deliverWords (R : Region) (ws : List W32) : Region :=
  R.modLastSend fun x => if x.st = .acked then { x with pkt := { x.pkt with id := fromWords ws } } else match x.pkt.body with
    | .message old n m => { x with pkt := { x.pkt with body := .message (old ++ ws) n m } }
    | .post va old => { x with pkt := { x.pkt with body := .post va (old ++ ws) } }
    | .contribution t i op f old x' => { x with pkt := { x.pkt with body := .contribution t i op f (old ++ ws) x' } }
    | _ => x

/-- The item of entries of POS 12 and 13 (log entry 84), as far as the first gives it. -/
def itemOfEntry (e : InFlight) : Item where
  id := 0
  pins := []
  pkt := if e.route % 4 = 0 then none else some { (default : Packet) with body := match e.route % 4 with
    | 1 => .token e.tok
    | 2 => .message [] 0 0#32
    | _ => .post 0 [] }
  dest := if bit e.route 5 then some (⟨e.page, bits e.fin 13 12⟩, noDest) else none
  tok := e.tok
  global := bit e.route 3
  addr := 0
  words := []
  onWay := bit e.route 2
  stamped := if bit e.route 4 then some 0#12 else none

/-- The newest item kept, changed. -/
def Region.modLastItem (R : Region) (f : Item → Item) : Region :=
  match R.items.reverse with
  | x :: t => { R with items := (f x :: t).reverse }
  | [] => R

/-- The item with what its entry of POS 13 gives. -/
def Item.withInfo (i : Item) (self : Nat) (t : Token) : Item :=
  let e (k : Nat) : Nat := (nth 0#32 t.e k).toNat
  { i with
    id := t.tag.toNat
    addr := e 0 + 2 ^ 32 * e 1
    stamped := i.stamped.map fun _ => BitVec.ofNat 12 (e 2)
    dest := i.dest.map fun d => (d.1, BitVec.ofNat 16 (e 2 / 2 ^ 16))
    pkt := i.pkt.map fun p => { p with
      srcDev := e 3, srcRid := e 4 % 2 ^ 16, dstDev := self, dstRid := e 4 / 2 ^ 16, eport := e 5 % 2 ^ 8, cap := e 5 / 2 ^ 8 % 2 ^ 8,
      part := BitVec.ofNat 16 (e 5 / 2 ^ 16), id := t.tag.toNat, body := match p.body with
        | .message ws _ _ => .message ws (e 6) (nth 0#32 t.e 7)
        | .post _ ws => .post (e 6 + 2 ^ 32 * e 7) ws
        | b => b } }

/-- The item with words of an entry of POS 14; a message on its way to its MARK places those that its token counts. -/
def Item.withWords (i : Item) (ws : List W32) : Item :=
  match i.pkt.map (fun p : Packet => p.body) with
  | some (.message old n m) =>
    { i with pkt := i.pkt.map fun p => { p with body := .message (old ++ ws) n m },
             words := if i.onWay then (old ++ ws).take ((nth 0#32 i.tok.e 1).toNat / 4) else [] }
  | some (.post va old) => { i with pkt := i.pkt.map fun p => { p with body := .post va (old ++ ws) } }
  | _ => { i with words := i.words ++ ws }

/-- The context of an entry of POS 11 (log entry 33): the round of an open one and of its performed accesses, or a loop's ended one. -/
def Mu.withContext (m : Mu) (t : Token) : Mu :=
  let c := t.node.toNat
  if t.port = 1#2 then { m with iters := m.iters ++ [{ chain := c, tag := t.tag, round := t.round }] }
  else { m with
    waves := m.waves.map fun w => if w.chain = c && w.tag = t.tag && w.frame = t.frame then { w with round := t.round } else w
    accs := m.accs.map fun a =>
      if mrChain a.r = c && a.hdr.tag = t.tag && a.hdr.frame = t.frame then { a with hdr := { a.hdr with round := t.round } } else a }

/-- One in-flight entry delivered onto its circuit (R400). -/
def Region.deliver (R : Region) (now : Nat) (e : InFlight) : Region :=
  let org : UnitId := originAt R.rid e.page e.pos
  let route := if e.pos = 7 then e.route + 16 else e.route
  let x : QTok := { tok := e.tok, org := org, route := route, sid := 0 }
  let fly (loc : Loc) (op : Option (Nat × Fmt × List (BitVec 16))) : Region :=
    { R with flights := R.flights ++ [{ tok := e.tok, org := org, route := route, sid := 0, loc := loc, since := now, cfuOp := op }] }
  let page := e.fin % 2 ^ 12
  let pos := bits e.fin 13 12
  let u := R.endUnit org route page pos
  let q := R.endQueue org route u e.tok.node.toNat
  match e.way with
  | 1 => fly .cfuRequest ((R.unit? org).bind fun U => U.cfuRequest e.tok)
  | 2 => R.enqueue org route x
  | 3 =>
    if e.pos = 7 then fly (.ingress page) none
    else if e.pos = 8 then { R with sends := R.sends ++ [R.tokenItem R.dev 0 now page e.page (R.cap e.page) e.tok] }
    else if e.pos = 9 then
      let R1 := R.deliverRecord now ⟨page, pos⟩ e.tok
      if e.route = 1 then R1.modLastSend fun x => { x with st := .acked } else R1
    else if e.pos = 10 then R.deliverWords (e.tok.e.take (e.tok.len.toNat + 1))
    else if e.pos = 11 then R.modMu page (·.withContext e.tok)
    else if e.pos = 12 then { R with items := R.items ++ [itemOfEntry e] }
    else if e.pos = 13 then R.modLastItem fun i => i.withInfo R.dev e.tok
    else if e.pos = 14 then R.modLastItem fun i => i.withWords (e.tok.e.take (e.tok.len.toNat + 1))
    else match R.endGateway org route page pos with
      | some i => fly (.gateway page pos i) none
      | none => R.modUnit u fun U => { U with queues := modNth U.queues q fun l =>
          let mine := l.takeWhile fun y => y.route == 5
          mine ++ { x with route := 5 } :: l.drop mine.length }
  | 4 =>
    let d : BitVec 16 := BitVec.ofNat 16 (e.route * 2 ^ 14 + e.tok.node.toNat * 4 + e.tok.port.toNat)
    let node := ((R.unit? org).bind fun U => U.recWords.find? fun w => (U.recAt w).1 == 0xF4 && (U.recAt w).2.d0 == d).getD 0
    let c : Call := { ticket := 0, strong := false, queue := 0, tok := { e.tok with node := BitVec.ofNat 12 node }, unit := org, dest := d,
                      key := default, raddr := 0, st := .answered, came := 0, kept := false, resp := some (e.tok.len, e.tok.fmt, e.tok.exc, e.tok.e) }
    { R with responses := R.responses ++ [c] }
  | _ =>
    if bit e.fin 15 then R.enqueue u q x
    else if e.fin = 1 then R.modUnit org fun U => { U with outq := U.outq ++ [{ route := route, ready := now, paid := false, tok := e.tok }] }
    else match R.unit? org with
      | none => R
      | some U => let o := U.origin route; fly (.at o.1 o.2.1 o.2.2.1 o.2.2.2) none

/-- A flight still on its way to every end. -/
def Flight.whole (f : Flight) : Bool :=
  match f.loc with
  | .at _ _ _ _ => true
  | .cfuRequest => true
  | _ => false

/-- Serials for what a restored region holds (R400): the copies of one token at several ends share one, the newest at each
end the newest. -/
def Region.renumber (R : Region) : Region :=
  let same (a b : UnitId) (i j : Nat) : Bool := a == b && i == j
  let whole (org : UnitId) (route : Nat) : Nat := (R.flights.filter fun f => f.whole && same f.org org f.route route).length
  let sidOf (org : UnitId) (route later : Nat) : Nat := 1000 - 2 * whole org route - later
  let queue (l : List QTok) : List QTok := (List.range l.length).map fun i =>
    let x := nth default l i
    let route := if x.route = 5 then 4 else x.route
    { x with route := route,
             sid := sidOf x.org route ((l.drop (i + 1)).filter fun y => same y.org x.org (if y.route = 5 then 4 else y.route) route).length }
  let flight (i : Nat) : Flight :=
    let f := nth default R.flights i
    let later := ((R.flights.drop (i + 1)).filter fun g => g.whole == f.whole && same g.org f.org g.route f.route).length
    { f with sid := if f.whole then 1000 - 2 * later - 1 else sidOf f.org f.route later }
  { R with
    units := R.units.map fun U => { U with queues := U.queues.map queue }
    flights := (List.range R.flights.length).map flight }

/-- The ALLOW credits that a restored region's crossings of the dies hold (R82, R411): one for each token that has passed the gateway. -/
def Region.crossings (R : Region) : List CapUse :=
  let mine : UnitId := ⟨R.rid, 7⟩
  let at_ := ((R.flights.filter fun f => f.org == mine).map (fun f => (f.route, f.sid))
    ++ R.units.flatMap fun U => U.queues.flatMap fun q => (q.filter fun t => t.org == mine).map fun t => (t.route, t.sid)).eraseDups
  ((at_.map (·.1)).eraseDups).map fun r => { idx := r - 16, out := (at_.filter fun p => p.1 == r).length, pending := none }

/-! ### Held egress, markers -/

/-- A held-egress entry of 128 bytes, its translation still to come (R294). -/
def Region.heldOf (R : Region) (n : Nat) : Held :=
  let op := bits n 71 64
  let key := keyOfNum R.keyRid 0 (n >>> 128)
  let (u, _) := R.recordOfKey key
  { siding := if key.own ≥ 2048 then R.linkSiding u.page else match R.unit? u with
      | some U => if u.pos = 4 then R.strSiding U else R.muSiding u.page
      | none => 0
    va := n % 2 ^ 64
    pa := none
    op := if op < 0x80 then .write else .red (bits op 6 4) (Fmt.ofCode op) (BitVec.ofNat 32 (n >>> 896))
    rel := bit n 72
    mask := BitVec.ofNat 16 (n >>> 80)
    data := (List.range 16).map fun i => BitVec.ofNat 32 (n >>> (384 + 32 * i))
    key := key
    kept := false
    under := [] }

/-- A marker-state entry of 16 bytes. -/
def markerOf (n : Nat) : MarkerSt where
  unit := ⟨n % 2 ^ 16, bits n 23 16⟩
  kind := bits n 31 24
  node := bits n 47 32
  port := bits n 55 48
  round := BitVec.ofNat 12 (n >>> 64)
  count := bits n 95 80

/-- The entries of one of the four last sections. -/
def entriesOf (b : Bytes) (x : Sect) (size : Nat) : List Nat := (List.range x.count).map fun i => numAt b (x.off + 64 + size * i) size

/-! ### The region of an image -/

/-- The region with the units of an image: what R379 step 4 reads. -/
def Region.configured (R : Region) (b : Bytes) : Region :=
  let sects := siteSects b ++ (imageIslands b).1
  { R with cfg := configOf b, units := sects.map (siteOf R.rid b) }

/-- A unit with the dynamic state of its section. -/
def Region.unitOf (R : Region) (b ovf : Bytes) (x : Sect) (U : Site) : Site :=
  match x.type with
  | 1 =>
    let mu := sectAt b (0x2000 + 0xB9000 * x.page + 0x3F000)
    { U with slots := R.slotsOf b x (bytesFrom b (mu.off + 0x3A000)) ovf U }
  | 2 => { U with slots := R.slotsOf b x (bytesFrom b (x.off + 0x3A000)) ovf U, eng := .mu (R.muOf b x U) }
  | 4 => { U with eng := .mxi (mxiOf b x.off U) }
  | 5 => { U with eng := .sbe (sbeOf b x.off U) }
  | _ => U

/-- THE REGION OF AN IMAGE: every unit with its state, then the marker state, and only then the tokens in flight (R472).
`ovf` reads the region's overflow area. -/
def Region.ofImage (R : Region) (now : Nat) (b ovf : Bytes) : Region :=
  let R0 := { R.configured b with conf := if numAt b 0x30 2 = 0xFFFF then none else some (BitVec.ofNat 12 (numAt b 0x30 2)) }
  let sects := siteSects b ++ (imageIslands b).1
  let units := (List.range sects.length).map fun i => R0.unitOf b ovf (nth default sects i) (nth default R0.units i)
  let tail := tailSects b (imageIslands b).2
  let R1 := { R0 with
    units := units
    fault := faultOf (numAt b 0x100 32)
    rolls := numAt b 0x120 8
    xlog := xlogOf b 0x140
    heldLog := (entriesOf b (nth default tail 2) 16).map xentryOf
    markers := (entriesOf b (nth default tail 3) 16).map markerOf }
  let R2 := { R1 with held := (entriesOf b (nth default tail 1) 128).map R1.heldOf }
  let R3 := (entriesOf b (nth default tail 0) 64).foldl (fun R n => R.deliver now (inFlightOf n)) R2
  let R4 := R3.renumber
  { R4 with spilled := R4.beyond, capUses := R4.crossings }

end Sys2Proof.Machine
end

