-- ==== Sys2Proof/Machine/RecordCheck.lean ====
section
/-! DEFINITION. What RGN.LOAD checks of one record by itself (R73, R83 to R86, R107, R139, R188, R236, R265, R273, R314, R339,
R423): the entry of each opcode, and the lowest cause of Table 2-19 that a record has. -/

namespace Sys2Proof.Machine

/-! ### Entries -/

/-- What an opcode's entry says of its records: formats accepted, fewest words, whether IMM and M are allowed, the bits of AUX
and LIT it uses, which SUB it defines. `slotted` tells that AUX holds the slot fields of Table 2-3. -/
structure Entry where
  fmts    : List Fmt
  words   : Nat
  imm     : Bool
  m       : Bool
  slotted : Bool
  aux     : Nat
  lit     : Nat
  sub     : Nat → Bool

/-- Every format. -/
def fmtsAll : List Fmt :=
  [.i32, .n32, .i64, .n64, .f32, .bf16x2, .f16x2, .i16x2, .i8x4, .n8x4, .e4m3x4, .e5m2x4, .e2m3x5, .e3m2x5, .cb4x8, .raw]
/-- The set I of R142. -/
def fmtsI : List Fmt := [.i32, .n32, .i64, .n64, .i16x2, .i8x4, .n8x4]
/-- The set W of R142. -/
def fmtsW : List Fmt := [.i32, .n32]
/-- The formats of R151. -/
def fmtsF : List Fmt := [.f32, .bf16x2, .f16x2]
/-- The narrow formats of R159. -/
def fmtsQ : List Fmt := [.i8x4, .n8x4, .e4m3x4, .e5m2x4, .e2m3x5, .e3m2x5, .cb4x8]

/-- SUB that must be zero. -/
def subNone (n : Nat) : Bool := n == 0
/-- A rounding mode but SR, with flush (R107). -/
def subRound (n : Nat) : Bool := n % 8 ≤ 4
/-- Flush only (Table 4-7). -/
def subFlush (n : Nat) : Bool := n % 8 == 0

/-- An entry of the ALU. -/
def alu (fmts : List Fmt) (words : Nat) (imm m : Bool) (sub : Nat → Bool := subNone) (lit : Nat := 0) : Entry :=
  { fmts, words, imm, m, slotted := true, aux := 0xFFFF, lit, sub }

/-- An entry whose AUX and LIT are masks of used bits. -/
def plain (fmts : List Fmt) (words : Nat) (m : Bool) (aux lit : Nat) : Entry :=
  { fmts, words, imm := false, m, slotted := false, aux, lit, sub := fun _ => true }

/-- A memory record (Table 6-6): OFF, CHAIN, AS where it may be 1, SCOPE where it is used. -/
def memEntry (fmts : List Fmt) (as_ scope m : Bool) : Entry :=
  plain fmts 3 m (0xFC7F + (if as_ then 0x200 else 0) + if scope then 0x180 else 0) 0xFFFFFFFF

/-- The SUB of PREDUCE and OREDUCE: mode and flush for a floating format, else 0 (R165, R201). -/
def subFold (f : Fmt) (n : Nat) : Bool := if f.isInt then n == 0 else subRound n

/-- The entries of integer, logic, floating, conversion, packet and draw records (Tables 4-6 to 4-8). -/
def aluEntry (op : Nat) (f : Fmt) : Option Entry :=
  match op with
  | 0x00 => some (alu fmtsAll 1 false false)
  | 0x01 | 0x02 | 0x03 | 0x05 | 0x06 => some (alu fmtsI 2 true true)
  | 0x04 | 0x07 | 0x08 | 0x09 | 0x0F => some (alu fmtsI 2 true false)
  | 0x0A | 0x0B => some (alu fmtsI 1 false true)
  | 0x0C | 0x0D => some (alu fmtsW 2 true false)
  | 0x0E => some (alu [.i8x4, .n8x4] 2 true true)
  | 0x10 | 0x11 | 0x12 | 0x13 => some (alu fmtsAll 2 true false)
  | 0x14 => some (alu fmtsAll 1 false false)
  | 0x15 => some { alu fmtsAll 2 true false with slotted := false, sub := fun _ => true }
  | 0x16 | 0x17 | 0x18 | 0x19 | 0x1A => some (alu fmtsI 2 true false)
  | 0x1B | 0x1C | 0x1D => some (alu fmtsI 1 false false)
  | 0x1E | 0x1F => some (alu fmtsW 2 true false)
  | 0x20 => some (alu fmtsI 2 true false fun n => n ≤ 5)
  | 0x21 => some (alu fmtsAll 2 true false)
  | 0x40 | 0x41 | 0x42 | 0x43 | 0x4B => some (alu fmtsF 2 true true subRound)
  | 0x44 | 0x45 | 0x4D => some (alu fmtsF 2 true true subFlush)
  | 0x46 | 0x47 | 0x4A => some (alu fmtsF 1 false false subFlush)
  | 0x48 => some (alu fmtsF 2 true true fun n => n % 8 ≤ 4)
  | 0x49 => some (alu fmtsF 1 false false subRound)
  | 0x4C => some (alu [.bf16x2, .f16x2] 2 true true subRound)
  | 0x50 => some (alu (fmtsAll.filter (· != .raw)) 1 false true subRound)
  | 0x51 => some (alu (fmtsAll.filter (· != .raw)) 2 true true fun n => n % 8 == 5)
  | 0x52 => some (alu (fmtsQ ++ [.i16x2, .bf16x2, .f16x2]) 2 true true subRound)
  | 0x53 => some (alu [.f32] 3 false false subNone 7)
  | 0x54 => some (alu fmtsQ 2 false false)
  | 0x60 | 0x62 => some (alu fmtsAll 2 true false)
  | 0x61 => some (alu fmtsAll 2 false false fun n => 1 ≤ n && n ≤ 7 && !(f.pair && n % 2 == 1))
  | 0x63 => some (alu fmtsAll 2 true false fun n => n < 8)
  | 0x64 => some (alu fmtsAll 2 false false fun n => n < 8)
  | 0x65 => some (alu (fmtsAll.filter (· != .raw)) 1 false true (subFold f))
  | 0x66 => some (alu fmtsAll 3 false false subNone 0xFFFFFF)
  | 0x67 => some (alu fmtsAll 1 false false)
  | 0x68 => some (alu fmtsAll 2 false false fun n => n ≤ 2)
  | 0x69 => some (alu [.n32, .raw] 3 false false subNone 0xFFFFFFFF)
  | 0x6A => some (alu [.n32, .raw] 2 true false)
  | _ => none

/-- The entries of the TFU's records (Table 5-3). -/
def tfuEntry (op : Nat) (r : Rec) : Option Entry :=
  match op with
  | 0x70 => some (alu [.raw] 2 false true)
  | 0x71 => some (plain [.raw] 1 false 0 0)
  | 0x72 => some (alu [.raw] 2 false false)
  | 0x73 => some (plain [.raw] (if r.d1 = noDest then 2 else 3) false 0x3F (if r.d1 = noDest then 0 else 0xFF))
  | 0x74 => some (plain [.raw] 2 false 0x3F 0)
  | 0x75 => some (plain [.raw] 2 false 0x3F 0xFF)
  | 0x76 => some (plain [.raw] 3 false 0x3F 0xFFFFFFFF)
  | 0x77 => some (plain [.raw] 2 false 0x3F 0)
  | 0x78 | 0x79 | 0x7A | 0x7B | 0x7C | 0x7F | 0x81 => some (plain [.raw] 1 false 0 0)
  | 0x7D => some (plain [.raw] 3 false 0xFF 0xFFFF)
  | 0x7E => some (plain [.raw] 3 false 0 0xFF)
  | 0x80 => some (plain [.n32] 3 false 0xFF 0xFFFFFFFF)
  | 0x82 => some (plain fmtsAll 3 false 0 0x7FFF)
  | 0x83 => some (plain [if r.m then .n64 else .n32] 1 true 0 0)
  | 0x84 => some (alu [.raw] 2 (!r.m) true)
  | 0x85 => some { alu (fmtsI ++ fmtsF) 3 false true (subFold r.fmt) 0xFF3F with aux := 0x7FFF }
  | _ => none

/-- The entries of memory records (Table 6-6). -/
def muEntry (op : Nat) : Option Entry :=
  match op with
  | 0xA0 | 0xA1 => some (memEntry fmtsAll true false false)
  | 0xA2 | 0xA3 => some (memEntry fmtsAll true true false)
  | 0xA4 | 0xA5 | 0xA6 | 0xA7 => some (memEntry fmtsAll false true false)
  | 0xA8 | 0xA9 => some (memEntry [.n32] false false false)
  | 0xAA => some (memEntry [.i32, .n32, .i64, .n64, .raw] true true true)
  | 0xAB => some (memEntry [.i32, .n32, .i64, .n64, .raw] true false false)
  | 0xAC => some (memEntry [.i32, .n32, .i64, .n64, .f32] true true true)
  | 0xAD => some (memEntry [.n32] true false false)
  | 0xAE | 0xAF => some (memEntry [.raw] false true false)
  | 0xB0 => some (memEntry [.raw] false false false)
  | _ => none

/-- The formats of MMA and MMAS (Table 9-6). -/
def fmtsM : List Fmt := [.cb4x8, .e4m3x4, .e5m2x4, .e2m3x5, .e3m2x5, .i8x4, .bf16x2, .f16x2]

/-- The entries of island records (Tables 8-3, 9-6, 10-3). -/
def islandEntry (op : Nat) : Option Entry :=
  match op with
  | 0xC0 | 0xC1 | 0xC3 | 0xC4 | 0xC6 => some (plain [.raw] 3 true 0xFFFF 0)
  | 0xC2 => some (plain fmtsAll 3 true 0xFFFF 0x1FF)
  | 0xC5 => some (plain [.n64] 3 false 0xFC00 0)
  | 0xD0 | 0xD1 => some (plain fmtsM 3 true 0xFFBF 0x1FFF)
  | 0xD2 => some (plain [.f32, .i32] 2 false 0xC000 0)
  | 0xD3 => some (plain [.f32, .i32, .bf16x2] 2 true 0xC000 0)
  | 0xD4 => some (plain [.bf16x2] 2 false 0x3000 0)
  | 0xD5 | 0xD6 => some (plain [.raw] 2 false 0xF 0)
  | 0xE0 => some (plain [.f32, .n32] 3 true 0xFC00 0x7FC000F)
  | 0xE1 | 0xE2 | 0xE4 => some (plain [.raw] 3 false 0 0x7FFFFFF)
  | 0xE3 => some (plain [.raw] 3 false 0x1FF 0x7FFFFFF)
  | 0xE5 => some (plain [.n32, .i32] 3 true 0x1FF 0x1FF)
  | 0xE6 => some (plain [.n32] 3 true 0x1FF 0x3FFFF)
  | 0xE7 => some (plain [.raw] 3 false 0x3C00 0x7FC01FF)
  | 0xE8 => some (plain [.raw] 3 false 0xC000 0x7FC01FF)
  | 0xE9 => some (plain [.raw] 3 false 0xFDFF 0x7FC0000)
  | 0xEA => some (plain [.raw] 3 false 0x1FF 0x1FF)
  | 0xEB => some (plain [.raw] 3 false 0xC1FF 0x7FC0000)
  | _ => none

/-- The entries of link and call records (Table 13-5). -/
def linkEntry (op : Nat) : Option Entry :=
  match op with
  | 0xF0 | 0xF2 => some (plain [.raw] 3 false 0xFE00 0xFF)
  | 0xF1 => some (plain [.raw] 3 false 0x200 0xFF)
  | 0xF3 => some (plain [.i32, .n32, .f32, .bf16x2] 3 false 0xFC03 0x3F)
  | 0xF4 => some (plain fmtsAll 2 true 3 0)
  | _ => none

/-- The entry of an opcode: none where it is unassigned (R85). -/
def entryOf (op : Nat) (r : Rec) : Option Entry :=
  if op < 0x70 then aluEntry op r.fmt
  else if op < 0x90 then tfuEntry op r
  else if op ≤ 0x98 then some (plain [.f32, .bf16x2] 1 false 0 0)
  else if op < 0xA0 then none
  else if op < 0xC0 then muEntry op
  else if op < 0xF0 then islandEntry op
  else linkEntry op

/-- The classes of sites (Table 2-10): the position of the unit that holds an opcode's records, 0 for any cell. -/
def opClass (op : Nat) : Nat :=
  if op < 0xA0 then 0 else if op < 0xC0 then 3 else if op < 0xD0 then 4 else if op < 0xE0 then 5 else if op < 0xF0 then 6 else 0

/-! ### Values of fields -/

/-- SUB[3] flushes where the record's format, or an operand that its entry names, is f32, bf16 or f16 (R107). -/
def flushOk (op : Nat) (r : Rec) : Bool :=
  !bit r.aux.toNat 11 || fmtsF.contains r.fmt || op == 0x50 || op == 0x51 || op == 0x52

/-- The operation code of ATOM and RED (R242). -/
def recOpx (r : Rec) : Nat := 4 * b2n r.m + bits r.aux.toNat 8 7

/-- The register ranges of an SBE record lie below 512 (R339). -/
def rangesOk (op : Nat) (r : Rec) : Bool :=
  let n := bits r.aux.toNat 8 0
  let ra := bits r.lit.toNat 8 0
  let rb := bits r.lit.toNat 17 9
  let rd := bits r.lit.toNat 26 18
  match op with
  | 0xE5 | 0xEA => ra + n ≤ 511
  | 0xE6 => ra + n ≤ 511 && rb + n ≤ 511
  | 0xE9 | 0xEB => rd + n ≤ 511
  | _ => true

/-- The values that an entry forbids (cause 0x05). -/
def valuesOk (op : Nat) (r : Rec) : Bool :=
  let aux := r.aux.toNat
  let lit := r.lit.toNat
  let width := aux % 64
  match op with
  | 0x76 => 10 ≤ width && width ≤ 32 && decide (lit < 2 ^ (width - 10))
  | 0x77 => 10 ≤ width && width ≤ 32
  | 0xAA => recOpx r ≠ 7 && (r.fmt ≠ .raw || [1, 2, 3, 6].contains (recOpx r))
  | 0xAC => recOpx r ≤ 5 && (r.fmt ≠ .f32 || [0, 4, 5].contains (recOpx r))
  | 0xD0 | 0xD1 => 0 < lit && lit ≤ 4096 && (bits aux 13 10 = 0 || r.fmt == .cb4x8) && (!r.m || r.fmt == .e4m3x4 || r.fmt == .e2m3x5)
  | 0xE0 => !r.m || r.fmt == .f32
  | 0xE5 => bits aux 8 0 ≤ 7 && (!r.m || r.fmt == .i32)
  | 0xF3 => aux % 4 ≠ 3
  | _ => true

/-- HEAD has no predecessor and TAIL no successor (R77). -/
def wavesOk (op : Nat) (r : Rec) : Bool :=
  if 0xA0 ≤ op && op < 0xC0 then
    (!bit r.lit.toNat 1 || bits r.lit.toNat 31 22 == 0) && (!bit r.lit.toNat 0 || bits r.lit.toNat 11 2 == 0)
  else true

/-- The slot fields of a record: zero where it matches fewer than two tokens (R70). -/
def monadicOk (op : Nat) (r : Rec) : Bool :=
  let n := (tokenPorts op r).length
  let aux := r.aux.toNat
  if 0xA0 ≤ op && op < 0xC0 then 2 ≤ n || aux % 128 == 0 else 2 ≤ n || aux &&& 0xF0FF == 0

/-- A field that is nonzero though unused, or a value that the entry does not define: cause 0x05. -/
def fieldsOk (op : Nat) (r : Rec) (e : Entry) : Bool :=
  let aux := r.aux.toNat
  r.aux.toNat &&& (0xFFFF - e.aux) == 0 && (r.imm || r.lit.toNat &&& (0xFFFFFFFF - e.lit) == 0) && (!r.m || e.m)
    && (!e.slotted || (e.sub (bits aux 11 8) && flushOk op r)) && (!e.slotted && !(decide (0xA0 ≤ op) && decide (op < 0xC0)) || monadicOk op r)
    && valuesOk op r && wavesOk op r && rangesOk op r

/-- Slot fields that no stride can hold: cause 0x0A (R71, R170, R201, R305). -/
def slotsOk (op : Nat) (r : Rec) : Bool :=
  let aux := r.aux.toNat
  let sh := bit aux 15
  let lb := bits aux 14 12
  let off := aux % 256
  let n := (tokenPorts op r).length
  if op = 0xD0 || op = 0xD1 then aux % 64 + bits aux 9 7 < 64
  else if op = 0x15 then n < 3 || 1 ≤ off
  else if op = 0x85 then !(sh && lb != 0) && 1 ≤ off
  else if matching op r && op < 0xA0 then !(sh && lb != 0) && (n < 3 || lb + 1 ≤ off)
  else if matching op r then n < 3 || 1 ≤ aux % 128
  else true

/-- The tokens per round of a SOURCE or MARK (R66, Table 5-3): cause 0x0C. -/
def perOk (op : Nat) (r : Rec) : Bool :=
  let n := r.lit.toNat % 2 ^ 16
  if op = 0x7D || op = 0x80 then 1 ≤ n && n ≤ 32768 else true

/-- THE LOWEST CAUSE that a record has by itself (Table 2-19), at a unit of a class. -/
def recCause (cls op : Nat) (r : Rec) : Option Nat :=
  if r.len = 3#2 then some 0x01
  else match entryOf op r with
    | none => some 0x02
    | some e =>
      if opClass op ≠ cls then some 0x03
      else if r.len.toNat + 1 < e.words || (r.imm && (!e.imm || r.len != 2#2)) then some 0x04
      else if !fieldsOk op r e then some 0x05
      else if !e.fmts.contains r.fmt then some 0x07
      else if !slotsOk op r then some 0x0A
      else if !perOk op r then some 0x0C
      else none

end Sys2Proof.Machine
end

