-- ==== Sys2Proof/Machine/LoadCheck.lean ====
section
/-! DEFINITION. The checks of RGN.LOAD and RGN.REST over a whole configuration (R41, R66, R68, R71, R74, R75, R79, R86, R178,
R182, R213, R234, R268, R270, R273, R277, R292, R305, R333, R379; Tables 1-6 and 2-19), and the place of the first that fails
(Table 12-1). Of several causes at one place the lowest is given (log entry 14). -/

namespace Sys2Proof.Machine

/-- A refusal (Table 12-1, REFUSED): the cause and the place. -/
structure Refused where
  cause : Nat
  page  : Nat
  pos   : Nat
  word  : Nat
  off   : Nat
  deriving DecidableEq, Repr, Inhabited

/-- The value of a REFUSED result word. -/
def Refused.value (f : Refused) : Nat := f.page % 2 ^ 12 + 2 ^ 12 * (f.pos % 8) + 2 ^ 16 * (f.word % 2 ^ 16) + 2 ^ 32 * (f.off % 2 ^ 16)

/-! ### Records (R74, R75, R254, R402, R423) -/

/-- The class of a unit's records (Table 2-10). -/
def Site.cls (U : Site) : Nat := if U.id.pos ≤ 2 then 0 else U.id.pos

/-- A record whose opcode and length are known and whose class is the unit's. -/
def Site.known (U : Site) (w : Nat) : Bool :=
  let (op, r) := U.recAt w
  !([some 0x01, some 0x02, some 0x03].contains (recCause U.cls op r))

/-- The words of element memory. -/
def Site.elemWords (U : Site) : Nat := if U.id.pos ≤ 2 then 4096 else 1024

/-- The words that records of a unit occupy. -/
def Site.recordWords (U : Site) : List Nat :=
  U.recWords.flatMap fun w => (List.range ((U.recAt w).2.len.toNat + 1)).map fun i => w + i

/-- The words of a record lie in element memory and are marked as its own (R74). -/
def Site.spanOk (U : Site) (w : Nat) (r : Rec) : Bool :=
  decide (w + r.len.toNat < U.elemWords) && (List.range r.len.toNat).all fun i => U.mark (w + 1 + i) == 2

/-- The data words that a record names: those of a CONST packet (R199) or of a shape record (R270). -/
def namedWords (op : Nat) (r : Rec) : List Nat :=
  if op = 0x82 then (List.range (bits r.lit.toNat 14 12 + 1)).map fun i => r.lit.toNat % 2 ^ 12 + i
  else if 0xC0 ≤ op && op ≤ 0xC6 && op ≠ 0xC5 then (List.range 8).map fun i => r.aux.toNat % 2 ^ 10 + i
  else []

/-- The shape that a stream record names breaks R270 or R273. -/
def Site.shapeBad (U : Site) (op : Nat) (r : Rec) : Bool :=
  let h := U.shapeOf r
  let a := r.aux.toNat % 2 ^ 10
  decide (2 ^ 24 < h.words) || decide (1024 < a + 8)
    || ((List.range 6).any fun i => (U.word (a + 2 + i)).toNat % 4 ≠ 0)
    || ((namedWords op r).any fun x => U.recordWords.contains x)
    || ((op = 0xC3 || op = 0xC4) && (h.n2 ≠ 1 || h.n3 ≠ 1 || 4096 < h.n1))

/-- The causes that a record's data words give: a shape that R270 or R273 refuses, words of a CONST packet or of a
SHAPE that are not marked as data (R74; for a SHAPE, DEDUCED beside R273's cause: log entry 14), SFEED's packet count against its width, and its pairs (R277). -/
def Site.dataCauses (U : Site) (op : Nat) (r : Rec) : List Nat :=
  let ws := namedWords op r
  let isStream := decide (0xC0 ≤ op) && decide (op ≤ 0xC6) && op != 0xC5
  let few := op == 0xC2 && decide (2 ^ (r.lit.toNat % 64) - 1 < ceilDiv (U.shapeOf r).words (bits r.lit.toNat 8 6 + 1))
  (if isStream && U.shapeBad op r then [0x05] else [])
    ++ (if ws.any fun x => U.elemWords ≤ x || U.mark x ≠ 3 then [0x08] else [])
    ++ (if few then [0x0E] else [])
    ++ (if op = 0xC2 && r.fmt.pair && (bits r.lit.toNat 8 6 % 2 = 0 || (U.shapeOf r).words % 2 = 1) then [0x07] else [])

/-- A route of a unit has a circuit: its origin entry is there. -/
def Region.hasRoute (R : Region) (U : Site) (route : Nat) : Bool :=
  let o := U.origin route
  ((R.unit? ⟨o.1, o.2.1⟩).bind (·.entry? o.2.2.1 o.2.2.2)).isSome

/-- A destination's end holds a record of that port (R75, R76); one whose own opcode or length is at fault is not judged. -/
def Region.landsOk (R : Region) (u : UnitId) (node port : Nat) (mark : Bool) : Bool :=
  match R.unit? u with
  | none => false
  | some V =>
    let (op, r) := V.recAt node
    V.mark node == 1 && (!V.known node || (decide (port < portsOf op r.fmt) && !(r.imm && port == 1) && (!mark || (op == 0x7D && port == 0))))

/-- The destination of a record is good: a CFU record's ROUTE is a request route, which ends at CFUs alone (R254). `mark` asks that it be
port 0 of a MARK of the region (R423). -/
def Region.destOk (R : Region) (U : Site) (op : Nat) (d : BitVec 16) (mark : Bool) : Bool :=
  let route := dRoute d
  R.hasRoute U route && !(cfuOp op && (R.ends U route).isEmpty) && (R.ends U route).all fun e => match e with
    | none => !cfuOp op
    | some (.queue u _, _) => !cfuOp op && R.landsOk u (dNode d).toNat (dPort d).toNat mark
    | some (.island u, _) => !cfuOp op && R.landsOk u (dNode d).toNat (dPort d).toNat mark
    | some (.cfu, _) => cfuOp op && R.landsOk U.id (dNode d).toNat (dPort d).toNat mark
    | some (.gateway _ _ _, _) => !cfuOp op && !mark

/-- The destinations of a record are good (cause 0x06). -/
def Region.destsOk (R : Region) (U : Site) (op : Nat) (r : Rec) : Bool :=
  let marked0 := op = 0xF1 || op = 0xF3 || op = 0xF4
  let marked1 := op = 0xF0 || op = 0xF2
  let ok0 := if r.d0 = noDest then !marked0 && !cfuOp op else op ≠ 0x81 && R.destOk U op r.d0 marked0
  let ok1 := if r.d1 = noDest then true
    else op ≠ 0x81 && !marked0 && (!cfuOp op || dRoute r.d1 == dRoute r.d0) && R.destOk U op r.d1 marked1
  ok0 && ok1

/-! ### Slots (R71, R173, R305, R333) -/

/-- The slots of its frame stride that a record needs. -/
def slotNeed (R : Region) (U : Site) (w op : Nat) (r : Rec) : Nat :=
  let aux := r.aux.toNat
  let lb := if op < 0xA0 && op ≠ 0x15 then bits aux 14 12 else 0
  let off := if 0xA0 ≤ op then aux % 128 else aux % 256
  let m := if matching op r || op = 0x85 then off + lb + 1 else 0
  let st := if countedEntry op r || R.countedExit U.id w op || op = 0x7D || op = 0x7E || op = 0x80 || op = 0x85 then soff op r + 1 else 0
  max m st

/-- Groups of a matching store that a record uses. -/
def groupsOf (op : Nat) (r : Rec) : List Nat :=
  if op = 0xD0 || op = 0xD1 then (List.range (mxLb r + 1)).map fun i => mxOff r + i
  else if op = 0xE0 then [sbGroup r]
  else []

/-- The slot fields break the unit's stride, or the groups those of an earlier record (cause 0x0A). -/
def Region.slotsBad (R : Region) (U : Site) (w op : Nat) (r : Rec) : Bool :=
  if U.id.pos ≤ 3 then decide (U.stride < slotNeed R U w op r)
  else U.recWords.any fun v => decide (v < w) && (groupsOf (U.recAt v).1 (U.recAt v).2).any fun g => (groupsOf op r).contains g

/-! ### Markers and nesting (R34, R68, R178, R182, R197, R360) -/

/-- The records that edges lead to from those known. -/
def reachStep (es : List Edge) (known : List (UnitId × Nat)) : List (UnitId × Nat) :=
  (known ++ es.filterMap fun e => if known.contains (e.src, e.from_) then e.dst.unit?.map fun u => (u, e.node) else none).eraseDups

/-- The records reached after `n` steps. -/
def reachIter (es : List Edge) : Nat → List (UnitId × Nat) → List (UnitId × Nat)
  | 0, k => k
  | n + 1, k => let k' := reachStep es k; if k'.length = k.length then k else reachIter es n k'

/-- An edge lies on a cycle of the graph of edges. -/
def onCycle (es : List Edge) (e : Edge) : Bool :=
  match e.dst.unit? with
  | none => false
  | some u => (reachIter es es.length [(u, e.node)]).contains (e.src, e.from_)

/-- The marker rules of R182, R197 and R360 at a record (cause 0x0C). -/
def Region.markersBad (R : Region) (U : Site) (w op : Nat) : Bool :=
  let es := R.edges
  let bear := R.bearing
  let ins := es.filter fun e => e.into U.id w
  let exitPort := if op = 0x75 then 1 else if op = 0x85 then 2 else 4
  let plainIns := ins.filter fun e => e.port != exitPort
  let exitIns := ins.filter fun e => e.port == exitPort
  let free (e : Edge) : Bool := !bear.contains e
  (bear.any fun e => e.src == U.id && e.from_ == w && onCycle es e)
    || (plainIns.any free && plainIns.any fun e => bear.contains e)
    || ((op = 0x7E || op = 0x81) && ins.any free)
    || decide (1 < (exitIns.filter fun e => bear.contains e).length)
    || (exitIns.any fun e => e.op ≠ 0x73 || !e.d1) || decide (1 < (exitIns.map fun e => (e.src, e.from_)).eraseDups.length)
    || ((op = 0x7E || op = 0x7D) && decide (1 < ((ins.map fun e => (e.src, e.from_)).eraseDups).length))
    || (op = 0x80 && U.recWords.any fun v => decide (v < w) && (U.recAt v).1 == 0x80)

/-- The width that a record pushes, pops or steps (R68, R192, R193, R201, R277). -/
def tagWidth (op : Nat) (r : Rec) : Nat := if op = 0x85 || op = 0xC2 then r.lit.toNat % 64 else r.aux.toNat % 64

/-- A record that takes a token at depth `d` pushes, pops or steps by a width that disagrees with TW, or nests past bit 58 (R68). -/
def depthBad (tw : List Nat) (op : Nat) (r : Rec) (d : Nat) : Bool :=
  let w := tagWidth op r
  let top := ((List.range d).map fun i => nth 0 tw i).sum
  if op ∈ [0x73, 0x76, 0xC2] then !(d < 58 && nth 0 tw d = w && w ≠ 0 && top + w ≤ 58)
  else op ∈ [0x74, 0x75, 0x77, 0x85] && !(0 < d && nth 0 tw (d - 1) = w)

/-- The depth of what a record sends, given the depth of what it takes: not known where that faults, nor after TAGSET.tag, whose tag
is a value of the program (R200). -/
def depthOut (tw : List Nat) (op : Nat) (r : Rec) (d : Nat) : Option Nat :=
  if depthBad tw op r d || (op = 0x84 && r.m) then none
  else if op ∈ [0x73, 0x76, 0xC2] then some (d + 1)
  else if op ∈ [0x75, 0x77, 0x85] then some (d - 1)
  else some d

/-- The units at which circuits from other regions end, through valid ingress entries (R82). -/
def Region.inletUnits (R : Region) : List UnitId :=
  R.cfg.ingress.flatMap fun p =>
    let v := p.2.toNat
    if bit v 31 then (R.endsFrom (64 * R.pages + 1) (bits v 23 12) (bits v 11 10) (bits v 30 28) (bits v 27 24)).filterMap fun e =>
      e.bind fun x => x.1.unit?
    else []

/-- One step of the static depths along data edges: each record is reached at every depth that some path gives it. A CALLF's edge on a
cycle is recursion, whose depth is dynamic (R68). -/
def Region.depthStep (R : Region) (es : List Edge) (known : List ((UnitId × Nat) × Nat)) : List ((UnitId × Nat) × Nat) :=
  es.foldl (fun acc e =>
    match e.dst.unit?, R.unit? e.src with
    | some u, some U =>
      if (e.op = 0x73 && e.d1) || (e.op = 0x76 && onCycle es e) then acc
      else
        let out := (acc.filter fun p => p.1 == (e.src, e.from_)).filterMap fun p => depthOut R.cfg.tw e.op (U.recAt e.from_).2 p.2
        (acc ++ out.map fun d => ((u, e.node), d)).eraseDups
    | _, _ => acc) known

/-- The static depths after `n` steps. -/
def Region.depthIter (R : Region) (es : List Edge) : Nat → List ((UnitId × Nat) × Nat) → List ((UnitId × Nat) × Nat)
  | 0, k => k
  | n + 1, k => let k' := R.depthStep es k; if k'.length = k.length then k else Region.depthIter R es n k'

/-- The statically known depths of the tags that each record takes: 0 at a record that no edge enters, unless a circuit from
another region may. -/
def Region.depths (R : Region) : List ((UnitId × Nat) × Nat) :=
  let es := R.edges
  let inlets := R.inletUnits
  let start := R.units.flatMap fun U => U.recWords.filterMap fun w =>
    if (es.any fun e => e.into U.id w) || (inlets.contains U.id && decide (0 < portsOf (U.recAt w).1 (U.recAt w).2.fmt)) then none
    else some ((U.id, w), 0)
  R.depthIter es (59 * es.length) start

/-- The causes that a record's static depths give: a width against TW (0x0E), a FALLOC whose depth has no reserve (0x0B). -/
def Region.depthCauses (R : Region) (U : Site) (w op : Nat) (r : Rec) : List Nat :=
  ((R.depths.filter fun p => p.1 == (U.id, w)).map (·.2)).flatMap fun d =>
    (if depthBad R.cfg.tw op r d then [0x0E] else []) ++ (if op = 0x78 && nth 0 R.cfg.reserve d = 0 then [0x0B] else [])

/-! ### Chains (R213, R273) -/

/-- The memory records of a chain: their sites and words, in the order of R86. -/
def Region.chainRecs (R : Region) (c : Nat) : List (UnitId × Nat × Rec) :=
  R.units.flatMap fun U => if U.id.pos ≠ 3 then []
    else U.recWords.filterMap fun w => let (op, r) := U.recAt w; if 0xA0 ≤ op && op ≤ 0xB0 && mrChain r = c then some (U.id, w, r) else none

/-- The waves of a chain from one on, by SUCC and PRED. -/
def chainPath (rs : List Rec) : Nat → Rec → List Nat
  | 0, r => [mrOwn r]
  | n + 1, r =>
    if mrTail r then [mrOwn r]
    else match rs.find? fun q => mrOwn q == mrSucc r && !mrHead q && mrPred q == mrOwn r with
      | some q => mrOwn r :: chainPath rs n q
      | none => [mrOwn r]

/-- A memory record's chain breaks R213 at it (cause 0x0D): another site's, waves that are not one order, or the chain whose
contexts pass the MU's 128. -/
def Region.chainBad (R : Region) (U : Site) (w : Nat) (r : Rec) : Bool :=
  let c := mrChain r
  let all := R.chainRecs c
  let rs := all.map (·.2.2)
  let path := match rs.find? mrHead with
    | some h => chainPath rs rs.length h
    | none => []
  let ended := rs.any fun q => mrTail q && path.getLast? == some (mrOwn q)
  let first := all.head?.map fun p => (p.1, p.2.1)
  let live (x : Nat) : Nat := bits (nth 0#64 R.cfg.chains x).toNat 57 51 + 1
  let firstOf (x : Nat) : Option Nat := ((R.chainRecs x).head?).bind fun p => if p.1 = U.id then some p.2.1 else none
  let before := (List.range 64).filter fun x => match firstOf x with | some v => decide (v ≤ w) | none => false
  (all.head?.map (·.1)) != some U.id
    || decide (1 < (rs.filter fun q => mrOwn q == mrOwn r).length) || !path.contains (mrOwn r) || path.length ≠ rs.length || !ended
    || (first == some (U.id, w) && decide (128 < (before.map live).sum))

/-! ### One word (R86) -/

/-- The causes of a record that lie beyond the record itself. -/
def Region.moreCauses (R : Region) (U : Site) (w op : Nat) (r : Rec) : List Nat :=
  (if U.spanOk w r then [] else [0x08]) ++ U.dataCauses op r
    ++ (if op = 0x75 && R.countedExit U.id w op && r.len ≠ 2#2 then [0x04] else [])
    ++ (if op = 0x75 && !R.countedExit U.id w op && r.lit ≠ 0#32 then [0x05] else [])
    ++ (if R.destsOk U op r then [] else [0x06])
    ++ (if R.slotsBad U w op r then [0x0A] else [])
    ++ (if R.markersBad U w op then [0x0C] else [])
    ++ (if op = 0x80 && R.cfg.seq < r.lit.toNat % 2 ^ 16 then [0x0C] else [])
    ++ R.depthCauses U w op r
    ++ (if U.id.pos = 3 && R.chainBad U w r then [0x0D] else [])
    ++ (if U.id.pos = 4 && !(R.chainRecs (mrChain r)).isEmpty then [0x05] else [])

/-- The causes of the record that begins at a word, of which the lowest is reported (log entry 14). Of one that runs past element memory
only what its first word says is judged (R74). -/
def Region.recordCauses (R : Region) (U : Site) (w : Nat) : List Nat :=
  let (op, r) := U.recAt w
  let own := (recCause U.cls op r).toList
  if own.any (· ≤ 0x03) then own
  else if U.elemWords < w + r.len.toNat + 1 then own.filter (· ≤ 0x04) ++ [0x08]
  else own ++ R.moreCauses U w op r

/-- The causes at a word of element memory: of the record that begins there, or of a mark 10 that no record accounts for. -/
def Region.wordCauses (R : Region) (U : Site) (w : Nat) : List Nat :=
  match U.mark w with
  | 1 => R.recordCauses U w
  | 2 => if U.recordWords.contains w then [] else [0x08]
  | _ => []

/-! ### Switch entries (R78, R79, R253, R268) -/

/-- The site faces a gateway in a direction at the region's placement (R79). -/
def Region.facesGateway (R : Region) (page pos dir : Nat) : Bool :=
  let sx := 2 * R.pageX page + pos % 2
  let sy := 2 * R.pageY page + pos / 2
  match dir with
  | 4 => sy == 0
  | 5 => sx == 63
  | 7 => sx == 64
  | _ => false

/-- The entries of circuits that enter a site by `inp` under `cin`: site and index. -/
def Region.pathFrom (R : Region) : Nat → Nat → Nat → Nat → Nat → List (Nat × Nat × Nat)
  | 0, _, _, _, _ => []
  | fuel + 1, page, pos, inp, cin =>
    match (R.unit? ⟨page, pos⟩).bind (·.entry? inp cin) with
    | none => []
    | some (i, e) =>
      (page, pos, i) :: (if seLoc e && seEnd e = 3 then [] else (seOut e).flatMap fun d =>
        match R.neighbour page pos d with
        | none => []
        | some (p, q) => Region.pathFrom R fuel p q (opposite d) (seCout e))

/-- Every entry that lies on a circuit. -/
def Region.onCircuits (R : Region) : List (Nat × Nat × Nat) :=
  let fuel := 64 * R.pages + 1
  (R.units.flatMap fun U => (List.range 4).flatMap fun r => let o := U.origin r; R.pathFrom fuel o.1 o.2.1 o.2.2.1 o.2.2.2)
    ++ R.cfg.ingress.flatMap fun p =>
      let v := p.2.toNat
      if bit v 31 then R.pathFrom fuel (bits v 23 12) (bits v 11 10) (bits v 30 28) (bits v 27 24) else []

/-- A field of a switch entry that must be zero is not (cause 0x05). The fields of a request route's entry are R253's, cause 0x09. -/
def entryReserved (e : W32) : Bool :=
  if !bit e.toNat 31 then e != 0#32
  else if seEnd e = 2 then false
  else
    (decide (seIn e < 4) && decide (1 < seCin e)) || ((seOut e).isEmpty && seCout e != 0)
      || (!seLoc e && (seEnd e != 0 || seQ e != 0 || bits e.toNat 10 8 != 0))
      || ((seEnd e = 1 || seEnd e = 3) && seQ e != 0) || (seEnd e ≤ 1 && seCap e != 0)

/-- The slots that the entries of a site up to one reserve at the queue of that one's end. -/
def Site.slotsUpTo (U : Site) (i : Nat) : Nat :=
  let e := nth 0#32 U.switch i
  let key (e : W32) : Nat × Nat := if seEnd e = 1 then (1, 0) else if seEnd e = 2 then (0, seIn e) else (0, seQ e)
  (((U.switch.take (i + 1)).filter fun x => bit x.toNat 31 && seLoc x && seEnd x ≠ 3 && key x == key e).map seSlots).sum

/-- A switch entry breaks R79 (cause 0x09). -/
def Region.entryBad (R : Region) (U : Site) (i : Nat) : Bool :=
  let e := nth 0#32 U.switch i
  let page := U.id.page
  let pos := U.id.pos
  let island := R.islandAt page pos
  let earlier := (U.switch.take i).filter fun x => bit x.toNat 31
  let ends := (R.endsFrom (64 * R.pages + 1) page pos (seIn e) (seCin e)).filterMap id
  let starts := decide (seIn e < 4) || R.cfg.ingress.any fun p => let v := p.2.toNat
    bit v 31 && bits v 23 12 == page && bits v 11 10 == pos && bits v 30 28 == seIn e && bits v 27 24 == seCin e
  let broken := !(seLoc e && seEnd e = 3) && (seOut e).any fun d => match R.neighbour page pos d with
    | none => true
    | some (p, q) => ((R.unit? ⟨p, q⟩).bind (·.entry? (opposite d) (seCout e))).isNone
  if !bit e.toNat 31 then false
  else
    (earlier.any fun x => seIn x == seIn e && seCin x == seCin e)
      || (earlier.any fun x => seCout x == seCout e && (seOut x).any fun d => (seOut e).contains d)
      || (decide (seIn e < 4) && seCin e == 1 && !R.attaches page pos)
      || (seLoc e && seEnd e == 1 && island.isNone)
      || (seEnd e == 2 && (!seLoc e || decide (4 ≤ seIn e) || decide (3 ≤ pos) || seCin e != 0 || !(seOut e).isEmpty || seCout e != 0 || seQ e != 0 || seCap e != 0))
      || (seLoc e && seEnd e == 3 && ((seOut e).length != 1 || seCout e != 0 || !(seOut e).all (R.facesGateway page pos)))
      || (seLoc e && seEnd e != 3 && decide (8 < U.slotsUpTo i))
      || (broken && R.onCircuits.contains (page, pos, i))
      || (starts && (ends.isEmpty || decide (1 < ((ends.map (·.2)).eraseDups).length)))

/-- The causes at a switch entry. -/
def Region.switchCauses (R : Region) (U : Site) (i : Nat) : List Nat :=
  (if entryReserved (nth 0#32 U.switch i) then [0x05] else []) ++ if R.entryBad U i then [0x09] else []

/-! ### The other items of a section, and the header -/

/-- The byte of a section is one of a configuration item, or of its header (R379 step 4, Table 12-8). -/
def configByte (type i : Nat) : Bool :=
  let header := i < 4 || (4 ≤ i && i < 7) || (8 ≤ i && i < 16)
  match type with
  | 1 => header || (0x40 ≤ i && i < 0x80) || i == 0x98 || i == 0x99 || (0xC00 ≤ i && i < 0x5000)
  | 2 => header || (0x40 ≤ i && i < 0x80) || i == 0x98 || i == 0x99 || (0xC00 ≤ i && i < 0xD00) || (0x1000 ≤ i && i < 0x2000)
    || (0x7000 ≤ i && i < 0x9000) || 0x3A000 ≤ i
  | 3 | 4 | 5 => header || (0xC00 ≤ i && i < 0xD00) || (0x1000 ≤ i && i < 0x2000)
  | _ => header

/-- The first byte of a section that R379 step 4 refuses. -/
def strayByte (b : Bytes) (x : Sect) : Option Nat := (List.range x.len).find? fun i => b (x.off + i) != 0#8 && !configByte x.type i

/-- The first bytes of a header that belong to no configuration and are not zero: ORIGIN, FAULT, ROLLS, XLOG, which are empty in a
configuration image, and those that Table 12-7 does not name (R379 step 4; CONF and OPEN are not judged, log entry 14). -/
def strayHeader (b : Bytes) : Option Nat :=
  ([(0x34, 2), (0x70, 16), (0xF6, 10), (0x100, 32), (0x120, 8), (0x128, 24), (0x140, 1032), (0x548, 184), (0x1400, 3072)] : List (Nat × Nat)).findSome? fun f =>
    if (List.range f.2).any fun i => b (f.1 + i) != 0#8 then some f.1 else none

/-- A Siding's share would pass its 4,096 entries (R292). -/
def Region.sharesPass (R : Region) (self : Nat) : Bool := (List.range 34).any fun k => decide (4096 < R.share self k)

/-- The checks of header values (R86): the field's offset and the cause, in ascending order. -/
def Region.headerCauses (R : Region) (self : Nat) (b : Bytes) : List (Nat × Nat) :=
  let c := R.cfg
  let tw := ((List.range 58).map fun d => nth 0 c.tw d)
  let sink := R.units.any fun U => U.recWords.any fun w => (U.recAt w).1 == 0x81
  (if sink then [] else [(0x00, 0x0C)])
    ++ (if 16 ≤ (b 0x1D).toNat then [(0x1D, 0x05)] else [])
    ++ (if 256 < c.carve then [(0x1E, 0x0A)] else [])
    ++ (if 2048 < c.live then [(0x36, 0x0F)] else [])
    ++ (if 8192 < c.words then [(0x38, 0x0C)] else [])
    ++ (if R.sharesPass self then [(0x3C, 0x0C)] else [])
    ++ (if 32768 < c.seq then [(0x40, 0x0C)] else [])
    ++ (if tw.any (32 < ·) || 58 < tw.sum then [(0x44, 0x0E)] else [])
    ++ (if 16 ≤ (b 0x6F).toNat then [(0x44, 0x05)] else [])
    ++ (if c.common = 0 || 1024 < c.common + c.reserve.sum then [(0x80, 0x0B)] else [])
    ++ (if c.chains.any fun v => bits v.toNat 61 58 ≠ 0 then [(0x600, 0x05)] else [])

/-! ### The search (R86) -/

/-- The lowest cause of a list. -/
def lowest : List Nat → Option Nat
  | [] => none
  | c :: t => some (t.foldl min c)

/-- The faults of a unit in the order of R86: an island whose attachment page is none of the region's (R268) at its word 0.
`stray` is its first stray byte. -/
def Region.unitFaults (R : Region) (U : Site) (stray : Option Nat) : List Refused :=
  let mk (word off : Nat) (cs : List Nat) : Option Refused := (lowest cs).map fun c => { cause := c, page := U.id.page, pos := U.id.pos, word := word, off := off }
  let words := (U.marks.map (·.1)).filterMap fun w => mk w 0 (R.wordCauses U w)
  let switch := (List.range U.switch.length).filterMap fun i => mk (0xF000 + i) 0 (R.switchCauses U i)
  let strideBad := decide (U.id.pos ≤ 3) && (U.stride == 0 || decide ((if U.id.pos = 3 then 128 else 256) < U.stride))
  let stride := if strideBad then [(0x98, 0x0A)] else []
  let other := match stray with
    | some i => if i < 0x98 then (i, 0x05) :: stride else stride ++ [(i, 0x05)]
    | none => stride
  let away := if U.id.pos ≥ 4 && R.pages ≤ U.id.page then [0x09] else []
  (mk 0 0 away).toList ++ words ++ switch ++ other.filterMap fun p => mk 0xD000 (p.1 / 16) [p.2]

/-- THE FIRST FAULT of a configuration in the search order of R86, none where it is good. `config` tells a configuration image,
of which R379 step 4 reads no other field. R is the region as the image configures it, at its pages. -/
def Region.loadFault (R : Region) (self : Nat) (b : Bytes) (config : Bool) : Option Refused :=
  let sects := siteSects b ++ (imageIslands b).1
  let strays : List (Option Nat) := sects.map fun x => if config then strayByte b x else none
  let units := (List.range R.units.length).flatMap fun i => R.unitFaults (nth default R.units i) (nth none strays i)
  let whole (word off cause : Nat) : Refused := { cause := cause, page := 0, pos := 7, word := word, off := off }
  let caps := R.cfg.caps.filterMap fun p => if p.2.toNat % 256 ≠ 0 then some (whole (0xF100 + p.1) 0 0x05) else none
  let ingress := R.cfg.ingress.filterMap fun p => if p.2.toNat % 2 ^ 10 ≠ 0 then some (whole (0xF200 + p.1) 0 0x05) else none
  let stray : Option (Nat × Nat) := if config then (strayHeader b).map fun o => (o, 0x05) else none
  let fields : List (Nat × Nat) := R.headerCauses self b
  let header : List (Nat × Nat) := match stray with
    | some p => (fields.filter fun q => q.1 < p.1) ++ p :: fields.filter fun q => p.1 < q.1
    | none => fields
  let tails := if config then (tailSects b (imageIslands b).2).filterMap fun x => (strayByte b x).map fun i => whole 0xD000 (i / 16) 0x05 else []
  (units ++ caps ++ ingress ++ header.map (fun p => whole (0xE000 + p.1) 0 p.2) ++ tails).head?

end Sys2Proof.Machine
end

