-- ==== Sys2Proof/Machine/Place.lean ====
section
/-! DEFINITION. Placement (R377, R378), the Yard pool (R394) and the plans of pre-emption and compaction (R391, R393). -/

namespace Sys2Proof.Machine

/-! ### fits() and place() (R378) -/

/-- Every island of the region lies where an island of its kind and side is. -/
def Region.roles (R : Region) : Bool :=
  R.units.all fun U => decide (R.pages ≤ U.id.page) || islandPlaced U.id.pos U.side (R.pageX U.id.page) (R.pageY U.id.page)

/-- Every gateway end faces a gateway in the direction it names (R79). -/
def Region.gatewaysFace (R : Region) : Bool :=
  R.units.all fun U => U.switch.all fun e =>
    !(bit e.toNat 31 && seLoc e && seEnd e == 3) || (seOut e).all (R.facesGateway U.id.page U.id.pos)

/-- FITS() of R378, at the region's origin. -/
def Region.fits (R : Region) (self : Nat) : Bool := R.roles && R.gatewaysFace && !R.sharesPass self

/-- The region at another origin. -/
def Region.atOrigin (R : Region) (x y : Nat) : Region := { R with x0 := x, y0 := y }

/-- The cluster of a page (R369). -/
def clusterOf (x y : Nat) : Nat := 16 * (x / 32) + 4 * (y / 8) + x % 32 / 8

/-- The strike cell of a page lies in a set of deaf cells (R352, Tables 11-3). -/
def deafAt (s : State) (x y : Nat) : Bool :=
  bit (if x < 32 then s.yard.deaf0 else s.yard.deaf1).toNat (8 * (y / 4) + x % 32 / 4)

/-- The page is withdrawn from allocation: in a deaf strike cell, a retired cluster or the cluster under test. -/
def withdrawn (s : State) (x y : Nat) : Bool :=
  deafAt s x y || bit s.yard.iftRet.toNat (clusterOf x y) || s.yard.iftTest == some (clusterOf x y)

/-- The region holds a page of a rectangle. -/
def Region.meets (R : Region) (x y w h : Nat) : Bool :=
  R.resident && decide (R.x0 < x + w) && decide (x < R.x0 + R.w) && decide (R.y0 < y + h) && decide (y < R.y0 + R.h)

/-- Every page of a rectangle is free, the regions of `but` aside, or held by a region that is KILLING (R378, R386). -/
def pagesFree (s : State) (but : List Nat) (x y w h : Nat) : Bool :=
  !s.regions.any fun R => !R.killing && !but.contains R.rid && R.meets x y w h

/-- A page of a rectangle is held by a region that is KILLING. -/
def pagesDying (s : State) (x y w h : Nat) : Bool := s.regions.any fun R => R.killing && R.meets x y w h

/-- No page of a rectangle is withdrawn. -/
def pagesUsable (s : State) (x y w h : Nat) : Bool :=
  (List.range h).all fun j => (List.range w).all fun i => !withdrawn s (x + i) (y + j)

/-- place() accepts an origin. -/
def placeAt (s : State) (but : List Nat) (w h : Nat) (img : Option Region) (x y : Nat) : Bool :=
  decide (x + w ≤ 64) && decide (y + h ≤ 32) && pagesFree s but x y w h && pagesUsable s x y w h
    && (match img with
      | some R => (R.atOrigin x y).fits s.self
      | none => true)

/-- PLACE() of R378: the first origin, row by row, or the one origin of a FIXED spec. -/
def place (s : State) (but : List Nat) (w h : Nat) (img : Option Region) (fixed : Option (Nat × Nat)) : Option (Nat × Nat) :=
  match fixed with
  | some (x, y) => if placeAt s but w h img x y then some (x, y) else none
  | none => (List.range (33 - h)).findSome? fun y => (List.range (65 - w)).findSome? fun x =>
      if placeAt s but w h img x y then some (x, y) else none

/-- Some origin would do if every page were free and usable: the shape is placeable (R378). -/
def fitsSomewhere (self w h : Nat) (img : Option Region) (fixed : Option (Nat × Nat)) : Bool :=
  let ok (x y : Nat) : Bool := decide (x + w ≤ 64) && decide (y + h ≤ 32) && (match img with
    | some R => (R.atOrigin x y).fits self
    | none => true)
  match fixed with
  | some (x, y) => ok x y
  | none => (List.range (33 - h)).any fun y => (List.range (65 - w)).any fun x => ok x y

/-- Allocatable free pages of a die (Table 12-13). -/
def freePages (s : State) (die : Nat) : Nat :=
  ((List.range 32).map fun y => ((List.range 32).filter fun x =>
    pagesFree s [] (32 * die + x) y 1 1 && !pagesDying s (32 * die + x) y 1 1 && !withdrawn s (32 * die + x) y).length).sum

/-! ### The Yard pool (R394, R408) -/

/-- Bytes of the pool. -/
def Yard.poolBytes (y : Yard) : Nat := y.poolSize.toNat * 2 ^ 21

/-- The physical base of the pool. -/
def Yard.poolAddr (y : Yard) : Nat := y.poolBase.toNat * 2 ^ 21

/-- The byte ranges of the pool that hold images: offset and length. -/
def poolTaken (s : State) : List (Nat × Nat) :=
  s.yard.pool.filterMap fun p => (s.region? p.1).map fun R => (p.2, R.imageLen)

/-- The lowest offset of the pool at which an image of a length has room, beside the ranges taken. -/
def poolRoom (size : Nat) (taken : List (Nat × Nat)) (len : Nat) : Option Nat :=
  let starts : List Nat := 0 :: taken.map fun p => p.1 + p.2
  let good : List Nat := starts.filter fun o =>
    decide (o + len ≤ size) && taken.all fun p => decide (o + len ≤ p.1) || decide (p.1 + p.2 ≤ o)
  match good with
  | [] => none
  | o :: t => some (t.foldl min o)

/-- The ranges taken with an image's added, if it fits. -/
def poolAdd (s : State) (taken : List (Nat × Nat)) (R : Region) : Option (List (Nat × Nat)) :=
  (poolRoom s.yard.poolBytes taken R.imageLen).map fun o => (o, R.imageLen) :: taken

/-! ### Plans -/

/-- Insertion into a list that an order sorts, after its equals. -/
def insertBy {α : Type} (before : α → α → Bool) (a : α) : List α → List α
  | [] => [a]
  | b :: t => if before a b then a :: b :: t else b :: insertBy before a t

/-- A list sorted by an order, equals in their order. -/
def sortBy {α : Type} (before : α → α → Bool) : List α → List α
  | [] => []
  | l => l.foldl (fun t a => insertBy before a t) []

/-- The regions of the Yard in the order of their ids. -/
def State.byRid (s : State) : List Region := sortBy (fun a b => decide (a.rid < b.rid)) s.regions

/-- A region runs and the Yard does nothing to it. -/
def Region.idleRun (R : Region) : Bool := R.st == .running && !R.killing && !R.halting && !R.aside && R.errand.isNone

/-- Nothing else waits for a region's freeze or drain, which its own errand would answer. -/
def noStall (s : State) (rid : Nat) : Bool := !s.harts.any fun H => match H.stall with
  | some x => x.rid == rid
  | none => false

/-- A region with its partner: those evicted together (R391). -/
def withPartner (s : State) (R : Region) : List Region := R :: (R.partner? s).toList

/-- Victims added one by one, each with its partner, skipping those whose image does not fit in the pool (R394), until place()
finds an origin. `taken` are the pool's ranges with the victims' images. -/
def victims (s : State) (w h : Nat) (img : Option Region) (fixed : Option (Nat × Nat)) :
    List Region → List Nat → List (Nat × Nat) → Option (List Nat)
  | [], _, _ => none
  | R :: t, set, taken =>
    if set.contains R.rid then victims s w h img fixed t set taken
    else
      let team := withPartner s R
      let room : Option (List (Nat × Nat)) := team.foldl (fun o Q => o.bind fun l => poolAdd s l Q) (some taken)
      match room with
      | none => victims s w h img fixed t set taken
      | some l =>
        let set1 := set ++ team.map (·.rid)
        if (place s set1 w h img fixed).isSome then some set1 else victims s w h img fixed t set1 l

/-- The candidates for eviction that a test admits, pairs only with both members. -/
def candidates (s : State) (ok : Region → Bool) : List Region :=
  s.byRid.filter fun R => (withPartner s R).all fun Q => Q.idleRun && noStall s Q.rid && ok Q

/-- THE PRE-EMPTION PLAN (R391) at level `p`: RUNNING regions of a lower level, the lowest level first, within a level the
most recently started first. -/
def preemptPlan (s : State) (p w h : Nat) (img : Option Region) (fixed : Option (Nat × Nat)) : Option (List Nat) :=
  if s.yard.poolSize = 0#32 then none
  else
    let before (a b : Region) : Bool := decide (a.prio < b.prio) || (a.prio == b.prio && decide (b.since < a.since))
    victims s w h img fixed (sortBy before (candidates s fun R => decide (R.prio < p))) [] (poolTaken s)

/-- Moves of R393 one by one on a copy of the state, until the request fits: the region and its new origin. -/
def compactFrom (w h : Nat) (img : Option Region) (fixed : Option (Nat × Nat)) :
    List Region → State → List (Nat × Nat × Nat) → Option (List (Nat × Nat × Nat))
  | [], _, _ => none
  | R :: t, s, moves =>
    match place s [R.rid] R.w R.h (some R) none with
    | none => compactFrom w h img fixed t s moves
    | some (x, y) =>
      if x = R.x0 ∧ y = R.y0 then compactFrom w h img fixed t s moves
      else
        let s1 := s.putRegion (R.atOrigin x y)
        let moves1 := moves ++ [(R.rid, x, y)]
        if (place s1 [] w h img fixed).isSome then some moves1 else compactFrom w h img fixed t s1 moves1

/-- THE COMPACTION PLAN (R393) for a request at level `p`. -/
def compactPlan (s : State) (p w h : Nat) (img : Option Region) (fixed : Option (Nat × Nat)) : Option (List (Nat × Nat × Nat)) :=
  if !s.yard.compact || (decide (freePages s 0 < w * h) && decide (freePages s 1 < w * h)) then none
  else
    let before (a b : Region) : Bool := decide (a.prio < b.prio)
    let movers := s.byRid.filter fun R => R.idleRun && noStall s R.rid && decide (R.prio ≤ p)
    compactFrom w h img fixed (sortBy before movers) s []

/-! ### Errands -/

/-- The Yard begins an errand on a region: it halts and drains it if it runs (R393, R394). -/
def startErrand (e : Errand) (R : Region) : Region := { R with errand := some e, halting := true, draining := true }

/-- Evictions begun. -/
def startEvictions (s : State) (rids : List Nat) : State := rids.foldl (fun s r => s.modRegion r (startErrand .evict)) s

/-- Moves begun. -/
def startMoves (s : State) (ms : List (Nat × Nat × Nat)) : State :=
  ms.foldl (fun s m => s.modRegion m.1 fun R => startErrand (.move m.2.1 m.2.2 R.st true) R) s

/-- An eviction or a move of the Yard is in progress. -/
def errandsOpen (s : State) : Bool := s.regions.any fun R => !R.killing && (match R.errand with
  | some .evict => true
  | some (.move _ _ _ _) => true
  | _ => false)

/-- How a request for pages stands. -/
inductive Placement where
  | at (x y : Nat)
  | wait
  | plan (s : State)
  | none

/-- A request for pages at level `p` (R377, R378, R386, R391, R393): an origin, a wait for pages that are being released or
for an errand of the Yard, a plan begun, or nothing. -/
def findPages (s : State) (p w h : Nat) (img : Option Region) (fixed : Option (Nat × Nat)) (preempt : Bool) : Placement :=
  match place s [] w h img fixed with
  | some (x, y) => if pagesDying s x y w h then .wait else .at x y
  | Option.none =>
    if errandsOpen s then .wait
    else match compactPlan s p w h img fixed with
      | some ms => .plan (startMoves s ms)
      | Option.none =>
        match (if preempt then preemptPlan s p w h img fixed else Option.none) with
        | some vs => .plan (startEvictions s vs)
        | Option.none => .none

end Sys2Proof.Machine
end

