-- ==== Sys2Proof/Machine/Quiesce.lean ====
section
/-! DEFINITION. The life of a region at the Yard: LOADED and its release (R31, R379, R380, R419), the halt and the quiescence
(R55, R133, R235, R260, R295, R321, R346, R422), what the Yard then does with it (R352, R369, R393, R394), and its end (R33, R386). -/

namespace Sys2Proof.Machine

/-- Every hart that stalls on a region for one of some reasons retires with a status (R373). -/
def retireStalls (s : State) (rid : Nat) (kinds : List StallKind) (status : Nat) : State :=
  { s with harts := s.harts.map fun H => match H.stall with
      | some x => if x.rid == rid && kinds.contains x.kind then H.retire x.d (resultWord status 0 0) else H
      | none => H }

/-! ### LOADED (R379) -/

/-- An MXI at its reset (Table 9-1). -/
def mxiReset : Mxi :=
  { (default : Mxi) with accs := List.replicate 4 default, books := e2m1Book :: List.replicate 3 (List.replicate 16 0#16), awake := 15#4 }

/-- A unit at RGN.LOAD: its configuration items, its circuits' credits (R79), the reset of everything else; frame 0 is
allocated (R178). -/
def Region.freshUnit (R : Region) (b : Bytes) (x : Sect) (U : Site) : Site :=
  let credits := (List.range 4).map fun r => (R.routeSlots U r).getD 0
  let eng : Engine := match U.eng with
    | .mu _ =>
      let m := R.muOf b x U
      .mu { (default : Mu) with sram := m.sram, fe := m.fe,
                                pool := { alloc := if U.id.page = 0 then [0] else [], waiting := [], granted := [] } }
    | .mxi _ => .mxi mxiReset
    | e => e
  { U with queues := U.queues.map fun _ => [], credits := credits, rot := 4, eng := eng }

/-- The region as a configuration image loads it (R379). -/
def Region.loadedFrom (R : Region) (b : Bytes) : Region :=
  let R0 := R.configured b
  let sects := siteSects b ++ (imageIslands b).1
  { R0 with
    units := (List.range sects.length).map fun i => R0.freshUnit b (nth default sects i) (nth default R0.units i)
    caps0 := R0.cfg.caps, conf := none, rolls := 0, rolled := false, fault := none, xlog := { lost := 0#32, entries := [] }, released := false }

/-- The dies that hold pages of a region. -/
def Region.dies (R : Region) : List Nat := [0, 1].filter fun d => (List.range R.pages).any fun p => R.dieOf p == d

/-- DIE_CONFIG_ACK (R379): a die acknowledges the configuration; the region is LOADED once every die of its pages has, and the
instruction retires. -/
def execDieConfigAck (rid die : Nat) (s : State) : Out1 :=
  match s.region? rid with
  | none => .next s
  | some R =>
    if !R.loading || !R.dies.contains die || R.killing then .next s
    else
      let R1 := { R with acks := setAdd R.acks die }
      if R1.dies.all R1.acks.contains then
        .next (retireStalls (adoptWaiting (s.putRegion { R1 with loading := false, st := .loaded }) rid) rid [.load] 0x00)
      else .next (s.putRegion R1)

/-- The capability entries that R419 probes, and those whose tree it checks. -/
def Region.probeList (R : Region) : List (Nat × Nat) :=
  (R.cfg.caps.filterMap fun p =>
    let c := p.2.toNat
    if bit c 63 && (bit c 62 || bit c 61) then some (capDev c, capRid c) else none).eraseDups

/-- Every entry with RED and neither TOK nor MSG names a tree entry that is valid, LOCAL and of the region's partition. -/
def Region.treesReady (R : Region) (s : State) : Bool :=
  R.cfg.caps.all fun p =>
    let c := p.2.toNat
    !(bit c 63 && bit c 60 && !bit c 62 && !bit c 61)
      || (let t := s.tree (capEport c); t.v && t.loc && t.part == R.part)

/-- SOURCE_RELEASE (R31, R380): an armed region whose dies and devices have acknowledged, whose trees are ready and whose
dependency is satisfied runs. -/
def execSourceRelease (rid : Nat) (s : State) : Out1 :=
  match s.region? rid with
  | none => .next s
  | some R =>
    let depOk : Bool := match R.dep with
      | none => true
      | some d => match s.region? d with
        | some Q => Q.eosEvent
        | none => false
    if !R.armed || R.st ≠ .loaded || R.killing || R.aside || !R.probes.isEmpty || !R.treesReady s || !depOk || s.boot.thermtrip
        || !R.dies.all R.acks.contains then .next s
    else .next (s.putRegion { R with st := .running, armed := false, dep := none, released := true, since := s.cycle })

/-! ### The halt (R133, R235, R260, R381) -/

/-- Every unit has completed its taken work: result tokens have left, replies are delivered, requests issued to a slice are
done. What waits for a credit that a ring of full circuits has had in advance (log entry 19), or that an STR's packet does not have
(log entry 60), stays where it is. -/
def Region.halted (R : Region) (now : Nat) : Bool :=
  R.roll.isNone
    && (R.units.all fun U => (R.emitNext (now + 2 ^ 20) U.id).isNone && (match U.eng with | .mu m => m.portq.isEmpty | _ => true))
    && R.flights.all fun f => match f.loc with | .cfuReply _ => R.owes f | _ => true

/-! ### Quiescence -/

/-- Items sent through Virka or on their way to a receiver of this device that have not been acknowledged (R422). -/
def Region.unacked (R : Region) : List Send := R.sends.filter fun x => x.st == .ready || x.st == .sent

/-- The packets of SFEED operations in pass 2 that no credit lets go wait as result tokens, so that the operation completes
(R55, R295). -/
def Site.flushFeeds (cfg : Config) (now : Nat) (U : Site) : Site :=
  match U.eng with
  | .str x =>
    let feeding : List StrOp := x.ops.filter fun o => o.op == 0xC2 && o.st == .pass2
    let left (o : StrOp) : List Out := ((List.range (feedCount o)).drop o.fed).filterMap fun p =>
      if o.r.d0 = noDest then none
      else match feedPacket cfg.tw o p with
        | .ok t => some { route := dRoute o.r.d0, ready := now, paid := false, tok := aim t o.r.d0 }
        | .error _ => none
    { U with
      outq := U.outq ++ feeding.flatMap left
      eng := .str { x with ops := x.ops.map fun o => if o.op == 0xC2 && o.st == .pass2 then { o with fed := feedCount o } else o } }
  | _ => U

/-- The packet of an SFEED operation in pass 2 can be made. -/
def StrOp.feedOk (cfg : Config) (o : StrOp) : Bool :=
  (List.range (feedCount o)).all fun p => match feedPacket cfg.tw o p with | .ok _ => true | .error _ => false

/-- Engines that complete what they have accepted are done: STR operations past pass 1, MXI and SBE operations. -/
def Site.engineDone (U : Site) : Bool :=
  match U.eng with
  | .str x => x.ops.all fun o => o.st != .pass2
  | .mxi x => x.ops.isEmpty
  | .sbe x => x.ops.isEmpty
  | _ => true

/-- The Yard moves the region off a deaf strike cell: its sealed rounds are confirmed after the move (R352). -/
def Region.deafMove (R : Region) (s : State) : Bool :=
  R.deafPage s && (match R.errand with | some (.move _ _ _ _) => true | _ => false)

/-- Everything but the links has come to rest: sealed rounds are confirmed, no provisional line is open (R229), engines are
done, credits are home. -/
def Region.enginesDone (R : Region) (s : State) : Bool :=
  R.halted s.cycle && (R.seals.isEmpty || R.deafMove s) && R.leaving.isEmpty && (R.pair.isSome || R.deafMove s || !R.provOpen s) && R.freed.isEmpty && R.units.all Site.engineDone

/-- Accesses that have not been performed are withdrawn, the youngest first, so that each token is back where it was (R55,
R235). -/
def Region.withdrawAccesses (R : Region) (page : Nat) : Region :=
  match R.mu? page with
  | none => R
  | some m => (m.accs.filter Access.open).reverse.foldl (fun R a => R.undoFiring page a) R

/-- Operations of an STR that have moved nothing are cancelled, the youngest first (R295). -/
def Region.cancelStreams (R : Region) (u : UnitId) : Region :=
  match (R.unit? u).bind Site.str? with
  | none => R
  | some x =>
    (x.ops.filter fun o => o.st != .pass2).reverse.foldl (fun R o =>
      ((R.modStr u fun x => { x with ops := x.ops.filter fun p => p.id != o.id, tlb := [] }).putBack u 0 o.trig).modUnit u fun U =>
        { U with credits := unspend U.credits (strReserve o.op o.r o.trig.tok), eng := U.eng.given (max 1) }) R

/-- What drains leave empty: TLBs, waiters, requests for frames, reports of parked accesses; posts and restored egress stay parked (R235, R290, R294). -/
def Region.emptyWaits (R : Region) : Region :=
  { R with
    parked := R.parked.filter fun p => p.unit.pos == 8 || p.unit.pos == 9
    units := R.units.map fun U => match U.eng with
      | .mu m => { U with eng := .mu { m with
          portq := [], waiters := [], refused := [], tlb := []
          pool := { alloc := m.pool.alloc.filter (fun f => !(m.pool.granted.map (·.2.2)).contains f), waiting := [], granted := [] } } }
      | .str x => { U with eng := .str { x with tlb := [] } }
      | _ => U }

/-- THE QUIESCENCE of a region's engines. -/
def Region.quiesced (R : Region) : Region :=
  let R1 := (List.range R.pages).foldl (fun R p => R.withdrawAccesses p) R
  let R2 := (R1.units.filter fun U => U.id.pos == 4).foldl (fun R U => R.cancelStreams U.id) R1
  R2.emptyWaits

/-- The device with a region's engines quiesced: no request of it stays at the home agents or the PWS. -/
def quiesceRegion (s : State) (R : Region) : State :=
  let s1 := s.putRegion R.quiesced
  { s1 with home := { s1.home with queue := s1.home.queue.filter fun q => q.rid != R.rid }
            walks := s1.walks.filter fun w => w.rid != R.rid || w.unit.pos == 8 }

/-! ### What the Yard does with a quiesced region -/

/-- What a hart that stalls on a region waits for. -/
def stallOf (s : State) (rid : Nat) : Option StallKind :=
  s.harts.findSome? fun H => H.stall.bind fun x => if x.rid = rid && x.kind != .again && x.kind != .scan then some x.kind else none

/-- The region after an errand: in the state it had, FROZEN if it faulted meanwhile (R389), and FROZEN on its way on where a hart
waits for its freeze or drain. -/
def Region.returned (R : Region) (s : State) (back : RState) : Region :=
  let R1 := { R with errand := none }
  match stallOf s R.rid with
  | some .drain => { R1 with st := .frozen, halting := true, draining := true }
  | some .freeze => { R1 with st := .frozen, halting := true, draining := false }
  | _ =>
    let st := if back = .running && (R.fault.isSome || s.boot.thermtrip) then RState.frozen else back
    { R1 with st := st, draining := false, halting := decide (st = .frozen) && R.fault.isNone
              since := if st = .running then s.cycle else R.since }

/-- THE REGION RELOCATED (R385, R401), every item copied as SAVE and REST would: its egress lies in the Sidings of its new place (R228,
R415) and is translated again (R294), and what RGN.LOAD configured is acknowledged by the dies of the new pages. -/
def Region.relocate (R : Region) (x y : Nat) : Region :=
  let Q := R.atOrigin x y
  let siding (h : Held) : Nat :=
    if h.siding ≥ 32 then (if Q.dies.length = 1 then 32 + nth 0 Q.dies 0 else h.siding)
    else match Q.unit? (Q.recordOfKey h.key).1 with
      | some U => if U.id.pos = 4 then Q.strSiding U else Q.muSiding U.id.page
      | none => h.siding
  { Q with acks := if R.loading || R.acks.isEmpty then [] else Q.dies
           held := Q.held.map (fun h => { h with siding := siding h, pa := none })
           sends := Q.sends.map fun z => { z with gate := Q.linkSiding z.site.page } }

/-- A Siding lacks room for the region's share beside those of the other regions (R292). -/
def sharesBusy (s : State) (R : Region) : Bool :=
  let others := s.regions.filter fun Q => Q.rid != R.rid && Q.holdsShare
  (List.range 34).any fun k => decide (0 < R.share s.self k) && decide (4096 < R.share s.self k + (others.map fun Q => Q.share s.self k).sum)

/-- The image of a region put into the pool at an offset, under its tenant slot (R394, R449); where no slot is valid for its partition,
no key writes it. -/
def toPool (s : State) (R : Region) (off : Nat) : State :=
  let s1 := match s.slotOf R.part with
    | some slot => writeBytes s slot (s.yard.poolAddr + off) R.image
    | none => s
  { s1 with yard := { s1.yard with pool := s1.yard.pool ++ [(R.rid, off)] } }

/-- A pool image dropped. -/
def dropPool (s : State) (rid : Nat) : State := { s with yard := { s.yard with pool := s.yard.pool.filter fun p => p.1 != rid } }

/-- The region at an errand's destination, whose pages are free and do for it. -/
def movable (s : State) (R : Region) (x y : Nat) : Bool :=
  placeAt s [R.rid] R.w R.h (some R) x y && !sharesBusy s (R.relocate x y)

/-- The region has a page in a cluster. -/
def Region.inCluster (R : Region) (k : Nat) : Bool :=
  R.resident && (List.range R.pages).any fun p => clusterOf (R.pageX p) (R.pageY p) == k

/-- The region has a page in the cluster under test. -/
def Region.underTest (R : Region) (s : State) : Bool := s.yard.iftTest.any R.inCluster

/-- A region that a test stopped goes on: one set aside is restored onto the pages it had (R369), one still draining keeps them; both
in the state they had. -/
def Region.untested (R : Region) (s : State) : Region :=
  if R.aside then { R.relocate R.x0 R.y0 with aside := false }
  else match R.errand with
    | some (.test back) =>
      let Q := R.returned s back
      { Q with roll := R.roll.map fun x => { x with back := Q.st } }
    | _ => R

/-- A test abandoned: the cluster returns untested, the regions that it stopped go on (R370). -/
def abandonTest (s : State) : State :=
  let asides := (s.regions.filter Region.aside).map (·.rid)
  let s1 := { s with
    regions := s.regions.map fun R => R.untested s
    yard := { s.yard with iftTest := none } }
  asides.foldl dropPool s1

/-- A quiesced region set aside for a test, in the state it had; no cluster is tested where the pool cannot hold it (R369). -/
def finishAside (s : State) (R : Region) (back : RState) : State :=
  match poolRoom s.yard.poolBytes (poolTaken s) R.imageLen with
  | none => abandonTest (s.putRegion (R.returned s back))
  | some off =>
    let Q := { R with st := .quiesced, halting := false, draining := false, errand := none }
    let s1 := toPool (s.putRegion Q) Q off
    s1.putRegion { Q.returned s back with aside := true, since := R.since }

/-- AN ERRAND on a quiesced region (R352, R369, R393, R394): the eviction, the move or the setting aside; given up where the
pool or the pages fail it. A region of the cluster under test that cannot move after all is set aside. -/
def finishErrand (s : State) (R : Region) : Errand → State
  | .evict =>
    match poolRoom s.yard.poolBytes (poolTaken s) R.imageLen with
    | none => s.putRegion (R.returned s .running)
    | some off =>
      let Q := { R with st := .quiesced, halting := false, draining := false, errand := none }
      let s1 := toPool (s.putRegion Q) Q off
      (s1.putRegion { Q with st := .evicted, since := s.cycle, oneSlice := false, backTo := .running }).pend 4
  | .move x y back event =>
    if movable s R x y then
      if pagesDying s x y R.w R.h then s.putRegion R
      else
        let s1 := s.putRegion ((R.relocate x y).returned s back)
        if event then s1.pend 4 else s1
    else if s.regions.any fun Q => Q.rid != R.rid && Q.errand.isSome && Q.meets x y R.w R.h then s.putRegion R
    else if R.underTest s then finishAside s R back
    else s.putRegion (R.returned s back)
  | .test back => finishAside s R back

/-- A quiesced region: RGN.DRAIN retires and it is QUIESCED, or its errand ends. -/
def settleDrain (s : State) (R : Region) : State :=
  let s1 := quiesceRegion s R
  match s1.region? R.rid with
  | none => s1
  | some Q =>
    match Q.errand with
    | some e => finishErrand s1 Q e
    | none => retireStalls (s1.putRegion { Q with st := .quiesced, halting := false, draining := false }) R.rid [.drain] 0x00

/-- An eviction whose region has frozen on a fault is given up: a FROZEN region is never evicted (R391). -/
def Region.dropEviction (R : Region) : Region :=
  if R.errand = some .evict && R.fault.isSome then { R with errand := none, draining := false, halting := false } else R

/-- FREEZE_HALT_REPORT (R133, R381, R382): a halting region whose units have all halted is FROZEN and RGN.FREEZE retires; a
draining one goes on to quiescence, its SFEED packets first, and is QUIESCED once its links are at rest too (R422). -/
def execFreezeHaltReport (rid : Nat) (s : State) : Out1 :=
  match s.region? rid with
  | none => .next s
  | some R0 =>
    let R := R0.dropEviction
    if R.killing || R.aside || R.roll.isSome || !(R.halting || R.draining) then .next s
    else if R.st = .quiesced && R.errand.isSome then .next (settleDrain s R)
    else if !(R.st == .running || R.st == .frozen) then .next s
    else if !R.halted s.cycle then .next s
    else if R.st = .running then .next (retireStalls (s.putRegion { R with st := .frozen }) rid [.freeze] 0x00)
    else if !R.draining then .next (retireStalls (s.putRegion R) rid [.freeze] 0x00)
    else
      let feeds : Bool := R.units.any fun U => (match U.eng with
        | .str x => x.ops.any fun o => o.op == 0xC2 && o.st == .pass2 && decide (o.fed < feedCount o) && o.feedOk R.cfg
        | _ => false)
      if feeds then .next (s.putRegion { R with units := R.units.map (Site.flushFeeds R.cfg s.cycle) })
      else if R.enginesDone s && R.unacked.isEmpty then .next (settleDrain s R)
      else .next (s.putRegion R)

/-- A send whose path is down at this device, or that has waited 100 ms for its acknowledgement (R422). -/
def Send.stuck (x : Send) (s : State) : Bool :=
  let down : Bool := match firstPort s s.self x.pkt.dstDev x.pkt.dstRid x.pkt.eport with
    | some p => !s.portUp p
    | none => true
  (x.pkt.dstDev != s.self && down) || decide (x.since + 110000000 ≤ s.cycle)

/-- DRAIN_LINKDOWN (R422): a draining region with its engines at rest and an item that cannot be acknowledged stays FROZEN, its
engines quiesced, and RGN.DRAIN returns LINKDOWN; an errand is given up. -/
def execDrainLinkdown (rid : Nat) (s : State) : Out1 :=
  match s.region? rid with
  | none => .next s
  | some R =>
    if R.killing || R.roll.isSome || R.st ≠ .frozen || !R.draining || !R.enginesDone s || !R.unacked.any (·.stuck s) then .next s
    else
      let s1 := quiesceRegion s R
      match s1.region? rid with
      | none => .next s
      | some Q =>
        match Q.errand with
        | some .evict => .next (s1.putRegion (Q.returned s .running))
        | some (.move _ _ back _) =>
          let s2 := s1.putRegion (Q.returned s back)
          .next (if Q.underTest s then abandonTest s2 else s2)
        | some (.test back) => .next (abandonTest (s1.putRegion (Q.returned s back)))
        | none => .next (retireStalls (s1.putRegion { Q with draining := false, halting := Q.fault.isNone }) rid [.drain] 0x0E)

/-! ### The end (R33, R386) -/

/-- A unit with everything in it dropped. -/
def Site.emptied (U : Site) : Site :=
  { U with
    queues := U.queues.map fun _ => []
    slots := []
    outq := []
    eng := match U.eng with
      | .cell => .cell
      | .mu m => .mu { (default : Mu) with sram := m.sram, fe := m.fe }
      | .str _ => .str default
      | .mxi _ => .mxi mxiReset
      | .sbe _ => .sbe default }

/-- The ALLOW credits that the tokens of a region hold of other regions (R82). -/
def Region.heldAllow (R : Region) : List (UnitId × Nat × Nat) :=
  ((R.flights.map fun f => (f.org, f.route, f.sid))
    ++ (R.units.flatMap fun U => U.queues.flatMap fun q => q.map fun t => (t.org, t.route, t.sid))
    ++ R.freed).eraseDups.filter fun x => x.1.pos == 7 && x.1.page != R.rid

/-- What RGN.KILL leaves of a region: items sent and confirmed await their acknowledgement (R33, R294). -/
def Region.killed (R : Region) : Region :=
  { R with
    killing := true, armed := false, dep := none, probes := [], loading := false, halting := false, draining := false
    errand := none, aside := false, roll := none
    seals := [], errTags := [], heldLog := [], units := R.units.map Site.emptied, flights := [], freed := [], markers := []
    held := [], leaving := [], sends := R.sends.filter (fun x => x.st == .ready || x.st == .sent), items := [], buffers := [], calls := []
    responses := [], parked := [] }

/-- RGN.KILL (R386): everything the region holds is dropped, its provisional lines are restored, its keys, comparator entries,
reports and pool image go, its part in reductions and its contributions at the home agents too (R33), the senders of messages that it
has not taken are answered (R426), and a region that depends on it loses its dependency (R380). -/
def killRegion (s : State) (R : Region) : State :=
  let alone := (R.partner? s).isNone
  let lines := if alone then s.home.prov.filter fun p => p.rid == R.keyRid else []
  let s1 := lines.reverse.foldl restoreLine s
  let s2 : State := { s1 with
    home := { s1.home with
      prov := s1.home.prov.filter fun p => !(alone && p.rid == R.keyRid)
      dedup := s1.home.dedup.filter fun d => !(alone && d.key.rid == R.keyRid)
      held := s1.home.held.filter fun c => !(alone && c.key.rid == R.keyRid)
      reports := s1.home.reports.filter fun c => c.key.rid != R.rid
      queue := s1.home.queue.filter fun q => q.rid != R.rid }
    comp := s1.comp.filter fun c => c.rid != R.rid
    walks := s1.walks.filter fun w => w.rid != R.rid
    regions := s1.regions.map fun Q =>
      if Q.armed && Q.dep == some R.rid && Q.rid != R.rid then
        if R.eosEvent then { Q with dep := none } else { Q with armed := false, dep := none, depLost := true }
      else Q
    yard := { s1.yard with
      xpark := s1.yard.xpark.filter fun x => x.rid != R.rid
      xpopped := s1.yard.xpopped.filter fun x => x.rid != R.rid
      inval := s1.yard.inval.filter fun x => x.1 != R.rid
      restoring := if s1.yard.restoring = some R.rid then none else s1.yard.restoring } }
  let s3 := (R.heldAllow).foldl (fun s x => s.returnAllow R.part x.1.page (x.2.1 - 16)) s2
  let late := s3.links.waiting.filter fun p => p.dstRid == R.rid && p.part == R.part
  let undelivered := R.items.filterMap fun i => if i.onWay || i.stamped.isSome then none else i.pkt
  let s4 := (undelivered ++ late).foldl dropItem { s3 with links := { s3.links with
    waiting := s3.links.waiting.filter fun p => !late.contains p
    insts := s3.links.insts.map fun x => if x.loc.any fun l => l.1 == R.rid then { x with loc := none, item := none } else x } }
  (List.range 64).foldl (fun s _ => queueUnreported s) ((dropPool s4 R.rid).putRegion R.killed)

/-- KILL_COMPLETE (R33, R386): a killed region whose operations have all completed or been dropped gives up its pages and
its id. -/
def execKillComplete (rid : Nat) (s : State) : Out1 :=
  match s.region? rid with
  | none => .next s
  | some R =>
    if !R.killing || !R.unacked.isEmpty then .next s
    else .next { s with regions := s.regions.filter fun Q => Q.rid != rid }

end Sys2Proof.Machine
end

