-- ==== Sys2Proof/Machine/Yard.lean ====
section
/-! DEFINITION. The RGN instructions (R373 to R388). -/

namespace Sys2Proof.Machine

/-! ### What every custom instruction does (R373 to R375) -/

/-- The trap of a custom instruction at a level that Table 2-20 does not list (R88). -/
def trapCustom (s : State) (i : Instr) : State := trapIllegal s (nth 0#32 (encode i) 0)

/-- The hart stalls on a region, keeping the time at which its instruction arrived (R373). -/
def stallOn (s : State) (rid : Nat) (d : BitVec 5) (kind : StallKind) : State :=
  s.modHart s.me fun H => { H with stall := some { rid := rid, d := d, kind := kind, since := match H.stall with
    | some x => x.since
    | none => s.ticks } }

/-- No instruction for the region from another hart arrived earlier and has not retired (R373). -/
def myTurn (s : State) (rid : Nat) : Bool :=
  (List.range s.harts.length).all fun h => decide (h = s.me) || (match (s.hart h).stall, (s.hart s.me).stall with
    | some x, some y => x.rid != rid || decide (y.since < x.since)
    | some x, none => x.rid != rid
    | none, _ => true)

/-- A SUBMIT runs: the RGN instructions that reach the Yard wait (R460). -/
def submitRuns (s : State) : Bool := s.harts.any fun H => H.stall.any fun x => x.kind == .submit

/-- An instruction that names a region (R373 to R375): the trap of R88, DENIED in lockdown (R453), BADID, the wait for its
turn and for a move of the Yard or a test (Table 12-18), and then what `f` does. -/
def onRegion (s : State) (i : Instr) (d : BitVec 5) (handle : Nat) (locked : Bool) (f : Region → State) : Out1 :=
  if !s.sm then .next (trapCustom s i)
  else if locked && s.trust.lock then .next (retStatus s d 0x0B)
  else match s.named handle with
    | none => .next (retStatus s d 0x02)
    | some R =>
      let moving : Bool := R.aside || (match R.errand with
        | some (.move _ _ _ _) => true
        | some (.test _) => true
        | _ => false)
      if moving || !myTurn s R.rid || submitRuns s then .next (stallOn s R.rid d .again) else .next (f R)

/-- OK with a value in rd[63:32]. -/
def retHigh (s : State) (d : BitVec 5) (v : Nat) : State := retire s d (resultWord 0 0 (2 ^ 16 * v))

/-- A 4 KiB-aligned address. -/
def aligned4k (v : W64) : Bool := v.toNat % 4096 == 0

/-! ### Images as operands -/

/-- An image read through the hart's translation (R373). -/
inductive ImgRes where
  | wait
  | trap (code : W64) (va : Nat)
  | bad
  | ok (b : Bytes)

/-- The bytes of an operand. -/
def State.bytesOf (s : State) (pa : Nat → Nat) (n : Nat) : Bytes := fun i => if i < n then s.operandByte pa i else 0#8

/-- The image at an address, of one of some kinds: its header first, then TOTAL bytes. -/
def State.readImage (s : State) (va : W64) (kinds : List Nat) : ImgRes :=
  match s.operand .load va 0x2000 with
  | .wait => .wait
  | .trap c a => .trap c a
  | .ok pa =>
    let h := s.bytesOf pa 0x2000
    let total := numAt h 0x10 8
    if numAt h 0 8 != imageMagic || total > 2 ^ 40 then .bad
    else match s.operand .load va total with
      | .wait => .wait
      | .trap c a => .trap c a
      | .ok pa =>
        let b := s.bytesOf pa total
        if kinds.any (imageOk b) then .ok b else .bad

/-- What follows a read of an image: the wait, the trap, BADIMG, or what `f` does. -/
def withImage (s : State) (rid : Nat) (d : BitVec 5) (x : ImgRes) (f : Bytes → State) : State :=
  match x with
  | .wait => stallOn s rid d .again
  | .trap c a => trapOperand s c a
  | .bad => retStatus s d 0x07
  | .ok b => f b

/-! ### RGN.ALLOC (R377) -/

/-- A placement spec within its ranges. -/
def specOk (a : Nat) : Bool :=
  decide (1 ≤ bits a 7 0) && decide (bits a 7 0 ≤ 64) && decide (1 ≤ bits a 15 8) && decide (bits a 15 8 ≤ 32)
    && decide (bits a 19 16 ≤ 11) && bits a 31 22 == 0 && bits a 39 38 == 0 && bits a 63 45 == 0

/-- The lowest-numbered free RID. -/
def State.freeRid (s : State) : Option Nat := (List.range 2048).find? fun r => (s.region? r).isNone

/-- The generation of a RID's next issue (R374). -/
def State.nextGen (s : State) (rid : Nat) : Nat := match mapGet s.yard.gens rid with
  | some g => g % 65535 + 1
  | none => 1

/-- An ALLOCATED region: its pages, its level, its SRAM zero and every bit empty (R209). -/
def freshRegion (rid gen prio x y w h : Nat) : Region :=
  { (default : Region) with rid := rid, gen := gen, st := .allocated, prio := prio, x0 := x, y0 := y, w := w, h := h }

/-- The region issued at an origin. -/
def allocAt (s : State) (d : BitVec 5) (prio w h x y : Nat) : State :=
  match s.freeRid with
  | none => retStatus s d 0x04
  | some rid =>
    let g := s.nextGen rid
    let R := { freshRegion rid g prio x y w h with dev := s.self }
    let s1 := { s with regions := s.regions ++ [R], yard := { s.yard with gens := mapPut s.yard.gens rid g } }
    retHigh s1 d R.handle

/-- The Yard finds pages for an ALLOC, or says why not (R377, R378, R391, R393). -/
def allocPages (s : State) (d : BitVec 5) (a : Nat) (img : Option Region) : State :=
  let w := bits a 7 0
  let h := bits a 15 8
  let p := bits a 19 16
  let fixed := if bit a 21 then some (bits a 37 32, bits a 44 40) else none
  if s.freeRid.isNone then retStatus s d 0x04
  else match findPages s p w h img fixed (!bit a 20) with
    | .at x y => allocAt s d p w h x y
    | .wait => stallOn s 2048 d .again
    | .plan s1 => stallOn s1 2048 d .again
    | .none =>
      let shape := img.isSome && (!fitsSomewhere s.self w h img fixed || (place s [] w h none fixed).isSome)
      retStatus s d (if shape then 0x08 else 0x04)

/-- RGN.ALLOC (R377). -/
def execRgnAlloc (d a t : BitVec 5) (s : State) : Out1 :=
  let v := (s.x a).toNat
  if !s.sm then .next (trapCustom s (.rgnAlloc d a t))
  else if s.trust.lock then .next (retStatus s d 0x0B)
  else if !specOk v || !aligned4k (s.x t) then .next (retStatus s d 0x03)
  else if !myTurn s 2048 || submitRuns s then .next (stallOn s 2048 d .again)
  else if s.x t = 0#64 then .next (allocPages s d v none)
  else .next (withImage s 2048 d (s.readImage (s.x t) [0, 1]) fun b =>
    if imageW b ≠ bits v 7 0 || imageH b ≠ bits v 15 8 then retStatus s d 0x08
    else allocPages s d v (some (({ freshRegion 0 1 0 0 0 (imageW b) (imageH b) with dev := s.self } : Region).configured b)))

/-! ### RGN.LOAD (R379) -/

/-- The region with the bank key that RGN.LOAD draws (R210). -/
def Region.drawKey (R : Region) (ticks : Nat) : Region := { R with cfg := { R.cfg with bk := (Config.randomBits ticks).truncate 4 } }

/-- The primary that a LOAD names is paired with the region (R366, R379): the status that stands against it, if any. The images are
compared, not what CAPDATA or the drawing of a bank key has changed since. -/
def pairStatus (s : State) (R : Region) (P : Nat) : Option Nat :=
  if P = 0 then none
  else match s.named P with
    | none => some 0x02
    | some Q => if Q.rid = R.rid || Q.st ≠ .loaded || Q.pair.isSome || { Q.cfg with caps := Q.caps0, bk := R.cfg.bk } ≠ R.cfg
      || Q.units ≠ R.units then some 0x03 else none

/-- The checks of a configuration at the region's pages in the order of R379, and then its loading. -/
def loadImage (s : State) (d : BitVec 5) (R0 : Region) (P : Nat) (b : Bytes) : State :=
  let R := { R0 with dev := s.self }
  if imageW b ≠ R.w || imageH b ≠ R.h then retStatus s d 0x08
  else
    let Q := R.loadedFrom b
    if !Q.roles then retStatus s d 0x08
    else match Q.loadFault s.self b true with
      | some f => retire s d (resultWord 0x06 f.cause f.value)
      | none =>
        if sharesBusy s Q then retStatus s d 0x05
        else match pairStatus s Q P with
          | some n => retStatus s d n
          | none =>
            let pair := (s.named P).map fun p => Pair.shadow p.rid
            let s1 := s.putRegion { Q.drawKey s.ticks with loading := true, acks := [], pair := if P = 0 then none else pair }
            let s2 := match (if P = 0 then none else s.named P) with
              | some p => s1.modRegion p.rid fun p => { p with pair := some (.primary R.rid) }
              | none => s1
            stallOn s2 R.rid d .load

/-- RGN.LOAD (R379): the hart stalls until every die has acknowledged the configuration. -/
def execRgnLoad (d a t : BitVec 5) (s : State) : Out1 :=
  let P := (s.x a).toNat / 2 ^ 32
  onRegion s (.rgnLoad d a t) d ((s.x a).toNat % 2 ^ 32) true fun R =>
    if P ≠ 0 && (s.named P).isNone then retStatus s d 0x02
    else if R.st ≠ .allocated || R.loading then retStatus s d 0x01
    else if !aligned4k (s.x t) then retStatus s d 0x03
    else withImage s R.rid d (s.readImage (s.x t) [0]) (loadImage s d R P)

/-! ### RGN.START (R380) -/

/-- The region armed (R380, R419). -/
def Region.arm (R : Region) (dep : Option Nat) : Region :=
  { R with armed := true, dep := dep, depLost := false, probes := R.probeList }

/-- RGN.START (R380): a LOADED region is armed, a FROZEN or QUIESCED one resumes, but not after a thermal trip (R470). -/
def execRgnStart (d a t : BitVec 5) (s : State) : Out1 :=
  onRegion s (.rgnStart d a t) d (s.x a).toNat true fun R =>
    let v := (s.x t).toNat
    match R.st with
    | .loaded =>
      if v = 0 then retStatus (s.putRegion (R.arm none)) d 0x00
      else match s.named v with
        | none => retStatus s d 0x02
        | some D =>
          if D.rid = R.rid then retStatus s d 0x03
          else retStatus (s.putRegion (R.arm (if D.eosEvent then none else some D.rid))) d 0x00
    | .frozen | .quiesced =>
      if v ≠ 0 then retStatus s d 0x03
      else if s.boot.thermtrip then retStatus s d 0x01
      else if R.roll.isSome || R.errand.isSome || (R.st = .frozen && R.provOpen s && R.pair.isNone) then stallOn s R.rid d .again
      else dispatchSends (retStatus (s.putRegion (R.resume s.cycle)) d 0x00) R.rid
    | _ => retStatus s d 0x01

/-! ### RGN.FREEZE and RGN.DRAIN (R381, R382) -/

/-- The state that the supervisor sees: a region that the Yard evicts is RUNNING until it is EVICTED (R30, R391). -/
def Region.shown (R : Region) : RState := if R.errand = some .evict then .running else R.st

/-- The region froze by a fault of this very cycle (R412). -/
def Region.faultedNow (R : Region) (now : Nat) : Bool :=
  R.st == .frozen && R.faultAt == now && (R.fault.any fun f => f.cause != .securityAlarm)

/-- RGN.FREEZE (R381): the freeze wave starts; the hart stalls until every unit has halted. A region that a freezing fault of the same
cycle has frozen is FROZEN already: OK (R412). -/
def execRgnFreeze (d a : BitVec 5) (s : State) : Out1 :=
  onRegion s (.rgnFreeze d a) d (s.x a).toNat true fun R =>
    if R.faultedNow s.cycle then retStatus s d 0x00
    else if R.st ≠ .running || R.errand.isSome then retStatus s d 0x01
    else stallOn (s.putRegion { R with halting := true }) R.rid d .freeze

/-- RGN.DRAIN (R382): a RUNNING region is frozen first; the hart stalls until every engine is quiescent. -/
def execRgnDrain (d a : BitVec 5) (s : State) : Out1 :=
  onRegion s (.rgnDrain d a) d (s.x a).toNat true fun R =>
    if !(R.st == .running || R.st == .frozen) || R.errand.isSome then retStatus s d 0x01
    else stallOn (s.putRegion { R with halting := R.halting || R.st == .running, draining := true }) R.rid d .drain

/-! ### RGN.SAVE, RGN.REST, RGN.MOVE (R383 to R385) -/

/-- Size of the region's image in 4 KiB units. -/
def Region.imgSize (R : Region) : Nat := ceilDiv R.imageLen 4096

/-- RGN.SAVE (R383): the context image is written to the buffer; a strike during the scan returns STRUCK (R55). -/
def execRgnSave (d a t : BitVec 5) (s : State) : Out1 :=
  onRegion s (.rgnSave d a t) d (s.x a).toNat true fun R =>
    if R.st ≠ .quiesced then retStatus s d 0x01
    else if !aligned4k (s.x t) then retStatus s d 0x03
    else if R.roll.isSome then stallOn s R.rid d .again
    else match s.operand .store (s.x t) R.imageLen with
      | .wait => stallOn s R.rid d .again
      | .trap c va => trapOperand s c va
      | .ok pa => if s.turn.slow then stallOn s R.rid d .scan else retHigh (operandWrite pa 0 R.image s) d R.imgSize

/-- A byte of a region's overflow area (R71, R177), as the image's translation and the tenant slot read it; what no page backs holds no
slot. -/
def overflowByte (s : State) (R : Region) (b : Bytes) : Bytes := fun i =>
  let va := numAt b 0x28 8 + i
  match s.slotOf R.part, walkVa s (numAt b 0x20 8) va true false with
  | some slot, .page t => if windowOk s (t.paOf va) false then nth 0#8 (readBytes s slot (t.paOf va) 1) 0 else 0#8
  | _, _ => 0#8

/-- A context image installed in an ALLOCATED region (R384). -/
def restImage (s : State) (d : BitVec 5) (R0 : Region) (b : Bytes) : State :=
  let R := { R0 with dev := s.self }
  if imageW b ≠ R.w || imageH b ≠ R.h then retStatus s d 0x08
  else
    let C := R.configured b
    if !C.fits s.self then retStatus s d 0x08
    else match C.loadFault s.self b false with
      | some f => retire s d (resultWord 0x06 f.cause f.value)
      | none =>
        if sharesBusy s C then retStatus s d 0x05
        else
          let Q0 := { R.ofImage s.cycle b (overflowByte s R b) with st := .quiesced, released := true, acks := R.dies }
          let id := s.links.nextId
          let Q := { Q0 with sends := (List.range Q0.sends.length).map fun i =>
            let x := nth default Q0.sends i
            { x with pkt := { x.pkt with id := id + i } } }
          let s1 := { s.putRegion Q with links := { s.links with nextId := id + Q.sends.length } }
          retStatus (adoptWaiting (askHeld s1 Q) R.rid) d 0x00

/-- RGN.REST (R384). -/
def execRgnRest (d a t : BitVec 5) (s : State) : Out1 :=
  onRegion s (.rgnRest d a t) d (s.x a).toNat true fun R =>
    if R.st ≠ .allocated || R.loading then retStatus s d 0x01
    else if !aligned4k (s.x t) then retStatus s d 0x03
    else withImage s R.rid d (s.readImage (s.x t) [1]) (restImage s d R)

/-- RGN.MOVE (R385); a strike during the copy returns STRUCK (R55). -/
def execRgnMove (d a t : BitVec 5) (s : State) : Out1 :=
  onRegion s (.rgnMove d a t) d (s.x a).toNat true fun R =>
    let v := (s.x t).toNat
    let x := bits v 5 0
    let y := bits v 12 8
    if R.st ≠ .quiesced then retStatus s d 0x01
    else if v ≠ x + 2 ^ 8 * y then retStatus s d 0x03
    else if !placeAt s [R.rid] R.w R.h none x y then retStatus s d 0x04
    else if !(R.atOrigin x y).fits s.self then retStatus s d 0x08
    else if sharesBusy s (R.relocate x y) then retStatus s d 0x05
    else if R.roll.isSome || pagesDying s x y R.w R.h then stallOn s R.rid d .again
    else if s.turn.slow then stallOn s R.rid d .scan
    else retStatus (s.putRegion (R.relocate x y)) d 0x00

/-! ### RGN.KILL, RGN.PRIO, RGN.STAT (R386 to R388) -/

/-- RGN.KILL (R386). -/
def execRgnKill (d a : BitVec 5) (s : State) : Out1 :=
  onRegion s (.rgnKill d a) d (s.x a).toNat false fun R => retStatus (killRegion s R) d 0x00

/-- RGN.PRIO (R387). -/
def execRgnPrio (d a t : BitVec 5) (s : State) : Out1 :=
  onRegion s (.rgnPrio d a t) d (s.x a).toNat true fun R =>
    let v := (s.x t).toNat
    if v > 11 then retStatus s d 0x03 else retStatus (s.putRegion { R with prio := v }) d 0x00

/-- The code of a state (Table 12-3). -/
def RState.code : RState → Nat
  | .free => 0 | .allocated => 1 | .loaded => 2 | .running => 3 | .frozen => 4 | .quiesced => 5 | .evicted => 6

/-- A path of the region stalls by R51: an undo log or a Siding share has no room. -/
def Region.stalled (R : Region) (self : Nat) : Bool :=
  (R.units.any fun U => match U.eng with
    | .mu m => !m.undoRoom 1 || decide (4096 ≤ m.dedup.length)
    | .mxi x => decide (256 ≤ x.keys.length)
    | .sbe x => decide (256 ≤ x.keys.length)
    | _ => false)
    || (List.range 34).any fun k => decide (0 < R.share self k) && decide (R.share self k ≤ R.heldIn k)

/-- The state word of a region (Table 12-3). -/
def Region.statWord (R : Region) (self : Nat) : Nat :=
  2 ^ 8 * R.shown.code + 2 ^ 12 * R.prio + 2 ^ 16 * b2n R.armed + 2 ^ 17 * b2n R.depLost + 2 ^ 18 * b2n R.eosEvent
    + 2 ^ 19 * b2n R.fault.isSome
    + 2 ^ 21 * b2n (match R.pair with | some (.shadow _) => true | _ => false) + 2 ^ 22 * b2n R.isPrimary
    + 2 ^ 23 * b2n (R.stalled self) + 2 ^ 24 * b2n R.rolled + 2 ^ 25 * b2n (!R.parked.isEmpty)
    + 2 ^ 32 * (if R.shown = .quiesced then R.imgSize else 0)

/-- The status block (Table 12-4). -/
def statBlock (word : Nat) (rolls : Nat) (conf : Option (BitVec 12)) (fault : Option FaultRec) (x : XLog) : List Byte :=
  fieldBytes 2048 ([(0, 8, word), (8, 8, rolls), (0x10, 2, roundOrNone conf), (0x20, 32, (fault.map faultNum).getD 0)] ++ xlogFields 0x40 x)

/-- A log with nothing in it. -/
def XLog.empty : XLog := { lost := 0#32, entries := [] }

/-- RGN.STAT of a region, or of a stale handle whose RID has not been reissued (R388). -/
def execRgnStat (d a t : BitVec 5) (s : State) : Out1 :=
  let v := (s.x a).toNat
  let rid := v % 2 ^ 11
  let block := s.x t &&& ~~~ 1#64
  let stale : Bool := v == rid + 2 ^ 16 * (bits v 31 16) && mapGet s.yard.gens rid == some (bits v 31 16)
  let go (word rolls : Nat) (conf : Option (BitVec 12)) (fault : Option FaultRec) (x : XLog) (s1 s2 : State) : State :=
    if s.x t = 0#64 then retire s1 d (BitVec.ofNat 64 word)
    else match s.operand .store block 2048 with
      | .wait => stallOn s rid d .again
      | .trap c va => trapOperand s c va
      | .ok pa => retire (operandWrite pa 0 (statBlock word rolls conf fault x) (if bit (s.x t).toNat 0 then s2 else s1)) d (BitVec.ofNat 64 word)
  if s.sm && (s.named v).isNone && stale then
    if block.toNat % 64 ≠ 0 then .next (retStatus s d 0x03)
    else .next (go (2 ^ 20 * b2n (s.region? rid).isSome) 0 none none XLog.empty s s)
  else onRegion s (.rgnStat d a t) d v false fun R =>
    if block.toNat % 64 ≠ 0 then retStatus s d 0x03
    else go (R.statWord s.self) R.rolls R.conf R.fault R.xlog (s.putRegion { R with rolled := false })
      (s.putRegion { R with rolled := false, xlog := XLog.empty })

end Sys2Proof.Machine
end

