-- ==== Sys2Proof/Machine/Share.lean ====
section
/-! DEFINITION. What the Yard does of its own accord with EVICTED regions: restores, slices and the minimum share (R392). -/

namespace Sys2Proof.Machine

/-- Fabric cycles in a slice: a microsecond is 1,100 cycles (R8, R407). -/
def Yard.sliceCycles (y : Yard) : Nat := y.slice.toNat * 1100

/-- A hart waits in RGN.ALLOC: the Yard restores nothing onto the pages it makes free. -/
def allocWaits (s : State) : Bool := s.harts.any fun H => match H.stall with
  | some x => x.rid == 2048
  | none => false

/-- An EVICTED region that a restore may bring back. -/
def Region.out (R : Region) : Bool := R.st == .evicted && !R.killing

/-- place() finds an EVICTED region an origin, and the Sidings have room for its shares. -/
def originFor (s : State) (R : Region) : Option (Nat × Nat) :=
  (place s [] R.w R.h (some R) none).filter fun o => !sharesBusy s (R.relocate o.1 o.2)

/-- The EVICTED regions in the order of restores: descending level, the longest evicted first (R392). -/
def restoreOrder (s : State) : List Region :=
  let before (a b : Region) : Bool := decide (b.prio < a.prio) || (a.prio == b.prio && decide (a.since < b.since))
  sortBy before (s.byRid.filter Region.out)

/-- The EVICTED region that is restored next, with its origin: the one that evictions were made for, else the first that can be
placed. -/
def nextRestore (s : State) : Option (Region × Nat × Nat) :=
  let order : List Region := match s.yard.restoring with
    | some r => (restoreOrder s).filter fun R => R.rid == r
    | none => restoreOrder s
  order.findSome? fun R => (originFor s R).map fun o => (R, o.1, o.2)

/-- YARD_RESTORE (R392): the next region to be restored comes back from the pool at the first origin; one that no origin serves
may have others moved for it (R393). -/
def execYardRestore (rid : Nat) (s : State) : Out1 :=
  match s.region? rid with
  | none => .next s
  | some R =>
    if !R.out || s.boot.thermtrip || allocWaits s || errandsOpen s then .next s
    else match nextRestore s with
      | some (Q, x, y) =>
        if Q.rid ≠ rid || pagesDying s x y R.w R.h then .next s
        else
          let back := if R.backTo = .free then RState.running else R.backTo
          let s1 := dropPool (s.putRegion { R.relocate x y with st := back, since := s.cycle, backTo := .running }) rid
          .next (adoptWaiting ({ s1 with yard := { s1.yard with restoring := none } }.pend 4) rid)
      | none =>
        let s1 : State := { s with yard := { s.yard with restoring := none } }
        if (restoreOrder s).head? != some R then .next s1
        else match compactPlan s1 R.prio R.w R.h (some R) none with
          | some ms => .next (startMoves s1 ms)
          | none => .next s1

/-- Evictions begun to make room for an EVICTED region. -/
def makeRoom (s : State) (R : Region) (vs : List Nat) : State :=
  let s1 := startEvictions s vs
  { s1 with yard := { s1.yard with restoring := some R.rid } }

/-- YARD_SLICE_EXPIRY (R392): for an EVICTED region that cannot be placed, RUNNING regions of its level that have run for a slice
are evicted, those that have run longest first; a region restored for one slice gives way when that is over. -/
def execYardSliceExpiry (rid : Nat) (s : State) : Out1 :=
  match s.region? rid with
  | none => .next s
  | some R =>
    if s.yard.poolSize = 0#32 || allocWaits s || errandsOpen s || s.yard.restoring.isSome then .next s
    else if R.oneSlice && R.idleRun && noStall s rid && decide (R.since + s.yard.sliceCycles ≤ s.cycle) then
      let others := (restoreOrder s).isEmpty
      let team := (withPartner s R).map (·.rid)
      if others then .next (s.putRegion { R with oneSlice := false }) else .next (startEvictions s team)
    else if !R.out || (originFor s R).isSome then .next s
    else
      let ok (Q : Region) : Bool := Q.prio == R.prio && decide (Q.since + s.yard.sliceCycles ≤ s.cycle)
      let before (a b : Region) : Bool := decide (a.since < b.since)
      match victims s R.w R.h (some R) none (sortBy before (candidates s ok)) [] (poolTaken s) with
      | some vs => .next (makeRoom s R vs)
      | none => .next s

/-- YARD_MINIMUM_SHARE (R392): a region that has been EVICTED for MINWAIT slices is restored for one slice; RUNNING regions of the
lowest levels give way, whatever their level, the most recently started first. -/
def execYardMinimumShare (rid : Nat) (s : State) : Out1 :=
  match s.region? rid with
  | none => .next s
  | some R =>
    if !R.out || s.yard.minwait = 0#16 || allocWaits s || errandsOpen s || s.yard.restoring.isSome
        || decide (s.cycle < R.since + s.yard.minwait.toNat * s.yard.sliceCycles) then .next s
    else
      let s1 := s.putRegion { R with oneSlice := true }
      if (originFor s R).isSome then .next { s1 with yard := { s1.yard with restoring := some rid } }
      else if s.yard.poolSize = 0#32 then .next s
      else
        let before (a b : Region) : Bool := decide (a.prio < b.prio) || (a.prio == b.prio && decide (b.since < a.since))
        match victims s R.w R.h (some R) none (sortBy before (candidates s fun _ => true)) [] (poolTaken s) with
        | some vs => .next (makeRoom s1 R vs)
        | none => .next s

end Sys2Proof.Machine
end

