-- ==== Sys2Proof/Machine/Asa.lean ====
section
/-! DEFINITION. Strike reports (R349 to R362), deaf cells (R352) and the in-field test (R369, R370). -/

namespace Sys2Proof.Machine

/-! ### Strikes -/

/-- The strike cells that a report on (cx, cy) covers (R350): it and its neighbours on the die. -/
def coveredCells (die cx cy : Nat) : List (Nat × Nat × Nat) :=
  (List.range 8).flatMap fun x => (List.range 8).filterMap fun y =>
    if x ≤ cx + 1 && cx ≤ x + 1 && y ≤ cy + 1 && cy ≤ y + 1 then some (die, x, y) else none

/-- A region is covered (R350): a page or an island of it lies in the area, or a request of it is at a covered CFU. -/
def Region.covered (R : Region) (area : List (Nat × Nat × Nat)) : Bool :=
  ((List.range R.pages).any fun p => area.contains (R.cellOf p))
    || R.flights.any fun f => (match f.loc with | .cfuRequest => true | .cfuReply _ => true | _ => false)
      && area.any fun c => c.1 == R.dieOf f.org.page && c.2.1 == R.pageX f.org.page % 32 / 4

/-- A covered region's rollback starts, or one in progress absorbs the report (R357, R362). -/
def Region.strike (R : Region) (area : List (Nat × Nat × Nat)) : Region :=
  if R.killing || R.aside || !(R.st == .running || R.st == .frozen || R.st == .quiesced) || !R.covered area then R
  else match R.roll with
    | some x => { R with roll := some { x with area := (x.area ++ area).eraseDups }, rolled := true }
    | none => { R with roll := some { c := R.conf, area := area, back := R.st } }

/-- STRIKE_REPORT (R96, R353, R357, R358, R370, R471): what is due is confirmed first; the report is counted and recorded; every
covered region rolls back, a save or a move of it that is in progress being struck (R55). During bring-up it is counted and no more. -/
def execStrikeReport (die cx cy : Nat) (s : State) : Out1 :=
  if die > 1 || cx > 7 || cy > 7 then .next s
  else
    let s0 := s.regions.foldl (fun s R => confirmDue R.rid (R.seals.length) s) s
    let y := s0.yard
    let s1 : State := { s0 with yard := { y with
      reports := if y.reports = 0xFFFFFFFF#32 then y.reports else y.reports + 1#32
      asaV := true, asaDie := BitVec.ofNat 1 die, asaCx := BitVec.ofNat 3 cx, asaCy := BitVec.ofNat 3 cy
      asaCycle := BitVec.ofNat 32 s.cycle } }
    if s.boot.step ≠ 9 then .next s1
    else
      let s2 := s1.pend 5
      let s3 := if s2.yard.iftTest = some (16 * die + 4 * (cy / 2) + cx / 2) then abandonTest s2 else s2
      let area := coveredCells die cx cy
      let s4 : State := { s3 with regions := s3.regions.map fun R => R.strike area }
      .next ((s4.regions.filter fun R => R.roll.isSome).foldl (fun s R => retireStalls s R.rid [.scan] 0x09) s4)

/-- ASA_SELF_CHECK (R352): a cell whose sensors all fail their check is marked deaf. -/
def execAsaSelfCheck (die cx cy : Nat) (allFail : Bool) (s : State) : Out1 :=
  if !allFail || die > 1 || cx > 7 || cy > 7 then .next s
  else
    let n := 8 * cy + cx
    let y := s.yard
    .next { s with yard := if die = 0 then { y with deaf0 := setBit y.deaf0 n true } else { y with deaf1 := setBit y.deaf1 n true } }

/-! ### Moves that the Yard must make -/

/-- The state that a region returns to after what the Yard does to it: RUNNING for one that a fault froze, should a rollback undo the fault
meanwhile (R55). -/
def Region.wasIn (R : Region) : RState :=
  match R.errand with
  | some .evict => .running
  | some (.move _ _ back _) => back
  | some (.test back) => back
  | none => if R.st = .frozen && R.fault.isSome && !R.halting then .running else R.st

/-- Nothing of the region flows: it is not on its way to a halt, runs nothing and rolls nothing back. -/
def Region.still (R : Region) : Bool := !(R.st == .running || R.st == .frozen) && R.roll.isNone && R.errand.isNone

/-- A region moved by the Yard to an origin: at once where nothing of it flows, else by an errand, which waits for a rollback (R55). -/
def yardMove (s : State) (R : Region) (x y : Nat) : State :=
  if R.still then s.putRegion (R.relocate x y)
  else s.putRegion { R with errand := some (.move x y R.wasIn false), halting := true, draining := true }

/-- DEAF_CELL_MOVE (R352): a region with a page in a deaf cell is moved to the first origin that place() gives it. -/
def execDeafCellMove (rid : Nat) (s : State) : Out1 :=
  match s.region? rid with
  | none => .next s
  | some R =>
    if !R.deafPage s || !R.resident || R.killing || R.aside || R.errand.isSome || R.roll.isSome || R.loading then .next s
    else match place s [rid] R.w R.h (some R) none with
      | none => .next s
      | some (x, y) => if pagesDying s x y R.w R.h || sharesBusy s (R.relocate x y) then .next s else .next (yardMove s R x y)

/-! ### In-field test (R369) -/

/-- The first cluster from `k` on that is not retired. -/
def nextCluster (ret : BitVec 32) (k : Nat) : Option Nat :=
  ((List.range 32).map fun i => (k + i) % 32).find? fun j => !bit ret.toNat j

/-- The plan of a test: what becomes of each region of the cluster, the pool's ranges with the images that must be kept. None where
the pool cannot hold one. -/
def testPlan (s : State) : List Region → List (Nat × Nat) → Option (List (Nat × Option (Nat × Nat)))
  | [], _ => some []
  | R :: t, taken =>
    match (place s [R.rid] R.w R.h (some R) none).filter fun o => !pagesDying s o.1 o.2 R.w R.h && !sharesBusy s (R.relocate o.1 o.2) with
    | some o => (testPlan (s.putRegion (R.atOrigin o.1 o.2)) t taken).map fun l => (R.rid, some o) :: l
    | none =>
      match poolAdd s taken R with
      | none => none
      | some l => (testPlan s t l).map fun p => (R.rid, none) :: p

/-- A region set aside: at once where nothing of it flows, else when it is quiescent. -/
def setAside (s : State) (R : Region) : State :=
  if R.still then finishErrand s R (.test R.st)
  else s.putRegion { R with errand := some (.test R.wasIn), halting := true, draining := true }

/-- IFT_INTERVAL (R39, R369 steps 1 and 2): the next cluster is withdrawn, its regions are moved or set aside, whatever else the Yard
does to them; no cluster is tested where the pool cannot hold what must be set aside. -/
def execIftInterval (s : State) : Out1 :=
  match nextCluster s.yard.iftRet s.yard.iftNext.toNat with
  | none => .next s
  | some k =>
    let s1 : State := { s with yard := { s.yard with iftTest := some k } }
    let rs := s1.byRid.filter fun R => R.inCluster k && !R.killing
    if s.yard.iftTest.isSome then .next s
    else match testPlan s1 rs (poolTaken s) with
      | none => .next s
      | some plan => .next (plan.foldl (fun s p => match s.region? p.1, p.2 with
          | some R, some o => yardMove s R o.1 o.2
          | some R, none => setAside s R
          | none, _ => s) s1)

/-- A region set aside from a cluster that failed: onto the first pages that place() finds, else EVICTED (R369). -/
def rehome (s : State) (R : Region) : State :=
  match (place s [R.rid] R.w R.h (some R) none).filter fun o => !pagesDying s o.1 o.2 R.w R.h && !sharesBusy s (R.relocate o.1 o.2) with
  | some o => dropPool (s.putRegion ({ R with aside := false }.relocate o.1 o.2)) R.rid
  | none => s.putRegion { R with aside := false, st := .evicted, backTo := R.st, since := s.cycle, halting := false, draining := false }

/-- SCAN_SELF_TEST_DONE (R369 steps 3 and 4): the cluster returns to allocation, or is retired; the regions set aside come back. -/
def execScanSelfTestDone (passed : Bool) (s : State) : Out1 :=
  match s.yard.iftTest with
  | none => .next s
  | some k =>
    if s.regions.any fun R => R.inCluster k && !R.aside then .next s
    else
      let y := s.yard
      let ret := if passed then y.iftRet else y.iftRet ||| BitVec.ofNat 32 (2 ^ k)
      let next := BitVec.ofNat 8 ((nextCluster ret (k + 1)).getD 0)
      let y1 := { y with iftTest := none, iftNext := next, iftRet := ret, iftFails := if passed then y.iftFails else y.iftFails + 1#16 }
      let s1 : State := { s with yard := y1 }
      if passed then .next (abandonTest s1)
      else .next ((s1.byRid.filter Region.aside).foldl rehome (s1.pend 4))

end Sys2Proof.Machine
end

