-- ==== Sys2Proof/Machine/Calls.lean ====
section
/-! DEFINITION. System calls at the CC: CALL.TAKE and CALL.DONE (R402 to R405) and the host call channels (R437). -/

namespace Sys2Proof.Machine

/-- Where a call is held: a region, or the channel of a TDI, and its place there. -/
inductive CallAt where
  | region (rid i : Nat)
  | host (tdi i : Nat)
  deriving DecidableEq, Repr

/-- The calls of a list with their places. -/
def indexed (at_ : Nat → CallAt) (cs : List Call) : List (CallAt × Call × List Call) :=
  (List.range cs.length).filterMap fun i => (cs[i]?).map fun c => (at_ i, c, cs)

/-- Every call held at the CC. -/
def State.allCalls (s : State) : List (CallAt × Call × List Call) :=
  ((s.byRid.filter fun R => !R.killing).flatMap fun R => indexed (.region R.rid) R.calls)
    ++ (List.range s.tdis.length).flatMap fun t => indexed (.host t) (nth Tdi.reset s.tdis t).calls

/-- The oldest of some calls: the first of those that came first. -/
def oldestCall : List (CallAt × Call × List Call) → Option (CallAt × Call)
  | [] => none
  | x :: t => let y := t.foldl (fun a b => if b.2.1.came < a.2.1.came then b else a) x; some (y.1, y.2.1)

/-- A call changed where it is held. -/
def modCall (s : State) (f : Call → Call) : CallAt → State
  | .region rid i => s.modRegion rid fun R => { R with calls := modNth R.calls i f }
  | .host t i => { s with tdis := modNth s.tdis t fun T => { T with calls := modNth T.calls i f } }

/-- The 64-byte call block (Table 12-9). -/
def callBlock (s : State) (at_ : CallAt) (c : Call) (ticket : Nat) : List Byte :=
  let hdr := tokenHeader (match at_ with | .region _ _ => aim c.tok c.dest | .host _ _ => c.tok)
  let (handle, site, host) := match at_ with
    | .region rid _ => (((s.region? rid).map Region.handle).getD 0, c.unit.page % 2 ^ 12 + 2 ^ 12 * c.unit.pos, false)
    | .host t _ => (0, t, true)
  fieldBytes 64 [(0, 16, hdr), (16, 32, fromWords c.tok.e), (48, 4, handle), (52, 2, site), (54, 1, c.queue),
    (55, 1, b2n c.strong + 2 * b2n host), (56, 4, ticket)]

/-- CALL.TAKE (R403): the oldest ready call, of every region and the host or of one region, is written as a block at rs1. -/
def execCallTake (d a t : BitVec 5) (s : State) : Out1 :=
  let v := (s.x t).toNat
  let take (mine : CallAt → Bool) (rid : Nat) : State :=
    if (s.x a).toNat % 64 ≠ 0 then retStatus s d 0x03
    else match oldestCall (s.allCalls.filter fun x => mine x.1 && x.2.1.ready x.2.2) with
      | none => retStatus s d 0x0A
      | some (at_, c) =>
        match s.operand .store (s.x a) 64 with
        | .wait => stallOn s rid d .again
        | .trap e va => trapOperand s e va
        | .ok pa =>
          let n := s.yard.nextTicket
          let s1 := operandWrite pa 0 (callBlock s at_ c n) s
          let s2 := modCall s1 (fun c => { c with st := .taken, ticket := n }) at_
          retStatus { s2 with yard := { s2.yard with nextTicket := (n + 1) % 2 ^ 32 } } d 0x00
  if v = 0 then
    if !s.sm then .next (trapCustom s (.callTake d a t)) else .next (take (fun _ => true) 2049)
  else onRegion s (.callTake d a t) d v false fun R =>
    take (fun x => match x with | .region r _ => r == R.rid | .host _ _ => false) R.rid

/-- The response of a block is well formed (R404): no reserved byte is nonzero. -/
def responseOk (b : Bytes) : Bool :=
  decide ((b 4).toNat ≤ 7) && decide ((b 5).toNat ≤ 15) && decide ((b 6).toNat ≤ 1) && b 7 == 0#8
    && (List.range 24).all fun i => b (40 + i) == 0#8

/-- The 64 bytes written to the host (Table 13-9). -/
def hostResponse (c : Call) (b : Bytes) : List Byte :=
  fieldBytes 64 [(0, 8, c.tok.tag.toNat), (8, 1, (b 4).toNat), (9, 1, (b 5).toNat), (10, 1, (b 6).toNat), (16, 32, numAt b 8 32)]

/-- A call answered: it counts no longer among those of its queue that are outstanding, the next strong one may be ready. -/
def answered (s : State) (at_ : CallAt) (c : Call) : State :=
  let s1 := modCall s (fun c => { c with st := .answered }) at_
  let waiting : Bool := c.strong && s1.allCalls.any fun x =>
    (match at_, x.1 with
      | .region r _, .region q _ => r == q
      | .host r _, .host q _ => r == q
      | _, _ => false) && x.2.1.strong && x.2.1.queue == c.queue && x.2.1.ready x.2.2
  if waiting then s1.pend 0 else s1

/-- The response of a call, where it goes (R405, R437). -/
def respond (s : State) (at_ : CallAt) (c : Call) (b : Bytes) : State :=
  let resp : BitVec 3 × Fmt × Bool × List W32 := (BitVec.ofNat 3 (b 4).toNat, Fmt.ofCode (b 5).toNat, bit (b 6).toNat 0, words8 (numAt b 8 32))
  match at_ with
  | .region rid _ =>
    (answered s at_ c).modRegion rid fun R => { R with responses := R.responses ++ [{ c with st := .answered, resp := some resp }] }
  | .host t _ =>
    let s1 := answered s at_ c
    { s1 with tdis := modNth s1.tdis t fun T => { T with
      writes := T.writes ++ [(BitVec.ofNat 64 c.raddr, hostResponse c b)], msix := true } }

/-- CALL.DONE (R404): the response block at rs1 answers the call that its ticket names. -/
def execCallDone (d a : BitVec 5) (s : State) : Out1 :=
  if !s.sm then .next (trapCustom s (.callDone d a))
  else match s.operand .load (s.x a) 64 with
    | .wait => .next (stallOn s 2049 d .again)
    | .trap e va => .next (trapOperand s e va)
    | .ok pa =>
      let b := s.bytesOf pa 64
      let n := numAt b 0 4
      match s.allCalls.find? fun x => x.2.1.ticket == n && (x.2.1.st == .taken || x.2.1.st == .answered) with
      | none => .next (retStatus s d 0x02)
      | some (at_, c, _) =>
        if c.st = .answered then .next (retStatus s d 0x01)
        else if !responseOk b then .next (retStatus s d 0x03)
        else .next (retStatus (respond s at_ c b) d 0x00)

/-- CALLWIN (R437, R447): a 64-byte write by the host queues a call on the channel of a TDI that runs; it is dropped with OVF
when the channel is closed or full, with BAD when it is malformed. -/
def execCallwin (tdi : Nat) (call : BitVec 512) (s : State) : Out1 :=
  if tdi ≥ 64 then .next s
  else
    let T := nth Tdi.reset s.tdis tdi
    let n := call.toNat
    let byte (i : Nat) : Nat := bits n (8 * i + 7) (8 * i)
    let put (T : Tdi) : State := { s with tdis := modNth s.tdis tdi fun _ => T }
    let full := decide (64 ≤ (T.calls.filter fun c => c.st == .queued).length)
    let bad := byte 8 > 7 || byte 9 > 15 || byte 10 > 1 || byte 11 > 3 || bits n 127 96 ≠ 0 || bits n 511 448 ≠ 0 || bits n 447 384 % 64 ≠ 0
    if T.st ≠ .run || !T.en || full then .next (put { T with ovf := true })
    else if bad then .next (put { T with bad := true })
    else
      let tok : Token := { emptyToken with
        tag := BitVec.ofNat 64 n, seq := T.count, len := BitVec.ofNat 3 (byte 8), fmt := Fmt.ofCode (byte 9), e := words8 (bits n 383 128) }
      let c : Call := { ticket := 0, strong := bit n 80, queue := byte 11, tok := tok, unit := ⟨0, 0⟩, dest := noDest, key := default,
                        raddr := bits n 447 384, st := .queued, came := s.ticks, kept := false, resp := none }
      let s1 := put { T with calls := T.calls ++ [c], count := T.count + 1#15 }
      .next (if c.ready T.calls then s1.pend 0 else s1)

end Sys2Proof.Machine
end

