-- ==== Sys2Proof/Machine/Csr.lean ====
section
/-! DEFINITION. The custom CSRs of Table 12-10: what a read returns, what a write does (R6, R406 to R411, R416, R417, R300, R353, R369,
R454, R468). -/

namespace Sys2Proof.Machine

/-! ### Which CSRs there are (R88, R406) -/

/-- The numbers of Table 12-10. -/
def csrNumbers : List Nat :=
  (List.range 12).map (0x5C0 + ·) ++ [0x5F0, 0x5F1, 0x5F2, 0x5F4, 0x5F5, 0x5F6, 0x5F7] ++ (List.range 4).map (0x7C0 + ·)

/-- A hart may access a custom CSR: Table 12-10 lists it, and its mode is high enough (R406). -/
def State.csrOk (s : State) (csr : Nat) : Bool := csrNumbers.contains csr && (if csr < 0x600 then s.sm else s.isM)

/-! ### Capability entries (R411) -/

/-- The region and the entry that CAPSEL selects. -/
def State.capSel (s : State) : Option (Region × Nat) := (s.named s.yard.capHandle.toNat).map fun R => (R, s.yard.capIndex.toNat)

/-- The pending rewrite of an entry. -/
def Region.capPending (R : Region) (i : Nat) : Option W64 := (R.capUses.find? fun c => c.idx == i).bind (·.pending)

/-- The last write of CAPDATA waits for credits. -/
def State.capPend (s : State) : Bool :=
  match s.yard.capLast with
  | some (rid, i) => ((s.region? rid).bind fun R => R.capPending i).isSome
  | none => false

/-- A pending rewrite set or cleared. -/
def Region.setCapPending (R : Region) (i : Nat) (v : Option W64) : Region :=
  let R1 := R.setCapOut i (R.capOut i)
  { R1 with capUses := R1.capUses.map fun c => if c.idx = i then { c with pending := v } else c }

/-- An entry rewritten; an entry of zeros is not listed. -/
def Region.setCap (R : Region) (i : Nat) (v : W64) : Region :=
  { R with cfg := { R.cfg with caps := mapSet R.cfg.caps i (if v = 0#64 then none else some v) } }

/-- CAPDATA_WRITE (R411): the selected entry is rewritten, at once or, where DEV, RID or EPORT change while its credits are out,
when they have returned; a reserved field or a stale handle sets ERR. -/
def execCapdataWrite (v : W64) (s : State) : Out1 :=
  if !s.sm then .next (trapIllegal s 0#32)
  else
    let mark (err : Bool) (last : Option (Nat × Nat)) (s : State) : State :=
      retireNone { s with yard := { s.yard with capErr := err, capLast := last } }
    match s.capSel with
    | none => .next (mark true none s)
    | some (R, i) =>
      if v.toNat % 256 ≠ 0 then .next (mark true none s)
      else if bits (R.cap i) 59 21 ≠ bits v.toNat 59 21 && R.capOut i ≠ 0 then
        .next (mark false (some (R.rid, i)) (s.putRegion (R.setCapPending i (some v))))
      else .next (mark false none (dispatchSends (s.putRegion ((R.setCapPending i none).setCap i v)) R.rid))

/-- CAPABILITY_PENDING_APPLY (R411): a pending rewrite takes effect once the entry's credits have all returned. -/
def execCapabilityPendingApply (rid idx : Nat) (s : State) : Out1 :=
  match s.region? rid with
  | none => .next s
  | some R =>
    match R.capPending idx with
    | none => .next s
    | some v =>
      if R.capOut idx ≠ 0 then .next s
      else .next (dispatchSends (s.putRegion ((R.setCapPending idx none).setCap idx v)) rid)

/-! ### Link configuration (R416, Table 13-3) -/

/-- What LNKSEL selects. -/
inductive LnkEntry where
  | port (p : Nat) | device | partition (k : Nat) | tdi (t : Nat) | tree (t : Nat) | window (w : Nat) | none
  deriving DecidableEq, Repr

/-- The entry of a space and an index. -/
def lnkEntry (space index : Nat) : LnkEntry :=
  match space with
  | 0 => if index < 16 then .port index else if index = 16 then .device else .none
  | 1 => if index < 256 then .partition index else .none
  | 2 => if index < 64 then .tdi index else .none
  | 3 => if index < 64 then .tree index else .none
  | 4 => if index < 16 then .window index else .none
  | _ => .none

/-- The selected entry. -/
def State.lnkSel (s : State) : LnkEntry := lnkEntry s.links.space.toNat s.links.index.toNat

/-- A tree entry as a register. -/
def treeNum (t : Tree) : Nat :=
  2 ^ 63 * b2n t.v + 2 ^ 62 * b2n t.loc + 2 ^ 61 * b2n t.root + 2 ^ 57 * t.parent.toNat + 2 ^ 41 * t.child.toNat + 2 ^ 25 * t.part.toNat
    + 2 ^ 5 * t.deadline.toNat

/-- The value of LNKDATA. -/
def State.lnkData (s : State) : Nat :=
  let l := s.links
  match s.lnkSel with
  | .port p =>
    let x := nth (Port.reset p) l.ports p
    2 ^ 63 * b2n x.up + 2 ^ 62 * b2n x.en + 2 ^ 60 * x.role.toNat + 2 ^ 57 * x.dir.toNat + 2 ^ 32 * x.peer.toNat + 2 ^ 16 * x.drops.toNat
  | .device => 2 ^ 56 * l.nxm.toNat + 2 ^ 50 * l.nym.toNat + 2 ^ 43 * l.nzm.toNat + l.devid.toNat
  | .partition k => match mapGet l.parts k with
    | some (v, p) => 2 ^ 63 * b2n v + p.toNat
    | none => 0
  | .tdi t =>
    let x := nth Tdi.reset s.tdis t
    2 ^ 63 * b2n x.bound + 2 ^ 62 * b2n x.en + x.part.toNat
  | .tree t => treeNum (s.tree t)
  | .window w => match mapGet l.windows w with
    | some (v, wr, dev) => 2 ^ 63 * b2n v + 2 ^ 62 * b2n wr + 2 ^ 42 * dev.toNat
    | none => 0
  | .none => 0

/-- A region of the device is RUNNING, FROZEN or QUIESCED. -/
def State.busyRegions (s : State) : Bool := s.regions.any fun R => R.st == .running || R.st == .frozen || R.st == .quiesced

/-- A write to the selected entry: the new state, none where it is refused. -/
def lnkStore (s : State) (v : Nat) : Option State :=
  let put (l : Links) : Option State := some { s with links := l }
  let l := s.links
  match s.lnkSel with
  | .port p => put { l with ports := modNth l.ports p fun x =>
      { x with en := bit v 62, role := if bits v 61 60 = 3 then x.role else BitVec.ofNat 2 (v >>> 60), dir := BitVec.ofNat 3 (v >>> 57) } }
  | .device =>
    if s.busyRegions then none
    else put { l with nxm := BitVec.ofNat 7 (v >>> 56), nym := BitVec.ofNat 6 (v >>> 50), nzm := BitVec.ofNat 7 (v >>> 43), devid := BitVec.ofNat 20 v }
  | .partition k => put { l with parts := mapPut l.parts k (bit v 63, BitVec.ofNat 16 v) }
  | .tdi t => some { s with tdis := modNth s.tdis t fun x =>
      { x with en := bit v 62, part := if x.bound then x.part else BitVec.ofNat 16 v } }
  | .tree t => put { l with trees := mapPut l.trees t {
      v := bit v 63, loc := bit v 62, root := bit v 61, parent := BitVec.ofNat 4 (v >>> 57), child := BitVec.ofNat 16 (v >>> 41),
      part := BitVec.ofNat 16 (v >>> 25), deadline := BitVec.ofNat 20 (v >>> 5) } }
  | .window w => put { l with windows := mapPut l.windows w (bit v 63, bit v 62, BitVec.ofNat 20 (v >>> 42)) }
  | .none => none

/-- LNKDATA_WRITE (R416). -/
def execLnkdataWrite (v : W64) (s : State) : Out1 :=
  if !s.isM then .next (trapIllegal s 0#32)
  else match lnkStore s v.toNat with
    | some s1 => .next (retireNone { s1 with links := { s1.links with err := false } })
    | none => .next (retireNone { s with links := { s.links with err := true } })

/-! ### Partitions of regions (R417) -/

/-- PARTSEL_WRITE (R417): the partition of an ALLOCATED or LOADED region is set; for any other the write sets ERR. -/
def execPartselWrite (v : W64) (s : State) : Out1 :=
  if !s.sm then .next (trapIllegal s 0#32)
  else
    let handle := v.toNat / 2 ^ 32
    let mark (err : Bool) (s : State) : State :=
      retireNone { s with yard := { s.yard with partHandle := BitVec.ofNat 32 handle, partErr := err } }
    match s.named handle with
    | none => .next (mark true s)
    | some R =>
      if !(R.st == .allocated || R.st == .loaded) then .next (mark true s)
      else .next (mark false (adoptWaiting (s.putRegion { R with part := BitVec.ofNat 16 v.toNat }) R.rid))

/-! ### The other registers -/

/-- Regions that are EVICTED. -/
def State.evicted (s : State) : Nat := (s.regions.filter fun R => R.st == .evicted && !R.killing).length

/-- The value of a custom CSR; that of XPARK is what XPARK_POP returns. -/
def csrValue (s : State) (csr : Nat) : Nat :=
  let y := s.yard
  let t := s.trust
  match csr with
  | 0x5C0 => (s.hart s.me).rgnie.toNat
  | 0x5C1 => y.rgnip.toNat
  | 0x5C2 => 2 ^ 48 * b2n y.compact + 2 ^ 32 * y.minwait.toNat + y.slice.toNat
  | 0x5C3 => 2 ^ 32 * s.evicted + 2 ^ 16 * freePages s 1 + freePages s 0
  | 0x5C5 => 2 ^ 16 * y.xinvVpn.toNat
  | 0x5C6 => 2 ^ 63 * b2n y.inval.isSome
  | 0x5C7 => 2 ^ 32 * y.capHandle.toNat + 2 ^ 9 * b2n s.capPend + 2 ^ 8 * b2n y.capErr + y.capIndex.toNat
  | 0x5C8 => match s.capSel with
    | some (R, i) => R.cap i
    | none => 0
  | 0x5C9 => 2 ^ 40 * t.lastalm.toNat + 2 ^ 32 * t.alarms.toNat + 2 ^ 31 * b2n t.lock + 2 ^ 28 * t.lcs + 2 ^ 26 * t.ufail.toNat + t.dbg.toNat
  | 0x5CA => 2 ^ 48 * y.tjmax.toNat + 2 ^ 40 * y.tlim.toNat + 2 ^ 32 * 110 + 2 ^ 4 * y.duty1.toNat + y.duty0.toNat
  | 0x5CB => 2 ^ 32 * y.partHandle.toNat + 2 ^ 16 * b2n y.partErr + ((s.named y.partHandle.toNat).map fun R => R.part.toNat).getD 0
  | 0x5F0 => 0x0000003F3F7F80C6
  | 0x5F1 => 2 ^ 32 * y.reports.toNat + y.rollbacks.toNat
  | 0x5F2 => 2 ^ 63 * b2n y.asaV + 2 ^ 62 * y.asaDie.toNat + 2 ^ 59 * y.asaCx.toNat + 2 ^ 56 * y.asaCy.toNat + y.asaCycle.toNat
  | 0x5F4 => y.deaf0.toNat
  | 0x5F5 => y.deaf1.toNat
  | 0x5F6 => 2 ^ 32 * y.iftNext.toNat + 2 ^ 16 * y.iftFails.toNat + y.iftIntv.toNat
  | 0x5F7 => y.iftRet.toNat
  | 0x7C0 => 2 ^ 21 * y.poolBase.toNat
  | 0x7C1 => y.poolSize.toNat
  | 0x7C2 => 2 ^ 61 * s.links.space.toNat + 2 ^ 16 * b2n s.links.err + s.links.index.toNat
  | 0x7C3 => s.lnkData
  | _ => 0

/-- A read of a custom CSR: its value and what the read does (R409, R416). -/
def csrRead (s : State) (csr : Nat) : State × W64 :=
  match csr with
  | 0x5C4 =>
    match popReport s with
    | none => (s, 0#64)
    | some (p, s1) => (queueUnreported s1, xparkValue p)
  | 0x7C3 => ({ s with links := { s.links with err := decide (s.lnkSel = .none) } }, BitVec.ofNat 64 s.lnkData)
  | n => (s, BitVec.ofNat 64 (csrValue s n))

/-- The Yard's registers after a write to one with no behaviour of its own (R6): its RW fields are stored, its W1C bits cleared, its
RO fields kept. -/
def yardWrite (s : State) (csr v : Nat) : State :=
  let y := s.yard
  let put (y : Yard) : State := { s with yard := y }
  match csr with
  | 0x5C0 => s.modHart s.me fun H => { H with rgnie := BitVec.ofNat 6 v }
  | 0x5C1 => put { y with rgnip := y.rgnip &&& ~~~ BitVec.ofNat 6 v }
  | 0x5C2 =>
    let n := v % 2 ^ 32
    put { y with compact := bit v 48, minwait := BitVec.ofNat 16 (v >>> 32), slice := if 100 ≤ n ∧ n ≤ 10 ^ 7 then BitVec.ofNat 32 n else y.slice }
  | 0x5C5 => put { y with xinvVpn := BitVec.ofNat 41 (v >>> 16) }
  | 0x5C7 => put { y with capHandle := BitVec.ofNat 32 (v >>> 32), capIndex := BitVec.ofNat 8 v }
  | 0x5CA => let n := bits v 47 40; if 70 ≤ n ∧ n ≤ 105 then put { y with tlim := BitVec.ofNat 8 n } else s
  | 0x5F6 => if v % 2 ^ 16 = 0 then s else put { y with iftIntv := BitVec.ofNat 16 v }
  | 0x7C0 => if y.pool.isEmpty then put { y with poolBase := BitVec.ofNat 31 (v >>> 21) } else s
  | 0x7C1 => if y.pool.isEmpty then put { y with poolSize := BitVec.ofNat 32 v } else s
  | 0x7C2 => { s with links := { s.links with space := BitVec.ofNat 3 (v >>> 61), index := BitVec.ofNat 16 v } }
  | _ => s

/-- A write to a custom CSR that the hart may access: by its own rule where it has one, else by its access codes. -/
def csrStore (csr : Nat) (v : W64) (s : State) : Out1 :=
  match csr with
  | 0x5C4 => execXparkRefuse v s
  | 0x5C6 => execXinvcmd v s
  | 0x5C8 => execCapdataWrite v s
  | 0x5CB => execPartselWrite v s
  | 0x7C3 => execLnkdataWrite v s
  | n => .next (retireNone (yardWrite s n v.toNat))

/-- CSR_WRITE (R6, R88, R406). -/
def execCsrWrite (csr : BitVec 12) (v : W64) (s : State) : Out1 :=
  if s.csrOk csr.toNat then csrStore csr.toNat v s else .next (trapIllegal s 0#32)

end Sys2Proof.Machine
end

