-- ==== Sys2Proof/Machine/Crypto.lean ====
section
/-! DEFINITION. SHA-256 (FIPS 180-4) and the verification of an ECDSA P-256 signature (FIPS 186-5), which chapter 14 names. -/

namespace Sys2Proof.Machine

/-! ### SHA-256 -/

/-- The greatest number of at most `n` bits more than `x` whose `k`-th power is at most `v`. -/
def rootFrom (k v : Nat) : Nat → Nat → Nat
  | 0, x => x
  | n + 1, x => rootFrom k v n (if (x + 2 ^ n) ^ k ≤ v then x + 2 ^ n else x)

/-- The first 32 bits of the fraction of the `k`-th root of `p` (FIPS 180-4, 4.2.2 and 5.3.3). -/
def rootFraction (k p : Nat) : Nat := rootFrom k (p * 2 ^ (32 * k)) 40 0 % 2 ^ 32

/-- The first 64 primes. -/
def primes64 : List Nat := (List.range 312).filter fun n => decide (2 ≤ n) && (List.range 18).all fun d => d < 2 || n ≤ d || n % d ≠ 0

/-- The round constants: of the cube roots of the first 64 primes. -/
def shaK : List Nat := primes64.map (rootFraction 3)

/-- The initial hash value: of the square roots of the first 8 primes. -/
def shaInit : List W32 := (primes64.take 8).map fun p => BitVec.ofNat 32 (rootFraction 2 p)

/-- The next word of the message schedule from the 16 before it, oldest first. -/
def shaNext (w : List W32) : W32 :=
  let a := nth 0#32 w 1
  let b := nth 0#32 w 14
  let s0 := a.rotateRight 7 ^^^ a.rotateRight 18 ^^^ (a >>> 3)
  let s1 := b.rotateRight 17 ^^^ b.rotateRight 19 ^^^ (b >>> 10)
  nth 0#32 w 0 + s0 + nth 0#32 w 9 + s1

/-- One round on the eight working variables. -/
def shaRound (v : List W32) (k w : W32) : List W32 :=
  match v with
  | [a, b, c, d, e, f, g, h] =>
    let t1 := h + (e.rotateRight 6 ^^^ e.rotateRight 11 ^^^ e.rotateRight 25) + ((e &&& f) ^^^ (~~~ e &&& g)) + k + w
    let t2 := (a.rotateRight 2 ^^^ a.rotateRight 13 ^^^ a.rotateRight 22) + ((a &&& b) ^^^ (a &&& c) ^^^ (b &&& c))
    [t1 + t2, a, b, c, d + t1, e, f, g]
  | _ => v

/-- The rounds of a block: the constants left, the last 16 words of the schedule, the working variables. -/
def shaRounds : List Nat → List W32 → List W32 → List W32
  | [], _, v => v
  | k :: ks, w, v => shaRounds ks (w.drop 1 ++ [shaNext w]) (shaRound v (BitVec.ofNat 32 k) (nth 0#32 w 0))

/-- A big-endian word of four bytes. -/
def wordBE (bs : List Byte) : W32 := BitVec.ofNat 32 (fromBytes (bs.take 4).reverse)

/-- The hash value after a block of 64 bytes. -/
def shaBlock (h : List W32) (bs : List Byte) : List W32 :=
  let w := (List.range 16).map fun i => wordBE (bs.drop (4 * i))
  List.zipWith (· + ·) h (shaRounds shaK w h)

/-- The blocks of a padded message. -/
def shaBlocks : Nat → List W32 → List Byte → List W32
  | 0, h, _ => h
  | n + 1, h, bs => shaBlocks n (shaBlock h (bs.take 64)) (bs.drop 64)

/-- The padding: a one bit, zeros, the length in bits as a big-endian number of 64 bits. -/
def shaPad (bs : List Byte) : List Byte :=
  let n := bs.length
  bs ++ [0x80#8] ++ List.replicate ((119 - n % 64) % 64) 0#8 ++ (toBytes 8 (8 * n)).reverse

/-- SHA-256: the 32 bytes of the digest. -/
def sha256 (bs : List Byte) : List Byte :=
  let p := shaPad bs
  (shaBlocks (p.length / 64) shaInit p).flatMap fun w => (toBytes 4 w.toNat).reverse

/-! ### ECDSA over P-256 -/

/-- The field prime. -/
def p256 : Nat := 2 ^ 256 - 2 ^ 224 + 2 ^ 192 + 2 ^ 96 - 1
/-- The order of the base point. -/
def n256 : Nat := 0xffffffff00000000ffffffffffffffffbce6faada7179e84f3b9cac2fc632551
/-- The constant b of the curve; a is -3. -/
def b256 : Nat := 0x5ac635d8aa3a93e7b3ebbd55769886bc651d06b0cc53b0f63bce3c3e27d2604b
/-- The base point. -/
def g256 : Nat × Nat :=
  (0x6b17d1f2e12c4247f8bce6e563a440f277037d812deb33a0f4a13945d898c296,
   0x4fe342e2fe1a7f9b8ee7eb4a7c0f9e162bce33576b315ececbb6406837bf51f5)

/-- A power modulo `m`, by the bits of the exponent from bit `n - 1` down. -/
def powMod (m b e : Nat) : Nat → Nat
  | 0 => 1 % m
  | n + 1 =>
    let h := powMod m b (e / 2) n
    if e = 0 then 1 % m else if e % 2 = 1 then h * h % m * b % m else h * h % m

/-- The inverse modulo a prime. -/
def invMod (m a : Nat) : Nat := powMod m (a % m) (m - 2) 256

/-- A point in Jacobian coordinates; Z = 0 is the point at infinity. -/
structure Jac where
  x : Nat
  y : Nat
  z : Nat
  deriving DecidableEq, Repr

/-- A difference modulo the field prime. -/
def subP (a b : Nat) : Nat := (a + p256 - b % p256) % p256

/-- A point doubled. -/
def Jac.double (P : Jac) : Jac :=
  let m := p256
  let d := P.z * P.z % m
  let g := P.y * P.y % m
  let b := P.x * g % m
  let al := 3 * (subP P.x d * (P.x + d) % m) % m
  let x := subP (al * al) (8 * b)
  { x := x
    y := subP (al * subP (4 * b) x) (8 * (g * g))
    z := 2 * P.y % m * P.z % m }

/-- Two points added. -/
def Jac.add (P Q : Jac) : Jac :=
  let m := p256
  if P.z = 0 then Q
  else if Q.z = 0 then P
  else
    let z1 := P.z * P.z % m
    let z2 := Q.z * Q.z % m
    let u1 := P.x * z2 % m
    let u2 := Q.x * z1 % m
    let s1 := P.y * Q.z % m * z2 % m
    let s2 := Q.y * P.z % m * z1 % m
    let h := subP u2 u1
    let r := subP s2 s1
    if h = 0 then (if r = 0 then P.double else { x := 1, y := 1, z := 0 })
    else
      let hh := h * h % m
      let hhh := h * hh % m
      let v := u1 * hh % m
      let x := subP (r * r) (hhh + 2 * v)
      { x := x, y := subP (r * subP v x) (s1 * hhh), z := P.z * Q.z % m * h % m }

/-- A multiple of a point, by the bits of the factor from bit `n - 1` down. -/
def Jac.mul (P : Jac) (k : Nat) : Nat → Jac
  | 0 => { x := 1, y := 1, z := 0 }
  | n + 1 =>
    let h := (Jac.mul P (k / 2) n).double
    if k % 2 = 1 then h.add P else h

/-- A point lies on the curve. -/
def onCurve (x y : Nat) : Bool := decide (x < p256) && decide (y < p256) && y * y % p256 == (x * x * x + (p256 - 3) * x + b256) % p256

/-- The affine coordinates of a multiple of the base point. -/
def baseMul (k : Nat) : Nat × Nat :=
  let P := Jac.mul { x := g256.1, y := g256.2, z := 1 } (k % n256) 256
  let zi := invMod p256 P.z
  (P.x * (zi * zi % p256) % p256, P.y * (zi * (zi * zi % p256) % p256) % p256)

/-- The signature (r, s) of a digest, read as a big-endian number, under a private key with the number `k` drawn: r in the high half. -/
def ecdsaSign (d e k : Nat) : BitVec 512 :=
  let r := (baseMul k).1 % n256
  BitVec.ofNat 512 (2 ^ 256 * r + invMod n256 k * ((e + r * d) % n256) % n256)

/-- The verification of a signature (r, s) over a digest, read as a big-endian number, under a public key. -/
def ecdsaOk (qx qy e r s : Nat) : Bool :=
  if !onCurve qx qy || r = 0 || n256 ≤ r || s = 0 || n256 ≤ s then false
  else
    let w := invMod n256 s
    let P := (Jac.mul { x := g256.1, y := g256.2, z := 1 } (e * w % n256) 256).add (Jac.mul { x := qx, y := qy, z := 1 } (r * w % n256) 256)
    if P.z = 0 then false
    else
      let zi := invMod p256 P.z
      P.x * (zi * zi % p256) % p256 % n256 == r

end Sys2Proof.Machine
end

