-- ==== Sys2Proof/Machine/Trust.lean ====
section
/-! DEFINITION. The Trust Engine (chapter 14): the SEC instructions, SPDM and TDISP, the debug port. -/

namespace Sys2Proof.Machine

/-! ### Lifecycle, fuses, measurements -/

/-- The lifecycle code of a pattern of LCS (Table 14-2). -/
def lcsCode (n : Nat) : Nat :=
  match n with
  | 0 => 0 | 1 => 1 | 3 => 2 | 7 => 3 | _ => 4

/-- The 32 bytes of a 256-bit number, byte 0 in the low bits. -/
def bytes32 (v : BitVec 256) : List Byte := toBytes 32 v.toNat

/-- The 256-bit number of 32 bytes. -/
def num32 (bs : List Byte) : BitVec 256 := BitVec.ofNat 256 (fromBytes bs)

/-- The digest of bytes as a number. -/
def digestOf (bs : List Byte) : BitVec 256 := num32 (sha256 bs)

/-- MEASi of a die. -/
def Trust.measure (t : Trust) (die i : Nat) : BitVec 256 := nth 0#256 (nth [] t.meas die) i

/-- AN EXTENSION (R444): MEASi := SHA-256(MEASi ‖ D), of one die for MEAS0, of all three for the others. -/
def Trust.extend (t : Trust) (die i : Nat) (D : List Byte) : Trust :=
  let dies := if i = 0 then [die] else [0, 1, 2]
  let one (t : Trust) (d : Nat) : Trust := { t with
    meas := modNth t.meas d fun ms => modNth ms i fun m => digestOf (bytes32 m ++ D)
    measCount := modNth t.measCount d fun cs => modNth cs i (· + 1) }
  dies.foldl one t

/-- The device with a measurement register extended. -/
def extendMeas (s : State) (die i : Nat) (D : List Byte) : State := { s with trust := s.trust.extend die i D }

/-! ### The SEC instructions (R455) -/

/-- A SEC instruction (R88, R442, R455): the trap, DENIED in SCRAPPED, the wait for those that arrived earlier from other harts, and then
what `f` does. -/
def onTre (s : State) (i : Instr) (d : BitVec 5) (machine : Bool) (f : State) : Out1 :=
  if !(if machine then s.isM else s.sm) then .next (trapCustom s i)
  else if s.trust.lcs = 4 then .next (retStatus s d 0x0B)
  else if !myTurn s 2050 then .next (stallOn s 2050 d .again)
  else .next f

/-- What follows the translation of a memory operand; `kind` says how the hart waits for it. -/
def withOperandAs (kind : StallKind) (s : State) (d : BitVec 5) (k : Kind3) (va : W64) (n : Nat) (f : (Nat → Nat) → State) : State :=
  match s.operand k va n with
  | .wait => stallOn s 2050 d kind
  | .trap c a => trapOperand s c a
  | .ok pa => f pa

/-- What follows the translation of the memory operand of a SEC instruction other than SUBMIT. -/
def withOperand (s : State) (d : BitVec 5) (k : Kind3) (va : W64) (n : Nat) (f : (Nat → Nat) → State) : State :=
  withOperandAs .again s d k va n f

/-- SEC.FUSE with rs2 = 0 (R456): the fuse word, in SCRAPPED too. -/
def execSecFuseRead (d a t : BitVec 5) (s : State) : Out1 :=
  let v := (s.x a).toNat
  if !s.isM then .next (trapCustom s (.secFuseRead d a t))
  else if v ≥ 64 || s.x t ≠ 0#64 then .next (retStatus s d 0x03)
  else .next (retire s d (resultWord 0 0 (s.fuse v).toNat))

/-- A blow of LCS that R442 allows: forward, and into RETURN from PRODUCTION only through the debug port. -/
def lcsBlowOk (s : State) (new : Nat) : Bool :=
  !(s.trust.lcs == 2 && lcsCode new == 3 && !bit s.trust.dbg.toNat 3)

/-- Every bit lies in a W1S field of a fuse word in the lifecycle state in force (Table 14-1). -/
def blowOk (s : State) (w n : Nat) : Bool :=
  let early := decide (s.trust.lcs ≤ 1)
  if w = 0 then decide (n < 16) && decide (s.trust.lcs ≠ 4) && lcsBlowOk s ((s.fuse 0).toNat % 16 ||| n)
  else if w = 1 then decide (n < 2 ^ 12) && early
  else if w ≤ 11 then early
  else if w = 12 then s.trust.lcs == 1 || s.trust.lcs == 2
  else false

/-- SEC.FUSE with rs2 ≠ 0 (R456): the bits are blown and the word read back. -/
def execSecFuseBlow (d a t : BitVec 5) (s : State) : Out1 :=
  let v := (s.x a).toNat
  let n := (s.x t).toNat
  onTre s (.secFuseBlow d a t) d true (
    if v ≥ 64 || n ≥ 2 ^ 32 then retStatus s d 0x03
    else if !blowOk s v n then retStatus s d 0x0B
    else
      let word := nth 0#32 s.trust.fuses v ||| (BitVec.ofNat 32 n &&& Config.blown s.ticks)
      let s1 : State := { s with trust := { s.trust with fuses := modNth s.trust.fuses v fun _ => word } }
      retire s1 d (resultWord (if (s1.fuse v).toNat &&& n = n then 0x00 else 0x0D) 0 (s1.fuse v).toNat))

/-- The operands of SEC.MEAS are in range (R457). -/
def measOk (a t : Nat) : Bool := decide (a < 2 ^ 9) && bits a 7 6 == 0 && decide (bits a 3 0 ≤ 7) && decide (bits a 5 4 ≤ 2) && t % 64 == 0

/-- SEC.MEAS with EXT = 0 (R457): the register is written at rs2. -/
def execSecMeasRead (d a t : BitVec 5) (s : State) : Out1 :=
  let v := (s.x a).toNat
  let die := bits v 5 4
  let i := bits v 3 0
  onTre s (.secMeasRead d a t) d false (
    if !measOk v (s.x t).toNat || bit v 8 then retStatus s d 0x03
    else withOperand s d .store (s.x t) 32 fun pa =>
      retire (operandWrite pa 0 (bytes32 (s.trust.measure die i)) s) d (resultWord 0 0 (nth 0 (nth [] s.trust.measCount die) i)))

/-- SEC.MEAS with EXT = 1 (R457): the register is extended by the digest at rs2, where the mode may extend it. -/
def execSecMeasExtend (d a t : BitVec 5) (s : State) : Out1 :=
  let v := (s.x a).toNat
  let die := bits v 5 4
  let i := bits v 3 0
  onTre s (.secMeasExtend d a t) d false (
    if !measOk v (s.x t).toNat || !bit v 8 then retStatus s d 0x03
    else if i < 3 || 6 < i || (i < 5 && !s.isM) then retStatus s d 0x0B
    else withOperand s d .load (s.x t) 32 fun pa =>
      let s1 := extendMeas s die i ((List.range 32).map (s.operandByte pa))
      retire s1 d (resultWord 0 0 (nth 0 (nth [] s1.trust.measCount die) i)))

/-- The result of SEC.WIPE: V and PART of a slot. -/
def slotValue (s : State) (i : Nat) : Nat :=
  let k := nth { v := false, part := 0#16, key := 0 } s.trust.keys i
  k.part.toNat + 2 ^ 16 * b2n k.v

/-- The operands of SEC.WIPE are in range (R458). -/
def wipeOk (a t : Nat) : Bool :=
  decide (a < 2 ^ 8) && (bit a 6 || bits a 5 0 != 0) && bits t 15 1 == 0 && decide (t < 2 ^ 32) && !(bit t 0 && bit a 6)

/-- SEC.WIPE with QUERY (R458): the slot's binding, nothing changed. -/
def execSecWipeQuery (d a t : BitVec 5) (s : State) : Out1 :=
  let v := (s.x a).toNat
  onTre s (.secWipeQuery d a t) d false (
    if s.trust.lock then retStatus s d 0x0B
    else if !wipeOk v (s.x t).toNat || !bit v 7 then retStatus s d 0x03
    else retire s d (resultWord 0 0 (slotValue s (if bit v 6 then 1 else bits v 5 0))))

/-- SEC.WIPE (R458): the slots addressed are erased, and one is refilled and bound with GEN. -/
def execSecWipe (d a t : BitVec 5) (s : State) : Out1 :=
  let v := (s.x a).toNat
  let n := (s.x t).toNat
  let slots := if bit v 6 then (List.range 63).map (· + 1) else [bits v 5 0]
  let part : BitVec 16 := BitVec.ofNat 16 (n >>> 16)
  let slot (i : Nat) : KeySlot := nth { v := false, part := 0#16, key := 0 } s.trust.keys i
  let used := s.regions.any fun R => slots.any fun i => (slot i).v && (slot i).part == R.part
  let taken := (List.range 64).any fun i => !slots.contains i && (slot i).v && (slot i).part == part
  onTre s (.secWipe d a t) d false (
    if s.trust.lock then retStatus s d 0x0B
    else if !wipeOk v n || bit v 7 then retStatus s d 0x03
    else if used then retStatus s d 0x01
    else if bit n 0 && (s.trust.lcs ≠ 2 || s.trust.dbg ≠ 0#16) then retStatus s d 0x0B
    else if bit n 0 && (part = 0xFFFF#16 || taken) then retStatus s d 0x03
    else
      let former := slotValue s (if bit v 6 then 1 else bits v 5 0)
      let s1 := slots.foldl eraseSlot s
      let fill (ks : List KeySlot) : List KeySlot := slots.foldl (fun ks i => modNth ks i fun _ =>
        if bit n 0 then { v := true, part := part, key := s.trust.nextKey, bits := Config.randomKey s.ticks } else { v := false, part := 0#16, key := 0 }) ks
      let s2 : State := { s1 with trust := { s1.trust with
        keys := fill s1.trust.keys, nextKey := if bit n 0 then s.trust.nextKey + 1 else s.trust.nextKey } }
      retire s2 d (resultWord 0 0 former))

/-- SEC.UNLK is denied (R459): in BLANK, MANUFACTURE and SCRAPPED, and in lockdown. -/
def State.unlkDenied (s : State) : Bool := s.trust.lcs != 2 && s.trust.lcs != 3 || s.trust.lock

/-- SEC.UNLK NONCE (R459): a nonce is drawn, written at rs2, and outstanding. -/
def execSecUnlkNonce (d a t : BitVec 5) (s : State) : Out1 :=
  onTre s (.secUnlkNonce d a t) d true (
    if s.unlkDenied then retStatus s d 0x0B
    else if s.x a ≠ 0#64 || (s.x t).toNat % 64 ≠ 0 then retStatus s d 0x03
    else withOperand s d .store (s.x t) 32 fun pa =>
      let n := Config.randomBits s.ticks
      let s1 := operandWrite pa 0 (bytes32 n) s
      retStatus { s1 with trust := { s1.trust with nonce := some n } } d 0x00)

/-- The checks of a token in the order of R461: the step that fails first. -/
def tokenFault (s : State) (b : Bytes) : Option Nat :=
  let zero (from_ n : Nat) : Bool := (List.range n).all fun i => b (from_ + i) == 0#8
  let key := (List.range 64).map fun i => b (0x40 + i)
  let be (off : Nat) : Nat := fromBytes ((List.range 32).map fun i => b (off + i)).reverse
  let own := (List.range 8).flatMap fun i => toBytes 4 (s.fuse (2 + i)).toNat
  let e := fromBytes (sha256 ((List.range 0x80).map b)).reverse
  let perm := numAt b 0x30 4
  if numAt b 0 4 ≠ 0x4B4C4E55 || numAt b 4 2 ≠ 1 || b 7 ≠ 0#8 || !zero 0x34 12 then some 1
  else if numAt b 8 8 ≠ (s.fuse 10).toNat + 2 ^ 32 * (s.fuse 11).toNat then some 2
  else if (b 6).toNat ≠ s.trust.lcs then some 3
  else if s.trust.nonce ≠ some (BitVec.ofNat 256 (numAt b 0x10 32)) then some 4
  else if sha256 key ≠ own then some 5
  else if !ecdsaOk (be 0x40) (be 0x60) e (be 0x80) (be 0xA0) then some 6
  else if perm = 0 || perm ≥ 16 || (bit perm 3 && s.trust.lcs ≠ 2) then some 7
  else none

/-- A token that passed (R461): the tenant keys go, the TDIs fail, MEAS7 is extended, the debug port opens. -/
def unlock (s : State) (b : Bytes) : State :=
  let s1 := extendMeas (failTdis (eraseTenants s)) 0 7 (sha256 ((List.range 0x80).map b))
  { s1 with trust := { s1.trust with dbg := BitVec.ofNat 16 (numAt b 0x30 4), ufail := 0#2, nonce := none } }

/-- SEC.UNLK SUBMIT (R459 to R461); while it waits for its operand, the RGN instructions wait for it. -/
def execSecUnlkSubmit (d a t : BitVec 5) (s : State) : Out1 :=
  onTre s (.secUnlkSubmit d a t) d true (
    if s.unlkDenied || s.trust.ufail = 3#2 then retStatus s d 0x0B
    else if s.x a ≠ 1#64 || (s.x t).toNat % 64 ≠ 0 then retStatus s d 0x03
    else if !s.regions.isEmpty then retStatus s d 0x01
    else withOperandAs .submit s d .load (s.x t) 192 fun pa =>
      let b := s.bytesOf pa 192
      match tokenFault s b with
      | none => retire (unlock s b) d (resultWord 0 0 (numAt b 0x30 4))
      | some n =>
        let s1 : State := { s with trust := { s.trust with nonce := none, ufail := s.trust.ufail + 1#2 } }
        let s2 := if s1.trust.ufail = 3#2 then raiseAlarm s1 4 5 else s1
        retire s2 d (resultWord 0x0C n 0))

/-- SEC.UNLK CLOSE (R459): the debug port closes, MEAS7 is extended by 32 bytes of 0xFF. -/
def execSecUnlkClose (d a t : BitVec 5) (s : State) : Out1 :=
  onTre s (.secUnlkClose d a t) d true (
    if s.unlkDenied then retStatus s d 0x0B
    else if s.x a ≠ 2#64 then retStatus s d 0x03
    else
      let s1 := extendMeas s 0 7 (List.replicate 32 0xFF#8)
      retStatus { s1 with trust := { s1.trust with dbg := 0#16 } } d 0x00)

/-- The signature of a die's identity key over the 32 bytes of a digest (R443, R446, R462). -/
def identitySign (die : Nat) (digest : List Byte) (ticks : Nat) : BitVec 512 :=
  ecdsaSign (Config.identitySecret die).toNat (fromBytes digest.reverse) (Config.signingNonce ticks).toNat

/-- The attestation report of a die without its signature (Table 14-12). -/
def reportBody (s : State) (die : Nat) (nonce : List Byte) (count : Nat) : List Byte :=
  let t := s.trust
  fieldBytes 0x140 ([(0, 4, 0x54535441), (4, 2, 1), (6, 1, die), (7, 1, t.lcs), (8, 4, (s.fuse 10).toNat), (12, 4, (s.fuse 11).toNat),
    (0x10, 32, fromBytes nonce), (0x30, 8, count), (0x38, 4, (s.fuse 12).toNat), (0x3C, 4, t.dbg.toNat + 2 ^ 31 * b2n t.lock)]
    ++ table 0x40 32 ((List.range 8).map fun i => (t.measure die i).toNat))

/-- A signature as 64 bytes, big-endian. -/
def sigBytes (v : BitVec 512) : List Byte := (toBytes 64 v.toNat).reverse

/-- SEC.ATST (R462): a signed report of a die over the caller's nonce. -/
def execSecAtst (d a t : BitVec 5) (s : State) : Out1 :=
  let die := (s.x a).toNat
  onTre s (.secAtst d a t) d false (
    if s.trust.lcs = 0 then retStatus s d 0x0B
    else if die > 2 || (s.x t).toNat % 64 ≠ 0 then retStatus s d 0x03
    else withOperand s d .load (s.x t) 32 fun pr =>
      withOperand s d .store (s.x t) 384 fun pa =>
        let count := nth 0 s.trust.reports die + 1
        let body := reportBody s die ((List.range 32).map (s.operandByte pr)) count
        let sig := identitySign die (sha256 body) s.ticks
        let s1 := operandWrite pa 0 (body ++ sigBytes sig) s
        retire { s1 with trust := { s1.trust with reports := modNth s1.trust.reports die fun _ => count } } d (resultWord 0 0 count))

/-! ### SPDM (R445, R446) -/

/-- A response given. -/
def answer (s : State) (x : Spdm) : State := { s with trust := { s.trust with spdm := s.trust.spdm ++ [x] } }

/-- The die of a certificate slot (R446): 0 DX, 1 D0, 2 D1, as dies 2, 0 and 1. -/
def slotDie (slot : Nat) : Option Nat :=
  match slot with
  | 0 => some 2 | 1 => some 0 | 2 => some 1 | _ => none

/-- The dies have identity keys in the lifecycle state in force (Table 14-2). -/
def State.identity (s : State) : Bool := s.trust.lcs == 1 || s.trust.lcs == 2 || s.trust.lcs == 3

/-- The public identity key of a die (R443). -/
def identityKey (die : Nat) : Nat × Nat := baseMul (Config.identitySecret die).toNat

/-- DEVSER, fuse words 10 and 11. -/
def State.devser (s : State) : Nat := (s.fuse 10).toNat + 2 ^ 32 * (s.fuse 11).toNat

/-- The certificate chain of a die (R443): it ends in the leaf that certifies the public key and names the die and DEVSER. -/
def chainOf (s : State) (die : Nat) : List Byte :=
  (List.range (Config.certLength die)).map (Config.certByte die)
    ++ (List.range (Config.leafLength die)).map (Config.leafByte (identityKey die).1 (identityKey die).2 die s.devser)

/-- SPDM GET_VERSION (R445). -/
def execGetVersion (s : State) : Out1 := .next (answer s (.version 1 3))
/-- SPDM GET_CAPABILITIES (R445). -/
def execGetCapabilities (s : State) : Out1 := .next (answer s (.capabilities false false false false 4096 65))
/-- SPDM NEGOTIATE_ALGORITHMS (R445). -/
def execNegotiateAlgorithms (s : State) : Out1 := .next (answer s (.algorithms [.ecdsaP256, .sha256, .ecdheP256, .aes256gcm]))

/-- SPDM GET_DIGESTS (R446): the digests of the chains of slots 0 to 2. -/
def execGetDigests (s : State) : Out1 :=
  .next (answer s (.digests ([0, 1, 2].filterMap fun i => (slotDie i).map fun d => (i, digestOf (chainOf s d)))))

/-- SPDM GET_CERTIFICATE (R446): bytes of a slot's chain; an empty slot is an error. -/
def execGetCertificate (slot off len : Nat) (s : State) : Out1 :=
  match slotDie slot with
  | none => .next (answer s (.error .refused))
  | some d => .next (answer s (.certificate slot (((chainOf s d).drop off).take (min len 4096))))

/-- The measurement blocks (R446): MEASi of die d at 8d + i + 1, the lifecycle code and SVN at 25, the debug mask at 26. -/
def measurementBlocks (s : State) : List (Nat × BitVec 256) :=
  ((List.range 24).map fun n => (n + 1, s.trust.measure (n / 8) (n % 8)))
    ++ [(25, BitVec.ofNat 256 (s.trust.lcs + 2 ^ 32 * (s.fuse 12).toNat)), (26, BitVec.ofNat 256 s.trust.dbg.toNat)]

/-- What a signed response covers: the nonce and the blocks. -/
def signedBytes (nonce : BitVec 256) (blocks : List (Nat × BitVec 256)) : List Byte :=
  bytes32 nonce ++ blocks.flatMap fun b => BitVec.ofNat 8 b.1 :: bytes32 b.2

/-- SPDM CHALLENGE (R446): the registers, signed with the identity key of the slot's die. -/
def execChallenge (slot : Nat) (nonce : BitVec 256) (s : State) : Out1 :=
  match slotDie slot, s.identity with
  | some d, true =>
    let blocks := measurementBlocks s
    .next (answer s (.challengeAuth slot nonce (blocks.map (·.2)) (identitySign d (sha256 (signedBytes nonce blocks)) s.ticks)))
  | _, _ => .next (answer s (.error .refused))

/-- SPDM GET_MEASUREMENTS (R446): one block or, with 255, all of them, signed. -/
def execGetMeasurements (slot idx : Nat) (nonce : BitVec 256) (s : State) : Out1 :=
  match slotDie slot, s.identity with
  | some d, true =>
    let blocks := (measurementBlocks s).filter fun b => idx == 255 || b.1 == idx
    if blocks.isEmpty && idx ≠ 0 then .next (answer s (.error .refused))
    else .next (answer s (.measurements slot nonce blocks (identitySign d (sha256 (signedBytes nonce blocks)) s.ticks)))
  | _, _ => .next (answer s (.error .refused))

/-- SPDM KEY_EXCHANGE (R445): a session opens, one for each TDI and one for the physical function. -/
def execKeyExchange (owner : Option Nat) (s : State) : Out1 :=
  let t := s.trust
  let known : Bool := match owner with
    | some i => decide (i < 64)
    | none => true
  if !known || !s.identity || t.sessions.any fun x => x.owner == owner then .next (answer s (.error .refused))
  else
    let x : Session := { id := t.nextSess, owner := owner, finished := false, keyNo := 0 }
    .next (answer { s with trust := { t with sessions := t.sessions ++ [x], nextSess := t.nextSess + 1 } } (.keyExchange x.id))

/-- What a request on an open session comes to: an error where there is none that FINISH has completed. -/
def onSession (s : State) (id : Nat) (finished : Bool) (f : Session → State) : Out1 :=
  match s.trust.sessions.find? fun x => x.id == id && x.finished == finished with
  | none => .next (answer s (.error .refused))
  | some x => .next (f x)

/-- A session changed. -/
def modSession (s : State) (id : Nat) (f : Session → Session) : State :=
  { s with trust := { s.trust with sessions := s.trust.sessions.map fun x => if x.id = id then f x else x } }

/-- SPDM FINISH (R445): the session is complete. -/
def execFinish (session : Nat) (s : State) : Out1 :=
  onSession s session false fun x => answer (modSession s x.id fun y => { y with finished := true }) (.finish session)

/-- SPDM HEARTBEAT (R445). -/
def execHeartbeat (session : Nat) (s : State) : Out1 := onSession s session true fun _ => answer s (.heartbeat session)

/-- SPDM KEY_UPDATE (R445): the session's next keys. -/
def execKeyUpdate (session : Nat) (s : State) : Out1 :=
  onSession s session true fun x => answer (modSession s x.id fun y => { y with keyNo := y.keyNo + 1 }) (.keyUpdate session)

/-- SPDM END_SESSION (R445): the session closes. -/
def execEndSession (session : Nat) (s : State) : Out1 :=
  onSession s session true fun x =>
    answer { s with trust := { s.trust with sessions := s.trust.sessions.filter fun y => y.id != x.id } } (.endSession session)

/-! ### TDISP (R447) -/

/-- A TDI in one of some states changed. -/
def modTdi (s : State) (t : Nat) (on : Tdisp → Bool) (f : Tdi → Tdi) : State :=
  { s with tdis := modNth s.tdis t fun x => if on x.st then f x else x }

/-- LOCK_INTERFACE (R447). -/
def lockTdi (s : State) (t : Nat) : State := modTdi s t (· == .unlocked) fun x => { x with st := .locked, bound := true }
/-- START_INTERFACE (R447). -/
def startTdi (s : State) (t : Nat) : State := modTdi s t (· == .locked) fun x => { x with st := .run }
/-- STOP_INTERFACE (R447). -/
def stopTdi (s : State) (t : Nat) : State :=
  modTdi s t (fun _ => true) fun x => { x with st := .unlocked, bound := false, ide := false }

/-- TDISP LOCK_INTERFACE (R447): BOUND is set, the TDI's PART is frozen. -/
def execLockInterface (tdi : Nat) (s : State) : Out1 := .next (lockTdi s tdi)
/-- TDISP START_INTERFACE (R447): the TDI runs. -/
def execStartInterface (tdi : Nat) (s : State) : Out1 := .next (startTdi s tdi)
/-- TDISP STOP_INTERFACE (R447): CONFIG_UNLOCKED, the IDE keys erased, BOUND clear. -/
def execStopInterface (tdi : Nat) (s : State) : Out1 := .next (stopTdi s tdi)
/-- A change of the virtual function or an IDE integrity failure (R447): ERROR from LOCKED or RUN. -/
def execTdiError (tdi : Nat) (s : State) : Out1 :=
  .next (modTdi s tdi (fun x => x == .locked || x == .run) fun x => { x with st := .error })

/-- SPDM VENDOR_DEFINED (R445, R447): a TDISP or IDE key management message on a session of the TDI or the physical function. -/
def execVendorDefined (session : Nat) (msg : VendorMsg) (s : State) : Out1 :=
  let t := match msg with
    | .lockInterface t => t
    | .startInterface t => t
    | .stopInterface t => t
    | .ideKeyProg t => t
    | .ideKeyStop t => t
  onSession s session true fun x =>
    let mine : Bool := decide (t < 64) && (match x.owner with | some o => o == t | none => true)
    if !mine then answer s (.error .refused)
    else
      let s1 := match msg with
        | .lockInterface t => lockTdi s t
        | .startInterface t => startTdi s t
        | .stopInterface t => stopTdi s t
        | .ideKeyProg t => modTdi s t (fun _ => true) fun x => { x with ide := true }
        | .ideKeyStop t => modTdi s t (fun _ => true) fun x => { x with ide := false }
      answer s1 (.vendor session)

/-- Any other SPDM request (R445): ERROR with UnsupportedRequest. -/
def execSpdmUnsupportedRequest (_code : Byte) (s : State) : Out1 := .next (answer s (.error .unsupportedRequest))

/-! ### The debug port (R463, Table 14-8) -/

/-- DEBUG_ACCESS: an access that the open mask permits changes nothing that the manual describes; any other is refused with the
debug-misuse alarm (Table 14-13). -/
def execDebugAccess (b : Nat) (_pa : Nat) (s : State) : Out1 :=
  .next (if decide (b < 4) && bit s.trust.dbg.toNat b then s else raiseAlarm s 4 5)

end Sys2Proof.Machine
end

