-- ==== Sys2Proof/Machine/Power.lean ====
section
/-! DEFINITION. Thermal control (R468 to R470), resets and bring-up (R471, R474). -/

namespace Sys2Proof.Machine

/-! ### Thermal control -/

/-- DUTY of a die after an update (R469). -/
def dutyNext (tlim t : Nat) (d : BitVec 4) : BitVec 4 :=
  if t > tlim then (if d = 15#4 then d else d + 1#4)
  else if t + 3 < tlim then (if d = 0#4 then d else d - 1#4)
  else d

/-- THERMAL_UPDATE (R468, R469): `t` has the hottest sensor of D0 and that of D1, `base` is the hottest of DX. -/
def execThermalUpdate (t : BitVec 8 × BitVec 8) (base : BitVec 8) (s : State) : Out1 :=
  let y := s.yard
  .next { s with yard := { y with
    tjmax := BitVec.ofNat 8 (max (max t.1.toNat t.2.toNat) base.toNat)
    duty0 := dutyNext y.tlim.toNat t.1.toNat y.duty0
    duty1 := dutyNext y.tlim.toNat t.2.toNat y.duty1 } }

/-- The freeze of a region by a thermal trip (R55, R470): as an alarm's, with no fault record. -/
def Region.trip (R : Region) : Region :=
  let R1 := { R with errand := none, draining := false }
  match R.roll with
  | some x => { R1 with roll := some { x with back := if x.back = .running then .frozen else x.back }, halting := true }
  | none => if R.st = .running then { R1 with st := .frozen, halting := true } else R1

/-- THERMAL_TRIP (R470): every region freezes, THERMTRIP_N is asserted, key slots are kept. -/
def execThermalTrip (s : State) : Out1 :=
  .next { s with regions := s.regions.map Region.trip, boot := { s.boot with thermtrip := true } }

/-! ### Resets (R471, R474) -/

/-- The Trust Engine after a reset: fuses and the keys of slots 1 to 63 stay, everything else is as at power-on (R444, R448,
R459). -/
def Trust.afterReset (t : Trust) : Trust :=
  { Trust.reset with fuses := t.fuses, keys := t.keys, nextKey := t.nextKey, nextSess := t.nextSess }

/-- The device back in bring-up step 1: memory keeps its bits, slot 0's key is gone, IFTRET stays (R370, R448, R474). -/
def warmReset (s : State) : State :=
  let s1 := eraseSlot s 0
  { s1 with
    boot := { step := 1, powerOn := false, lpddr := s.boot.lpddr, bootfail := none, thermtrip := false }
    harts := List.replicate 16 Hart.reset
    regions := []
    home := Home.reset
    comp := []
    walks := []
    cfuRot := []
    linkRot := []
    yard := { Yard.reset with iftRet := s.yard.iftRet }
    links := Links.reset
    tdis := List.replicate 64 Tdi.reset
    trust := s1.trust.afterReset }

/-- The bits of HBM4E and LPDDR 6 undefined: no line reads as what was written (R474). -/
def forgetMemory (s : State) : State :=
  { s with mem := s.mem.filter (fun c => !inDeviceMemory s c.1), owners := s.owners.filter fun o => !inDeviceMemory s (64 * o.line) }

/-- RESET_N low (R471). -/
def execResetNAssert (s : State) : Out1 := .next (warmReset s)

/-- A failed PWRGD (R471): a reset; where VHBM or VLP left its tolerance the memories' bits are undefined (R474). -/
def execPwrgdFail (railsLost : Bool) (s : State) : Out1 := .next (if railsLost then forgetMemory (warmReset s) else warmReset s)

/-! ### Bring-up (Table 15-5) -/

/-- Step 1: PWRGD, after power-on or not, LPDDR_PRESENT as `lpddr` says (R465). Power-on clears what a warm reset keeps (R370,
R474). -/
def execPwrgdAssert (powerOn lpddr : Bool) (s : State) : Out1 :=
  if s.boot.step ≠ 1 then .next s
  else
    let on : State := { s with boot := { s.boot with step := 2, powerOn := powerOn, lpddr := lpddr } }
    if powerOn then
      let s1 := forgetMemory on
      .next { s1 with
        yard := { s1.yard with iftRet := 0#32 }
        trust := { s1.trust with keys := Trust.reset.keys } }
    else .next on

/-- A failure: every hart stays in reset, BOOTFAIL shows the step (R471). -/
def bootFail (s : State) (n : Nat) : State := { s with boot := { s.boot with bootfail := some (BitVec.ofNat 4 (8 + n)) } }

/-- PLL_LOCK_TIMEOUT (R471 step 2). -/
def execPllLockTimeout (s : State) : Out1 := if s.boot.step = 2 && s.boot.bootfail.isNone then .next (bootFail s 2) else .next s

/-- Step 3: the fuses are read, the lifecycle state is fixed, in RETURN or SCRAPPED every key slot is erased (R440 to R442). -/
def readFuses (s : State) : State :=
  let bad := (List.range 64).filter (Config.fuseDisagrees s.ticks)
  let s1 : State := { s with trust := { s.trust with fuseBad := bad } }
  let s2 := if bad.isEmpty then s1 else raiseAlarm s1 5 7
  let code := lcsCode ((s2.fuse 0).toNat % 16)
  let s3 := if code = 3 || code = 4 then eraseTenants (eraseSlot s2 0) else s2
  { s3 with trust := { s3.trust with lcs := code, dbg := if code ≤ 1 then 0x000F#16 else 0#16 } }

/-- The fuse words 0 to 12 as read, in bytes (R444). -/
def fuseBytes (s : State) : List Byte := (List.range 13).flatMap fun w => toBytes 4 (s.fuse w).toNat

/-- Step 4: MEAS0 of D0, D1 and DX is extended by the digests of mask ROM, trim block and fuses (R444). -/
def measureDies (s : State) : State :=
  [0, 1, 2].foldl (fun s d =>
    extendMeas (extendMeas (extendMeas s d 0 (bytes32 (Config.imageDigest d))) d 0 (bytes32 (Config.imageDigest (3 + d)))) d 0
      (sha256 (fuseBytes s))) s

/-- PLL_LOCK (R471 steps 2 to 5): `tests` tells that the known-answer tests pass, `fwOk` that the TRE's firmware verifies. -/
def execPllLock (tests fwOk : Bool) (s : State) : Out1 :=
  if s.boot.step ≠ 2 || s.boot.bootfail.isSome then .next s
  else
    let s1 := readFuses s
    if !tests then .next (bootFail (raiseAlarm s1 5 6) 4)
    else
      let s2 := measureDies s1
      if !fwOk then .next (bootFail s2 5)
      else
        let s3 := extendMeas s2 0 1 (bytes32 (Config.imageDigest 6))
        .next { s3 with boot := { s3.boot with step := 6 } }

/-- MEMORY_TRAINING_DONE (R471 steps 6 to 8): `trained` tells that training succeeds, `fwOk` that the CC's firmware verifies. Slot 0
gets a new key (R448); in RETURN and SCRAPPED the memories are zeroed, and no line reads as what was written (R442). Hart 0 leaves
reset. -/
def execMemoryTrainingDone (trained fwOk : Bool) (s : State) : Out1 :=
  if s.boot.step ≠ 6 || s.boot.bootfail.isSome then .next s
  else if !trained then .next (bootFail s 6)
  else
    let s1 := if s.trust.lcs = 3 || s.trust.lcs = 4 then forgetMemory s else s
    let key : KeySlot := { v := true, part := 0xFFFF#16, key := s1.trust.nextKey, bits := Config.randomKey s.ticks }
    let s2 : State := { zeroFabric s1 with trust := { s1.trust with keys := modNth s1.trust.keys 0 fun _ => key, nextKey := s1.trust.nextKey + 1 } }
    if !fwOk then .next (bootFail s2 7)
    else
      let s3 := extendMeas s2 0 2 (bytes32 (Config.imageDigest 7))
      let s4 := { s3 with boot := { s3.boot with step := 9 } }
      .next (s4.modHart 0 fun H => { H with running := true, pc := Config.firmwareEntry })

end Sys2Proof.Machine
end

