-- ==== Sys2Proof/Machine/HartOps.lean ====
section
/-! DEFINITION. What else a hart does: the illegal-instruction trap (R88) and a load, store, LR, SC or AMO (R230). -/

namespace Sys2Proof.Machine

/-- ILLEGAL_INSTRUCTION (R88): the trap, with no other state changed. -/
def execIllegalInstruction (w : W32) (s : State) : Out1 := .next (trapIllegal s w)

/-- The exception of an access that is not naturally aligned: an LR takes the load's, an SC or AMO the store's (RISC-V, log
entry 2). -/
def misaligned (op : MemOp) : W64 := if opWrites op then 6#64 else 4#64

/-- CC_HART_MEMORY_ACCESS (R230, R372, R373, R449): a hart's load, store, LR, SC or AMO is translated and checked, and reaches the
home agent under key slot 0; it waits while its line is provisional. -/
def execCcHartMemoryAccess (va : W64) (op : MemOp) (s : State) : Out1 :=
  let H := s.hart s.me
  if va.toNat % opBytes op ≠ 0 then .next (s.modHart s.me fun H => H.trap (misaligned op) va)
  else match s.hartAddr H H.dataPriv (if opWrites op then .store else .load) va.toNat (opBytes op) with
    | .error c => .next (s.modHart s.me fun H => H.trap c va)
    | .ok pa =>
      match agentAccess s s.me 0 pa op with
      | none => .next s
      | some (s1, v) => .next (retire s1 (opDest op) v)

end Sys2Proof.Machine
end

