-- ==== Sys2Proof/Machine/Dispatch.lean ====
section
/-! DEFINITION. The dispatch: one arm for each constructor of `Instr`, each one direct call of its meaning. -/

namespace Sys2Proof.Machine

/-- The meaning of an instruction or event in a state. -/
def exec (i : Instr) (s : State) : Host.Outcome State Fault Refusal :=
  match i with
  | .rgnAlloc d a sv => Sys2Proof.Machine.execRgnAlloc d a sv s
  | .rgnLoad d a sv => Sys2Proof.Machine.execRgnLoad d a sv s
  | .rgnStart d a sv => Sys2Proof.Machine.execRgnStart d a sv s
  | .rgnFreeze d a => Sys2Proof.Machine.execRgnFreeze d a s
  | .rgnDrain d a => Sys2Proof.Machine.execRgnDrain d a s
  | .rgnSave d a sv => Sys2Proof.Machine.execRgnSave d a sv s
  | .rgnRest d a sv => Sys2Proof.Machine.execRgnRest d a sv s
  | .rgnMove d a sv => Sys2Proof.Machine.execRgnMove d a sv s
  | .rgnKill d a => Sys2Proof.Machine.execRgnKill d a s
  | .rgnPrio d a sv => Sys2Proof.Machine.execRgnPrio d a sv s
  | .rgnStat d a sv => Sys2Proof.Machine.execRgnStat d a sv s
  | .callTake d a sv => Sys2Proof.Machine.execCallTake d a sv s
  | .callDone d a => Sys2Proof.Machine.execCallDone d a s
  | .secFuseRead d a sv => Sys2Proof.Machine.execSecFuseRead d a sv s
  | .secFuseBlow d a sv => Sys2Proof.Machine.execSecFuseBlow d a sv s
  | .secMeasRead d a sv => Sys2Proof.Machine.execSecMeasRead d a sv s
  | .secMeasExtend d a sv => Sys2Proof.Machine.execSecMeasExtend d a sv s
  | .secWipeQuery d a sv => Sys2Proof.Machine.execSecWipeQuery d a sv s
  | .secWipe d a sv => Sys2Proof.Machine.execSecWipe d a sv s
  | .secUnlkNonce d a sv => Sys2Proof.Machine.execSecUnlkNonce d a sv s
  | .secUnlkSubmit d a sv => Sys2Proof.Machine.execSecUnlkSubmit d a sv s
  | .secUnlkClose d a sv => Sys2Proof.Machine.execSecUnlkClose d a sv s
  | .secAtst d a sv => Sys2Proof.Machine.execSecAtst d a sv s
  | .illegalInstruction w => Sys2Proof.Machine.execIllegalInstruction w s
  | .xparkPop d => Sys2Proof.Machine.execXparkPop d s
  | .xparkRefuse v => Sys2Proof.Machine.execXparkRefuse v s
  | .xinvcmd v => Sys2Proof.Machine.execXinvcmd v s
  | .invalidationComplete => Sys2Proof.Machine.execInvalidationComplete s
  | .capdataWrite v => Sys2Proof.Machine.execCapdataWrite v s
  | .capabilityPendingApply rid idx => Sys2Proof.Machine.execCapabilityPendingApply rid idx s
  | .lnkdataWrite v => Sys2Proof.Machine.execLnkdataWrite v s
  | .partselWrite v => Sys2Proof.Machine.execPartselWrite v s
  | .csrWrite csr v => Sys2Proof.Machine.execCsrWrite csr v s
  | .callwin tdi call => Sys2Proof.Machine.execCallwin tdi call s
  | .pwrgdAssert powerOn lpddr => Sys2Proof.Machine.execPwrgdAssert powerOn lpddr s
  | .pllLock tests fwOk => Sys2Proof.Machine.execPllLock tests fwOk s
  | .memoryTrainingDone trained fwOk => Sys2Proof.Machine.execMemoryTrainingDone trained fwOk s
  | .tokenHop rid k => Sys2Proof.Machine.execTokenHop rid k s
  | .creditReturn rid => Sys2Proof.Machine.execCreditReturn rid s
  | .gatewayPass rid k => Sys2Proof.Machine.execGatewayPass rid k s
  | .ingressPlace rid k => Sys2Proof.Machine.execIngressPlace rid k s
  | .packetReceive port p => Sys2Proof.Machine.execPacketReceive port p s
  | .slotWrite => Sys2Proof.Machine.execSlotWrite s
  | .stickyArrival => Sys2Proof.Machine.execStickyArrival s
  | .purgeArrival => Sys2Proof.Machine.execPurgeArrival s
  | .cancelArrival => Sys2Proof.Machine.execCancelArrival s
  | .markerArrival => Sys2Proof.Machine.execMarkerArrival s
  | .endOfStreamArrival => Sys2Proof.Machine.execEndOfStreamArrival s
  | .bubbleArrival => Sys2Proof.Machine.execBubbleArrival s
  | .aluResultEmit rid u => Sys2Proof.Machine.execAluResultEmit rid u s
  | .copy r => Sys2Proof.Machine.execCopy r s
  | .iadd r => Sys2Proof.Machine.execIadd r s
  | .isub r => Sys2Proof.Machine.execIsub r s
  | .imul r => Sys2Proof.Machine.execImul r s
  | .imulh r => Sys2Proof.Machine.execImulh r s
  | .imad r => Sys2Proof.Machine.execImad r s
  | .idiv r => Sys2Proof.Machine.execIdiv r s
  | .irem r => Sys2Proof.Machine.execIrem r s
  | .imin r => Sys2Proof.Machine.execImin r s
  | .imax r => Sys2Proof.Machine.execImax r s
  | .iabs r => Sys2Proof.Machine.execIabs r s
  | .ineg r => Sys2Proof.Machine.execIneg r s
  | .iaddc r => Sys2Proof.Machine.execIaddc r s
  | .isubb r => Sys2Proof.Machine.execIsubb r s
  | .idot4 r => Sys2Proof.Machine.execIdot4 r s
  | .iclamp r => Sys2Proof.Machine.execIclamp r s
  | .and r => Sys2Proof.Machine.execAnd r s
  | .or r => Sys2Proof.Machine.execOr r s
  | .xor r => Sys2Proof.Machine.execXor r s
  | .andn r => Sys2Proof.Machine.execAndn r s
  | .not r => Sys2Proof.Machine.execNot r s
  | .lut3 r => Sys2Proof.Machine.execLut3 r s
  | .shl r => Sys2Proof.Machine.execShl r s
  | .shr r => Sys2Proof.Machine.execShr r s
  | .sar r => Sys2Proof.Machine.execSar r s
  | .rotl r => Sys2Proof.Machine.execRotl r s
  | .funl r => Sys2Proof.Machine.execFunl r s
  | .clz r => Sys2Proof.Machine.execClz r s
  | .popc r => Sys2Proof.Machine.execPopc r s
  | .brev r => Sys2Proof.Machine.execBrev r s
  | .bext r => Sys2Proof.Machine.execBext r s
  | .bins r => Sys2Proof.Machine.execBins r s
  | .icmp r => Sys2Proof.Machine.execIcmp r s
  | .sel r => Sys2Proof.Machine.execSel r s
  | .fadd r => Sys2Proof.Machine.execFadd r s
  | .fsub r => Sys2Proof.Machine.execFsub r s
  | .fmul r => Sys2Proof.Machine.execFmul r s
  | .ffma r => Sys2Proof.Machine.execFfma r s
  | .fmin r => Sys2Proof.Machine.execFmin r s
  | .fmax r => Sys2Proof.Machine.execFmax r s
  | .fabs r => Sys2Proof.Machine.execFabs r s
  | .fneg r => Sys2Proof.Machine.execFneg r s
  | .fcmp r => Sys2Proof.Machine.execFcmp r s
  | .frnd r => Sys2Proof.Machine.execFrnd r s
  | .fclass r => Sys2Proof.Machine.execFclass r s
  | .fscale r => Sys2Proof.Machine.execFscale r s
  | .fdot2 r => Sys2Proof.Machine.execFdot2 r s
  | .famax r => Sys2Proof.Machine.execFamax r s
  | .cvt r => Sys2Proof.Machine.execCvt r s
  | .cvts r => Sys2Proof.Machine.execCvts r s
  | .qpack r => Sys2Proof.Machine.execQpack r s
  | .qunpack r => Sys2Proof.Machine.execQunpack r s
  | .qscale r => Sys2Proof.Machine.execQscale r s
  | .pmerge r => Sys2Proof.Machine.execPmerge r s
  | .psplit r => Sys2Proof.Machine.execPsplit r s
  | .pext r => Sys2Proof.Machine.execPext r s
  | .pins r => Sys2Proof.Machine.execPins r s
  | .pbcast r => Sys2Proof.Machine.execPbcast r s
  | .preduce r => Sys2Proof.Machine.execPreduce r s
  | .pshuf r => Sys2Proof.Machine.execPshuf r s
  | .plen r => Sys2Proof.Machine.execPlen r s
  | .ptest r => Sys2Proof.Machine.execPtest r s
  | .draw r => Sys2Proof.Machine.execDraw r s
  | .cadd128 r => Sys2Proof.Machine.execCadd128 r s
  | .steer r => Sys2Proof.Machine.execSteer r s
  | .merge r => Sys2Proof.Machine.execMerge r s
  | .gate r => Sys2Proof.Machine.execGate r s
  | .enter r => Sys2Proof.Machine.execEnter r s
  | .next r => Sys2Proof.Machine.execNext r s
  | .leave r => Sys2Proof.Machine.execLeave r s
  | .callf r => Sys2Proof.Machine.execCallf r s
  | .retf r => Sys2Proof.Machine.execRetf r s
  | .falloc r => Sys2Proof.Machine.execFalloc r s
  | .fallocGrant rid => Sys2Proof.Machine.execFallocGrant rid s
  | .ffree r => Sys2Proof.Machine.execFfree r s
  | .stick r => Sys2Proof.Machine.execStick r s
  | .purge r => Sys2Proof.Machine.execPurge r s
  | .cancel r => Sys2Proof.Machine.execCancel r s
  | .mark r => Sys2Proof.Machine.execMark r s
  | .hold r => Sys2Proof.Machine.execHold r s
  | .eos r => Sys2Proof.Machine.execEos r s
  | .source r => Sys2Proof.Machine.execSource r s
  | .sink r => Sys2Proof.Machine.execSink r s
  | .const r => Sys2Proof.Machine.execConst r s
  | .tagget r => Sys2Proof.Machine.execTagget r s
  | .taggetTag r => Sys2Proof.Machine.execTaggetTag r s
  | .tagset r => Sys2Proof.Machine.execTagset r s
  | .oreduce r => Sys2Proof.Machine.execOreduce r s
  | .ex2 r => Sys2Proof.Machine.execEx2 r s
  | .lg2 r => Sys2Proof.Machine.execLg2 r s
  | .rcp r => Sys2Proof.Machine.execRcp r s
  | .rsq r => Sys2Proof.Machine.execRsq r s
  | .sqrt r => Sys2Proof.Machine.execSqrt r s
  | .sinpi r => Sys2Proof.Machine.execSinpi r s
  | .cospi r => Sys2Proof.Machine.execCospi r s
  | .tanh r => Sys2Proof.Machine.execTanh r s
  | .erf r => Sys2Proof.Machine.execErf r s
  | .cfuRequestServe col => Sys2Proof.Machine.execCfuRequestServe col s
  | .cfuReply col => Sys2Proof.Machine.execCfuReply col s
  | .ld r => Sys2Proof.Machine.execLd r s
  | .st r => Sys2Proof.Machine.execSt r s
  | .ldacq r => Sys2Proof.Machine.execLdacq r s
  | .strel r => Sys2Proof.Machine.execStrel r s
  | .lds r => Sys2Proof.Machine.execLds r s
  | .lde r => Sys2Proof.Machine.execLde r s
  | .stf r => Sys2Proof.Machine.execStf r s
  | .stw r => Sys2Proof.Machine.execStw r s
  | .feget r => Sys2Proof.Machine.execFeget r s
  | .feset r => Sys2Proof.Machine.execFeset r s
  | .atom r => Sys2Proof.Machine.execAtom r s
  | .cas r => Sys2Proof.Machine.execCas r s
  | .red r => Sys2Proof.Machine.execRed r s
  | .chunk r => Sys2Proof.Machine.execChunk r s
  | .drain r => Sys2Proof.Machine.execDrain r s
  | .fence r => Sys2Proof.Machine.execFence r s
  | .syncinv r => Sys2Proof.Machine.execSyncinv r s
  | .accessPerform rid page k => Sys2Proof.Machine.execAccessPerform rid page k s
  | .waiterRetry rid page => Sys2Proof.Machine.execWaiterRetry rid page s
  | .accessRetire rid page k => Sys2Proof.Machine.execAccessRetire rid page k s
  | .muRequestPortServe rid page => Sys2Proof.Machine.execMuRequestPortServe rid page s
  | .homeAgentRmw k => Sys2Proof.Machine.execHomeAgentRmw k s
  | .homeAgentOrdinalReport => Sys2Proof.Machine.execHomeAgentOrdinalReport s
  | .reservationExpiry h => Sys2Proof.Machine.execReservationExpiry h s
  | .sload r => Sys2Proof.Machine.execSload r s
  | .sstore r => Sys2Proof.Machine.execSstore r s
  | .sfeed r => Sys2Proof.Machine.execSfeed r s
  | .sgather r => Sys2Proof.Machine.execSgather r s
  | .sscatter r => Sys2Proof.Machine.execSscatter r s
  | .sxlat r => Sys2Proof.Machine.execSxlat r s
  | .scopy r => Sys2Proof.Machine.execScopy r s
  | .streamPass1Done rid u k => Sys2Proof.Machine.execStreamPass1Done rid u k s
  | .sfeedPacket rid u k => Sys2Proof.Machine.execSfeedPacket rid u k s
  | .streamComplete rid u k => Sys2Proof.Machine.execStreamComplete rid u k s
  | .pageWalkComplete k => Sys2Proof.Machine.execPageWalkComplete k s
  | .mma r => Sys2Proof.Machine.execMma r s
  | .mmas r => Sys2Proof.Machine.execMmas r s
  | .mzero r => Sys2Proof.Machine.execMzero r s
  | .mout r => Sys2Proof.Machine.execMout r s
  | .mcb r => Sys2Proof.Machine.execMcb r s
  | .mwake r => Sys2Proof.Machine.execMwake r s
  | .mgate r => Sys2Proof.Machine.execMgate r s
  | .mmaOperandsRead rid u k => Sys2Proof.Machine.execMmaOperandsRead rid u k s
  | .moutWrite rid u k => Sys2Proof.Machine.execMoutWrite rid u k s
  | .mcbInstall rid u k => Sys2Proof.Machine.execMcbInstall rid u k s
  | .quadrantPowerChange rid u k => Sys2Proof.Machine.execQuadrantPowerChange rid u k s
  | .sgen r => Sys2Proof.Machine.execSgen r s
  | .sand r => Sys2Proof.Machine.execSand r s
  | .sxnor r => Sys2Proof.Machine.execSxnor r s
  | .smux r => Sys2Proof.Machine.execSmux r s
  | .sor r => Sys2Proof.Machine.execSor r s
  | .scnt r => Sys2Proof.Machine.execScnt r s
  | .sdot r => Sys2Proof.Machine.execSdot r s
  | .sregen r => Sys2Proof.Machine.execSregen r s
  | .slen r => Sys2Proof.Machine.execSlen r s
  | .sloadv r => Sys2Proof.Machine.execSloadv r s
  | .sstorev r => Sys2Proof.Machine.execSstorev r s
  | .sclr r => Sys2Proof.Machine.execSclr r s
  | .sbeOperationComplete rid u k => Sys2Proof.Machine.execSbeOperationComplete rid u k s
  | .send r => Sys2Proof.Machine.execSend r s
  | .recv r => Sys2Proof.Machine.execRecv r s
  | .post r => Sys2Proof.Machine.execPost r s
  | .nred r => Sys2Proof.Machine.execNred r s
  | .call r => Sys2Proof.Machine.execCall r s
  | .linkAcknowledge id => Sys2Proof.Machine.execLinkAcknowledge id s
  | .messageDelivery rid k => Sys2Proof.Machine.execMessageDelivery rid k s
  | .postDelivery rid k => Sys2Proof.Machine.execPostDelivery rid k s
  | .sendReportArrival rid id status placed sent => Sys2Proof.Machine.execSendReportArrival rid id status placed sent s
  | .nredCombine tree inst => Sys2Proof.Machine.execNredCombine tree inst s
  | .nredDeadline tree inst => Sys2Proof.Machine.execNredDeadline tree inst s
  | .portUpChange port up peer => Sys2Proof.Machine.execPortUpChange port up peer s
  | .peerAccess req => Sys2Proof.Machine.execPeerAccess req s
  | .hostMemoryAccess tdi pa op => Sys2Proof.Machine.execHostMemoryAccess tdi pa op s
  | .callResponseDelivery rid => Sys2Proof.Machine.execCallResponseDelivery rid s
  | .probe dev rid part target => Sys2Proof.Machine.execProbe dev rid part target s
  | .probeAnswer rid dev target => Sys2Proof.Machine.execProbeAnswer rid dev target s
  | .dieConfigAck rid die => Sys2Proof.Machine.execDieConfigAck rid die s
  | .sourceRelease rid => Sys2Proof.Machine.execSourceRelease rid s
  | .freezeHaltReport rid => Sys2Proof.Machine.execFreezeHaltReport rid s
  | .drainLinkdown rid => Sys2Proof.Machine.execDrainLinkdown rid s
  | .killComplete rid => Sys2Proof.Machine.execKillComplete rid s
  | .yardSliceExpiry rid => Sys2Proof.Machine.execYardSliceExpiry rid s
  | .yardMinimumShare rid => Sys2Proof.Machine.execYardMinimumShare rid s
  | .yardRestore rid => Sys2Proof.Machine.execYardRestore rid s
  | .roundSeal rid => Sys2Proof.Machine.execRoundSeal rid s
  | .roundConfirm rid => Sys2Proof.Machine.execRoundConfirm rid s
  | .comparatorMatch k => Sys2Proof.Machine.execComparatorMatch k s
  | .strikeReport die cx cy => Sys2Proof.Machine.execStrikeReport die cx cy s
  | .rollback rid => Sys2Proof.Machine.execRollback rid s
  | .roundReplay rid => Sys2Proof.Machine.execRoundReplay rid s
  | .asaSelfCheck die cx cy allFail => Sys2Proof.Machine.execAsaSelfCheck die cx cy allFail s
  | .iftInterval => Sys2Proof.Machine.execIftInterval s
  | .scanSelfTestDone passed => Sys2Proof.Machine.execScanSelfTestDone passed s
  | .thermalUpdate t base => Sys2Proof.Machine.execThermalUpdate t base s
  | .thermalTrip => Sys2Proof.Machine.execThermalTrip s
  | .securityAlarm cls code => Sys2Proof.Machine.execSecurityAlarm cls code s
  | .railGuardViolation => Sys2Proof.Machine.execRailGuardViolation s
  | .clockGuardViolation => Sys2Proof.Machine.execClockGuardViolation s
  | .tamperEvent => Sys2Proof.Machine.execTamperEvent s
  | .treHourlySelfTest passed => Sys2Proof.Machine.execTreHourlySelfTest passed s
  | .debugAccess bit pa => Sys2Proof.Machine.execDebugAccess bit pa s
  | .getVersion => Sys2Proof.Machine.execGetVersion s
  | .getCapabilities => Sys2Proof.Machine.execGetCapabilities s
  | .negotiateAlgorithms => Sys2Proof.Machine.execNegotiateAlgorithms s
  | .getDigests => Sys2Proof.Machine.execGetDigests s
  | .getCertificate slot off len => Sys2Proof.Machine.execGetCertificate slot off len s
  | .challenge slot nonce => Sys2Proof.Machine.execChallenge slot nonce s
  | .getMeasurements slot idx nonce => Sys2Proof.Machine.execGetMeasurements slot idx nonce s
  | .keyExchange owner => Sys2Proof.Machine.execKeyExchange owner s
  | .finish session => Sys2Proof.Machine.execFinish session s
  | .heartbeat session => Sys2Proof.Machine.execHeartbeat session s
  | .keyUpdate session => Sys2Proof.Machine.execKeyUpdate session s
  | .endSession session => Sys2Proof.Machine.execEndSession session s
  | .vendorDefined session msg => Sys2Proof.Machine.execVendorDefined session msg s
  | .spdmUnsupportedRequest code => Sys2Proof.Machine.execSpdmUnsupportedRequest code s
  | .lockInterface tdi => Sys2Proof.Machine.execLockInterface tdi s
  | .startInterface tdi => Sys2Proof.Machine.execStartInterface tdi s
  | .stopInterface tdi => Sys2Proof.Machine.execStopInterface tdi s
  | .tdiError tdi => Sys2Proof.Machine.execTdiError tdi s
  | .resetNAssert => Sys2Proof.Machine.execResetNAssert s
  | .pwrgdFail railsLost => Sys2Proof.Machine.execPwrgdFail railsLost s
  | .pllLockTimeout => Sys2Proof.Machine.execPllLockTimeout s
  | .deafCellMove rid => Sys2Proof.Machine.execDeafCellMove rid s
  | .ccHartMemoryAccess va op => Sys2Proof.Machine.execCcHartMemoryAccess va op s
  | .mmaAccumulationDone rid u k => Sys2Proof.Machine.execMmaAccumulationDone rid u k s

end Sys2Proof.Machine
end

