-- ==== Sys2Proof/Machine/HartAlu.lean ====
section
/-! DEFINITION. Integer instructions of the harts' base architecture, RV64IM with Zba and Zbb (R372): the manual names it and
does not repeat it; what stands here is RISC-V's, PRESUMED (log entry 2). -/

namespace Sys2Proof.Machine

/-! ### Fields and immediates of a word -/

/-- rd. -/
def wRd (w : W32) : BitVec 5 := w.extractLsb' 7 5
/-- rs1. -/
def wRs1 (w : W32) : BitVec 5 := w.extractLsb' 15 5
/-- rs2. -/
def wRs2 (w : W32) : BitVec 5 := w.extractLsb' 20 5
/-- funct3. -/
def wF3 (w : W32) : Nat := (w.extractLsb' 12 3).toNat
/-- funct7. -/
def wF7 (w : W32) : Nat := (w.extractLsb' 25 7).toNat
/-- Bits [31:20]. -/
def wI12 (w : W32) : Nat := (w.extractLsb' 20 12).toNat
/-- The immediate of an I-type word. -/
def immI (w : W32) : W64 := (w.extractLsb' 20 12).signExtend 64
/-- The immediate of an S-type word. -/
def immS (w : W32) : W64 := (w.extractLsb' 25 7 ++ w.extractLsb' 7 5).signExtend 64
/-- The offset of a branch. -/
def immB (w : W32) : W64 :=
  (w.extractLsb' 31 1 ++ w.extractLsb' 7 1 ++ w.extractLsb' 25 6 ++ w.extractLsb' 8 4 ++ 0#1).signExtend 64
/-- The immediate of LUI and AUIPC. -/
def immU (w : W32) : W64 := (w.extractLsb' 12 20 ++ 0#12).signExtend 64
/-- The offset of JAL. -/
def immJ (w : W32) : W64 :=
  (w.extractLsb' 31 1 ++ w.extractLsb' 12 8 ++ w.extractLsb' 20 1 ++ w.extractLsb' 21 10 ++ 0#1).signExtend 64

/-! ### Operations -/

/-- The low 32 bits, sign-extended. -/
def sx32 (v : W64) : W64 := (v.truncate 32).signExtend 64
/-- The low 32 bits, zero-extended. -/
def zx32 (v : W64) : W64 := (v.truncate 32 : W32).zeroExtend 64
/-- A condition as a register value. -/
def b64 (b : Bool) : W64 := if b then 1#64 else 0#64

/-- The bytes of a value, lowest first. -/
def bytesOf (v : W64) : List Byte := toBytes 8 v.toNat
/-- The ones of the low `n` bits. -/
def onesCount (n v : Nat) : Nat := (List.range n).countP fun i => bit v i
/-- Zero bits above the highest one of the low `n` bits. -/
def leadZeros (n v : Nat) : Nat := if v % 2 ^ n = 0 then n else n - 1 - log2 (v % 2 ^ n)
/-- Zero bits below the lowest one of the low `n` bits. -/
def trailZeros (n v : Nat) : Nat := ((List.range n).find? fun i => bit v i).getD n

/-- The base operations of OP and OP-IMM by funct3, on 64 bits; `alt` selects SUB and SRA. -/
def aluBase (f3 : Nat) (alt : Bool) (a b : W64) : W64 :=
  let k := b.toNat % 64
  match f3 with
  | 0 => if alt then a - b else a + b
  | 1 => a <<< k
  | 2 => b64 (a.slt b)
  | 3 => b64 (a.ult b)
  | 4 => a ^^^ b
  | 5 => if alt then a.sshiftRight k else a >>> k
  | 6 => a ||| b
  | _ => a &&& b

/-- ADDW, SUBW, SLLW, SRLW and SRAW by funct3. -/
def aluBaseW (f3 : Nat) (alt : Bool) (a b : W64) : W64 :=
  let x : W32 := a.truncate 32
  let y : W32 := b.truncate 32
  let k := b.toNat % 32
  let r : W32 := match f3 with
    | 0 => if alt then x - y else x + y
    | 1 => x <<< k
    | _ => if alt then x.sshiftRight k else x >>> k
  r.signExtend 64

/-- The M extension by funct3, on 64 bits. -/
def aluMul (f3 : Nat) (a b : W64) : W64 :=
  match f3 with
  | 0 => a * b
  | 1 => BitVec.ofInt 64 ((a.toInt * b.toInt) / 2 ^ 64)
  | 2 => BitVec.ofInt 64 ((a.toInt * (b.toNat : Int)) / 2 ^ 64)
  | 3 => BitVec.ofNat 64 ((a.toNat * b.toNat) / 2 ^ 64)
  | 4 => if b = 0#64 then -1#64 else BitVec.ofInt 64 (a.toInt.tdiv b.toInt)
  | 5 => if b = 0#64 then -1#64 else BitVec.ofNat 64 (a.toNat / b.toNat)
  | 6 => if b = 0#64 then a else BitVec.ofInt 64 (a.toInt.tmod b.toInt)
  | _ => if b = 0#64 then a else BitVec.ofNat 64 (a.toNat % b.toNat)

/-- MULW, DIVW, DIVUW, REMW and REMUW by funct3. -/
def aluMulW (f3 : Nat) (a b : W64) : Option W64 :=
  match f3 with
  | 0 => some (sx32 (a * b))
  | 4 | 6 => some (sx32 (aluMul f3 (sx32 a) (sx32 b)))
  | 5 | 7 => some (sx32 (aluMul f3 (zx32 a) (zx32 b)))
  | _ => none

/-- OP (major opcode 0x33): the value, none for an encoding that is not assigned. -/
def aluOp (f7 f3 : Nat) (a b : W64) : Option W64 :=
  match f7, f3 with
  | 0, _ => some (aluBase f3 false a b)
  | 1, _ => some (aluMul f3 a b)
  | 0x20, 0 | 0x20, 5 => some (aluBase f3 true a b)
  | 0x20, 4 => some (~~~ (a ^^^ b))
  | 0x20, 6 => some (a ||| ~~~ b)
  | 0x20, 7 => some (a &&& ~~~ b)
  | 0x05, 4 => some (if a.slt b then a else b)
  | 0x05, 5 => some (if a.ult b then a else b)
  | 0x05, 6 => some (if a.slt b then b else a)
  | 0x05, 7 => some (if a.ult b then b else a)
  | 0x30, 1 => some (a.rotateLeft (b.toNat % 64))
  | 0x30, 5 => some (a.rotateRight (b.toNat % 64))
  | 0x10, 2 => some (b + a <<< 1)
  | 0x10, 4 => some (b + a <<< 2)
  | 0x10, 6 => some (b + a <<< 3)
  | _, _ => none

/-- OP-32 (major opcode 0x3B). -/
def aluOp32 (f7 f3 rs2 : Nat) (a b : W64) : Option W64 :=
  match f7, f3 with
  | 0, 0 | 0, 1 | 0, 5 => some (aluBaseW f3 false a b)
  | 0x20, 0 | 0x20, 5 => some (aluBaseW f3 true a b)
  | 1, _ => aluMulW f3 a b
  | 0x04, 0 => some (zx32 a + b)
  | 0x04, 4 => if rs2 = 0 then some ((a.truncate 16 : BitVec 16).zeroExtend 64) else none
  | 0x10, 2 => some (b + zx32 a <<< 1)
  | 0x10, 4 => some (b + zx32 a <<< 2)
  | 0x10, 6 => some (b + zx32 a <<< 3)
  | 0x30, 1 => some (((a.truncate 32 : W32).rotateLeft (b.toNat % 32)).signExtend 64)
  | 0x30, 5 => some (((a.truncate 32 : W32).rotateRight (b.toNat % 32)).signExtend 64)
  | _, _ => none

/-- The one-operand operations of Zbb by bits [31:20] of OP-IMM. -/
def aluUnary (i : Nat) (a : W64) : Option W64 :=
  match i with
  | 0x600 => some (BitVec.ofNat 64 (leadZeros 64 a.toNat))
  | 0x601 => some (BitVec.ofNat 64 (trailZeros 64 a.toNat))
  | 0x602 => some (BitVec.ofNat 64 (onesCount 64 a.toNat))
  | 0x604 => some ((a.truncate 8 : Byte).signExtend 64)
  | 0x605 => some ((a.truncate 16 : BitVec 16).signExtend 64)
  | _ => none

/-- OP-IMM (major opcode 0x13). -/
def aluImm (i f3 : Nat) (a imm : W64) : Option W64 :=
  let sh := BitVec.ofNat 64 (i % 64)
  match f3 with
  | 1 => if i / 64 = 0 then some (aluBase 1 false a sh) else aluUnary i a
  | 5 =>
    if i = 0x287 then some (BitVec.ofNat 64 (fromBytes ((bytesOf a).map fun b => if b = 0#8 then 0#8 else 0xFF#8)))
    else if i = 0x6B8 then some (BitVec.ofNat 64 (fromBytes (bytesOf a).reverse))
    else match i / 64 with
      | 0 => some (aluBase 5 false a sh)
      | 0x10 => some (aluBase 5 true a sh)
      | 0x18 => some (a.rotateRight (i % 64))
      | _ => none
  | _ => some (aluBase f3 false a imm)

/-- OP-IMM-32 (major opcode 0x1B). -/
def aluImm32 (i f3 : Nat) (a imm : W64) : Option W64 :=
  let sh := BitVec.ofNat 64 (i % 32)
  let f7 := i / 32
  match f3 with
  | 0 => some (sx32 (a + imm))
  | 1 =>
    if f7 = 0 then some (aluBaseW 1 false a sh)
    else if i / 64 = 2 then some (zx32 a <<< (i % 64))
    else match i with
      | 0x600 => some (BitVec.ofNat 64 (leadZeros 32 a.toNat))
      | 0x601 => some (BitVec.ofNat 64 (trailZeros 32 a.toNat))
      | 0x602 => some (BitVec.ofNat 64 (onesCount 32 a.toNat))
      | _ => none
  | 5 =>
    if f7 = 0 then some (aluBaseW 5 false a sh)
    else if f7 = 0x20 then some (aluBaseW 5 true a sh)
    else if f7 = 0x30 then some (((a.truncate 32 : W32).rotateRight (i % 32)).signExtend 64)
    else none
  | _ => none

/-- The condition of a branch by funct3; none for a funct3 that is not assigned. -/
def branchTaken (f3 : Nat) (a b : W64) : Option Bool :=
  match f3 with
  | 0 => some (a == b)
  | 1 => some (a != b)
  | 4 => some (a.slt b)
  | 5 => some (!a.slt b)
  | 6 => some (a.ult b)
  | 7 => some (!a.ult b)
  | _ => none

/-! ### Compressed instructions -/

/-- A word built of fields: opcode, rd, funct3, rs1, and bits [31:20]. -/
def wordIType (op rd f3 rs1 imm : Nat) : W32 := BitVec.ofNat 32 (op + rd * 2 ^ 7 + f3 * 2 ^ 12 + rs1 * 2 ^ 15 + imm % 4096 * 2 ^ 20)
/-- An R-type word. -/
def wordRType (op rd f3 rs1 rs2 f7 : Nat) : W32 := wordIType op rd f3 rs1 (rs2 + f7 * 32)
/-- An S-type word. -/
def wordSType (op f3 rs1 rs2 imm : Nat) : W32 :=
  BitVec.ofNat 32 (op + imm % 32 * 2 ^ 7 + f3 * 2 ^ 12 + rs1 * 2 ^ 15 + rs2 * 2 ^ 20 + imm / 32 % 128 * 2 ^ 25)
/-- A branch. -/
def wordBType (f3 rs1 rs2 imm : Nat) : W32 :=
  BitVec.ofNat 32 (0x63 + bits imm 11 11 * 2 ^ 7 + bits imm 4 1 * 2 ^ 8 + f3 * 2 ^ 12 + rs1 * 2 ^ 15 + rs2 * 2 ^ 20
    + bits imm 10 5 * 2 ^ 25 + bits imm 12 12 * 2 ^ 31)
/-- A JAL. -/
def wordJType (rd imm : Nat) : W32 :=
  BitVec.ofNat 32 (0x6F + rd * 2 ^ 7 + bits imm 19 12 * 2 ^ 12 + bits imm 11 11 * 2 ^ 20 + bits imm 10 1 * 2 ^ 21 + bits imm 20 20 * 2 ^ 31)

/-- An `n`-bit value sign-extended to 32 bits, as a number. -/
def sx (n v : Nat) : Nat := wrap 32 (signed n v)

/-- Quadrant 0 of the compressed instructions. -/
def expand0 (h f3 : Nat) : Option W32 :=
  let rd := 8 + bits h 4 2
  let rs := 8 + bits h 9 7
  let uw := bits h 12 10 * 8 + bit0 h 6 * 4 + bit0 h 5 * 64
  let ud := bits h 12 10 * 8 + bits h 6 5 * 64
  let u4 := bits h 12 11 * 16 + bits h 10 7 * 64 + bit0 h 6 * 4 + bit0 h 5 * 8
  match f3 with
  | 0 => if u4 = 0 then none else some (wordIType 0x13 rd 0 2 u4)
  | 1 => some (wordIType 0x07 rd 3 rs ud)
  | 2 => some (wordIType 0x03 rd 2 rs uw)
  | 3 => some (wordIType 0x03 rd 3 rs ud)
  | 5 => some (wordSType 0x27 3 rs rd ud)
  | 6 => some (wordSType 0x23 2 rs rd uw)
  | 7 => some (wordSType 0x23 3 rs rd ud)
  | _ => none
where
  bit0 (v n : Nat) : Nat := bits v n n

/-- The arithmetic group of quadrant 1. -/
def expandArith (h : Nat) : Option W32 :=
  let rd := 8 + bits h 9 7
  let rs := 8 + bits h 4 2
  let sh := bits h 12 12 * 32 + bits h 6 2
  match bits h 11 10 with
  | 0 => some (wordIType 0x13 rd 5 rd sh)
  | 1 => some (wordIType 0x13 rd 5 rd (sh + 0x400))
  | 2 => some (wordIType 0x13 rd 7 rd (sx 6 sh))
  | _ =>
    match bits h 12 12, bits h 6 5 with
    | 0, 0 => some (wordRType 0x33 rd 0 rd rs 0x20)
    | 0, 1 => some (wordRType 0x33 rd 4 rd rs 0)
    | 0, 2 => some (wordRType 0x33 rd 6 rd rs 0)
    | 0, 3 => some (wordRType 0x33 rd 7 rd rs 0)
    | 1, 0 => some (wordRType 0x3B rd 0 rd rs 0x20)
    | 1, 1 => some (wordRType 0x3B rd 0 rd rs 0)
    | _, _ => none

/-- Quadrant 1. -/
def expand1 (h f3 : Nat) : Option W32 :=
  let rd := bits h 11 7
  let i6 := bits h 12 12 * 32 + bits h 6 2
  let j := bits h 12 12 * 2048 + bits h 11 11 * 16 + bits h 10 9 * 256 + bits h 8 8 * 1024 + bits h 7 7 * 64 + bits h 6 6 * 128
    + bits h 5 3 * 2 + bits h 2 2 * 32
  let b := bits h 12 12 * 256 + bits h 11 10 * 8 + bits h 6 5 * 64 + bits h 4 3 * 2 + bits h 2 2 * 32
  let sp := bits h 12 12 * 512 + bits h 6 6 * 16 + bits h 5 5 * 64 + bits h 4 3 * 128 + bits h 2 2 * 32
  match f3 with
  | 0 => some (wordIType 0x13 rd 0 rd (sx 6 i6))
  | 1 => if rd = 0 then none else some (wordIType 0x1B rd 0 rd (sx 6 i6))
  | 2 => some (wordIType 0x13 rd 0 0 (sx 6 i6))
  | 3 =>
    if rd = 2 then (if sp = 0 then none else some (wordIType 0x13 2 0 2 (sx 10 sp)))
    else if i6 = 0 then none
    else some (BitVec.ofNat 32 (0x37 + rd * 2 ^ 7 + sx 6 i6 % 2 ^ 20 * 2 ^ 12))
  | 4 => expandArith h
  | 5 => some (wordJType 0 (sx 12 j))
  | 6 => some (wordBType 0 (8 + bits h 9 7) 0 (sx 9 b))
  | _ => some (wordBType 1 (8 + bits h 9 7) 0 (sx 9 b))

/-- Quadrant 2. -/
def expand2 (h f3 : Nat) : Option W32 :=
  let rd := bits h 11 7
  let rs := bits h 6 2
  let sh := bits h 12 12 * 32 + rs
  let ul := bits h 12 12 * 32 + bits h 6 4 * 4 + bits h 3 2 * 64
  let ud := bits h 12 12 * 32 + bits h 6 5 * 8 + bits h 4 2 * 64
  let sw := bits h 12 9 * 4 + bits h 8 7 * 64
  let sd := bits h 12 10 * 8 + bits h 9 7 * 64
  match f3 with
  | 0 => some (wordIType 0x13 rd 1 rd sh)
  | 1 => some (wordIType 0x07 rd 3 2 ud)
  | 2 => if rd = 0 then none else some (wordIType 0x03 rd 2 2 ul)
  | 3 => if rd = 0 then none else some (wordIType 0x03 rd 3 2 ud)
  | 4 =>
    if bits h 12 12 = 0 then
      if rs = 0 then (if rd = 0 then none else some (wordIType 0x67 0 0 rd 0)) else some (wordRType 0x33 rd 0 0 rs 0)
    else if rs = 0 then (if rd = 0 then some 0x00100073#32 else some (wordIType 0x67 1 0 rd 0))
    else some (wordRType 0x33 rd 0 rd rs 0)
  | 5 => some (wordSType 0x27 3 2 rs sd)
  | 6 => some (wordSType 0x23 2 2 rs sw)
  | _ => some (wordSType 0x23 3 2 rs sd)

/-- The word that a compressed instruction stands for; none where it is not assigned. -/
def expand (h : Nat) : Option W32 :=
  let f3 := bits h 15 13
  match h % 4 with
  | 0 => expand0 h f3
  | 1 => expand1 h f3
  | 2 => expand2 h f3
  | _ => none

end Sys2Proof.Machine
end

