-- ==== Sys2Proof/Machine/HartFloat.lean ====
section
/-! DEFINITION. The F and D extensions of the harts' base architecture (R372), which the manual names and does not repeat:
RISC-V's, PRESUMED (log entry 2). Values are exact and rounded once. -/

namespace Sys2Proof.Machine

/-- The accrued flags NV, DZ, OF, UF, NX as they stand in fflags. -/
abbrev FFlags := BitVec 5

/-- The invalid operation. -/
def flagNV : FFlags := 0x10#5
/-- Division by zero. -/
def flagDZ : FFlags := 0x08#5
/-- Overflow, which is inexact. -/
def flagOF : FFlags := 0x05#5
/-- Underflow, which is inexact. -/
def flagUF : FFlags := 0x03#5
/-- Inexact. -/
def flagNX : FFlags := 0x01#5

/-- Double precision, or else single. -/
abbrev Dbl := Bool

/-- Fraction bits. -/
def fFrac (d : Dbl) : Nat := if d then 52 else 23
/-- Exponent bits. -/
def fExp (d : Dbl) : Nat := if d then 11 else 8
/-- Width. -/
def fWidth (d : Dbl) : Nat := if d then 64 else 32
/-- Exponent of the smallest normal. -/
def fMin (d : Dbl) : Int := if d then -1022 else -126
/-- Exponent of the largest finite value. -/
def fMax (d : Dbl) : Int := if d then 1023 else 127
/-- The encoding of a sign, an exponent field and a fraction. -/
def fEnc (d : Dbl) (neg : Bool) (e m : Nat) : Nat := b2n neg * 2 ^ (fWidth d - 1) + e * 2 ^ fFrac d + m
/-- The canonical NaN. -/
def fNan (d : Dbl) : Nat := fEnc d false (2 ^ fExp d - 1) (2 ^ (fFrac d - 1))
/-- An infinity. -/
def fInf (d : Dbl) (neg : Bool) : Nat := fEnc d neg (2 ^ fExp d - 1) 0

/-- The exact value of an encoding. -/
def fNum (d : Dbl) (v : Nat) : Num :=
  let neg := bit v (fWidth d - 1)
  let e := bits v (fWidth d - 2) (fFrac d)
  let m := v % 2 ^ fFrac d
  if e = 2 ^ fExp d - 1 then (if m = 0 then .inf neg else .nan)
  else if e = 0 then .fin neg m (fMin d - fFrac d)
  else .fin neg (2 ^ fFrac d + m) ((e : Int) - 1 + fMin d - fFrac d)

/-- The encoding is a signalling NaN. -/
def fSnan (d : Dbl) (v : Nat) : Bool := (fNum d v).isNan && !bit v (fFrac d - 1)

/-- m × 2^k is no integer. -/
def lost (m : Nat) (k : Int) : Bool := k < 0 && m % 2 ^ (-k).toNat != 0

/-- A value rounded once to a format: the encoding and the flags; tininess is found after rounding. -/
def fRound (d : Dbl) (mode : Mode) : Num → Nat × FFlags
  | .nan => (fNan d, 0#5)
  | .inf neg => (fInf d neg, 0#5)
  | .fin neg m e =>
    if m = 0 then (fEnc d neg 0 0, 0#5)
    else
      let l : Int := (log2 m : Int) + e
      let ex := if l ≥ fMin d then l else fMin d
      let k := e - (ex - fFrac d)
      let n := roundNat mode neg m k 0 0
      let inexact := lost m k
      let carry : Bool := n = 2 ^ (fFrac d + 1)
      let ex' := if carry then ex + 1 else ex
      let n' := if carry then 2 ^ fFrac d else n
      if ex' > fMax d then
        let away : Bool := match mode with
          | .rtz => false
          | .rdn => neg
          | .rup => !neg
          | _ => true
        (if away then fInf d neg else fInf d neg - 1, flagOF)
      else
        let free := roundNat mode neg m (e - (l - fFrac d)) 0 0
        let tiny : Bool := l < fMin d && !(l = fMin d - 1 && free = 2 ^ (fFrac d + 1))
        let fl := if inexact then (if tiny then flagUF else flagNX) else 0#5
        (if n' < 2 ^ fFrac d then fEnc d neg 0 n' else fEnc d neg (ex' - fMin d + 1).toNat (n' - 2 ^ fFrac d), fl)

/-- The exact quotient up to a sticky bit, and the flags of its special cases. -/
def fDiv : Num → Num → Num × FFlags
  | .nan, _ => (.nan, 0#5)
  | _, .nan => (.nan, 0#5)
  | .inf _, .inf _ => (.nan, flagNV)
  | .inf a, .fin b _ _ => (.inf (a != b), 0#5)
  | .fin a _ _, .inf b => (.fin (a != b) 0 0, 0#5)
  | .fin a m e, .fin b n g =>
    if n = 0 then (if m = 0 then (.nan, flagNV) else (.inf (a != b), flagDZ))
    else
      let q := m * 2 ^ 128 / n
      let r := m * 2 ^ 128 % n
      (.fin (a != b) (2 * q + (if r = 0 then 0 else 1)) (e - g - 129), 0#5)

/-- The square root up to a sticky bit, and the flags of its special cases. -/
def fSqrt : Num → Num × FFlags
  | .nan => (.nan, 0#5)
  | .inf neg => if neg then (.nan, flagNV) else (.inf false, 0#5)
  | .fin neg m e =>
    if m = 0 then (.fin neg 0 e, 0#5)
    else if neg then (.nan, flagNV)
    else
      let odd := e % 2
      let v := m * 2 ^ (128 + odd.toNat)
      let q := Nat.sqrt v
      (.fin false (2 * q + (if q * q = v then 0 else 1)) ((e - odd - 128) / 2 - 1), 0#5)

/-- The sum of values and its invalid flag. -/
def fSum (mode : Mode) (xs : List Num) : Num × FFlags :=
  let r := sumNum mode xs
  (r.1, if r.2 then flagNV else 0#5)

/-- The rounding of a result whose operands are encodings: a signalling NaN among them is invalid. -/
def fResult (d : Dbl) (mode : Mode) (vs : List Nat) (r : Num × FFlags) : Nat × FFlags :=
  let x := fRound d mode r.1
  (x.1, x.2 ||| r.2 ||| (if vs.any (fSnan d) then flagNV else 0#5))

/-- The fused multiply-add of the four forms: (-1)^np × a × b + (-1)^nc × c. -/
def fFma (d : Dbl) (mode : Mode) (np nc : Bool) (a b c : Nat) : Nat × FFlags :=
  let flip (n : Bool) (x : Num) : Num := if n then x.negate else x
  let p := (fNum d a).mul (fNum d b)
  let s := fSum mode [flip np p.1, flip nc (fNum d c)]
  fResult d mode [a, b, c] (s.1, s.2 ||| (if p.2 then flagNV else 0#5))

/-- FMIN and FMAX: a NaN loses. -/
def fMinMax (d : Dbl) (isMax : Bool) (a b : Nat) : Nat × FFlags :=
  let x := fNum d a
  let y := fNum d b
  let v := if x.isNan && y.isNan then fNan d
    else if x.isNan then b
    else if y.isNan then a
    else if x.lt y != isMax then a else b
  (v, if fSnan d a || fSnan d b then flagNV else 0#5)

/-- FLE, FLT and FEQ by funct3: FEQ is quiet. -/
def fCompare (d : Dbl) (f3 a b : Nat) : Option (Bool × FFlags) :=
  let x := fNum d a
  let y := fNum d b
  let nan := x.isNan || y.isNan
  let quiet : FFlags := if fSnan d a || fSnan d b then flagNV else 0#5
  let loud : FFlags := if nan then flagNV else 0#5
  match f3 with
  | 0 => some (!nan && (x.eqv y || x.lt y), loud)
  | 1 => some (!nan && !x.eqv y && x.lt y, loud)
  | 2 => some (x.eqv y, quiet)
  | _ => none

/-- FCLASS. -/
def fClass (d : Dbl) (v : Nat) : Nat :=
  match fNum d v with
  | .nan => if fSnan d v then 0x100 else 0x200
  | .inf neg => if neg then 0x001 else 0x080
  | .fin neg m _ =>
    if m = 0 then (if neg then 0x008 else 0x010)
    else if m < 2 ^ fFrac d then (if neg then 0x004 else 0x020)
    else (if neg then 0x002 else 0x040)

/-- The range of an integer conversion by the rs2 field: W, WU, L, LU. -/
def fIntRange (k : Nat) : Int × Int :=
  match k with
  | 0 => (-(2 ^ 31), 2 ^ 31 - 1)
  | 1 => (0, 2 ^ 32 - 1)
  | 2 => (-(2 ^ 63), 2 ^ 63 - 1)
  | _ => (0, 2 ^ 64 - 1)

/-- A value converted to an integer: saturated and invalid outside the range, a NaN as the largest. -/
def fToInt (mode : Mode) (k : Nat) (x : Num) : Int × FFlags :=
  let lo := (fIntRange k).1
  let hi := (fIntRange k).2
  match x with
  | .nan => (hi, flagNV)
  | .inf neg => (if neg then lo else hi, flagNV)
  | .fin neg m e =>
    if m ≠ 0 && decide ((log2 m : Int) + e > 70) then (if neg then lo else hi, flagNV)
    else
      let n : Int := roundNat mode neg m e 0 0
      let v := if neg then -n else n
      if v < lo then (lo, flagNV) else if v > hi then (hi, flagNV) else (v, if lost m e then flagNX else 0#5)

/-- An integer register as a value, by the rs2 field. -/
def fFromInt (k : Nat) (v : W64) : Num :=
  let i : Int := match k with
    | 0 => (v.truncate 32 : W32).toInt
    | 1 => ((v.truncate 32 : W32).toNat : Int)
    | 2 => v.toInt
    | _ => (v.toNat : Int)
  .fin (decide (i < 0)) i.natAbs 0

/-- An integer result as a register: a 32-bit one is sign-extended. -/
def fIntReg (k : Nat) (i : Int) : W64 := if k < 2 then (BitVec.ofInt 32 i).signExtend 64 else BitVec.ofInt 64 i

/-- A value read from a floating register: a single that is not NaN-boxed reads as the canonical NaN. -/
def fRead (d : Dbl) (v : W64) : Nat := if d then v.toNat else if v.toNat / 2 ^ 32 = 2 ^ 32 - 1 then v.toNat % 2 ^ 32 else fNan false

/-- A value as a floating register holds it: a single is NaN-boxed. -/
def fBox (d : Dbl) (v : Nat) : W64 := if d then BitVec.ofNat 64 v else BitVec.ofNat 64 (v % 2 ^ 32 + (2 ^ 32 - 1) * 2 ^ 32)

/-- The rounding mode of an rm field under frm; none where it is reserved. -/
def fMode (rm frm : Nat) : Option Mode :=
  match (if rm = 7 then frm else rm) with
  | 0 => some .rne
  | 1 => some .rtz
  | 2 => some .rdn
  | 3 => some .rup
  | 4 => some .rna
  | _ => none

/-- What a floating instruction writes: a floating register, or an integer one. -/
inductive FOut where
  | f (v : W64) (fl : FFlags)
  | x (v : W64) (fl : FFlags)
  deriving DecidableEq, Repr

/-- A rounded result in its register. -/
def fOut (d : Dbl) (r : Nat × FFlags) : FOut := .f (fBox d r.1) r.2

/-- FSGNJ, FSGNJN and FSGNJX by funct3. -/
def fSign (d : Dbl) (f3 a b : Nat) : Option Nat :=
  let h := 2 ^ (fWidth d - 1)
  let sa := bit a (fWidth d - 1)
  let sb := bit b (fWidth d - 1)
  match f3 with
  | 0 => some (a % h + b2n sb * h)
  | 1 => some (a % h + b2n (!sb) * h)
  | 2 => some (a % h + b2n (sa != sb) * h)
  | _ => none

/-- OP-FP (major opcode 0x53): the format is bits [26:25]; none for an encoding that is not assigned. `fa` and `fb` are the
floating registers, `xa` the integer one. -/
def fpOp (f5 : Nat) (d : Dbl) (rs2 f3 frm : Nat) (fa fb xa : W64) : Option FOut :=
  let a := fRead d fa
  let b := fRead d fb
  let mode := fMode f3 frm
  match f5 with
  | 0x00 => mode.map fun m => fOut d (fResult d m [a, b] (fSum m [fNum d a, fNum d b]))
  | 0x01 => mode.map fun m => fOut d (fResult d m [a, b] (fSum m [fNum d a, (fNum d b).negate]))
  | 0x02 => mode.map fun m => let p := (fNum d a).mul (fNum d b)
      fOut d (fResult d m [a, b] (p.1, if p.2 then flagNV else 0#5))
  | 0x03 => mode.map fun m => fOut d (fResult d m [a, b] (fDiv (fNum d a) (fNum d b)))
  | 0x0B => if rs2 ≠ 0 then none else mode.map fun m => fOut d (fResult d m [a] (fSqrt (fNum d a)))
  | 0x04 => (fSign d f3 a b).map fun v => .f (fBox d v) 0#5
  | 0x05 => if f3 < 2 then some (fOut d (fMinMax d (f3 == 1) a b)) else none
  | 0x08 =>
    if (d && rs2 = 0) || (!d && rs2 = 1) then
      let v := fRead (!d) fa
      mode.map fun m => fOut d (let r := fRound d m (fNum (!d) v); (r.1, r.2 ||| (if fSnan (!d) v then flagNV else 0#5)))
    else none
  | 0x14 => (fCompare d f3 a b).map fun r => .x (b64 r.1) r.2
  | 0x18 => if rs2 > 3 then none else mode.map fun m => let r := fToInt m rs2 (fNum d a); .x (fIntReg rs2 r.1) r.2
  | 0x1A => if rs2 > 3 then none else mode.map fun m => fOut d (fRound d m (fFromInt rs2 xa))
  | 0x1C =>
    if rs2 ≠ 0 then none
    else if f3 = 0 then some (.x (if d then fa else sx32 fa) 0#5)
    else if f3 = 1 then some (.x (BitVec.ofNat 64 (fClass d a)) 0#5)
    else none
  | 0x1E => if rs2 = 0 && f3 = 0 then some (.f (fBox d (xa.toNat % 2 ^ fWidth d)) 0#5) else none
  | _ => none

end Sys2Proof.Machine
end

