-- ==== Sys2Proof/Machine/HartCsr.lean ====
section
/-! DEFINITION. The base architecture's CSRs of a hart (R372): RISC-V's, PRESUMED (log entry 2). A field that this machine does
not have reads 0 and keeps nothing. -/

namespace Sys2Proof.Machine

/-- The bits of mstatus that software writes: SIE, MIE, SPIE, MPIE, SPP, MPP, FS, MPRV, SUM, MXR, TVM, TW, TSR. -/
def mstatusMask : W64 := 0x00000000007E79AA#64
/-- The bits of sstatus that software writes: SIE, SPIE, SPP, FS, SUM, MXR. -/
def sstatusMask : W64 := 0x00000000000C6122#64
/-- What sstatus shows of mstatus: the same, UXL and SD. -/
def sstatusView : W64 := 0x80000003000C6122#64
/-- The interrupts that a hart has: SSI, MSI, STI, MTI, SEI, MEI, and 17 and 18 of the device (R438, R453). -/
def mieMask : W64 := 0x0000000000060AAA#64
/-- The pending bits that software writes in mip: the supervisor's, 17 and 18. -/
def mipMask : W64 := 0x0000000000060222#64
/-- The exceptions that may be delegated. -/
def medelegMask : W64 := 0x000000000000B3FF#64
/-- The interrupts that may be delegated. -/
def midelegMask : W64 := 0x0000000000000222#64
/-- misa: RV64 with A, C, D, F, I, M, S and U. -/
def misa : W64 := 0x800000000014112D#64
/-- The fields of menvcfg and senvcfg: FIOM, CBIE, CBCFE. -/
def envcfgMask : W64 := 0x0000000000000071#64

/-- A value under a mask, the other bits kept. -/
def masked (mask old v : W64) : W64 := (old &&& ~~~ mask) ||| (v &&& mask)

/-- mstatus as it is kept: MPP of a mode that does not exist is not stored, SD tells that FS is dirty. -/
def legalStatus (old v : W64) : W64 :=
  let v1 := if bits v.toNat 12 11 = 2 then masked 0x1800#64 v old else v
  setBit v1 63 (bits v1.toNat 14 13 == 3)

/-- An environment register as it is kept: CBIE = 2 is reserved. -/
def legalEnv (v : W64) : W64 := let v1 := v &&& envcfgMask; if bits v1.toNat 5 4 = 2 then v1 &&& ~~~ 0x30#64 else v1

/-- satp as it is kept: a mode that is neither Bare nor Sv57 stores nothing. -/
def legalSatp (old v : W64) : W64 := if bits v.toNat 63 60 = 0 || bits v.toNat 63 60 = 10 then v else old

/-- Bytes of the eight configurations of a pmpcfg register. -/
def Hart.pmpCfg (H : Hart) (base : Nat) : W64 := BitVec.ofNat 64 (fromBytes ((List.range 8).map fun i => nth 0#8 H.pmpcfg (base + i)))

/-- A PMP configuration as it is kept: a locked one is not written, W without R is not stored. -/
def legalPmp (old v : Byte) : Byte :=
  if bit old.toNat 7 then old
  else let v1 := v &&& 0x9F#8
    if bit v1.toNat 1 && !bit v1.toNat 0 then v1 &&& 0xFD#8 else v1

/-- The configurations from `base` on written. -/
def Hart.setPmpCfg (H : Hart) (base : Nat) (v : W64) : Hart :=
  { H with pmpcfg := (List.range 8).foldl (fun l i => modNth l (base + i) fun old => legalPmp old (BitVec.ofNat 8 (v.toNat >>> (8 * i)))) H.pmpcfg }

/-- An address register of PMP written: a locked entry's, and the base of a locked range, is not. -/
def Hart.setPmpAddr (H : Hart) (i : Nat) (v : W64) : Hart :=
  let c (k : Nat) : Nat := (nth 0#8 H.pmpcfg k).toNat
  if bit (c i) 7 || (decide (i < 15) && bit (c (i + 1)) 7 && bits (c (i + 1)) 4 3 == 1) then H
  else { H with pmpaddr := modNth H.pmpaddr i fun _ => v &&& 0x003FFFFFFFFFFFFF#64 }

/-- The counters that a mode may read (mcounteren, scounteren). -/
def Hart.counterOk (H : Hart) (i : Nat) : Bool :=
  H.priv == .m || (bit H.mcounteren.toNat i && (H.priv == .s || bit H.scounteren.toNat i))

/-- The value of a counter: cycles, time and retired instructions are not the model's, and read as free values; the
performance counters read 0. -/
def counterValue (s : State) (i : Nat) : W64 := if i < 3 then Config.counter s.ticks i else 0#64

/-- The value of a base CSR, none where the machine has no such CSR or the mode may not read it. -/
def State.baseCsr (s : State) (csr : Nat) : Option W64 :=
  let H := s.hart s.me
  let fs : Bool := bits H.mstatus.toNat 14 13 != 0
  match csr with
  | 0x001 => if fs then some (BitVec.ofNat 64 (H.fcsr.toNat % 32)) else none
  | 0x002 => if fs then some (BitVec.ofNat 64 (H.fcsr.toNat / 32)) else none
  | 0x003 => if fs then some (BitVec.ofNat 64 H.fcsr.toNat) else none
  | 0x100 => some (H.mstatus &&& sstatusView)
  | 0x104 => some (H.mie &&& H.mideleg)
  | 0x105 => some H.stvec
  | 0x106 => some (H.scounteren.zeroExtend 64)
  | 0x10A => some H.senvcfg
  | 0x140 => some H.sscratch
  | 0x141 => some H.sepc
  | 0x142 => some H.scause
  | 0x143 => some H.stval
  | 0x144 => some (H.mip &&& H.mideleg)
  | 0x180 => if H.priv == .s && bit H.mstatus.toNat 20 then none else some H.satp
  | 0x300 => some H.mstatus
  | 0x301 => some misa
  | 0x302 => some H.medeleg
  | 0x303 => some H.mideleg
  | 0x304 => some H.mie
  | 0x305 => some H.mtvec
  | 0x306 => some (H.mcounteren.zeroExtend 64)
  | 0x30A => some H.menvcfg
  | 0x320 => some (H.mcountinhibit.zeroExtend 64)
  | 0x340 => some H.mscratch
  | 0x341 => some H.mepc
  | 0x342 => some H.mcause
  | 0x343 => some H.mtval
  | 0x344 => some H.mip
  | 0x3A0 => some (H.pmpCfg 0)
  | 0x3A2 => some (H.pmpCfg 8)
  | 0xF11 | 0xF12 | 0xF13 | 0xF15 => some 0#64
  | 0xF14 => some (BitVec.ofNat 64 s.me)
  | n =>
    if 0x3B0 ≤ n && n < 0x3C0 then some (nth 0#64 H.pmpaddr (n - 0x3B0))
    else if 0x323 ≤ n && n < 0x340 then some 0#64
    else if 0xC00 ≤ n && n < 0xC20 then (if H.counterOk (n - 0xC00) then some (counterValue s (n - 0xC00)) else none)
    else if n = 0xB00 || (0xB02 ≤ n && n < 0xB20) then some (counterValue s (n - 0xB00))
    else none

/-- The hart with a base CSR written. -/
def Hart.setCsr (H : Hart) (csr : Nat) (v : W64) : Hart :=
  let dirty (H : Hart) : Hart := { H with mstatus := H.mstatus ||| 0x8000000000006000#64 }
  match csr with
  | 0x001 => dirty { H with fcsr := BitVec.ofNat 8 (H.fcsr.toNat / 32 * 32 + v.toNat % 32) }
  | 0x002 => dirty { H with fcsr := BitVec.ofNat 8 (v.toNat % 8 * 32 + H.fcsr.toNat % 32) }
  | 0x003 => dirty { H with fcsr := v.truncate 8 }
  | 0x100 => { H with mstatus := legalStatus H.mstatus (masked sstatusMask H.mstatus v) }
  | 0x104 => { H with mie := masked (H.mideleg &&& mieMask) H.mie v }
  | 0x105 => { H with stvec := v &&& ~~~ 2#64 }
  | 0x106 => { H with scounteren := v.truncate 32 }
  | 0x10A => { H with senvcfg := legalEnv v }
  | 0x140 => { H with sscratch := v }
  | 0x141 => { H with sepc := v &&& ~~~ 1#64 }
  | 0x142 => { H with scause := v }
  | 0x143 => { H with stval := v }
  | 0x144 => { H with mip := masked (H.mideleg &&& 2#64) H.mip v }
  | 0x180 => { H with satp := legalSatp H.satp v }
  | 0x300 => { H with mstatus := legalStatus H.mstatus (masked mstatusMask H.mstatus v) }
  | 0x302 => { H with medeleg := v &&& medelegMask }
  | 0x303 => { H with mideleg := v &&& midelegMask }
  | 0x304 => { H with mie := v &&& mieMask }
  | 0x305 => { H with mtvec := v &&& ~~~ 2#64 }
  | 0x306 => { H with mcounteren := v.truncate 32 }
  | 0x30A => { H with menvcfg := legalEnv v }
  | 0x320 => { H with mcountinhibit := v.truncate 32 &&& 5#32 }
  | 0x340 => { H with mscratch := v }
  | 0x341 => { H with mepc := v &&& ~~~ 1#64 }
  | 0x342 => { H with mcause := v }
  | 0x343 => { H with mtval := v }
  | 0x344 => { H with mip := masked mipMask H.mip v }
  | 0x3A0 => H.setPmpCfg 0 v
  | 0x3A2 => H.setPmpCfg 8 v
  | n => if 0x3B0 ≤ n && n < 0x3C0 then H.setPmpAddr (n - 0x3B0) v else H

/-- A CSR of the device (R406). -/
def isDeviceCsr (csr : Nat) : Bool := (0x5C0 ≤ csr && csr < 0x600) || (0x7C0 ≤ csr && csr < 0x800)

/-- The mode may access a CSR by its number, for reading, and for writing where `wr` is set. -/
def State.csrMode (s : State) (csr : Nat) (wr : Bool) : Bool := (s.hart s.me).priv.code ≥ bits csr 9 8 && !(wr && bits csr 11 10 == 3)

/-- The bits that a CSR instruction leaves: those of CSRRW, CSRRS and CSRRC by the low two bits of funct3. -/
def csrNew (f3 : Nat) (old src : W64) : W64 :=
  match f3 % 4 with
  | 1 => src
  | 2 => old ||| src
  | _ => old &&& ~~~ src

/-- A CSR INSTRUCTION of funct3 `f3`, with its source value, whether the encoding of rs1 is 0, and rd: it reads unless it is a
CSRRW to x0, and writes unless it is a CSRRS or CSRRC of x0. A write on which the hart stalls (R410) leaves rd as it is. -/
def csrInstr (f3 csr : Nat) (d : BitVec 5) (z : Bool) (src : W64) (w : W32) (s : State) : Out1 :=
  let rd := !(f3 % 4 = 1 && d = 0#5)
  let wr := f3 % 4 = 1 || !z
  let put (v : W64) : Out1 → Out1
    | .next t => .next (if (t.hart s.me).stall.isSome then t else t.modHart s.me fun H => H.set d v)
    | o => o
  if !s.csrMode csr wr then .next (trapIllegal s w)
  else if isDeviceCsr csr then
    if !s.csrOk csr then .next (trapIllegal s w)
    else
      let r := if rd then csrRead s csr else (s, 0#64)
      if wr then put r.2 (csrStore csr (csrNew f3 r.2 src) r.1) else .next (retire r.1 d r.2)
  else match s.baseCsr csr with
    | none => .next (trapIllegal s w)
    | some old =>
      let s1 := if wr then s.modHart s.me fun H => H.setCsr csr (csrNew f3 old src) else s
      .next (retire s1 d old)

end Sys2Proof.Machine
end

