-- ==== Sys2Proof/Machine/HartBase.lean ====
section
/-! DEFINITION. The base architecture's instructions of a hart (R372): RV64GC with Zicsr, Zifencei, Zba, Zbb and Zicbom, RISC-V's,
PRESUMED (log entry 2). None is a row of the table of operations and events. -/

namespace Sys2Proof.Machine

/-- A word of the base architecture as it stands in memory: the instruction's 32 bits, its length in bytes, and the bits that a
trap reports. -/
structure BaseWord where
  w   : W32
  len : Nat
  raw : W32
  deriving DecidableEq, Repr

/-- The hart after an instruction of `len` bytes that writes `v` to an integer register. -/
def Hart.retireLen (H : Hart) (len : Nat) (d : BitVec 5) (v : W64) : Hart :=
  { (H.set d v) with pc := H.pc + BitVec.ofNat 64 len, stall := none }

/-- The hart after a floating instruction: the register, the accrued flags, FS dirty. -/
def Hart.retireF (H : Hart) (len : Nat) (d : BitVec 5) : FOut → Hart
  | .f v fl =>
    { H with
      f := modNth H.f d.toNat fun _ => v
      fcsr := H.fcsr ||| fl.zeroExtend 8
      mstatus := H.mstatus ||| 0x8000000000006000#64
      pc := H.pc + BitVec.ofNat 64 len }
  | .x v fl =>
    let m := if fl = 0#5 then H.mstatus else H.mstatus ||| 0x8000000000006000#64
    { (H.set d v) with fcsr := H.fcsr ||| fl.zeroExtend 8, mstatus := m, pc := H.pc + BitVec.ofNat 64 len }

/-- The hart's own part of the state changed. -/
def State.onHart (s : State) (f : Hart → Hart) : Out1 := .next (s.modHart s.me f)

/-- An instruction that writes a value to rd, or is not assigned. -/
def writeRd (s : State) (b : BaseWord) (v : Option W64) : Out1 :=
  match v with
  | some v => s.onHart fun H => H.retireLen b.len (wRd b.w) v
  | none => .next (trapIllegal s b.raw)

/-- A memory access of the hart, with what it does to the hart once it is performed; it waits while its line is provisional
(R229) and traps as CC_HART_MEMORY_ACCESS does. -/
def baseAccess (s : State) (va : W64) (op : MemOp) (fin : Hart → W64 → Hart) : Out1 :=
  let H := s.hart s.me
  if va.toNat % opBytes op ≠ 0 then s.onHart fun H => H.trap (misaligned op) va
  else match s.hartAddr H H.dataPriv (if opWrites op then .store else .load) va.toNat (opBytes op) with
    | .error c => s.onHart fun H => H.trap c va
    | .ok pa =>
      match agentAccess s s.me 0 pa op with
      | none => .next s
      | some (s1, v) => .next (s1.modHart s.me fun H => fin H v)

/-- LOAD (0x03) and STORE (0x23). -/
def baseLoadStore (s : State) (b : BaseWord) (isStore : Bool) : Out1 :=
  let f3 := wF3 b.w
  let a := s.x (wRs1 b.w)
  if isStore then
    if f3 > 3 then .next (trapIllegal s b.raw)
    else baseAccess s (a + immS b.w) (.store f3 (s.x (wRs2 b.w))) fun H _ => H.retireLen b.len 0#5 0#64
  else if f3 = 7 then .next (trapIllegal s b.raw)
  else baseAccess s (a + immI b.w) (.load (f3 % 4) (decide (f3 < 4)) (wRd b.w)) fun H v => H.retireLen b.len (wRd b.w) v

/-- The floating unit is on. -/
def State.fsOn (s : State) : Bool := bits (s.hart s.me).mstatus.toNat 14 13 != 0

/-- LOAD-FP (0x07) and STORE-FP (0x27). -/
def baseFloatMem (s : State) (b : BaseWord) (isStore : Bool) : Out1 :=
  let f3 := wF3 b.w
  let a := s.x (wRs1 b.w)
  if !s.fsOn || !(f3 = 2 || f3 = 3) then .next (trapIllegal s b.raw)
  else if isStore then
    baseAccess s (a + immS b.w) (.store f3 (nth 0#64 (s.hart s.me).f (wRs2 b.w).toNat)) fun H _ => H.retireLen b.len 0#5 0#64
  else
    baseAccess s (a + immI b.w) (.load f3 false 0#5) fun H v =>
      H.retireF b.len (wRd b.w) (.f (fBox (decide (f3 = 3)) v.toNat) 0#5)

/-- The read-modify-write of bits [31:27] of an AMO. -/
def amoOf (f5 : Nat) : Option AmoOp :=
  match f5 with
  | 0x00 => some .add
  | 0x01 => some .swap
  | 0x04 => some .xor
  | 0x08 => some .or
  | 0x0C => some .and
  | 0x10 => some .min
  | 0x14 => some .max
  | 0x18 => some .minu
  | 0x1C => some .maxu
  | _ => none

/-- AMO (0x2F): LR, SC and the AMOs (R230). -/
def baseAmo (s : State) (b : BaseWord) : Out1 :=
  let f3 := wF3 b.w
  let f5 := wF7 b.w / 4
  let d := wRd b.w
  let v := s.x (wRs2 b.w)
  let op : Option MemOp :=
    if f3 ≠ 2 && f3 ≠ 3 then none
    else if f5 = 2 then (if wRs2 b.w = 0#5 then some (.lr f3 d) else none)
    else if f5 = 3 then some (.sc f3 v d)
    else (amoOf f5).map fun o => .amo o f3 v d
  match op with
  | none => .next (trapIllegal s b.raw)
  | some o => baseAccess s (s.x (wRs1 b.w)) o fun H v => H.retireLen b.len d v

/-- MISC-MEM (0x0F): FENCE and FENCE.I order nothing that one hart a step could tell apart; CBO.INVAL, CBO.CLEAN and CBO.FLUSH
check their address and find no cache. -/
def baseMisc (s : State) (b : BaseWord) : Out1 :=
  let H := s.hart s.me
  let env (f : Nat → Bool) : Bool := H.priv == .m || (f H.menvcfg.toNat && (H.priv == .s || f H.senvcfg.toNat))
  let cbo (ok : Bool) : Out1 :=
    let va := s.x (wRs1 b.w)
    if !ok then .next (trapIllegal s b.raw)
    else match s.hartAddr H H.dataPriv .load (va.toNat / 64 * 64) 64, s.hartAddr H H.dataPriv .store (va.toNat / 64 * 64) 64 with
      | .error _, .error c => s.onHart fun H => H.trap c va
      | _, _ => s.onHart fun H => H.retireLen b.len 0#5 0#64
  match wF3 b.w with
  | 0 | 1 => s.onHart fun H => H.retireLen b.len 0#5 0#64
  | 2 =>
    if wRd b.w ≠ 0#5 then .next (trapIllegal s b.raw)
    else match wI12 b.w with
      | 0 => cbo (env fun v => bits v 5 4 != 0)
      | 1 | 2 => cbo (env fun v => bit v 6)
      | _ => .next (trapIllegal s b.raw)
  | _ => .next (trapIllegal s b.raw)

/-- The environment call's cause. -/
def Priv.ecall : Priv → W64
  | .u => 8#64
  | .s => 9#64
  | .m => 11#64

/-- SYSTEM (0x73): the CSR instructions, ECALL, EBREAK, the returns, WFI (which ends at once) and SFENCE.VMA (no translation of
a hart is kept). -/
def baseSystem (s : State) (b : BaseWord) : Out1 :=
  let H := s.hart s.me
  let f3 := wF3 b.w
  let m := H.mstatus.toNat
  if f3 % 4 ≠ 0 then
    csrInstr f3 (wI12 b.w) (wRd b.w) (wRs1 b.w == 0#5) (if f3 < 4 then s.x (wRs1 b.w) else (wRs1 b.w).zeroExtend 64) b.raw s
  else if f3 = 4 || wRd b.w ≠ 0#5 then .next (trapIllegal s b.raw)
  else if wF7 b.w = 0x09 then
    if H.priv = .u || (H.priv = .s && bit m 20) then .next (trapIllegal s b.raw) else s.onHart fun H => H.retireLen b.len 0#5 0#64
  else if wRs1 b.w ≠ 0#5 then .next (trapIllegal s b.raw)
  else match wI12 b.w with
    | 0x000 => s.onHart fun H => H.trap H.priv.ecall 0#64
    | 0x001 => s.onHart fun H => H.trap 3#64 H.pc
    | 0x102 => if H.priv = .u || (H.priv = .s && bit m 22) then .next (trapIllegal s b.raw) else s.onHart Hart.sret
    | 0x302 => if H.priv = .m then s.onHart Hart.mret else .next (trapIllegal s b.raw)
    | 0x105 => if H.priv ≠ .m && bit m 21 then .next (trapIllegal s b.raw) else s.onHart fun H => H.retireLen b.len 0#5 0#64
    | _ => .next (trapIllegal s b.raw)

/-- The fused multiply-adds and OP-FP: formats other than single and double are not assigned. -/
def baseFloat (s : State) (b : BaseWord) (op : Nat) : Out1 :=
  let H := s.hart s.me
  let fr (r : BitVec 5) : W64 := nth 0#64 H.f r.toNat
  let frm := H.fcsr.toNat / 32
  let d : Dbl := wF7 b.w % 4 = 1
  let r : Option FOut :=
    if op = 0x53 then fpOp (wF7 b.w / 4) d (wRs2 b.w).toNat (wF3 b.w) frm (fr (wRs1 b.w)) (fr (wRs2 b.w)) (s.x (wRs1 b.w))
    else (fMode (wF3 b.w) frm).map fun m =>
      fOut d (fFma d m (op = 0x4B || op = 0x4F) (op = 0x47 || op = 0x4F) (fRead d (fr (wRs1 b.w))) (fRead d (fr (wRs2 b.w)))
        (fRead d (fr (BitVec.ofNat 5 (wF7 b.w / 4)))))
  if !s.fsOn || wF7 b.w % 4 > 1 then .next (trapIllegal s b.raw)
  else match r with
    | none => .next (trapIllegal s b.raw)
    | some o => s.onHart fun H => H.retireF b.len (wRd b.w) o

/-- A jump: rd takes the address of the next instruction. -/
def baseJump (s : State) (b : BaseWord) (target : W64) : Out1 :=
  s.onHart fun H => { (H.set (wRd b.w) (H.pc + BitVec.ofNat 64 b.len)) with pc := target &&& ~~~ 1#64 }

/-- THE MEANING OF A WORD OF THE BASE ARCHITECTURE. -/
def execBase (b : BaseWord) (s : State) : Out1 :=
  let w := b.w
  let pc := (s.hart s.me).pc
  let a := s.x (wRs1 w)
  let y := s.x (wRs2 w)
  match w.toNat % 128 with
  | 0x03 => baseLoadStore s b false
  | 0x07 => baseFloatMem s b false
  | 0x0F => baseMisc s b
  | 0x13 => writeRd s b (aluImm (wI12 w) (wF3 w) a (immI w))
  | 0x17 => writeRd s b (some (pc + immU w))
  | 0x1B => writeRd s b (aluImm32 (wI12 w) (wF3 w) a (immI w))
  | 0x23 => baseLoadStore s b true
  | 0x27 => baseFloatMem s b true
  | 0x2F => baseAmo s b
  | 0x33 => writeRd s b (aluOp (wF7 w) (wF3 w) a y)
  | 0x37 => writeRd s b (some (immU w))
  | 0x3B => writeRd s b (aluOp32 (wF7 w) (wF3 w) (wRs2 w).toNat a y)
  | 0x43 => baseFloat s b 0x43
  | 0x47 => baseFloat s b 0x47
  | 0x4B => baseFloat s b 0x4B
  | 0x4F => baseFloat s b 0x4F
  | 0x53 => baseFloat s b 0x53
  | 0x63 =>
    match branchTaken (wF3 w) a y with
    | none => .next (trapIllegal s b.raw)
    | some t => s.onHart fun H => { H with pc := if t then H.pc + immB w else H.pc + BitVec.ofNat 64 b.len }
  | 0x67 => if wF3 w = 0 then baseJump s b (a + immI w) else .next (trapIllegal s b.raw)
  | 0x6F => baseJump s b (pc + immJ w)
  | 0x73 => baseSystem s b
  | _ => .next (trapIllegal s b.raw)

end Sys2Proof.Machine
end

