-- ==== Sys2Proof/Machine/Spill.lean ====
section
/-! DEFINITION. The slots behind a frame store (R71): those of the carve-out lie in the slice of the page, those behind the
overflow pointer in global memory. A site's slots are one table; at the beginning of a step its changed slots are written where
they lie, through the page's MU. -/

namespace Sys2Proof.Machine

/-- The bytes of a slot written where it lies: in the carve-out, or in global memory under the region's tenant slot; none where
the translation of its address fails. -/
def State.putSlot (s : State) (R : Region) (u : UnitId) (i n : Nat) : Option State :=
  match R.slotVa u i with
  | none => some (s.putRegion (R.modMu u.page fun m => { m with
      sram := sramWrite m.sram (R.carveBase + u.pos * R.cfg.carve * 64 + (i - storeSize u) * 64) (toBytes 64 n) }))
  | some va =>
    match s.slotOf R.part, walkVa s R.cfg.rt va true true with
    | some slot, .page t => if windowOk s (t.paOf va) true then some (writeBytes s slot (t.paOf va) (toBytes 64 n)) else none
    | _, _ => none

/-- One change of a slot written, and noted as what lies there. -/
def State.spillOne (s : State) (rid : Nat) (u : UnitId) (i : Nat) (x : Option Slot) : State :=
  match s.region? rid with
  | none => s
  | some R =>
    match s.putSlot R u i ((x.map slotNum).getD 0) with
    | none => s
    | some s1 => s1.modRegion rid fun R => { R with
        spilled := (R.spilled.filter fun p => !(p.1 == u && p.2.1 == i)) ++ (x.toList.map fun v => (u, i, v)) }

/-- The slots of a region that changed since they were last written. -/
def State.spillRegion (s : State) (R : Region) : State :=
  let now := R.beyond
  if now.isEmpty && R.spilled.isEmpty || R.killing || R.aside || !R.resident then s
  else
    let gone := R.spilled.filter fun p => !now.any fun q => q.1 == p.1 && q.2.1 == p.2.1
    let changed := now.filter fun p => !R.spilled.contains p
    let s1 := gone.foldl (fun s p => s.spillOne R.rid p.1 p.2.1 none) s
    changed.foldl (fun s p => s.spillOne R.rid p.1 p.2.1 (some p.2.2)) s1

/-- Every region's changed slots written where they lie. -/
def State.spill (s : State) : State := s.regions.foldl State.spillRegion s

end Sys2Proof.Machine
end

