-- ==== Sys2Proof/Machine/Upset.lean ====
section
/-! DEFINITION. What a turn brings from outside: the host's writes to CHSTAT (R437), and uncorrectable errors as they strike (R126, R206, R261, R287, R295, R321, R346): what stood there is lost, and the place
is marked until it is written again; what consumes it tells. -/

namespace Sys2Proof.Machine

/-! ### CHSTAT (R437, Table 13-8) -/

/-- The value of the CHSTAT register of a TDI. -/
def State.chstat (s : State) (t : Nat) : W64 :=
  let T := nth Tdi.reset s.tdis t
  BitVec.ofNat 64 ((T.calls.filter fun c => c.st == .queued).length + 2 ^ 16 * b2n T.ovf + 2 ^ 17 * b2n T.bad)

/-- A write of the host to CHSTAT: OVF and BAD are cleared by a 1 (R6). -/
def State.setChstat (s : State) (t : Nat) (v : W64) : State :=
  { s with tdis := modNth s.tdis t fun T => { T with ovf := T.ovf && !bit v.toNat 16, bad := T.bad && !bit v.toNat 17 } }

/-! ### Uncorrectable errors -/

/-- What the unit's word `j` of upset `k` of a step comes to. -/
def State.lost (s : State) (k j : Nat) : W32 := Config.lostWord s.ticks (256 * k + j)

/-- A token struck: its payload is lost and it bears ERR (R126, R261). A control token has no payload of use. -/
def State.strikeToken (s : State) (k : Nat) (t : Token) : Token :=
  if t.kind = .data then { t with err := true, e := clearAbove t.len.toNat ((List.range 8).map (s.lost k)) } else { t with err := true }

/-- The item of a slot struck (R126): an operand, a held value or a running sum bears ERR; of state slots, whose firings do not
consume a value, the error is corrected. -/
def State.strikeSlot (s : State) (k : Nat) : Slot → Slot
  | .operand st t => .operand st (s.strikeToken k t)
  | .hold t => .hold (s.strikeToken k t)
  | .accum a => .accum { a with err := true, sum := a.sum.map fun x => (x.1, clearAbove x.1.toNat ((List.range 8).map (s.lost k))) }
  | x => x

/-- An MXI's or SBE's mark on an accumulator or a register. -/
def Engine.strike (i : Nat) : Engine → Engine
  | .mxi x => .mxi { x with bad := setAdd x.bad i }
  | .sbe x => .sbe { x with bad := setAdd x.bad i }
  | e => e

/-- What an upset does in a region; `k` numbers the step's upsets. -/
def Region.upsetIn (R : Region) (s : State) (k : Nat) : Upset → Region
  | .queue _ u q i =>
    let hit (x : QTok) : QTok := { x with tok := s.strikeToken k x.tok }
    R.modUnit u fun U => { U with queues := modNth U.queues q fun l => modNth l i hit }
  | .slot _ u i => R.modUnit u fun U => match mapGet U.slots i with
    | some x => { U with slots := mapPut U.slots i (s.strikeSlot k x) }
    | none => U
  | .element _ u w => R.modUnit u fun U => { U with bad := setAdd U.bad w }
  | .request _ i =>
    let hit (f : Flight) : Flight := match f.loc with
      | .cfuRequest => { f with tok := s.strikeToken k f.tok }
      | .cfuReply _ => { f with tok := s.strikeToken k f.tok }
      | _ => f
    { R with flights := modNth R.flights i hit }
  | .sram _ page w => if w < 65536 then R.modMu page fun m => { m with sram := sramSetWord m.sram w (s.lost k 0), bad := setAdd m.bad w } else R
  | .undo _ page i => R.modMu page fun m => { m with undo := modNth m.undo i fun e => { e with bad := true } }
  | .accumulator _ u a => R.modUnit u fun U => if u.pos = 5 then { U with eng := U.eng.strike a } else U
  | .register _ u r => R.modUnit u fun U => if u.pos = 6 then { U with eng := U.eng.strike r } else U
  | .memory _ => R

/-- The region that an upset strikes; none where it strikes memory. -/
def upsetRid : Upset → Option Nat
  | .queue r _ _ _ => some r
  | .slot r _ _ => some r
  | .element r _ _ => some r
  | .request r _ => some r
  | .sram r _ _ => some r
  | .undo r _ _ => some r
  | .accumulator r _ _ => some r
  | .register r _ _ => some r
  | .memory _ => none

/-- A word of device memory struck: its listed bytes are lost, and its four bytes are marked. -/
def State.strikeMemory (s : State) (k w : Nat) : State :=
  if !inDeviceMemory s (4 * w) then s
  else
    let v := toBytes 4 (s.lost k 0).toNat
    (List.range 4).foldl (fun s i =>
      let a := 4 * w + i
      { s with mem := if (cellGet s.mem a).isSome then cellPut s.mem a (nth 0#8 v i) else s.mem, bad := setAdd s.bad a }) s

/-- ONE UNCORRECTABLE ERROR, number `k` of its step. -/
def State.upset (s : State) (k : Nat) (x : Upset) : State :=
  match x with
  | .memory w => s.strikeMemory k w
  | _ => match upsetRid x with
    | some r => s.modRegion r fun R => R.upsetIn s k x
    | none => s

/-- A list of them. -/
def State.upsets (s : State) : Nat → List Upset → State
  | _, [] => s
  | k, x :: t => (s.upset k x).upsets (k + 1) t

end Sys2Proof.Machine
end

