-- ==== Sys2Proof/Machine/Fetch.lean ====
section
/-! DEFINITION. What the next step is: the turn that moves, the interrupt or the instruction of a hart, the row that the
head of a queue stands for, and the placing of an instruction where the next step fetches it. -/

namespace Sys2Proof.Machine

/-! ### Turns -/

/-- The turn that moves next: the first of the schedule; with none, bring-up goes on (R471), and on a running device any
agent may move (R8). -/
def State.nextTurn (s : State) : Turn :=
  match s.sched with
  | t :: _ => t
  | [] =>
    if s.boot.bootfail.isSome then Config.freeTurn s.ticks
    else if s.boot.step = 1 then { dt := 0, who := .event (.pwrgdAssert s.boot.powerOn s.boot.lpddr) }
    else if s.boot.step = 2 then { dt := 0, who := .event (.pllLock true true) }
    else if s.boot.step = 6 then { dt := 0, who := .event (.memoryTrainingDone true true) }
    else Config.freeTurn s.ticks

/-- Hart 0's software interrupt comes to harts 1 to 15 (R471 step 8): one that waits for it leaves reset, at the firmware entry as hart 0
did (log entry 104); the interrupt is pending. -/
def State.ipis (s : State) (hs : List Nat) : State :=
  if s.boot.step ≠ 9 || !(s.hart 0).running then s
  else (hs.filter fun h => decide (1 ≤ h) && decide (h < 16)).foldl (fun s h => s.modHart h fun H =>
    { (if H.running then H else { H with running := true, pc := Config.firmwareEntry }) with mip := setBit H.mip 3 true }) s

/-- The state with the next turn begun: what the last cycle settled, the slots it changed and the actions of an alarm that waited for a
rollback are in place (R71, R96, R453), the turn's cycles have passed, its place in the schedule is gone, the host's writes to CHSTAT
are made, the software interrupts have come and the uncorrectable errors that it names have struck. -/
def State.beginTurn (s : State) : State :=
  let t := s.nextTurn
  let s1 := s.settled.spill.alarmsDue
  ((t.chstat.foldl (fun (s : State) w => s.setChstat w.1 w.2)
    { s1 with turn := t, sched := s.sched.drop 1, cycle := s.cycle + t.dt, ticks := s.ticks + 1 }).ipis t.ipi).upsets 0 t.upsets

/-- What a turn comes to: nothing, a row, or a hart's own step. -/
inductive Fetched where
  | idle
  | run (i : Instr)
  /-- The hart takes a trap: its code and its value. -/
  | trap (code tval : W64)
  /-- The hart's word is one of the base architecture. -/
  | base (b : BaseWord)
  /-- The head cannot be taken: the region faults (R126, R128). -/
  | headFault (rid : Nat) (f : FaultRec)
  /-- The head's slot lies on an absent page: a parking report is queued (R128, R290). -/
  | headPark (rid : Nat) (p : Parked)
  deriving DecidableEq, Repr

/-! ### Harts -/

/-- The hart takes the supervisor interrupt (R407): an event is pending and enabled, and interrupts of S-mode are. -/
def State.yardIrq (s : State) (H : Hart) : Bool :=
  s.yard.rgnip &&& H.rgnie != 0#6 && (H.priv == .u || (H.priv == .s && bit H.mstatus.toNat 1))

/-- The interrupt of mip and mie that a hart takes (R372, R438, R453), of several the first of this list. -/
def Hart.irq (H : Hart) : Option Nat :=
  let p := (H.mip &&& H.mie).toNat
  [18, 17, 11, 3, 7, 9, 1, 5].find? fun n =>
    bit p n && (if bit H.mideleg.toNat n then H.priv == .u || (H.priv == .s && bit H.mstatus.toNat 1)
      else H.priv != .m || bit H.mstatus.toNat 3)

/-- THE SUPERVISOR INTERRUPT (R407): scause code 16, taken into S-mode. -/
def Hart.takeYardIrq (H : Hart) : Hart := { H with mideleg := setBit H.mideleg 16 true }.trap 0x8000000000000010#64 0#64

/-- The row of a hart's word: a custom instruction with the variant that its registers select, or the illegal-instruction
trap (R88). -/
def customRow (H : Hart) (w : W32) : Instr :=
  match decodeCustom w with
  | .ok i => refine i (H.get (wordA w)) (H.get (wordS w))
  | .error _ => .illegalInstruction w

/-- What the instruction that a hart has fetched stands for: a row of the table, a word of the base architecture, or, where it is
assigned to neither, the illegal-instruction trap. -/
def wordRow (H : Hart) (w : W32) (n : Nat) : Fetched :=
  if n = 2 then
    match expand w.toNat with
    | some x => .base ⟨x, 2, w⟩
    | none => .trap 2#64 (w.zeroExtend 64)
  else if isCustom w then .run (customRow H w)
  else .base ⟨w, 4, w⟩

/-- A hart that stalls on an instruction of the Yard does nothing until that retires (R373). -/
def Hart.held (H : Hart) : Bool :=
  match H.stall with
  | some x => x.kind != .again && x.kind != .scan && x.kind != .submit
  | none => false

/-- What hart `h` does next: an interrupt is not taken while an instruction of the Yard waits for its turn (R373). -/
def State.fetchRow (s : State) (h : Nat) : Fetched :=
  let H := s.hart h
  if s.boot.step ≠ 9 || !H.running || H.held || h ≥ 16 then .idle
  else if H.stall.isNone && s.yardIrq H then .trap 0x8000000000000010#64 0#64
  else match (if H.stall.isNone then H.irq else none) with
    | some n => .trap (BitVec.ofNat 64 (2 ^ 63 + n)) 0#64
    | none =>
      match s.fetchHart h with
      | .error e => .trap e.1 e.2
      | .ok (w, n) => wordRow H w n

/-- A hart's trap as the turn takes it. -/
def State.takeTrap (s : State) (h : Nat) (code tval : W64) : State :=
  s.modHart h fun H => if code = 0x8000000000000010#64 then
    { H.takeYardIrq with mideleg := H.mideleg } else H.trap code tval

/-! ### Heads of queues -/

/-- The row that the head of a queue stands for (R61, R174): a control token, a sticky, purge or cancel token, an operand
that waits, or the record itself. -/
def rowOfHead (k : Take) (op : Nat) (r : Rec) (i : Instr) : Instr :=
  match k.t.kind with
  | .marker => .markerArrival
  | .eos => .endOfStreamArrival
  | .bubble => .bubbleArrival
  | .data =>
    match k.t.act with
    | .purge => .purgeArrival
    | .cancel => .cancelArrival
    | .sticky => if k.u.pos ≤ 3 && matching op r then .stickyArrival else i
    | .normal =>
      if k.u.pos ≤ 3 && matching op r && (match arrive k.R k.U op r k.t with | .quiet _ _ => true | _ => false)
      then .slotWrite else i

/-- The words of element memory from a word on. -/
def Site.words (U : Site) (w : Nat) : List W32 := [U.word w, U.word (w + 1), U.word (w + 2)]

/-- The row of the take that the turn names: none where the head does not move (R35, R128). -/
def State.takeRow (s : State) : Option Instr :=
  match s.arrival with
  | none => none
  | some (_, k, op, r) =>
    match decodeFabric (k.U.words k.node) with
    | .ok i => some (rowOfHead k op r i)
    | .error _ => none

/-- What a stop of a head comes to. -/
def HeadStop.fetched (rid : Nat) (k : Take) : HeadStop → Fetched
  | .bad => .headFault rid (mkFault k.u k.t.node k.t .recordError 0)
  | .fault c va => .headFault rid (mkVaFault k.u k.t.node k.t c va)
  | .absent va => .headPark rid { unit := headUnit k.u, acc := k.q, va := va, write := true, reported := false }

/-- What keeps the head that the turn names, R35's choice at a cell or an MU, from its take. -/
def State.stopped (s : State) : Option Fetched :=
  match s.turn.who with
  | .take rid u q =>
    match s.region? rid with
    | none => none
    | some R =>
      if !R.live then none
      else match R.unit? u, R.takeAt s.cycle u (if u.pos ≤ 3 then q else 0) with
        | some U, some k =>
          if u.pos ≤ 3 then
            if s.choice R U == some q then (s.headStop R k).map (HeadStop.fetched rid k) else none
          else if U.recordBad k.node then some (HeadStop.bad.fetched rid k) else none
        | _, _ => none
  | .source rid u =>
    match s.region? rid with
    | none => none
    | some R =>
      match R.unit? u with
      | none => none
      | some U =>
        match U.source?, s.sourceNext R U with
        | some (w, _), some (_, _, t, _) =>
          if R.live && s.choice R U == some 4 && U.recordBad w then
            some (.headFault rid (mkFault u (BitVec.ofNat 12 w) t .recordError 0)) else none
        | _, _ => none
  | _ => none

/-- The SOURCE record of a cell. -/
def State.sourceRow (s : State) (rid : Nat) (u : UnitId) : Option Instr :=
  match (s.region? rid).bind fun R => R.unit? u with
  | none => none
  | some U => U.source?.map fun p => .source p.2

/-- The parking report of a head queued. -/
def State.parkHead (s : State) (rid : Nat) (p : Parked) : State :=
  match s.region? rid with
  | none => s
  | some R => queueReport s R p

/-! ### Rows that a turn may name -/

/-- The rows that a hart's CSR and memory instructions stand for. -/
def hartRow : Instr → Bool
  | .xparkPop _ | .xparkRefuse _ | .xinvcmd _ | .capdataWrite _ | .lnkdataWrite _ | .partselWrite _ | .csrWrite _ _
  | .ccHartMemoryAccess _ _ | .illegalInstruction _ => true
  | _ => false

/-- The rows that come of the head of a queue and of nothing else. -/
def headRow : Instr → Bool
  | .slotWrite | .stickyArrival | .purgeArrival | .cancelArrival | .markerArrival | .endOfStreamArrival | .bubbleArrival => true
  | _ => false

/-- The events of the device and of the outside world: rows with no words of their own. -/
def eventRow (i : Instr) : Bool := (encode i).isEmpty && !hartRow i && !headRow i

/-- The events that can come before the device runs (R471): those of bring-up and of resets, strike reports, alarms. -/
def bootRow : Instr → Bool
  | .pwrgdAssert _ _ | .pllLock _ _ | .pllLockTimeout | .memoryTrainingDone _ _ | .resetNAssert | .pwrgdFail _ | .strikeReport _ _ _
  | .securityAlarm _ _ | .railGuardViolation | .clockGuardViolation | .tamperEvent | .treHourlySelfTest _ => true
  | _ => false

/-- What the turn that has begun comes to. -/
def State.fetched (s : State) : Fetched :=
  match s.turn.who with
  | .hart h => s.fetchRow h
  | .hartDoes h i =>
    if hartRow i && s.boot.step = 9 && (s.hart h).running && (s.hart h).stall.isNone && decide (h < 16) then .run i else .idle
  | .take _ _ _ => if s.boot.step = 9 then s.stopped.getD ((s.takeRow.map Fetched.run).getD .idle) else .idle
  | .source rid u => if s.boot.step = 9 then s.stopped.getD (((s.sourceRow rid u).map Fetched.run).getD .idle) else .idle
  | .event i => if eventRow i && (s.boot.step = 9 || bootRow i) then .run i else .idle

/-! ### Faults of one cycle (R389) -/

/-- The region of a take's or an emission's turn. -/
def State.turnRegion (s : State) : Option Nat :=
  match s.turn.who with
  | .take rid _ _ => some rid
  | .source rid _ => some rid
  | _ => none

/-- The region of an event of a region's own: a result leaving, a hop, a crossing, an access, an operation of an island. -/
def eventRegion : Instr → Option Nat
  | .aluResultEmit rid _ | .tokenHop rid _ | .gatewayPass rid _ | .ingressPlace rid _ | .fallocGrant rid | .accessPerform rid _ _
  | .accessRetire rid _ _ | .waiterRetry rid _ | .muRequestPortServe rid _ | .streamPass1Done rid _ _ | .sfeedPacket rid _ _
  | .streamComplete rid _ _ | .mmaOperandsRead rid _ _ | .mmaAccumulationDone rid _ _ | .moutWrite rid _ _ | .mcbInstall rid _ _
  | .quadrantPowerChange rid _ _ | .sbeOperationComplete rid _ _ => some rid
  | _ => none

/-- The region whose unit the turn moves. -/
def State.movesRegion (s : State) : Option Nat :=
  match s.turn.who with
  | .event i => eventRegion i
  | _ => s.turnRegion

/-- The region that the turn moves although a fault of this very cycle has frozen it: another of its sites may fault in the same cycle. -/
def State.lateRegion (s : State) : Option Nat :=
  match s.movesRegion with
  | none => none
  | some rid => if (s.region? rid).any fun R => R.st == .frozen && R.faultAt == s.cycle && !R.halting
      && (R.fault.any fun f => f.cause != .securityAlarm) then some rid else none

/-- The state in which that region still runs. -/
def State.thawed (s : State) (rid : Nat) : State := s.modRegion rid fun R => { R with st := .running }

/-- What such a turn comes to: `t` is where it would lead if the region still ran. A further fault stands, its record being kept by R389's
order; anything else does not happen, since the region has frozen. -/
def State.onlyFault (s : State) (rid : Nat) (t : State) : State :=
  if (t.region? rid).any fun R => R.st == .frozen then t else s

/-! ### Placing an instruction where the next step fetches it -/

/-- The opcode and record of words. -/
def recordOf (v : Nat) : Nat × Rec :=
  let w0 := BitVec.ofNat 32 v
  ((wordOp w0).toNat, recOfWords w0 (BitVec.ofNat 32 (v / 2 ^ 32)) (BitVec.ofNat 32 (v / 2 ^ 64)))

/-- The position of the unit that holds an opcode's records (R84). -/
def unitPos (op : Nat) : Nat :=
  if op < 0xA0 then 0 else if op < 0xC0 then 3 else if op < 0xD0 then 4 else if op < 0xE0 then 5 else if op < 0xF0 then 6 else 0

/-- An operand of zeros for a port. -/
def probeToken (r : Rec) (p : Nat) : Token := { emptyToken with port := BitVec.ofNat 2 p, fmt := r.fmt }

/-- A unit of the region that withFetchWord places. -/
def probeSite (pos : Nat) : Site where
  id := ⟨0, pos⟩
  side := 0
  stride := 16
  queues := [[], [], [], []]
  elem := []
  marks := []
  bad := []
  slots := []
  credits := [4, 4, 4, 4]
  owed := [0, 0, 0, 0]
  rot := 0
  nextTake := 0
  switch := List.replicate 16 0#32
  outq := []
  aluFree := 0
  nextSid := 0
  eng := match pos with
    | 3 => .mu default
    | 4 => .str default
    | 5 => .mxi { (default : Mxi) with accs := List.replicate 4 default, books := List.replicate 4 (List.replicate 16 0#16) }
    | 6 => .sbe default
    | _ => .cell

/-- The unit with a record at word 0, its last operand at the head of Q0, the others waiting. -/
def probeUnit (R : Region) (v : Nat) : Site :=
  let (op, r) := recordOf v
  let n := r.len.toNat + 1
  let ports := if op = 0xD0 || op = 0xE0 then [0, 1] else if op = 0xD1 then [0, 1, 2, 3] else tokenPorts op r
  let last := ports.getLastD 0
  let U := probeSite (unitPos op)
  let head : QTok := { tok := probeToken r last, org := ⟨0, 7⟩, route := 0, sid := 0 }
  let U1 : Site := { U with
    elem := (List.range n).map fun i => (i, BitVec.ofNat 32 (v / 2 ^ (32 * i)))
    marks := (List.range n).map fun i => (i, if i = 0 then 1#2 else 2#2)
    queues := [[head], [], [], []] }
  let rest := ports.dropLast
  match U1.eng with
  | .mxi x =>
    { U1 with eng := .mxi { x with store := rest.map fun p => { group := mxOff r, port := p, tok := probeToken r p } } }
  | .sbe x => { U1 with eng := .sbe { x with store := rest.map fun p => { group := sbGroup r, port := p, tok := probeToken r p } } }
  | _ =>
    if matching op r then
      { U1 with slots := rest.foldl (fun m p => storeIn m (groupOf R U1 op r (probeToken r p)) (.operand false (probeToken r p))) [] }
    else U1

/-- A RUNNING region of one page that holds a record and its operands. -/
def probeRegion (v : Nat) : Region :=
  let op := (recordOf v).1
  let pos := unitPos op
  let base : Region := { (default : Region) with
    rid := 0, gen := 1, st := .running, w := 1, h := 1, released := true
    cfg := { (default : Config) with live := 1, common := 1, chains := List.replicate 64 0#64 } }
  let others := ([0, 1, 2, 3].filter (· != pos)).map probeSite
  { base with units := probeUnit base v :: others }

/-- The state with an instruction stored where the next step fetches it. -/
def placeWord (s : State) (nbits w : Nat) : State :=
  let v := w % 2 ^ nbits
  let on : State := { s with boot := { s.boot with step := 9, bootfail := none } }
  if isCustom (BitVec.ofNat 32 v) then
    let H := on.hart 0
    let key : KeySlot := { v := true, part := 0xFFFF#16, key := s.trust.nextKey, bits := Config.randomKey s.ticks }
    let t : Trust := if (nth { v := false, part := 0#16, key := 0 } s.trust.keys 0).v then s.trust
      else { s.trust with keys := modNth s.trust.keys 0 fun _ => key, nextKey := s.trust.nextKey + 1 }
    let s1 := { on with trust := t, sched := [{ dt := 0, who := .hart 0 }] }
    let s2 := s1.modHart 0 fun H => { H with running := true, stall := none, priv := .m }
    memWrite s2 (s2.slotKey 0) H.pc.toNat (toBytes 4 v)
  else
    let t : Turn := { dt := 0, who := .take 0 ⟨0, unitPos (recordOf v).1⟩ 0 }
    let src : Turn := { dt := 0, who := .source 0 ⟨0, 0⟩ }
    { on with
      sched := [if (recordOf v).1 = 0x80 then src else t]
      regions := probeRegion v :: s.regions.filter fun R => R.rid != 0 }

end Sys2Proof.Machine
end

