-- ==== Sys2Proof/Machine/Step.lean ====
section
/-! DEFINITION. The one step of the device, and the placing of an instruction where it fetches. -/

namespace Sys2Proof.Machine

/-- What the turn that has begun comes to, done. -/
def runTurn (s1 : State) : Host.Outcome State Fault Refusal :=
  match s1.fetched with
  | .idle => .next s1
  | .run i => exec i s1
  | .trap c v => .next (s1.takeTrap s1.me c v)
  | .base b => execBase b s1
  | .headFault rid f => .next (takeFault s1 rid f)
  | .headPark rid p => .next (s1.parkHead rid p)

/-- THE STEP: the next turn begins, and what it comes to is done. In a region that a fault of the same cycle has frozen, only a further
fault is (R389). -/
def step (s : State) : Host.Outcome State Fault Refusal :=
  let s1 := s.beginTurn
  match s1.lateRegion with
  | none => runTurn s1
  | some rid =>
    match runTurn (s1.thawed rid) with
    | .next t => .next (s1.onlyFault rid t)
    | o => o

/-- The state with an instruction, its words as the table of operations numbers them, stored where the next step fetches
it, so that the next step runs it. -/
def State.withFetchWord (s : State) (nbits w : Nat) : State := placeWord s nbits w

end Sys2Proof.Machine
end

