-- ==== Sys2Proof/Laws/PerInstr.lean ====
section
/-! SUPPORT. The family RoundTrip: what the decoder makes of the words that the encoder gives each instruction, one lemma per
constructor. -/

namespace Sys2Proof.Laws

/-! ### Fields of a record's words -/

theorem fmtOfCode_codeOfFmt (f : Fmt) : fmtOfCode (codeOfFmt f) = f := by cases f <;> rfl

theorem wordLen_encodeWord0 (op : BitVec 8) (r : Rec) : wordLen (encodeWord0 op r) = r.len := by
  simp only [wordLen, encodeWord0]
  rw [BitVec.extractLsb'_append_eq_of_le (by omega), BitVec.extractLsb'_append_eq_of_le (by omega),
    BitVec.extractLsb'_append_eq_of_le (by omega), BitVec.extractLsb'_append_eq_of_le (by omega),
    BitVec.extractLsb'_append_eq_of_le (by omega)]
  simp

theorem wordOp_encodeWord0 (op : BitVec 8) (r : Rec) : wordOp (encodeWord0 op r) = op := by
  simp only [wordOp, encodeWord0]
  rw [BitVec.extractLsb'_append_eq_of_le (by omega), BitVec.extractLsb'_append_eq_of_le (by omega),
    BitVec.extractLsb'_append_eq_of_le (by omega), BitVec.extractLsb'_append_eq_of_le (by omega)]
  exact BitVec.extractLsb'_append_eq_right

theorem fmt_encodeWord0 (op : BitVec 8) (r : Rec) : (encodeWord0 op r).extractLsb' 18 4 = codeOfFmt r.fmt := by
  simp only [encodeWord0]
  rw [BitVec.extractLsb'_append_eq_of_le (by omega), BitVec.extractLsb'_append_eq_of_le (by omega),
    BitVec.extractLsb'_append_eq_of_le (by omega)]
  exact BitVec.extractLsb'_append_eq_right

theorem imm_encodeWord0 (op : BitVec 8) (r : Rec) : (encodeWord0 op r).getLsbD 17 = r.imm := by
  simp only [encodeWord0, BitVec.getLsbD_append]; simp

theorem m_encodeWord0 (op : BitVec 8) (r : Rec) : (encodeWord0 op r).getLsbD 16 = r.m := by
  simp only [encodeWord0, BitVec.getLsbD_append]; simp

theorem d0_encodeWord0 (op : BitVec 8) (r : Rec) : (encodeWord0 op r).extractLsb' 0 16 = r.d0 := by
  simp only [encodeWord0]
  exact BitVec.extractLsb'_append_eq_right

theorem d1_word1 (r : Rec) : (r.d1 ++ r.aux : W32).extractLsb' 16 16 = r.d1 := BitVec.extractLsb'_append_eq_left

theorem aux_word1 (r : Rec) : (r.d1 ++ r.aux : W32).extractLsb' 0 16 = r.aux := BitVec.extractLsb'_append_eq_right

/-- The record of the words that a well-formed record is encoded in. -/
theorem recOfWords_encode (op : BitVec 8) (r : Rec) (a b : W32) (h : recOk r = true)
    (ha : r.len ≠ 0#2 → a = r.d1 ++ r.aux) (hb : r.len = 2#2 → b = r.lit) : recOfWords (encodeWord0 op r) a b = r := by
  obtain ⟨len, fmt, imm, m, d0, d1, aux, lit⟩ := r
  simp only [recOk, Bool.and_eq_true, Bool.or_eq_true, bne_iff_ne, beq_iff_eq, Bool.not_eq_true'] at h
  simp only [recOfWords, wordLen_encodeWord0, fmt_encodeWord0, imm_encodeWord0, m_encodeWord0, d0_encodeWord0, fmtOfCode_codeOfFmt,
    Rec.mk.injEq, true_and] at *
  refine ⟨?_, ?_, ?_⟩
  · split
    · next e => exact ((h.1.1.2.resolve_left fun n => n e).1).symm
    · next e => rw [ha e]; exact BitVec.extractLsb'_append_eq_left
  · split
    · next e => exact ((h.1.1.2.resolve_left fun n => n e).2).symm
    · next e => rw [ha e]; exact BitVec.extractLsb'_append_eq_right
  · split
    · next e => exact hb e
    · next e => exact (h.1.2.resolve_left e).symm

/-- Decoding the words of a well-formed record reads its opcode and its fields back. -/
theorem decodeFabric_encodeRecord (op : BitVec 8) (r : Rec) (i : Instr) (h : recOk r = true) (hi : instrOfOp op r = some i) :
    decodeFabric (encodeRecord op r) = .ok i := by
  have h3 : r.len ≠ 3#2 := by
    simp only [recOk, Bool.and_eq_true, bne_iff_ne] at h; exact h.1.1.1
  have key (a b : W32) (ha : r.len ≠ 0#2 → a = r.d1 ++ r.aux) (hb : r.len = 2#2 → b = r.lit) :
      decodeRecord (encodeWord0 op r) a b = .ok i := by
    simp only [decodeRecord, wordLen_encodeWord0, wordOp_encodeWord0, recOfWords_encode op r a b h ha hb, hi, h3, if_false]
  have hl : r.len = 0#2 ∨ r.len = 1#2 ∨ r.len = 2#2 := by
    have := r.len.isLt
    rcases (show r.len.toNat = 0 ∨ r.len.toNat = 1 ∨ r.len.toNat = 2 ∨ r.len.toNat = 3 by omega) with e | e | e | e
    · exact .inl (BitVec.eq_of_toNat_eq e)
    · exact .inr (.inl (BitVec.eq_of_toNat_eq e))
    · exact .inr (.inr (BitVec.eq_of_toNat_eq e))
    · exact absurd (BitVec.eq_of_toNat_eq e) h3
  have go (t : List W32) (he : encodeRecord op r = encodeWord0 op r :: t) (ht : r.len.toNat ≤ t.length)
      (ha : r.len ≠ 0#2 → t.getD 0 0#32 = r.d1 ++ r.aux) (hb : r.len = 2#2 → t.getD 1 0#32 = r.lit) :
      decodeFabric (encodeRecord op r) = .ok i := by
    rw [he]
    simp only [decodeFabric, wordLen_encodeWord0, gt_iff_lt, Nat.not_lt.2 ht, if_false]
    exact key _ _ ha hb
  rcases hl with e | e | e
  · exact go [] (by simp [encodeRecord, e]) (by simp [e]) (fun n => absurd e n) (fun n => by rw [e] at n; exact absurd n (by decide))
  · exact go [r.d1 ++ r.aux] (by simp [encodeRecord, e]) (by simp [e]) (fun _ => rfl) (fun n => by rw [e] at n; exact absurd n (by decide))
  · exact go [r.d1 ++ r.aux, r.lit] (by simp [encodeRecord, e]) (by simp [e]) (fun _ => rfl) (fun _ => rfl)

/-! ### Fields of a custom word -/

/-- The fixed bits of a custom instruction lie outside its register fields. -/
def fixedBits (m : W32) : Prop := m &&& 0xFE00707F#32 = m

theorem getLsbD_field (x : BitVec 5) (n i : Nat) :
    (x.zeroExtend 32 <<< n).getLsbD i = (decide (i < 32) && !decide (i < n) && x.getLsbD (i - n)) := by
  by_cases h1 : i < 32 <;> by_cases h2 : i < n <;> simp [BitVec.getLsbD_shiftLeft, h1, h2]

theorem fixedBits_getLsbD {m : W32} (h : fixedBits m) (i : Nat) (hi : (0xFE00707F#32).getLsbD i = false) : m.getLsbD i = false := by
  rw [← h, BitVec.getLsbD_and, hi, Bool.and_false]

theorem wordD_encodeCustom {m : W32} (h : fixedBits m) (d a s : BitVec 5) : wordD (encodeCustom m d a s) = d := by
  ext i hi
  have hm : m.getLsbD (7 + i) = false := fixedBits_getLsbD h _ (by
    rcases (show i = 0 ∨ i = 1 ∨ i = 2 ∨ i = 3 ∨ i = 4 by omega) with rfl | rfl | rfl | rfl | rfl <;> decide)
  simp only [wordD, encodeCustom, BitVec.getElem_extractLsb', BitVec.getLsbD_or, getLsbD_field, hm]
  simp [show ¬ 7 + i < 7 by omega, show 7 + i < 15 by omega, show 7 + i < 20 by omega, show 7 + i < 32 by omega, BitVec.getLsbD_eq_getElem hi]

theorem wordA_encodeCustom {m : W32} (h : fixedBits m) (d a s : BitVec 5) : wordA (encodeCustom m d a s) = a := by
  ext i hi
  have hm : m.getLsbD (15 + i) = false := fixedBits_getLsbD h _ (by
    rcases (show i = 0 ∨ i = 1 ∨ i = 2 ∨ i = 3 ∨ i = 4 by omega) with rfl | rfl | rfl | rfl | rfl <;> decide)
  simp only [wordA, encodeCustom, BitVec.getElem_extractLsb', BitVec.getLsbD_or, getLsbD_field, hm]
  have : d.getLsbD (15 + i - 7) = false := BitVec.getLsbD_of_ge _ _ (by omega)
  simp [this, show ¬ 15 + i < 15 by omega, show 15 + i < 20 by omega, show 15 + i < 32 by omega, BitVec.getLsbD_eq_getElem hi]

theorem wordS_encodeCustom {m : W32} (h : fixedBits m) (d a s : BitVec 5) : wordS (encodeCustom m d a s) = s := by
  ext i hi
  have hm : m.getLsbD (20 + i) = false := fixedBits_getLsbD h _ (by
    rcases (show i = 0 ∨ i = 1 ∨ i = 2 ∨ i = 3 ∨ i = 4 by omega) with rfl | rfl | rfl | rfl | rfl <;> decide)
  simp only [wordS, encodeCustom, BitVec.getElem_extractLsb', BitVec.getLsbD_or, getLsbD_field, hm]
  have h1 : d.getLsbD (20 + i - 7) = false := BitVec.getLsbD_of_ge _ _ (by omega)
  have h2 : a.getLsbD (20 + i - 15) = false := BitVec.getLsbD_of_ge _ _ (by omega)
  simp [h1, h2, show ¬ 20 + i < 20 by omega, show 20 + i < 32 by omega, BitVec.getLsbD_eq_getElem hi]

theorem mask_encodeCustom {m : W32} (h : fixedBits m) (d a s : BitVec 5) : encodeCustom m d a s &&& 0xFE00707F#32 = m := by
  have z (x : BitVec 5) (n : Nat) (hn : n = 7 ∨ n = 15 ∨ n = 20) : (x.zeroExtend 32 <<< n) &&& 0xFE00707F#32 = 0#32 := by
    ext i hi
    rw [← BitVec.getLsbD_eq_getElem hi, ← BitVec.getLsbD_eq_getElem hi, BitVec.getLsbD_and, getLsbD_field, BitVec.getLsbD_zero]
    by_cases hx : x.getLsbD (i - n) = true
    · have := BitVec.lt_of_getLsbD hx
      by_cases hn' : i < n
      · simp [hn']
      · have : (0xFE00707F#32).getLsbD i = false := by
          rcases (show i = n ∨ i = n + 1 ∨ i = n + 2 ∨ i = n + 3 ∨ i = n + 4 by omega) with e | e | e | e | e <;>
            rcases hn with rfl | rfl | rfl <;> subst e <;> decide
        simp [this]
    · simp [hx]
  have hm : m &&& 0xFE00707F#32 = m := h
  have orAnd (x y c : W32) : (x ||| y) &&& c = (x &&& c) ||| (y &&& c) := by
    ext i hi; simp [Bool.and_or_distrib_right]
  simp only [encodeCustom, orAnd, hm, z d 7 (by omega), z a 15 (by omega), z s 20 (by omega), BitVec.or_zero]

/-- The first variant of a custom encoding (R456 to R459): what its word alone decodes to. -/
def firstVariant : Instr → Instr
  | .secFuseBlow d a s => .secFuseRead d a s
  | .secMeasExtend d a s => .secMeasRead d a s
  | .secWipe d a s => .secWipeQuery d a s
  | .secUnlkSubmit d a s => .secUnlkNonce d a s
  | .secUnlkClose d a s => .secUnlkNonce d a s
  | i => i

namespace RoundTrip

/-- ROUND TRIP of a well-formed instruction: a record's words decode to it in element memory; a custom instruction's one word decodes
to the first variant of its encoding, and some values of rs1 and rs2 select it; an event has no words. -/
def Statement (i : Instr) : Prop :=
  wellFormed i = true →
    (∀ p, opOf i = some p → decodeFabric (encode i) = .ok i) ∧
    (opOf i = none → ∀ p, customOf i = some p → ∃ w, encode i = [w] ∧ isCustom w = true ∧ decodeCustom w = .ok (firstVariant i) ∧
      ∃ a s, refine (firstVariant i) a s = i) ∧
    (opOf i = none → customOf i = none → encode i = [])

/-- The statement for a record. -/
theorem ofRecord {i : Instr} {op : BitVec 8} {r : Rec} (ho : opOf i = some (op, r)) (hr : wellFormed i = true → recOk r = true)
    (hi : wellFormed i = true → instrOfOp op r = some i) : Statement i := by
  intro h
  refine ⟨fun p hp => ?_, fun n => ?_, fun n => ?_⟩
  · simp only [encode, ho]; exact decodeFabric_encodeRecord op r i (hr h) (hi h)
  · rw [ho] at n; exact absurd n (by simp)
  · rw [ho] at n; exact absurd n (by simp)

/-- The statement for a custom instruction. -/
theorem ofCustom {i : Instr} {m : W32} {d a s : BitVec 5} (x y : BitVec 64) (ho : opOf i = none) (hc : customOf i = some (m, d, a, s))
    (hm : fixedBits m) (hw : wordMajor m = 0x0B#7 ∨ wordMajor m = 0x2B#7)
    (hd : ∀ w, wordD w = d → wordA w = a → wordS w = s → w &&& 0xFE00707F#32 = m → decodeCustom w = .ok (firstVariant i))
    (hr : refine (firstVariant i) x y = i) : Statement i := by
  intro _
  refine ⟨fun p hp => ?_, fun _ p hp => ?_, fun _ n => ?_⟩
  · rw [ho] at hp; exact absurd hp (by simp)
  · refine ⟨encodeCustom m d a s, by simp only [encode, ho, hc], ?_, ?_, x, y, hr⟩
    · have major : wordMajor (encodeCustom m d a s) = wordMajor m := by
        have := mask_encodeCustom hm d a s
        have e (w : W32) : wordMajor (w &&& 0xFE00707F#32) = wordMajor w := by
          ext i hi
          simp only [wordMajor, BitVec.getElem_extractLsb', BitVec.getLsbD_and]
          rcases (show i = 0 ∨ i = 1 ∨ i = 2 ∨ i = 3 ∨ i = 4 ∨ i = 5 ∨ i = 6 by omega) with rfl | rfl | rfl | rfl | rfl | rfl | rfl <;> simp
        rw [← e, this]
      simp only [isCustom, major, Bool.or_eq_true, beq_iff_eq]; exact hw
    · exact hd _ (wordD_encodeCustom hm d a s) (wordA_encodeCustom hm d a s) (wordS_encodeCustom hm d a s) (mask_encodeCustom hm d a s)
  · rw [hc] at n; exact absurd n (by simp)

/-- The statement for an event. -/
theorem ofEvent {i : Instr} (ho : opOf i = none) (hc : customOf i = none) : Statement i := by
  intro _
  refine ⟨fun p hp => ?_, fun _ p hp => ?_, fun _ _ => ?_⟩
  · rw [ho] at hp; exact absurd hp (by simp)
  · rw [hc] at hp; exact absurd hp (by simp)
  · simp only [encode, ho, hc]

theorem rgnAlloc (d a s : BitVec 5) : Statement (.rgnAlloc d a s) :=
  ofCustom 0#64 0#64 rfl rfl (by simp only [fixedBits]; decide) (by decide)
    (fun w h1 h2 h3 h4 => by simp [decodeCustom, h1, h2, h3, h4, firstVariant]) (by simp [firstVariant, refine])
theorem rgnLoad (d a s : BitVec 5) : Statement (.rgnLoad d a s) :=
  ofCustom 0#64 0#64 rfl rfl (by simp only [fixedBits]; decide) (by decide)
    (fun w h1 h2 h3 h4 => by simp [decodeCustom, h1, h2, h3, h4, firstVariant]) (by simp [firstVariant, refine])
theorem rgnStart (d a s : BitVec 5) : Statement (.rgnStart d a s) :=
  ofCustom 0#64 0#64 rfl rfl (by simp only [fixedBits]; decide) (by decide)
    (fun w h1 h2 h3 h4 => by simp [decodeCustom, h1, h2, h3, h4, firstVariant]) (by simp [firstVariant, refine])
theorem rgnFreeze (d a : BitVec 5) : Statement (.rgnFreeze d a) :=
  ofCustom 0#64 0#64 rfl rfl (by simp only [fixedBits]; decide) (by decide)
    (fun w h1 h2 h3 h4 => by simp [decodeCustom, h1, h2, h3, h4, firstVariant]) (by simp [firstVariant, refine])
theorem rgnDrain (d a : BitVec 5) : Statement (.rgnDrain d a) :=
  ofCustom 0#64 0#64 rfl rfl (by simp only [fixedBits]; decide) (by decide)
    (fun w h1 h2 h3 h4 => by simp [decodeCustom, h1, h2, h3, h4, firstVariant]) (by simp [firstVariant, refine])
theorem rgnSave (d a s : BitVec 5) : Statement (.rgnSave d a s) :=
  ofCustom 0#64 0#64 rfl rfl (by simp only [fixedBits]; decide) (by decide)
    (fun w h1 h2 h3 h4 => by simp [decodeCustom, h1, h2, h3, h4, firstVariant]) (by simp [firstVariant, refine])
theorem rgnRest (d a s : BitVec 5) : Statement (.rgnRest d a s) :=
  ofCustom 0#64 0#64 rfl rfl (by simp only [fixedBits]; decide) (by decide)
    (fun w h1 h2 h3 h4 => by simp [decodeCustom, h1, h2, h3, h4, firstVariant]) (by simp [firstVariant, refine])
theorem rgnMove (d a s : BitVec 5) : Statement (.rgnMove d a s) :=
  ofCustom 0#64 0#64 rfl rfl (by simp only [fixedBits]; decide) (by decide)
    (fun w h1 h2 h3 h4 => by simp [decodeCustom, h1, h2, h3, h4, firstVariant]) (by simp [firstVariant, refine])
theorem rgnKill (d a : BitVec 5) : Statement (.rgnKill d a) :=
  ofCustom 0#64 0#64 rfl rfl (by simp only [fixedBits]; decide) (by decide)
    (fun w h1 h2 h3 h4 => by simp [decodeCustom, h1, h2, h3, h4, firstVariant]) (by simp [firstVariant, refine])
theorem rgnPrio (d a s : BitVec 5) : Statement (.rgnPrio d a s) :=
  ofCustom 0#64 0#64 rfl rfl (by simp only [fixedBits]; decide) (by decide)
    (fun w h1 h2 h3 h4 => by simp [decodeCustom, h1, h2, h3, h4, firstVariant]) (by simp [firstVariant, refine])
theorem rgnStat (d a s : BitVec 5) : Statement (.rgnStat d a s) :=
  ofCustom 0#64 0#64 rfl rfl (by simp only [fixedBits]; decide) (by decide)
    (fun w h1 h2 h3 h4 => by simp [decodeCustom, h1, h2, h3, h4, firstVariant]) (by simp [firstVariant, refine])
theorem callTake (d a s : BitVec 5) : Statement (.callTake d a s) :=
  ofCustom 0#64 0#64 rfl rfl (by simp only [fixedBits]; decide) (by decide)
    (fun w h1 h2 h3 h4 => by simp [decodeCustom, h1, h2, h3, h4, firstVariant]) (by simp [firstVariant, refine])
theorem callDone (d a : BitVec 5) : Statement (.callDone d a) :=
  ofCustom 0#64 0#64 rfl rfl (by simp only [fixedBits]; decide) (by decide)
    (fun w h1 h2 h3 h4 => by simp [decodeCustom, h1, h2, h3, h4, firstVariant]) (by simp [firstVariant, refine])
theorem secFuseRead (d a s : BitVec 5) : Statement (.secFuseRead d a s) :=
  ofCustom 0#64 0#64 rfl rfl (by simp only [fixedBits]; decide) (by decide)
    (fun w h1 h2 h3 h4 => by simp [decodeCustom, h1, h2, h3, h4, firstVariant]) (by simp [firstVariant, refine])
theorem secFuseBlow (d a s : BitVec 5) : Statement (.secFuseBlow d a s) :=
  ofCustom 0#64 1#64 rfl rfl (by simp only [fixedBits]; decide) (by decide)
    (fun w h1 h2 h3 h4 => by simp [decodeCustom, h1, h2, h3, h4, firstVariant]) (by simp [firstVariant, refine])
theorem secMeasRead (d a s : BitVec 5) : Statement (.secMeasRead d a s) :=
  ofCustom 0#64 0#64 rfl rfl (by simp only [fixedBits]; decide) (by decide)
    (fun w h1 h2 h3 h4 => by simp [decodeCustom, h1, h2, h3, h4, firstVariant]) (by simp [firstVariant, refine])
theorem secMeasExtend (d a s : BitVec 5) : Statement (.secMeasExtend d a s) :=
  ofCustom 256#64 0#64 rfl rfl (by simp only [fixedBits]; decide) (by decide)
    (fun w h1 h2 h3 h4 => by simp [decodeCustom, h1, h2, h3, h4, firstVariant]) (by simp [firstVariant, refine])
theorem secWipeQuery (d a s : BitVec 5) : Statement (.secWipeQuery d a s) :=
  ofCustom 128#64 0#64 rfl rfl (by simp only [fixedBits]; decide) (by decide)
    (fun w h1 h2 h3 h4 => by simp [decodeCustom, h1, h2, h3, h4, firstVariant]) (by simp [firstVariant, refine])
theorem secWipe (d a s : BitVec 5) : Statement (.secWipe d a s) :=
  ofCustom 0#64 0#64 rfl rfl (by simp only [fixedBits]; decide) (by decide)
    (fun w h1 h2 h3 h4 => by simp [decodeCustom, h1, h2, h3, h4, firstVariant]) (by simp [firstVariant, refine])
theorem secUnlkNonce (d a s : BitVec 5) : Statement (.secUnlkNonce d a s) :=
  ofCustom 0#64 0#64 rfl rfl (by simp only [fixedBits]; decide) (by decide)
    (fun w h1 h2 h3 h4 => by simp [decodeCustom, h1, h2, h3, h4, firstVariant]) (by simp [firstVariant, refine])
theorem secUnlkSubmit (d a s : BitVec 5) : Statement (.secUnlkSubmit d a s) :=
  ofCustom 1#64 0#64 rfl rfl (by simp only [fixedBits]; decide) (by decide)
    (fun w h1 h2 h3 h4 => by simp [decodeCustom, h1, h2, h3, h4, firstVariant]) (by simp [firstVariant, refine])
theorem secUnlkClose (d a s : BitVec 5) : Statement (.secUnlkClose d a s) :=
  ofCustom 2#64 0#64 rfl rfl (by simp only [fixedBits]; decide) (by decide)
    (fun w h1 h2 h3 h4 => by simp [decodeCustom, h1, h2, h3, h4, firstVariant]) (by simp [firstVariant, refine])
theorem secAtst (d a s : BitVec 5) : Statement (.secAtst d a s) :=
  ofCustom 0#64 0#64 rfl rfl (by simp only [fixedBits]; decide) (by decide)
    (fun w h1 h2 h3 h4 => by simp [decodeCustom, h1, h2, h3, h4, firstVariant]) (by simp [firstVariant, refine])
theorem illegalInstruction (w : W32) : Statement (.illegalInstruction w) := ofEvent rfl rfl
theorem xparkPop (d : BitVec 5) : Statement (.xparkPop d) := ofEvent rfl rfl
theorem xparkRefuse (v : W64) : Statement (.xparkRefuse v) := ofEvent rfl rfl
theorem xinvcmd (v : W64) : Statement (.xinvcmd v) := ofEvent rfl rfl
theorem invalidationComplete : Statement (.invalidationComplete) := ofEvent rfl rfl
theorem capdataWrite (v : W64) : Statement (.capdataWrite v) := ofEvent rfl rfl
theorem capabilityPendingApply (rid idx : Nat) : Statement (.capabilityPendingApply rid idx) := ofEvent rfl rfl
theorem lnkdataWrite (v : W64) : Statement (.lnkdataWrite v) := ofEvent rfl rfl
theorem partselWrite (v : W64) : Statement (.partselWrite v) := ofEvent rfl rfl
theorem csrWrite (csr : BitVec 12) (v : W64) : Statement (.csrWrite csr v) := ofEvent rfl rfl
theorem callwin (tdi : Nat) (call : BitVec 512) : Statement (.callwin tdi call) := ofEvent rfl rfl
theorem pwrgdAssert (powerOn lpddr : Bool) : Statement (.pwrgdAssert powerOn lpddr) := ofEvent rfl rfl
theorem pllLock (tests fwOk : Bool) : Statement (.pllLock tests fwOk) := ofEvent rfl rfl
theorem memoryTrainingDone (trained fwOk : Bool) : Statement (.memoryTrainingDone trained fwOk) := ofEvent rfl rfl
theorem tokenHop (rid k : Nat) : Statement (.tokenHop rid k) := ofEvent rfl rfl
theorem creditReturn (rid : Nat) : Statement (.creditReturn rid) := ofEvent rfl rfl
theorem gatewayPass (rid k : Nat) : Statement (.gatewayPass rid k) := ofEvent rfl rfl
theorem ingressPlace (rid k : Nat) : Statement (.ingressPlace rid k) := ofEvent rfl rfl
theorem packetReceive (port : Nat) (p : Packet) : Statement (.packetReceive port p) := ofEvent rfl rfl
theorem slotWrite : Statement (.slotWrite) := ofEvent rfl rfl
theorem stickyArrival : Statement (.stickyArrival) := ofEvent rfl rfl
theorem purgeArrival : Statement (.purgeArrival) := ofEvent rfl rfl
theorem cancelArrival : Statement (.cancelArrival) := ofEvent rfl rfl
theorem markerArrival : Statement (.markerArrival) := ofEvent rfl rfl
theorem endOfStreamArrival : Statement (.endOfStreamArrival) := ofEvent rfl rfl
theorem bubbleArrival : Statement (.bubbleArrival) := ofEvent rfl rfl
theorem aluResultEmit (rid : Nat) (u : UnitId) : Statement (.aluResultEmit rid u) := ofEvent rfl rfl
theorem copy (r : Rec) : Statement (.copy r) := ofRecord rfl (fun h => h) (fun _ => rfl)
theorem iadd (r : Rec) : Statement (.iadd r) := ofRecord rfl (fun h => h) (fun _ => rfl)
theorem isub (r : Rec) : Statement (.isub r) := ofRecord rfl (fun h => h) (fun _ => rfl)
theorem imul (r : Rec) : Statement (.imul r) := ofRecord rfl (fun h => h) (fun _ => rfl)
theorem imulh (r : Rec) : Statement (.imulh r) := ofRecord rfl (fun h => h) (fun _ => rfl)
theorem imad (r : Rec) : Statement (.imad r) := ofRecord rfl (fun h => h) (fun _ => rfl)
theorem idiv (r : Rec) : Statement (.idiv r) := ofRecord rfl (fun h => h) (fun _ => rfl)
theorem irem (r : Rec) : Statement (.irem r) := ofRecord rfl (fun h => h) (fun _ => rfl)
theorem imin (r : Rec) : Statement (.imin r) := ofRecord rfl (fun h => h) (fun _ => rfl)
theorem imax (r : Rec) : Statement (.imax r) := ofRecord rfl (fun h => h) (fun _ => rfl)
theorem iabs (r : Rec) : Statement (.iabs r) := ofRecord rfl (fun h => h) (fun _ => rfl)
theorem ineg (r : Rec) : Statement (.ineg r) := ofRecord rfl (fun h => h) (fun _ => rfl)
theorem iaddc (r : Rec) : Statement (.iaddc r) := ofRecord rfl (fun h => h) (fun _ => rfl)
theorem isubb (r : Rec) : Statement (.isubb r) := ofRecord rfl (fun h => h) (fun _ => rfl)
theorem idot4 (r : Rec) : Statement (.idot4 r) := ofRecord rfl (fun h => h) (fun _ => rfl)
theorem iclamp (r : Rec) : Statement (.iclamp r) := ofRecord rfl (fun h => h) (fun _ => rfl)
theorem and (r : Rec) : Statement (.and r) := ofRecord rfl (fun h => h) (fun _ => rfl)
theorem or (r : Rec) : Statement (.or r) := ofRecord rfl (fun h => h) (fun _ => rfl)
theorem xor (r : Rec) : Statement (.xor r) := ofRecord rfl (fun h => h) (fun _ => rfl)
theorem andn (r : Rec) : Statement (.andn r) := ofRecord rfl (fun h => h) (fun _ => rfl)
theorem not (r : Rec) : Statement (.not r) := ofRecord rfl (fun h => h) (fun _ => rfl)
theorem lut3 (r : Rec) : Statement (.lut3 r) := ofRecord rfl (fun h => h) (fun _ => rfl)
theorem shl (r : Rec) : Statement (.shl r) := ofRecord rfl (fun h => h) (fun _ => rfl)
theorem shr (r : Rec) : Statement (.shr r) := ofRecord rfl (fun h => h) (fun _ => rfl)
theorem sar (r : Rec) : Statement (.sar r) := ofRecord rfl (fun h => h) (fun _ => rfl)
theorem rotl (r : Rec) : Statement (.rotl r) := ofRecord rfl (fun h => h) (fun _ => rfl)
theorem funl (r : Rec) : Statement (.funl r) := ofRecord rfl (fun h => h) (fun _ => rfl)
theorem clz (r : Rec) : Statement (.clz r) := ofRecord rfl (fun h => h) (fun _ => rfl)
theorem popc (r : Rec) : Statement (.popc r) := ofRecord rfl (fun h => h) (fun _ => rfl)
theorem brev (r : Rec) : Statement (.brev r) := ofRecord rfl (fun h => h) (fun _ => rfl)
theorem bext (r : Rec) : Statement (.bext r) := ofRecord rfl (fun h => h) (fun _ => rfl)
theorem bins (r : Rec) : Statement (.bins r) := ofRecord rfl (fun h => h) (fun _ => rfl)
theorem icmp (r : Rec) : Statement (.icmp r) := ofRecord rfl (fun h => h) (fun _ => rfl)
theorem sel (r : Rec) : Statement (.sel r) := ofRecord rfl (fun h => h) (fun _ => rfl)
theorem fadd (r : Rec) : Statement (.fadd r) := ofRecord rfl (fun h => h) (fun _ => rfl)
theorem fsub (r : Rec) : Statement (.fsub r) := ofRecord rfl (fun h => h) (fun _ => rfl)
theorem fmul (r : Rec) : Statement (.fmul r) := ofRecord rfl (fun h => h) (fun _ => rfl)
theorem ffma (r : Rec) : Statement (.ffma r) := ofRecord rfl (fun h => h) (fun _ => rfl)
theorem fmin (r : Rec) : Statement (.fmin r) := ofRecord rfl (fun h => h) (fun _ => rfl)
theorem fmax (r : Rec) : Statement (.fmax r) := ofRecord rfl (fun h => h) (fun _ => rfl)
theorem fabs (r : Rec) : Statement (.fabs r) := ofRecord rfl (fun h => h) (fun _ => rfl)
theorem fneg (r : Rec) : Statement (.fneg r) := ofRecord rfl (fun h => h) (fun _ => rfl)
theorem fcmp (r : Rec) : Statement (.fcmp r) := ofRecord rfl (fun h => h) (fun _ => rfl)
theorem frnd (r : Rec) : Statement (.frnd r) := ofRecord rfl (fun h => h) (fun _ => rfl)
theorem fclass (r : Rec) : Statement (.fclass r) := ofRecord rfl (fun h => h) (fun _ => rfl)
theorem fscale (r : Rec) : Statement (.fscale r) := ofRecord rfl (fun h => h) (fun _ => rfl)
theorem fdot2 (r : Rec) : Statement (.fdot2 r) := ofRecord rfl (fun h => h) (fun _ => rfl)
theorem famax (r : Rec) : Statement (.famax r) := ofRecord rfl (fun h => h) (fun _ => rfl)
theorem cvt (r : Rec) : Statement (.cvt r) := ofRecord rfl (fun h => h) (fun _ => rfl)
theorem cvts (r : Rec) : Statement (.cvts r) := ofRecord rfl (fun h => h) (fun _ => rfl)
theorem qpack (r : Rec) : Statement (.qpack r) := ofRecord rfl (fun h => h) (fun _ => rfl)
theorem qunpack (r : Rec) : Statement (.qunpack r) := ofRecord rfl (fun h => h) (fun _ => rfl)
theorem qscale (r : Rec) : Statement (.qscale r) := ofRecord rfl (fun h => h) (fun _ => rfl)
theorem pmerge (r : Rec) : Statement (.pmerge r) := ofRecord rfl (fun h => h) (fun _ => rfl)
theorem psplit (r : Rec) : Statement (.psplit r) := ofRecord rfl (fun h => h) (fun _ => rfl)
theorem pext (r : Rec) : Statement (.pext r) := ofRecord rfl (fun h => h) (fun _ => rfl)
theorem pins (r : Rec) : Statement (.pins r) := ofRecord rfl (fun h => h) (fun _ => rfl)
theorem pbcast (r : Rec) : Statement (.pbcast r) := ofRecord rfl (fun h => h) (fun _ => rfl)
theorem preduce (r : Rec) : Statement (.preduce r) := ofRecord rfl (fun h => h) (fun _ => rfl)
theorem pshuf (r : Rec) : Statement (.pshuf r) := ofRecord rfl (fun h => h) (fun _ => rfl)
theorem plen (r : Rec) : Statement (.plen r) := ofRecord rfl (fun h => h) (fun _ => rfl)
theorem ptest (r : Rec) : Statement (.ptest r) := ofRecord rfl (fun h => h) (fun _ => rfl)
theorem draw (r : Rec) : Statement (.draw r) := ofRecord rfl (fun h => h) (fun _ => rfl)
theorem cadd128 (r : Rec) : Statement (.cadd128 r) := ofRecord rfl (fun h => h) (fun _ => rfl)
theorem steer (r : Rec) : Statement (.steer r) := ofRecord rfl (fun h => h) (fun _ => rfl)
theorem merge (r : Rec) : Statement (.merge r) := ofRecord rfl (fun h => h) (fun _ => rfl)
theorem gate (r : Rec) : Statement (.gate r) := ofRecord rfl (fun h => h) (fun _ => rfl)
theorem enter (r : Rec) : Statement (.enter r) := ofRecord rfl (fun h => h) (fun _ => rfl)
theorem next (r : Rec) : Statement (.next r) := ofRecord rfl (fun h => h) (fun _ => rfl)
theorem leave (r : Rec) : Statement (.leave r) := ofRecord rfl (fun h => h) (fun _ => rfl)
theorem callf (r : Rec) : Statement (.callf r) := ofRecord rfl (fun h => h) (fun _ => rfl)
theorem retf (r : Rec) : Statement (.retf r) := ofRecord rfl (fun h => h) (fun _ => rfl)
theorem falloc (r : Rec) : Statement (.falloc r) := ofRecord rfl (fun h => h) (fun _ => rfl)
theorem fallocGrant (rid : Nat) : Statement (.fallocGrant rid) := ofEvent rfl rfl
theorem ffree (r : Rec) : Statement (.ffree r) := ofRecord rfl (fun h => h) (fun _ => rfl)
theorem stick (r : Rec) : Statement (.stick r) := ofRecord rfl (fun h => h) (fun _ => rfl)
theorem purge (r : Rec) : Statement (.purge r) := ofRecord rfl (fun h => h) (fun _ => rfl)
theorem cancel (r : Rec) : Statement (.cancel r) := ofRecord rfl (fun h => h) (fun _ => rfl)
theorem mark (r : Rec) : Statement (.mark r) := ofRecord rfl (fun h => h) (fun _ => rfl)
theorem hold (r : Rec) : Statement (.hold r) := ofRecord rfl (fun h => h) (fun _ => rfl)
theorem eos (r : Rec) : Statement (.eos r) := ofRecord rfl (fun h => h) (fun _ => rfl)
theorem source (r : Rec) : Statement (.source r) := ofRecord rfl (fun h => h) (fun _ => rfl)
theorem sink (r : Rec) : Statement (.sink r) := ofRecord rfl (fun h => h) (fun _ => rfl)
theorem const (r : Rec) : Statement (.const r) := ofRecord rfl (fun h => h) (fun _ => rfl)
theorem tagget (r : Rec) : Statement (.tagget r) :=
  ofRecord rfl (fun h => by simp only [wellFormed, Bool.and_eq_true] at h; exact h.1)
    (fun h => by simp only [wellFormed, Bool.and_eq_true] at h; have hm := h.2; simp at hm; simp [instrOfOp, hm])
theorem taggetTag (r : Rec) : Statement (.taggetTag r) :=
  ofRecord rfl (fun h => by simp only [wellFormed, Bool.and_eq_true] at h; exact h.1)
    (fun h => by simp only [wellFormed, Bool.and_eq_true] at h; have hm := h.2; simp [instrOfOp, hm])
theorem tagset (r : Rec) : Statement (.tagset r) := ofRecord rfl (fun h => h) (fun _ => rfl)
theorem oreduce (r : Rec) : Statement (.oreduce r) := ofRecord rfl (fun h => h) (fun _ => rfl)
theorem ex2 (r : Rec) : Statement (.ex2 r) := ofRecord rfl (fun h => h) (fun _ => rfl)
theorem lg2 (r : Rec) : Statement (.lg2 r) := ofRecord rfl (fun h => h) (fun _ => rfl)
theorem rcp (r : Rec) : Statement (.rcp r) := ofRecord rfl (fun h => h) (fun _ => rfl)
theorem rsq (r : Rec) : Statement (.rsq r) := ofRecord rfl (fun h => h) (fun _ => rfl)
theorem sqrt (r : Rec) : Statement (.sqrt r) := ofRecord rfl (fun h => h) (fun _ => rfl)
theorem sinpi (r : Rec) : Statement (.sinpi r) := ofRecord rfl (fun h => h) (fun _ => rfl)
theorem cospi (r : Rec) : Statement (.cospi r) := ofRecord rfl (fun h => h) (fun _ => rfl)
theorem tanh (r : Rec) : Statement (.tanh r) := ofRecord rfl (fun h => h) (fun _ => rfl)
theorem erf (r : Rec) : Statement (.erf r) := ofRecord rfl (fun h => h) (fun _ => rfl)
theorem cfuRequestServe (col : Nat) : Statement (.cfuRequestServe col) := ofEvent rfl rfl
theorem cfuReply (col : Nat) : Statement (.cfuReply col) := ofEvent rfl rfl
theorem ld (r : Rec) : Statement (.ld r) := ofRecord rfl (fun h => h) (fun _ => rfl)
theorem st (r : Rec) : Statement (.st r) := ofRecord rfl (fun h => h) (fun _ => rfl)
theorem ldacq (r : Rec) : Statement (.ldacq r) := ofRecord rfl (fun h => h) (fun _ => rfl)
theorem strel (r : Rec) : Statement (.strel r) := ofRecord rfl (fun h => h) (fun _ => rfl)
theorem lds (r : Rec) : Statement (.lds r) := ofRecord rfl (fun h => h) (fun _ => rfl)
theorem lde (r : Rec) : Statement (.lde r) := ofRecord rfl (fun h => h) (fun _ => rfl)
theorem stf (r : Rec) : Statement (.stf r) := ofRecord rfl (fun h => h) (fun _ => rfl)
theorem stw (r : Rec) : Statement (.stw r) := ofRecord rfl (fun h => h) (fun _ => rfl)
theorem feget (r : Rec) : Statement (.feget r) := ofRecord rfl (fun h => h) (fun _ => rfl)
theorem feset (r : Rec) : Statement (.feset r) := ofRecord rfl (fun h => h) (fun _ => rfl)
theorem atom (r : Rec) : Statement (.atom r) := ofRecord rfl (fun h => h) (fun _ => rfl)
theorem cas (r : Rec) : Statement (.cas r) := ofRecord rfl (fun h => h) (fun _ => rfl)
theorem red (r : Rec) : Statement (.red r) := ofRecord rfl (fun h => h) (fun _ => rfl)
theorem chunk (r : Rec) : Statement (.chunk r) := ofRecord rfl (fun h => h) (fun _ => rfl)
theorem drain (r : Rec) : Statement (.drain r) := ofRecord rfl (fun h => h) (fun _ => rfl)
theorem fence (r : Rec) : Statement (.fence r) := ofRecord rfl (fun h => h) (fun _ => rfl)
theorem syncinv (r : Rec) : Statement (.syncinv r) := ofRecord rfl (fun h => h) (fun _ => rfl)
theorem accessPerform (rid page k : Nat) : Statement (.accessPerform rid page k) := ofEvent rfl rfl
theorem waiterRetry (rid page : Nat) : Statement (.waiterRetry rid page) := ofEvent rfl rfl
theorem accessRetire (rid page k : Nat) : Statement (.accessRetire rid page k) := ofEvent rfl rfl
theorem muRequestPortServe (rid page : Nat) : Statement (.muRequestPortServe rid page) := ofEvent rfl rfl
theorem homeAgentRmw (k : Nat) : Statement (.homeAgentRmw k) := ofEvent rfl rfl
theorem homeAgentOrdinalReport : Statement (.homeAgentOrdinalReport) := ofEvent rfl rfl
theorem reservationExpiry (h : Nat) : Statement (.reservationExpiry h) := ofEvent rfl rfl
theorem sload (r : Rec) : Statement (.sload r) := ofRecord rfl (fun h => h) (fun _ => rfl)
theorem sstore (r : Rec) : Statement (.sstore r) := ofRecord rfl (fun h => h) (fun _ => rfl)
theorem sfeed (r : Rec) : Statement (.sfeed r) := ofRecord rfl (fun h => h) (fun _ => rfl)
theorem sgather (r : Rec) : Statement (.sgather r) := ofRecord rfl (fun h => h) (fun _ => rfl)
theorem sscatter (r : Rec) : Statement (.sscatter r) := ofRecord rfl (fun h => h) (fun _ => rfl)
theorem sxlat (r : Rec) : Statement (.sxlat r) := ofRecord rfl (fun h => h) (fun _ => rfl)
theorem scopy (r : Rec) : Statement (.scopy r) := ofRecord rfl (fun h => h) (fun _ => rfl)
theorem streamPass1Done (rid : Nat) (u : UnitId) (k : Nat) : Statement (.streamPass1Done rid u k) := ofEvent rfl rfl
theorem sfeedPacket (rid : Nat) (u : UnitId) (k : Nat) : Statement (.sfeedPacket rid u k) := ofEvent rfl rfl
theorem streamComplete (rid : Nat) (u : UnitId) (k : Nat) : Statement (.streamComplete rid u k) := ofEvent rfl rfl
theorem pageWalkComplete (k : Nat) : Statement (.pageWalkComplete k) := ofEvent rfl rfl
theorem mma (r : Rec) : Statement (.mma r) := ofRecord rfl (fun h => h) (fun _ => rfl)
theorem mmas (r : Rec) : Statement (.mmas r) := ofRecord rfl (fun h => h) (fun _ => rfl)
theorem mzero (r : Rec) : Statement (.mzero r) := ofRecord rfl (fun h => h) (fun _ => rfl)
theorem mout (r : Rec) : Statement (.mout r) := ofRecord rfl (fun h => h) (fun _ => rfl)
theorem mcb (r : Rec) : Statement (.mcb r) := ofRecord rfl (fun h => h) (fun _ => rfl)
theorem mwake (r : Rec) : Statement (.mwake r) := ofRecord rfl (fun h => h) (fun _ => rfl)
theorem mgate (r : Rec) : Statement (.mgate r) := ofRecord rfl (fun h => h) (fun _ => rfl)
theorem mmaOperandsRead (rid : Nat) (u : UnitId) (k : Nat) : Statement (.mmaOperandsRead rid u k) := ofEvent rfl rfl
theorem moutWrite (rid : Nat) (u : UnitId) (k : Nat) : Statement (.moutWrite rid u k) := ofEvent rfl rfl
theorem mcbInstall (rid : Nat) (u : UnitId) (k : Nat) : Statement (.mcbInstall rid u k) := ofEvent rfl rfl
theorem quadrantPowerChange (rid : Nat) (u : UnitId) (k : Nat) : Statement (.quadrantPowerChange rid u k) := ofEvent rfl rfl
theorem sgen (r : Rec) : Statement (.sgen r) := ofRecord rfl (fun h => h) (fun _ => rfl)
theorem sand (r : Rec) : Statement (.sand r) := ofRecord rfl (fun h => h) (fun _ => rfl)
theorem sxnor (r : Rec) : Statement (.sxnor r) := ofRecord rfl (fun h => h) (fun _ => rfl)
theorem smux (r : Rec) : Statement (.smux r) := ofRecord rfl (fun h => h) (fun _ => rfl)
theorem sor (r : Rec) : Statement (.sor r) := ofRecord rfl (fun h => h) (fun _ => rfl)
theorem scnt (r : Rec) : Statement (.scnt r) := ofRecord rfl (fun h => h) (fun _ => rfl)
theorem sdot (r : Rec) : Statement (.sdot r) := ofRecord rfl (fun h => h) (fun _ => rfl)
theorem sregen (r : Rec) : Statement (.sregen r) := ofRecord rfl (fun h => h) (fun _ => rfl)
theorem slen (r : Rec) : Statement (.slen r) := ofRecord rfl (fun h => h) (fun _ => rfl)
theorem sloadv (r : Rec) : Statement (.sloadv r) := ofRecord rfl (fun h => h) (fun _ => rfl)
theorem sstorev (r : Rec) : Statement (.sstorev r) := ofRecord rfl (fun h => h) (fun _ => rfl)
theorem sclr (r : Rec) : Statement (.sclr r) := ofRecord rfl (fun h => h) (fun _ => rfl)
theorem sbeOperationComplete (rid : Nat) (u : UnitId) (k : Nat) : Statement (.sbeOperationComplete rid u k) := ofEvent rfl rfl
theorem send (r : Rec) : Statement (.send r) := ofRecord rfl (fun h => h) (fun _ => rfl)
theorem recv (r : Rec) : Statement (.recv r) := ofRecord rfl (fun h => h) (fun _ => rfl)
theorem post (r : Rec) : Statement (.post r) := ofRecord rfl (fun h => h) (fun _ => rfl)
theorem nred (r : Rec) : Statement (.nred r) := ofRecord rfl (fun h => h) (fun _ => rfl)
theorem call (r : Rec) : Statement (.call r) := ofRecord rfl (fun h => h) (fun _ => rfl)
theorem linkAcknowledge (id : Nat) : Statement (.linkAcknowledge id) := ofEvent rfl rfl
theorem messageDelivery (rid k : Nat) : Statement (.messageDelivery rid k) := ofEvent rfl rfl
theorem postDelivery (rid k : Nat) : Statement (.postDelivery rid k) := ofEvent rfl rfl
theorem sendReportArrival (rid : Nat) (id status placed sent : Nat) : Statement (.sendReportArrival rid id status placed sent) := ofEvent rfl rfl
theorem nredCombine (tree inst : Nat) : Statement (.nredCombine tree inst) := ofEvent rfl rfl
theorem nredDeadline (tree inst : Nat) : Statement (.nredDeadline tree inst) := ofEvent rfl rfl
theorem portUpChange (port : Nat) (up : Bool) (peer : BitVec 20) : Statement (.portUpChange port up peer) := ofEvent rfl rfl
theorem peerAccess (req : PeerReq) : Statement (.peerAccess req) := ofEvent rfl rfl
theorem hostMemoryAccess (tdi : Nat) (pa : Nat) (op : MemOp) : Statement (.hostMemoryAccess tdi pa op) := ofEvent rfl rfl
theorem callResponseDelivery (rid : Nat) : Statement (.callResponseDelivery rid) := ofEvent rfl rfl
theorem probe (dev rid : Nat) (part : BitVec 16) (target : Nat) : Statement (.probe dev rid part target) := ofEvent rfl rfl
theorem probeAnswer (rid dev target : Nat) : Statement (.probeAnswer rid dev target) := ofEvent rfl rfl
theorem dieConfigAck (rid die : Nat) : Statement (.dieConfigAck rid die) := ofEvent rfl rfl
theorem sourceRelease (rid : Nat) : Statement (.sourceRelease rid) := ofEvent rfl rfl
theorem freezeHaltReport (rid : Nat) : Statement (.freezeHaltReport rid) := ofEvent rfl rfl
theorem drainLinkdown (rid : Nat) : Statement (.drainLinkdown rid) := ofEvent rfl rfl
theorem killComplete (rid : Nat) : Statement (.killComplete rid) := ofEvent rfl rfl
theorem yardSliceExpiry (rid : Nat) : Statement (.yardSliceExpiry rid) := ofEvent rfl rfl
theorem yardMinimumShare (rid : Nat) : Statement (.yardMinimumShare rid) := ofEvent rfl rfl
theorem yardRestore (rid : Nat) : Statement (.yardRestore rid) := ofEvent rfl rfl
theorem roundSeal (rid : Nat) : Statement (.roundSeal rid) := ofEvent rfl rfl
theorem roundConfirm (rid : Nat) : Statement (.roundConfirm rid) := ofEvent rfl rfl
theorem comparatorMatch (k : Nat) : Statement (.comparatorMatch k) := ofEvent rfl rfl
theorem strikeReport (die cx cy : Nat) : Statement (.strikeReport die cx cy) := ofEvent rfl rfl
theorem rollback (rid : Nat) : Statement (.rollback rid) := ofEvent rfl rfl
theorem roundReplay (rid : Nat) : Statement (.roundReplay rid) := ofEvent rfl rfl
theorem asaSelfCheck (die cx cy : Nat) (allFail : Bool) : Statement (.asaSelfCheck die cx cy allFail) := ofEvent rfl rfl
theorem iftInterval : Statement (.iftInterval) := ofEvent rfl rfl
theorem scanSelfTestDone (passed : Bool) : Statement (.scanSelfTestDone passed) := ofEvent rfl rfl
theorem thermalUpdate (t : BitVec 8 × BitVec 8) (base : BitVec 8) : Statement (.thermalUpdate t base) := ofEvent rfl rfl
theorem thermalTrip : Statement (.thermalTrip) := ofEvent rfl rfl
theorem securityAlarm (cls : Nat) (code : BitVec 8) : Statement (.securityAlarm cls code) := ofEvent rfl rfl
theorem railGuardViolation : Statement (.railGuardViolation) := ofEvent rfl rfl
theorem clockGuardViolation : Statement (.clockGuardViolation) := ofEvent rfl rfl
theorem tamperEvent : Statement (.tamperEvent) := ofEvent rfl rfl
theorem treHourlySelfTest (passed : Bool) : Statement (.treHourlySelfTest passed) := ofEvent rfl rfl
theorem debugAccess (bit : Nat) (pa : Nat) : Statement (.debugAccess bit pa) := ofEvent rfl rfl
theorem getVersion : Statement (.getVersion) := ofEvent rfl rfl
theorem getCapabilities : Statement (.getCapabilities) := ofEvent rfl rfl
theorem negotiateAlgorithms : Statement (.negotiateAlgorithms) := ofEvent rfl rfl
theorem getDigests : Statement (.getDigests) := ofEvent rfl rfl
theorem getCertificate (slot off len : Nat) : Statement (.getCertificate slot off len) := ofEvent rfl rfl
theorem challenge (slot : Nat) (nonce : BitVec 256) : Statement (.challenge slot nonce) := ofEvent rfl rfl
theorem getMeasurements (slot idx : Nat) (nonce : BitVec 256) : Statement (.getMeasurements slot idx nonce) := ofEvent rfl rfl
theorem keyExchange (owner : Option Nat) : Statement (.keyExchange owner) := ofEvent rfl rfl
theorem finish (session : Nat) : Statement (.finish session) := ofEvent rfl rfl
theorem heartbeat (session : Nat) : Statement (.heartbeat session) := ofEvent rfl rfl
theorem keyUpdate (session : Nat) : Statement (.keyUpdate session) := ofEvent rfl rfl
theorem endSession (session : Nat) : Statement (.endSession session) := ofEvent rfl rfl
theorem vendorDefined (session : Nat) (msg : VendorMsg) : Statement (.vendorDefined session msg) := ofEvent rfl rfl
theorem spdmUnsupportedRequest (code : Byte) : Statement (.spdmUnsupportedRequest code) := ofEvent rfl rfl
theorem lockInterface (tdi : Nat) : Statement (.lockInterface tdi) := ofEvent rfl rfl
theorem startInterface (tdi : Nat) : Statement (.startInterface tdi) := ofEvent rfl rfl
theorem stopInterface (tdi : Nat) : Statement (.stopInterface tdi) := ofEvent rfl rfl
theorem tdiError (tdi : Nat) : Statement (.tdiError tdi) := ofEvent rfl rfl
theorem resetNAssert : Statement (.resetNAssert) := ofEvent rfl rfl
theorem pwrgdFail (railsLost : Bool) : Statement (.pwrgdFail railsLost) := ofEvent rfl rfl
theorem pllLockTimeout : Statement (.pllLockTimeout) := ofEvent rfl rfl
theorem deafCellMove (rid : Nat) : Statement (.deafCellMove rid) := ofEvent rfl rfl
theorem ccHartMemoryAccess (va : W64) (op : MemOp) : Statement (.ccHartMemoryAccess va op) := ofEvent rfl rfl
theorem mmaAccumulationDone (rid : Nat) (u : UnitId) (k : Nat) : Statement (.mmaAccumulationDone rid u k) := ofEvent rfl rfl

end RoundTrip

end Sys2Proof.Laws
end

