-- ==== Sys2Proof/Safety.lean ====
section
/-! DEFINITION. What a safe step and a safe run are: the machine goes on; and what a step of one region leaves alone. -/

namespace Sys2Proof.Safety
open Machine

/-- The outcome is a next state. -/
def goesOn (o : Host.Outcome State Fault Refusal) : Prop := ∃ t, o = .next t

/-- The machine goes on for `n` steps. -/
def runs (n : Nat) (s : State) : Prop := goesOn (core.run n s)

/-- THE FRAME OF A REGION'S STEP: from `s` to `t` nothing has changed but region `rid`, the event bits and the parking reports
(R407, R409), the walks and the read-modify-writes asked for (R288, R229), which provisional lines a region's replay has met again
(R364), the number of the next link item and the rotation of the switches (R23). Every hart, every byte of global memory under every key, what uncorrectable errors have marked, every other region and all of the Trust Engine are as before. -/
def OnlyRegion (rid : Nat) (s t : State) : Prop :=
  t.regions.filter (fun R => R.rid != rid) = s.regions.filter (fun R => R.rid != rid)
  ∧ t.boot = s.boot ∧ t.cycle = s.cycle ∧ t.ticks = s.ticks ∧ t.turn = s.turn ∧ t.sched = s.sched ∧ t.harts = s.harts
  ∧ t.mem = s.mem ∧ t.owners = s.owners
  ∧ (t.home = { s.home with queue := t.home.queue, prov := t.home.prov }
    ∧ t.home.prov.map (fun p => { p with kept := [] }) = s.home.prov.map fun p => { p with kept := [] }) ∧ t.comp = s.comp ∧ t.cfuRot = s.cfuRot
  ∧ t.yard = { s.yard with rgnip := t.yard.rgnip, xpark := t.yard.xpark } ∧ t.links = { s.links with nextId := t.links.nextId }
  ∧ t.tdis = s.tdis ∧ t.trust = s.trust ∧ t.bad = s.bad

/-- The bytes and the full/empty bits of the slice of a page of a region (R206, R209). -/
def slice (s : State) (rid page : Nat) : Option (List Host.Cell × List Nat) :=
  ((s.region? rid).bind fun R => R.mu? page).map fun m => (m.sram, m.fe)

end Sys2Proof.Safety
end

