-- ==== Sys2Proof/Certificates/Slice0/Obligations.lean ====
section
/-! DEFINITION. The statements for the provers, and the words they are said in. -/

namespace Sys2Proof.Claim
open Machine

/-! ### Turns and takes -/

/-- The turn is that of the head of queue `q` of unit `u` of region `rid`, a RUNNING region (Table 1-5), and R35 serves that
queue: `k` is the take, the head popped and its credit on its way back (R129). -/
abbrev Served (s : State) (rid : Nat) (k : Take) : Prop := s.taking = some (rid, k)

/-- The operands `ops` of a firing are complete in the take: those of a matching record by R174 and R175, its slots
cleared and its seal copies logged (R177) in `R`, or the one token of any other record (R176). -/
def Fires (k : Take) (op : Nat) (r : Rec) (ops : List Operand) (R : Region) : Prop :=
  (matching op r = true ∧ ∃ slots seals R0, arrive k.R k.U op r k.t = .fire ops slots seals
      ∧ k.R.logSeals k.u k.t.round seals = some R0 ∧ R = R0.setSlots k.u slots)
    ∨ (matching op r = false ∧ ops = soleOperands r k.t ∧ R = k.R)

/-- The unit of the take has a credit on each route of the tokens it sends (R22, R128). -/
def Room (k : Take) (R : Region) (es : Sends) : Prop := ∃ U, R.unit? k.u = some U ∧ U.canSend es = true

/-- THE STATE AFTER A FIRING OF A CELL: the tokens `es` wait `lat` cycles to leave, a credit of each of their routes spent
(R129, R131), the rotation pointer stands at the queue served (R128), the cell takes no other head in this cycle (R35), an ALU record
occupies the ALU for `occ` cycles. -/
def sent (s : State) (_rid : Nat) (k : Take) (R : Region) (lat occ : Nat) (es : Sends) : State :=
  s.putRegion (R.modUnit k.u fun U =>
    { U with
      credits := spend U.credits es, outq := U.outq ++ outsOf (s.cycle + lat) es, rot := k.q, nextTake := s.cycle + 1,
      aluFree := if occ = 0 then U.aluFree else s.cycle + occ })

/-! ### The records of the cell's ALU -/

/-- The integer, logic, floating, conversion, packet and draw records (Tables 2-11 to 2-13) with their opcodes, their rows of
Table 4-2 and what they compute. -/
def aluRow : Instr → Option (Nat × Rec × Cost × AluFn)
  | .copy r => some (0x00, r, .simple, copyOut)
  | .iadd r => some (0x01, r, .simple, iaddOut)
  | .isub r => some (0x02, r, .simple, isubOut)
  | .imul r => some (0x03, r, .mul, imulOut)
  | .imulh r => some (0x04, r, .mul, imulhOut)
  | .imad r => some (0x05, r, .mul, imadOut)
  | .idiv r => some (0x06, r, if r.fmt.pair then .div64 else .div, idivOut)
  | .irem r => some (0x07, r, if r.fmt.pair then .div64 else .div, iremOut)
  | .imin r => some (0x08, r, .simple, iminOut)
  | .imax r => some (0x09, r, .simple, imaxOut)
  | .iabs r => some (0x0A, r, .simple, iabsOut)
  | .ineg r => some (0x0B, r, .simple, inegOut)
  | .iaddc r => some (0x0C, r, .simple, iaddcOut)
  | .isubb r => some (0x0D, r, .simple, isubbOut)
  | .idot4 r => some (0x0E, r, .mul, idot4Out)
  | .iclamp r => some (0x0F, r, .simple, iclampOut)
  | .and r => some (0x10, r, .simple, andOut)
  | .or r => some (0x11, r, .simple, orOut)
  | .xor r => some (0x12, r, .simple, xorOut)
  | .andn r => some (0x13, r, .simple, andnOut)
  | .not r => some (0x14, r, .simple, notOut)
  | .lut3 r => some (0x15, r, .simple, lut3Out)
  | .shl r => some (0x16, r, .simple, shlOut)
  | .shr r => some (0x17, r, .simple, shrOut)
  | .sar r => some (0x18, r, .simple, sarOut)
  | .rotl r => some (0x19, r, .simple, rotlOut)
  | .funl r => some (0x1A, r, .simple, funlOut)
  | .clz r => some (0x1B, r, .simple, clzOut)
  | .popc r => some (0x1C, r, .simple, popcOut)
  | .brev r => some (0x1D, r, .simple, brevOut)
  | .bext r => some (0x1E, r, .simple, bextOut)
  | .bins r => some (0x1F, r, .simple, binsOut)
  | .icmp r => some (0x20, r, .simple, icmpOut)
  | .sel r => some (0x21, r, .simple, selOut)
  | .fadd r => some (0x40, r, .float, faddOut)
  | .fsub r => some (0x41, r, .float, fsubOut)
  | .fmul r => some (0x42, r, .float, fmulOut)
  | .ffma r => some (0x43, r, .float, ffmaOut)
  | .fmin r => some (0x44, r, .float, fminOut)
  | .fmax r => some (0x45, r, .float, fmaxOut)
  | .fabs r => some (0x46, r, .float, fabsOut)
  | .fneg r => some (0x47, r, .float, fnegOut)
  | .fcmp r => some (0x48, r, .float, fcmpOut)
  | .frnd r => some (0x49, r, .float, frndOut)
  | .fclass r => some (0x4A, r, .float, fclassOut)
  | .fscale r => some (0x4B, r, .float, fscaleOut)
  | .fdot2 r => some (0x4C, r, .float, fdot2Out)
  | .famax r => some (0x4D, r, .float, famaxOut)
  | .cvt r => some (0x50, r, .float, cvtOut)
  | .cvts r => some (0x51, r, .float, cvtsOut)
  | .qpack r => some (0x52, r, .float, qpackOut)
  | .qunpack r => some (0x53, r, .float, qunpackOut)
  | .qscale r => some (0x54, r, .float, qscaleOut)
  | .pmerge r => some (0x60, r, .simple, pmergeOut)
  | .psplit r => some (0x61, r, .simple, psplitOut)
  | .pext r => some (0x62, r, .simple, pextOut)
  | .pins r => some (0x63, r, .simple, pinsOut)
  | .pbcast r => some (0x64, r, .simple, pbcastOut)
  | .preduce r => some (0x65, r, .simple, preduceOut)
  | .pshuf r => some (0x66, r, .simple, pshufOut)
  | .plen r => some (0x67, r, .simple, plenOut)
  | .ptest r => some (0x68, r, .simple, ptestOut)
  | .draw r => some (0x69, r, .draw, drawOut)
  | .cadd128 r => some (0x6A, r, .simple, cadd128Out)
  | _ => none

/-- The exact formula of an arithmetic record (Table 4-6) over the values on its ports; `w` is the width of its format. -/
def arithFormula : Instr → Option (Rec × (Nat → (Nat → Int) → Int))
  | .iadd r => some (r, fun _ v => v 0 + v 1)
  | .isub r => some (r, fun _ v => v 0 - v 1)
  | .imul r => some (r, fun _ v => v 0 * v 1)
  | .imulh r => some (r, fun w v => (v 0 * v 1).fdiv (2 ^ w))
  | .imad r => some (r, fun _ v => v 0 * v 1 + v 2)
  | .imin r => some (r, fun _ v => if v 0 ≤ v 1 then v 0 else v 1)
  | .imax r => some (r, fun _ v => if v 0 ≤ v 1 then v 1 else v 0)
  | .iabs r => some (r, fun _ v => if 0 ≤ v 0 then v 0 else -v 0)
  | .ineg r => some (r, fun _ v => 0 - v 0)
  | .iclamp r => some (r, fun _ v => if v 0 ≤ v 1 then (if v 1 ≤ v 2 then v 1 else v 2) else (if v 0 ≤ v 2 then v 0 else v 2))
  | _ => none

/-- The values on the ports of a firing at value index `i`, read in an integer format (Table 3-1). -/
def intsAt (f : Fmt) (ops : List Operand) (i p : Nat) : Int :=
  let x : BitVec f.width := BitVec.ofNat f.width ((opAt ops p).val ops f i)
  if f.isSigned then x.toInt else x.toNat

/-- The encodings on the ports of a firing at value index `i`. -/
def bitsAt (f : Fmt) (ops : List Operand) (i p : Nat) : BitVec f.width := BitVec.ofNat f.width ((opAt ops p).val ops f i)

/-- What a logic record computes on the `w`-bit encodings on its ports (Table 4-6, R147, R149, R150). -/
def logicFormula : Instr → Option (Rec × ((w : Nat) → (Nat → BitVec w) → BitVec w))
  | .copy r => some (r, fun _ v => v 0)
  | .and r => some (r, fun _ v => v 0 &&& v 1)
  | .or r => some (r, fun _ v => v 0 ||| v 1)
  | .xor r => some (r, fun _ v => v 0 ^^^ v 1)
  | .andn r => some (r, fun _ v => v 0 &&& ~~~ v 1)
  | .not r => some (r, fun _ v => ~~~ v 0)
  | .lut3 r => some (r, fun w v => BitVec.ofFnLE fun q : Fin w =>
      r.aux.getLsbD (8 + 4 * ((v 0).getLsbD q).toNat + 2 * ((v 1).getLsbD q).toNat + ((v 2).getLsbD q).toNat))
  | .shl r => some (r, fun w v => if (v 1).toNat < w then v 0 <<< (v 1).toNat else 0#w)
  | .shr r => some (r, fun w v => if (v 1).toNat < w then v 0 >>> (v 1).toNat else 0#w)
  | .sar r => some (r, fun w v => (v 0).sshiftRight (min (v 1).toNat (w - 1)))
  | .rotl r => some (r, fun w v => (v 0).rotateLeft ((v 1).toNat % w))
  | .funl r => some (r, fun w v => (((v 0 ++ v 1) <<< ((v 2).toNat % w)) >>> w).setWidth w)
  | .clz r => some (r, fun _ v => (v 0).clz)
  | .popc r => some (r, fun _ v => (v 0).cpop)
  | .brev r => some (r, fun _ v => (v 0).reverse)
  | .sel r => some (r, fun _ v => if (v 0).getLsbD 0 then v 1 else v 2)
  | _ => none

/-- The TFU records that a single token fires and that read it whole. -/
def tfuSole : Instr → Option Rec
  | .merge r => some r | .enter r => some r | .next r => some r | .leave r => some r | .callf r => some r | .retf r => some r
  | .falloc r => some r | .ffree r => some r | .stick r => some r | .purge r => some r | .cancel r => some r | .mark r => some r
  | .hold r => some r | .eos r => some r | .sink r => some r | .const r => some r | .tagget r => some r | .taggetTag r => some r
  | _ => none

/-- The TFU records whose port 0 matches a port 1. -/
def tfuPaired : Instr → Option (Nat × Rec)
  | .steer r => some (0x70, r) | .gate r => some (0x72, r) | .tagset r => some (0x84, r)
  | _ => none

/-- The condition of ICMP (R150). -/
def holds (sub : Nat) (a b : Int) : Prop :=
  match sub with
  | 0 => a = b
  | 1 => a ≠ b
  | 2 => a < b
  | 3 => a ≤ b
  | 4 => b < a
  | _ => b ≤ a

end Sys2Proof.Claim
open Sys2Proof Sys2Proof.Machine Sys2Proof.Claim

/-! ### The ALU's records -/

/-- R128, R129, R131, R138: an ALU record whose operands are complete, whose routes have credit and whose ALU is free, fires:
its tokens wait the latency of Table 4-2. Completion of the 64 records of Tables 2-11 to 2-13 (the 34, the 19 and the 11). -/
def Obligations.AluRecordsComplete : Prop :=
  ∀ (i : Instr) (op : Nat) (r : Rec) (c : Cost) (f : AluFn) (s : State) (rid : Nat) (k : Take) (ops : List Operand)
    (R : Region) (o : AluOut), aluRow i = some (op, r, c, f) → Served s rid k → k.U.aluFree ≤ s.cycle → Fires k op r ops R →
    f r ops = .ok o → Room k R (aluSends r ops o) →
    exec i s = .next (sent s rid k R (c.lat (decide (3 < maxLen ops))) (c.occ (decide (3 < maxLen ops))) (aluSends r ops o))

/-- R60, R140: where an ALU record's lengths disagree, the firing raises the freezing fault "packet length mismatch" and changes
nothing else (R52); so does a TFU record whose port 0 is given a token in a pair format with LEN even: the records of one token, STEER,
GATE and TAGSET, and OREDUCE for the first value of a context. -/
def Obligations.LengthMismatchFreezes : Prop :=
  (∀ (i : Instr) (op : Nat) (r : Rec) (c : Cost) (f : AluFn) (s : State) (rid : Nat) (k : Take) (ops : List Operand)
    (R : Region) (x : Cause), aluRow i = some (op, r, c, f) → Served s rid k → k.U.aluFree ≤ s.cycle → Fires k op r ops R →
    f r ops = .error x →
    x = .packetLengthMismatch ∧ exec i s = .next (takeFault s rid (mkFault k.u k.t.node k.t .packetLengthMismatch 0))) ∧
  (∀ (i : Instr) (r : Rec) (s : State) (rid : Nat) (k : Take), tfuSole i = some r → Served s rid k → k.t.oddPair = true →
    exec i s = .next (takeFault s rid (mkFault k.u k.t.node k.t .packetLengthMismatch 0))) ∧
  (∀ (i : Instr) (op : Nat) (r : Rec) (s : State) (rid : Nat) (k : Take) (ops : List Operand) (R : Region),
    tfuPaired i = some (op, r) → Served s rid k → Fires k op r ops R → (opAt ops 0).tok.oddPair = true →
    exec i s = .next (takeFault s rid (mkFault k.u k.t.node k.t .packetLengthMismatch 0))) ∧
  (∀ (r : Rec) (s : State) (rid : Nat) (k : Take) (outer : W64) (i : Nat), Served s rid k → k.t.port = 0#2 →
    k.t.oddPair = true → popField k.R.cfg.tw k.t.tag (r.lit.toNat % 64) = .ok (outer, i) →
    let base := k.t.frame.toNat * k.U.stride + r.aux.toNat % 256
    let banks := r.aux.toNat / 4096 % 8 + 1
    mapGet k.U.slots (base - 1) = none → mapGet k.U.slots (base + i % banks) = none →
    exec (.oreduce r) s = .next (takeFault s rid (mkFault k.u k.t.node k.t .packetLengthMismatch 0)))

/-- R143: an arithmetic record of Table 4-6 computes its formula exactly and stores it wrapped, or with M = 1 saturated,
EXC telling that saturation changed a value. -/
def Obligations.IntegerRecordValues : Prop :=
  ∀ (i : Instr) (op : Nat) (r : Rec) (c : Cost) (f : AluFn) (g : Nat → (Nat → Int) → Int) (ops : List Operand),
    aluRow i = some (op, r, c, f) → arithFormula i = some (r, g) → r.fmt.isInt = true → lensOk r.fmt ops = true →
    let w := r.fmt.width
    let x (j : Nat) : Int := g w (intsAt r.fmt ops j)
    let y (j : Nat) : Int := if r.m then max r.fmt.minI (min r.fmt.maxI (x j)) else x j
    let n := r.fmt.nv (maxLen ops)
    f r ops = .ok (AluOut.one r.fmt (maxLen ops) (r.fmt.pack ((List.range n).map fun j => (BitVec.ofInt w (y j)).toNat))
      ((List.range n).any fun j => r.m && y j != x j))

/-- R142, R143, R147, R149, R150: the logic records, COPY, the shifts, the counts and SEL act on the encoding of each value
and set no EXC. -/
def Obligations.LogicRecordValues : Prop :=
  ∀ (i : Instr) (op : Nat) (r : Rec) (c : Cost) (f : AluFn) (g : (w : Nat) → (Nat → BitVec w) → BitVec w) (ops : List Operand),
    aluRow i = some (op, r, c, f) → logicFormula i = some (r, g) → lensOk r.fmt ops = true →
    f r ops = .ok (AluOut.one r.fmt (maxLen ops)
      (r.fmt.pack ((List.range (r.fmt.nv (maxLen ops))).map fun j => (g r.fmt.width (bitsAt r.fmt ops j)).toNat)) false)

/-- R150: ICMP writes 1 where the condition of SUB holds of the values and 0 elsewhere, and sets no EXC. -/
def Obligations.IcmpWritesTheCondition : Prop :=
  ∀ (r : Rec) (ops : List Operand), r.fmt.isInt = true → lensOk r.fmt ops = true →
    ∃ vs : List Nat, icmpOut r ops = .ok (AluOut.one r.fmt (maxLen ops) (r.fmt.pack vs) false)
      ∧ vs.length = r.fmt.nv (maxLen ops)
      ∧ ∀ j, j < vs.length → ∀ a b, a = intsAt r.fmt ops j 0 → b = intsAt r.fmt ops j 1 →
          (holds (recSub r) a b → nth 0 vs j = 1) ∧ (¬ holds (recSub r) a b → nth 0 vs j = 0)

/-- R144: IDIV divides towards zero and IREM takes the sign of the dividend; a zero divisor gives the largest or the
smallest value, and the dividend as remainder, with EXC. -/
def Obligations.DivisionTowardsZero : Prop :=
  ∀ (r : Rec) (ops : List Operand), r.fmt.isInt = true → lensOk r.fmt ops = true →
    let w := r.fmt.width
    let a (j : Nat) : Int := intsAt r.fmt ops j 0
    let b (j : Nat) : Int := intsAt r.fmt ops j 1
    let q (j : Nat) : Int := if b j = 0 then (if 0 ≤ a j then r.fmt.maxI else r.fmt.minI)
      else if r.m && decide (Int.tdiv (a j) (b j) > r.fmt.maxI) then r.fmt.maxI else Int.tdiv (a j) (b j)
    let n := r.fmt.nv (maxLen ops)
    idivOut r ops = .ok (AluOut.one r.fmt (maxLen ops) (r.fmt.pack ((List.range n).map fun j => (BitVec.ofInt w (q j)).toNat))
        ((List.range n).any fun j => decide (b j = 0) || (r.m && decide (Int.tdiv (a j) (b j) > r.fmt.maxI))))
      ∧ iremOut r ops = .ok (AluOut.one r.fmt (maxLen ops)
          (r.fmt.pack ((List.range n).map fun j => (BitVec.ofInt w (if b j = 0 then a j else a j - b j * Int.tdiv (a j) (b j))).toNat))
          ((List.range n).any fun j => decide (b j = 0)))

/-- R59: the value that a packed payload holds at an index is the one packed there. -/
def Obligations.PackedValuesReadBack : Prop :=
  ∀ (f : Fmt) (vs : List Nat) (j : Nat), j < f.nv 7 → f.get (f.pack vs) j = nth 0 vs j % 2 ^ f.width

namespace Sys2Proof.Claim
open Machine

/-- The tokens of a record for the destinations it has, in the order D0, D1 (R75). -/
def toBoth (r : Rec) (t : Token) : Sends := [(r.d0, t), (r.d1, t)].filter fun p => p.1 != noDest

/-- The fields of a tag from the outermost, each tag[base+w-1:base] of the width table (R67, R69). -/
def tagFields (tw : List Nat) (t : W64) : List Nat :=
  (List.range (depth tw t)).map fun d => let base := (tw.take d).sum; bits t.toNat (base + twAt tw d - 1) base

/-- A data token as a TFU record passes it on: ACT 00, its invalid elements zero and the bits its format leaves out zero (R58, R60,
R176). -/
def passed (t : Token) : Token := { t with act := .normal, e := t.fmt.payload t.len.toNat t.e }

/-- A token of one `n32` element made from another's header (R200, R193). -/
def oneWord (t : Token) (v : Nat) : Token := { passed t with fmt := .n32, len := 0#3, e := clearAbove 0 [BitVec.ofNat 32 v] }

end Sys2Proof.Claim

/-! ### The Tag and Frame Unit's records -/

/-- R189: STEER, a matching record, sends its data by bit 0 of the predicate's E0: on D0 where it is 1, on D1 where it is 0, and
without `.nocancel` a cancel on the other, with the header of the data, or where a sticky item supplies the data, with the one R175
gives the output; the data it sends carries ERR when either operand does, and no LEN of the predicate matters. -/
def Obligations.SteerRoutesByThePredicate : Prop :=
  ∀ (r : Rec) (s : State) (rid : Nat) (k : Take) (ops : List Operand) (R : Region), Served s rid k → Fires k 0x70 r ops R →
    (opAt ops 0).tok.oddPair = false →
    let q := (nth 0#32 (opAt ops 1).tok.e 0).getLsbD 0
    let a := passToken ops
    let cut := cancelOf (if (opAt ops 0).sticky then a else (opAt ops 0).tok)
    let es := (if q then (r.d0, a) :: (if r.m then [] else [(r.d1, cut)])
      else (if r.m then [] else [(r.d0, cut)]) ++ [(r.d1, a)]).filter fun p => p.1 != noDest
    (r.imm = false → matching 0x70 r = true) ∧ a.err = ops.any (·.tok.err) ∧ (Room k R es → exec (.steer r) s = .next (sent s rid k R 2 0 es))

/-- R187, R190, R191: GATE, taken with its operands complete, sends port 0's data; MERGE sends the token of either port unchanged
but for ACT, each with credit on its routes. -/
def Obligations.GateAndMergeComplete : Prop :=
  ∀ (r : Rec) (s : State) (rid : Nat) (k : Take) (ops : List Operand) (R : Region), Served s rid k →
    (Fires k 0x72 r ops R → (opAt ops 0).tok.oddPair = false → Room k R (toBoth r (passToken ops)) →
      exec (.gate r) s = .next (sent s rid k R 2 0 (toBoth r (passToken ops)))) ∧
    (k.t.oddPair = false → Room k k.R (toBoth r (passed k.t)) →
      exec (.merge r) s = .next (sent s rid k k.R 2 0 (toBoth r (passed k.t))))

/-- R68: a pushed field comes back by the pop of the same width, and the tag under it is as it was. -/
def Obligations.PopUndoesPush : Prop :=
  ∀ (tw : List Nat) (t t' : W64) (w v : Nat), (∀ x ∈ tw, x ≤ 32) → 1 ≤ w → w ≤ 32 → t.toNat % 2 ^ 58 < 2 ^ tagTop t →
    (∃ d, d ≤ 58 ∧ (tw.take d).sum = tagTop t ∧ ∀ j, j < d → 1 ≤ twAt tw j) →
    pushField tw t w v = .ok t' → popField tw t' w = .ok (t, v % 2 ^ w) ∧ inner tw t' = v % 2 ^ w
      ∧ depth tw t' = depth tw t + 1

/-- R68, R183, R192, R193: ENTER and CALLF push a field, NEXT raises the innermost one, LEAVE and RETF pop it. An ENTER with D1 adds 1 to EXP of
its round and sends data on D0 alone, a counted LEAVE adds 1 to GOT and sends after its tokens what is then complete; a token of a fifth round waits,
and a count past 2^20 - 1 is "round count". Where a push does not fit the width table, or a step or pop finds no field of its width, the
firing freezes its region with "tag layout", where a push passes bit 58 or a step its field's last value with "tag overflow", its token
staying (R52); a data token on port 1 of LEAVE is "packet length mismatch". -/
def Obligations.ContextRecordsComplete : Prop :=
  (∀ (r : Rec) (s : State) (rid : Nat) (k : Take) (tag : W64) (v : Nat), Served s rid k → k.t.oddPair = false →
    let w := r.aux.toNat % 64
    let tw := k.R.cfg.tw
    let out := { passed k.t with tag := tag }
    (r.d1 = noDest → r.d0 ≠ noDest → pushField tw k.t.tag w 0 = .ok tag → Room k k.R [(r.d0, out)] →
      exec (.enter r) s = .next (sent s rid k k.R 2 0 [(r.d0, out)])) ∧
    (depth tw k.t.tag ≠ 0 → twAt tw (depth tw k.t.tag - 1) = w → inner tw k.t.tag ≠ 2 ^ w - 1 →
      tag = setInner tw k.t.tag (inner tw k.t.tag + 1) → Room k k.R (toBoth r out) →
      exec (.next r) s = .next (sent s rid k k.R 2 0 (toBoth r out))) ∧
    (k.t.port = 0#2 → k.R.countedExit k.u k.node 0x75 = false → popField tw k.t.tag w = .ok (tag, v) → Room k k.R (toBoth r out) →
      exec (.leave r) s = .next (sent s rid k k.R 2 0 (toBoth r out))) ∧
    (pushField tw k.t.tag w (r.lit.toNat * 1024 + k.t.frame.toNat) = .ok tag → Room k k.R (toBoth r out) →
      exec (.callf r) s = .next (sent s rid k k.R 2 0 (toBoth r out))) ∧
    (popField tw k.t.tag w = .ok (tag, v) →
      let back := { out with frame := BitVec.ofNat 10 v }
      let es := [(r.d0, back), (r.d1, oneWord back (v / 1024))].filter fun p => p.1 != noDest
      Room k k.R es → exec (.retf r) s = .next (sent s rid k k.R 2 0 es))) ∧
  (∀ (r : Rec) (s : State) (rid : Nat) (k : Take) (tag : W64) (v : Nat) (U : Site), k.t.oddPair = false →
    k.R.unit? k.u = some U →
    let w := r.aux.toNat % 64
    let late : Prop := ∃ q, s.turn.who = .take rid k.u q ∧ (s.region? rid).bind (·.takeAt s.cycle k.u q) = some k
    let out := { passed k.t with tag := tag }
    let fault (c : Cause) : State := takeFault s rid (mkFault k.u k.t.node k.t c 0)
    (r.d1 ≠ noDest → pushField k.R.cfg.tw k.t.tag w 0 = .ok tag →
      let i := soff 0x73 r
      (late → entryFor (counterOf U.slots i) k.t.round = none → exec (.enter r) s = .next s) ∧
      (∀ e, Served s rid k → entryFor (counterOf U.slots i) k.t.round = some e →
        let R := k.R.setSlots k.u (putCounter U.slots i k.t.round (putEntry (counterOf U.slots i) { e with exp := e.exp + 1 }))
        let es := [(r.d0, out)].filter fun p => p.1 != noDest
        (e.exp + 1 < 2 ^ 20 → Room k R es → exec (.enter r) s = .next (sent s rid k R 2 0 es)) ∧
        (2 ^ 20 ≤ e.exp + 1 → exec (.enter r) s = .next (fault .roundCount)))) ∧
    (k.t.port = 0#2 → k.R.countedExit k.u k.node 0x75 = true → popField k.R.cfg.tw k.t.tag w = .ok (tag, v) →
      let i := soff 0x75 r
      (late → entryFor (counterOf U.slots i) k.t.round = none → exec (.leave r) s = .next s) ∧
      (∀ e, Served s rid k → entryFor (counterOf U.slots i) k.t.round = some e →
        let R := k.R.setSlots k.u (putCounter U.slots i k.t.round (putEntry (counterOf U.slots i) { e with got := e.got + 1 }))
        (∀ es R', R.forwards k.u k.node 0x75 r (toBoth r out) = (es, R') → e.got + 1 < 2 ^ 20 → Room k R' (toBoth r out ++ es) →
          exec (.leave r) s = .next (sent s rid k R' 2 0 (toBoth r out ++ es))) ∧
        (2 ^ 20 ≤ e.got + 1 → exec (.leave r) s = .next (fault .roundCount))))) ∧
  (∀ (r : Rec) (s : State) (rid : Nat) (k : Take), Served s rid k → k.t.oddPair = false →
    let w := r.aux.toNat % 64
    let tw := k.R.cfg.tw
    let fault (c : Cause) : State := takeFault s rid (mkFault k.u k.t.node k.t c 0)
    (twAt tw (depth tw k.t.tag) ≠ w →
      exec (.enter r) s = .next (fault .tagLayout) ∧ exec (.callf r) s = .next (fault .tagLayout)) ∧
    (twAt tw (depth tw k.t.tag) = w → 58 < tagTop k.t.tag + w →
      exec (.enter r) s = .next (fault .tagOverflow) ∧ exec (.callf r) s = .next (fault .tagOverflow)) ∧
    (depth tw k.t.tag = 0 ∨ twAt tw (depth tw k.t.tag - 1) ≠ w →
      exec (.next r) s = .next (fault .tagLayout) ∧ exec (.retf r) s = .next (fault .tagLayout) ∧
        (k.t.port = 0#2 → exec (.leave r) s = .next (fault .tagLayout))) ∧
    (depth tw k.t.tag ≠ 0 → twAt tw (depth tw k.t.tag - 1) = w → inner tw k.t.tag = 2 ^ w - 1 →
      exec (.next r) s = .next (fault .tagOverflow)) ∧
    (k.t.port ≠ 0#2 → exec (.leave r) s = .next (fault .packetLengthMismatch)))

/-- R69: tag_lt compares the fields of two tags from the outermost as unsigned integers, and a proper prefix comes first: it is
the lexicographic order of their fields, so it never holds both ways. The worked example of R69 is part of it. -/
def Obligations.TagOrderIsByFields : Prop :=
  (∀ (tw : List Nat) (a b : W64), tagLt tw a b = true ↔ tagFields tw a < tagFields tw b) ∧
  (∀ (tw : List Nat) (a b : W64), tagLt tw a b = true → tagLt tw b a = false) ∧
  tagLt [4, 6, 8] 0x4800000000000113#64 0x4800000000000513#64 = true ∧
  tagLt [4, 6, 8] 0x2800000000000113#64 0x4800000000000113#64 = true ∧
  pushField [4, 6, 8] 0x2800000000000113#64 8 0 = .ok 0x4800000000000113#64 ∧
  pushField [4, 6, 8] 0x2800000000000113#64 6 0 = .error .tagLayout

/-- R179, R180, R194: FALLOC sends its token with the lowest free frame its depth may take, FFREE gives its frame back and passes
the token on; a waiting FALLOC is granted a frame by the same choice: a frame granted is free, and it is the lowest free one of the common
pool, or where no frame of that is free the lowest free one of the reserve of the depth. -/
def Obligations.FrameRecordsComplete : Prop :=
  (∀ (r : Rec) (s : State) (rid : Nat) (k : Take), Served s rid k → k.t.oddPair = false → k.R.poolRoom = true →
    (∀ f, k.R.pool.granted = [] → k.R.pool.waiting = [] →
      freeFrame k.R.cfg k.R.pool.alloc (depth k.R.cfg.tw k.t.tag) = some f →
      let R := (k.R.modPool fun p => { p with alloc := setAdd p.alloc f }).logFrame k.t.round f false
      let es := toBoth r { passed k.t with frame := BitVec.ofNat 10 f }
      Room k R es → exec (.falloc r) s = .next (sent s rid k R 2 0 es)) ∧
    (let f := k.t.frame.toNat
     let R := (k.R.modPool fun p => { p with alloc := setDel p.alloc f }).logFrame k.t.round f true
     k.R.pool.alloc.contains f = true → (frameClass k.R.cfg.common k.R.cfg.reserve f 0).isSome = true →
      Room k R (toBoth r (passed k.t)) → exec (.ffree r) s = .next (sent s rid k R 2 0 (toBoth r (passed k.t))))) ∧
  (∀ (s : State) (rid f : Nat) (R : Region) (u : UnitId) (q d : Nat) (ws : List (UnitId × Nat × Nat)),
    s.region? rid = some R → R.live = true → R.pool.waiting = (u, q, d) :: ws → freeFrame R.cfg R.pool.alloc d = some f →
    exec (.fallocGrant rid) s = .next (s.putRegion (R.modPool fun p =>
      { p with alloc := setAdd p.alloc f, waiting := ws, granted := p.granted ++ [(u, q, f)] }))) ∧
  (∀ (c : Config) (alloc : List Nat) (d f : Nat), freeFrame c alloc d = some f →
    f ∉ alloc ∧ (∀ g, g < c.common → g < f → g ∈ alloc)
      ∧ (f < c.common ∨ (reserveBase c d ≤ f ∧ f < reserveBase c d + nth 0 c.reserve d ∧ (∀ g, g < c.common → g ∈ alloc)
        ∧ ∀ g, reserveBase c d ≤ g → g < f → g ∈ alloc)))

/-- R194: STICK, PURGE and CANCEL. -/
def Obligations.ActionRecordsComplete : Prop :=
  ∀ (r : Rec) (s : State) (rid : Nat) (k : Take), Served s rid k → k.t.oddPair = false →
    (let es := toBoth r { passed k.t with act := .sticky }
     Room k k.R es → exec (.stick r) s = .next (sent s rid k k.R 2 0 es)) ∧
    (let es := toBoth r { k.t with act := .purge, len := 0#3, e := List.replicate 8 0#32 }
     Room k k.R es → exec (.purge r) s = .next (sent s rid k k.R 2 0 es)) ∧
    (let es := toBoth r { k.t with act := .cancel, kind := .data, len := 0#3, exc := false, err := false, e := List.replicate 8 0#32 }
     Room k k.R es → exec (.cancel r) s = .next (sent s rid k k.R 2 0 es))

/-- R195, R469: the next emission of a released SOURCE that R35 serves: a bubble in its turn, the data of the round, after
NP of them the round's marker, after the last round an end-of-stream token. Its position moves with it. -/
def Obligations.SourceEmits : Prop :=
  ∀ (r : Rec) (s : State) (rid w : Nat) (u : UnitId) (R : Region) (U : Site) (p : Position),
    s.turn.who = .source rid u → s.region? rid = some R → R.live = true → R.released = true →
    R.unit? u = some U → u.pos ≤ 2 → U.source? = some (w, r) → U.recordBad w = false → s.choice R U = some 4 →
    p = positionOf U.slots (soff 0x80 r) → p.eosSent = false →
    let np := r.lit.toNat % 65536
    let rounds := r.lit.toNat / 65536
    let duty := s.dutyOf R
    let bubble : Bool := decide ((p.k.toNat * duty) % 16 < duty)
    let next : Position := { p with k := p.k + 1#4, wrote := p.round }
    let out : Token × Position :=
      if bubble then ({ emptyToken with kind := .bubble, fmt := .n32, round := p.round }, next)
      else if rounds ≠ 0 ∧ rounds ≤ p.done.toNat then
        ({ emptyToken with kind := .eos, fmt := .n32, round := p.round - 1#12 }, { next with eosSent := true })
      else if np ≤ p.seq then
        ({ emptyToken with kind := .marker, fmt := .n32, round := p.round },
          { next with round := p.round + 1#12, seq := 0, done := p.done + 1#16 })
      else ({ emptyToken with fmt := .n32, round := p.round, seq := BitVec.ofNat 15 p.seq,
                              e := clearAbove 0 [BitVec.ofNat 32 (p.done.toNat * np + p.seq)] }, { next with seq := p.seq + 1 })
    U.canSend (toBoth r out.1) = true →
    exec (.source r) s = .next (s.putRegion (R.modUnit u fun U =>
      { (U.queueSends s.cycle 2 (toBoth r out.1)) with rot := 4, nextTake := s.cycle + 1, slots := mapPut U.slots (soff 0x80 r) (.position out.2) }))

/-- R196 to R198: MARK stamps a token with its round and SEQ and after the last of a round sends its marker, HOLD keeps a value and
sends nothing, EOS sends an end-of-stream token, SINK absorbs and logs what carries EXC (R121). -/
def Obligations.RoundRecordsComplete : Prop :=
  ∀ (r : Rec) (s : State) (rid : Nat) (k : Take) (m : Mu), Served s rid k → k.t.oddPair = false →
    (k.R.mu? k.u.page = some m → m.undoRoom 16 = true → k.R.itemFor k = none →
      let i := soff 0x7D r
      let p := positionOf k.U.slots i
      let np := r.lit.toNat % 65536
      let t := { passed k.t with round := p.round, seq := BitVec.ofNat 15 p.seq }
      let last : Bool := decide (np ≤ p.seq + 1)
      let p1 : Position := { p with wrote := p.round }
      let p' : Position := if last then { p1 with round := p.round + 1#12, seq := 0, done := p.done + 1#16 } else { p1 with seq := p.seq + 1 }
      let es := toBoth r t ++ (if last then toBoth r (markerToken p.round 0) else [])
      let R := (k.R.modMu k.u.page fun m => m.log p.round (.replay k.t.node k.u.pos k.t)).setSlots k.u
        (mapPut k.U.slots i (.position p'))
      Room k R es → exec (.mark r) s = .next (sent s rid k R 2 0 es)) ∧
    (mapGet k.U.slots (soff 0x7E r) = none →
      let R := k.R.setSlots k.u (mapPut k.U.slots (soff 0x7E r) (.hold (passed k.t)))
      Room k R [] → exec (.hold r) s = .next (sent s rid k R 2 0 [])) ∧
    (let es := toBoth r { eosToken k.t.round with tag := k.t.tag, frame := k.t.frame }
     Room k k.R es → exec (.eos r) s = .next (sent s rid k k.R 2 0 es)) ∧
    (k.t.err = false → Room k k.R [] →
      let e : XEntry := { tag := k.t.tag, node := k.t.node, round := k.t.round, page := k.u.page, pos := k.u.pos, seq := k.t.seq }
      exec (.sink r) s = .next (sent s rid k (if k.t.exc then { k.R with heldLog := k.R.heldLog ++ [e] } else k.R) 2 0 []))

/-- R199, R200: CONST sends its packet, with ERR where a word of it holds an uncorrectable error (Table 1-8), TAGGET and TAGGET.tag read the tag, TAGSET sends its data under a new tag. -/
def Obligations.ConstantAndTagRecordsComplete : Prop :=
  ∀ (r : Rec) (s : State) (rid : Nat) (k : Take) (ops : List Operand) (R : Region), Served s rid k →
    (let len := r.lit.toNat / 4096 % 8
     let w := r.lit.toNat % 4096
     let e := r.fmt.payload len ((List.range 8).map fun j => k.U.word (w + j))
     let err := k.t.err || (List.range (len + 1)).any fun j => k.U.bad.contains (w + j)
     let es := toBoth r { k.t with act := .normal, fmt := r.fmt, len := BitVec.ofNat 3 len, exc := false, err := err, e := e }
     k.t.oddPair = false → Room k k.R es → exec (.const r) s = .next (sent s rid k k.R 2 0 es)) ∧
    (let es := toBoth r (oneWord k.t (inner k.R.cfg.tw k.t.tag))
     k.t.oddPair = false → Room k k.R es → exec (.tagget r) s = .next (sent s rid k k.R 2 0 es)) ∧
    (let e := clearAbove 1 [k.t.tag.extractLsb' 0 32, k.t.tag.extractLsb' 32 32]
     let es := toBoth r { k.t with act := .normal, fmt := .n64, len := 1#3, e := e }
     k.t.oddPair = false → Room k k.R es → exec (.taggetTag r) s = .next (sent s rid k k.R 2 0 es)) ∧
    (Fires k 0x84 r ops R → r.m = false → (opAt ops 1).len = 0 → (opAt ops 0).tok.oddPair = false →
      let a := (opAt ops 0).tok
      let v := (nth 0#32 (opAt ops 1).tok.e 0).toNat
      let tw := k.R.cfg.tw
      depth tw a.tag ≠ 0 → v < 2 ^ twAt tw (depth tw a.tag - 1) →
      let es := toBoth r { passToken ops with tag := setInner tw a.tag v }
      Room k R es → exec (.tagset r) s = .next (sent s rid k R 2 0 es))

/-- R201: OREDUCE opens its context on the first value, which it reads in its format (R100 to R102), and parks a later one in its bank; the end token of a context whose values
have all come closes it: the sum leaves under the tag and the round of the accumulator with the SEQ of the end token, and the
accumulator is cleared. (No counted exit: that is a matter of R183.) -/
def Obligations.OreduceCompletes : Prop :=
  (∀ (r : Rec) (s : State) (rid : Nat) (k : Take) (outer : W64) (i : Nat), Served s rid k → k.t.port = 0#2 → k.t.act = .normal → k.t.oddPair = false →
    popField k.R.cfg.tw k.t.tag (r.lit.toNat % 64) = .ok (outer, i) →
    let base := k.t.frame.toNat * k.U.stride + r.aux.toNat % 256
    let banks := r.aux.toNat / 4096 % 8 + 1
    let fresh : Accum := { tag := outer, round := k.t.round, next := 0, k := none, fmt := r.fmt, seq := 0#15, sum := none, exc := false, err := false }
    mapGet k.U.slots (base - 1) = none →
    (0 < i → mapGet k.U.slots (base + i % banks) = none →
      let R := k.R.setSlots k.u (mapPut (mapPut k.U.slots (base - 1) (.accum fresh)) (base + i % banks) (.operand false k.t))
      Room k R [] → exec (.oreduce r) s = .next (sent s rid k R 2 0 [])) ∧
    (i = 0 → (r.fmt.pair = true → k.t.len.toNat % 2 = 1) → mapGet k.U.slots (base + 1 % banks) = none →
      let vs := (List.range (r.fmt.nv k.t.len.toNat)).map fun j => r.fmt.read ((recSub r).testBit 3) (r.fmt.get k.t.e j)
      let R := k.R.setSlots k.u (mapPut k.U.slots (base - 1) (.accum
        { fresh with next := 1, sum := some (k.t.len, r.fmt.pack vs), exc := k.t.exc, err := k.t.err }))
      Room k R [] → exec (.oreduce r) s = .next (sent s rid k R 2 0 []))) ∧
  (∀ (r : Rec) (s : State) (rid : Nat) (k : Take) (a : Accum) (outer : W64) (n : Nat) (len : BitVec 3) (e : List W32),
    Served s rid k → k.t.port = 1#2 → k.t.act = .normal →
    popField k.R.cfg.tw k.t.tag (r.lit.toNat % 64) = .ok (outer, n) →
    let base := k.t.frame.toNat * k.U.stride + r.aux.toNat % 256
    let banks := r.aux.toNat / 4096 % 8 + 1
    mapGet k.U.slots (base - 1) = some (.accum a) → a.tag = outer → a.k = none → a.next = n → a.sum = some (len, e) →
    mapGet k.U.slots (base + n % banks) = none → k.R.countedExit k.u k.node 0x85 = false →
    let out : Token := { emptyToken with tag := outer, frame := k.t.frame, round := a.round, seq := k.t.seq, fmt := r.fmt, len := len, e := e, exc := a.exc || k.t.exc, err := a.err || k.t.err }
    let R := k.R.setSlots k.u (mapDel k.U.slots (base - 1))
    Room k R (toBoth r out) → exec (.oreduce r) s = .next (sent s rid k R 2 0 (toBoth r out)))

namespace Sys2Proof.Claim
open Machine


/-! ### CFU, memory and island records -/

/-- The records of the Column Function Unit (Table 7-3). -/
def cfuRow : Instr → Option (Nat × Rec)
  | .ex2 r => some (0x90, r) | .lg2 r => some (0x91, r) | .rcp r => some (0x92, r) | .rsq r => some (0x93, r)
  | .sqrt r => some (0x94, r) | .sinpi r => some (0x95, r) | .cospi r => some (0x96, r) | .tanh r => some (0x97, r)
  | .erf r => some (0x98, r)
  | _ => none

/-- The memory records (Table 6-6). -/
def memRow : Instr → Option (Nat × Rec)
  | .ld r => some (0xA0, r) | .st r => some (0xA1, r) | .ldacq r => some (0xA2, r) | .strel r => some (0xA3, r)
  | .lds r => some (0xA4, r) | .lde r => some (0xA5, r) | .stf r => some (0xA6, r) | .stw r => some (0xA7, r)
  | .feget r => some (0xA8, r) | .feset r => some (0xA9, r) | .atom r => some (0xAA, r) | .cas r => some (0xAB, r)
  | .red r => some (0xAC, r) | .chunk r => some (0xAD, r) | .drain r => some (0xAE, r) | .fence r => some (0xAF, r)
  | .syncinv r => some (0xB0, r)
  | _ => none

/-- The access that a memory record's firing places in the buffer (R205), its results not yet known. -/
def accessOf (k : Take) (op : Nat) (r : Rec) (ops : List Operand) (id : Nat) : Access where
  id := id
  op := op
  r := r
  node := k.t.node
  ops := ops.map fun o => (BitVec.ofNat 2 o.port, o.sticky, o.tok)
  queue := k.q
  last := k.qt
  hdr := outToken ops r.fmt 0 false []
  st := .buffered
  results := []
  sent := false

end Sys2Proof.Claim

/-- R205, R215, R220: a memory record whose operands are complete and bear no ERR enters the access buffer when that has a free
entry and the wave table holds its context, and reserves a credit on each of its routes (R129); while the access buffer is full
it stays at the head of its queue. -/
def Obligations.MemoryRecordsEnterTheBuffer : Prop :=
  (∀ (i : Instr) (op : Nat) (r : Rec) (s : State) (rid : Nat) (k : Take) (ops : List Operand) (R : Region) (m : Mu),
    memRow i = some (op, r) → Served s rid k → Fires k op r ops R → memLensOk op r ops = true →
    (outToken ops r.fmt 0 false []).err = false → R.mu? k.u.page = some m → m.accs.length < 32 →
    (m.wave? (mrChain r) (outToken ops r.fmt 0 false [])).isSome = true →
    let a := accessOf k op r ops m.nextId
    let es := toBoth r a.hdr
    let R1 := R.modMu k.u.page fun m => { m with accs := m.accs ++ [{ a with id := m.nextId }], nextId := m.nextId + 1 }
    Room k R1 es →
    exec i s = .next (s.putRegion ((R1.modUnit k.u fun U => { U with credits := spend U.credits es, rot := k.q, nextTake := s.cycle + 1 }).sendReserved
      s.cycle k.u []))) ∧
  (∀ (i : Instr) (op : Nat) (r : Rec) (s : State) (rid q : Nat) (k : Take) (ops : List Operand) (R : Region) (m : Mu),
    memRow i = some (op, r) → s.turn.who = .take rid k.u q → (s.region? rid).bind (·.takeAt s.cycle k.u q) = some k → k.u.pos = 3 →
    k.U.recOf k.t = some (op, r) → k.t.kind = .data → k.t.act = .normal → Fires k op r ops R → memLensOk op r ops = true →
    R.mu? k.u.page = some m → 32 ≤ m.accs.length → exec i s = .next s)

/-! ### Accesses in the buffer -/

namespace Sys2Proof.Claim
open Machine

/-- A region as a global access leaves it at its issue: a weak store or RED answered before its translation (R231), any other
with its access issued. -/
def issuedIn (s : State) (R : Region) (page : Nat) (a : Access) : Region :=
  if (a.op = 0xA1 ∨ a.op = 0xAC) ∧ a.sent = false then
    (R.sendReserved s.cycle ⟨page, 3⟩ (accessSends a [] false)).modAcc page a.id fun x => { x with sent := true, st := .issued }
  else R.modAcc page a.id fun x => { x with st := .issued }

/-- The access itself at its issue. -/
def issued (a : Access) : Access := { a with st := .issued, sent := a.sent || (a.op == 0xA1 || a.op == 0xAC) }

/-- A global access of `R` at virtual addresses `gas` passes the checks made before its translation (R208, R212, R450). -/
def GlobalOk (s : State) (R : Region) (a : Access) (slot : Nat) (gas : List Nat) : Prop :=
  mrGlobal a.r = true ∧ a.op ≠ 0xAE ∧ a.op ≠ 0xAF ∧ gas = R.globalAddrs a ∧ (∀ x ∈ gas, x < 2 ^ 57 ∧ x % a.align = 0) ∧
    s.slotOf R.part = some slot

/-- Every address of a global access has its translation, with the permissions that its operation needs, to a target that is there. -/
def Translated (s : State) (m : Mu) (a : Access) (gas pas : List Nat) (ts : List Tlb) : Prop :=
  gas.map (tlbFind m.tlb) = ts.map some ∧ pas = (List.range gas.length).map (fun i => (nth default ts i).paOf (nth 0 gas i)) ∧
    (∀ t ∈ ts, (globalRead a.op = true → t.r = true) ∧ (globalWrite a.op = true → t.w = true)) ∧
    (∀ pa ∈ pas, windowOk s pa (globalWrite a.op) = true)

end Sys2Proof.Claim

/-- R205, R215, R222, R227, R232, R248: an access of the buffer that may be performed is: a DRAIN or FENCE completes, a repeat
answers the kept values, an access of the page's own slice is performed there, one that reaches other slices asks their request ports and
one that must lie in one slice (R214) faults; a performed access in turn retires, LAST := OWN;
a slice's request port serves its oldest request when the page's own MU has none to perform (R37), and a refused waiter asks again.
R228, R231, R288, R291, R50: a global access whose address has no translation asks for a walk, a weak store or RED answered before; with
its translations a store or RED is held in the Siding where the region's share has room, a load returns what the region sees, and a
read-modify-write goes to its home agent. -/
def Obligations.AccessEventsComplete : Prop :=
  ∀ (s : State) (rid page k : Nat) (R R1 : Region) (m : Mu) (a : Access),
    s.region? rid = some R → R.live = true → R.mu? page = some m → m.accs[k]? = some a →
    (a.st = .buffered → R.mayPerform m a = true → R.releaseReady s.links.insts m a = true →
      (∀ vals, recorded R m.dedup a = some vals → exec (.accessPerform rid page k) s = .next
        ((s.metLines R a).putRegion ((R.finish s.cycle page a vals false).metAgain a))) ∧
      (recorded R m.dedup a = none → m.dedupRoom a = true →
        (a.op = 0xAE ∨ a.op = 0xAF →
          exec (.accessPerform rid page k) s = .next (s.putRegion (R.finish s.cycle page a [] false))) ∧
        (a.op ≠ 0xAE → a.op ≠ 0xAF → mrGlobal a.r = false → R.checkSram a.align a.addrs = none → a.addrs ≠ [] →
          (∀ x ∈ a.addrs, saPage x = page) → R.performSlice s.cycle page a page = .ok R1 →
          exec (.accessPerform rid page k) s = .next (s.putRegion R1)) ∧
        (a.op ≠ 0xAE → a.op ≠ 0xAF → mrGlobal a.r = false → R.checkSram a.align a.addrs = none →
          let pages := (a.addrs.map saPage).eraseDups
          let away := pages.filter (· != page)
          (oneSlice a.op = true → 1 < pages.length →
            exec (.accessPerform rid page k) s = .next (accFault s R page a .addressRange (nth 0 a.addrs 0) false)) ∧
          (oneSlice a.op = false ∨ pages.length ≤ 1 → away ≠ [] →
            (page ∈ pages → R.performSlice s.cycle page a page = .ok R1) → (page ∉ pages → R1 = R) →
            let R2 := away.foldl (fun R p => R.modMu p fun m => { m with portq := m.portq ++ [{ unit := ⟨page, 3⟩, acc := a.id }] }) R1
            exec (.accessPerform rid page k) s = .next (s.putRegion (R2.modAcc page a.id fun x =>
              if x.st = .buffered then { x with st := .issued } else x)))) ∧
        (∀ slot gas pas ts, GlobalOk s R a slot gas →
          let R2 := issuedIn s R page a
          let s2 := s.putRegion R2
          (∀ i, i < gas.length → (∀ j, j < i → (tlbFind m.tlb (nth 0 gas j)).isSome = true) → tlbFind m.tlb (nth 0 gas i) = none →
            exec (.accessPerform rid page k) s = .next (askWalk s2
              { rid := R.rid, unit := ⟨page, 3⟩, acc := a.id, va := nth 0 gas i, rd := globalRead a.op, wr := globalWrite a.op })) ∧
          (Translated s m a gas pas ts →
            (a.op ∈ [0xA1, 0xA3, 0xAC] →
              let sd := R2.muSiding page
              let R3 := R2.holdAll sd (issued a) gas pas
              R2.sidingRoom s.self sd a.hdr.round (R3.heldIn sd - R2.heldIn sd) = .room →
              exec (.accessPerform rid page k) s = .next (s2.putRegion
                (R3.finish s.cycle page (issued a) (List.replicate a.count 0) false))) ∧
            (a.op ∈ [0xA0, 0xA2] → R2.heldUntranslated = false → (∀ pa ∈ pas, provBlocks s2 (some R2.keyRid) pa = false) →
              let word (pa : Nat) : Nat := (viewWord s2 R2 slot pa).toNat
              let hit (pa : Nat) : Bool := viewBad s2 R2 pa || (a.r.fmt.pair && viewBad s2 R2 (pa + 4))
              exec (.accessPerform rid page k) s = .next (s2.putRegion (R2.finish s.cycle page ((issued a).withErr (pas.any hit))
                (pas.map fun pa => word pa + (if a.r.fmt.pair then 2 ^ 32 * word (pa + 4) else 0)) false))) ∧
            (a.op ∈ [0xAA, 0xAB, 0xAD] → R2.heldUntranslated = false →
              exec (.accessPerform rid page k) s = .next { (s2.putRegion (R2.modAcc page a.id fun x => { x with st := .home })) with
                home := { s.home with queue := s.home.queue ++ [{ key := s.slotKey slot, rid := R.rid, page := page, acc := a.id, pas := pas }] } }))))) ∧
    (∀ (es : Sends) (R3 : Region) (U : Site), a.st = .performed → R.inTurn m a = true → mrTail a.r = false →
      let mine (w : Wave) : Bool := w.chain == mrChain a.r && w.tag == a.hdr.tag && w.frame == a.hdr.frame
      let R2 := R.modMu page fun x =>
        { x with
          accs := delNth x.accs k
          waves := m.waves.map fun w => if mine w then { w with last := some (mrOwn a.r) } else w
          iters := m.iters }
      R2.forwards ⟨page, 3⟩ a.node.toNat a.op a.r = (es, R3) → R3.unit? ⟨page, 3⟩ = some U → U.canSend es = true →
      exec (.accessRetire rid page k) s = .next (s.putRegion (R3.sendNow s.cycle ⟨page, 3⟩ es))) ∧
    (∀ q rest, m.refused = q :: rest → m.waiters.length < 64 → q.unit.page = page → q.acc = a.id →
      let R2 := R.modMu page fun m => { m with refused := rest }
      R2.acc? page a.id = some a → R2.performSlice s.cycle page a page = .ok R1 →
      exec (.waiterRetry rid page) s = .next (s.putRegion R1)) ∧
    (∀ q rest b, m.portq = q :: rest → R.ownFirst s.links.insts s.cycle page = false → R.acc? q.unit.page q.acc = some b → R.performSlice s.cycle q.unit.page b page = .ok R1 →
      exec (.muRequestPortServe rid page) s = .next
        (s.putRegion (R1.modMu page fun m => { m with portq := delFirst (· == q) m.portq })))

/-- R229, R230, R232, R244: a home agent executes the queued read-modify-write at its head: its line becomes provisional for the
region with the bytes as they were, the new value of the word as the region sees it (R50) is written (what lies in a peer window goes to the peer in a packet, log entry 6), the region's held writes of it
taken up, the old value kept under its key and returned; the report of a
dropped contribution freezes its region; a reservation 2 microseconds old is lost. -/
def Obligations.HomeAgentEventsComplete : Prop :=
  (∀ (s : State) (k pa slot : Nat) (q : HomeReq) (R : Region) (a : Access),
    s.home.queue[k]? = some q → s.region? q.rid = some R → R.acc? q.page q.acc = some a → a.op = 0xAA → a.r.fmt.pair = false →
    q.pas = [pa] → (∀ d ∈ s.home.dedup, d.key ≠ R.keyOf a 0) → slot = 64 + q.key → provBlocks s (some R.keyRid) pa = false →
    R.heldUntranslated = false → (∀ p ∈ s.home.prov, ¬ (p.line = pa / 64 ∧ p.rid = R.keyRid ∧ p.round = a.hdr.round)) →
    s.home.prov.length < 32 → s.home.dedup.length < 8192 →
    let p : Prov := { kept := [], wrote := false, line := pa / 64, rid := R.keyRid, round := a.hdr.round, old := lineBytes s (pa / 64), oldKey := ownerOf s.owners (pa / 64) }
    let s1 := State.metLines { s with home := { s.home with queue := delNth s.home.queue k, prov := s.home.prov ++ [p] } } R a
    viewBad s1 R pa = false →
    let old := plainWord s1 R slot pa
    let s2 := match targetOf s pa with
      | .peer w off => s1.toPeer R.part w (a.atomicBody 0 off)
      | _ => memWrite (s1.takeUp R.rid a.hdr.round pa 1) (keyFor s1 slot pa) pa
          (toBytes a.bytes (atomNew (mrOpx a.r) a.r.fmt old (accData a.r.fmt a.operands 1 0)))
    let keys := (R.dedupOf a [old]).map fun d => { d with line := nth 0 [pa] d.key.idx / 64 }
    let s3 := { s2 with home := { s2.home with dedup := s2.home.dedup ++ keys } }
    exec (.homeAgentRmw k) s = .next (s3.modRegion R.rid fun Q => Q.finish s.cycle q.page (a.withErr false) [old] false)) ∧
  (∀ (s : State) (c : Contribution) (rest : List Contribution) (R : Region), s.home.reports = c :: rest →
    s.region? c.key.rid = some R → exec .homeAgentOrdinalReport s = .next
      (takeFault { s with home := { s.home with reports := rest } } c.key.rid (R.keyFault c.key .ordinal))) ∧
  (∀ (s : State) (h : Nat), h < 16 → ∀ line since, (s.hart h).resv = some (line, since) → since + 2 * Config.microsecond ≤ s.cycle →
    exec (.reservationExpiry h) s = .next (s.modHart h fun H => { H with resv := none }))

namespace Sys2Proof.Claim
open Machine

/-! ### Island records -/

/-- The streamers' records but SXLAT (Table 8-3). -/
def strRow : Instr → Option (Nat × Rec)
  | .sload r => some (0xC0, r) | .sstore r => some (0xC1, r) | .sfeed r => some (0xC2, r) | .sgather r => some (0xC3, r)
  | .sscatter r => some (0xC4, r) | .scopy r => some (0xC6, r)
  | _ => none

/-- The matrix islands' records that take one trigger (Table 9-3). -/
def mxiRow : Instr → Option (Nat × Rec)
  | .mout r => some (0xD3, r) | .mcb r => some (0xD4, r)
  | _ => none

/-- The stochastic engines' records but SGEN (Table 10-3). -/
def sbeRow : Instr → Option (Nat × Rec)
  | .sand r => some (0xE1, r) | .sxnor r => some (0xE2, r) | .smux r => some (0xE3, r) | .sor r => some (0xE4, r)
  | .scnt r => some (0xE5, r) | .sdot r => some (0xE6, r) | .sregen r => some (0xE7, r) | .slen r => some (0xE8, r)
  | .sloadv r => some (0xE9, r) | .sstorev r => some (0xEA, r) | .sclr r => some (0xEB, r)
  | _ => none

/-- The turn is that of the head of the queue of island `k.u`: `k` is its take, the head popped (R269, R306, R330). -/
abbrev IslandServed (s : State) (rid : Nat) (k : Take) : Prop := s.islandTaking = some (rid, k)

/-- A stream operation as its take leaves it (R269): pass 1 begins, nothing pinned, nothing read. -/
def strOpOf (k : Take) (id op : Nat) (r : Rec) : StrOp where
  id := id
  op := op
  r := r
  node := k.t.node
  trig := k.qt
  st := .pass1
  pins := []
  data := []
  fed := 0
  sent := false
  index := []
  bad := []

/-- A matrix operation as its acceptance leaves it (R306). -/
def mxiOpOf (k : Take) (id op : Nat) (r : Rec) (ops : List Token) : MxiOp where
  id := id
  op := op
  r := r
  node := k.t.node
  ops := ops
  last := k.qt
  hdr := headerOf ops .n32
  st := .accepted
  bookA := []
  bookB := []
  data := []
  bdata := []
  sas := []
  sbs := []
  replay := none

/-- The key of an operation (R306, R334). -/
def keyOf (k : Take) (hdr : Token) (payload : List W32) : IKey where
  node := k.t.node
  tag := hdr.tag
  frame := hdr.frame
  round := hdr.round
  seq := hdr.seq
  payload := payload
  exc := false
  err := false

/-- The key of an operation is not yet held by the island. -/
abbrev NewKey (ks : List IKey) (y : IKey) : Prop :=
  ∀ z ∈ ks, ¬ (z.node = y.node ∧ z.tag = y.tag ∧ z.frame = y.frame ∧ z.round = y.round ∧ z.seq = y.seq)

/-- What the acceptance of a matrix operation makes of the region: a slot and the operation's key are taken, and a credit of
each destination route (R306). -/
def mxiAccepted (R : Region) (k : Take) (op : Nat) (r : Rec) (ops : List Token) (id : Nat) : Region :=
  let hdr := headerOf ops .n32
  (R.modMxi k.u fun x =>
    { x with ops := x.ops ++ [mxiOpOf k id op r ops], nextId := x.nextId + 1,
             keys := x.keys ++ [keyOf k hdr [BitVec.ofNat 32 (mxiE0 op r)]] }).modUnit
    k.u fun U => { U with credits := spend U.credits (sendsOf r hdr hdr) }

/-- What the acceptance of a stochastic operation makes of the region (R330, R334). -/
def sbeAccepted (R : Region) (k : Take) (op : Nat) (r : Rec) (ops : List Token) (id : Nat) : Region :=
  let hdr := headerOf ops .n32
  (R.modSbe k.u fun x =>
    { x with ops := x.ops ++ [{ id := id, op := op, r := r, node := k.t.node, ops := ops, last := k.qt, hdr := hdr, replay := none }],
             nextId := x.nextId + 1, keys := x.keys ++ [keyOf k hdr []] }).modUnit
    k.u fun U => { U with credits := spend U.credits (sendsOf r hdr hdr) }

end Sys2Proof.Claim

/-- R269, R274, R275, R279: a stream record with a trigger of its least LEN, a free operation slot and its credits takes a slot and
begins pass 1; SXLAT answers with a status word for each offset of its trigger. -/
def Obligations.StreamRecordsComplete : Prop :=
  ∀ (s : State) (rid : Nat) (k : Take) (r : Rec), IslandServed s rid k →
    (∀ (i : Instr) (op : Nat) (x : Str), strRow i = some (op, r) → k.U.str? = some x → k.t.err = false → trigMin op ≤ k.t.len.toNat →
      x.ops.length < 8 → k.U.canSend (strReserve op r k.t) = true →
      exec i s = .next (s.putRegion ((k.R.modStr k.u fun x =>
        { x with ops := x.ops ++ [strOpOf k x.nextId op r], nextId := x.nextId + 1 }).modUnit k.u fun U =>
        { U with credits := spend U.credits (strReserve op r k.t) }))) ∧
    (∀ (n : Nat) (e : List W32) (U : Site), k.t.len.toNat = 2 * n + 1 → k.t.err = false →
      xlatWords s k.R (k.R.chainBase (bits r.aux.toNat 15 10)) k.t (n + 1) 0 = .ok e →
      let out : Token := { headerOf [k.t] .n32 with len := BitVec.ofNat 3 n, e := clearAbove n e }
      k.R.unit? k.u = some U → U.canSend (toBoth r out) = true →
      exec (.sxlat r) s = .next (s.putRegion (k.R.sendNow s.cycle k.u (toBoth r out))))

/-- R275 to R278, R283, R295: pass 1, its addresses translated and pinned, reads the source and begins pass 2; SFEED sends its next
packet; an operation whose work is done writes its destination but the words of lines that an uncorrectable error has struck, sends its
completion, with ERR and without those words in its count, and gives up its slot. That all source words are read together when pass 1
ends and all destination words are written together at the completion is the model's choice (log entry 34; R45 fixes no order). -/
def Obligations.StreamEventsComplete : Prop :=
  ∀ (s : State) (rid : Nat) (u : UnitId) (k : Nat) (R R1 : Region) (U : Site) (x : Str) (o : StrOp),
    s.region? rid = some R → R.live = true → R.unit? u = some U → U.str? = some x → x.ops[k]? = some o →
    (∀ slot pins es, o.st = .pass1 → s.slotOf R.part = some slot →
      let h := U.shapeOf o.r
      let o1 := { o with index := if o.index.isEmpty then R.indexList h o.op o.trig.tok else o.index }
      pass1Over s R x.tlb (x.pageRoom o.id) (streamAddrs R h o.op o.r o.trig.tok o1.index) o.pins = .ok pins →
      streamBlocked s R h o1 pins = false → strSends R o 0 false = .ok es →
      let o2 := { o1 with st := .pass2, pins := pins, data := streamRead s R slot h o1 pins, bad := streamBad s R h o1 pins }
      exec (.streamPass1Done rid u k) s = .next (s.putRegion (R.modStr u fun x => { x with ops := x.ops.set k o2 }))) ∧
    (∀ t, o.op = 0xC2 → o.st = .pass2 → o.fed < feedCount o → feedPacket R.cfg.tw o o.fed = .ok t → o.r.d0 ≠ noDest →
      U.canSend [(o.r.d0, t)] = true →
      exec (.sfeedPacket rid u k) s = .next (s.putRegion ((R.sendNow s.cycle u [(o.r.d0, t)]).modStr u fun x =>
        { x with ops := x.ops.set k { o with fed := o.fed + 1 } }))) ∧
    (∀ es, o.op ≠ 0xC2 → o.st = .pass2 → (∀ p ∈ x.ops, p.node = o.node → o.id ≤ p.id) → o.trig.tok.err = false →
      streamPerform s R U o = .ok R1 →
      let lost : Bool := !o.bad.isEmpty
      strSends R o (o.data.length - o.bad.length) lost = .ok es →
      let R2 := if lost && es.isEmpty then R1.raiseErr u { o.trig.tok with node := o.node } else R1
      exec (.streamComplete rid u k) s = .next (s.putRegion ((R2.modStr u fun x =>
        { x with ops := x.ops.filter fun p => p.id != o.id }).endOperation s.cycle u es)))

/-- R305, R306, R308, R309, R313, R316, R319: an MMA or MMAS accepted takes an operation slot and its key and reserves its
credits; its last descriptor completes the match. MOUT and MCB are accepted with their one trigger. MZERO with nothing to wait for clears its accumulator, MWAKE
and MGATE of quadrants already so complete. -/
def Obligations.MatrixRecordsComplete : Prop :=
  ∀ (s : State) (rid : Nat) (k : Take) (r : Rec) (x : Mxi), IslandServed s rid k → k.U.mxi? = some x → x.ops.length < 8 →
    x.keys.length < 256 →
    (∀ (i : Instr) (op : Nat), mxiRow i = some (op, r) → k.t.err = false → NewKey x.keys (keyOf k (headerOf [k.t] .n32) []) →
      nth 0 (minLens op) 0 ≤ k.t.len.toNat → k.U.canSend (sendsOf r (headerOf [k.t] .n32) (headerOf [k.t] .n32)) = true →
      exec i s = .next (s.putRegion (mxiAccepted k.R k op r [k.t] x.nextId))) ∧
    (∀ (i : Instr) (op ports : Nat) (ops : List Token) (items : List MItem),
      i = .mma r ∧ op = 0xD0 ∧ ports = 2 ∨ i = .mmas r ∧ op = 0xD1 ∧ ports = 4 →
      matchGroup x.store (mxOff r + inner k.R.cfg.tw k.t.tag % (mxLb r + 1)) ports k.t = .fire ops items →
      (headerOf ops .n32).err = false → NewKey x.keys (keyOf k (headerOf ops .n32) []) →
      k.U.canSend (sendsOf r (headerOf ops .n32) (headerOf ops .n32)) = true →
      let R := k.R.modMxi k.u fun x => { x with store := items }
      R.mxiChecks k.U x op r ops = none → exec i s = .next (s.putRegion (mxiAccepted R k op r ops x.nextId))) ∧
    (∀ (y : Mxi), k.t.err = false → NewKey x.keys (keyOf k (headerOf [k.t] .n32) []) →
      k.U.canSend (sendsOf r (headerOf [k.t] .n32) (headerOf [k.t] .n32)) = true →
      (let o := mxiOpOf k x.nextId 0xD2 r [k.t]
       let R := mxiAccepted k.R k 0xD2 r [k.t] x.nextId
       (R.unit? k.u).bind (·.mxi?) = some y → y.mySend o = true → y.accBusy o = false →
       (y.bad.contains (mxAcc r) = false ∨ y.copied (mxAcc r) o.hdr.round = true) → ∀ z, y.copyAcc (mxAcc r) o.hdr.round = .ok z →
       exec (.mzero r) s = .next (((s.putRegion R)).putRegion ((R.modMxi k.u fun _ =>
         { z with accs := modNth z.accs (mxAcc r) fun _ => { i32 := decide (r.fmt = .i32), c := [], exc := [] }, bad := z.bad.filter (· != mxAcc r) }).mxiComplete
           s.cycle k.u o false false))) ∧
      (let o := mxiOpOf k x.nextId 0xD5 r [k.t]
       let R := mxiAccepted k.R k 0xD5 r [k.t] x.nextId
       (R.unit? k.u).bind (·.mxi?) = some y → y.mySend o = true → y.awake ||| mxQm r = y.awake →
       exec (.mwake r) s = .next ((s.putRegion R).putRegion ((R.modMxi k.u fun y => { y with awake := y.awake ||| mxQm r }).mxiComplete
         s.cycle k.u o false false))) ∧
      (let o := mxiOpOf k x.nextId 0xD6 r [k.t]
       let R := mxiAccepted k.R k 0xD6 r [k.t] x.nextId
       (R.unit? k.u).bind (·.mxi?) = some y → y.mySend o = true → y.feeds o (mxQm r) = false → y.awake &&& ~~~ mxQm r = y.awake →
       exec (.mgate r) s = .next ((s.putRegion R).putRegion ((R.modMxi k.u fun y =>
         { y with awake := y.awake &&& ~~~ mxQm r }).mxiComplete s.cycle k.u o false false))))

/-- R304, R306, R307, R311, R313, R315, R317: what becomes of an accepted matrix operation: its operands are read and its
completion leaves, its accumulation ends and frees its slot, MOUT writes its rows, MCB installs its codebook, quadrants change power. -/
def Obligations.MatrixEventsComplete : Prop :=
  ∀ (s : State) (rid : Nat) (u : UnitId) (k : Nat) (R R1 : Region) (x y : Mxi) (o : MxiOp),
    s.mxiOp? rid u k = some (R, x, o) → o.idle = false →
    (o.op = 0xD0 → o.st = .accepted → x.mySend o = true → x.bookBusy o = false → needQuads o.ops &&& ~~~ x.awake = 0#4 →
      x.accBusy o = false → x.bad.contains (mxAcc o.r) = false → R.spansBad (mmaSpans o.op o.r o.ops) = false →
      x.copyAcc (mxAcc o.r) o.hdr.round = .ok y →
      let da := descOf (opTok o.ops 0)
      let db := descOf (opTok o.ops 1)
      let data := R.readTile da.n (mxBlocks o.r) da.seg (segBytes o.r.fmt)
      let bdata := R.readTile db.n (mxBlocks o.r) db.seg (segBytes (mmaB o.r))
      let o' := { o with data := data, bdata := bdata, sas := [], sbs := [], bookA := x.book (mxCba o.r), bookB := x.book (mxCbb o.r) }
      exec (.mmaOperandsRead rid u k) s = .next (s.putRegion ((R.modMxi u fun _ => y).mxiComplete s.cycle u o' false true))) ∧
    (isMma o.op = true → o.st = .read → x.accBusy o = false → x.bad.contains (mxAcc o.r) = false →
      exec (.mmaAccumulationDone rid u k) s = .next (s.putRegion (R.modMxi u fun x =>
        { x with ops := x.ops.filter fun p => p.id != o.id, accs := modNth x.accs (mxAcc o.r) (mmaApply o) }))) ∧
    (∀ U, o.op = 0xD3 → x.mySend o = true → x.accBusy o = false → x.bad.contains (mxAcc o.r) = false → R.unit? u = some U →
      R.checkSpans U (moutSpans o.r (opTok o.ops 0)) = none → o.r.m = false → (o.r.fmt = .i32 ↔ (x.acc (mxAcc o.r)).i32 = true) →
      let w := moutWords o.r { descOf (opTok o.ops 0) with bs := 0 } (x.acc (mxAcc o.r))
      (R.modMxi u fun _ => x).engineWrite s.cycle o.hdr.round w.1 = some R1 →
      exec (.moutWrite rid u k) s = .next (s.putRegion (R1.mxiComplete s.cycle u o w.2 false))) ∧
    (o.op = 0xD4 → x.mySend o = true → x.before o = [] → x.bookUndo.length < 16 →
      exec (.mcbInstall rid u k) s = .next (s.putRegion ((R.modMxi u fun _ =>
        { x with books := modNth x.books (mxCba o.r) fun _ => bookOf (opTok o.ops 0),
                 bookUndo := x.bookUndo ++ [(mxCba o.r, o.hdr.round, x.book (mxCba o.r))] }).mxiComplete s.cycle u o false false))) ∧
    (isMma o.op = true → o.st = .accepted →
      exec (.quadrantPowerChange rid u k) s = .next (s.putRegion (R.modMxi u fun x => { x with awake := x.awake ||| needQuads o.ops })))

/-- R330, R331, R333, R334: a stochastic record takes an operation slot, its key and its credits, SGEN when both its operands have
come; when its turn comes it changes the registers its effect names, writes the words of region SRAM that SSTOREV's names (R344), and
sends its tokens. -/
def Obligations.StochasticRecordsComplete : Prop :=
  (∀ (s : State) (rid : Nat) (k : Take) (r : Rec) (x : Sbe), IslandServed s rid k → k.U.sbe? = some x → x.ops.length < 8 →
    x.keys.length < 256 →
    (∀ (i : Instr) (op : Nat), sbeRow i = some (op, r) → k.t.err = false → NewKey x.keys (keyOf k (headerOf [k.t] .n32) []) →
      k.U.canSend (sendsOf r (headerOf [k.t] .n32) (headerOf [k.t] .n32)) = true → (op = 0xE7 → (opTok [k.t] 0).len = 7#3) →
      exec i s = .next (s.putRegion (sbeAccepted k.R k op r [k.t] x.nextId))) ∧
    (∀ ops items, matchGroup x.store (sbGroup r) 2 k.t = .fire ops items → (headerOf ops .n32).err = false →
      NewKey x.keys (keyOf k (headerOf ops .n32) []) → k.U.canSend (sendsOf r (headerOf ops .n32) (headerOf ops .n32)) = true →
      (opTok ops 1).len = 7#3 → sbRd r + (opTok ops 0).len.toNat ≤ 511 →
      exec (.sgen r) s = .next
        (s.putRegion (sbeAccepted (k.R.modSbe k.u fun x => { x with store := items }) k 0xE0 r ops x.nextId)))) ∧
  (∀ (s : State) (rid : Nat) (u : UnitId) (k : Nat) (R : Region) (x : Sbe) (o : SbeOp) (f : SbeEffect),
    s.region? rid = some R → R.winding = true → (R.unit? u).bind (·.sbe?) = some x → x.ops[k]? = some o → x.mySend o = true →
    x.regBusy o = false → o.idle = false → x.struck o = [] → R.loadBad o = false → sbeEffect R x o = .ok f → x.staleRound o.hdr.round f.regs = false →
    x.copies.length + x.copiesNeeded o.hdr.round f.regs ≤ 1024 →
    let R1 := R.modSbe u fun x => x.setRegs o.hdr.round f.regs
    let done (R : Region) : State := s.putRegion (R.sbeComplete s.cycle u o (o.tokens f.fmt f.d0 f.d1 f.exc) (some (f.d0, f.exc)))
    (f.mem = [] → exec (.sbeOperationComplete rid u k) s = .next (done R1)) ∧
    (∀ R2, f.mem ≠ [] → R1.engineWrite s.cycle o.hdr.round f.mem = some R2 →
      exec (.sbeOperationComplete rid u k) s = .next (done R2)))

namespace Sys2Proof.Claim
open Machine

/-- The head that the turn takes at a cell, with its record (Table 2-4). -/
abbrev CellHead (s : State) (rid : Nat) (k : Take) (op : Nat) (r : Rec) : Prop :=
  Served s rid k ∧ k.U.recOf k.t = some (op, r) ∧ k.u.pos ≤ 2 ∧ cfuOp op = false

/-- The header of a link record's tokens (R64, R424). -/
def linkHdr (k : Take) : Token :=
  { outToken [{ port := 0, sticky := false, lit := false, tok := k.t }] .n32 0 false [] with node := k.t.node }

/-- A token for D0 alone. -/
def toFirst (r : Rec) (t : Token) : Sends := [(r.d0, t)].filter fun p => p.1 != noDest

/-- A link record accepted: the credits of `reserve` are spent, the local completion `es` waits to leave (R424). -/
def linkAccepted (s : State) (k : Take) (R : Region) (reserve es : Sends) : State :=
  { s.putRegion (R.modUnit k.u fun U =>
      { U with credits := spend U.credits reserve, outq := U.outq ++ outsOf (s.cycle + 2) es, rot := k.q, nextTake := s.cycle + 1 }) with
    links := { s.links with nextId := s.links.nextId + 1 } }

/-- The call that a CALL record places at the CC (R430). -/
def callOf (k : Take) (r : Rec) : Call where
  ticket := 0
  strong := r.m
  queue := r.aux.toNat % 4
  tok := { k.t with act := .normal }
  unit := k.u
  dest := r.d0
  key := linkKey k.R k.u r (linkHdr k)
  raddr := 0
  st := .unconfirmed
  came := 0
  kept := false
  resp := none

end Sys2Proof.Claim

/-! ### Arrivals that are no firing -/

/-- R32, R61, R174, R176: what the head of a cell's queue does when it fires no record: a data token short of its set is stored, a
sticky one kept, a purge clears its port, a cancel goes on to D0 and D1, a marker and an end-of-stream token are counted and, when
complete, forwarded, a bubble is absorbed. -/
def Obligations.ArrivalsComplete : Prop :=
  ∀ (s : State) (rid : Nat) (k : Take) (op : Nat) (r : Rec) (slots : SMap Slot) (es : Sends) (R R1 : Region),
    CellHead s rid k op r →
    (k.t.kind = .data → matching op r = true → arrive k.R k.U op r k.t = .quiet slots [] → Room k (k.R.setSlots k.u slots) [] →
      (k.t.act = .normal → exec .slotWrite s = .next (sent s rid k (k.R.setSlots k.u slots) 2 0 [])) ∧
      (k.t.act = .sticky → exec .stickyArrival s = .next (sent s rid k (k.R.setSlots k.u slots) 2 0 [])) ∧
      (k.t.act = .purge → exec .purgeArrival s = .next (sent s rid k (k.R.setSlots k.u slots) 2 0 []))) ∧
    (k.t.kind = .data → k.t.act = .cancel → op ≠ 0x85 → matching op r = true → arrive k.R k.U op r k.t = .cancelled slots →
      let first := ((waitingOps (groupItems k.U.slots (groupOf k.R k.U op r k.t))).find? fun w => w.1.port == 0).map (·.1.tok.tag)
      let cut := { cancelOf k.t with tag := if op = 0x84 then first.getD k.t.tag else k.t.tag }
      Room k (k.R.setSlots k.u slots) (toBoth r cut) →
      exec .cancelArrival s = .next (sent s rid k (k.R.setSlots k.u slots) 2 0 (toBoth r cut))) ∧
    (k.t.kind = .marker → k.R.takeMarker k.u k.node op r k.t = some R1 → R1.forwards k.u k.node op r = (es, R) → Room k R es →
      exec .markerArrival s = .next (sent s rid k R 2 0 es)) ∧
    (k.t.kind = .eos → op ≠ 0x7D → (k.R.takeEos k.u k.node op r k.t).forwards k.u k.node op r = (es, R) → Room k R es →
      exec .endOfStreamArrival s = .next (sent s rid k R 2 0 es)) ∧
    (k.t.kind = .bubble → k.R.forwards k.u k.node op r = (es, R) → Room k R es →
      exec .bubbleArrival s = .next (sent s rid k R 2 0 es))

/-! ### The network -/

/-- R19, R20, R22, R24, R25, R80, R82, R132: a due result leaves on the credit reserved for it; a flight hops to the neighbour its
entry names, or into the queue where its circuit ends; a freed slot's credit returns; a token crosses a gateway with an ALLOW credit,
and is placed through its ingress entry, after a crossing between the dies once 6 cycles are over and not before (R24). That a credit
given in advance to a ring of full circuits (log entry 19) stands in the way of no result here, that the markers a credit frees leave at once (log
entry 21), and that a credit returns when the copies at all ends are freed (log entry 76) are the model's choices. -/
def Obligations.NetworkEventsComplete : Prop :=
  ∀ (s : State) (rid : Nat) (R : Region), s.region? rid = some R → R.live = true →
    (∀ (u : UnitId) (U : Site) (o : Out) (rest : List Out), R.unit? u = some U → U.outq = o :: rest → o.ready ≤ s.cycle → o.paid = true →
      nth 0 U.owed o.route = 0 →
      exec (.aluResultEmit rid u) s = .next (s.putRegion ((R.putUnit { U with outq := rest }).launch s.cycle u o.route o.tok))) ∧
    (∀ (k page pos inp cin i : Nat) (f : Flight) (e : W32), R.flights[k]? = some f → f.loc = .at page pos inp cin →
      R.entryOf f = some (i, e) → R.mayHop s.cycle s.linkRot f = true →
      (∀ d p q, seLoc e = false → seOut e = [d] → R.neighbour page pos d = some (p, q) →
        exec (.tokenHop rid k) s = .next { s.putRegion { R with flights := delNth R.flights k ++
          [{ f with loc := .at p q (opposite d) (seCout e), since := R.arrival s.cycle page pos d }] } with
          linkRot := mapPut s.linkRot (R.linkNo page pos d) (circuitNo f) }) ∧
      (seLoc e = true → seEnd e = 0 → seOut e = [] → exec (.tokenHop rid k) s = .next (s.putRegion
        (Region.enqueue { R with flights := delNth R.flights k } ⟨page, pos⟩ (seQ e)
          { tok := f.tok, org := f.org, route := f.route, sid := f.sid })))) ∧
    (∀ org route sid rest, R.freed = (org, route, sid) :: rest → org.pos ≤ 2 →
      Region.outstanding { R with freed := rest } org route sid = false →
      exec (.creditReturn rid) s = .next
        (s.putRegion ((Region.giveCredit { R with freed := rest } org route).forwardMore s.cycle org))) ∧
    (∀ (k page pos idx : Nat) (f : Flight) (U : Site), R.flights[k]? = some f → f.loc = .gateway page pos idx →
      R.unit? ⟨page, pos⟩ = some U → (∀ g ∈ R.flights.take k, g.loc ≠ .gateway page pos idx) →
      let i := seCap (nth 0#32 U.switch idx)
      let c := (f.cap.map BitVec.toNat).getD (R.cap i)
      bit c 63 = true → bit c 62 = true → capHeld s c = true → capDev c = s.self → capRid c = R.rid → R.capOut i < capAllow c →
      let freed := Region.free { R with flights := delNth R.flights k } f.org f.route f.sid
      let g := { f with org := ⟨rid, 7⟩, route := 16 + i, sid := ((f.sid * 1024 + f.org.page) * 8 + f.org.pos) * 4 + f.route, loc := .ingress (capEport c), since := s.cycle, cap := none }
      exec (.gatewayPass rid k) s = .next
        (s.putRegion (Region.setCapOut { freed with flights := freed.flights ++ [g] } i (R.capOut i + 1)))) ∧
    (∀ (k eport : Nat) (f : Flight), R.flights[k]? = some f → f.loc = .ingress eport →
      (∀ g ∈ R.flights.take k, g.loc ≠ .ingress eport) →
      let e := ((mapGet R.cfg.ingress eport).getD 0#32).toNat
      let g := { f with loc := .at (bits e 23 12) (bits e 11 10) (bits e 30 28) (bits e 27 24), since := s.cycle }
      ((f.org = ⟨rid, 7⟩ → f.since + 6 ≤ s.cycle) → R.ingressOk e f.tok = true →
        exec (.ingressPlace rid k) s = .next (s.putRegion { R with flights := R.flights.set k g })) ∧
      (f.org = ⟨rid, 7⟩ → s.cycle < f.since + 6 → exec (.ingressPlace rid k) s = .next s))

/-- R255, R257, R258: a CFU record that has a credit for each destination sends one request into its column's stream, with the operand,
the function, the format and the destinations, whether or not the ALU is free; the column's function unit takes the request next in
rotation, computes its reply, and the reply, when due, enters queue Qr of the cell that asked, D0's copy first. (The choices of log entries 83 and 100.) -/
def Obligations.FunctionUnitCompletes : Prop :=
  (∀ (i : Instr) (op : Nat) (r : Rec) (s : State) (rid : Nat) (k : Take) (U V : Site), cfuRow i = some (op, r) → Served s rid k →
    k.R.unit? k.u = some U → U.canSend (toBoth r k.t) = true →
    let R1 := k.R.modUnit k.u fun U => { U with credits := spend U.credits (toBoth r k.t), rot := k.q, nextTake := s.cycle + 1 }
    R1.unit? k.u = some V →
    exec i s = .next (s.putRegion
      { (R1.modUnit k.u fun V => { V with nextSid := V.nextSid + max 1 (toBoth r k.t).length }) with
        flights := R1.flights ++ [{ tok := k.t, org := k.u, route := r.d0.toNat / 2 ^ 14, sid := V.nextSid, loc := .cfuRequest,
                                    since := s.cycle, cfuOp := some (op, r.fmt, (toBoth r k.t).map (·.1)) }] })) ∧
  (∀ (s : State) (col : Nat),
    (∀ (rid row op : Nat) (fmt : Fmt) (d : BitVec 16) (ds : List (BitVec 16)) (f : Flight), s.cfuNext col = some (rid, row, f) →
      f.cfuOp = some (op, fmt, d :: ds) →
      let g := { f with tok := cfuReplyToken op fmt f.tok, loc := .cfuReply (max s.cycle (f.since + cfuLat op f.tok)) }
      exec (.cfuRequestServe col) s = .next { s.modRegion rid fun R =>
        { R with flights := modFirst (· == f) (fun _ => g) R.flights } with cfuRot := mapPut s.cfuRot col row }) ∧
    (∀ (R : Region) (Rs : List Region) (f : Flight) (op : Nat) (fmt : Fmt) (d : BitVec 16), s.regions = R :: Rs →
      R.cfuDue col s.cycle = some f → R.killing = false → f.cfuOp = some (op, fmt, [d]) →
      exec (.cfuReply col) s = .next (s.putRegion (Region.enqueue { R with flights := delFirst (· == f) R.flights } f.org f.route
        { tok := aim f.tok d, org := f.org, route := f.route, sid := f.sid }))))

/-! ### What a turn brings from outside -/

/-- R126, R206, R261 (and the log entry on uncorrectable errors): an uncorrectable error sets ERR on the token in a queue that it strikes,
or in a request of the function unit, and ERR goes on to the output of a firing (R64, R65); it marks the word of element memory or of a
slice that it strikes and changes no other word of the slice. R6, Table 13-8: a write of CHSTAT clears BAD and OVF where it writes a 1, and
its read gives them with the number of calls queued. -/
def Obligations.OutsideInputsAct : Prop :=
  (∀ (s : State) (k rid : Nat) (u : UnitId) (R : Region) (U : Site), s.region? rid = some R → R.unit? u = some U →
    (∀ q i x, q < 4 → (nth [] U.queues q)[i]? = some x → x.tok.kind = .data →
      ∃ Q V e, (s.upset k (.queue rid u q i)).region? rid = some Q ∧ Q.unit? u = some V ∧
        (nth [] V.queues q)[i]? = some { x with tok := { x.tok with err := true, e := e } } ∧
        ∀ j, j ≠ i → (nth [] V.queues q)[j]? = (nth [] U.queues q)[j]?) ∧
    (∀ i f, R.flights[i]? = some f → f.loc = .cfuRequest → f.tok.kind = .data →
      ∃ Q e, (s.upset k (.request rid i)).region? rid = some Q ∧ Q.flights[i]? = some { f with tok := { f.tok with err := true, e := e } }) ∧
    (∀ w, ∃ Q V, (s.upset k (.element rid u w)).region? rid = some Q ∧ Q.unit? u = some V ∧ V.bad.contains w = true ∧ V.elem = U.elem) ∧
    (∀ w m, u.pos = 3 → U.eng = .mu m → w < 65536 → Sram.wf m.sram = true →
      ∃ Q n, (s.upset k (.sram rid u.page w)).region? rid = some Q ∧ Q.mu? u.page = some n ∧ n.bad.contains w = true ∧
        ∀ x, x ≠ w → sramWord n.sram x = sramWord m.sram x)) ∧
  (∀ (ops : List Operand) (f : Fmt) (len : Nat) (exc : Bool) (e : List W32), (outToken ops f len exc e).err = ops.any (·.tok.err)) ∧
  (∀ (s : State) (t : Nat) (v : W64) (T : Tdi), s.tdis[t]? = some T → T.calls.length < 65536 →
    let c := s.chstat t
    let d := (s.setChstat t v).chstat t
    bits c.toNat 15 0 = (T.calls.filter fun x => x.st == .queued).length ∧ c.getLsbD 16 = T.ovf ∧ c.getLsbD 17 = T.bad ∧
    bits d.toNat 15 0 = bits c.toNat 15 0 ∧ d.getLsbD 16 = (T.ovf && !v.getLsbD 16) ∧ d.getLsbD 17 = (T.bad && !v.getLsbD 17))

/-! ### Links -/

/-- R424 to R430: a link record whose trigger is long enough and free of ERR is accepted: SEND and POST place their words in the
gateway's Siding and answer at once with the byte count, RECV posts its buffer, NRED contributes its words, CALL places its call. That
the local completion is ready two cycles after the take (log entry 53), the key of an item (log entry 35) and the lines that an item
takes in the Siding (log entry 8) are the model's choices. -/
def Obligations.LinkRecordsComplete : Prop :=
  ∀ (s : State) (rid : Nat) (k : Take) (r : Rec), Served s rid k → (linkHdr k).err = false → k.t.oddPair = false →
    let R := k.R
    let e (i : Nat) : Nat := (nth 0#32 k.t.e i).toNat
    let both := toBoth r (linkHdr k)
    k.U.canSend both = true →
    (∀ ws, (e 1) % 4 = 0 → 4 ≤ e 1 → e 1 ≤ 65536 → linkRead s R r (e 0) (e 1 / 4) = .ok ws false →
      let i := r.lit.toNat % 256
      bit (R.cap i) 63 = true → bit (R.cap i) 61 = true → capHeld s (R.cap i) = true → (∀ x ∈ R.sends, x.kept = false) →
      (2 ≤ k.t.len.toNat →
        let x := recordSend s R k r (linkHdr k) (some i) (.message ws (e 1) (nth 0#32 k.t.e 2)) r.d1 0
        R.linkRoom s k.u.page x.round x.lines = .room → exec (.send r) s = .next
          (linkAccepted s k { R with sends := R.sends ++ [x] } both (toFirst r (completion (linkHdr k) (e 1))))) ∧
      (3 ≤ k.t.len.toNat →
        let x := recordSend s R k r (linkHdr k) (some i) (.post (e 2 + 2 ^ 32 * e 3) ws) r.d1 0
        R.linkRoom s k.u.page x.round x.lines = .room → exec (.post r) s = .next
          (linkAccepted s k { R with sends := R.sends ++ [x] } both (toFirst r (completion (linkHdr k) (e 1)))))) ∧
    (1 ≤ k.t.len.toNat → (e 1) % 4 = 0 → e 1 ≤ 65536 → linkCheck R r (linkAddrs R r (e 0) (e 1 / 4)) = none →
      let box := r.lit.toNat % 256
      (R.buffers.filter fun b => b.box == box).length < 16 → (s.regions.map fun R => R.buffers.length).sum < 4096 →
      exec (.recv r) s = .next (linkAccepted s k { R with buffers := R.buffers ++ [{ box := box, global := bit r.aux.toNat 9, addr := nth (e 0) (linkAddrs R r (e 0) 1) 0, cap := e 1, unit := k.u, dest := r.d0, hdr := linkHdr k, queue := k.q, trig := k.qt }] } both [])) ∧
    (∀ ws, 3 ≤ k.t.len.toNat → treeOk s R (r.lit.toNat % 64) = true → 1 ≤ e 2 → e 2 ≤ 16384 →
      R.checkSram 4 ((List.range (e 2)).map fun i => e 1 + 4 * i) = none → linkRead s R r (e 0) (e 2) = .ok ws false →
      (∀ x ∈ R.sends, x.kept = false) →
      let x := recordSend s R k r (linkHdr k) none (.contribution (r.lit.toNat % 64) (e 3) (BitVec.ofNat 2 r.aux.toNat) r.fmt ws false) r.d0 (e 1)
      R.linkRoom s k.u.page x.round x.lines = .room →
      exec (.nred r) s = .next (linkAccepted s k { R with sends := R.sends ++ [x] } both [])) ∧
    ((∀ x ∈ R.calls, x.kept = false) → R.linkRoom s k.u.page (linkHdr k).round 1 = .room →
      exec (.call r) s = .next (linkAccepted s k { R with calls := R.calls ++ [callOf k r] } both []))

/-- R405, R415, R418, R419, R421, R425 to R429, R438: what happens on the links: an item acknowledged leaves its Siding, a packet for
a region here is taken in where the region has room for it and waits where it has none (how many lines it takes: log entry 105), a message meets its buffer, a POST is written, a report and a call's response go to their MARK, probes are answered, inputs of
a tree's instance combine or miss their deadline, a port changes. -/
def Obligations.LinkEventsComplete : Prop :=
  (∀ (s : State) (R : Region) (Rs : List Region) (x : Send), s.regions = R :: Rs → R.sends = [x] → x.st = .sent → x.report = none →
    (∀ t, x.pkt.body ≠ .token t) →
    let s1 := s.putRegion { R with sends := [] }
    exec (.linkAcknowledge x.pkt.id) s = .next
      (dispatchSends { s1 with links := { s1.links with outbox := s1.links.outbox.filter fun p => p.2 != x.pkt } } R.rid)) ∧
  (∀ (s : State) (port : Nat) (x : Port) (p : Packet) (t : Token) (R : Region), s.links.ports[port]? = some x → x.up = true →
    x.en = true → partOn s port p.part = true → p.dstDev = s.self → p.body = .token t → s.receiver? p.dstRid p.part = some R →
    (R.inRoom s (keptItem p t) = true → exec (.packetReceive port p) s = .next (dispatchAll (s.putRegion (R.takeIn s p t)))) ∧
    (R.inRoom s (keptItem p t) = false → exec (.packetReceive port p) s = .next s)) ∧
  (∀ (s : State) (rid n bytes : Nat) (R : Region) (it : Item) (p : Packet) (b : Buffer) (ws : List W32) (mtag : W32),
    s.region? rid = some R → R.live = true → R.items = [it] → it.onWay = false → it.pkt = some p → p.body = .message ws bytes mtag →
    s.links.waiting = [] → (R.buffers.find? fun b => b.box == p.eport) = some b → b.global = false → n = min bytes b.cap →
    let t : Token := { b.hdr with fmt := .n32, len := 3#3, e := clearAbove 3 [b2w (decide (n < bytes)), BitVec.ofNat 32 n, BitVec.ofNat 32 bytes, mtag] }
    let it' := { it with pins := [], dest := some (b.unit, b.dest), tok := t, global := false, addr := b.addr, words := ws.take (n / 4), onWay := true }
    let R1 := { R with items := [it'], buffers := delFirst (· == b) R.buffers }
    exec (.messageDelivery rid 0) s = .next (answerSender (s.putRegion (R1.laterToken s.cycle b.unit b.dest t)) p
      (if n < bytes then 1 else 0) n bytes)) ∧
  (∀ (s : State) (rid va slot pa : Nat) (p : Packet) (ps : List Packet) (w : W32) (R : Region) (tl : Tlb),
    s.links.waiting = p :: ps → p.body = .post va [w] → p.dstRid = rid → s.gone rid = false → s.receiver? rid p.part = some R →
    va < 2 ^ 57 → s.slotOf R.part = some slot → walkAll s R false true [va] [] = .ok [tl] → tlbFind [tl] va = some tl → tl.paOf va = pa →
    provBlocks s (some R.keyRid) pa = false →
    exec (.postDelivery rid 0) s = .next (answerSender (writeBytes { s with links := { s.links with waiting := ps } } slot pa
      (toBytes 4 w.toNat)) p 0 4 4)) ∧
  (∀ (s : State) (rid id status placed n : Nat) (R : Region) (x : Send) (u : UnitId) (d : BitVec 16) (hdr : Token),
    s.region? rid = some R → R.live = true → R.sends = [x] → x.pkt.id = id → x.st = .sent → x.report = some (u, d, hdr) →
    x.pkt.dstDev ≠ s.self →
    let t : Token := { hdr with fmt := .n32, len := 2#3, e := clearAbove 2 ([status, placed, n].map (BitVec.ofNat 32)) }
    let s1 := s.putRegion (Region.laterToken { R with sends := [{ x with report := none }] } s.cycle u d t)
    exec (.sendReportArrival rid id status placed n) s = .next
      { s1 with links := { s1.links with replies := delFirst (· == (s.self, id, status, placed, n)) s1.links.replies } }) ∧
  (∀ (s : State) (rid : Nat) (R : Region) (c : Call) (cs : List Call) (len : BitVec 3) (f : Fmt) (exc : Bool) (e : List W32),
    s.region? rid = some R → R.live = true → R.responses = c :: cs → c.resp = some (len, f, exc, e) →
    let t : Token := { c.tok with len := len, fmt := f, exc := exc, err := false, act := .normal, kind := .data, e := f.payload len.toNat e }
    let it : Item := { id := s.links.nextId, pins := [], pkt := none, dest := some (c.unit, c.dest), tok := t, global := false, addr := 0, words := [], onWay := true, stamped := none }
    R.inRoom s it = true →
    let s1 := s.putRegion (Region.laterToken { R with responses := cs, items := R.items ++ [it] } s.cycle c.unit c.dest t)
    exec (.callResponseDelivery rid) s = .next { s1 with links := { s1.links with nextId := s1.links.nextId + 1 } }) ∧
  (∀ (s : State) (dev rid target : Nat) (part : BitVec 16) (R : Region), s.receiver? target part = some R →
    (dev = s.self → ∃ Q, s.region? rid = some Q ∧ Q.armed = true ∧ (dev, target) ∈ Q.probes ∧ Q.part = part) →
    (dev, rid, target) ∉ s.links.answers →
    exec (.probe dev rid part target) s = .next { s with links := { s.links with answers := s.links.answers ++ [(dev, rid, target)] } }) ∧
  (∀ (s : State) (rid dev target : Nat) (R : Region), s.region? rid = some R → R.armed = true → (dev, target) ∈ R.probes →
    dev ≠ s.self →
    let s1 := s.putRegion { R with probes := delFirst (· == (dev, target)) R.probes }
    exec (.probeAnswer rid dev target) s = .next
      { s1 with links := { s1.links with answers := delFirst (· == (dev, rid, target)) s1.links.answers } }) ∧
  (∀ (s : State) (tree inst : Nat) (x : Inst), s.inst? tree inst = some x → x.out = none → x.up = false →
    (∀ (a : Nat × Fmt × BitVec 2 × List W32 × Bool), treeInputs (s.tree tree) = [a.1] → x.inputs = [a] →
      exec (.nredCombine tree inst) s = .next (dispatchAll (outcomeHere s tree inst (.contribution tree inst a.2.2.1 a.2.1 a.2.2.2.1 a.2.2.2.2)
        (.ok (a.2.2.2.1, a.2.2.2.2))))) ∧
    (0 < (s.tree tree).deadline.toNat → x.first + (s.tree tree).deadline.toNat * Config.microsecond ≤ s.cycle →
      (∃ p ∈ treeInputs (s.tree tree), ∀ q ∈ x.inputs, q.1 ≠ p) →
      exec (.nredDeadline tree inst) s = .next (dispatchAll (failInst s x 1)))) ∧
  (∀ (s : State) (port : Nat) (peer : BitVec 20) (x : Port), s.links.ports[port]? = some x → x.up = false →
    exec (.portUpChange port true peer) s = .next (dispatchAll (pendMachine { s with links := { s.links with
      ports := modNth s.links.ports port fun x => { x with up := true, peer := peer, known := true } } } 17)))

/-! ### Page walks, the Yard's events -/

/-- R287, R288, R290: a walk that finds its page puts the translation into the TLB that asked; on an absent page the asker parks and
its report is queued. -/
def Obligations.PageWalkCompletes : Prop :=
  ∀ (s : State) (w : Walk) (ws : List Walk) (R : Region), s.walks = w :: ws → s.region? w.rid = some R → R.wants w = true →
    let s0 := { s with walks := ws }
    (∀ t, walkVa s R.cfg.rt w.va w.rd w.wr = .page t → exec (.pageWalkComplete 0) s = .next (s0.putRegion (R.translated w t))) ∧
    (walkVa s R.cfg.rt w.va w.rd w.wr = .absent → exec (.pageWalkComplete 0) s = .next
      (queueReport s0 (R.park w) { unit := w.unit, acc := w.acc, va := w.va, write := w.wr, reported := false }))

/-- R31, R33, R133, R379 to R382, R386, R392, R422: the events that carry a region through its life: its dies acknowledge its
configuration, its sources are released, its halt is complete, a drain ends with LINKDOWN, its pages are given up, an EVICTED
region is restored; and a killed region with nothing left to be acknowledged gives up its pages and its id. -/
def Obligations.YardEventsComplete : Prop :=
  (∀ (s : State) (rid : Nat) (R : Region), s.region? rid = some R → R.killing = false → R.aside = false → R.roll = none → R.errand = none →
    (∀ die, R.loading = true → R.dies = [die] →
      let R1 := { R with acks := setAdd R.acks die, loading := false, st := .loaded }
      exec (.dieConfigAck rid die) s = .next (retireStalls (adoptWaiting (s.putRegion R1) rid) rid [.load] 0x00)) ∧
    (R.armed = true → R.st = .loaded → R.dep = none → R.probes = [] → R.treesReady s = true → s.boot.thermtrip = false →
      (∀ d ∈ R.dies, d ∈ R.acks) →
      exec (.sourceRelease rid) s = .next
        (s.putRegion { R with st := .running, armed := false, dep := none, released := true, since := s.cycle })) ∧
    (R.st = .running → R.halting = true → R.halted s.cycle = true →
      exec (.freezeHaltReport rid) s = .next (retireStalls (s.putRegion { R with st := .frozen }) rid [.freeze] 0x00)) ∧
    (∀ Q, R.st = .frozen → R.draining = true → R.enginesDone s = true → R.unacked.any (·.stuck s) = true →
      (quiesceRegion s R).region? rid = some Q → Q.errand = none → R.rid = rid →
      exec (.drainLinkdown rid) s = .next (retireStalls ((quiesceRegion s R).putRegion
        { Q with draining := false, halting := Q.fault.isNone }) rid [.drain] 0x0E)) ∧
    (s.yard.poolSize ≠ 0#32 → allocWaits s = false → errandsOpen s = false → s.yard.restoring = none → R.oneSlice = true →
      R.idleRun = true → noStall s rid = true → R.since + s.yard.sliceCycles ≤ s.cycle → restoreOrder s ≠ [] →
      exec (.yardSliceExpiry rid) s = .next (startEvictions s ((withPartner s R).map (·.rid)))) ∧
    (R.st = .evicted → s.yard.minwait ≠ 0#16 → allocWaits s = false → errandsOpen s = false → s.yard.restoring = none →
      R.since + s.yard.minwait.toNat * s.yard.sliceCycles ≤ s.cycle → (originFor s R).isSome = true →
      let s1 := s.putRegion { R with oneSlice := true }
      exec (.yardMinimumShare rid) s = .next { s1 with yard := { s1.yard with restoring := some rid } }) ∧
    (∀ x y, R.st = .evicted → R.backTo = .running → s.boot.thermtrip = false → allocWaits s = false → errandsOpen s = false →
      nextRestore s = some (R, x, y) → R.rid = rid → pagesDying s x y R.w R.h = false →
      let s1 := dropPool (s.putRegion { R.relocate x y with st := .running, since := s.cycle, backTo := .running }) rid
      exec (.yardRestore rid) s = .next (adoptWaiting (State.pend { s1 with yard := { s1.yard with restoring := none } } 4) rid))) ∧
  (∀ (s : State) (rid : Nat) (R : Region), s.region? rid = some R → R.killing = true → R.unacked = [] →
    exec (.killComplete rid) s = .next { s with regions := s.regions.filter fun Q => Q.rid != rid })

/-! ### Rounds, strikes, tests -/

/-- R96, R293, R354, R355, R359, R363, R364, R367: the oldest open round seals; from 288 cycles after its seal it is confirmed and not
before: its held egress is released in entry order, a pair's to the comparator, its sends may leave, its calls are queued, its exception-log
entries are appended, and what was kept for its rollback goes; a rollback takes its region back to
its last confirmed round and to the state it was in, the scrub of the covered area raising "state lost" for a word that no entry
restored; an error tag's round runs again; the primary's entry that the shadow matched is released, and one that differs faults both. (The
order of the log's entries is free, R122; how entries wait for the comparator's room is the model's choice, log entry 107.) -/
def Obligations.RoundEventsComplete : Prop :=
  (∀ (R : Region) (t : Nat) (n : BitVec 12), R.pair = none →
    let Q := R.confirm t n
    Q.conf = some n ∧ Q.held = R.held.filter (fun h => h.key.round != n) ∧
      Q.sends = R.sends.map (fun x => if x.st = .held && x.round = n then { x with st := .ready } else x) ∧
      Q.calls = R.calls.map (fun c => if c.st = .unconfirmed && c.tok.round = n then { c with st := .queued } else c) ∧
      Q.heldLog = R.heldLog.filter (fun e => e.round != n) ∧ (∀ x ∈ Q.replayed, x ≠ n) ∧
      ∀ U ∈ Q.units, ∀ m, U.eng = .mu m → (∀ e ∈ m.undo, e.round ≠ n) ∧ ∀ d ∈ m.dedup, d.key.round ≠ n) ∧
  ∀ (s : State) (rid : Nat) (R : Region), s.region? rid = some R → R.killing = false →
    (R.roll = none → R.st = .running → R.canSeal s.self R.openRound = true →
      exec (.roundSeal rid) s = .next (s.putRegion { R with seals := R.seals ++ [(R.openRound, s.cycle)] })) ∧
    (∀ n t rest, R.seals = (n, t) :: rest →
      (s.cycle < t + 288 ∨ R.roll.isSome = true ∨ R.deafPage s = true → exec (.roundConfirm rid) s = .next s) ∧
      (t + 288 ≤ s.cycle → R.roll = none → R.deafPage s = false → R.leaving = [] →
        let mine := R.held.filter fun h => h.key.round == n
        (R.pair = none → ∀ h ∈ mine, h.blocked s R.keyRid = false) →
        let s1 := if R.pair.isSome then s else mine.foldl R.release s
        let keep (k : Nat) (r : BitVec 12) : Bool :=
          !(k == R.keyRid && r == n && (R.partner? s).all fun Q => !newerThan Q.conf n)
        let shown := s1.home.prov.filter fun p => p.wrote && !keep p.rid p.round
        let s2 := shown.foldl (fun s p => breakResv s none (p.line * 64)) { s1 with home := { s1.home with prov := s1.home.prov.filter (fun p => keep p.rid p.round), dedup := s1.home.dedup.filter fun d => keep d.key.rid d.key.round } }
        let R1 := (((s2.region? rid).getD R).confirm s.ticks n).stampCalls s.ticks n
        let s3 := (s2.putRegion (if R.pair.isSome then { R1 with leaving := R.toComp n } else R1)).entered
        let s4 := if R1.calls.any (fun c => c.ready R1.calls && c.tok.round == n && c.came == s.ticks) then s3.pend 0 else s3
        exec (.roundConfirm rid) s = .next (dispatchAll (releaseOutcomes ((noteEos s4 rid).recheck rid))))) ∧
    (∀ x, R.roll = some x → R.badUndo x.c = none →
      let undone (Q : Region) : Bool := R.fault.isSome && Q.fault.isNone && x.back == .frozen
      let s1 := countRollback ((rollRegion s rid x.c false false).modRegion rid fun Q =>
        { Q with roll := none, st := if undone Q && !R.halting && !s.boot.thermtrip then .running else x.back })
      ∀ Q, s1.region? rid = some Q →
        (Q.scrub x.area = none → exec (.rollback rid) s = .next (s1.recheck rid)) ∧
        (∀ page w, Q.scrub x.area = some (page, w) →
          exec (.rollback rid) s = .next ((takeFault s1 rid (muFault page .stateLost w)).recheck rid))) ∧
    (∀ r f, R.errTags = [(r, f)] → R.live = true → r ∉ R.replayed →
      let c := if R.conf.isNone && r = 0#12 then none else some (r - 1#12)
      R.badUndo c = none → exec (.roundReplay rid) s = .next (((rollRegion s rid c true false).modRegion
        rid fun Q => { Q with replayed := Q.replayed ++ [r] }).recheck rid)) ∧
    (∀ r f, R.errTags = [(r, f)] → R.live = true → r ∈ R.replayed →
      exec (.roundReplay rid) s = .next (takeFault (s.putRegion { R with errTags := [] }) rid f)) ∧
    (∀ (c d : Comp) (cs : List Comp) (Q : Region), s.comp = c :: cs → c.rid = rid → R.partner? s = some Q →
      (s.comp.find? fun e => e.rid == Q.rid && e.round == c.round && e.item.sameKey c.item) = some d →
      (d.item.agrees c.item = true → c.primary = true → (∀ e ∈ s.comp, e.rid = rid → older e.round c.round = false) →
        s.mismatched R Q c.round = false → (∀ h, c.item = .line h → h.blocked s R.keyRid = false) →
        exec (.comparatorMatch 0) s = .next (releaseComp { s with comp := s.comp.filter fun e => e != c && e != d } c)) ∧
      (d.item.agrees c.item = false → exec (.comparatorMatch 0) s = .next
        (takeFault (takeFault s R.rid (R.keyFault c.item.key .redundancyMismatch)) Q.rid (Q.keyFault c.item.key .redundancyMismatch))))

/-- R96, R352, R353, R357, R358, R369: a strike report first confirms what is due; it is counted and recorded and rolls back every region it covers,
a save or a move of it being struck (R55) and a test of the struck cluster given up; during bring-up it is counted and no more. A strike cell whose
sensors all fail is marked deaf and a region leaves it; the in-field test withdraws the next cluster; a test that passes returns the cluster to
allocation, one that fails retires it for good, counts the failure and gives the regions set aside other pages. That NEXT skips retired clusters
and that a test is given up where the struck cell lies in its cluster are the model's reading (log entry 65). -/
def Obligations.StrikeEventsComplete : Prop :=
  (∀ (s : State) (die cx cy : Nat), die ≤ 1 → cx ≤ 7 → cy ≤ 7 →
    let s0 := s.regions.foldl (fun s R => confirmDue R.rid R.seals.length s) s
    let y : Yard := { s0.yard with reports := if s0.yard.reports = 0xFFFFFFFF#32 then 0xFFFFFFFF#32 else s0.yard.reports + 1#32, asaV := true, asaDie := BitVec.ofNat 1 die, asaCx := BitVec.ofNat 3 cx, asaCy := BitVec.ofNat 3 cy, asaCycle := BitVec.ofNat 32 s.cycle }
    ((∀ R ∈ s.regions, R.seals = []) → s0 = s) ∧
    (s.boot.step ≠ 9 → exec (.strikeReport die cx cy) s = .next { s0 with yard := y }) ∧
    (s.boot.step = 9 →
      let s2 := State.pend { s0 with yard := y } 5
      let s3 := if s2.yard.iftTest = some (16 * die + 4 * (cy / 2) + cx / 2) then abandonTest s2 else s2
      let s4 : State := { s3 with regions := s3.regions.map fun R => R.strike (coveredCells die cx cy) }
      exec (.strikeReport die cx cy) s = .next
        ((s4.regions.filter fun R => R.roll.isSome).foldl (fun s R => retireStalls s R.rid [.scan] 0x09) s4))) ∧
  (∀ (s : State) (die cx cy : Nat), cx ≤ 7 → cy ≤ 7 →
    exec (.asaSelfCheck 0 cx cy true) s = .next { s with yard := { s.yard with deaf0 := setBit s.yard.deaf0 (8 * cy + cx) true } } ∧
    exec (.asaSelfCheck 1 cx cy true) s = .next { s with yard := { s.yard with deaf1 := setBit s.yard.deaf1 (8 * cy + cx) true } } ∧
    exec (.asaSelfCheck die cx cy false) s = .next s) ∧
  (∀ (s : State) (rid x y : Nat) (R : Region), s.region? rid = some R → R.deafPage s = true → R.st = .running → R.killing = false →
    R.aside = false → R.errand = none → R.roll = none → R.loading = false → place s [rid] R.w R.h (some R) none = some (x, y) →
    pagesDying s x y R.w R.h = false → sharesBusy s (R.relocate x y) = false → exec (.deafCellMove rid) s = .next
      (s.putRegion { R with errand := some (.move x y .running false), halting := true, draining := true })) ∧
  (∀ (s : State) (k : Nat), nextCluster s.yard.iftRet s.yard.iftNext.toNat = some k → s.yard.iftTest = none →
    (∀ R ∈ s.regions, R.inCluster k = false) → exec .iftInterval s = .next { s with yard := { s.yard with iftTest := some k } }) ∧
  (∀ (s : State) (k : Nat), s.yard.iftTest = some k → (∀ R ∈ s.regions, R.inCluster k = true → R.aside = true) →
    let y (ret : BitVec 32) (fails : BitVec 16) : Yard :=
      { s.yard with iftTest := none, iftNext := BitVec.ofNat 8 ((nextCluster ret (k + 1)).getD 0), iftRet := ret, iftFails := fails }
    exec (.scanSelfTestDone true) s = .next (abandonTest { s with yard := y s.yard.iftRet s.yard.iftFails }) ∧
    (let s1 := { s with yard := y (s.yard.iftRet ||| BitVec.ofNat 32 (2 ^ k)) (s.yard.iftFails + 1#16) }
     exec (.scanSelfTestDone false) s = .next ((s1.byRid.filter Region.aside).foldl rehome (s1.pend 4))))

/-! ### Alarms, heat, resets -/

namespace Sys2Proof.Claim
open Machine

/-- What a warm reset leaves of a state and what it clears (R370, R440, R442, R444, R448, R459, R471, R474): the fuses, key slots 1 to 63, IFTRET and
the lines of memory that slot 0's key did not write last stay; slot 0 is empty and nothing is known of what its key wrote; no region, walk,
line of a home agent or entry of the pair comparator is left, and the harts, the Yard, the links, the TDIs and the rest of the Trust Engine
(nonce, permissions, lockdown, measurements, alarms, sessions) are as at reset. -/
def AfterWarmReset (s t : State) : Prop :=
  t.trust.fuses = s.trust.fuses ∧ (∀ i, 1 ≤ i → t.trust.keys[i]? = s.trust.keys[i]?) ∧ t.yard.iftRet = s.yard.iftRet ∧
    (∀ key a, Memory.wf s.mem = true → ownerOf s.owners (a / 64) ≠ some (s.slotKey 0) → memByte t key a = memByte s key a) ∧
    (∀ x, t.trust.keys[0]? = some x → x.v = false) ∧ (s.slotKey 0 ≠ 0 → ∀ o ∈ t.owners, o.key ≠ s.slotKey 0) ∧
    t.regions = [] ∧ t.walks = [] ∧ t.home = Home.reset ∧ t.comp = [] ∧ t.harts = List.replicate 16 Hart.reset ∧
    t.yard = { Yard.reset with iftRet := s.yard.iftRet } ∧ t.links = Links.reset ∧ t.tdis = List.replicate 64 Tdi.reset ∧
    t.trust = { Trust.reset with fuses := s.trust.fuses, keys := t.trust.keys, nextKey := s.trust.nextKey, nextSess := s.trust.nextSess } ∧
    t.boot = { step := 1, powerOn := false, lpddr := s.boot.lpddr, bootfail := none, thermtrip := false }

end Sys2Proof.Claim

/-- R437, R452, R453, R463, R465, R467 to R471, R474: what reaches the device from its sensors, its pins and its ports. A reset by RESET_N or by a
failed PWRGD leaves what AfterWarmReset says, and where a memory rail was lost no line of the device's memories reads as what was written;
power-on clears IFTRET and the keys too. A thermal trip writes no fault record (log entry 59), a debug access within the mask changes nothing
(log entry 71), and the sensors come as three maxima, of D0, D1 and DX (log entry 112): these are the model's choices. -/
def Obligations.DeviceEventsComplete : Prop :=
  ∀ (s : State),
    (∀ cls code, exec (.securityAlarm cls code) s = .next (raiseAlarm s cls code.toNat)) ∧
    exec .railGuardViolation s = .next (raiseAlarm s 0 1) ∧ exec .clockGuardViolation s = .next (raiseAlarm s 1 2) ∧
    exec .tamperEvent s = .next (raiseAlarm s 3 4) ∧ exec (.treHourlySelfTest false) s = .next (raiseAlarm s 5 6) ∧
    exec (.treHourlySelfTest true) s = .next s ∧
    (∀ b pa, b < 4 → bit s.trust.dbg.toNat b = true → exec (.debugAccess b pa) s = .next s) ∧
    (∀ b pa, bit s.trust.dbg.toNat b = false → exec (.debugAccess b pa) s = .next (raiseAlarm s 4 5)) ∧
    (∀ t0 t1 tx : BitVec 8, exec (.thermalUpdate (t0, t1) tx) s = .next { s with yard := { s.yard with
      tjmax := BitVec.ofNat 8 (max (max t0.toNat t1.toNat) tx.toNat)
      duty0 := dutyNext s.yard.tlim.toNat t0.toNat s.yard.duty0
      duty1 := dutyNext s.yard.tlim.toNat t1.toNat s.yard.duty1 } }) ∧
    exec .thermalTrip s = .next { s with regions := s.regions.map Region.trip, boot := { s.boot with thermtrip := true } } ∧
    (∀ R ∈ s.regions, R.trip.fault = R.fault ∧ (R.st = .running → R.roll = none → R.trip.st = .frozen)) ∧
    exec .resetNAssert s = .next (warmReset s) ∧ exec (.pwrgdFail false) s = .next (warmReset s) ∧
    exec (.pwrgdFail true) s = .next (forgetMemory (warmReset s)) ∧ AfterWarmReset s (warmReset s) ∧
    (∀ line, inDeviceMemory s (64 * line) = true → ownerOf (forgetMemory s).owners line = none) ∧
    (∀ a, inDeviceMemory s a = true → ∀ c ∈ (forgetMemory s).mem, c.1 ≠ a) ∧
    (∀ lpddr, s.boot.step = 1 → exec (.pwrgdAssert false lpddr) s = .next
      { s with boot := { s.boot with step := 2, powerOn := false, lpddr := lpddr } } ∧
      (let s1 := forgetMemory { s with boot := { s.boot with step := 2, powerOn := true, lpddr := lpddr } }
       exec (.pwrgdAssert true lpddr) s = .next { s1 with
         yard := { s1.yard with iftRet := 0#32 }, trust := { s1.trust with keys := Trust.reset.keys } })) ∧
    (s.boot.step = 2 → s.boot.bootfail = none →
      exec .pllLockTimeout s = .next { s with boot := { s.boot with bootfail := some (BitVec.ofNat 4 (8 + 2)) } } ∧
      (let s1 := extendMeas (measureDies (readFuses s)) 0 1 (bytes32 (Config.imageDigest 6))
       exec (.pllLock true true) s = .next { s1 with boot := { s1.boot with step := 6 } })) ∧
    (s.boot.step = 6 → s.boot.bootfail = none →
      exec (.memoryTrainingDone false true) s = .next { s with boot := { s.boot with bootfail := some (BitVec.ofNat 4 (8 + 6)) } } ∧
      (let key : KeySlot := { v := true, part := 0xFFFF#16, key := s.trust.nextKey, bits := Config.randomKey s.ticks }
       let s0 := if s.trust.lcs = 3 ∨ s.trust.lcs = 4 then forgetMemory s else s
       let s1 : State := { zeroFabric s0 with trust := { s.trust with keys := modNth s.trust.keys 0 (fun _ => key), nextKey := s.trust.nextKey + 1 } }
       let s2 := extendMeas s1 0 2 (bytes32 (Config.imageDigest 7))
       exec (.memoryTrainingDone true true) s = .next
         (State.modHart { s2 with boot := { s2.boot with step := 9 } } 0 fun H => { H with running := true, pc := Config.firmwareEntry })))

/-- R434, R436, R447, R449: an access of a TDI that runs reaches device memory under its partition's slot, one of the host's physical
function under slot 0, and a peer's access in a window of its own under the slot of its partition, slot 0 for partition 0xFFFF. -/
def Obligations.OutsideAccessesComplete : Prop :=
  ∀ (s u : State) (v : W64) (slot pa : Nat) (op : MemOp), inDeviceMemory s pa = true →
    (∀ (tdi : Nat) (t : Tdi), s.tdis[tdi]? = some t → t.st = .run → t.en = true → s.slotOf t.part = some slot →
      agentAccess s (16 + tdi) slot pa op = some (u, v) → exec (.hostMemoryAccess tdi pa op) s = .next u) ∧
    (s.tdis.length ≤ 64 → slot = 0 → agentAccess s 80 slot pa op = some (u, v) → exec (.hostMemoryAccess 64 pa op) s = .next u) ∧
    (∀ (q : PeerReq) (w : Nat), q.off = pa → q.op = op → partOn s q.port q.part = true →
      w < 16 → (∃ b d, mapGet s.links.windows w = some (true, b, d) ∧ d.toNat = q.dev) →
      (if q.part = 0xFFFF#16 then slot = 0 else s.slotOf q.part = some slot) → agentAccess s (81 + q.dev) slot pa op = some (u, v) → exec (.peerAccess q) s = .next u)

/-! ### SPDM and TDISP -/

/-- R443, R445 to R447: each SPDM request has its response: the version, the capabilities and the algorithms of Table 14-4, the digests and the chains of
the slots, each ending in the leaf that certifies its die's public key, responses signed with the identity key of the slot's die; what the responder does not
support it answers with UnsupportedRequest; a TDISP message moves its TDI. -/
def Obligations.SpdmRequestsComplete : Prop :=
  ∀ (s : State),
    exec .getVersion s = .next (answer s (.version 1 3)) ∧
    exec .getCapabilities s = .next (answer s (.capabilities false false false false 4096 65)) ∧
    exec .negotiateAlgorithms s = .next (answer s (.algorithms [.ecdsaP256, .sha256, .ecdheP256, .aes256gcm])) ∧
    (∀ c, exec (.spdmUnsupportedRequest c) s = .next (answer s (.error .unsupportedRequest))) ∧
    exec .getDigests s = .next
      (answer s (.digests [(0, digestOf (chainOf s 2)), (1, digestOf (chainOf s 0)), (2, digestOf (chainOf s 1))])) ∧
    (∀ slot off len d, slotDie slot = some d → exec (.getCertificate slot off len) s = .next
      (answer s (.certificate slot (((chainOf s d).drop off).take (min len 4096))))) ∧
    (∀ slot nonce d, slotDie slot = some d → s.identity = true →
      let sign (bs : List (Nat × BitVec 256)) := identitySign d (sha256 (signedBytes nonce bs)) s.ticks
      exec (.challenge slot nonce) s = .next
        (answer s (.challengeAuth slot nonce ((measurementBlocks s).map (·.2)) (sign (measurementBlocks s)))) ∧
      exec (.getMeasurements slot 255 nonce) s = .next (answer s (.measurements slot nonce (measurementBlocks s) (sign (measurementBlocks s)))) ∧
      exec (.getMeasurements slot 0 nonce) s = .next (answer s (.measurements slot nonce [] (sign [])))) ∧
    (∀ owner, s.identity = true → (∀ i, owner = some i → i < 64) → (∀ x ∈ s.trust.sessions, x.owner ≠ owner) →
      let x : Session := { id := s.trust.nextSess, owner := owner, finished := false, keyNo := 0 }
      exec (.keyExchange owner) s = .next (answer { s with trust := { s.trust with
        sessions := s.trust.sessions ++ [x], nextSess := s.trust.nextSess + 1 } } (.keyExchange x.id))) ∧
    (∀ id x, (s.trust.sessions.find? fun x => x.id == id && x.finished == false) = some x →
      exec (.finish id) s = .next (answer (modSession s x.id fun y => { y with finished := true }) (.finish id))) ∧
    (∀ id x, (s.trust.sessions.find? fun x => x.id == id && x.finished == true) = some x →
      exec (.heartbeat id) s = .next (answer s (.heartbeat id)) ∧
      exec (.keyUpdate id) s = .next (answer (modSession s x.id fun y => { y with keyNo := y.keyNo + 1 }) (.keyUpdate id)) ∧
      exec (.endSession id) s = .next (answer { s with trust := { s.trust with
        sessions := s.trust.sessions.filter fun y => y.id != x.id } } (.endSession id)) ∧
      (∀ t, t < 64 → x.owner = none ∨ x.owner = some t → exec (.vendorDefined id (.ideKeyProg t)) s = .next
        (answer { s with tdis := modNth s.tdis t fun T => { T with ide := true } } (.vendor id)))) ∧
    (∀ t T, s.tdis[t]? = some T →
      (T.st = .unlocked → exec (.lockInterface t) s = .next { s with tdis := modNth s.tdis t fun T => if T.st = .unlocked then { T with st := .locked, bound := true } else T }) ∧
      (T.st = .locked → exec (.startInterface t) s = .next { s with tdis := modNth s.tdis t fun T => if T.st = .locked then { T with st := .run } else T }) ∧
      exec (.stopInterface t) s = .next { s with tdis := modNth s.tdis t fun T => { T with st := .unlocked, bound := false, ide := false } } ∧
      (T.st = .run → exec (.tdiError t) s = .next { s with tdis := modNth s.tdis t fun T => if T.st = .locked ∨ T.st = .run then { T with st := .error } else T }))

namespace Sys2Proof.Claim
open Machine

/-- The Yard makes no move or test of the region, no earlier instruction for it waits and no SUBMIT runs: an instruction for it runs (R373,
R460). -/
abbrev Idle (s : State) (R : Region) : Prop :=
  R.aside = false ∧ (R.errand = none ∨ R.errand = some .evict) ∧ myTurn s R.rid = true ∧ submitRuns s = false

/-- A hart in S or M, outside lockdown, names `R` by the handle in a register (R373 to R375, R453). -/
abbrev Names (s : State) (handle : Nat) (R : Region) : Prop :=
  s.sm = true ∧ s.trust.lock = false ∧ s.named handle = some R ∧ Idle s R

end Sys2Proof.Claim

/-! ### The Yard's instructions -/

/-- R375, R377, R379 to R388: what each RGN instruction does in the state that it asks for: ALLOC without an image, where the Yard
finds pages, allocates them at the lowest free RID and returns the handle; LOAD checks and installs its image and waits for the
dies, START arms or resumes, FREEZE and DRAIN start and wait, SAVE writes the image, REST installs one, MOVE relocates (SAVE and MOVE in
one step, or where the turn is slow stalling until they are done, R55), KILL kills, PRIO sets the level and STAT returns the state word. -/
def Obligations.RegionInstructionsComplete : Prop :=
  (∀ (s : State) (d a t : BitVec 5) (R : Region),
    (Names s (s.x a).toNat R →
      (R.st = .loaded → s.x t = 0#64 → exec (.rgnStart d a t) s = .next (retStatus (s.putRegion (R.arm none)) d 0x00)) ∧
      (R.st = .quiesced → s.x t = 0#64 → s.boot.thermtrip = false → R.roll = none → R.errand = none →
        exec (.rgnStart d a t) s = .next (dispatchSends (retStatus (s.putRegion (R.resume s.cycle)) d 0x00) R.rid)) ∧
      (R.st = .running → R.errand = none →
        exec (.rgnFreeze d a) s = .next (stallOn (s.putRegion { R with halting := true }) R.rid d .freeze) ∧
        exec (.rgnDrain d a) s = .next (stallOn (s.putRegion { R with halting := true, draining := true }) R.rid d .drain)) ∧
      (∀ pa, R.st = .quiesced → R.roll = none → (s.x t).toNat % 4096 = 0 → s.operand .store (s.x t) R.imageLen = .ok pa →
        (s.turn.slow = false → exec (.rgnSave d a t) s = .next (retire (operandWrite pa 0 R.image s) d (resultWord 0 0 (2 ^ 16 * R.imgSize)))) ∧
        (s.turn.slow = true → exec (.rgnSave d a t) s = .next (stallOn s R.rid d .scan))) ∧
      (∀ x y, R.st = .quiesced → x < 64 → y < 32 → (s.x t).toNat = x + 2 ^ 8 * y → placeAt s [R.rid] R.w R.h none x y = true →
        (R.atOrigin x y).fits s.self = true → sharesBusy s (R.relocate x y) = false → R.roll = none → pagesDying s x y R.w R.h = false →
        (s.turn.slow = false → exec (.rgnMove d a t) s = .next (retStatus (s.putRegion (R.relocate x y)) d 0x00)) ∧
        (s.turn.slow = true → exec (.rgnMove d a t) s = .next (stallOn s R.rid d .scan))) ∧
      exec (.rgnKill d a) s = .next (retStatus (killRegion s R) d 0x00) ∧
      ((s.x t).toNat ≤ 11 → exec (.rgnPrio d a t) s = .next (retStatus (s.putRegion { R with prio := (s.x t).toNat }) d 0x00)) ∧
      (s.x t = 0#64 → exec (.rgnStat d a t) s = .next
        (retire (s.putRegion { R with rolled := false }) d (BitVec.ofNat 64 (R.statWord s.self)))) ∧
      (∀ b, R.st = .allocated → R.loading = false → (s.x t).toNat % 4096 = 0 → s.readImage (s.x t) [1] = .ok b → imageW b = R.w →
        imageH b = R.h →
        let P := { R with dev := s.self }
        (P.configured b).fits s.self = true → (P.configured b).loadFault s.self b false = none → sharesBusy s (P.configured b) = false →
        let Q := { P.ofImage s.cycle b (overflowByte s P b) with st := .quiesced, released := true, acks := P.dies }
        let id := s.links.nextId
        let sends := (List.range Q.sends.length).map fun i => let x := nth default Q.sends i; { x with pkt := { x.pkt with id := id + i } }
        let s1 := { s.putRegion { Q with sends := sends } with links := { s.links with nextId := id + sends.length } }
        exec (.rgnRest d a t) s = .next (retStatus (adoptWaiting (askHeld s1 { Q with sends := sends }) R.rid) d 0x00))) ∧
    (∀ b, (s.x a).toNat < 2 ^ 32 → Names s (s.x a).toNat R → R.st = .allocated → R.loading = false → (s.x t).toNat % 4096 = 0 →
      s.readImage (s.x t) [0] = .ok b → imageW b = R.w → imageH b = R.h →
      let P := { R with dev := s.self }
      (P.loadedFrom b).roles = true → (P.loadedFrom b).loadFault s.self b true = none → sharesBusy s (P.loadedFrom b) = false →
      exec (.rgnLoad d a t) s = .next
        (stallOn (s.putRegion { (P.loadedFrom b).drawKey s.ticks with loading := true, acks := [], pair := none }) R.rid d .load))) ∧
  (∀ (s : State) (d a t : BitVec 5) (rid x y : Nat), s.sm = true → s.trust.lock = false → s.x t = 0#64 →
    let v := (s.x a).toNat
    specOk v = true → myTurn s 2048 = true → submitRuns s = false → s.freeRid = some rid →
    findPages s (bits v 19 16) (bits v 7 0) (bits v 15 8) none (if bit v 21 then some (bits v 37 32, bits v 44 40) else none)
      (!bit v 20) = .at x y →
    let g := s.nextGen rid
    let R := { freshRegion rid g (bits v 19 16) x y (bits v 7 0) (bits v 15 8) with dev := s.self }
    exec (.rgnAlloc d a t) s = .next (retire { s with regions := s.regions ++ [R], yard := { s.yard with gens := mapPut s.yard.gens rid g } }
      d (resultWord 0 0 (2 ^ 16 * R.handle))))

/-! ### Calls, control and status registers -/

/-- R402 to R404, R437: CALL.TAKE writes the oldest ready call's block and returns OK, CALL.DONE answers the call its ticket names,
a TDI's write to its window queues a call. Which of the calls that came at one time is the oldest and that a host call's SEQ is the count
before it are the model's choices (log entry 66). -/
def Obligations.CallInstructionsComplete : Prop :=
  (∀ (s : State) (d a t : BitVec 5) (x : CallAt) (c : Call) (pa : Nat → Nat), s.sm = true → s.x t = 0#64 → (s.x a).toNat % 64 = 0 →
    oldestCall (s.allCalls.filter fun x => x.2.1.ready x.2.2) = some (x, c) → s.operand .store (s.x a) 64 = .ok pa →
    let n := s.yard.nextTicket
    let s1 := modCall (operandWrite pa 0 (callBlock s x c n) s) (fun c => { c with st := .taken, ticket := n }) x
    exec (.callTake d a t) s = .next (retStatus { s1 with yard := { s1.yard with nextTicket := (n + 1) % 2 ^ 32 } } d 0x00)) ∧
  (∀ (s : State) (d a : BitVec 5) (x : CallAt) (c : Call) (cs : List Call) (pa : Nat → Nat), s.sm = true →
    s.operand .load (s.x a) 64 = .ok pa → c.st = .taken → responseOk (s.bytesOf pa 64) = true →
    (s.allCalls.find? fun x => x.2.1.ticket == numAt (s.bytesOf pa 64) 0 4 && (x.2.1.st == .taken || x.2.1.st == .answered)) = some (x, c, cs) →
    exec (.callDone d a) s = .next (retStatus (respond s x c (s.bytesOf pa 64)) d 0x00)) ∧
  (∀ (s : State) (tdi : Nat) (v : BitVec 512), tdi < 64 → (nth Tdi.reset s.tdis tdi).st = .run → (nth Tdi.reset s.tdis tdi).en = true →
    ((nth Tdi.reset s.tdis tdi).calls.filter fun c => c.st == .queued).length < 64 →
    let T := nth Tdi.reset s.tdis tdi
    let byte (i : Nat) : Nat := bits v.toNat (8 * i + 7) (8 * i)
    byte 8 ≤ 7 → byte 9 ≤ 15 → byte 10 ≤ 1 → byte 11 ≤ 3 → bits v.toNat 127 96 = 0 → bits v.toNat 511 448 = 0 → bits v.toNat 447 384 % 64 = 0 →
    let tok : Token := { emptyToken with tag := BitVec.ofNat 64 v.toNat, seq := T.count, len := BitVec.ofNat 3 (byte 8), fmt := Fmt.ofCode (byte 9), e := words8 (bits v.toNat 383 128) }
    let c : Call := { ticket := 0, strong := bit v.toNat 80, queue := byte 11, tok := tok, unit := ⟨0, 0⟩, dest := noDest, key := default, raddr := bits v.toNat 447 384, st := .queued, came := s.ticks, kept := false, resp := none }
    let s1 := { s with tdis := modNth s.tdis tdi fun _ => { T with calls := T.calls ++ [c], count := T.count + 1#15 } }
    exec (.callwin tdi v) s = .next (if c.ready T.calls then s1.pend 0 else s1))

/-- R6, R88, R289, R406 to R411, R416, R417: the rows that a CSR access stands for, and the invalidation and the capability rewrite that end later. A
value of XPARK written back with REFUSE faults every access of the region parked on its page, first the one that its report named. The
cause and value of the trap, and how a hart's access reaches its address, are those of the RISC-V architectures that R372 names (log entry 2);
what a CSR write outside a field's range leaves (log entry 67) and how a hart's access meets reservations (log entry 77) are the model's choices. -/
def Obligations.RegisterRowsComplete : Prop :=
  ∀ (s : State),
    (∀ w, exec (.illegalInstruction w) s = .next (s.modHart s.me fun H => H.trap 2#64 (w.zeroExtend 64))) ∧
    (∀ d, s.sm = true → s.yard.xpark = [] → exec (.xparkPop d) s = .next (retire s d 0#64)) ∧
    (∀ d p rest, s.sm = true → s.yard.xpark = p :: rest → exec (.xparkPop d) s = .next
      (retire (queueUnreported { s with yard := { s.yard with xpark := rest, xpopped := s.yard.xpopped ++ [p] } }) d (xparkValue p))) ∧
    (∀ v : W64, s.sm = true → (s.yard.xpopped.find? fun p => v == xparkValue p ||| 0x4000000000000000#64) = none →
      exec (.xparkRefuse v) s = .next (retireNone s)) ∧
    (∀ (v : W64) p, s.sm = true → (s.yard.xpopped.find? fun p => v == xparkValue p ||| 0x4000000000000000#64) = some p →
      let s0 := { s with yard := { s.yard with xpopped := s.yard.xpopped.filter fun q => !(q.rid == p.rid && q.page == p.page) } }
      (s.region? p.rid = none → exec (.xparkRefuse v) s = .next (retireNone s0)) ∧
      (∀ R, s.region? p.rid = some R →
        let here := R.parked.filter fun q => q.va / 2 ^ 16 == p.page
        let first := here.filter fun q => q.unit == p.unit && q.acc == p.acc
        let rest := here.filter fun q => !(q.unit == p.unit && q.acc == p.acc)
        exec (.xparkRefuse v) s = .next (retireNone ((first ++ rest).foldl (fun s q => refuseParked s p.rid q) s0)))) ∧
    (∀ (v : W64) R, s.sm = true → s.yard.inval = none → s.named (v.toNat % 2 ^ 32) = some R → exec (.xinvcmd v) s = .next
      (retireNone { s with yard := { s.yard with inval := some (R.rid, s.yard.xinvVpn.toNat, bits v.toNat 62 32) } })) ∧
    (∀ rid vpn n R, s.yard.inval = some (rid, vpn, n) → s.region? rid = some R → R.units = [] → R.parked = [] →
      exec .invalidationComplete s = .next (State.putRegion { s with yard := { s.yard with inval := none } } R)) ∧
    (∀ (v : W64) R i, s.sm = true → s.capSel = some (R, i) → v.toNat % 256 = 0 → R.capOut i = 0 →
      let s1 := dispatchSends (s.putRegion ((R.setCapPending i none).setCap i v)) R.rid
      exec (.capdataWrite v) s = .next (retireNone { s1 with yard := { s1.yard with capErr := false, capLast := none } })) ∧
    (∀ rid i R v, s.region? rid = some R → R.capPending i = some v → R.capOut i = 0 → exec (.capabilityPendingApply rid i) s = .next
      (dispatchSends (s.putRegion ((R.setCapPending i none).setCap i v)) rid)) ∧
    (∀ (v : W64) s1, s.isM = true → lnkStore s v.toNat = some s1 →
      exec (.lnkdataWrite v) s = .next (retireNone { s1 with links := { s1.links with err := false } })) ∧
    (∀ (v : W64) R, s.sm = true → s.named (v.toNat / 2 ^ 32) = some R → R.st = .allocated →
      let s1 := adoptWaiting (s.putRegion { R with part := BitVec.ofNat 16 v.toNat }) R.rid
      exec (.partselWrite v) s = .next
        (retireNone { s1 with yard := { s1.yard with partHandle := BitVec.ofNat 32 (v.toNat / 2 ^ 32), partErr := false } })) ∧
    (∀ (csr : BitVec 12) (v : W64), s.csrOk csr.toNat = true → csr.toNat ∉ [0x5C4, 0x5C6, 0x5C8, 0x5CB, 0x7C3] →
      exec (.csrWrite csr v) s = .next (retireNone (yardWrite s csr.toNat v.toNat))) ∧
    (∀ (va : W64) (op : MemOp) pa s1 v, va.toNat % opBytes op = 0 →
      s.hartAddr (s.hart s.me) (s.hart s.me).dataPriv (if opWrites op then .store else .load) va.toNat (opBytes op) = .ok pa →
      agentAccess s s.me 0 pa op = some (s1, v) → exec (.ccHartMemoryAccess va op) s = .next (retire s1 (opDest op) v)) ∧
    (∀ h line since, 16 ≤ h → s.home.resv = [(h, line, since)] → since + 2 * Config.microsecond ≤ s.cycle →
      exec (.reservationExpiry h) s = .next { s with home := { s.home with resv := [] } })

/-! ### The Trust Engine's instructions -/

/-- R440, R442, R444, R448, R455 to R462: what each SEC instruction does in the mode and lifecycle state that allow it, when its turn has come at the
Trust Engine; until then its hart stalls. -/
def Obligations.SecInstructionsComplete : Prop :=
  (∀ (s : State) (d a t : BitVec 5), s.isM = true → s.trust.lcs ≠ 4 → myTurn s 2050 = false →
    ∀ i ∈ [Instr.secFuseBlow d a t, .secMeasRead d a t, .secMeasExtend d a t, .secWipeQuery d a t, .secWipe d a t, .secUnlkNonce d a t,
      .secUnlkSubmit d a t, .secUnlkClose d a t, .secAtst d a t], exec i s = .next (stallOn s 2050 d .again)) ∧
  ∀ (s : State) (d a t : BitVec 5), myTurn s 2050 = true →
    let v := (s.x a).toNat
    let n := (s.x t).toNat
    (s.isM = true → v < 64 → s.x t = 0#64 → exec (.secFuseRead d a t) s = .next (retire s d (resultWord 0 0 (s.fuse v).toNat))) ∧
    (s.isM = true → s.trust.lcs ≠ 4 → v < 64 → n < 2 ^ 32 → blowOk s v n = true →
      let word := nth 0#32 s.trust.fuses v ||| (BitVec.ofNat 32 n &&& Config.blown s.ticks)
      let s1 : State := { s with trust := { s.trust with fuses := modNth s.trust.fuses v fun _ => word } }
      exec (.secFuseBlow d a t) s = .next
        (retire s1 d (resultWord (if (s1.fuse v).toNat &&& n = n then 0x00 else 0x0D) 0 (s1.fuse v).toNat))) ∧
    (s.isM = true → s.trust.lcs ≠ 4 → measOk v n = true →
      let die := bits v 5 4
      let i := bits v 3 0
      (∀ pa, bit v 8 = false → s.operand .store (s.x t) 32 = .ok pa → exec (.secMeasRead d a t) s = .next
        (retire (operandWrite pa 0 (bytes32 (s.trust.measure die i)) s) d (resultWord 0 0 (nth 0 (nth [] s.trust.measCount die) i)))) ∧
      (∀ pa, bit v 8 = true → 3 ≤ i → i ≤ 6 → s.operand .load (s.x t) 32 = .ok pa →
        let s1 := extendMeas s die i ((List.range 32).map (s.operandByte pa))
        exec (.secMeasExtend d a t) s = .next (retire s1 d (resultWord 0 0 (nth 0 (nth [] s1.trust.measCount die) i))))) ∧
    (s.sm = true → s.trust.lcs ≠ 4 → s.trust.lock = false → wipeOk v n = true → bit v 6 = false →
      let i := bits v 5 0
      (bit v 7 = true → exec (.secWipeQuery d a t) s = .next (retire s d (resultWord 0 0 (slotValue s i)))) ∧
      (bit v 7 = false → bit n 0 = false → s.regions = [] →
        let s1 := eraseSlot s i
        exec (.secWipe d a t) s = .next (retire { s1 with trust := { s1.trust with
          keys := modNth s1.trust.keys i fun _ => { v := false, part := 0#16, key := 0 }, nextKey := s.trust.nextKey } } d
            (resultWord 0 0 (slotValue s i))))) ∧
    (s.isM = true → s.trust.lcs = 2 → s.trust.lock = false →
      (∀ pa, s.x a = 0#64 → n % 64 = 0 → s.operand .store (s.x t) 32 = .ok pa →
        let r := Config.randomBits s.ticks
        let s1 := operandWrite pa 0 (bytes32 r) s
        exec (.secUnlkNonce d a t) s = .next (retStatus { s1 with trust := { s1.trust with nonce := some r } } d 0x00)) ∧
      (∀ pa, s.x a = 1#64 → n % 64 = 0 → s.trust.ufail ≠ 3#2 → s.regions = [] → s.operand .load (s.x t) 192 = .ok pa →
        let b := s.bytesOf pa 192
        tokenFault s b = none → exec (.secUnlkSubmit d a t) s = .next (retire (unlock s b) d (resultWord 0 0 (numAt b 0x30 4)))) ∧
      (s.x a = 2#64 →
        let s1 := extendMeas s 0 7 (List.replicate 32 0xFF#8)
        exec (.secUnlkClose d a t) s = .next (retStatus { s1 with trust := { s1.trust with dbg := 0#16 } } d 0x00))) ∧
    (∀ pr pa, s.sm = true → s.trust.lcs ≠ 0 → s.trust.lcs ≠ 4 → v ≤ 2 → n % 64 = 0 → s.operand .load (s.x t) 32 = .ok pr →
      s.operand .store (s.x t) 384 = .ok pa →
      let count := nth 0 s.trust.reports v + 1
      let body := reportBody s v ((List.range 32).map (s.operandByte pr)) count
      let s1 := operandWrite pa 0 (body ++ sigBytes (identitySign v (sha256 body) s.ticks)) s
      exec (.secAtst d a t) s = .next
        (retire { s1 with trust := { s1.trust with reports := modNth s1.trust.reports v fun _ => count } } d (resultWord 0 0 count)))

/-! ### Words and instructions -/

namespace Sys2Proof.Claim
open Machine

/-- A word of 32 bits from the fields of Table 2-4: LEN, OP, FMT, IMM, M, D0. -/
def word0 (len : BitVec 2) (op : BitVec 8) (fmt : BitVec 4) (imm m : BitVec 1) (d0 : BitVec 16) : W32 :=
  len ++ op ++ fmt ++ imm ++ m ++ d0

/-- A word of a custom instruction from the fields of the R-type layout (R87). -/
def wordR (funct7 : BitVec 7) (rs2 rs1 : BitVec 5) (funct3 : BitVec 3) (rd : BitVec 5) (major : BitVec 7) : W32 :=
  funct7 ++ rs2 ++ rs1 ++ funct3 ++ rd ++ major

/-- The custom words of Table 2-20: funct7 and funct3 of the major opcodes 0b0001011 and 0b0101011, with rs2 = x0 where the
instruction leaves it unused. -/
def inTable220 (funct7 : BitVec 7) (rs2 : BitVec 5) (funct3 : BitVec 3) (major : BitVec 7) : Bool :=
  (major == 0b0001011#7 && funct3 == 0#3 && decide (funct7.toNat ≤ 0x0A) && (rs2 == 0#5 || !([0x03, 0x04, 0x08].contains funct7.toNat)))
    || (major == 0b0001011#7 && funct3 == 1#3 && (funct7 == 0#7 || (funct7 == 1#7 && rs2 == 0#5)))
    || (major == 0b0101011#7 && funct3 == 0#3 && decide (funct7.toNat ≤ 0x04))

/-- The opcodes of Tables 2-11 to 2-18; every other value is unassigned (R85). -/
def assigned (op : Nat) : Bool :=
  decide (op ≤ 0x21) || (decide (0x40 ≤ op) && decide (op ≤ 0x4D)) || (decide (0x50 ≤ op) && decide (op ≤ 0x54))
    || (decide (0x60 ≤ op) && decide (op ≤ 0x6A)) || (decide (0x70 ≤ op) && decide (op ≤ 0x85))
    || (decide (0x90 ≤ op) && decide (op ≤ 0x98)) || (decide (0xA0 ≤ op) && decide (op ≤ 0xB0))
    || (decide (0xC0 ≤ op) && decide (op ≤ 0xC6)) || (decide (0xD0 ≤ op) && decide (op ≤ 0xD6))
    || (decide (0xE0 ≤ op) && decide (op ≤ 0xEB)) || (decide (0xF0 ≤ op) && decide (op ≤ 0xF4))

end Sys2Proof.Claim

/-- Table 2-4, R73, R87, R88: words put together field by field decode to the instructions they stand for; among them the example
of R88, `rgn.load a0, a1, a2` = 0x02C5_850B. -/
def Obligations.DecodeWords : Prop :=
  decodeFabric [word0 1#2 0x01#8 0#4 0#1 1#1 0x0004#16, 0xFFFF#16 ++ 0x0010#16]
      = .ok (.iadd { len := 1#2, fmt := .i32, imm := false, m := true, d0 := 0x0004#16, d1 := 0xFFFF#16, aux := 0x0010#16, lit := 0#32 })
  ∧ decodeFabric [word0 0#2 0x1D#8 1#4 0#1 0#1 0x4008#16]
      = .ok (.brev { len := 0#2, fmt := .n32, imm := false, m := false, d0 := 0x4008#16, d1 := 0xFFFF#16, aux := 0#16, lit := 0#32 })
  ∧ decodeFabric [word0 2#2 0x42#8 4#4 1#1 0#1 0x0008#16, 0xFFFF#16 ++ 0x0000#16, 0x40000000#32]
      = .ok (.fmul { len := 2#2, fmt := .f32, imm := true, m := false, d0 := 0x0008#16, d1 := 0xFFFF#16, aux := 0#16, lit := 0x40000000#32 })
  ∧ decodeFabric [word0 1#2 0x70#8 15#4 0#1 0#1 0x0008#16, 0x400C#16 ++ 0x0001#16]
      = .ok (.steer { len := 1#2, fmt := .raw, imm := false, m := false, d0 := 0x0008#16, d1 := 0x400C#16, aux := 1#16, lit := 0#32 })
  ∧ decodeFabric [word0 0#2 0x83#8 1#4 0#1 1#1 0x0004#16]
      = .ok (.taggetTag { len := 0#2, fmt := .n32, imm := false, m := true, d0 := 4#16, d1 := 0xFFFF#16, aux := 0#16, lit := 0#32 })
  ∧ decodeFabric [word0 0#2 0x90#8 4#4 0#1 0#1 0x0004#16]
      = .ok (.ex2 { len := 0#2, fmt := .f32, imm := false, m := false, d0 := 4#16, d1 := 0xFFFF#16, aux := 0#16, lit := 0#32 })
  ∧ decodeFabric [word0 2#2 0xA1#8 1#4 0#1 0#1 0x0004#16, 0xFFFF#16 ++ 0x0000#16, 0x0000003F#32]
      = .ok (.st { len := 2#2, fmt := .n32, imm := false, m := false, d0 := 4#16, d1 := 0xFFFF#16, aux := 0#16, lit := 0x3F#32 })
  ∧ decodeFabric [word0 1#2 0xC0#8 1#4 0#1 0#1 0x0004#16, 0xFFFF#16 ++ 0x0400#16]
      = .ok (.sload { len := 1#2, fmt := .n32, imm := false, m := false, d0 := 4#16, d1 := 0xFFFF#16, aux := 0x400#16, lit := 0#32 })
  ∧ decodeFabric [word0 2#2 0xD0#8 5#4 0#1 0#1 0x0004#16, 0xFFFF#16 ++ 0x0002#16, 0x00000007#32]
      = .ok (.mma { len := 2#2, fmt := .bf16x2, imm := false, m := false, d0 := 4#16, d1 := 0xFFFF#16, aux := 2#16, lit := 7#32 })
  ∧ decodeFabric [word0 1#2 0xE1#8 1#4 0#1 0#1 0x0004#16, 0xFFFF#16 ++ 0x0321#16]
      = .ok (.sand { len := 1#2, fmt := .n32, imm := false, m := false, d0 := 4#16, d1 := 0xFFFF#16, aux := 0x321#16, lit := 0#32 })
  ∧ decodeFabric [word0 2#2 0xF0#8 1#4 0#1 0#1 0x0004#16, 0x0008#16 ++ 0x0000#16, 0x00000005#32]
      = .ok (.send { len := 2#2, fmt := .n32, imm := false, m := false, d0 := 4#16, d1 := 8#16, aux := 0#16, lit := 5#32 })
  ∧ wordR 0b0000001#7 12#5 11#5 0#3 10#5 0b0001011#7 = 0x02C5850B#32
  ∧ decodeCustom 0x02C5850B#32 = .ok (.rgnLoad 10#5 11#5 12#5)
  ∧ decodeCustom (wordR 1#7 0#5 3#5 1#3 4#5 0b0001011#7) = .ok (.callDone 4#5 3#5)
  ∧ decodeCustom (wordR 4#7 6#5 5#5 0#3 7#5 0b0101011#7) = .ok (.secAtst 7#5 5#5 6#5)

/-- R72 to R76, R87: the words that encode a well-formed instruction decode to it, every field at every value; an instruction
whose word its registers' values tell apart (R456 to R459) is the one that `refine` chooses for some such values. -/
def Obligations.DecodeEncode : Prop :=
  ∀ i : Instr, Laws.RoundTrip.Statement i ∧ ∃ a b : W64, refine (Laws.firstVariant i) a b = i

/-- R72, R73, R85, R87, R88: the converse: words that decode to a record are those that encode it; a word of LEN 11, an unassigned
opcode, a record cut short and a custom word outside Table 2-20 decode to no instruction, and a custom word inside it to the
instruction that encodes it. -/
def Obligations.EncodeDecode : Prop :=
  (∀ (ws : List W32) (i : Instr) (w0 : W32), decodeFabric ws = .ok i → ws.head? = some w0 → ws.length = (wordLen w0).toNat + 1 → encode i = ws) ∧
  (∀ (w0 : W32) (t : List W32), wordLen w0 = 3#2 → ∀ i, decodeFabric (w0 :: t) ≠ .ok i) ∧
  (∀ (w0 : W32) (t : List W32), t.length < (wordLen w0).toNat → decodeFabric (w0 :: t) = .error .truncated) ∧
  (∀ (w0 : W32) (t : List W32), wordLen w0 ≠ 3#2 → (wordLen w0).toNat ≤ t.length →
    (assigned (wordOp w0).toNat = false → decodeFabric (w0 :: t) = .error (.unassignedOpcode (wordOp w0))) ∧
    (assigned (wordOp w0).toNat = true → ∃ i, decodeFabric (w0 :: t) = .ok i)) ∧
  (∀ (f7 : BitVec 7) (b a : BitVec 5) (f3 : BitVec 3) (d : BitVec 5) (major : BitVec 7),
    let w := wordR f7 b a f3 d major
    (inTable220 f7 b f3 major = true → ∃ i, decodeCustom w = .ok i ∧ encode i = [w]) ∧
    (inTable220 f7 b f3 major = false → decodeCustom w = .error (.illegalCustom w)))

/-! ### The step -/

/-- R8, R9, R35, R72, R372 (and the log entry on turns): a step begins the next turn, what the last cycle settled in place and the turn's
inputs from outside made, and a hart runs the instruction at its pc, the head of a queue the record that its NODE names, a SOURCE its
record, an event itself. R126, R128, R290: a head whose record an uncorrectable error has struck freezes its region with "record error", and
one whose slot behind the overflow pointer does not translate faults or is reported as parked. -/
def Obligations.StepRunsDecoded : Prop :=
  ∀ (s t : State), t = s.beginTurn →
    (let u := s.nextTurn
     let s1 := { s.settled.spill.alarmsDue with turn := u, sched := s.sched.drop 1, cycle := s.cycle + u.dt, ticks := s.ticks + 1 }
     t = ((u.chstat.foldl (fun s w => s.setChstat w.1 w.2) s1).ipis u.ipi).upsets 0 u.upsets) ∧
    (∀ x xs, s.sched = x :: xs → s.nextTurn = x) ∧
    (∀ h, t.turn.who = .hart h → h < 16 → t.boot.step = 9 → (t.hart h).running = true → (t.hart h).held = false →
      ((t.hart h).stall = none → t.yardIrq (t.hart h) = false ∧ (t.hart h).irq = none) →
      (∀ w i, t.fetchHart h = .ok (w, 4) → isCustom w = true → decodeCustom w = .ok i →
        step s = exec (refine i ((t.hart h).get (wordA w)) ((t.hart h).get (wordS w))) t) ∧
      (∀ w e, t.fetchHart h = .ok (w, 4) → isCustom w = true → decodeCustom w = .error e → step s = exec (.illegalInstruction w) t) ∧
      (∀ w, t.fetchHart h = .ok (w, 4) → isCustom w = false → step s = execBase ⟨w, 4, w⟩ t) ∧
      (∀ w x, t.fetchHart h = .ok (w, 2) → expand w.toNat = some x → step s = execBase ⟨x, 2, w⟩ t) ∧
      (∀ w, t.fetchHart h = .ok (w, 2) → expand w.toNat = none → step s = .next (t.modHart h fun H => H.trap 2#64 (w.zeroExtend 64))) ∧
      (∀ c v, c ≠ 0x8000000000000010#64 → t.fetchHart h = .error (c, v) → step s = .next (t.modHart h fun H => H.trap c v))) ∧
    (∀ h i, t.turn.who = .hartDoes h i → h < 16 → t.boot.step = 9 → (t.hart h).running = true → (t.hart h).stall = none → hartRow i = true →
      step s = exec i t) ∧
    (∀ rid u q x k op r i, t.turn.who = .take rid u q → t.boot.step = 9 → t.lateRegion = none → t.stopped = none → t.arrival = some (x, k, op, r) →
      decodeFabric (k.U.words k.node) = .ok i → step s = exec (rowOfHead k op r i) t) ∧
    (∀ rid u R U w r, t.turn.who = .source rid u → t.boot.step = 9 → t.lateRegion = none → t.stopped = none →
      t.region? rid = some R → R.unit? u = some U → U.source? = some (w, r) →
      step s = exec (.source r) t) ∧
    (∀ rid u q R U k, t.turn.who = .take rid u q → t.boot.step = 9 → t.region? rid = some R → R.live = true → R.unit? u = some U → u.pos ≤ 3 →
      R.takeAt t.cycle u q = some k → t.choice R U = some q →
      (k.U.recordBad k.node = true → step s = .next (takeFault t rid (mkFault k.u k.t.node k.t .recordError 0))) ∧
      (∀ va, t.headStop R k = some (.absent va) → step s = .next
        (queueReport t R { unit := headUnit k.u, acc := k.q, va := va, write := true, reported := false })) ∧
      (∀ c va, t.headStop R k = some (.fault c va) → step s = .next (takeFault t rid (mkVaFault k.u k.t.node k.t c va)))) ∧
    (∀ i, t.turn.who = .event i → eventRow i = true → t.boot.step = 9 ∨ bootRow i = true → t.lateRegion = none → step s = exec i t) ∧
    (∀ rid, t.lateRegion = some rid → ∀ u, runTurn (t.thawed rid) = .next u → step s = .next (t.onlyFault rid u))

/-- Every step of every state answers a next state: no instruction and no event stops the machine. -/
def Obligations.StepGoesOn : Prop := ∀ s : State, ∃ t, step s = .next t

/-- THE INVARIANT: every step keeps the canonical form of global memory (addresses strictly rising). -/
def Obligations.MemoryStaysCanonical : Prop :=
  ∀ s t : State, Memory.wf s.mem = true → step s = .next t → Memory.wf t.mem = true

/-- The invariant holds at reset. -/
def Obligations.ResetIsCanonical : Prop :=
  Memory.wf State.reset.mem = true ∧ State.reset.mem = [] ∧ State.reset.owners = []

/-- Tables 11-1 to 11-6, 12-11 to 12-17, 13-1, 13-3, 13-8, 14-7, 15-4, R440, R444, R448, R471: the values that the manual gives for reset (the
registers of a hart that RISC-V leaves open are the model's choice and are not stated here). -/
def Obligations.ResetValues : Prop :=
  let s := State.reset
  csrValue s 0x5C1 = 0 ∧ csrValue s 0x5C2 = 2 ^ 48 + 2 ^ 32 * 64 + 1000 ∧ csrValue s 0x5C3 = 2 ^ 16 * 1024 + 1024
  ∧ csrValue s 0x5C5 = 0 ∧ csrValue s 0x5C6 = 0 ∧ csrValue s 0x5C7 = 0 ∧ csrValue s 0x5CA = 2 ^ 40 * 95 + 2 ^ 32 * 110
  ∧ csrValue s 0x5CB = 0 ∧ csrValue s 0x5F1 = 0 ∧ csrValue s 0x5F2 = 0 ∧ csrValue s 0x5F4 = 0 ∧ csrValue s 0x5F5 = 0
  ∧ csrValue s 0x5F6 = 600 ∧ csrValue s 0x5F7 = 0 ∧ csrValue s 0x7C0 = 0 ∧ csrValue s 0x7C1 = 0 ∧ csrValue s 0x7C2 = 0
  ∧ s.yard.xpark = [] ∧ (∀ h, h < 16 → (s.hart h).rgnie = 0#6 ∧ (s.hart h).running = false ∧ (s.hart h).resv = none)
  ∧ s.boot.step = 1 ∧ s.regions = [] ∧ s.home = Home.reset ∧ s.walks = [] ∧ s.comp = []
  ∧ (∀ p, p < 16 → s.links.ports[p]? = some { up := false, en := true, role := if p < 12 then 1#2 else 2#2, dir := if p < 12 then BitVec.ofNat 3 (p / 2) else 0#3, peer := 0#20, drops := 0#16 })
  ∧ s.links.devid = 0#20 ∧ s.links.nxm = 0#7 ∧ s.links.nym = 0#6 ∧ s.links.nzm = 0#7 ∧ s.links.trees = [] ∧ s.links.windows = [] ∧ s.links.parts = []
  ∧ (∀ t, t < 64 → s.tdis[t]? = some Tdi.reset) ∧ Tdi.reset.st = .unlocked ∧ Tdi.reset.bound = false ∧ Tdi.reset.en = false
  ∧ (∀ w, w < 64 → s.fuse w = 0#32) ∧ (∀ d i, d < 3 → i < 8 → s.trust.measure d i = 0#256) ∧ (∀ p, s.slotOf p = none)
  ∧ s.trust.alarms = 0#8 ∧ s.trust.lastalm = 0#8 ∧ s.trust.lock = false ∧ s.trust.ufail = 0#2 ∧ s.trust.sessions = []

/-- R4, R449, R451: a byte written to global memory under a key reads back under it; no other byte changes for that key, and none
of another line for any key; in a slice of region SRAM a word written reads back and no other word changes. -/
def Obligations.MemoryReadsBack : Prop :=
  (∀ (s : State) (key a : Nat) (b : Byte), Memory.wf s.mem = true →
    memByte (memPut s key a b) key a = b ∧
    (∀ x, x ≠ a → memByte (memPut s key a b) key x = memByte s key x) ∧
    (∀ k x, x / 64 ≠ a / 64 → memByte (memPut s key a b) k x = memByte s k x)) ∧
  (∀ (m : List Host.Cell) (w : Nat) (v : W32), Sram.wf m = true →
    Sram.wf (sramSetWord m w v) = true ∧ sramWord (sramSetWord m w v) w = v ∧ ∀ x, x ≠ w → sramWord (sramSetWord m w v) x = sramWord m x)

/-! ### Traps and faults -/

namespace Sys2Proof.Claim
open Machine

/-- The illegal-instruction trap: the hart of the step takes it with its value, and nothing else changes. -/
def illegal (s : State) (tval : W32) : State := s.modHart s.me fun H => H.trap 2#64 (tval.zeroExtend 64)

/-- The privilege that Table 2-20 lists: M for SEC.FUSE and SEC.UNLK, S and M for every other custom instruction. -/
def listedAt (i : Instr) (p : Priv) : Bool :=
  match i with
  | .secFuseRead _ _ _ | .secFuseBlow _ _ _ | .secUnlkNonce _ _ _ | .secUnlkSubmit _ _ _ | .secUnlkClose _ _ _ => p == .m
  | _ => p != .u

/-- The CSRs of Table 12-10. -/
def table1210 (n : Nat) : Bool :=
  [0x5C0, 0x5C1, 0x5C2, 0x5C3, 0x5C4, 0x5C5, 0x5C6, 0x5C7, 0x5C8, 0x5C9, 0x5CA, 0x5CB, 0x5F0, 0x5F1, 0x5F2, 0x5F4, 0x5F5, 0x5F6, 0x5F7, 0x7C0,
    0x7C1, 0x7C2, 0x7C3].contains n

/-- The ranges of the device's CSRs (R88). -/
def deviceRange (n : Nat) : Prop := (0x5C0 ≤ n ∧ n ≤ 0x5FF) ∨ (0x7C0 ≤ n ∧ n ≤ 0x7FF)

/-- What a trap or a return writes in a hart that its target is M-mode. -/
def sameButTrapM (H T : Hart) : Prop :=
  { T with pc := H.pc, priv := H.priv, mstatus := H.mstatus, mepc := H.mepc, mcause := H.mcause, mtval := H.mtval, stall := H.stall } = H

/-- What a trap or a return writes in a hart that its target is S-mode. -/
def sameButTrapS (H T : Hart) : Prop :=
  { T with pc := H.pc, priv := H.priv, mstatus := H.mstatus, sepc := H.sepc, scause := H.scause, stval := H.stval, stall := H.stall } = H

end Sys2Proof.Claim

/-- R88: at a level that Table 2-20 does not list a custom instruction raises the illegal-instruction trap and changes no
state; so does any other word of the two major opcodes, and one with a nonzero unused rs2; so does an access to a CSR that Table 12-10
does not list, or to one of 0x7C0 to 0x7FF from below M-mode; no compressed form expands to a custom instruction. (The trap's own
registers are RISC-V's: log entry 2.) -/
def Obligations.IllegalInstructionsTrap : Prop :=
  (∀ (i : Instr) (w : W32) (s : State), (customOf i).isSome = true → encode i = [w] → listedAt i (s.hart s.me).priv = false →
    exec i s = .next (illegal s w)) ∧
  (∀ (f7 : BitVec 7) (b a : BitVec 5) (f3 : BitVec 3) (d : BitVec 5) (major : BitVec 7) (H : Hart) (s : State),
    major = 0b0001011#7 ∨ major = 0b0101011#7 → inTable220 f7 b f3 major = false →
    let w := wordR f7 b a f3 d major
    wordRow H w 4 = .run (.illegalInstruction w) ∧ exec (.illegalInstruction w) s = .next (illegal s w)) ∧
  (∀ (n : Nat) (s : State), deviceRange n → table1210 n = false ∨ (0x7C0 ≤ n ∧ (s.hart s.me).priv ≠ .m) →
    (∀ b : BaseWord, b.w.toNat % 128 = 0x73 → wF3 b.w % 4 ≠ 0 → wI12 b.w = n → execBase b s = .next (illegal s b.raw)) ∧
    (∀ v, exec (.csrWrite (BitVec.ofNat 12 n) v) s = .next (illegal s 0#32))) ∧
  (∀ (s : State) (v : W64) (d : BitVec 5), (s.hart s.me).priv ≠ .m → exec (.lnkdataWrite v) s = .next (illegal s 0#32) ∧
    ((s.hart s.me).priv = .u → exec (.xparkPop d) s = .next (illegal s 0#32) ∧ exec (.xparkRefuse v) s = .next (illegal s 0#32) ∧
      exec (.xinvcmd v) s = .next (illegal s 0#32) ∧ exec (.capdataWrite v) s = .next (illegal s 0#32) ∧
      exec (.partselWrite v) s = .next (illegal s 0#32))) ∧
  (∀ n x, expand n = some x → isCustom x = false) ∧
  wordR 0b0000001#7 12#5 11#5 0#3 10#5 0b0001011#7 = 0x02C5850B#32 ∧ decodeCustom 0x02C5850B#32 = .ok (.rgnLoad 10#5 11#5 12#5)

/-- The hart's trap and return (log entry 2: the RISC-V privileged architecture, which R372 names): the pc, the cause, the value and the
mode are saved, interrupts are disabled, the pc goes to the handler; the return restores the pc, the mode and the interrupt enable. -/
def Obligations.HartTrapsAndReturns : Prop :=
  ∀ (H : Hart) (code tval : W64),
    let n := (code &&& 0x3F#64).toNat
    let T := H.trap code tval
    let delegated := H.priv ≠ .m ∧ bit (if code.msb then H.mideleg else H.medeleg).toNat n = true
    (¬ delegated → T.priv = .m ∧ T.mepc = H.pc ∧ T.mcause = code ∧ T.mtval = tval ∧ bit T.mstatus.toNat 3 = false
      ∧ bit T.mstatus.toNat 7 = bit H.mstatus.toNat 3 ∧ bits T.mstatus.toNat 12 11 = H.priv.code ∧ sameButTrapM H T
      ∧ (code.msb = false → T.pc = H.mtvec &&& ~~~3#64)
      ∧ T.mret.pc = H.pc ∧ T.mret.priv = H.priv ∧ bit T.mret.mstatus.toNat 3 = bit H.mstatus.toNat 3) ∧
    (delegated → T.priv = .s ∧ T.sepc = H.pc ∧ T.scause = code ∧ T.stval = tval ∧ bit T.mstatus.toNat 1 = false
      ∧ bit T.mstatus.toNat 5 = bit H.mstatus.toNat 1 ∧ bit T.mstatus.toNat 8 = decide (H.priv = .s) ∧ sameButTrapS H T
      ∧ (code.msb = false → T.pc = H.stvec &&& ~~~3#64)
      ∧ T.sret.pc = H.pc ∧ T.sret.priv = H.priv ∧ bit T.sret.mstatus.toNat 1 = bit H.mstatus.toNat 1)

/-- R52, R389: a freezing fault takes its RUNNING region to FROZEN and writes its record if V is 0; a record already there is kept, but of several
sites that fault in one cycle the record of the one first in the order of R86 (and a security alarm's stands); no other region and nothing else but
the FAULT event bit changes. R380: the resume makes the region RUNNING and clears V. (Where a link gateway comes in R86's order: log entry 102.) -/
def Obligations.FreezingFaultFreezes : Prop :=
  (∀ (s : State) (rid : Nat) (f : FaultRec) (R : Region), s.region? rid = some R →
    let t := takeFault s rid f
    let kept : FaultRec := R.keptFault s.cycle f
    t.region? rid = some { R with st := if R.st = .running then .frozen else R.st, fault := some kept,
                                  faultAt := if R.fault = none then s.cycle else R.faultAt } ∧
    (R.fault = none → kept = f) ∧
    (∀ g, R.fault = some g → (R.faultAt ≠ s.cycle ∨ g.cause = .securityAlarm → kept = g) ∧
      (R.faultAt = s.cycle → g.cause ≠ .securityAlarm → kept = if f.rank < g.rank then f else g)) ∧
    (∀ q, q ≠ rid → t.region? q = s.region? q) ∧
    t = { s with regions := t.regions, yard := { s.yard with rgnip := s.yard.rgnip ||| 2#6 } } ∧
    (∀ now, (R.resume now).st = .running ∧ (R.resume now).fault = none ∧ (R.resume now).units = R.units
      ∧ (R.resume now).flights = R.flights ∧ (R.resume now).cfg = R.cfg)) ∧
  (∀ f g : FaultRec, f.page < 2048 → g.page < 2048 →
    (f.pos ≤ 3 → g.pos ≤ 3 → (f.rank < g.rank ↔ f.page < g.page ∨ f.page = g.page ∧ f.pos < g.pos)) ∧
    (f.pos ≤ 3 → 4 ≤ g.pos → f.rank < g.rank) ∧
    (f.pos = 5 → g.pos = 4 ∨ g.pos = 6 → f.rank < g.rank) ∧ (f.pos = 4 → g.pos = 6 → f.rank < g.rank))

/-! ### Alarms and lockdown -/

namespace Sys2Proof.Claim
open Machine

/-- What follows the freeze under a policy `p` (Table 14-6), and the report. -/
def AlarmDone (s t : State) (p : Nat) (code : BitVec 8) : Prop :=
  t.trust.lastalm = code ∧ t.trust.alarms = (if s.trust.alarms = 0xFF#8 then 0xFF#8 else s.trust.alarms + 1#8) ∧
    t.harts = s.harts.map (fun H => if bit H.mie.toNat 18 then { H with mip := setBit H.mip 18 true } else H) ∧
    (p = 0 → t.tdis = s.tdis ∧ t.mem = s.mem ∧ t.owners = s.owners ∧ t.trust.keys = s.trust.keys ∧ t.trust.lock = s.trust.lock) ∧
    (1 ≤ p → (∀ i k, 1 ≤ i → i ≤ 63 → t.trust.keys[i]? = some k → k.v = false) ∧ t.trust.keys[0]? = s.trust.keys[0]? ∧
      t.tdis = s.tdis.map (fun x => if x.st = .locked || x.st = .run then { x with st := .error, ide := false } else x)) ∧
    (p < 2 → t.trust.lock = s.trust.lock) ∧
    (2 ≤ p → t.trust.lock = true ∧ ∀ R ∈ t.regions, R.st ≠ .evicted → ∀ U ∈ R.units, U.elem = [] ∧ ∀ m, U.eng = .mu m → m.sram = [] ∧ m.fe = [])

end Sys2Proof.Claim

/-- R453: an alarm freezes every RUNNING region with its code in the record, one in a rollback at the rollback's end (R55). Then policies 01
and above erase key slots 1 to 63 and move every TDI in LOCKED or RUN to ERROR; 10 and 11 zero the fabric's memories (an EVICTED region has
none) and enter lockdown; the report sets LASTALM and ALARMS and makes machine interrupt 18 pending where mie[18] is set. Where a rollback is in
progress these actions wait until it has ended (the model's choice, log entry 114). -/
def Obligations.AlarmActs : Prop :=
  (∀ (s t : State) (cls : Nat) (code : BitVec 8), exec (.securityAlarm cls code) s = .next t →
    (∀ R ∈ s.regions, R.st = .running → R.roll = none →
      ∃ Q ∈ t.regions, Q.rid = R.rid ∧ Q.st = .frozen ∧ Q.fault = some (alarmRecord code.toNat)) ∧
    (∀ R ∈ s.regions, ∀ x, R.roll = some x → x.back = .running →
      ∃ Q ∈ t.regions, Q.rid = R.rid ∧ Q.roll = some { x with back := .frozen } ∧ Q.fault = some (alarmRecord code.toNat)) ∧
    ((∀ R ∈ s.regions, R.roll = none) → AlarmDone s t (s.policy cls) code) ∧
    (∀ R ∈ s.regions, R.roll.isSome = true → t.trust = { s.trust with due := s.trust.due ++ [(cls, code.toNat)] } ∧
      t.tdis = s.tdis ∧ t.mem = s.mem ∧ t.owners = s.owners ∧ t.harts = s.harts)) ∧
  (∀ (s : State) (cls : Nat) (code : BitVec 8), s.trust.due = [(cls, code.toNat)] →
    ((∀ R ∈ s.regions, R.roll = none) → AlarmDone s s.alarmsDue (s.policy cls) code ∧ s.alarmsDue.trust.due = []) ∧
    (∀ R ∈ s.regions, R.roll.isSome = true → s.alarmsDue = s))

/-- R453: in lockdown every RGN instruction other than RGN.STAT and RGN.KILL returns DENIED, and so do SEC.WIPE and SEC.UNLK when their turn has
come at the Trust Engine (R455). -/
def Obligations.LockdownDenies : Prop :=
  ∀ (s : State) (d a b : BitVec 5), s.trust.lock = true → s.sm = true →
    (∀ i ∈ [Instr.rgnAlloc d a b, .rgnLoad d a b, .rgnStart d a b, .rgnFreeze d a, .rgnDrain d a, .rgnSave d a b, .rgnRest d a b, .rgnMove d a b,
      .rgnPrio d a b], exec i s = .next (retStatus s d 0x0B)) ∧
    (myTurn s 2050 = true → ∀ i ∈ [Instr.secWipeQuery d a b, .secWipe d a b], exec i s = .next (retStatus s d 0x0B)) ∧
    (s.isM = true → myTurn s 2050 = true →
      ∀ i ∈ [Instr.secUnlkNonce d a b, .secUnlkSubmit d a b, .secUnlkClose d a b], exec i s = .next (retStatus s d 0x0B))

/-! ### Frames -/

namespace Sys2Proof.Claim
open Machine

/-- The destination register of an instruction of the CC: x0 where it has none. -/
def destOf : Instr → BitVec 5
  | .callTake d _ _ | .callDone d _ | .secFuseRead d _ _ | .secFuseBlow d _ _ | .secMeasRead d _ _ | .secMeasExtend d _ _
  | .secWipeQuery d _ _ | .secWipe d _ _ | .secUnlkNonce d _ _ | .secUnlkSubmit d _ _ | .secUnlkClose d _ _ | .secAtst d _ _ => d
  | .xparkPop d => d
  | .ccHartMemoryAccess _ op => opDest op
  | _ => 0#5

/-- The rows of the CC whose frame is stated: the calls, the Trust Engine's, the illegal-instruction trap, CSR accesses without a write of LNKDATA's
kind, and a hart's memory access. -/
def ccRow : Instr → Bool
  | .callTake _ _ _ | .secFuseRead _ _ _ | .secFuseBlow _ _ _ | .secMeasRead _ _ _ | .secMeasExtend _ _ _ | .secWipeQuery _ _ _
  | .secWipe _ _ _ | .secUnlkNonce _ _ _ | .secUnlkSubmit _ _ _ | .secUnlkClose _ _ _ | .secAtst _ _ _ | .illegalInstruction _
  | .xparkPop _ | .xinvcmd _ | .lnkdataWrite _ | .ccHartMemoryAccess _ _ => true
  | .csrWrite n _ => !([0x5C4, 0x5C8, 0x5CB].contains n.toNat)
  | _ => false

/-- Of these, the rows that store nothing to memory and erase nothing. -/
def storesNothing : Instr → Bool
  | .secFuseRead _ _ _ | .secFuseBlow _ _ _ | .secMeasExtend _ _ _ | .secWipeQuery _ _ _ | .secUnlkClose _ _ _ | .illegalInstruction _
  | .xparkPop _ | .xinvcmd _ | .lnkdataWrite _ | .csrWrite _ _ => true
  | .ccHartMemoryAccess _ op => !opWrites op
  | _ => false

/-- The operand that a storing instruction of the CC writes at its register's address, and its length in bytes. -/
def storeOperand (s : State) : Instr → Option (W64 × Nat)
  | .callTake _ a _ => some (s.x a, 64)
  | .secMeasRead _ _ b => some (s.x b, 32)
  | .secUnlkNonce _ _ b => some (s.x b, 32)
  | .secAtst _ _ b => some (s.x b, 384)
  | _ => none

end Sys2Proof.Claim

/-- R19, R52, R127 to R130, R170, R205, R269, R306, R330, R424: whatever becomes of the take of a record or of the emission of a SOURCE (a firing, a wait
or a fault), no hart, no byte of global memory, no other region, no link, no part of the Trust Engine changes; and a record of a cell or an MU but
MARK (R424) changes no byte and no full/empty bit of a slice when it is taken: its access is performed later. -/
def Obligations.FabricRecordsFrame : Prop :=
  ∀ (i : Instr) (s t : State), (opOf i).isSome = true ∨ headRow i = true → exec i s = .next t →
    (s.turnRegion = none → t = s) ∧
    (∀ rid, s.turnRegion = some rid → Safety.OnlyRegion rid s t ∧ t.walks = s.walks ∧ t.home = s.home ∧ t.linkRot = s.linkRot ∧
      ∀ op r page, opOf i = some (op, r) → op.toNat < 0xC0 → op ≠ 0x7D#8 → Safety.slice t rid page = Safety.slice s rid page)

/-- R19, R25, R82, R132, R179, R205, R215, R222, R227, R275 to R278, R304 to R317, R330: an event of a region's own changes no hart, no byte of
global memory, no other region, no link and no part of the Trust Engine. What a gateway passes can leave its Siding at once (R420): then, and
only then, the region's items that are ready leave after that by the one operation that lets them out, which changes no hart, no byte of memory
and no part of the Trust Engine either. -/
def Obligations.RegionEventsFrame : Prop :=
  ∀ (i : Instr) (s t : State) (rid : Nat), eventRegion i = some rid → exec i s = .next t →
    (Safety.OnlyRegion rid s t ∨
      ∃ k u, i = .gatewayPass rid k ∧ Safety.OnlyRegion rid s u ∧ t = dispatchSends u rid ∧ t.boot = s.boot ∧ t.cycle = s.cycle ∧ t.ticks = s.ticks
        ∧ t.turn = s.turn ∧ t.sched = s.sched ∧ t.harts = s.harts ∧ t.mem = s.mem ∧ t.owners = s.owners ∧ t.home = s.home ∧ t.comp = s.comp
        ∧ t.tdis = s.tdis ∧ t.trust = s.trust ∧ t.bad = s.bad)

/-- R373, R375, R402, R403, R440, R455 to R462 and the base architecture's registers (log entry 2): a row of the CC changes no integer register but its
destination, no floating register, and of the other harts no register and no mode; the form that stores writes the bytes of its operand alone, as key slot 0 reads them; the other
forms leave every byte. -/
def Obligations.HartRowsFrame : Prop :=
  ∀ (i : Instr) (s t : State), ccRow i = true → exec i s = .next t →
    (∀ r, r ≠ destOf i → (t.hart s.me).get r = (s.hart s.me).get r) ∧ (t.hart s.me).f = (s.hart s.me).f ∧
    (∀ h, h ≠ s.me → (t.hart h).x = (s.hart h).x ∧ (t.hart h).f = (s.hart h).f ∧ (t.hart h).pc = (s.hart h).pc
      ∧ (t.hart h).priv = (s.hart h).priv ∧ (t.hart h).mstatus = (s.hart h).mstatus) ∧
    (storesNothing i = true → t.mem = s.mem ∧ t.owners = s.owners) ∧
    (∀ va n, storeOperand s i = some (va, n) →
      (∀ pa a, Memory.wf s.mem = true → s.operand .store va n = .ok pa → (∀ j, j < n → pa j ≠ a) → memByte t (keyFor s 0 a) a = memByte s (keyFor s 0 a) a) ∧
      ((∀ pa, s.operand .store va n ≠ .ok pa) → t.mem = s.mem ∧ t.owners = s.owners)) ∧
    (∀ va op a, i = .ccHartMemoryAccess va op → wellFormed i = true → Memory.wf s.mem = true →
      (∀ pa, s.hartAddr (s.hart s.me) (s.hart s.me).dataPriv .store va.toNat (opBytes op) = .ok pa → a < pa ∨ pa + opBytes op ≤ a →
        memByte t (keyFor s 0 a) a = memByte s (keyFor s 0 a) a))
end

