-- ==== Sys2Proof/Laws/Region.lean ====
section
/-! SUPPORT. The operations on a region keep its identifier. -/

namespace Sys2Proof.Machine

/-- A fold of operations that keep something keeps it. -/
theorem foldl_keeps {α β γ : Type} (p : β → γ) (f : β → α → β) (hf : ∀ b a, p (f b a) = p b) (l : List α) (b : β) :
    p (l.foldl f b) = p b := by
  induction l generalizing b with
  | nil => rfl
  | cons x t ih => exact (ih _).trans (hf b x)

@[simp] theorem Region.modUnit_rid (R : Region) (u : UnitId) (f : Site → Site) : (R.modUnit u f).rid = R.rid := rfl
@[simp] theorem Region.putUnit_rid (R : Region) (U : Site) : (R.putUnit U).rid = R.rid := rfl
@[simp] theorem Region.modMu_rid (R : Region) (page : Nat) (f : Mu → Mu) : (R.modMu page f).rid = R.rid := rfl
@[simp] theorem Region.modStr_rid (R : Region) (u : UnitId) (f : Str → Str) : (R.modStr u f).rid = R.rid := rfl
@[simp] theorem Region.modMxi_rid (R : Region) (u : UnitId) (f : Mxi → Mxi) : (R.modMxi u f).rid = R.rid := rfl
@[simp] theorem Region.modSbe_rid (R : Region) (u : UnitId) (f : Sbe → Sbe) : (R.modSbe u f).rid = R.rid := rfl
@[simp] theorem Region.modAcc_rid (R : Region) (page id : Nat) (f : Access → Access) : (R.modAcc page id f).rid = R.rid := rfl
@[simp] theorem Region.modPool_rid (R : Region) (f : Pool → Pool) : (R.modPool f).rid = R.rid := rfl
@[simp] theorem Region.giveCredit_rid (R : Region) (o : UnitId) (r : Nat) : (R.giveCredit o r).rid = R.rid := rfl
@[simp] theorem Region.free_rid (R : Region) (o : UnitId) (r n : Nat) : (R.free o r n).rid = R.rid := rfl
@[simp] theorem Region.popOnly_rid (R : Region) (u : UnitId) (q : Nat) : (R.popOnly u q).rid = R.rid := rfl
@[simp] theorem Region.setSlots_rid (R : Region) (u : UnitId) (m : SMap Slot) : (R.setSlots u m).rid = R.rid := rfl
@[simp] theorem Region.enqueue_rid (R : Region) (u : UnitId) (q : Nat) (x : QTok) : (R.enqueue u q x).rid = R.rid := rfl
@[simp] theorem Region.dropMarkers_rid (R : Region) (u : UnitId) (n : Nat) (r : BitVec 12) : (R.dropMarkers u n r).rid = R.rid := rfl
@[simp] theorem Region.dropEos_rid (R : Region) (u : UnitId) (n : Nat) : (R.dropEos u n).rid = R.rid := rfl
@[simp] theorem Region.setCapOut_rid (R : Region) (i n : Nat) : (R.setCapOut i n).rid = R.rid := by unfold Region.setCapOut; repeat' split <;> rfl
@[simp] theorem Region.metAgain_rid (R : Region) (a : Access) : (R.metAgain a).rid = R.rid := rfl

@[simp] theorem Region.returnCredit_rid (R : Region) (o : UnitId) (r n : Nat) : (R.returnCredit o r n).rid = R.rid := by
  unfold Region.returnCredit; repeat' split
  all_goals simp

@[simp] theorem Region.launch_rid (R : Region) (now : Nat) (u : UnitId) (r : Nat) (t : Token) : (R.launch now u r t).rid = R.rid := by
  unfold Region.launch; split <;> simp

theorem Region.emitOut_rid {R R' : Region} {now : Nat} {u : UnitId} {o : Out} (h : R.emitOut now u o = some R') : R'.rid = R.rid := by
  unfold Region.emitOut at h
  split at h
  · cases h
  · simp only at h
    repeat' split at h
    all_goals cases h
    all_goals simp

theorem Region.emitNext_rid {R R' : Region} {now : Nat} {u : UnitId} (h : R.emitNext now u = some R') : R'.rid = R.rid := by
  unfold Region.emitNext at h
  split at h
  · cases h
  · obtain ⟨o, _, ho⟩ := List.exists_of_findSome?_eq_some h
    split at ho
    · exact Region.emitOut_rid ho
    · cases ho

@[simp] theorem Region.flushOut_rid (now : Nat) (u : UnitId) (n : Nat) (R : Region) : (Region.flushOut now u n R).rid = R.rid := by
  induction n generalizing R with
  | zero => rfl
  | succ n ih =>
    unfold Region.flushOut
    split
    · rfl
    · next R' h => rw [ih, Region.emitNext_rid h]

@[simp] theorem Region.sendReserved_rid (R : Region) (now : Nat) (u : UnitId) (es : Sends) : (R.sendReserved now u es).rid = R.rid := by
  simp [Region.sendReserved]
@[simp] theorem Region.sendNow_rid (R : Region) (now : Nat) (u : UnitId) (es : Sends) : (R.sendNow now u es).rid = R.rid := by
  simp [Region.sendNow]

theorem Region.logSeals_rid {R R' : Region} {u : UnitId} {r : BitVec 12} {l : List (Nat × Slot)} (h : R.logSeals u r l = some R') :
    R'.rid = R.rid := by
  unfold Region.logSeals at h
  repeat' split at h
  all_goals cases h
  all_goals simp

@[simp] theorem Region.countMarker_rid (R : Region) (u : UnitId) (n p : Nat) (r : BitVec 12) : (R.countMarker u n p r).rid = R.rid := by
  unfold Region.countMarker; split <;> rfl
@[simp] theorem Region.countEos_rid (R : Region) (u : UnitId) (n p : Nat) (r : BitVec 12) : (R.countEos u n p r).rid = R.rid := by
  unfold Region.countEos; split <;> rfl
@[simp] theorem Region.sinkTook_rid (R : Region) (k : Nat) (u : UnitId) (n : Nat) (r : BitVec 12) : (R.sinkTook k u n r).rid = R.rid := by
  unfold Region.sinkTook; split <;> rfl

@[simp] theorem Region.forwardRound_rid (R : Region) (u : UnitId) (n op : Nat) (r : Rec) (k : BitVec 12) :
    (R.forwardRound u n op r k).2.rid = R.rid := by
  unfold Region.forwardRound; split
  · rfl
  · simp only; repeat' split
    all_goals simp

@[simp] theorem Region.forwards_rid (R : Region) (u : UnitId) (n op : Nat) (r : Rec) (pre : Sends) : (R.forwards u n op r pre).2.rid = R.rid := by
  unfold Region.forwards
  split
  · rfl
  · split
    · rfl
    · simp only
      have key : ∀ (f : Sends × Region × Bool → BitVec 12 → Sends × Region × Bool) (l : List (BitVec 12)) (x : Sends × Region × Bool),
          (∀ x n, (f x n).2.1.rid = x.2.1.rid) → (l.foldl f x).2.1.rid = x.2.1.rid := fun f l x hf =>
        foldl_keeps (fun x => x.2.1.rid) f hf l x
      repeat' split
      all_goals simp
      all_goals exact key _ _ _ fun x n => by split <;> simp

@[simp] theorem Region.cfuSend_rid (R : Region) (now : Nat) (u : UnitId) (r op : Nat) (f : Fmt) (ds : List (BitVec 16)) (t : Token) :
    (R.cfuSend now u r op f ds t).rid = R.rid := by
  unfold Region.cfuSend; split <;> simp

@[simp] theorem Region.finish_rid (R : Region) (now page : Nat) (a : Access) (vs : List Nat) (l : Bool) : (R.finish now page a vs l).rid = R.rid := by
  unfold Region.finish; simp only; repeat' split
  all_goals simp [Region.raiseErr]

@[simp] theorem Region.wakeOne_rid (R : Region) (now page : Nat) (q : PortReq) : (R.wakeOne now page q).rid = R.rid := by
  unfold Region.wakeOne; repeat' split
  all_goals simp

@[simp] theorem Region.wakePasses_rid (now page n : Nat) (R : Region) : (Region.wakePasses now page n R).rid = R.rid := by
  induction n generalizing R with
  | zero => rfl
  | succ n ih => unfold Region.wakePasses; repeat' split
                 all_goals simp [ih]

@[simp] theorem Region.wake_rid (R : Region) (now page : Nat) : (R.wake now page).rid = R.rid := by simp [Region.wake]

@[simp] theorem Region.loseWaiters_rid (R : Region) (now page : Nat) (ws : List Nat) : (R.loseWaiters now page ws).rid = R.rid := by
  unfold Region.loseWaiters
  exact foldl_keeps Region.rid _ (fun R q => by repeat' split
                                                all_goals simp) _ R

@[simp] theorem Region.creditKeys_rid (R : Region) (now : Nat) (ks : List (Key × Bool)) : (R.creditKeys now ks).rid = R.rid := by
  unfold Region.creditKeys
  exact foldl_keeps Region.rid _ (fun R q => by simp only; repeat' split
                                                all_goals simp) _ R

theorem Region.engineWrite_rid {R R' : Region} {now : Nat} {r : BitVec 12} {ws : List (Nat × W32)}
    (h : R.engineWrite now r ws = some R') : R'.rid = R.rid := by
  unfold Region.engineWrite at h
  simp only at h
  split at h
  · cases h
  · cases h
    rw [foldl_keeps Region.rid _ (fun R p => by simp), foldl_keeps Region.rid _ (fun R p => by simp)]

@[simp] theorem Region.armAll_rid (R : Region) (now cp : Nat) (a : Access) : (R.armAll now cp a).rid = R.rid := by
  unfold Region.armAll; simp only; split
  · rfl
  · exact foldl_keeps Region.rid _ (fun R p => by split <;> simp) _ R

/-- What a slice access leaves has the identifier it began with. -/
def SliceRes.ridOk (rid : Nat) : SliceRes → Prop
  | .ok R => R.rid = rid
  | _ => True

theorem Region.performSlice_ridOk (R : Region) (now cp : Nat) (a : Access) (page : Nat) : (R.performSlice now cp a page).ridOk R.rid := by
  unfold Region.performSlice
  split
  · trivial
  · next m hm =>
    simp only
    split
    · repeat' split
      all_goals simp [SliceRes.ridOk]
    · split
      · split <;> simp [SliceRes.ridOk]
      · split
        · trivial
        · simp only [SliceRes.ridOk]
          repeat' split
          all_goals simp

theorem Region.performSlice_rid {R R' : Region} {now cp : Nat} {a : Access} {page : Nat}
    (h : R.performSlice now cp a page = .ok R') : R'.rid = R.rid := by
  have := R.performSlice_ridOk now cp a page
  rwa [h] at this

@[simp] theorem Region.holdWord_rid (R : Region) (sd va : Nat) (pa : Option Nat) (rel : Bool) (k : Key) (v : W32) : (R.holdWord sd va pa rel k v).rid = R.rid := by
  unfold Region.holdWord; simp only; repeat' split
  all_goals rfl
@[simp] theorem Region.holdRed_rid (R : Region) (sd va pa op : Nat) (f : Fmt) (o : W32) (k : Key) (vs : List W32) :
    (R.holdRed sd va pa op f o k vs).rid = R.rid := rfl

end Sys2Proof.Machine
end

