-- ==== Sys2Proof/Laws/State.lean ====
section
/-! SUPPORT. What each named update of the state leaves as it was, field by field. -/

namespace Sys2Proof.Machine

@[simp] theorem State.modRegion_boot (s : State) (rid : Nat) (f : Region → Region) : (s.modRegion rid f).boot = s.boot := rfl
@[simp] theorem State.modRegion_cycle (s : State) (rid : Nat) (f : Region → Region) : (s.modRegion rid f).cycle = s.cycle := rfl
@[simp] theorem State.modRegion_ticks (s : State) (rid : Nat) (f : Region → Region) : (s.modRegion rid f).ticks = s.ticks := rfl
@[simp] theorem State.modRegion_turn (s : State) (rid : Nat) (f : Region → Region) : (s.modRegion rid f).turn = s.turn := rfl
@[simp] theorem State.modRegion_sched (s : State) (rid : Nat) (f : Region → Region) : (s.modRegion rid f).sched = s.sched := rfl
@[simp] theorem State.modRegion_harts (s : State) (rid : Nat) (f : Region → Region) : (s.modRegion rid f).harts = s.harts := rfl
@[simp] theorem State.modRegion_mem (s : State) (rid : Nat) (f : Region → Region) : (s.modRegion rid f).mem = s.mem := rfl
@[simp] theorem State.modRegion_bad (s : State) (rid : Nat) (f : Region → Region) : (s.modRegion rid f).bad = s.bad := rfl
@[simp] theorem State.modRegion_owners (s : State) (rid : Nat) (f : Region → Region) : (s.modRegion rid f).owners = s.owners := rfl
@[simp] theorem State.modRegion_home (s : State) (rid : Nat) (f : Region → Region) : (s.modRegion rid f).home = s.home := rfl
@[simp] theorem State.modRegion_comp (s : State) (rid : Nat) (f : Region → Region) : (s.modRegion rid f).comp = s.comp := rfl
@[simp] theorem State.modRegion_walks (s : State) (rid : Nat) (f : Region → Region) : (s.modRegion rid f).walks = s.walks := rfl
@[simp] theorem State.modRegion_cfuRot (s : State) (rid : Nat) (f : Region → Region) : (s.modRegion rid f).cfuRot = s.cfuRot := rfl
@[simp] theorem State.modRegion_linkRot (s : State) (rid : Nat) (f : Region → Region) : (s.modRegion rid f).linkRot = s.linkRot := rfl
@[simp] theorem State.modRegion_yard (s : State) (rid : Nat) (f : Region → Region) : (s.modRegion rid f).yard = s.yard := rfl
@[simp] theorem State.modRegion_links (s : State) (rid : Nat) (f : Region → Region) : (s.modRegion rid f).links = s.links := rfl
@[simp] theorem State.modRegion_tdis (s : State) (rid : Nat) (f : Region → Region) : (s.modRegion rid f).tdis = s.tdis := rfl
@[simp] theorem State.modRegion_trust (s : State) (rid : Nat) (f : Region → Region) : (s.modRegion rid f).trust = s.trust := rfl

@[simp] theorem State.putRegion_boot (s : State) (R : Region) : (s.putRegion R).boot = s.boot := rfl
@[simp] theorem State.putRegion_cycle (s : State) (R : Region) : (s.putRegion R).cycle = s.cycle := rfl
@[simp] theorem State.putRegion_ticks (s : State) (R : Region) : (s.putRegion R).ticks = s.ticks := rfl
@[simp] theorem State.putRegion_turn (s : State) (R : Region) : (s.putRegion R).turn = s.turn := rfl
@[simp] theorem State.putRegion_sched (s : State) (R : Region) : (s.putRegion R).sched = s.sched := rfl
@[simp] theorem State.putRegion_harts (s : State) (R : Region) : (s.putRegion R).harts = s.harts := rfl
@[simp] theorem State.putRegion_mem (s : State) (R : Region) : (s.putRegion R).mem = s.mem := rfl
@[simp] theorem State.putRegion_bad (s : State) (R : Region) : (s.putRegion R).bad = s.bad := rfl
@[simp] theorem State.putRegion_owners (s : State) (R : Region) : (s.putRegion R).owners = s.owners := rfl
@[simp] theorem State.putRegion_home (s : State) (R : Region) : (s.putRegion R).home = s.home := rfl
@[simp] theorem State.putRegion_comp (s : State) (R : Region) : (s.putRegion R).comp = s.comp := rfl
@[simp] theorem State.putRegion_walks (s : State) (R : Region) : (s.putRegion R).walks = s.walks := rfl
@[simp] theorem State.putRegion_cfuRot (s : State) (R : Region) : (s.putRegion R).cfuRot = s.cfuRot := rfl
@[simp] theorem State.putRegion_linkRot (s : State) (R : Region) : (s.putRegion R).linkRot = s.linkRot := rfl
@[simp] theorem State.putRegion_yard (s : State) (R : Region) : (s.putRegion R).yard = s.yard := rfl
@[simp] theorem State.putRegion_links (s : State) (R : Region) : (s.putRegion R).links = s.links := rfl
@[simp] theorem State.putRegion_tdis (s : State) (R : Region) : (s.putRegion R).tdis = s.tdis := rfl
@[simp] theorem State.putRegion_trust (s : State) (R : Region) : (s.putRegion R).trust = s.trust := rfl

@[simp] theorem State.modHart_boot (s : State) (h : Nat) (f : Hart → Hart) : (s.modHart h f).boot = s.boot := rfl
@[simp] theorem State.modHart_cycle (s : State) (h : Nat) (f : Hart → Hart) : (s.modHart h f).cycle = s.cycle := rfl
@[simp] theorem State.modHart_ticks (s : State) (h : Nat) (f : Hart → Hart) : (s.modHart h f).ticks = s.ticks := rfl
@[simp] theorem State.modHart_turn (s : State) (h : Nat) (f : Hart → Hart) : (s.modHart h f).turn = s.turn := rfl
@[simp] theorem State.modHart_sched (s : State) (h : Nat) (f : Hart → Hart) : (s.modHart h f).sched = s.sched := rfl
@[simp] theorem State.modHart_regions (s : State) (h : Nat) (f : Hart → Hart) : (s.modHart h f).regions = s.regions := rfl
@[simp] theorem State.modHart_mem (s : State) (h : Nat) (f : Hart → Hart) : (s.modHart h f).mem = s.mem := rfl
@[simp] theorem State.modHart_bad (s : State) (h : Nat) (f : Hart → Hart) : (s.modHart h f).bad = s.bad := rfl
@[simp] theorem State.modHart_owners (s : State) (h : Nat) (f : Hart → Hart) : (s.modHart h f).owners = s.owners := rfl
@[simp] theorem State.modHart_home (s : State) (h : Nat) (f : Hart → Hart) : (s.modHart h f).home = s.home := rfl
@[simp] theorem State.modHart_comp (s : State) (h : Nat) (f : Hart → Hart) : (s.modHart h f).comp = s.comp := rfl
@[simp] theorem State.modHart_walks (s : State) (h : Nat) (f : Hart → Hart) : (s.modHart h f).walks = s.walks := rfl
@[simp] theorem State.modHart_cfuRot (s : State) (h : Nat) (f : Hart → Hart) : (s.modHart h f).cfuRot = s.cfuRot := rfl
@[simp] theorem State.modHart_linkRot (s : State) (h : Nat) (f : Hart → Hart) : (s.modHart h f).linkRot = s.linkRot := rfl
@[simp] theorem State.modHart_yard (s : State) (h : Nat) (f : Hart → Hart) : (s.modHart h f).yard = s.yard := rfl
@[simp] theorem State.modHart_links (s : State) (h : Nat) (f : Hart → Hart) : (s.modHart h f).links = s.links := rfl
@[simp] theorem State.modHart_tdis (s : State) (h : Nat) (f : Hart → Hart) : (s.modHart h f).tdis = s.tdis := rfl
@[simp] theorem State.modHart_trust (s : State) (h : Nat) (f : Hart → Hart) : (s.modHart h f).trust = s.trust := rfl

@[simp] theorem State.pend_boot (s : State) (n : Nat) : (s.pend n).boot = s.boot := rfl
@[simp] theorem State.pend_cycle (s : State) (n : Nat) : (s.pend n).cycle = s.cycle := rfl
@[simp] theorem State.pend_ticks (s : State) (n : Nat) : (s.pend n).ticks = s.ticks := rfl
@[simp] theorem State.pend_turn (s : State) (n : Nat) : (s.pend n).turn = s.turn := rfl
@[simp] theorem State.pend_sched (s : State) (n : Nat) : (s.pend n).sched = s.sched := rfl
@[simp] theorem State.pend_harts (s : State) (n : Nat) : (s.pend n).harts = s.harts := rfl
@[simp] theorem State.pend_regions (s : State) (n : Nat) : (s.pend n).regions = s.regions := rfl
@[simp] theorem State.pend_mem (s : State) (n : Nat) : (s.pend n).mem = s.mem := rfl
@[simp] theorem State.pend_bad (s : State) (n : Nat) : (s.pend n).bad = s.bad := rfl
@[simp] theorem State.pend_owners (s : State) (n : Nat) : (s.pend n).owners = s.owners := rfl
@[simp] theorem State.pend_home (s : State) (n : Nat) : (s.pend n).home = s.home := rfl
@[simp] theorem State.pend_comp (s : State) (n : Nat) : (s.pend n).comp = s.comp := rfl
@[simp] theorem State.pend_walks (s : State) (n : Nat) : (s.pend n).walks = s.walks := rfl
@[simp] theorem State.pend_cfuRot (s : State) (n : Nat) : (s.pend n).cfuRot = s.cfuRot := rfl
@[simp] theorem State.pend_linkRot (s : State) (n : Nat) : (s.pend n).linkRot = s.linkRot := rfl
@[simp] theorem State.pend_links (s : State) (n : Nat) : (s.pend n).links = s.links := rfl
@[simp] theorem State.pend_tdis (s : State) (n : Nat) : (s.pend n).tdis = s.tdis := rfl
@[simp] theorem State.pend_trust (s : State) (n : Nat) : (s.pend n).trust = s.trust := rfl

@[simp] theorem takeFault_boot (s : State) (rid : Nat) (f : FaultRec) : (takeFault s rid f).boot = s.boot := rfl
@[simp] theorem takeFault_cycle (s : State) (rid : Nat) (f : FaultRec) : (takeFault s rid f).cycle = s.cycle := rfl
@[simp] theorem takeFault_ticks (s : State) (rid : Nat) (f : FaultRec) : (takeFault s rid f).ticks = s.ticks := rfl
@[simp] theorem takeFault_turn (s : State) (rid : Nat) (f : FaultRec) : (takeFault s rid f).turn = s.turn := rfl
@[simp] theorem takeFault_sched (s : State) (rid : Nat) (f : FaultRec) : (takeFault s rid f).sched = s.sched := rfl
@[simp] theorem takeFault_harts (s : State) (rid : Nat) (f : FaultRec) : (takeFault s rid f).harts = s.harts := rfl
@[simp] theorem takeFault_mem (s : State) (rid : Nat) (f : FaultRec) : (takeFault s rid f).mem = s.mem := rfl
@[simp] theorem takeFault_bad (s : State) (rid : Nat) (f : FaultRec) : (takeFault s rid f).bad = s.bad := rfl
@[simp] theorem takeFault_owners (s : State) (rid : Nat) (f : FaultRec) : (takeFault s rid f).owners = s.owners := rfl
@[simp] theorem takeFault_home (s : State) (rid : Nat) (f : FaultRec) : (takeFault s rid f).home = s.home := rfl
@[simp] theorem takeFault_comp (s : State) (rid : Nat) (f : FaultRec) : (takeFault s rid f).comp = s.comp := rfl
@[simp] theorem takeFault_walks (s : State) (rid : Nat) (f : FaultRec) : (takeFault s rid f).walks = s.walks := rfl
@[simp] theorem takeFault_cfuRot (s : State) (rid : Nat) (f : FaultRec) : (takeFault s rid f).cfuRot = s.cfuRot := rfl
@[simp] theorem takeFault_linkRot (s : State) (rid : Nat) (f : FaultRec) : (takeFault s rid f).linkRot = s.linkRot := rfl
@[simp] theorem takeFault_links (s : State) (rid : Nat) (f : FaultRec) : (takeFault s rid f).links = s.links := rfl
@[simp] theorem takeFault_tdis (s : State) (rid : Nat) (f : FaultRec) : (takeFault s rid f).tdis = s.tdis := rfl
@[simp] theorem takeFault_trust (s : State) (rid : Nat) (f : FaultRec) : (takeFault s rid f).trust = s.trust := rfl

@[simp] theorem retire_boot (s : State) (d : BitVec 5) (v : W64) : (retire s d v).boot = s.boot := rfl
@[simp] theorem retire_cycle (s : State) (d : BitVec 5) (v : W64) : (retire s d v).cycle = s.cycle := rfl
@[simp] theorem retire_ticks (s : State) (d : BitVec 5) (v : W64) : (retire s d v).ticks = s.ticks := rfl
@[simp] theorem retire_turn (s : State) (d : BitVec 5) (v : W64) : (retire s d v).turn = s.turn := rfl
@[simp] theorem retire_sched (s : State) (d : BitVec 5) (v : W64) : (retire s d v).sched = s.sched := rfl
@[simp] theorem retire_regions (s : State) (d : BitVec 5) (v : W64) : (retire s d v).regions = s.regions := rfl
@[simp] theorem retire_mem (s : State) (d : BitVec 5) (v : W64) : (retire s d v).mem = s.mem := rfl
@[simp] theorem retire_bad (s : State) (d : BitVec 5) (v : W64) : (retire s d v).bad = s.bad := rfl
@[simp] theorem retire_owners (s : State) (d : BitVec 5) (v : W64) : (retire s d v).owners = s.owners := rfl
@[simp] theorem retire_home (s : State) (d : BitVec 5) (v : W64) : (retire s d v).home = s.home := rfl
@[simp] theorem retire_comp (s : State) (d : BitVec 5) (v : W64) : (retire s d v).comp = s.comp := rfl
@[simp] theorem retire_walks (s : State) (d : BitVec 5) (v : W64) : (retire s d v).walks = s.walks := rfl
@[simp] theorem retire_cfuRot (s : State) (d : BitVec 5) (v : W64) : (retire s d v).cfuRot = s.cfuRot := rfl
@[simp] theorem retire_linkRot (s : State) (d : BitVec 5) (v : W64) : (retire s d v).linkRot = s.linkRot := rfl
@[simp] theorem retire_yard (s : State) (d : BitVec 5) (v : W64) : (retire s d v).yard = s.yard := rfl
@[simp] theorem retire_links (s : State) (d : BitVec 5) (v : W64) : (retire s d v).links = s.links := rfl
@[simp] theorem retire_tdis (s : State) (d : BitVec 5) (v : W64) : (retire s d v).tdis = s.tdis := rfl
@[simp] theorem retire_trust (s : State) (d : BitVec 5) (v : W64) : (retire s d v).trust = s.trust := rfl

@[simp] theorem retireNone_boot (s : State) : (retireNone s).boot = s.boot := rfl
@[simp] theorem retireNone_cycle (s : State) : (retireNone s).cycle = s.cycle := rfl
@[simp] theorem retireNone_ticks (s : State) : (retireNone s).ticks = s.ticks := rfl
@[simp] theorem retireNone_turn (s : State) : (retireNone s).turn = s.turn := rfl
@[simp] theorem retireNone_sched (s : State) : (retireNone s).sched = s.sched := rfl
@[simp] theorem retireNone_regions (s : State) : (retireNone s).regions = s.regions := rfl
@[simp] theorem retireNone_mem (s : State) : (retireNone s).mem = s.mem := rfl
@[simp] theorem retireNone_bad (s : State) : (retireNone s).bad = s.bad := rfl
@[simp] theorem retireNone_owners (s : State) : (retireNone s).owners = s.owners := rfl
@[simp] theorem retireNone_home (s : State) : (retireNone s).home = s.home := rfl
@[simp] theorem retireNone_comp (s : State) : (retireNone s).comp = s.comp := rfl
@[simp] theorem retireNone_walks (s : State) : (retireNone s).walks = s.walks := rfl
@[simp] theorem retireNone_cfuRot (s : State) : (retireNone s).cfuRot = s.cfuRot := rfl
@[simp] theorem retireNone_linkRot (s : State) : (retireNone s).linkRot = s.linkRot := rfl
@[simp] theorem retireNone_yard (s : State) : (retireNone s).yard = s.yard := rfl
@[simp] theorem retireNone_links (s : State) : (retireNone s).links = s.links := rfl
@[simp] theorem retireNone_tdis (s : State) : (retireNone s).tdis = s.tdis := rfl
@[simp] theorem retireNone_trust (s : State) : (retireNone s).trust = s.trust := rfl

@[simp] theorem trapIllegal_boot (s : State) (w : W32) : (trapIllegal s w).boot = s.boot := rfl
@[simp] theorem trapIllegal_cycle (s : State) (w : W32) : (trapIllegal s w).cycle = s.cycle := rfl
@[simp] theorem trapIllegal_ticks (s : State) (w : W32) : (trapIllegal s w).ticks = s.ticks := rfl
@[simp] theorem trapIllegal_turn (s : State) (w : W32) : (trapIllegal s w).turn = s.turn := rfl
@[simp] theorem trapIllegal_sched (s : State) (w : W32) : (trapIllegal s w).sched = s.sched := rfl
@[simp] theorem trapIllegal_regions (s : State) (w : W32) : (trapIllegal s w).regions = s.regions := rfl
@[simp] theorem trapIllegal_mem (s : State) (w : W32) : (trapIllegal s w).mem = s.mem := rfl
@[simp] theorem trapIllegal_bad (s : State) (w : W32) : (trapIllegal s w).bad = s.bad := rfl
@[simp] theorem trapIllegal_owners (s : State) (w : W32) : (trapIllegal s w).owners = s.owners := rfl
@[simp] theorem trapIllegal_home (s : State) (w : W32) : (trapIllegal s w).home = s.home := rfl
@[simp] theorem trapIllegal_comp (s : State) (w : W32) : (trapIllegal s w).comp = s.comp := rfl
@[simp] theorem trapIllegal_walks (s : State) (w : W32) : (trapIllegal s w).walks = s.walks := rfl
@[simp] theorem trapIllegal_cfuRot (s : State) (w : W32) : (trapIllegal s w).cfuRot = s.cfuRot := rfl
@[simp] theorem trapIllegal_linkRot (s : State) (w : W32) : (trapIllegal s w).linkRot = s.linkRot := rfl
@[simp] theorem trapIllegal_yard (s : State) (w : W32) : (trapIllegal s w).yard = s.yard := rfl
@[simp] theorem trapIllegal_links (s : State) (w : W32) : (trapIllegal s w).links = s.links := rfl
@[simp] theorem trapIllegal_tdis (s : State) (w : W32) : (trapIllegal s w).tdis = s.tdis := rfl
@[simp] theorem trapIllegal_trust (s : State) (w : W32) : (trapIllegal s w).trust = s.trust := rfl

@[simp] theorem retStatus_boot (s : State) (d : BitVec 5) (n : Nat) : (retStatus s d n).boot = s.boot := rfl
@[simp] theorem retStatus_cycle (s : State) (d : BitVec 5) (n : Nat) : (retStatus s d n).cycle = s.cycle := rfl
@[simp] theorem retStatus_ticks (s : State) (d : BitVec 5) (n : Nat) : (retStatus s d n).ticks = s.ticks := rfl
@[simp] theorem retStatus_turn (s : State) (d : BitVec 5) (n : Nat) : (retStatus s d n).turn = s.turn := rfl
@[simp] theorem retStatus_sched (s : State) (d : BitVec 5) (n : Nat) : (retStatus s d n).sched = s.sched := rfl
@[simp] theorem retStatus_regions (s : State) (d : BitVec 5) (n : Nat) : (retStatus s d n).regions = s.regions := rfl
@[simp] theorem retStatus_mem (s : State) (d : BitVec 5) (n : Nat) : (retStatus s d n).mem = s.mem := rfl
@[simp] theorem retStatus_bad (s : State) (d : BitVec 5) (n : Nat) : (retStatus s d n).bad = s.bad := rfl
@[simp] theorem retStatus_owners (s : State) (d : BitVec 5) (n : Nat) : (retStatus s d n).owners = s.owners := rfl
@[simp] theorem retStatus_home (s : State) (d : BitVec 5) (n : Nat) : (retStatus s d n).home = s.home := rfl
@[simp] theorem retStatus_comp (s : State) (d : BitVec 5) (n : Nat) : (retStatus s d n).comp = s.comp := rfl
@[simp] theorem retStatus_walks (s : State) (d : BitVec 5) (n : Nat) : (retStatus s d n).walks = s.walks := rfl
@[simp] theorem retStatus_cfuRot (s : State) (d : BitVec 5) (n : Nat) : (retStatus s d n).cfuRot = s.cfuRot := rfl
@[simp] theorem retStatus_linkRot (s : State) (d : BitVec 5) (n : Nat) : (retStatus s d n).linkRot = s.linkRot := rfl
@[simp] theorem retStatus_yard (s : State) (d : BitVec 5) (n : Nat) : (retStatus s d n).yard = s.yard := rfl
@[simp] theorem retStatus_links (s : State) (d : BitVec 5) (n : Nat) : (retStatus s d n).links = s.links := rfl
@[simp] theorem retStatus_tdis (s : State) (d : BitVec 5) (n : Nat) : (retStatus s d n).tdis = s.tdis := rfl
@[simp] theorem retStatus_trust (s : State) (d : BitVec 5) (n : Nat) : (retStatus s d n).trust = s.trust := rfl

end Sys2Proof.Machine
end

