-- ==== Sys2Proof/Laws/Frame.lean ====
section
/-! SUPPORT. The shared operations of a region's step stay in its frame. -/

namespace Sys2Proof.Machine
open Safety

theorem only_refl (rid : Nat) (s : State) : OnlyRegion rid s s :=
  ⟨rfl, rfl, rfl, rfl, rfl, rfl, rfl, rfl, rfl, ⟨rfl, rfl⟩, rfl, rfl, rfl, rfl, rfl, rfl, rfl⟩

theorem only_trans {rid : Nat} {s t u : State} (h : OnlyRegion rid s t) (k : OnlyRegion rid t u) : OnlyRegion rid s u := by
  obtain ⟨h1, h2, h3, h4, h5, h6, h7, h8, h9, ⟨h10, h18⟩, h11, h12, h13, h14, h15, h16, h17⟩ := h
  obtain ⟨k1, k2, k3, k4, k5, k6, k7, k8, k9, ⟨k10, k18⟩, k11, k12, k13, k14, k15, k16, k17⟩ := k
  exact ⟨k1.trans h1, k2.trans h2, k3.trans h3, k4.trans h4, k5.trans h5, k6.trans h6, k7.trans h7, k8.trans h8, k9.trans h9,
    ⟨by rw [k10, h10], k18.trans h18⟩, k11.trans h11, k12.trans h12, by rw [k13, h13], by rw [k14, h14], k15.trans h15, k16.trans h16, k17.trans h17⟩

theorem filter_modFirst {α : Type} (p q : α → Bool) (f : α → α) (l : List α) (hp : ∀ a, p a = true → q a = false)
    (hf : ∀ a, p a = true → q (f a) = false) : (modFirst p f l).filter q = l.filter q := by
  induction l with
  | nil => rfl
  | cons a t ih =>
    simp only [modFirst]
    split
    · next h => simp [hp a h, hf a h]
    · simp [List.filter_cons, ih]

theorem only_modRegion (rid : Nat) (s : State) (f : Region → Region) (hf : ∀ R, R.rid = rid → (f R).rid = rid) :
    OnlyRegion rid s (s.modRegion rid f) := by
  refine ⟨?_, rfl, rfl, rfl, rfl, rfl, rfl, rfl, rfl, ⟨rfl, rfl⟩, rfl, rfl, rfl, rfl, rfl, rfl, rfl⟩
  exact filter_modFirst _ _ f s.regions (fun R h => by simpa using h) (fun R h => by simpa using hf R (by simpa using h))

theorem only_putRegion (rid : Nat) (s : State) (R : Region) (h : R.rid = rid) : OnlyRegion rid s (s.putRegion R) := by
  subst h
  exact only_modRegion R.rid s _ fun _ _ => rfl

theorem only_pend (rid : Nat) (s : State) (n : Nat) : OnlyRegion rid s (s.pend n) :=
  ⟨rfl, rfl, rfl, rfl, rfl, rfl, rfl, rfl, rfl, ⟨rfl, rfl⟩, rfl, rfl, rfl, rfl, rfl, rfl, rfl⟩

theorem only_takeFault (rid : Nat) (s : State) (f : FaultRec) : OnlyRegion rid s (takeFault s rid f) := by
  unfold takeFault
  refine only_trans (only_modRegion rid s _ ?_) (only_pend rid _ 1)
  intro R h; exact h

theorem only_askWalk (rid : Nat) (s : State) (w : Walk) : OnlyRegion rid s (askWalk s w) := by
  unfold askWalk; split
  · exact only_refl rid s
  · exact ⟨rfl, rfl, rfl, rfl, rfl, rfl, rfl, rfl, rfl, ⟨rfl, rfl⟩, rfl, rfl, rfl, rfl, rfl, rfl, rfl⟩

theorem only_nextId (rid : Nat) (s : State) (n : Nat) : OnlyRegion rid s { s with links := { s.links with nextId := n } } :=
  ⟨rfl, rfl, rfl, rfl, rfl, rfl, rfl, rfl, rfl, ⟨rfl, rfl⟩, rfl, rfl, rfl, rfl, rfl, rfl, rfl⟩

theorem only_linkRot (rid : Nat) (s : State) (m : SMap Nat) : OnlyRegion rid s { s with linkRot := m } :=
  ⟨rfl, rfl, rfl, rfl, rfl, rfl, rfl, rfl, rfl, ⟨rfl, rfl⟩, rfl, rfl, rfl, rfl, rfl, rfl, rfl⟩

theorem only_metLines (rid : Nat) (s : State) (R : Region) (a : Access) : OnlyRegion rid s (s.metLines R a) := by
  refine ⟨rfl, rfl, rfl, rfl, rfl, rfl, rfl, rfl, rfl, ⟨rfl, ?_⟩, rfl, rfl, rfl, rfl, rfl, rfl, rfl⟩
  simp only [State.metLines, List.map_map]
  refine List.map_congr_left fun p _ => ?_
  simp only [Function.comp_apply]
  split <;> rfl

/-- The region that has the identifier asked for. -/
theorem region?_rid {s : State} {rid : Nat} {R : Region} (h : s.region? rid = some R) : R.rid = rid := by
  have := List.find?_some h; simpa using this

theorem takeAt_rid {R : Region} {now : Nat} {u : UnitId} {q : Nat} {k : Take} (h : R.takeAt now u q = some k) : k.R.rid = R.rid := by
  unfold Region.takeAt at h
  split at h
  · cases h
  · simp only [Option.map_eq_some_iff] at h
    obtain ⟨U, _, rfl⟩ := h
    simp

/-- The take of a turn is of the region that the turn names. -/
theorem taking_rid {s : State} {rid : Nat} {k : Take} (h : s.taking = some (rid, k)) :
    k.R.rid = rid ∧ ∃ u q, s.turn.who = .take rid u q := by
  unfold State.taking at h
  split at h
  · next rid' u q hw =>
    split at h
    · cases h
    · next R hR =>
      split at h
      · cases h
      · split at h
        · next U k' _ hk =>
          split at h
          · cases h; exact ⟨(takeAt_rid hk).trans (region?_rid hR), u, q, hw⟩
          · cases h
        · cases h
  · cases h

theorem islandTaking_rid {s : State} {rid : Nat} {k : Take} (h : s.islandTaking = some (rid, k)) :
    k.R.rid = rid ∧ ∃ u q, s.turn.who = .take rid u q := by
  unfold State.islandTaking at h
  split at h
  · next rid' u q hw =>
    split at h
    · cases h
    · next R hR =>
      split at h
      · cases h
      · split at h
        · cases h
        · simp only [Option.map_eq_some_iff, Prod.mk.injEq] at h
          obtain ⟨U, _, rfl, rfl⟩ := h
          exact ⟨by simpa using region?_rid hR, u, q, hw⟩
  · cases h

/-- What a take comes to leaves its region's identifier. -/
def TRes.ridOk (rid : Nat) : TRes → Prop
  | .ok _ R => R.rid = rid
  | _ => True

/-- What a take of an MU comes to leaves its region's identifier. -/
def MRes.ridOk (rid : Nat) : MRes → Prop
  | .ok _ _ R => R.rid = rid
  | _ => True

theorem only_commitCell (s : State) (rid : Nat) (k : Take) (lat occ : Nat) (x : TRes) (h : x.ridOk rid) :
    OnlyRegion rid s (commitCell s rid k lat occ x) := by
  unfold commitCell
  repeat' split
  all_goals first
    | exact only_refl rid s
    | exact only_takeFault rid s _
    | exact only_putRegion rid s _ h

theorem only_commitMu (s : State) (rid : Nat) (k : Take) (x : MRes) (h : x.ridOk rid) : OnlyRegion rid s (commitMu s rid k x) := by
  unfold commitMu
  repeat' split
  all_goals first
    | exact only_refl rid s
    | exact only_takeFault rid s _
    | exact only_putRegion rid s _ (by simpa [MRes.ridOk] using h)

theorem only_commitIsland (s : State) (rid : Nat) (k : Take) (x : TRes) (h : x.ridOk rid) : OnlyRegion rid s (commitIsland s rid k x) := by
  unfold commitIsland
  repeat' split
  all_goals first
    | exact only_refl rid s
    | exact only_takeFault rid s _
    | exact only_putRegion rid s _ (by simpa [TRes.ridOk] using h)

theorem only_commitCfu (s : State) (rid : Nat) (k : Take) (op : Nat) (r : Rec) (x : TRes) (h : x.ridOk rid) :
    OnlyRegion rid s (commitCfu s rid k op r x) := by
  unfold commitCfu
  repeat' split
  all_goals first
    | exact only_refl rid s
    | exact only_takeFault rid s _
    | exact only_putRegion rid s _ ((foldl_keeps Region.rid _ (fun R p => by simp) _ _).trans h)

theorem ridOk_firing (k : Take) (op : Nat) (r : Rec) (f : List Operand → Region → TRes) (rid : Nat) (hk : k.R.rid = rid)
    (hf : ∀ ops R, R.rid = rid → (f ops R).ridOk rid) : (k.firing op r f).ridOk rid := by
  unfold Take.firing
  repeat' split
  all_goals first
    | trivial
    | exact hf _ _ hk
    | exact hf _ _ (by simpa using (Region.logSeals_rid (by assumption)).trans hk)

theorem ridOk_sendFiring (k : Take) (op : Nat) (r : Rec) (f : List Operand → Except Cause Sends) (rid : Nat) (hk : k.R.rid = rid) :
    (k.sendFiring op r f).ridOk rid :=
  ridOk_firing k op r _ rid hk fun ops R hR => by
    split
    · exact hR
    · trivial

/-- An ALU record's step changes its own region alone. -/
theorem only_aluExec (s : State) (op : Nat) (r : Rec) (c : Cost) (f : AluFn) (rid : Nat) (u : UnitId) (q : Nat) (hw : s.turn.who = .take rid u q) :
    OnlyRegion rid s (aluExec s op r c f) := by
  unfold aluExec
  split
  · exact only_refl rid s
  · next rid' k h =>
    obtain ⟨hk, u', q', hw'⟩ := taking_rid h
    rw [hw] at hw'; cases hw'
    split
    · exact only_refl rid s
    · exact only_commitCell s rid k _ _ _ (ridOk_sendFiring k op r _ rid hk)

end Sys2Proof.Machine
end

