-- ==== Sys2Proof/Laws/Memory.lean ====
section
/-! SUPPORT. Memory keeps its canonical form under every operation, and a byte written reads back. -/

namespace Sys2Proof.Machine

/-! ### Rising addresses -/

/-- Rising from a bound, said of the head: `none` bounds nothing. -/
theorem risesFrom_cons (lo : Option Nat) (c : Host.Cell) (t : List Host.Cell) :
    risesFrom lo (c :: t) = true ↔ (∀ l, lo = some l → l < c.1) ∧ risesFrom (some c.1) t = true := by
  obtain ⟨k, b⟩ := c
  cases lo <;> simp [risesFrom]

theorem risesFrom_weaken (lo lo' : Option Nat) (m : List Host.Cell) (h : risesFrom lo m = true)
    (hle : ∀ l, lo' = some l → ∃ k, lo = some k ∧ l ≤ k) : risesFrom lo' m = true := by
  cases m with
  | nil => cases lo' <;> rfl
  | cons c t =>
    rw [risesFrom_cons] at h ⊢
    refine ⟨fun l e => ?_, h.2⟩
    obtain ⟨k, hk, hl⟩ := hle l e
    exact Nat.lt_of_le_of_lt hl (h.1 k hk)

theorem risesFrom_cellPut (m : List Host.Cell) (lo : Option Nat) (a : Nat) (b : Byte) (h : risesFrom lo m = true)
    (ha : ∀ l, lo = some l → l < a) : risesFrom lo (cellPut m a b) = true := by
  induction m generalizing lo with
  | nil => cases lo <;> simp_all [cellPut, risesFrom]
  | cons c t ih =>
    obtain ⟨k, d⟩ := c
    rw [risesFrom_cons] at h
    simp only [cellPut]
    split
    · next hk => rw [risesFrom_cons, risesFrom_cons]; exact ⟨ha, fun l e => by cases e; exact hk, h.2⟩
    · split
      · next hk => subst hk; rw [risesFrom_cons]; exact ⟨h.1, h.2⟩
      · next h1 h2 =>
        rw [risesFrom_cons]
        exact ⟨h.1, ih _ h.2 fun l e => by cases e; simp only at h1 h2 ⊢; omega⟩

theorem risesFrom_filter (p : Host.Cell → Bool) (m : List Host.Cell) (lo : Option Nat) (h : risesFrom lo m = true) :
    risesFrom lo (m.filter p) = true := by
  induction m generalizing lo with
  | nil => exact h
  | cons c t ih =>
    rw [risesFrom_cons] at h
    rw [List.filter_cons]
    split
    · rw [risesFrom_cons]; exact ⟨h.1, ih _ h.2⟩
    · exact risesFrom_weaken (some c.1) lo _ (ih _ h.2) fun l e => ⟨c.1, rfl, Nat.le_of_lt (h.1 l e)⟩

theorem risesFrom_cellDel (m : List Host.Cell) (lo : Option Nat) (a : Nat) (h : risesFrom lo m = true) :
    risesFrom lo (cellDel m a) = true := by
  induction m generalizing lo with
  | nil => exact h
  | cons c t ih =>
    obtain ⟨k, d⟩ := c
    rw [risesFrom_cons] at h
    simp only [cellDel]
    split
    · exact risesFrom_weaken (some k) lo _ h.2 fun l e => ⟨k, rfl, Nat.le_of_lt (h.1 l e)⟩
    · rw [risesFrom_cons]; exact ⟨h.1, ih _ h.2⟩

/-! ### The canonical form of global memory -/

theorem wf_cellPut (m : List Host.Cell) (a : Nat) (b : Byte) (h : Memory.wf m = true) : Memory.wf (cellPut m a b) = true :=
  risesFrom_cellPut m none a b h fun _ e => nomatch e

theorem wf_cellDel (m : List Host.Cell) (a : Nat) (h : Memory.wf m = true) : Memory.wf (cellDel m a) = true :=
  risesFrom_cellDel m none a h

theorem wf_filter (p : Host.Cell → Bool) (m : List Host.Cell) (h : Memory.wf m = true) : Memory.wf (m.filter p) = true :=
  risesFrom_filter p m none h

theorem wf_cellPuts (at_ : Nat → Nat) (v : Nat → Byte) (l : List Nat) (m : List Host.Cell) (h : Memory.wf m = true) :
    Memory.wf (l.foldl (fun y i => cellPut y (at_ i) (v i)) m) = true := by
  induction l generalizing m with
  | nil => exact h
  | cons i t ih => exact ih _ (wf_cellPut _ _ _ h)

theorem wf_rekeyLine (m : List Host.Cell) (key old a : Nat) (h : Memory.wf m = true) : Memory.wf (rekeyLine m key old a) = true := by
  unfold rekeyLine
  generalize List.range 64 = l
  exact wf_cellPuts (fun i => a / 64 * 64 + i) (fun i => Config.wrongKey key old (a / 64 * 64 + i) (lineOf m a)) l m h

theorem wf_memPut (s : State) (key a : Nat) (b : Byte) (h : Memory.wf s.mem = true) : Memory.wf (memPut s key a b).mem = true := by
  simp only [memPut]
  split
  · split
    · exact wf_cellPut _ _ _ h
    · next k _ _ =>
      generalize hm : rekeyLine s.mem key k a = m
      exact wf_cellPut m a b (hm ▸ wf_rekeyLine s.mem key k a h)
  · exact wf_cellPut _ _ _ (wf_filter _ _ h)

theorem wf_memWrite (bs : List Byte) (s : State) (key a : Nat) (h : Memory.wf s.mem = true) : Memory.wf (memWrite s key a bs).mem = true := by
  induction bs generalizing s a with
  | nil => exact h
  | cons b t ih => exact ih _ _ (wf_memPut s key a b h)

theorem wf_eraseKey (s : State) (key : Nat) (h : Memory.wf s.mem = true) : Memory.wf (eraseKey s key).mem = true := wf_filter _ _ h

/-- What is sent through a peer window changes no byte of this device's memory. -/
@[simp] theorem toPeer_mem (s : State) (part : BitVec 16) (w : Nat) (b : Body) : (s.toPeer part w b).mem = s.mem := by
  simp only [State.toPeer]
  split <;> rfl

@[simp] theorem writePeer_mem (s : State) (slot w off : Nat) (bs : List Byte) : (s.writePeer slot w off bs).mem = s.mem := toPeer_mem s _ w _

theorem wf_writeBytes (s : State) (slot pa : Nat) (bs : List Byte) (h : Memory.wf s.mem = true) :
    Memory.wf (writeBytes s slot pa bs).mem = true := by
  simp only [writeBytes]
  split
  · exact (writePeer_mem s slot _ _ bs).symm ▸ h
  · exact h
  · exact wf_memWrite bs s _ pa h

theorem wf_operandWrite (pa : Nat → Nat) (bs : List Byte) (i : Nat) (s : State) (h : Memory.wf s.mem = true) :
    Memory.wf (operandWrite pa i bs s).mem = true := by
  induction bs generalizing s i with
  | nil => exact h
  | cons b t ih => exact ih _ _ (wf_writeBytes s 0 _ [b] h)

theorem wf_agentWrite (s : State) (agent slot pa : Nat) (bs : List Byte) (h : Memory.wf s.mem = true) :
    Memory.wf (agentWrite s agent slot pa bs).mem = true := by
  simp only [agentWrite]
  split
  · exact (writePeer_mem s slot _ _ bs).symm ▸ h
  · exact h
  · exact wf_memWrite bs s _ pa h

theorem wf_restoreLine (s : State) (p : Prov) (h : Memory.wf s.mem = true) : Memory.wf (restoreLine s p).mem = true := by
  have go (l : List (Nat × Option Byte)) (m : List Host.Cell) (hm : Memory.wf m = true) : Memory.wf
      (l.foldl (fun m c => match c.2 with | some b => cellPut m c.1 b | none => cellDel m c.1) m) = true := by
    induction l generalizing m with
    | nil => exact hm
    | cons c t ih =>
      apply ih
      show Memory.wf (match c.2 with | some b => cellPut m c.1 b | none => cellDel m c.1) = true
      split
      · exact wf_cellPut _ _ _ hm
      · exact wf_cellDel _ _ hm
  exact go p.old s.mem h

theorem wf_forgetMemory (s : State) (h : Memory.wf s.mem = true) : Memory.wf (forgetMemory s).mem = true := wf_filter _ _ h

/-! ### The canonical form of a slice of region SRAM -/

theorem mem_cellPut (m : List Host.Cell) (a : Nat) (b : Byte) (c : Host.Cell) (h : c ∈ cellPut m a b) : c = (a, b) ∨ c ∈ m := by
  induction m with
  | nil => simp_all [cellPut]
  | cons x t ih =>
    obtain ⟨k, d⟩ := x
    simp only [cellPut] at h
    split at h
    · simpa using h
    · split at h
      · rcases List.mem_cons.1 h with e | e
        · exact .inl e
        · exact .inr (List.mem_cons_of_mem _ e)
      · rcases List.mem_cons.1 h with e | e
        · exact .inr (e ▸ List.mem_cons_self)
        · exact (ih e).imp id (List.mem_cons_of_mem _)

theorem mem_cellDel (m : List Host.Cell) (a : Nat) (c : Host.Cell) (h : c ∈ cellDel m a) : c ∈ m := by
  induction m with
  | nil => exact h
  | cons x t ih =>
    obtain ⟨k, d⟩ := x
    simp only [cellDel] at h
    split at h
    · exact List.mem_cons_of_mem _ h
    · rcases List.mem_cons.1 h with e | e
      · exact e ▸ List.mem_cons_self
      · exact List.mem_cons_of_mem _ (ih e)

theorem wf_sramPut (m : List Host.Cell) (a : Nat) (b : Byte) (h : Sram.wf m = true) : Sram.wf (sramPut m a b) = true := by
  simp only [Sram.wf, Bool.and_eq_true, List.all_eq_true, bne_iff_ne] at h ⊢
  simp only [sramPut]
  split
  · exact ⟨risesFrom_cellDel m none a h.1, fun c hc => h.2 c (mem_cellDel m a c hc)⟩
  · next hb =>
    refine ⟨risesFrom_cellPut m none a b h.1 (fun _ e => nomatch e), fun c hc => ?_⟩
    rcases mem_cellPut m a b c hc with e | e
    · subst e; exact hb
    · exact h.2 c e

theorem wf_sramWrite (bs : List Byte) (m : List Host.Cell) (a : Nat) (h : Sram.wf m = true) : Sram.wf (sramWrite m a bs) = true := by
  induction bs generalizing m a with
  | nil => exact h
  | cons b t ih => exact ih _ _ (wf_sramPut m a b h)

theorem wf_sramSetWord (m : List Host.Cell) (w : Nat) (v : W32) (h : Sram.wf m = true) : Sram.wf (sramSetWord m w v) = true :=
  wf_sramWrite _ _ _ h

/-! ### Reading back -/

theorem cellGet_of_lt (m : List Host.Cell) (k a : Nat) (h : risesFrom (some k) m = true) (ha : a ≤ k) : cellGet m a = none := by
  cases m with
  | nil => rfl
  | cons c t =>
    obtain ⟨j, b⟩ := c
    rw [risesFrom_cons] at h
    have := h.1 k rfl
    simp only at this
    simp [cellGet, show ¬ j = a by omega, show a < j by omega]

theorem cellGet_cellPut_self (m : List Host.Cell) (a : Nat) (b : Byte) : cellGet (cellPut m a b) a = some b := by
  induction m with
  | nil => simp [cellPut, cellGet]
  | cons c t ih =>
    obtain ⟨k, d⟩ := c
    simp only [cellPut]
    split
    · simp [cellGet]
    · split
      · simp [cellGet]
      · next h1 h2 => simp [cellGet, h1, h2, ih]

theorem cellGet_cellPut_ne (m : List Host.Cell) (a x : Nat) (b : Byte) (hx : x ≠ a) : cellGet (cellPut m a b) x = cellGet m x := by
  induction m with
  | nil => simp [cellPut, cellGet, Ne.symm hx]
  | cons c t ih =>
    obtain ⟨k, d⟩ := c
    simp only [cellPut]
    split
    · next h =>
      simp only [cellGet, if_neg (Ne.symm hx)]
      split
      · next hlt => simp [show ¬ k = x by omega, show x < k by omega]
      · rfl
    · split
      · next h1 h2 => subst h2; simp [cellGet, Ne.symm hx]
      · simp only [cellGet, ih]

theorem cellGet_cellDel_self (m : List Host.Cell) (a : Nat) (lo : Option Nat) (h : risesFrom lo m = true) : cellGet (cellDel m a) a = none := by
  induction m generalizing lo with
  | nil => rfl
  | cons c t ih =>
    obtain ⟨k, d⟩ := c
    rw [risesFrom_cons] at h
    simp only [cellDel]
    split
    · next e => exact cellGet_of_lt t k a h.2 (Nat.le_of_eq e.symm)
    · next e =>
      simp only [cellGet, if_neg e]
      split
      · rfl
      · exact ih _ h.2

theorem cellGet_cellDel_ne (m : List Host.Cell) (a x : Nat) (lo : Option Nat) (h : risesFrom lo m = true) (hx : x ≠ a) :
    cellGet (cellDel m a) x = cellGet m x := by
  induction m generalizing lo with
  | nil => rfl
  | cons c t ih =>
    obtain ⟨k, d⟩ := c
    rw [risesFrom_cons] at h
    simp only [cellDel]
    split
    · next e =>
      subst e
      simp only [cellGet, if_neg (Ne.symm hx)]
      split
      · next hlt => exact cellGet_of_lt t k x h.2 (Nat.le_of_lt hlt)
      · rfl
    · simp only [cellGet, ih _ h.2]

/-- A byte of a slice written reads back, and no other byte changes. -/
theorem sramByte_sramPut (m : List Host.Cell) (a x : Nat) (b : Byte) (h : Sram.wf m = true) :
    sramByte (sramPut m a b) x = if x = a then b else sramByte m x := by
  simp only [Sram.wf, Bool.and_eq_true] at h
  simp only [sramByte, sramPut]
  by_cases hb : b = 0#8
  · subst hb
    by_cases hx : x = a
    · subst hx; simp [cellGet_cellDel_self m x none h.1]
    · simp [hx, cellGet_cellDel_ne m a x none h.1 hx]
  · by_cases hx : x = a
    · subst hx; simp [hb, cellGet_cellPut_self]
    · simp [hb, hx, cellGet_cellPut_ne m a x b hx]

/-- A byte of global memory written under a key reads back under it. -/
theorem memByte_memPut_self (s : State) (key a : Nat) (b : Byte) : memByte (memPut s key a b) key a = b := by
  simp only [memPut]
  split
  · next h =>
    split
    · next hk => simp [memByte, h, hk, cellGet_cellPut_self]
    · simp [memByte, ownerOf, setOwner, cellGet_cellPut_self]
  · simp [memByte, ownerOf, setOwner, cellGet_cellPut_self]

theorem reset_wf : Memory.wf State.reset.mem = true := rfl

end Sys2Proof.Machine
end

