-- ==== Sys2Proof/Tests/Slice0.lean ====
section
/-! SUPPORT. Tests: words written out from the manual's encodings, ill-formed terms, one step of a few instructions, and for
every statement a concrete state and operands that meet its hypotheses. -/

namespace Sys2Proof.Tests
open Machine Claim

-- Each theorem is checked before the next: the kernel then evaluates one state at a time.
set_option Elab.async false

/-! ### Decoding -/

/-- Table 2-11: words of LEN, OP, FMT, IMM, M and D0 put together by Table 2-4 decode to their records. -/
theorem test_decode_integer_logic_0 :
    decodeFabric [0x000C0004#32] = .ok (.copy ⟨0#2, .n64, false, false, 0x0004#16, 0xFFFF#16, 0x0000#16, 0x0#32⟩)
    ∧ decodeFabric [0x80610105#32, 0x030B1235#32, 0x3F800001#32] = .ok (.iadd ⟨2#2, .i8x4, false, true, 0x0105#16, 0x030B#16, 0x1235#16, 0x3F800001#32⟩)
    ∧ decodeFabric [0x40B40206#32, 0x060E1236#32] = .ok (.isub ⟨1#2, .e3m2x5, false, false, 0x0206#16, 0x060E#16, 0x1236#16, 0x0#32⟩)
    ∧ decodeFabric [0x00C90307#32] = .ok (.imul ⟨0#2, .i64, false, true, 0x0307#16, 0xFFFF#16, 0x0000#16, 0x0#32⟩)
    ∧ decodeFabric [0x811C0408#32, 0x0C141238#32, 0x3F800004#32] = .ok (.imulh ⟨2#2, .i16x2, false, false, 0x0408#16, 0x0C14#16, 0x1238#16, 0x3F800004#32⟩)
    ∧ decodeFabric [0x41710509#32, 0x0F171239#32] = .ok (.imad ⟨1#2, .e2m3x5, false, true, 0x0509#16, 0x0F17#16, 0x1239#16, 0x0#32⟩)
    ∧ decodeFabric [0x0184060A#32] = .ok (.idiv ⟨0#2, .n32, false, false, 0x060A#16, 0xFFFF#16, 0x0000#16, 0x0#32⟩)
    ∧ decodeFabric [0x81D9070B#32, 0x151D123B#32, 0x3F800007#32] = .ok (.irem ⟨2#2, .f16x2, false, true, 0x070B#16, 0x151D#16, 0x123B#16, 0x3F800007#32⟩)
    ∧ decodeFabric [0x422C080C#32, 0x1820123C#32] = .ok (.imin ⟨1#2, .e5m2x4, false, false, 0x080C#16, 0x1820#16, 0x123C#16, 0x0#32⟩)
    ∧ decodeFabric [0x0241090D#32] = .ok (.imax ⟨0#2, .i32, false, true, 0x090D#16, 0xFFFF#16, 0x0000#16, 0x0#32⟩)
    ∧ decodeFabric [0x82940A0E#32, 0x1E26123E#32, 0x3F80000A#32] = .ok (.iabs ⟨2#2, .bf16x2, false, false, 0x0A0E#16, 0x1E26#16, 0x123E#16, 0x3F80000A#32⟩)
    ∧ decodeFabric [0x42E90B0F#32, 0x2129123F#32] = .ok (.ineg ⟨1#2, .e4m3x4, false, true, 0x0B0F#16, 0x2129#16, 0x123F#16, 0x0#32⟩) := by
  decide +kernel

/-- Table 2-11: words of LEN, OP, FMT, IMM, M and D0 put together by Table 2-4 decode to their records. -/
theorem test_decode_integer_logic_1 :
    decodeFabric [0x033C0C10#32] = .ok (.iaddc ⟨0#2, .raw, false, false, 0x0C10#16, 0xFFFF#16, 0x0000#16, 0x0#32⟩)
    ∧ decodeFabric [0x83510D11#32, 0x272F1241#32, 0x3F80000D#32] = .ok (.isubb ⟨2#2, .f32, false, true, 0x0D11#16, 0x272F#16, 0x1241#16, 0x3F80000D#32⟩)
    ∧ decodeFabric [0x43A40E12#32, 0x2A321242#32] = .ok (.idot4 ⟨1#2, .n8x4, false, false, 0x0E12#16, 0x2A32#16, 0x1242#16, 0x0#32⟩)
    ∧ decodeFabric [0x03F90F13#32] = .ok (.iclamp ⟨0#2, .cb4x8, false, true, 0x0F13#16, 0xFFFF#16, 0x0000#16, 0x0#32⟩)
    ∧ decodeFabric [0x840C1014#32, 0x30381244#32, 0x3F800010#32] = .ok (.and ⟨2#2, .n64, false, false, 0x1014#16, 0x3038#16, 0x1244#16, 0x3F800010#32⟩)
    ∧ decodeFabric [0x44611115#32, 0x333B1245#32] = .ok (.or ⟨1#2, .i8x4, false, true, 0x1115#16, 0x333B#16, 0x1245#16, 0x0#32⟩)
    ∧ decodeFabric [0x04B41216#32] = .ok (.xor ⟨0#2, .e3m2x5, false, false, 0x1216#16, 0xFFFF#16, 0x0000#16, 0x0#32⟩)
    ∧ decodeFabric [0x84C91317#32, 0x39411247#32, 0x3F800013#32] = .ok (.andn ⟨2#2, .i64, false, true, 0x1317#16, 0x3941#16, 0x1247#16, 0x3F800013#32⟩)
    ∧ decodeFabric [0x451C1418#32, 0x3C441248#32] = .ok (.not ⟨1#2, .i16x2, false, false, 0x1418#16, 0x3C44#16, 0x1248#16, 0x0#32⟩)
    ∧ decodeFabric [0x05711519#32] = .ok (.lut3 ⟨0#2, .e2m3x5, false, true, 0x1519#16, 0xFFFF#16, 0x0000#16, 0x0#32⟩)
    ∧ decodeFabric [0x8584161A#32, 0x424A124A#32, 0x3F800016#32] = .ok (.shl ⟨2#2, .n32, false, false, 0x161A#16, 0x424A#16, 0x124A#16, 0x3F800016#32⟩)
    ∧ decodeFabric [0x45D9171B#32, 0x454D124B#32] = .ok (.shr ⟨1#2, .f16x2, false, true, 0x171B#16, 0x454D#16, 0x124B#16, 0x0#32⟩) := by
  decide +kernel

/-- Table 2-11: words of LEN, OP, FMT, IMM, M and D0 put together by Table 2-4 decode to their records. -/
theorem test_decode_integer_logic_2 :
    decodeFabric [0x062C181C#32] = .ok (.sar ⟨0#2, .e5m2x4, false, false, 0x181C#16, 0xFFFF#16, 0x0000#16, 0x0#32⟩)
    ∧ decodeFabric [0x8641191D#32, 0x4B53124D#32, 0x3F800019#32] = .ok (.rotl ⟨2#2, .i32, false, true, 0x191D#16, 0x4B53#16, 0x124D#16, 0x3F800019#32⟩)
    ∧ decodeFabric [0x46941A1E#32, 0x4E56124E#32] = .ok (.funl ⟨1#2, .bf16x2, false, false, 0x1A1E#16, 0x4E56#16, 0x124E#16, 0x0#32⟩)
    ∧ decodeFabric [0x06E91B1F#32] = .ok (.clz ⟨0#2, .e4m3x4, false, true, 0x1B1F#16, 0xFFFF#16, 0x0000#16, 0x0#32⟩)
    ∧ decodeFabric [0x873C1C20#32, 0x545C1250#32, 0x3F80001C#32] = .ok (.popc ⟨2#2, .raw, false, false, 0x1C20#16, 0x545C#16, 0x1250#16, 0x3F80001C#32⟩)
    ∧ decodeFabric [0x47511D21#32, 0x575F1251#32] = .ok (.brev ⟨1#2, .f32, false, true, 0x1D21#16, 0x575F#16, 0x1251#16, 0x0#32⟩)
    ∧ decodeFabric [0x07A41E22#32] = .ok (.bext ⟨0#2, .n8x4, false, false, 0x1E22#16, 0xFFFF#16, 0x0000#16, 0x0#32⟩)
    ∧ decodeFabric [0x87F91F23#32, 0x5D651253#32, 0x3F80001F#32] = .ok (.bins ⟨2#2, .cb4x8, false, true, 0x1F23#16, 0x5D65#16, 0x1253#16, 0x3F80001F#32⟩)
    ∧ decodeFabric [0x480C2024#32, 0x60681254#32] = .ok (.icmp ⟨1#2, .n64, false, false, 0x2024#16, 0x6068#16, 0x1254#16, 0x0#32⟩)
    ∧ decodeFabric [0x08612125#32] = .ok (.sel ⟨0#2, .i8x4, false, true, 0x2125#16, 0xFFFF#16, 0x0000#16, 0x0#32⟩) := by
  decide +kernel

/-- Table 2-12: words of LEN, OP, FMT, IMM, M and D0 put together by Table 2-4 decode to their records. -/
theorem test_decode_floating_conversion_0 :
    decodeFabric [0x500C4044#32, 0xC0C81274#32] = .ok (.fadd ⟨1#2, .n64, false, false, 0x4044#16, 0xC0C8#16, 0x1274#16, 0x0#32⟩)
    ∧ decodeFabric [0x10614145#32] = .ok (.fsub ⟨0#2, .i8x4, false, true, 0x4145#16, 0xFFFF#16, 0x0000#16, 0x0#32⟩)
    ∧ decodeFabric [0x90B64246#32, 0xC6CE1276#32, 0x3F800042#32] = .ok (.fmul ⟨2#2, .e3m2x5, true, false, 0x4246#16, 0xC6CE#16, 0x1276#16, 0x3F800042#32⟩)
    ∧ decodeFabric [0x50C94347#32, 0xC9D11277#32] = .ok (.ffma ⟨1#2, .i64, false, true, 0x4347#16, 0xC9D1#16, 0x1277#16, 0x0#32⟩)
    ∧ decodeFabric [0x111C4448#32] = .ok (.fmin ⟨0#2, .i16x2, false, false, 0x4448#16, 0xFFFF#16, 0x0000#16, 0x0#32⟩)
    ∧ decodeFabric [0x91734549#32, 0xCFD71279#32, 0x3F800045#32] = .ok (.fmax ⟨2#2, .e2m3x5, true, true, 0x4549#16, 0xCFD7#16, 0x1279#16, 0x3F800045#32⟩)
    ∧ decodeFabric [0x5184464A#32, 0xD2DA127A#32] = .ok (.fabs ⟨1#2, .n32, false, false, 0x464A#16, 0xD2DA#16, 0x127A#16, 0x0#32⟩)
    ∧ decodeFabric [0x11D9474B#32] = .ok (.fneg ⟨0#2, .f16x2, false, true, 0x474B#16, 0xFFFF#16, 0x0000#16, 0x0#32⟩)
    ∧ decodeFabric [0x922E484C#32, 0xD8E0127C#32, 0x3F800048#32] = .ok (.fcmp ⟨2#2, .e5m2x4, true, false, 0x484C#16, 0xD8E0#16, 0x127C#16, 0x3F800048#32⟩)
    ∧ decodeFabric [0x5241494D#32, 0xDBE3127D#32] = .ok (.frnd ⟨1#2, .i32, false, true, 0x494D#16, 0xDBE3#16, 0x127D#16, 0x0#32⟩)
    ∧ decodeFabric [0x12944A4E#32] = .ok (.fclass ⟨0#2, .bf16x2, false, false, 0x4A4E#16, 0xFFFF#16, 0x0000#16, 0x0#32⟩)
    ∧ decodeFabric [0x92EB4B4F#32, 0xE1E9127F#32, 0x3F80004B#32] = .ok (.fscale ⟨2#2, .e4m3x4, true, true, 0x4B4F#16, 0xE1E9#16, 0x127F#16, 0x3F80004B#32⟩) := by
  decide +kernel

/-- Table 2-12: words of LEN, OP, FMT, IMM, M and D0 put together by Table 2-4 decode to their records. -/
theorem test_decode_floating_conversion_1 :
    decodeFabric [0x533C4C50#32, 0xE4EC1280#32] = .ok (.fdot2 ⟨1#2, .raw, false, false, 0x4C50#16, 0xE4EC#16, 0x1280#16, 0x0#32⟩)
    ∧ decodeFabric [0x13514D51#32] = .ok (.famax ⟨0#2, .f32, false, true, 0x4D51#16, 0xFFFF#16, 0x0000#16, 0x0#32⟩)
    ∧ decodeFabric [0x540C5054#32, 0xF0F81284#32] = .ok (.cvt ⟨1#2, .n64, false, false, 0x5054#16, 0xF0F8#16, 0x1284#16, 0x0#32⟩)
    ∧ decodeFabric [0x14615155#32] = .ok (.cvts ⟨0#2, .i8x4, false, true, 0x5155#16, 0xFFFF#16, 0x0000#16, 0x0#32⟩)
    ∧ decodeFabric [0x94B45256#32, 0xF6FE1286#32, 0x3F800052#32] = .ok (.qpack ⟨2#2, .e3m2x5, false, false, 0x5256#16, 0xF6FE#16, 0x1286#16, 0x3F800052#32⟩)
    ∧ decodeFabric [0x54C95357#32, 0xFA011287#32] = .ok (.qunpack ⟨1#2, .i64, false, true, 0x5357#16, 0xFA01#16, 0x1287#16, 0x0#32⟩)
    ∧ decodeFabric [0x151C5458#32] = .ok (.qscale ⟨0#2, .i16x2, false, false, 0x5458#16, 0xFFFF#16, 0x0000#16, 0x0#32⟩) := by
  decide +kernel

/-- Table 2-13: words of LEN, OP, FMT, IMM, M and D0 put together by Table 2-4 decode to their records. -/
theorem test_decode_packet_draw_0 :
    decodeFabric [0x180C6064#32] = .ok (.pmerge ⟨0#2, .n64, false, false, 0x6064#16, 0xFFFF#16, 0x0000#16, 0x0#32⟩)
    ∧ decodeFabric [0x98616165#32, 0x242B1295#32, 0x3F800061#32] = .ok (.psplit ⟨2#2, .i8x4, false, true, 0x6165#16, 0x242B#16, 0x1295#16, 0x3F800061#32⟩)
    ∧ decodeFabric [0x58B46266#32, 0x272E1296#32] = .ok (.pext ⟨1#2, .e3m2x5, false, false, 0x6266#16, 0x272E#16, 0x1296#16, 0x0#32⟩)
    ∧ decodeFabric [0x18C96367#32] = .ok (.pins ⟨0#2, .i64, false, true, 0x6367#16, 0xFFFF#16, 0x0000#16, 0x0#32⟩)
    ∧ decodeFabric [0x991C6468#32, 0x2D341298#32, 0x3F800064#32] = .ok (.pbcast ⟨2#2, .i16x2, false, false, 0x6468#16, 0x2D34#16, 0x1298#16, 0x3F800064#32⟩)
    ∧ decodeFabric [0x59716569#32, 0x30371299#32] = .ok (.preduce ⟨1#2, .e2m3x5, false, true, 0x6569#16, 0x3037#16, 0x1299#16, 0x0#32⟩)
    ∧ decodeFabric [0x1984666A#32] = .ok (.pshuf ⟨0#2, .n32, false, false, 0x666A#16, 0xFFFF#16, 0x0000#16, 0x0#32⟩)
    ∧ decodeFabric [0x99D9676B#32, 0x363D129B#32, 0x3F800067#32] = .ok (.plen ⟨2#2, .f16x2, false, true, 0x676B#16, 0x363D#16, 0x129B#16, 0x3F800067#32⟩)
    ∧ decodeFabric [0x5A2C686C#32, 0x3940129C#32] = .ok (.ptest ⟨1#2, .e5m2x4, false, false, 0x686C#16, 0x3940#16, 0x129C#16, 0x0#32⟩)
    ∧ decodeFabric [0x1A41696D#32] = .ok (.draw ⟨0#2, .i32, false, true, 0x696D#16, 0xFFFF#16, 0x0000#16, 0x0#32⟩)
    ∧ decodeFabric [0x9A946A6E#32, 0x3F46129E#32, 0x3F80006A#32] = .ok (.cadd128 ⟨2#2, .bf16x2, false, false, 0x6A6E#16, 0x3F46#16, 0x129E#16, 0x3F80006A#32⟩) := by
  decide +kernel

/-- Table 2-14: words of LEN, OP, FMT, IMM, M and D0 put together by Table 2-4 decode to their records. -/
theorem test_decode_tfu_0 :
    decodeFabric [0x5C0C7074#32, 0x515812A4#32] = .ok (.steer ⟨1#2, .n64, false, false, 0x7074#16, 0x5158#16, 0x12A4#16, 0x0#32⟩)
    ∧ decodeFabric [0x1C617175#32] = .ok (.merge ⟨0#2, .i8x4, false, true, 0x7175#16, 0xFFFF#16, 0x0000#16, 0x0#32⟩)
    ∧ decodeFabric [0x9CB67276#32, 0x575E12A6#32, 0x3F800072#32] = .ok (.gate ⟨2#2, .e3m2x5, true, false, 0x7276#16, 0x575E#16, 0x12A6#16, 0x3F800072#32⟩)
    ∧ decodeFabric [0x5CC97377#32, 0x5A6112A7#32] = .ok (.enter ⟨1#2, .i64, false, true, 0x7377#16, 0x5A61#16, 0x12A7#16, 0x0#32⟩)
    ∧ decodeFabric [0x1D1C7478#32] = .ok (.next ⟨0#2, .i16x2, false, false, 0x7478#16, 0xFFFF#16, 0x0000#16, 0x0#32⟩)
    ∧ decodeFabric [0x9D737579#32, 0x606712A9#32, 0x3F800075#32] = .ok (.leave ⟨2#2, .e2m3x5, true, true, 0x7579#16, 0x6067#16, 0x12A9#16, 0x3F800075#32⟩)
    ∧ decodeFabric [0x5D84767A#32, 0x636A12AA#32] = .ok (.callf ⟨1#2, .n32, false, false, 0x767A#16, 0x636A#16, 0x12AA#16, 0x0#32⟩)
    ∧ decodeFabric [0x1DD9777B#32] = .ok (.retf ⟨0#2, .f16x2, false, true, 0x777B#16, 0xFFFF#16, 0x0000#16, 0x0#32⟩)
    ∧ decodeFabric [0x9E2E787C#32, 0x697012AC#32, 0x3F800078#32] = .ok (.falloc ⟨2#2, .e5m2x4, true, false, 0x787C#16, 0x6970#16, 0x12AC#16, 0x3F800078#32⟩)
    ∧ decodeFabric [0x5E41797D#32, 0x6C7312AD#32] = .ok (.ffree ⟨1#2, .i32, false, true, 0x797D#16, 0x6C73#16, 0x12AD#16, 0x0#32⟩)
    ∧ decodeFabric [0x1E947A7E#32] = .ok (.stick ⟨0#2, .bf16x2, false, false, 0x7A7E#16, 0xFFFF#16, 0x0000#16, 0x0#32⟩)
    ∧ decodeFabric [0x9EEB7B7F#32, 0x727912AF#32, 0x3F80007B#32] = .ok (.purge ⟨2#2, .e4m3x4, true, true, 0x7B7F#16, 0x7279#16, 0x12AF#16, 0x3F80007B#32⟩) := by
  decide +kernel

/-- Table 2-14: words of LEN, OP, FMT, IMM, M and D0 put together by Table 2-4 decode to their records. -/
theorem test_decode_tfu_1 :
    decodeFabric [0x5F3C7C80#32, 0x757C12B0#32] = .ok (.cancel ⟨1#2, .raw, false, false, 0x7C80#16, 0x757C#16, 0x12B0#16, 0x0#32⟩)
    ∧ decodeFabric [0x1F517D81#32] = .ok (.mark ⟨0#2, .f32, false, true, 0x7D81#16, 0xFFFF#16, 0x0000#16, 0x0#32⟩)
    ∧ decodeFabric [0x9FA67E82#32, 0x7B8212B2#32, 0x3F80007E#32] = .ok (.hold ⟨2#2, .n8x4, true, false, 0x7E82#16, 0x7B82#16, 0x12B2#16, 0x3F80007E#32⟩)
    ∧ decodeFabric [0x5FF97F83#32, 0x7E8512B3#32] = .ok (.eos ⟨1#2, .cb4x8, false, true, 0x7F83#16, 0x7E85#16, 0x12B3#16, 0x0#32⟩)
    ∧ decodeFabric [0x200C8084#32] = .ok (.source ⟨0#2, .n64, false, false, 0x8084#16, 0xFFFF#16, 0x0000#16, 0x0#32⟩)
    ∧ decodeFabric [0xA0638185#32, 0x848B12B5#32, 0x3F800081#32] = .ok (.sink ⟨2#2, .i8x4, true, true, 0x8185#16, 0x848B#16, 0x12B5#16, 0x3F800081#32⟩)
    ∧ decodeFabric [0x60B48286#32, 0x878E12B6#32] = .ok (.const ⟨1#2, .e3m2x5, false, false, 0x8286#16, 0x878E#16, 0x12B6#16, 0x0#32⟩)
    ∧ decodeFabric [0x20C88387#32] = .ok (.tagget ⟨0#2, .i64, false, false, 0x8387#16, 0xFFFF#16, 0x0000#16, 0x0#32⟩)
    ∧ decodeFabric [0xA11E8488#32, 0x8D9412B8#32, 0x3F800084#32] = .ok (.tagset ⟨2#2, .i16x2, true, false, 0x8488#16, 0x8D94#16, 0x12B8#16, 0x3F800084#32⟩)
    ∧ decodeFabric [0x61718589#32, 0x909712B9#32] = .ok (.oreduce ⟨1#2, .e2m3x5, false, true, 0x8589#16, 0x9097#16, 0x12B9#16, 0x0#32⟩) := by
  decide +kernel

/-- Table 2-15: words of LEN, OP, FMT, IMM, M and D0 put together by Table 2-4 decode to their records. -/
theorem test_decode_cfu_0 :
    decodeFabric [0x240C9094#32] = .ok (.ex2 ⟨0#2, .n64, false, false, 0x9094#16, 0xFFFF#16, 0x0000#16, 0x0#32⟩)
    ∧ decodeFabric [0xA4619195#32, 0xB4BB12C5#32, 0x3F800091#32] = .ok (.lg2 ⟨2#2, .i8x4, false, true, 0x9195#16, 0xB4BB#16, 0x12C5#16, 0x3F800091#32⟩)
    ∧ decodeFabric [0x64B49296#32, 0xB7BE12C6#32] = .ok (.rcp ⟨1#2, .e3m2x5, false, false, 0x9296#16, 0xB7BE#16, 0x12C6#16, 0x0#32⟩)
    ∧ decodeFabric [0x24C99397#32] = .ok (.rsq ⟨0#2, .i64, false, true, 0x9397#16, 0xFFFF#16, 0x0000#16, 0x0#32⟩)
    ∧ decodeFabric [0xA51C9498#32, 0xBDC412C8#32, 0x3F800094#32] = .ok (.sqrt ⟨2#2, .i16x2, false, false, 0x9498#16, 0xBDC4#16, 0x12C8#16, 0x3F800094#32⟩)
    ∧ decodeFabric [0x65719599#32, 0xC0C712C9#32] = .ok (.sinpi ⟨1#2, .e2m3x5, false, true, 0x9599#16, 0xC0C7#16, 0x12C9#16, 0x0#32⟩)
    ∧ decodeFabric [0x2584969A#32] = .ok (.cospi ⟨0#2, .n32, false, false, 0x969A#16, 0xFFFF#16, 0x0000#16, 0x0#32⟩)
    ∧ decodeFabric [0xA5D9979B#32, 0xC6CD12CB#32, 0x3F800097#32] = .ok (.tanh ⟨2#2, .f16x2, false, true, 0x979B#16, 0xC6CD#16, 0x12CB#16, 0x3F800097#32⟩)
    ∧ decodeFabric [0x662C989C#32, 0xC9D012CC#32] = .ok (.erf ⟨1#2, .e5m2x4, false, false, 0x989C#16, 0xC9D0#16, 0x12CC#16, 0x0#32⟩) := by
  decide +kernel

/-- Table 2-16: words of LEN, OP, FMT, IMM, M and D0 put together by Table 2-4 decode to their records. -/
theorem test_decode_memory_0 :
    decodeFabric [0x680CA0A4#32, 0xE1E812D4#32] = .ok (.ld ⟨1#2, .n64, false, false, 0xA0A4#16, 0xE1E8#16, 0x12D4#16, 0x0#32⟩)
    ∧ decodeFabric [0x2861A1A5#32] = .ok (.st ⟨0#2, .i8x4, false, true, 0xA1A5#16, 0xFFFF#16, 0x0000#16, 0x0#32⟩)
    ∧ decodeFabric [0xA8B6A2A6#32, 0xE7EE12D6#32, 0x3F8000A2#32] = .ok (.ldacq ⟨2#2, .e3m2x5, true, false, 0xA2A6#16, 0xE7EE#16, 0x12D6#16, 0x3F8000A2#32⟩)
    ∧ decodeFabric [0x68C9A3A7#32, 0xEAF112D7#32] = .ok (.strel ⟨1#2, .i64, false, true, 0xA3A7#16, 0xEAF1#16, 0x12D7#16, 0x0#32⟩)
    ∧ decodeFabric [0x291CA4A8#32] = .ok (.lds ⟨0#2, .i16x2, false, false, 0xA4A8#16, 0xFFFF#16, 0x0000#16, 0x0#32⟩)
    ∧ decodeFabric [0xA973A5A9#32, 0xF0F712D9#32, 0x3F8000A5#32] = .ok (.lde ⟨2#2, .e2m3x5, true, true, 0xA5A9#16, 0xF0F7#16, 0x12D9#16, 0x3F8000A5#32⟩)
    ∧ decodeFabric [0x6984A6AA#32, 0xF3FA12DA#32] = .ok (.stf ⟨1#2, .n32, false, false, 0xA6AA#16, 0xF3FA#16, 0x12DA#16, 0x0#32⟩)
    ∧ decodeFabric [0x29D9A7AB#32] = .ok (.stw ⟨0#2, .f16x2, false, true, 0xA7AB#16, 0xFFFF#16, 0x0000#16, 0x0#32⟩)
    ∧ decodeFabric [0xAA2EA8AC#32, 0xFA0012DC#32, 0x3F8000A8#32] = .ok (.feget ⟨2#2, .e5m2x4, true, false, 0xA8AC#16, 0xFA00#16, 0x12DC#16, 0x3F8000A8#32⟩)
    ∧ decodeFabric [0x6A41A9AD#32, 0xFD0312DD#32] = .ok (.feset ⟨1#2, .i32, false, true, 0xA9AD#16, 0xFD03#16, 0x12DD#16, 0x0#32⟩)
    ∧ decodeFabric [0x2A94AAAE#32] = .ok (.atom ⟨0#2, .bf16x2, false, false, 0xAAAE#16, 0xFFFF#16, 0x0000#16, 0x0#32⟩)
    ∧ decodeFabric [0xAAEBABAF#32, 0x030912DF#32, 0x3F8000AB#32] = .ok (.cas ⟨2#2, .e4m3x4, true, true, 0xABAF#16, 0x0309#16, 0x12DF#16, 0x3F8000AB#32⟩) := by
  decide +kernel

/-- Table 2-16: words of LEN, OP, FMT, IMM, M and D0 put together by Table 2-4 decode to their records. -/
theorem test_decode_memory_1 :
    decodeFabric [0x6B3CACB0#32, 0x060C12E0#32] = .ok (.red ⟨1#2, .raw, false, false, 0xACB0#16, 0x060C#16, 0x12E0#16, 0x0#32⟩)
    ∧ decodeFabric [0x2B51ADB1#32] = .ok (.chunk ⟨0#2, .f32, false, true, 0xADB1#16, 0xFFFF#16, 0x0000#16, 0x0#32⟩)
    ∧ decodeFabric [0xABA6AEB2#32, 0x0C1212E2#32, 0x3F8000AE#32] = .ok (.drain ⟨2#2, .n8x4, true, false, 0xAEB2#16, 0x0C12#16, 0x12E2#16, 0x3F8000AE#32⟩)
    ∧ decodeFabric [0x6BF9AFB3#32, 0x0F1512E3#32] = .ok (.fence ⟨1#2, .cb4x8, false, true, 0xAFB3#16, 0x0F15#16, 0x12E3#16, 0x0#32⟩)
    ∧ decodeFabric [0x2C0CB0B4#32] = .ok (.syncinv ⟨0#2, .n64, false, false, 0xB0B4#16, 0xFFFF#16, 0x0000#16, 0x0#32⟩) := by
  decide +kernel

/-- Table 2-17: words of LEN, OP, FMT, IMM, M and D0 put together by Table 2-4 decode to their records. -/
theorem test_decode_islands_0 :
    decodeFabric [0x300CC0C4#32] = .ok (.sload ⟨0#2, .n64, false, false, 0xC0C4#16, 0xFFFF#16, 0x0000#16, 0x0#32⟩)
    ∧ decodeFabric [0xB061C1C5#32, 0x454B12F5#32, 0x3F8000C1#32] = .ok (.sstore ⟨2#2, .i8x4, false, true, 0xC1C5#16, 0x454B#16, 0x12F5#16, 0x3F8000C1#32⟩)
    ∧ decodeFabric [0x70B4C2C6#32, 0x484E12F6#32] = .ok (.sfeed ⟨1#2, .e3m2x5, false, false, 0xC2C6#16, 0x484E#16, 0x12F6#16, 0x0#32⟩)
    ∧ decodeFabric [0x30C9C3C7#32] = .ok (.sgather ⟨0#2, .i64, false, true, 0xC3C7#16, 0xFFFF#16, 0x0000#16, 0x0#32⟩)
    ∧ decodeFabric [0xB11CC4C8#32, 0x4E5412F8#32, 0x3F8000C4#32] = .ok (.sscatter ⟨2#2, .i16x2, false, false, 0xC4C8#16, 0x4E54#16, 0x12F8#16, 0x3F8000C4#32⟩)
    ∧ decodeFabric [0x7171C5C9#32, 0x515712F9#32] = .ok (.sxlat ⟨1#2, .e2m3x5, false, true, 0xC5C9#16, 0x5157#16, 0x12F9#16, 0x0#32⟩)
    ∧ decodeFabric [0x3184C6CA#32] = .ok (.scopy ⟨0#2, .n32, false, false, 0xC6CA#16, 0xFFFF#16, 0x0000#16, 0x0#32⟩)
    ∧ decodeFabric [0xB40CD0D4#32, 0x72781304#32, 0x3F8000D0#32] = .ok (.mma ⟨2#2, .n64, false, false, 0xD0D4#16, 0x7278#16, 0x1304#16, 0x3F8000D0#32⟩)
    ∧ decodeFabric [0x7461D1D5#32, 0x757B1305#32] = .ok (.mmas ⟨1#2, .i8x4, false, true, 0xD1D5#16, 0x757B#16, 0x1305#16, 0x0#32⟩)
    ∧ decodeFabric [0x34B4D2D6#32] = .ok (.mzero ⟨0#2, .e3m2x5, false, false, 0xD2D6#16, 0xFFFF#16, 0x0000#16, 0x0#32⟩)
    ∧ decodeFabric [0xB4C9D3D7#32, 0x7B811307#32, 0x3F8000D3#32] = .ok (.mout ⟨2#2, .i64, false, true, 0xD3D7#16, 0x7B81#16, 0x1307#16, 0x3F8000D3#32⟩)
    ∧ decodeFabric [0x751CD4D8#32, 0x7E841308#32] = .ok (.mcb ⟨1#2, .i16x2, false, false, 0xD4D8#16, 0x7E84#16, 0x1308#16, 0x0#32⟩) := by
  decide +kernel

/-- Table 2-17: words of LEN, OP, FMT, IMM, M and D0 put together by Table 2-4 decode to their records. -/
theorem test_decode_islands_1 :
    decodeFabric [0x3571D5D9#32] = .ok (.mwake ⟨0#2, .e2m3x5, false, true, 0xD5D9#16, 0xFFFF#16, 0x0000#16, 0x0#32⟩)
    ∧ decodeFabric [0xB584D6DA#32, 0x848A130A#32, 0x3F8000D6#32] = .ok (.mgate ⟨2#2, .n32, false, false, 0xD6DA#16, 0x848A#16, 0x130A#16, 0x3F8000D6#32⟩)
    ∧ decodeFabric [0x780CE0E4#32, 0xA2A81314#32] = .ok (.sgen ⟨1#2, .n64, false, false, 0xE0E4#16, 0xA2A8#16, 0x1314#16, 0x0#32⟩)
    ∧ decodeFabric [0x3861E1E5#32] = .ok (.sand ⟨0#2, .i8x4, false, true, 0xE1E5#16, 0xFFFF#16, 0x0000#16, 0x0#32⟩)
    ∧ decodeFabric [0xB8B4E2E6#32, 0xA8AE1316#32, 0x3F8000E2#32] = .ok (.sxnor ⟨2#2, .e3m2x5, false, false, 0xE2E6#16, 0xA8AE#16, 0x1316#16, 0x3F8000E2#32⟩)
    ∧ decodeFabric [0x78C9E3E7#32, 0xABB11317#32] = .ok (.smux ⟨1#2, .i64, false, true, 0xE3E7#16, 0xABB1#16, 0x1317#16, 0x0#32⟩)
    ∧ decodeFabric [0x391CE4E8#32] = .ok (.sor ⟨0#2, .i16x2, false, false, 0xE4E8#16, 0xFFFF#16, 0x0000#16, 0x0#32⟩)
    ∧ decodeFabric [0xB971E5E9#32, 0xB1B71319#32, 0x3F8000E5#32] = .ok (.scnt ⟨2#2, .e2m3x5, false, true, 0xE5E9#16, 0xB1B7#16, 0x1319#16, 0x3F8000E5#32⟩)
    ∧ decodeFabric [0x7984E6EA#32, 0xB4BA131A#32] = .ok (.sdot ⟨1#2, .n32, false, false, 0xE6EA#16, 0xB4BA#16, 0x131A#16, 0x0#32⟩)
    ∧ decodeFabric [0x39D9E7EB#32] = .ok (.sregen ⟨0#2, .f16x2, false, true, 0xE7EB#16, 0xFFFF#16, 0x0000#16, 0x0#32⟩)
    ∧ decodeFabric [0xBA2CE8EC#32, 0xBAC0131C#32, 0x3F8000E8#32] = .ok (.slen ⟨2#2, .e5m2x4, false, false, 0xE8EC#16, 0xBAC0#16, 0x131C#16, 0x3F8000E8#32⟩)
    ∧ decodeFabric [0x7A41E9ED#32, 0xBDC3131D#32] = .ok (.sloadv ⟨1#2, .i32, false, true, 0xE9ED#16, 0xBDC3#16, 0x131D#16, 0x0#32⟩) := by
  decide +kernel

/-- Table 2-17: words of LEN, OP, FMT, IMM, M and D0 put together by Table 2-4 decode to their records. -/
theorem test_decode_islands_2 :
    decodeFabric [0x3A94EAEE#32] = .ok (.sstorev ⟨0#2, .bf16x2, false, false, 0xEAEE#16, 0xFFFF#16, 0x0000#16, 0x0#32⟩)
    ∧ decodeFabric [0xBAE9EBEF#32, 0xC3C9131F#32, 0x3F8000EB#32] = .ok (.sclr ⟨2#2, .e4m3x4, false, true, 0xEBEF#16, 0xC3C9#16, 0x131F#16, 0x3F8000EB#32⟩) := by
  decide +kernel

/-- Table 2-18: words of LEN, OP, FMT, IMM, M and D0 put together by Table 2-4 decode to their records. -/
theorem test_decode_link_call_0 :
    decodeFabric [0x3C0CF0F4#32] = .ok (.send ⟨0#2, .n64, false, false, 0xF0F4#16, 0xFFFF#16, 0x0000#16, 0x0#32⟩)
    ∧ decodeFabric [0xBC61F1F5#32, 0xD5DB1325#32, 0x3F8000F1#32] = .ok (.recv ⟨2#2, .i8x4, false, true, 0xF1F5#16, 0xD5DB#16, 0x1325#16, 0x3F8000F1#32⟩)
    ∧ decodeFabric [0x7CB4F2F6#32, 0xD8DE1326#32] = .ok (.post ⟨1#2, .e3m2x5, false, false, 0xF2F6#16, 0xD8DE#16, 0x1326#16, 0x0#32⟩)
    ∧ decodeFabric [0x3CC9F3F7#32] = .ok (.nred ⟨0#2, .i64, false, true, 0xF3F7#16, 0xFFFF#16, 0x0000#16, 0x0#32⟩)
    ∧ decodeFabric [0xBD1CF4F8#32, 0xDEE41328#32, 0x3F8000F4#32] = .ok (.call ⟨2#2, .i16x2, false, false, 0xF4F8#16, 0xDEE4#16, 0x1328#16, 0x3F8000F4#32⟩) := by
  decide +kernel
/-- Table 2-20, R87: every custom instruction's word, with rd = x10, rs1 = x11, rs2 = x12 or, where it is unused, x0. -/
theorem test_decode_custom :
    decodeCustom 0x00C5850B#32 = .ok (.rgnAlloc 10#5 11#5 12#5) ∧ decodeCustom 0x02C5850B#32 = .ok (.rgnLoad 10#5 11#5 12#5)
    ∧ decodeCustom 0x04C5850B#32 = .ok (.rgnStart 10#5 11#5 12#5) ∧ decodeCustom 0x0605850B#32 = .ok (.rgnFreeze 10#5 11#5)
    ∧ decodeCustom 0x0805850B#32 = .ok (.rgnDrain 10#5 11#5) ∧ decodeCustom 0x0AC5850B#32 = .ok (.rgnSave 10#5 11#5 12#5)
    ∧ decodeCustom 0x0CC5850B#32 = .ok (.rgnRest 10#5 11#5 12#5) ∧ decodeCustom 0x0EC5850B#32 = .ok (.rgnMove 10#5 11#5 12#5)
    ∧ decodeCustom 0x1005850B#32 = .ok (.rgnKill 10#5 11#5) ∧ decodeCustom 0x12C5850B#32 = .ok (.rgnPrio 10#5 11#5 12#5)
    ∧ decodeCustom 0x14C5850B#32 = .ok (.rgnStat 10#5 11#5 12#5) ∧ decodeCustom 0x00C5950B#32 = .ok (.callTake 10#5 11#5 12#5)
    ∧ decodeCustom 0x0205950B#32 = .ok (.callDone 10#5 11#5) ∧ decodeCustom 0x00C5852B#32 = .ok (.secFuseRead 10#5 11#5 12#5)
    ∧ decodeCustom 0x02C5852B#32 = .ok (.secMeasRead 10#5 11#5 12#5) ∧ decodeCustom 0x04C5852B#32 = .ok (.secWipeQuery 10#5 11#5 12#5)
    ∧ decodeCustom 0x06C5852B#32 = .ok (.secUnlkNonce 10#5 11#5 12#5) ∧ decodeCustom 0x08C5852B#32 = .ok (.secAtst 10#5 11#5 12#5) := by
  decide +kernel

/-- R456 to R459: the values of rs1 and rs2 tell the forms of SEC.FUSE, SEC.MEAS, SEC.WIPE and SEC.UNLK apart. -/
theorem test_refine_forms :
    refine (.secFuseRead 1#5 2#5 3#5) 0x40#64 5#64 = .secFuseBlow 1#5 2#5 3#5 ∧ refine (.secFuseRead 1#5 2#5 3#5) 5#64 0#64 = .secFuseRead 1#5 2#5 3#5
    ∧ refine (.secMeasRead 1#5 2#5 3#5) 0x103#64 0#64 = .secMeasExtend 1#5 2#5 3#5 ∧ refine (.secWipeQuery 1#5 2#5 3#5) 5#64 0#64 = .secWipe 1#5 2#5 3#5
    ∧ refine (.secUnlkNonce 1#5 2#5 3#5) 1#64 0#64 = .secUnlkSubmit 1#5 2#5 3#5 ∧ refine (.secUnlkNonce 1#5 2#5 3#5) 2#64 0#64 = .secUnlkClose 1#5 2#5 3#5 := by
  decide +kernel

/-- TAGGET with M = 1 is TAGGET.tag (R200). -/
theorem test_decode_tagget_tag :
    decodeFabric [0x20C50004#32] = .ok (.taggetTag ⟨0#2, .n32, false, true, 4#16, 0xFFFF#16, 0#16, 0#32⟩) := by decide +kernel

/-- R72, R85: LEN 11, unassigned opcodes beside assigned ones, and a record cut short decode to nothing. -/
theorem test_decode_refusals :
    (decodeFabric [0xC0400004#32, 0#32, 0#32]).toOption = none
    ∧ decodeFabric [0x08800004#32] = .error (.unassignedOpcode 0x22#8) ∧ decodeFabric [0x0FC00004#32] = .error (.unassignedOpcode 0x3F#8)
    ∧ decodeFabric [0x3D400004#32] = .error (.unassignedOpcode 0xF5#8) ∧ decodeFabric [0x40400004#32] = .error .truncated := by
  decide +kernel

/-- R88: another funct7, another funct3, and a nonzero unused rs2 are no custom instructions. -/
theorem test_decode_custom_refusals :
    decodeCustom 0x1600000B#32 = .error (.illegalCustom 0x1600000B#32) ∧ decodeCustom 0x0000200B#32 = .error (.illegalCustom 0x0000200B#32)
    ∧ decodeCustom 0x0610000B#32 = .error (.illegalCustom 0x0610000B#32) ∧ decodeCustom 0x0A00002B#32 = .error (.illegalCustom 0x0A00002B#32)
    ∧ decodeCustom 0x0000102B#32 = .error (.illegalCustom 0x0000102B#32) := by
  decide +kernel

/-! ### Ill-formed terms -/

/-- R72, R73, R76: LEN 11; D1 or AUX in a one-word record; LIT in a two-word record; IMM without three words. -/
theorem test_ill_formed_records :
    wellFormed (.iadd ⟨3#2, .i32, false, false, 4#16, 0xFFFF#16, 0#16, 0#32⟩) = false
    ∧ wellFormed (.not ⟨0#2, .i32, false, false, 4#16, 8#16, 0#16, 0#32⟩) = false
    ∧ wellFormed (.not ⟨0#2, .i32, false, false, 4#16, 0xFFFF#16, 1#16, 0#32⟩) = false
    ∧ wellFormed (.not ⟨1#2, .i32, false, false, 4#16, 8#16, 0#16, 1#32⟩) = false
    ∧ wellFormed (.iadd ⟨1#2, .i32, true, false, 4#16, 8#16, 0#16, 0#32⟩) = false
    ∧ wellFormed (.iadd ⟨2#2, .i32, true, false, 4#16, 8#16, 0#16, 1#32⟩) = true
    ∧ wellFormed (.tagget ⟨0#2, .n32, false, true, 4#16, 0xFFFF#16, 0#16, 0#32⟩) = false
    ∧ wellFormed (.taggetTag ⟨0#2, .n32, false, false, 4#16, 0xFFFF#16, 0#16, 0#32⟩) = false := by
  decide +kernel

/-- Numbers out of range: regions, columns, pages, positions, harts, capability entries. -/
theorem test_ill_formed_regions :
    wellFormed (.roundSeal 2048) = false ∧ wellFormed (.roundSeal 2047) = true ∧ wellFormed (.capabilityPendingApply 0 256) = false
    ∧ wellFormed (.capabilityPendingApply 2048 0) = false ∧ wellFormed (.aluResultEmit 0 ⟨0, 7⟩) = false
    ∧ wellFormed (.aluResultEmit 0 ⟨2048, 0⟩) = false ∧ wellFormed (.aluResultEmit 0 ⟨2047, 6⟩) = true
    ∧ wellFormed (.cfuReply 128) = false ∧ wellFormed (.accessPerform 0 2048 0) = false ∧ wellFormed (.reservationExpiry 16) = false
    ∧ wellFormed (.dieConfigAck 0 2) = false := by
  decide +kernel

/-- Numbers out of range: TDIs, ports, trees, devices, strike cells, alarm classes, debug bits, certificate slots. -/
theorem test_ill_formed_devices :
    wellFormed (.callwin 64 0#512) = false ∧ wellFormed (.packetReceive 16 default) = false ∧ wellFormed (.nredCombine 64 0) = false
    ∧ wellFormed (.probe 786432 0 0#16 0) = false ∧ wellFormed (.probe 0 2048 0#16 0) = false ∧ wellFormed (.probeAnswer 0 0 2048) = false
    ∧ wellFormed (.strikeReport 2 0 0) = false ∧ wellFormed (.strikeReport 0 8 0) = false ∧ wellFormed (.strikeReport 0 0 8) = false
    ∧ wellFormed (.securityAlarm 6 0#8) = false ∧ wellFormed (.debugAccess 16 0) = false ∧ wellFormed (.getCertificate 8 0 0) = false
    ∧ wellFormed (.challenge 8 0#256) = false ∧ wellFormed (.stopInterface 64) = false := by
  decide +kernel

/-- Widths of a memory access: at most 8 bytes, and 4 or 8 for LR, SC and AMO. -/
theorem test_ill_formed_accesses :
    wellFormed (.ccHartMemoryAccess 0#64 (.load 4 false 1#5)) = false ∧ wellFormed (.ccHartMemoryAccess 0#64 (.load 3 false 1#5)) = true
    ∧ wellFormed (.ccHartMemoryAccess 0#64 (.store 4 0#64)) = false ∧ wellFormed (.ccHartMemoryAccess 0#64 (.lr 1 1#5)) = false
    ∧ wellFormed (.hostMemoryAccess 64 0 (.load 0 false 1#5)) = false := by
  decide +kernel

/-! ### Small states -/

/-- Reset, a one-page region that holds the record of words `w`, its operands at hand, and the turn that takes it. -/
def holding (w : Nat) : State := (State.reset.withFetchWord 96 w).beginTurn

/-- The words of a record as one number. -/
def words (w0 w1 w2 : Nat) : Nat := w0 + 2 ^ 32 * w1 + 2 ^ 64 * w2

/-- The record of words. -/
def recd (w0 w1 w2 : Nat) : Rec := (recordOf (words w0 w1 w2)).2

/-- The take that the state's turn makes. -/
def theTake (s : State) : Take :=
  match s.taking with
  | some (_, k) => k
  | none => { now := 0, u := ⟨0, 0⟩, q := 0, R := default, U := default, qt := default }

/-- The take of an island that the state's turn makes. -/
def islandTake (s : State) : Take :=
  match s.islandTaking with
  | some (_, k) => k
  | none => { now := 0, u := ⟨0, 0⟩, q := 0, R := default, U := default, qt := default }

/-- The region changed. -/
def inRegion (s : State) (g : Region → Region) : State := s.modRegion 0 g

/-- The unit that holds the record changed. -/
def inUnit (s : State) (g : Site → Site) : State :=
  inRegion s fun R => { R with units := R.units.map fun U => if U.marks.isEmpty then U else g U }

/-- The token at the head changed. -/
def withHead (s : State) (g : Token → Token) : State :=
  inUnit s fun U => { U with queues := U.queues.map fun q => q.map fun t => { t with tok := g t.tok } }

/-- The operands and the region of a firing that is complete. -/
def firing (k : Take) (op : Nat) (r : Rec) : Option (List Operand × Region) :=
  if matching op r then
    match arrive k.R k.U op r k.t with
    | .fire ops slots seals => (k.R.logSeals k.u k.t.round seals).map fun R => (ops, R.setSlots k.u slots)
    | _ => none
  else some (soleOperands r k.t, k.R)

theorem fires_of_firing {k : Take} {op : Nat} {r : Rec} {ops : List Operand} {R : Region} (h : firing k op r = some (ops, R)) :
    Fires k op r ops R := by
  unfold firing at h
  split at h
  · rename_i hm
    split at h
    · rename_i ops' slots seals ha
      cases hl : k.R.logSeals k.u k.t.round seals with
      | none => rw [hl] at h; cases h
      | some R0 =>
        rw [hl] at h
        simp only [Option.map_some, Option.some.injEq, Prod.mk.injEq] at h
        obtain ⟨rfl, rfl⟩ := h
        exact .inl ⟨hm, slots, seals, R0, ha, hl, rfl⟩
    · cases h
  · rename_i hm
    simp only [Option.some.injEq, Prod.mk.injEq] at h
    exact .inr ⟨by simpa using hm, h.1.symm, h.2.symm⟩

/-- The unit of a take has a credit on each route, as a Bool. -/
def roomy (k : Take) (R : Region) (es : Sends) : Bool := (R.unit? k.u).any fun U => U.canSend es

theorem room_of_roomy {k : Take} {R : Region} {es : Sends} (h : roomy k R es = true) : Room k R es := by
  unfold roomy at h
  cases hu : R.unit? k.u with
  | none => rw [hu] at h; cases h
  | some U => rw [hu] at h; exact ⟨U, hu, by simpa using h⟩

/-- A record taken whose operands are complete and whose sends have credit: Served, Fires and Room at once. -/
def firesWith (s : State) (op : Nat) (r : Rec) (es : List Operand → Sends) : Bool :=
  let k := theTake s
  s.taking == some (0, k) && match firing k op r with
    | some (ops, R) => roomy k R (es ops)
    | none => false

theorem witness_of_firesWith {s : State} {op : Nat} {r : Rec} {es : List Operand → Sends} (h : firesWith s op r es = true) :
    ∃ k ops R, Served s 0 k ∧ Fires k op r ops R ∧ Room k R (es ops) := by
  unfold firesWith at h
  simp only [Bool.and_eq_true, beq_iff_eq] at h
  obtain ⟨h1, h2⟩ := h
  split at h2
  · rename_i ops R hf
    exact ⟨_, ops, R, h1, fires_of_firing hf, room_of_roomy h2⟩
  · cases h2

/-- The words of a record from the fields of Table 2-4. -/
def rec3 (len op fmt imm m d0 d1 aux lit : Nat) : Nat :=
  words (len * 2 ^ 30 + op * 2 ^ 22 + fmt * 2 ^ 18 + imm * 2 ^ 17 + m * 2 ^ 16 + d0) (d1 * 2 ^ 16 + aux) lit

/-- The record of such words. -/
def theRec (w : Nat) : Rec := (recordOf w).2

/-- The operands of the firing that the state's turn makes, and the region they leave. -/
def opsOf (s : State) (op : Nat) (r : Rec) : List Operand := ((firing (theTake s) op r).getD ([], default)).1
def regOf (s : State) (op : Nat) (r : Rec) : Region := ((firing (theTake s) op r).getD ([], default)).2

/-- What an ALU record makes of its operands. -/
def okOf (x : Except Cause AluOut) : AluOut :=
  match x with
  | .ok o => o
  | .error _ => AluOut.one .n32 0 [] false

/-- The slots' operands changed. -/
def withSlots (s : State) (g : Token → Token) : State :=
  inUnit s fun U => { U with slots := U.slots.map fun p => (p.1, match p.2 with
    | .operand b t => .operand b (g t)
    | x => x) }

/-- The width table of the region. -/
def withTw (s : State) (tw : List Nat) : State := inRegion s fun R => { R with cfg := { R.cfg with tw := tw } }

/-- An operand of one 32-bit value. -/
def opnd (p v : Nat) : Operand := { port := p, sticky := false, lit := false, tok := { emptyToken with fmt := .i32, e := clearAbove 0 [BitVec.ofNat 32 v] } }

/-! ### States and operands that meet the hypotheses of the statements -/

def wIadd : Nat := rec3 1 0x01 0 0 0 4 0xFFFF 0 0
def sIadd : State := holding wIadd
/-- Operands of three elements and of two. -/
def sIaddMixed : State := withSlots (withHead sIadd fun t => { t with len := 2#3 }) fun t => { t with len := 1#3 }

theorem test_meets_AluRecordsComplete :
    ∃ i op r c f s rid k ops R o, aluRow i = some (op, r, c, f) ∧ Served s rid k ∧ k.U.aluFree ≤ s.cycle ∧ Fires k op r ops R
      ∧ f r ops = .ok o ∧ Room k R (aluSends r ops o) :=
  ⟨.iadd (theRec wIadd), 1, theRec wIadd, .simple, iaddOut, sIadd, 0, theTake sIadd, opsOf sIadd 1 (theRec wIadd),
    regOf sIadd 1 (theRec wIadd), okOf (iaddOut (theRec wIadd) (opsOf sIadd 1 (theRec wIadd))), rfl, by decide +kernel,
    by decide +kernel, fires_of_firing (by decide +kernel), by decide +kernel, room_of_roomy (by decide +kernel)⟩

theorem test_meets_LengthMismatchFreezes_alu :
    ∃ i op r c f s rid k ops R x, aluRow i = some (op, r, c, f) ∧ Served s rid k ∧ k.U.aluFree ≤ s.cycle ∧ Fires k op r ops R
      ∧ f r ops = .error x :=
  ⟨.iadd (theRec wIadd), 1, theRec wIadd, .simple, iaddOut, sIaddMixed, 0, theTake sIaddMixed, opsOf sIaddMixed 1 (theRec wIadd),
    regOf sIaddMixed 1 (theRec wIadd), .packetLengthMismatch, rfl, by decide +kernel,
    by decide +kernel, fires_of_firing (by decide +kernel), by decide +kernel⟩

/-- Tokens of a pair format with LEN 0 in the slots and at the head. -/
def oddAt (w : Nat) : State :=
  let odd (t : Token) : Token := { t with fmt := .n64, len := 0#3 }
  withSlots (withHead (holding w) odd) odd

theorem test_meets_LengthMismatchFreezes_tfu :
    (∀ w ∈ [rec3 1 0x71 1 0 0 4 8 0 0, rec3 1 0x73 1 0 0 4 0xFFFF 8 0, rec3 1 0x77 1 0 0 4 8 6 0, rec3 2 0x7D 1 0 0 4 8 0 2, rec3 1 0x83 1 0 0 4 8 0 0],
      Served (oddAt w) 0 (theTake (oddAt w)) ∧ (theTake (oddAt w)).t.oddPair = true)
    ∧ ∀ op ∈ [0x70, 0x72, 0x84], let s := oddAt (rec3 1 op 1 0 0 4 8 0 0)
        let r := theRec (rec3 1 op 1 0 0 4 8 0 0)
        Served s 0 (theTake s) ∧ (firing (theTake s) op r).isSome = true ∧ (opAt (opsOf s op r) 0).tok.oddPair = true := by
  decide +kernel

theorem test_meets_IntegerRecordValues :
    ∃ (i : Instr) (op : Nat) (r : Rec) (c : Cost) (f : AluFn) (g : _) (ops : List Operand), aluRow i = some (op, r, c, f) ∧ arithFormula i = some (r, g) ∧ r.fmt.isInt = true ∧ lensOk r.fmt ops = true :=
  ⟨.iadd (theRec wIadd), 1, theRec wIadd, .simple, iaddOut, _, [opnd 0 0x7FFFFFFF, opnd 1 1], rfl, rfl, by decide +kernel, by decide +kernel⟩

theorem test_meets_LogicRecordValues :
    ∃ (i : Instr) (op : Nat) (r : Rec) (c : Cost) (f : AluFn) (g : _) (ops : List Operand), aluRow i = some (op, r, c, f) ∧ logicFormula i = some (r, g) ∧ lensOk r.fmt ops = true :=
  ⟨.shl (theRec (rec3 1 0x16 1 0 0 4 0xFFFF 0 0)), 0x16, _, .simple, shlOut, _, [opnd 0 1, opnd 1 32], rfl, rfl, by decide +kernel⟩

theorem test_meets_IcmpWritesTheCondition :
    ∃ (r : Rec) (ops : List Operand), r.fmt.isInt = true ∧ lensOk r.fmt ops = true ∧ intsAt r.fmt ops 0 0 = -1 ∧ intsAt r.fmt ops 0 1 = 0 :=
  ⟨theRec (rec3 1 0x20 0 0 0 4 0xFFFF 2 0), [opnd 0 0xFFFFFFFF, opnd 1 0], by decide +kernel⟩

theorem test_meets_DivisionTowardsZero :
    ∃ (r : Rec) (ops ops' : List Operand), r.fmt.isInt = true ∧ lensOk r.fmt ops = true ∧ lensOk r.fmt ops' = true ∧ intsAt r.fmt ops 0 1 = 0
      ∧ intsAt r.fmt ops' 0 0 = -2 ^ 31 ∧ intsAt r.fmt ops' 0 1 = -1 :=
  ⟨theRec (rec3 1 0x06 0 0 1 4 0xFFFF 0 0), [opnd 0 7, opnd 1 0], [opnd 0 0x80000000, opnd 1 0xFFFFFFFF], by decide +kernel⟩

theorem test_meets_PackedValuesReadBack : 7 < Fmt.nv .i32 7 ∧ 63 < Fmt.nv .cb4x8 7 ∧ 3 < Fmt.nv .n64 7 := by decide +kernel

theorem test_meets_SteerRoutesByThePredicate :
    let w := rec3 1 0x70 1 0 0 4 0x4008 0 0
    let r := theRec w
    (∃ k ops R, Served (holding w) 0 k ∧ Fires k 0x70 r ops R ∧ Room k R (let q := (nth 0#32 (opAt ops 1).tok.e 0).getLsbD 0
      let a := passToken ops
      let cut := cancelOf (if (opAt ops 0).sticky then a else (opAt ops 0).tok)
      (if q then (r.d0, a) :: (if r.m then [] else [(r.d1, cut)])
        else (if r.m then [] else [(r.d0, cut)]) ++ [(r.d1, a)]).filter fun p => p.1 != noDest))
    ∧ (opAt (opsOf (holding w) 0x70 r) 0).tok.oddPair = false ∧ r.imm = false :=
  ⟨witness_of_firesWith (es := fun ops => _) (by decide +kernel), by decide +kernel⟩

theorem test_meets_GateAndMergeComplete :
    (∃ k ops R, Served (holding (rec3 1 0x72 1 0 0 4 0xFFFF 0 0)) 0 k ∧ Fires k 0x72 (theRec (rec3 1 0x72 1 0 0 4 0xFFFF 0 0)) ops R
      ∧ Room k R (toBoth (theRec (rec3 1 0x72 1 0 0 4 0xFFFF 0 0)) (passToken ops)))
    ∧ (let s := holding (rec3 1 0x71 1 0 0 4 8 0 0)
       Served s 0 (theTake s) ∧ roomy (theTake s) (theTake s).R (toBoth (theRec (rec3 1 0x71 1 0 0 4 8 0 0)) (passed (theTake s).t)) = true) :=
  ⟨witness_of_firesWith (es := fun ops => toBoth _ (passToken ops)) (by decide +kernel), by decide +kernel, by decide +kernel⟩

/-- No token of the TFU's witnesses is an odd pair. -/
theorem test_meets_oddPair :
    (∀ w ∈ [rec3 1 0x71 1 0 0 4 8 0 0, rec3 1 0x73 1 0 0 4 0xFFFF 8 0, rec3 1 0x74 1 0 0 4 8 6 0, rec3 1 0x75 1 0 0 4 8 6 0, rec3 2 0x76 1 0 0 4 8 32 5,
        rec3 1 0x77 1 0 0 4 8 6 0, rec3 1 0x78 1 0 0 4 0xFFFF 0 0, rec3 1 0x79 1 0 0 4 0xFFFF 0 0, rec3 1 0x7A 1 0 0 4 8 0 0, rec3 1 0x7B 1 0 0 4 8 0 0,
        rec3 1 0x7C 1 0 0 4 8 0 0, rec3 2 0x7D 1 0 0 4 8 0 2, rec3 1 0x7E 1 0 0 0xFFFF 0xFFFF 0 0, rec3 1 0x7F 1 0 0 4 8 0 0,
        rec3 0 0x81 1 0 0 0xFFFF 0xFFFF 0 0, rec3 2 0x82 1 0 0 4 0xFFFF 0 0x1005, rec3 1 0x83 1 0 0 4 8 0 0],
      (theTake (holding w)).t.oddPair = false)
    ∧ ∀ op ∈ [0x72, 0x84], (opAt (opsOf (holding (rec3 1 op 1 0 0 4 0xFFFF 0 0)) op (theRec (rec3 1 op 1 0 0 4 0xFFFF 0 0))) 0).tok.oddPair = false := by
  decide +kernel

/-- The width table and the tag of R69's example. -/
theorem test_meets_PopUndoesPush :
    let tw := [4, 6, 8]
    let t := 0x2800000000000113#64
    (∀ x ∈ tw, x ≤ 32) ∧ t.toNat % 2 ^ 58 < 2 ^ tagTop t ∧ (2 ≤ 58 ∧ (tw.take 2).sum = tagTop t ∧ ∀ j, j < 2 → 1 ≤ twAt tw j)
      ∧ pushField tw t 8 0 = .ok 0x4800000000000113#64 := by decide +kernel

def wEnter : Nat := rec3 1 0x73 1 0 0 4 0xFFFF 8 0
def wNext : Nat := rec3 1 0x74 1 0 0 4 8 6 0
def wLeave : Nat := rec3 1 0x75 1 0 0 4 8 6 0
def wCallf : Nat := rec3 2 0x76 1 0 0 4 8 32 5
def wRetf : Nat := rec3 1 0x77 1 0 0 4 8 6 0
/-- A token of depth 2 at the head, in a region of the width table 4, 6 and another. -/
def nested (w : Nat) (w2 : Nat) : State := withTw (withHead (holding w) fun t => { t with tag := 0x2800000000000113#64, port := 0#2 }) [4, 6, w2]

theorem test_meets_ContextRecordsComplete :
    (let s := nested wEnter 8
     let k := theTake s
     let r := theRec wEnter
     Served s 0 k ∧ r.d1 = noDest ∧ r.d0 ≠ noDest ∧ pushField k.R.cfg.tw k.t.tag 8 0 = .ok 0x4800000000000113#64
      ∧ roomy k k.R [(r.d0, { passed k.t with tag := 0x4800000000000113#64 })] = true)
    ∧ (let s := nested wNext 8
       let k := theTake s
       let r := theRec wNext
       Served s 0 k ∧ depth k.R.cfg.tw k.t.tag ≠ 0 ∧ twAt k.R.cfg.tw (depth k.R.cfg.tw k.t.tag - 1) = 6 ∧ inner k.R.cfg.tw k.t.tag ≠ 2 ^ 6 - 1
        ∧ roomy k k.R (toBoth r { passed k.t with tag := setInner k.R.cfg.tw k.t.tag (inner k.R.cfg.tw k.t.tag + 1) }) = true)
    ∧ (let s := nested wLeave 8
       let k := theTake s
       Served s 0 k ∧ k.t.port = 0#2 ∧ k.R.countedExit k.u k.node 0x75 = false ∧ popField k.R.cfg.tw k.t.tag 6 = .ok (0x1000000000000003#64, 17)
        ∧ roomy k k.R (toBoth (theRec wLeave) { passed k.t with tag := 0x1000000000000003#64 }) = true)
    ∧ (let s := nested wCallf 32
       let k := theTake s
       Served s 0 k ∧ (pushField k.R.cfg.tw k.t.tag 32 (5 * 1024 + k.t.frame.toNat)).toOption.isSome
        ∧ roomy k k.R (toBoth (theRec wCallf) k.t) = true)
    ∧ (let s := nested wRetf 8
       let k := theTake s
       let out := { passed k.t with tag := 0x1000000000000003#64 }
       let back := { out with frame := BitVec.ofNat 10 17 }
       Served s 0 k ∧ popField k.R.cfg.tw k.t.tag 6 = .ok (0x1000000000000003#64, 17)
        ∧ roomy k k.R ([((theRec wRetf).d0, back), ((theRec wRetf).d1, oneWord back (17 / 1024))].filter fun p => p.1 != noDest) = true)
    ∧ (let s := nested wEnter 7
       Served s 0 (theTake s) ∧ twAt (theTake s).R.cfg.tw (depth (theTake s).R.cfg.tw (theTake s).t.tag) ≠ 8)
    ∧ (let s := withTw (withHead (holding wEnter) fun t => { t with tag := 0xD000000000000113#64 }) [26, 26, 8]
       Served s 0 (theTake s) ∧ twAt (theTake s).R.cfg.tw (depth (theTake s).R.cfg.tw (theTake s).t.tag) = 8
        ∧ 58 < tagTop (theTake s).t.tag + 8) := by
  decide +kernel

/-- A counted ENTER whose counter holds such entries. -/
def wEnterCounted : Nat := rec3 1 0x73 1 0 0 4 8 8 0
def countedEnter (es : List CEntry) : State :=
  inUnit (nested wEnterCounted 8) fun U => { U with slots := if es.isEmpty then [] else [(soff 0x73 (theRec wEnterCounted), .counter es 0#12)] }
/-- The same for a LEAVE whose port 1 has a circuit, from a record beside it. -/
def countedLeave (es : List CEntry) : State :=
  inUnit (nested wLeave 8) fun U =>
    { U with elem := U.elem ++ [(3, BitVec.ofNat 32 (rec3 0 0x71 1 0 0 1 0xFFFF 0 0))], marks := U.marks ++ [(3, 1#2)], switch := 0x80080000#32 :: List.replicate 15 0#32,
             slots := if es.isEmpty then [] else [(soff 0x75 (theRec wLeave), .counter es 0#12)] }
def fourRounds : List CEntry := [⟨5#12, false, 0, 0⟩, ⟨6#12, false, 0, 0⟩, ⟨7#12, false, 0, 0⟩, ⟨8#12, true, 1, 0⟩]
def unitOf (s : State) : Site := ((theTake s).R.unit? (theTake s).u).getD default

theorem test_meets_ContextRecordsComplete_counted_enter :
    (let r := theRec wEnterCounted
     let i := soff 0x73 r
     ∀ c ∈ [([] : List CEntry), [⟨0#12, false, 2 ^ 20 - 2, 0⟩], [⟨0#12, false, 2 ^ 20 - 1, 0⟩]], let s := countedEnter c
      let k := theTake s
      let U := unitOf s
      let e := (entryFor c k.t.round).getD ⟨0#12, false, 0, 0⟩
      let R := k.R.setSlots k.u (putCounter U.slots i k.t.round (putEntry (counterOf U.slots i) { e with exp := e.exp + 1 }))
      Served s 0 k ∧ k.t.oddPair = false ∧ k.R.unit? k.u = some U ∧ r.d1 ≠ noDest ∧ counterOf U.slots i = c
        ∧ pushField k.R.cfg.tw k.t.tag 8 0 = .ok 0x4800000000000113#64 ∧ entryFor c k.t.round = some e
        ∧ roomy k R [(r.d0, { passed k.t with tag := 0x4800000000000113#64 })] = true) := by
  decide +kernel

theorem test_meets_ContextRecordsComplete_counted_leave :
    (let r := theRec wLeave
     let i := soff 0x75 r
     ∀ c ∈ [([] : List CEntry), [⟨0#12, true, 2 ^ 20 - 1, 2 ^ 20 - 2⟩], [⟨0#12, false, 0, 2 ^ 20 - 1⟩]], let s := countedLeave c
      let k := theTake s
      let U := unitOf s
      let e := (entryFor c k.t.round).getD ⟨0#12, false, 0, 0⟩
      let out := { passed k.t with tag := 0x1000000000000003#64 }
      let R := k.R.setSlots k.u (putCounter U.slots i k.t.round (putEntry (counterOf U.slots i) { e with got := e.got + 1 }))
      let x := R.forwards k.u k.node 0x75 r (toBoth r out)
      Served s 0 k ∧ k.t.oddPair = false ∧ k.R.unit? k.u = some U ∧ k.t.port = 0#2 ∧ k.R.countedExit k.u k.node 0x75 = true ∧ counterOf U.slots i = c
        ∧ popField k.R.cfg.tw k.t.tag 6 = .ok (0x1000000000000003#64, 17) ∧ entryFor c k.t.round = some e
        ∧ roomy k x.2 (toBoth r out ++ x.1) = true) := by
  decide +kernel

theorem test_meets_ContextRecordsComplete_late :
    ∀ p ∈ [(countedEnter fourRounds, soff 0x73 (theRec wEnterCounted), false), (countedLeave fourRounds, soff 0x75 (theRec wLeave), true)], let s := p.1
      ((s.region? 0).bind (·.takeAt s.cycle ⟨0, 0⟩ 0)).any fun k => decide (s.turn.who = .take 0 k.u 0 ∧ k.t.oddPair = false
        ∧ (k.R.unit? k.u).any (fun U => (entryFor (counterOf U.slots p.2.1) k.t.round).isNone)
        ∧ (pushField k.R.cfg.tw k.t.tag 8 0).toOption.isSome ∧ (popField k.R.cfg.tw k.t.tag 6).toOption.isSome ∧ k.t.port = 0#2
        ∧ k.R.countedExit k.u k.node 0x75 = p.2.2) := by
  decide +kernel

/-- A TFU record at a token of a tag, in a region of the width table 26, 26, 8. -/
def deep (w tag : Nat) (port : BitVec 2) : State := withTw (withHead (holding w) fun t => { t with tag := BitVec.ofNat 64 tag, port := port }) [26, 26, 8]

theorem test_meets_ContextRecordsComplete_faults :
    (∀ w ∈ [wEnter, rec3 2 0x76 1 0 0 4 8 8 5], ∀ tag ∈ [0, 0xD000000000000113], let s := deep w tag 0#2
      let k := theTake s
      Served s 0 k ∧ k.t.oddPair = false
        ∧ (if tag = 0 then twAt k.R.cfg.tw (depth k.R.cfg.tw k.t.tag) ≠ 8 else twAt k.R.cfg.tw (depth k.R.cfg.tw k.t.tag) = 8 ∧ 58 < tagTop k.t.tag + 8))
    ∧ (∀ w ∈ [wNext, wLeave, wRetf], ∀ tag ∈ [0, 0x6800000000000001], ∀ port ∈ [0#2, 1#2], let s := deep w tag port
      let k := theTake s
      Served s 0 k ∧ k.t.oddPair = false ∧ k.t.port = port ∧ (depth k.R.cfg.tw k.t.tag = 0 ∨ twAt k.R.cfg.tw (depth k.R.cfg.tw k.t.tag - 1) ≠ 6))
    ∧ (let s := withHead (nested wNext 8) fun t => { t with tag := 0x28000000000003F3#64 }
       let k := theTake s
       Served s 0 k ∧ k.t.oddPair = false ∧ depth k.R.cfg.tw k.t.tag ≠ 0 ∧ twAt k.R.cfg.tw (depth k.R.cfg.tw k.t.tag - 1) = 6 ∧ inner k.R.cfg.tw k.t.tag = 2 ^ 6 - 1) := by
  decide +kernel

def wFalloc : Nat := rec3 1 0x78 1 0 0 4 0xFFFF 0 0
def wFfree : Nat := rec3 1 0x79 1 0 0 4 0xFFFF 0 0
/-- FFREE of frame 0, which is allocated. -/
def sFfree : State := inRegion (holding wFfree) fun R => R.modPool fun p => { p with alloc := [0] }
/-- A region whose pool has a waiting request. -/
def waitingRegion : Region := (probeRegion wFalloc).modPool fun p => { p with waiting := [(⟨0, 0⟩, 0, 0)] }

theorem test_meets_FrameRecordsComplete :
    (let s := holding wFalloc
     let k := theTake s
     Served s 0 k ∧ k.R.poolRoom = true ∧ k.R.pool.granted = [] ∧ k.R.pool.waiting = []
      ∧ freeFrame k.R.cfg k.R.pool.alloc (depth k.R.cfg.tw k.t.tag) = some 0
      ∧ roomy k ((k.R.modPool fun p => { p with alloc := setAdd p.alloc 0 }).logFrame k.t.round 0 false) (toBoth (theRec wFalloc) { passed k.t with frame := 0#10 }) = true)
    ∧ (let k := theTake sFfree
       Served sFfree 0 k ∧ k.R.poolRoom = true ∧ k.R.pool.alloc.contains 0 = true ∧ k.t.frame.toNat = 0
        ∧ (frameClass k.R.cfg.common k.R.cfg.reserve 0 0).isSome = true
        ∧ roomy k ((k.R.modPool fun p => { p with alloc := setDel p.alloc 0 }).logFrame k.t.round 0 true) (toBoth (theRec wFfree) (passed k.t)) = true)
    ∧ (let s := { State.reset with regions := [waitingRegion] }
       s.region? 0 = some waitingRegion ∧ waitingRegion.live = true ∧ waitingRegion.pool.waiting = (⟨0, 0⟩, 0, 0) :: []
        ∧ freeFrame waitingRegion.cfg waitingRegion.pool.alloc 0 = some 0)
    ∧ freeFrame { (default : Config) with common := 1, reserve := [0, 2] } [0] 1 = some 1
    ∧ freeFrame { (default : Config) with common := 1, reserve := [1, 3] } [0, 2, 3] 1 = some 4 ∧ reserveBase { (default : Config) with common := 1, reserve := [1, 3] } 1 = 2 := by
  decide +kernel

/-- The take of a monadic TFU record of opcode `op` with both destinations. -/
def monadic (op : Nat) : State := holding (rec3 1 op 1 0 0 4 8 0 0)

theorem test_meets_ActionRecordsComplete :
    ∀ op ∈ [0x7A, 0x7B, 0x7C], let s := monadic op
      Served s 0 (theTake s) ∧ roomy (theTake s) (theTake s).R (toBoth (theRec (rec3 1 op 1 0 0 4 8 0 0)) (theTake s).t) = true := by
  decide +kernel

def wSource : Nat := rec3 2 0x80 1 0 0 4 8 0 0x00020003
def sSource : State := holding wSource
/-- A SOURCE at an opportunity of a duty of 16 of 16 and of none, whose round is complete, whose stream is at its end. -/
def sourceAt (p : Position) (duty : BitVec 4) : State :=
  let s := inUnit sSource fun U => { U with slots := [(soff 0x80 (theRec wSource), .position p)] }
  { s with yard := { s.yard with duty0 := duty } }

theorem test_meets_SourceEmits :
    ∀ p ∈ [(⟨0#12, 0, 0, false, 0#4, 0#12⟩ : Position), ⟨0#12, 3, 0, false, 0#4, 0#12⟩, ⟨2#12, 0, 2, false, 0#4, 1#12⟩], ∀ d ∈ [0#4, 15#4],
      let s := sourceAt p d
      let R := (s.region? 0).getD default
      let U := (R.unit? ⟨0, 0⟩).getD default
      s.turn = { dt := 0, who := .source 0 ⟨0, 0⟩ } ∧ s.region? 0 = some R ∧ R.live = true ∧ R.released = true ∧ R.unit? ⟨0, 0⟩ = some U
        ∧ U.source? = some (0, theRec wSource) ∧ U.recordBad 0 = false ∧ s.choice R U = some 4 ∧ positionOf U.slots (soff 0x80 (theRec wSource)) = p
        ∧ U.canSend (toBoth (theRec wSource) emptyToken) = true := by
  decide +kernel

def wMark : Nat := rec3 2 0x7D 1 0 0 4 8 0 2
def sMark : State := holding wMark

theorem test_meets_RoundRecordsComplete :
    (let k := theTake sMark
     Served sMark 0 k ∧ (k.R.mu? k.u.page).isSome ∧ (∀ m, k.R.mu? k.u.page = some m → m.undoRoom 16 = true) ∧ k.R.itemFor k = none
      ∧ roomy k k.R (toBoth (theRec wMark) k.t ++ toBoth (theRec wMark) (markerToken 0#12 0)) = true)
    ∧ (let s := holding (rec3 1 0x7E 1 0 0 0xFFFF 0xFFFF 0 0)
       let k := theTake s
       Served s 0 k ∧ mapGet k.U.slots (soff 0x7E (theRec (rec3 1 0x7E 1 0 0 0xFFFF 0xFFFF 0 0))) = none ∧ roomy k k.R [] = true)
    ∧ (Served (monadic 0x7F) 0 (theTake (monadic 0x7F))
      ∧ roomy (theTake (monadic 0x7F)) (theTake (monadic 0x7F)).R (toBoth (theRec (rec3 1 0x7F 1 0 0 4 8 0 0)) (eosToken 0#12)) = true)
    ∧ (let s := withHead (holding (rec3 0 0x81 1 0 0 0xFFFF 0xFFFF 0 0)) fun t => { t with exc := true }
       Served s 0 (theTake s) ∧ (theTake s).t.err = false ∧ (theTake s).t.exc = true ∧ roomy (theTake s) (theTake s).R [] = true) := by
  decide +kernel

def wConst : Nat := rec3 2 0x82 1 0 0 4 0xFFFF 0 0x1005
def wTagset : Nat := rec3 1 0x84 1 0 0 4 0xFFFF 0 0

theorem test_meets_ConstantAndTagRecordsComplete :
    (let s := holding wConst
     Served s 0 (theTake s) ∧ roomy (theTake s) (theTake s).R (toBoth (theRec wConst) (theTake s).t) = true)
    ∧ (let s := monadic 0x83
       Served s 0 (theTake s) ∧ roomy (theTake s) (theTake s).R (toBoth (theRec (rec3 1 0x83 1 0 0 4 8 0 0)) (theTake s).t) = true)
    ∧ (let s := withTw (withSlots (withHead (holding wTagset) fun t => { t with e := clearAbove 0 [15#32] }) fun t => { t with tag := 0x1000000000000003#64 }) [4]
       let s := withHead s fun t => { t with tag := 0x1000000000000003#64 }
       let ops := opsOf s 0x84 (theRec wTagset)
       let a := (opAt ops 0).tok
       firesWith s 0x84 (theRec wTagset) (fun ops => toBoth (theRec wTagset) (passToken ops)) = true ∧ (theRec wTagset).m = false
        ∧ (opAt ops 1).len = 0 ∧ depth [4] a.tag ≠ 0 ∧ (nth 0#32 (opAt ops 1).tok.e 0).toNat = 15 ∧ 15 < 2 ^ twAt [4] (depth [4] a.tag - 1)) := by
  decide +kernel

/-- OREDUCE of width 6 with four banks from slot 1 on. -/
def wOreduce : Nat := rec3 2 0x85 1 0 0 4 0xFFFF 0x3001 6
/-- Its head on a port with an index in the field of width 6, its accumulator as given. -/
def reducing (port : BitVec 2) (i : Nat) (acc : Option Accum) : State :=
  let s := withTw (withHead (holding wOreduce) fun t => { t with tag := BitVec.ofNat 64 (0x2800000000000003 + 16 * i), port := port }) [4, 6]
  inUnit s fun U => { U with slots := match acc with
    | some a => [(0, .accum a)]
    | none => [] }

theorem test_meets_OreduceCompletes :
    (∀ i ∈ [0, 1, 17, 63], let s := reducing 0#2 i none
      let k := theTake s
      let r := theRec wOreduce
      Served s 0 k ∧ k.t.port = 0#2 ∧ k.t.act = .normal ∧ popField k.R.cfg.tw k.t.tag (r.lit.toNat % 64) = .ok (0x1000000000000003#64, i)
        ∧ mapGet k.U.slots (k.t.frame.toNat * k.U.stride + r.aux.toNat % 256 - 1) = none
        ∧ mapGet k.U.slots (k.t.frame.toNat * k.U.stride + r.aux.toNat % 256 + i % (r.aux.toNat / 4096 % 8 + 1)) = none
        ∧ mapGet k.U.slots (k.t.frame.toNat * k.U.stride + r.aux.toNat % 256 + 1 % (r.aux.toNat / 4096 % 8 + 1)) = none ∧ r.fmt.pair = false
        ∧ roomy k k.R [] = true)
    ∧ (let s := withHead (reducing 0#2 0 none) fun t => { t with fmt := .n64, len := 0#3 }
       Served s 0 (theTake s) ∧ (theTake s).t.oddPair = true)
    ∧ (let a : Accum := { tag := 0x1000000000000003#64, round := 0#12, next := 2, k := none, seq := 0#15, fmt := .n32, sum := some (0#3, [5#32]), exc := false, err := false }
       let s := reducing 1#2 2 (some a)
       let k := theTake s
       let r := theRec wOreduce
       Served s 0 k ∧ k.t.port = 1#2 ∧ k.t.act = .normal ∧ popField k.R.cfg.tw k.t.tag (r.lit.toNat % 64) = .ok (0x1000000000000003#64, 2)
        ∧ mapGet k.U.slots (k.t.frame.toNat * k.U.stride + r.aux.toNat % 256 - 1) = some (.accum a)
        ∧ mapGet k.U.slots (k.t.frame.toNat * k.U.stride + r.aux.toNat % 256 + 2) = none ∧ k.R.countedExit k.u k.node 0x85 = false
        ∧ roomy k k.R (toBoth r k.t) = true) := by
  decide +kernel

def wEx2 : Nat := rec3 0 0x90 4 0 0 4 0xFFFF 0 0

theorem test_meets_FunctionUnitCompletes_take :
    let s := holding wEx2
    let k := theTake s
    cfuRow (.ex2 (theRec wEx2)) = some (0x90, theRec wEx2) ∧ Served s 0 k
      ∧ ((k.R.unit? k.u).any fun U => U.canSend (toBoth (theRec wEx2) k.t)) = true := by decide +kernel

def wLd : Nat := rec3 2 0xA0 1 0 0 4 0xFFFF 0 0
/-- LD at hand at the MU, whose state is changed. -/
def sLd (g : Mu → Mu) : State := inRegion (holding wLd) fun R => R.modMu 0 g
/-- The wave entry of chain 0 at the empty tag. -/
def waveZero (last : Option Nat) : Wave := { chain := 0, tag := 0#64, frame := 0#10, round := 0#12, last := last }

theorem test_meets_MemoryRecordsEnterTheBuffer :
    (let s := sLd fun m => { m with waves := [waveZero none], accs := List.replicate 31 default }
     let k := theTake s
     let r := theRec wLd
     let R := regOf s 0xA0 r
     let m := (R.mu? 0).getD default
     memRow (.ld r) = some (0xA0, r) ∧ Served s 0 k ∧ firing k 0xA0 r = some (opsOf s 0xA0 r, R) ∧ memLensOk 0xA0 r (opsOf s 0xA0 r) = true
      ∧ (outToken (opsOf s 0xA0 r) r.fmt 0 false []).err = false ∧ R.mu? k.u.page = some m ∧ m.accs.length < 32
      ∧ (m.wave? (mrChain r) (outToken (opsOf s 0xA0 r) r.fmt 0 false [])).isSome = true ∧ roomy k R (toBoth r k.t) = true)
    ∧ (let s := sLd fun m => { m with accs := List.replicate 32 default }
       let r := theRec wLd
       ((s.region? 0).bind (·.takeAt s.cycle ⟨0, 3⟩ 0)).any fun k =>
        decide (s.turn.who = .take 0 k.u 0 ∧ k.u.pos = 3 ∧ k.U.recOf k.t = some (0xA0, r) ∧ k.t.kind = .data ∧ k.t.act = .normal
          ∧ (firing k 0xA0 r).isSome ∧ memLensOk 0xA0 r (soleOperands r k.t) = true ∧ (k.R.mu? k.u.page).any (fun m => decide (32 ≤ m.accs.length)))) := by
  decide +kernel

/-- An access of a memory record of words `w` in the buffer, with a word address as its operand. -/
def bufAcc (w : Nat) (id : Nat) (st : AccSt) (a : Nat) : Access :=
  let r := theRec w
  let t : Token := { emptyToken with fmt := .n32, e := clearAbove 0 [BitVec.ofNat 32 a] }
  { id := id, op := (recordOf w).1, r := r, node := 0#12, ops := [(0#2, false, t)], queue := 0, last := { tok := t, org := ⟨0, 0⟩, route := 0, sid := 0 },
    hdr := { emptyToken with fmt := r.fmt }, st := st, results := [], sent := false }
/-- The state with such accesses in the MU. -/
def buffered (as : List Access) (g : Mu → Mu := id) : State :=
  sLd fun m => g { m with accs := as, waves := [waveZero none], nextId := 9 }

def wLdHead : Nat := rec3 2 0xA0 1 0 0 4 0xFFFF 0 2
def wDrain : Nat := rec3 2 0xAE 1 0 0 4 0xFFFF 0 2
def wAtom : Nat := rec3 2 0xAA 1 0 0 4 0xFFFF 0 2
def wAtomGlobal : Nat := rec3 2 0xAA 1 0 0 4 0xFFFF 0x200 2

/-- The region and the MU of a state. -/
def theRegion (s : State) : Region := (s.region? 0).getD default
def theMu (s : State) : Mu := ((theRegion s).mu? 0).getD default
def isOkSlice : SliceRes → Bool
  | .ok _ => true
  | _ => false

theorem ok_of_isOkSlice {x : SliceRes} (h : isOkSlice x = true) : ∃ R, x = .ok R := by
  cases x with
  | ok R => exact ⟨R, rfl⟩
  | wait => cases h
  | fault c d => cases h

/-- The access at place 0 of the buffer, with what all of `AccessEventsComplete` asks. -/
def access0 (s : State) (a : Access) : Prop :=
  s.region? 0 = some (theRegion s) ∧ (theRegion s).live = true ∧ (theRegion s).mu? 0 = some (theMu s) ∧ (theMu s).accs[0]? = some a

def aLd : Access := bufAcc wLdHead 1 .buffered 0x40
def aDrain : Access := bufAcc wDrain 1 .buffered 0
def aAtom : Access := bufAcc wAtom 1 .buffered 0x40
def sRepeat : State :=
  buffered [aAtom] fun m => { m with dedup := [{ key := (theRegion (buffered [aAtom])).keyOf aAtom 0, line := 0, value := some 5#64, args := [] }] }
def aDone : Access := bufAcc wLdHead 1 .performed 0x40
def aAgain : Access := bufAcc wLdHead 1 .refused 0x40
def sAgain : State := buffered [aAgain] fun m => { m with refused := [⟨⟨0, 3⟩, 1⟩], waiters := List.replicate 63 ⟨⟨1, 3⟩, 1⟩ }
/-- An access that waits at the port, and so is not buffered. -/
def aPorted : Access := bufAcc wLdHead 1 .issued 0x40
def sPort : State := buffered [aPorted] fun m => { m with portq := [⟨⟨0, 3⟩, 1⟩] }

theorem test_meets_AccessEventsComplete_repeat :
    access0 sRepeat aAtom ∧ aAtom.st = .buffered ∧ (theRegion sRepeat).mayPerform (theMu sRepeat) aAtom = true
      ∧ (theRegion sRepeat).releaseReady [] (theMu sRepeat) aAtom = true ∧ recorded (theRegion sRepeat) (theMu sRepeat).dedup aAtom = some [5] := by
  unfold access0; decide +kernel

theorem test_meets_AccessEventsComplete_drain :
    let s := buffered [aDrain]
    access0 s aDrain ∧ aDrain.st = .buffered ∧ (theRegion s).mayPerform (theMu s) aDrain = true
      ∧ (theRegion s).releaseReady [] (theMu s) aDrain = true ∧ recorded (theRegion s) (theMu s).dedup aDrain = none
      ∧ (theMu s).dedupRoom aDrain = true ∧ aDrain.op = 0xAE := by
  unfold access0; decide +kernel

theorem test_meets_AccessEventsComplete_load :
    let s := buffered [aLd]
    access0 s aLd ∧ aLd.st = .buffered ∧ (theRegion s).mayPerform (theMu s) aLd = true ∧ (theRegion s).releaseReady [] (theMu s) aLd = true
      ∧ recorded (theRegion s) (theMu s).dedup aLd = none ∧ (theMu s).dedupRoom aLd = true ∧ mrGlobal aLd.r = false
      ∧ (theRegion s).checkSram aLd.align aLd.addrs = none ∧ aLd.addrs ≠ [] ∧ (∀ x ∈ aLd.addrs, saPage x = 0)
      ∧ isOkSlice ((theRegion s).performSlice s.cycle 0 aLd 0) = true := by
  unfold access0; decide +kernel

theorem test_meets_AccessEventsComplete_retire :
    let s := buffered [aDone]
    access0 s aDone ∧ aDone.st = .performed ∧ (theRegion s).inTurn (theMu s) aDone = true ∧ mrTail aDone.r = false
      ∧ (let mine (w : Wave) : Bool := w.chain == mrChain aDone.r && w.tag == aDone.hdr.tag && w.frame == aDone.hdr.frame
         let R2 := (theRegion s).modMu 0 fun x => { x with accs := delNth x.accs 0, waves := x.waves.map fun w => if mine w then { w with last := some (mrOwn aDone.r) } else w, iters := (theMu s).iters }
         let x := R2.forwards ⟨0, 3⟩ aDone.node.toNat aDone.op aDone.r
         (x.2.unit? ⟨0, 3⟩).any (fun U => U.canSend x.1) = true) := by
  unfold access0; decide +kernel

theorem test_meets_AccessEventsComplete_waiters :
    (access0 sAgain aAgain ∧ (theMu sAgain).refused = [⟨⟨0, 3⟩, 1⟩] ∧ (theMu sAgain).waiters.length < 64
      ∧ (let R2 := (theRegion sAgain).modMu 0 fun m => { m with refused := [] }
         R2.acc? 0 aAgain.id = some aAgain ∧ isOkSlice (R2.performSlice sAgain.cycle 0 aAgain 0) = true))
    ∧ access0 sPort aPorted ∧ (theMu sPort).portq = [⟨⟨0, 3⟩, 1⟩] ∧ (theRegion sPort).ownFirst [] sPort.cycle 0 = false ∧ (theRegion sPort).acc? 0 1 = some aPorted
      ∧ isOkSlice ((theRegion sPort).performSlice sPort.cycle 0 aPorted 0) = true := by
  unfold access0; decide +kernel

/-- A second page beside the first, and an access whose values lie on it or on both. -/
def twoPages (a : Access) : State := inRegion (buffered [a]) fun R => { R with w := 2, units := R.units ++ [{ probeSite 3 with id := ⟨1, 3⟩ }] }
def bufPair (w : Nat) (a b : Nat) : Access :=
  let x := bufAcc w 1 .buffered a
  { x with ops := x.ops.map fun o => (o.1, o.2.1, { o.2.2 with len := 1#3, e := clearAbove 1 [BitVec.ofNat 32 a, BitVec.ofNat 32 b] }) }
def wLdsHead : Nat := rec3 2 0xA4 1 0 0 4 0xFFFF 0 2
/-- What the clauses on a buffered access that is no repeat ask. -/
def fresh0 (s : State) (a : Access) : Prop :=
  access0 s a ∧ a.st = .buffered ∧ (theRegion s).mayPerform (theMu s) a = true ∧ (theRegion s).releaseReady s.links.insts (theMu s) a = true
    ∧ recorded (theRegion s) (theMu s).dedup a = none ∧ (theMu s).dedupRoom a = true ∧ a.op ≠ 0xAE ∧ a.op ≠ 0xAF

theorem test_meets_AccessEventsComplete_slices :
    (∀ x ∈ [0x40, 0x40040], let a := bufPair wLdHead x 0x40044
      let s := twoPages a
      fresh0 s a ∧ mrGlobal a.r = false ∧ (theRegion s).checkSram a.align a.addrs = none ∧ oneSlice a.op = false
        ∧ (a.addrs.map saPage).eraseDups = (if x = 0x40 then [0, 1] else [1])
        ∧ (x = 0x40 → isOkSlice ((theRegion s).performSlice s.cycle 0 a 0) = true))
    ∧ (let a := bufPair wLdsHead 0x40 0x40044
       let s := twoPages a
       fresh0 s a ∧ mrGlobal a.r = false ∧ (theRegion s).checkSram a.align a.addrs = none ∧ oneSlice a.op = true ∧ 1 < (a.addrs.map saPage).eraseDups.length) := by
  unfold fresh0 access0; decide +kernel

/-- A key slot for partition 0. -/
def keyed (s : State) : State := { s with trust := { s.trust with keys := modNth s.trust.keys 1 fun _ => { v := true, part := 0#16, key := 5 } } }
/-- A global access at hand, its page in the TLB or not, in a region with a share of the Siding. -/
def globalAt (a : Access) (tlb : List Tlb) : State :=
  let s := keyed (holding (rec3 2 0xA1 1 0 0 4 0xFFFF 0x200 2))
  inRegion s fun R => { (R.modMu 0 fun m => { m with accs := [a], waves := [waveZero none], nextId := 9, tlb := tlb }) with cfg := { R.cfg with egress := 4096 } }
def aGlobal (op : Nat) : Access := bufAcc (rec3 2 op 1 0 0 4 0xFFFF 0x200 2) 1 .buffered 0x40
def page0 : Tlb := { va := 0, lg := 16, pa := 0x10000, r := true, w := true }

theorem test_meets_AccessEventsComplete_global :
    ∀ op ∈ [0xA0, 0xA2, 0xA1, 0xA3, 0xAC, 0xAA, 0xAB, 0xAD], ∀ t ∈ [([] : List Tlb), [page0]], let a := aGlobal op
      let s := globalAt a t
      fresh0 s a ∧ GlobalOk s (theRegion s) a 1 [0x40] ∧ (theMu s).tlb = t ∧ tlbFind ([] : List Tlb) 0x40 = none := by
  unfold fresh0 access0 GlobalOk; decide +kernel

theorem test_meets_AccessEventsComplete_translated :
    ∀ op ∈ [0xA0, 0xA2, 0xA1, 0xA3, 0xAC, 0xAA, 0xAB, 0xAD], let a := aGlobal op
      let s := globalAt a [page0]
      let R2 := issuedIn s (theRegion s) 0 a
      Translated s (theMu s) a [0x40] [0x10040] [page0] ∧ R2.heldUntranslated = false ∧ provBlocks (s.putRegion R2) (some R2.keyRid) 0x10040 = false
        ∧ (op ∈ [0xA1, 0xA3, 0xAC] → R2.sidingRoom s.self (R2.muSiding 0) a.hdr.round
            ((R2.holdAll (R2.muSiding 0) (issued a) [0x40] [0x10040]).heldIn (R2.muSiding 0) - R2.heldIn (R2.muSiding 0)) = .room) := by
  unfold Translated; decide +kernel

def aAtomGlobal : Access := bufAcc wAtomGlobal 1 .home 0
/-- A physical address of device memory, and one in a peer window. -/
def somePa : Nat := 0x1000
def peerPa : Nat := 3 * 2 ^ 50 + 2 ^ 46 + 0x40
def sHomeAt (pa : Nat) : State :=
  let s := keyed (buffered [aAtomGlobal])
  { s with home := { s.home with queue := [{ key := 5, rid := 0, page := 0, acc := 1, pas := [pa] }] } }
def sHome : State := sHomeAt somePa
/-- The same once the request has left the queue and its line is provisional. -/
def sHomeTaken (pa : Nat) : State :=
  let s := sHomeAt pa
  let R := theRegion s
  let p : Prov := { kept := [], wrote := false, line := pa / 64, rid := R.keyRid, round := 0#12, old := lineBytes s (pa / 64), oldKey := ownerOf s.owners (pa / 64) }
  State.metLines { s with home := { s.home with queue := [], prov := [p] } } R aAtomGlobal
def aReport : Contribution := { word := 0, ord := 0, last := false, value := 0#32, opx := 0, key := default }

theorem test_meets_HomeAgentEventsComplete :
    (∀ pa ∈ [somePa, peerPa], let s := sHomeAt pa
      s.home.queue[0]? = some { key := 5, rid := 0, page := 0, acc := 1, pas := [pa] } ∧ s.region? 0 = some (theRegion s)
      ∧ (theRegion s).acc? 0 1 = some aAtomGlobal ∧ aAtomGlobal.op = 0xAA ∧ aAtomGlobal.r.fmt.pair = false
      ∧ (∀ d ∈ s.home.dedup, d.key ≠ (theRegion s).keyOf aAtomGlobal 0)
      ∧ provBlocks s (some (theRegion s).keyRid) pa = false ∧ s.home.prov.length < 32 ∧ s.home.dedup.length < 8192
      ∧ (theRegion s).heldUntranslated = false ∧ viewBad (sHomeTaken pa) (theRegion s) pa = false
      ∧ ∀ p ∈ s.home.prov, ¬ (p.line = pa / 64 ∧ p.rid = (theRegion s).keyRid ∧ p.round = aAtomGlobal.hdr.round))
    ∧ keyFor sHome (64 + 5) somePa = 5 ∧ targetOf sHome peerPa = .peer 1 0x40
    ∧ (let s := { buffered [] with home := { Home.reset with reports := [aReport] } }
       s.home.reports = aReport :: [] ∧ s.region? aReport.key.rid = some (theRegion s))
    ∧ (∀ h ∈ [0, 15], let s := { State.reset.modHart h fun H => { H with resv := some (0, 0) } with cycle := 2 * Config.microsecond }
       (s.hart h).resv = some (0, 0) ∧ 0 + 2 * Config.microsecond ≤ s.cycle) := by
  decide +kernel

/-! Island records -/

def wScopy : Nat := rec3 1 0xC6 1 0 0 4 0xFFFF 0x10 0
def wSxlat : Nat := rec3 1 0xC5 1 0 0 4 0xFFFF 0 0
def wSload : Nat := rec3 1 0xC0 1 0 0 4 0xFFFF 0x10 0
def wSfeed : Nat := rec3 2 0xC2 1 0 0 4 8 0 4
/-- A trigger of LEN 3 at the head. -/
def trig (w : Nat) : State := withHead (holding w) fun t => { t with len := 3#3, e := List.replicate 8 0#32 }
/-- A page table at 0x10000 whose one entry, for the lowest 2^39 bytes of addresses, is not present. -/
def absentTable (s : State) : State :=
  inRegion (memWrite s 0 0x10000 (toBytes 8 0)) fun R => { R with cfg := { R.cfg with rt := 0x10000 } }
def str4 (s : State) : Str := (((theRegion s).unit? ⟨0, 4⟩).bind (·.str?)).getD default

theorem test_meets_StreamRecordsComplete :
    (let s := inUnit (trig wScopy) fun U => match U.eng with
      | .str x => { U with eng := .str { x with ops := List.replicate 7 default } }
      | _ => U
     let k := islandTake s
     let r := theRec wScopy
     strRow (.scopy r) = some (0xC6, r) ∧ IslandServed s 0 k ∧ k.U.str? = some (str4 s) ∧ k.t.err = false ∧ trigMin 0xC6 ≤ k.t.len.toNat
      ∧ (str4 s).ops.length < 8 ∧ k.U.canSend (strReserve 0xC6 r k.t) = true)
    ∧ (let s := absentTable (trig wSxlat)
       let k := islandTake s
       let r := theRec wSxlat
       IslandServed s 0 k ∧ k.t.len.toNat = 2 * 1 + 1 ∧ k.t.err = false
        ∧ xlatWords s k.R (k.R.chainBase (bits r.aux.toNat 15 10)) k.t 2 0 = .ok [0#32, 0#32]
        ∧ ((k.R.unit? k.u).any fun U => U.canSend (toBoth r k.t)) = true) := by
  decide +kernel

/-- An operation of a streamer in the state's region. -/
def streaming (w : Nat) (st : StrSt) (data : List W32) (fed : Nat) : State :=
  let s := keyed (trig w)
  let o : StrOp := { id := 1, op := (recordOf w).1, r := theRec w, node := 0#12, trig := (islandTake (trig w)).qt, st := st, pins := [], data := data, fed := fed, sent := false, index := [], bad := [] }
  inUnit s fun U => match U.eng with
    | .str x => { U with eng := .str { x with ops := [o], nextId := 2 } }
    | _ => U
def strOp (s : State) : StrOp := (str4 s).ops.headD default
def strUnit (s : State) : Site := ((theRegion s).unit? ⟨0, 4⟩).getD default
/-- What all of `StreamEventsComplete` asks. -/
def streams (s : State) : Prop :=
  s.region? 0 = some (theRegion s) ∧ (theRegion s).live = true ∧ (theRegion s).unit? ⟨0, 4⟩ = some (strUnit s)
    ∧ (strUnit s).str? = some (str4 s) ∧ (str4 s).ops[0]? = some (strOp s)
def isOkPass : Pass1 → Bool
  | .ok [_] => true
  | _ => false
def isOkDone : StreamDone → Bool
  | .ok _ => true
  | _ => false
/-- The first page of global addresses is in the streamer's TLB. -/
def sPass1 : State :=
  inUnit (streaming wSload .pass1 [] 0) fun U => match U.eng with
    | .str x => { U with eng := .str { x with tlb := [{ va := 0, lg := 16, pa := 0x10000, r := true, w := true }] } }
    | _ => U
def sFeed : State := withTw (streaming wSfeed .pass2 (List.replicate 9 7#32) 0) [4]
def sCopied : State := streaming wSload .pass2 [7#32] 0

theorem test_meets_StreamEventsComplete :
    (streams sPass1 ∧ (strOp sPass1).st = .pass1 ∧ sPass1.slotOf (theRegion sPass1).part = some 1
      ∧ streamAddrs (theRegion sPass1) ((strUnit sPass1).shapeOf (strOp sPass1).r) 0xC0 (strOp sPass1).r (strOp sPass1).trig.tok [] ≠ []
      ∧ isOkPass (pass1Over sPass1 (theRegion sPass1) (str4 sPass1).tlb ((str4 sPass1).pageRoom 1)
          (streamAddrs (theRegion sPass1) ((strUnit sPass1).shapeOf (strOp sPass1).r) (strOp sPass1).op (strOp sPass1).r (strOp sPass1).trig.tok
            ((theRegion sPass1).indexList ((strUnit sPass1).shapeOf (strOp sPass1).r) (strOp sPass1).op (strOp sPass1).trig.tok)) (strOp sPass1).pins) = true
      ∧ streamBlocked sPass1 (theRegion sPass1) ((strUnit sPass1).shapeOf (strOp sPass1).r) (strOp sPass1) [{ va := 0, lg := 16, pa := 0x10000, r := true, w := true }] = false ∧ (strSends (theRegion sPass1) (strOp sPass1) 0 false).toOption.isSome)
    ∧ (streams sFeed ∧ (strOp sFeed).op = 0xC2 ∧ (strOp sFeed).st = .pass2 ∧ (strOp sFeed).fed < feedCount (strOp sFeed)
      ∧ (feedPacket (theRegion sFeed).cfg.tw (strOp sFeed) (strOp sFeed).fed).toOption.isSome ∧ (strOp sFeed).r.d0 ≠ noDest
      ∧ (strUnit sFeed).canSend [((strOp sFeed).r.d0, emptyToken)] = true)
    ∧ streams sCopied ∧ (strOp sCopied).op ≠ 0xC2 ∧ (strOp sCopied).st = .pass2 ∧ (strOp sCopied).trig.tok.err = false
      ∧ (∀ p ∈ (str4 sCopied).ops, p.node = (strOp sCopied).node → (strOp sCopied).id ≤ p.id)
      ∧ isOkDone (streamPerform sCopied (theRegion sCopied) (strUnit sCopied) (strOp sCopied)) = true
      ∧ (strSends (theRegion sCopied) (strOp sCopied) (strOp sCopied).data.length false).toOption.isSome := by
  unfold streams; decide +kernel

def withMxi (s : State) (g : Mxi → Mxi) : State :=
  inUnit s fun U => match U.eng with
    | .mxi x => { U with eng := .mxi (g x) }
    | _ => U
def mxi5 (s : State) : Mxi := (((theRegion s).unit? ⟨0, 5⟩).bind (·.mxi?)).getD default
def wMout : Nat := rec3 1 0xD3 5 0 0 4 0xFFFF 0 0
def wMcb : Nat := rec3 1 0xD4 1 0 0 4 0xFFFF 0 0
def wMma : Nat := rec3 2 0xD0 5 0 0 4 0xFFFF 0 16
def wMmas : Nat := rec3 2 0xD1 5 0 0 4 0xFFFF 0 16
/-- A descriptor of rows of 512 bytes. -/
def descTok (t : Token) : Token := { t with len := 7#3, e := [0#32, 512#32, 0#32, 0#32, 0#32, 0#32, 0#32, 0#32] }
/-- The head and the stored operands are descriptors; seven operations are held, with keys of their own. -/
def tiles (w : Nat) : State :=
  withMxi (withHead (holding w) descTok) fun x =>
    { x with store := x.store.map fun i => { i with tok := descTok i.tok }, ops := List.replicate 7 { (default : MxiOp) with id := 0 }, nextId := 1,
             keys := List.replicate 7 { (default : IKey) with node := 9#12 } }
/-- The same without operations before it. -/
def firstTile (w : Nat) (awake : BitVec 4) : State := withMxi (tiles w) fun x => { x with ops := [], awake := awake }
def hdr1 (k : Take) : Token := headerOf [k.t] .n32
/-- What all of `MatrixRecordsComplete` asks. -/
def tiling (s : State) : Prop :=
  IslandServed s 0 (islandTake s) ∧ (islandTake s).U.mxi? = some (mxi5 s) ∧ (mxi5 s).ops.length < 8 ∧ (mxi5 s).keys.length < 256
/-- The match of MMA or MMAS: its operands, in port order, and that it is accepted without a fault. -/
def matches_ (s : State) (op ports : Nat) (r : Rec) : Bool :=
  let k := islandTake s
  match matchGroup (mxi5 s).store (mxOff r + inner k.R.cfg.tw k.t.tag % (mxLb r + 1)) ports k.t with
  | .fire ops items => (headerOf ops .n32).err == false && decide (NewKey (mxi5 s).keys (keyOf k (headerOf ops .n32) []))
      && k.U.canSend (sendsOf r (headerOf ops .n32) (headerOf ops .n32))
      && (k.R.modMxi k.u fun x => { x with store := items }).mxiChecks k.U (mxi5 s) op r ops == none
  | _ => false
def isOkCopy : CopyRes → Bool
  | .ok _ => true
  | _ => false

theorem test_meets_MatrixRecordsComplete_one :
    ∀ p ∈ [(wMout, 0xD3), (wMcb, 0xD4)], let s := tiles p.1
      let k := islandTake s
      tiling s ∧ k.t.err = false ∧ NewKey (mxi5 s).keys (keyOf k (hdr1 k) []) ∧ nth 0 (minLens p.2) 0 ≤ k.t.len.toNat
        ∧ k.U.canSend (sendsOf (theRec p.1) (hdr1 k) (hdr1 k)) = true := by
  unfold tiling; decide +kernel

theorem test_meets_MatrixRecordsComplete_match :
    tiling (tiles wMma) ∧ matches_ (tiles wMma) 0xD0 2 (theRec wMma) = true ∧ tiling (tiles wMmas) ∧ matches_ (tiles wMmas) 0xD1 4 (theRec wMmas) = true := by
  unfold tiling; decide +kernel

theorem test_meets_MatrixRecordsComplete_power :
    ∀ p ∈ [(0xD2, 0#4), (0xD5, 15#4), (0xD6, 0#4)], let w := rec3 1 p.1 4 0 0 4 0xFFFF 15 0
      let s := firstTile w p.2
      let k := islandTake s
      let r := theRec w
      let o := mxiOpOf k (mxi5 s).nextId p.1 r [k.t]
      let R := mxiAccepted k.R k p.1 r [k.t] (mxi5 s).nextId
      tiling s ∧ k.t.err = false ∧ NewKey (mxi5 s).keys (keyOf k (hdr1 k) []) ∧ k.U.canSend (sendsOf r (hdr1 k) (hdr1 k)) = true
        ∧ ((R.unit? k.u).bind (·.mxi?)).any fun y => y.mySend o && !y.accBusy o && y.bad.isEmpty && isOkCopy (y.copyAcc (mxAcc r) o.hdr.round)
            && (p.1 != 0xD5 || y.awake ||| mxQm r == y.awake) && (p.1 != 0xD6 || (y.feeds o (mxQm r) == false && y.awake &&& ~~~ mxQm r == y.awake)) := by
  unfold tiling; decide +kernel

/-- One operation of an island, accepted or with its operands read. -/
def tileOp (w : Nat) (st : MxiSt) : State :=
  let s := firstTile w 15#4
  let o := { mxiOpOf (islandTake s) 1 (recordOf w).1 (theRec w) [descTok emptyToken, descTok emptyToken] with st := st }
  withMxi s fun x => { x with ops := [o], nextId := 2 }
def tile0 (s : State) : MxiOp := (mxi5 s).ops.headD default
/-- What all of `MatrixEventsComplete` asks. -/
def tileEvent (s : State) : Prop := s.mxiOp? 0 ⟨0, 5⟩ 0 = some (theRegion s, mxi5 s, tile0 s) ∧ (tile0 s).idle = false

theorem test_meets_MatrixEventsComplete :
    (let s := tileOp wMma .accepted
     tileEvent s ∧ (tile0 s).op = 0xD0 ∧ (tile0 s).st = .accepted ∧ (mxi5 s).mySend (tile0 s) = true ∧ (mxi5 s).bookBusy (tile0 s) = false
      ∧ needQuads (tile0 s).ops &&& ~~~ (mxi5 s).awake = 0#4 ∧ (mxi5 s).bad = []
      ∧ (theRegion s).spansBad (mmaSpans (tile0 s).op (tile0 s).r (tile0 s).ops) = false ∧ (mxi5 s).accBusy (tile0 s) = false
      ∧ isOkCopy ((mxi5 s).copyAcc (mxAcc (tile0 s).r) (tile0 s).hdr.round) = true ∧ isMma (tile0 s).op = true)
    ∧ (let s := tileOp wMma .read
       tileEvent s ∧ isMma (tile0 s).op = true ∧ (tile0 s).st = .read ∧ (mxi5 s).accBusy (tile0 s) = false ∧ (mxi5 s).bad = [])
    ∧ (let s := tileOp wMcb .accepted
       tileEvent s ∧ (tile0 s).op = 0xD4 ∧ (mxi5 s).mySend (tile0 s) = true ∧ (mxi5 s).before (tile0 s) = [] ∧ (mxi5 s).bookUndo.length < 16) := by
  unfold tileEvent; decide +kernel

theorem some_of_fits {R : Region} {now : Nat} {round : BitVec 12} {ws : List (Nat × W32)}
    (h : ((ws.map fun p => saPage p.1).eraseDups.all fun pg => match R.mu? pg with
      | some m => m.undoRoom (ws.filter fun p => saPage p.1 == pg).length
      | none => true) = true) : ∃ R1, R.engineWrite now round ws = some R1 := by
  refine ⟨_, if_neg ?_⟩
  rw [Bool.not_eq_true', Bool.not_eq_false]
  exact h

def sMout : State := tileOp wMout .accepted

theorem test_meets_MatrixEventsComplete_mout :
    tileEvent sMout ∧ (tile0 sMout).op = 0xD3 ∧ (mxi5 sMout).mySend (tile0 sMout) = true ∧ (mxi5 sMout).accBusy (tile0 sMout) = false ∧ (mxi5 sMout).bad = []
      ∧ (theRegion sMout).checkSpans (((theRegion sMout).unit? ⟨0, 5⟩).getD default) (moutSpans (tile0 sMout).r (opTok (tile0 sMout).ops 0)) = none
      ∧ (tile0 sMout).r.m = false ∧ ((tile0 sMout).r.fmt = .i32 ↔ ((mxi5 sMout).acc (mxAcc (tile0 sMout).r)).i32 = true) := by
  unfold tileEvent; decide +kernel

/-- The 8,192 words of a bf16 tile fill one MU's undo log. -/
theorem test_meets_MatrixEventsComplete_mout_fits :
    ∃ R1, ((theRegion sMout).modMxi ⟨0, 5⟩ fun _ => mxi5 sMout).engineWrite sMout.cycle (tile0 sMout).hdr.round
      (moutWords (tile0 sMout).r { descOf (opTok (tile0 sMout).ops 0) with bs := 0 } ((mxi5 sMout).acc (mxAcc (tile0 sMout).r))).1 = some R1 :=
  some_of_fits (by decide +kernel)

/-! Stochastic records -/

def withSbe (s : State) (g : Sbe → Sbe) : State :=
  inUnit s fun U => match U.eng with
    | .sbe x => { U with eng := .sbe (g x) }
    | _ => U
def sbe6 (s : State) : Sbe := (((theRegion s).unit? ⟨0, 6⟩).bind (·.sbe?)).getD default
def wSand : Nat := rec3 1 0xE1 1 0 0 4 0xFFFF 0x321 0
def wSregen : Nat := rec3 2 0xE7 1 0 0 4 0xFFFF 0x321 0
def wSgen : Nat := rec3 2 0xE0 1 0 0 4 0xFFFF 0 0
/-- The head, and what is stored, of LEN 7; seven operations are held. -/
def streamsAt (w : Nat) : State :=
  withSbe (withHead (holding w) fun t => { t with len := 7#3, e := List.replicate 8 0#32 }) fun x =>
    { x with ops := List.replicate 7 default, nextId := 1 }
def isOkFire (s : State) (op : Nat) (r : Rec) : Bool :=
  let k := islandTake s
  match matchGroup (sbe6 s).store (sbGroup r) 2 k.t with
  | .fire ops _ => (headerOf ops .n32).err == false && decide (NewKey (sbe6 s).keys (keyOf k (headerOf ops .n32) []))
      && k.U.canSend (sendsOf r (headerOf ops .n32) (headerOf ops .n32)) && (opTok ops 1).len == 7#3
      && decide (sbRd r + (opTok ops 0).len.toNat ≤ 511) && op == 0xE0
  | _ => false
/-- What the first part of `StochasticRecordsComplete` asks. -/
def streamTaken (s : State) : Prop :=
  IslandServed s 0 (islandTake s) ∧ (islandTake s).U.sbe? = some (sbe6 s) ∧ (sbe6 s).ops.length < 8 ∧ (sbe6 s).keys.length < 256

theorem test_meets_StochasticRecordsComplete_take :
    (∀ p ∈ [(wSand, 0xE1), (wSregen, 0xE7)], let s := streamsAt p.1
      let k := islandTake s
      streamTaken s ∧ sbeRow (.sand (theRec wSand)) = some (0xE1, theRec wSand) ∧ k.t.err = false ∧ NewKey (sbe6 s).keys (keyOf k (hdr1 k) [])
        ∧ k.U.canSend (sendsOf (theRec p.1) (hdr1 k) (hdr1 k)) = true ∧ (opTok [k.t] 0).len = 7#3)
    ∧ streamTaken (streamsAt wSgen) ∧ isOkFire (streamsAt wSgen) 0xE0 (theRec wSgen) = true := by
  unfold streamTaken; decide +kernel

def wScnt : Nat := rec3 1 0xE5 1 0 0 4 0xFFFF 0x321 0
def wSstorev : Nat := rec3 1 0xEA 1 0 0 4 0xFFFF 0x321 0
/-- One operation in the island's slots. -/
def oneStream (w : Nat) : State :=
  let s := streamsAt w
  let k := islandTake s
  withSbe s fun x => { x with nextId := 2, ops := [{ id := 1, op := (recordOf w).1, r := theRec w, node := 0#12, ops := [k.t], last := k.qt, hdr := hdr1 k, replay := none }] }
def sbeOp0 (s : State) : SbeOp := (sbe6 s).ops.headD default
/-- Its effect can be made; it writes memory where `wr`. -/
def isOkEffect (s : State) (wr : Bool) : Bool :=
  let R := theRegion s
  let x := sbe6 s
  let o := sbeOp0 s
  match sbeEffect R x o with
  | .ok f => x.staleRound o.hdr.round f.regs == false && decide (x.copies.length + x.copiesNeeded o.hdr.round f.regs ≤ 1024) && f.mem.isEmpty != wr
      && ((R.modSbe ⟨0, 6⟩ fun x => x.setRegs o.hdr.round f.regs).engineWrite s.cycle o.hdr.round f.mem).isSome
  | _ => false

theorem test_meets_StochasticRecordsComplete_done :
    ∀ p ∈ [(wScnt, false), (wSstorev, true)], let s := oneStream p.1
    s.region? 0 = some (theRegion s) ∧ (theRegion s).winding = true ∧ ((theRegion s).unit? ⟨0, 6⟩).bind (·.sbe?) = some (sbe6 s)
      ∧ (sbe6 s).ops[0]? = some (sbeOp0 s) ∧ (sbe6 s).mySend (sbeOp0 s) = true ∧ (sbe6 s).regBusy (sbeOp0 s) = false ∧ (sbeOp0 s).idle = false
      ∧ (sbe6 s).struck (sbeOp0 s) = [] ∧ (theRegion s).loadBad (sbeOp0 s) = false
      ∧ isOkEffect s p.2 = true := by
  decide +kernel

/-! Arrivals -/

/-- The head at the IADD with its ACT or KIND changed, and no operand waiting unless `full`. -/
def arriving (full : Bool) (g : Token → Token) : State :=
  inUnit (withHead sIadd g) fun U => { U with slots := if full then U.slots else [] }
/-- The slots that an arrival leaves, where no firing comes of it. -/
def leftSlots (s : State) : Option (SMap Slot) :=
  let k := theTake s
  match arrive k.R k.U 0x01 (theRec wIadd) k.t with
  | .quiet slots [] => some slots
  | .cancelled slots => some slots
  | _ => none
/-- What the whole of `ArrivalsComplete` asks. -/
def atCell (s : State) : Prop := CellHead s 0 (theTake s) 0x01 (theRec wIadd)

theorem test_meets_ArrivalsComplete_data :
    (∀ a ∈ [Act.normal, .sticky, .purge], let s := arriving false fun t => { t with act := a }
      atCell s ∧ (theTake s).t.kind = .data ∧ (theTake s).t.act = a ∧ matching 0x01 (theRec wIadd) = true
        ∧ (leftSlots s).any fun slots => roomy (theTake s) ((theTake s).R.setSlots (theTake s).u slots) [])
    ∧ (∀ full ∈ [false, true], let s := arriving full fun t => { t with act := .cancel }
      atCell s ∧ (theTake s).t.kind = .data ∧ (theTake s).t.act = .cancel ∧ matching 0x01 (theRec wIadd) = true
        ∧ (leftSlots s).any fun slots => roomy (theTake s) ((theTake s).R.setSlots (theTake s).u slots) (toBoth (theRec wIadd) (cancelOf (theTake s).t))) := by
  unfold atCell; decide +kernel

theorem test_meets_ArrivalsComplete_kinds :
    (let s := arriving false fun t => { t with kind := .marker }
     let k := theTake s
     atCell s ∧ k.t.kind = .marker ∧ (k.R.takeMarker k.u k.node 0x01 (theRec wIadd) k.t).any fun R1 =>
       let x := R1.forwards k.u k.node 0x01 (theRec wIadd)
       roomy k x.2 x.1)
    ∧ (let s := arriving false fun t => { t with kind := .eos }
       let k := theTake s
       let x := (k.R.takeEos k.u k.node 0x01 (theRec wIadd) k.t).forwards k.u k.node 0x01 (theRec wIadd)
       atCell s ∧ k.t.kind = .eos ∧ roomy k x.2 x.1 = true)
    ∧ (let s := arriving false fun t => { t with kind := .bubble }
       let k := theTake s
       let x := k.R.forwards k.u k.node 0x01 (theRec wIadd)
       atCell s ∧ k.t.kind = .bubble ∧ roomy k x.2 x.1 = true) := by
  unfold atCell; decide +kernel

/-! The network -/

/-- A flight of the cell 0 at a place. -/
def flightAt (loc : Loc) : Flight := { tok := emptyToken, org := ⟨0, 0⟩, route := 0, sid := 0, loc := loc, since := 0, cfuOp := none }
/-- One flight in the region, an entry in cell 0's switch table, at cycle 1. -/
def flying (loc : Loc) (e : W32) (g : Region → Region := id) : State :=
  let s := inUnit sIadd fun U => { U with switch := e :: List.replicate 15 0#32 }
  { inRegion s fun R => g { R with flights := [flightAt loc] } with cycle := 1 }
/-- Switch entries: towards the east, and into queue 3 of the cell. -/
def eEast : W32 := 0x80400800#32
def eHere : W32 := 0x80098000#32

theorem test_meets_NetworkEventsComplete_hops :
    (let s := flying (.at 0 0 0 0) eEast
     let R := theRegion s
     let f := flightAt (.at 0 0 0 0)
     s.region? 0 = some R ∧ R.live = true ∧ R.flights[0]? = some f ∧ f.loc = .at 0 0 0 0 ∧ R.entryOf f = some (0, eEast)
      ∧ R.mayHop s.cycle s.linkRot f = true ∧ seLoc eEast = false ∧ seOut eEast = [5] ∧ R.neighbour 0 0 5 = some (0, 1))
    ∧ (let s := flying (.at 0 0 0 0) eHere
       let R := theRegion s
       let f := flightAt (.at 0 0 0 0)
       R.entryOf f = some (0, eHere) ∧ R.mayHop s.cycle s.linkRot f = true ∧ seLoc eHere = true ∧ seEnd eHere = 0 ∧ seOut eHere = [] ∧ seQ eHere = 3)
    ∧ (let R := { theRegion sIadd with freed := [(⟨0, 0⟩, 3, 5)] }
       R.live = true ∧ R.freed = (⟨0, 0⟩, 3, 5) :: [] ∧ Region.outstanding { R with freed := [] } ⟨0, 0⟩ 3 5 = false)
    ∧ (let s := inUnit sIadd fun U => { U with outq := [{ route := 0, ready := 0, paid := true, tok := emptyToken }] }
       (theRegion s).live = true ∧ ((theRegion s).unit? ⟨0, 0⟩).map (·.outq) = some [{ route := 0, ready := 0, paid := true, tok := emptyToken }]
        ∧ 0 ≤ s.cycle ∧ ((theRegion s).unit? ⟨0, 0⟩).map (fun U => nth 0 U.owed 0) = some 0) := by
  decide +kernel

/-- A capability to this region's own entry port 3, for one token. -/
def aCap : W64 := 0xC000000000600100#64
/-- The ingress entry of a port: inward at cell 0 as circuit 0 of input 0. -/
def anIngress : W32 := 0x80000000#32

theorem test_meets_NetworkEventsComplete_gateways :
    (let s := flying (.gateway 0 0 0) 0x80000005#32 fun R => { R with cfg := { R.cfg with caps := [(5, aCap)] } }
     let R := theRegion s
     let c := R.cap 5
     R.flights[0]? = some (flightAt (.gateway 0 0 0)) ∧ ((R.unit? ⟨0, 0⟩).map fun U => seCap (nth 0#32 U.switch 0)) = some 5
      ∧ (∀ g ∈ R.flights.take 0, g.loc ≠ .gateway 0 0 0) ∧ bit c 63 = true ∧ bit c 62 = true ∧ capHeld s c = true ∧ capDev c = s.self
      ∧ capRid c = R.rid ∧ capEport c = 3 ∧ capAllow c = 1 ∧ R.capOut 5 < capAllow c)
    ∧ (let s := flying (.ingress 3) eHere fun R => { R with cfg := { R.cfg with ingress := [(3, anIngress)] } }
       let R := theRegion s
       R.flights[0]? = some (flightAt (.ingress 3)) ∧ (∀ g ∈ R.flights.take 0, g.loc ≠ .ingress 3)
        ∧ R.ingressOk ((mapGet R.cfg.ingress 3).getD 0#32).toNat emptyToken = true)
    ∧ (flightAt (.ingress 3)).org ≠ ⟨0, 7⟩
    ∧ (let crossed := { flightAt (.ingress 3) with org := ⟨0, 7⟩, route := 21 }
       let s := flying (.ingress 3) eHere fun R => { R with cfg := { R.cfg with ingress := [(3, anIngress)] }, flights := [crossed] }
       let s := { s with cycle := 6 }
       let R := theRegion s
       s.region? 0 = some R ∧ R.live = true ∧ R.flights[0]? = some crossed ∧ crossed.org = ⟨0, 7⟩ ∧ crossed.since + 6 ≤ s.cycle ∧ 5 < crossed.since + 6
        ∧ R.ingressOk ((mapGet R.cfg.ingress 3).getD 0#32).toNat emptyToken = true) := by
  decide +kernel

/-- A request and a reply of the cell 0 in the column 0. -/
def asked (loc : Loc) : State := inRegion sIadd fun R => { R with flights := [{ flightAt loc with cfuOp := some (0x90, .f32, [4#16]) }] }

theorem test_meets_FunctionUnitCompletes_events :
    (let s := asked .cfuRequest
     (s.cfuNext 0).any fun x => x.1 == 0 && x.2.2.cfuOp == some (0x90, .f32, 4#16 :: []))
    ∧ (let s := asked (.cfuReply 0)
       s.regions = theRegion s :: [] ∧ (theRegion s).killing = false
        ∧ ((theRegion s).cfuDue 0 s.cycle).any fun f => f.cfuOp == some (0x90, .f32, [4#16])) := by
  decide +kernel

/-! Inputs from outside -/

/-- A TDI 63 with one queued call and both error bits. -/
def reporting : State :=
  { State.reset with tdis := modNth State.reset.tdis 63 fun T => { T with ovf := true, bad := true, calls := [{ (default : Call) with st := .queued }] } }

theorem test_meets_OutsideInputsAct :
    (let s := sIadd
     let R := (s.region? 0).getD default
     let U := (R.unit? ⟨0, 0⟩).getD default
     s.region? 0 = some R ∧ R.unit? ⟨0, 0⟩ = some U ∧ ((nth [] U.queues 0)[0]?).any (fun x => x.tok.kind == .data))
    ∧ (let s := asked .cfuRequest
       (s.region? 0).any fun R => (R.flights[0]?).any fun f => f.loc == .cfuRequest && f.tok.kind == .data)
    ∧ (let s := sLd id
       let R := (s.region? 0).getD default
       let U := (R.unit? ⟨0, 3⟩).getD default
       R.unit? ⟨0, 3⟩ = some U ∧ (match U.eng with | .mu m => Sram.wf m.sram | _ => false) = true)
    ∧ (reporting.tdis[63]?).any (fun T => decide (T.calls.length < 65536)) := by
  decide +kernel

/-- Table 13-8: QUEUED 1, OVF and BAD set; a write of bit 17 clears BAD alone. -/
theorem test_chstat :
    reporting.chstat 63 = 0x30001#64 ∧ (reporting.setChstat 63 0x20000#64).chstat 63 = 0x10001#64 := by decide +kernel

/-- R126: a struck operand at a head comes with ERR, and the firing's output bears it. -/
theorem test_upset_marks :
    (let s := sIadd.upset 0 (.queue 0 ⟨0, 0⟩ 0 0)
     (theTake s).t.err = true ∧ (theTake sIadd).t.err = false) := by decide +kernel

/-! Link and call records -/

def wLink (op : Nat) : Nat := rec3 2 op 0 0 0 4 8 0 5
/-- Every right on this region itself, by entry port 5. -/
def allCap : W64 := 0xF000000000A00100#64
/-- A trigger of a link record, in a region with a capability, a share and a tree to contribute to. -/
def linkAt (op : Nat) (len : BitVec 3) (e : List W32) : State :=
  let s := withHead (holding (wLink op)) fun t => { t with len := len, e := e ++ List.replicate (8 - e.length) 0#32 }
  let s1 := inRegion s fun R => { R with cfg := { R.cfg with egress := 4096, caps := [(5, allCap)] } }
  { s1 with links := { s1.links with trees := [(5, { v := true, loc := true, root := true, parent := 0#4, child := 0#16, part := 0#16, deadline := 1#20 })] } }
/-- What all of `LinkRecordsComplete` asks. -/
def linked (s : State) (op : Nat) : Prop :=
  Served s 0 (theTake s) ∧ (linkHdr (theTake s)).err = false ∧ (theTake s).U.canSend (toBoth (theRec (wLink op)) (linkHdr (theTake s))) = true
    ∧ (theTake s).t.oddPair = false
def isRoom (R : Region) (s : State) (x : Send) : Bool := R.linkRoom s 0 x.round x.lines == .room
def readWords (s : State) (op a n : Nat) : Option (List W32) :=
  match linkRead s (theTake s).R (theRec (wLink op)) a n with
  | .ok ws false => some ws
  | _ => none
/-- SEND and POST of four bytes. -/
def sSend : State := linkAt 0xF0 2#3 [0#32, 4#32, 9#32]
def sPost : State := linkAt 0xF2 3#3 [0#32, 4#32, 0#32, 0#32]
def sRecv : State := linkAt 0xF1 1#3 [0#32, 65536#32]
def sNred : State := linkAt 0xF3 3#3 [0#32, 0#32, 2#32, 1#32]
def sCall : State := linkAt 0xF4 0#3 []

theorem test_meets_LinkRecordsComplete_sends :
    ∀ p ∈ [(sSend, 0xF0, 2), (sPost, 0xF2, 3)], let s := p.1
      let k := theTake s
      let c := k.R.cap 5
      linked s p.2.1 ∧ readWords s p.2.1 0 1 = some [0#32] ∧ bit c 63 = true ∧ bit c 61 = true ∧ capHeld s c = true
        ∧ (∀ x ∈ k.R.sends, x.kept = false) ∧ p.2.2 ≤ k.t.len.toNat
        ∧ isRoom k.R s (recordSend s k.R k (theRec (wLink 0xF0)) (linkHdr k) (some 5) (.message [0#32] 4 9#32) 8#16 0) = true
        ∧ isRoom k.R s (recordSend s k.R k (theRec (wLink 0xF2)) (linkHdr k) (some 5) (.post 0 [0#32]) 8#16 0) = true := by
  unfold linked; decide +kernel

theorem test_meets_LinkRecordsComplete_others :
    (let k := theTake sRecv
     linked sRecv 0xF1 ∧ 1 ≤ k.t.len.toNat ∧ (nth 0#32 k.t.e 1).toNat = 65536
      ∧ linkCheck k.R (theRec (wLink 0xF1)) (linkAddrs k.R (theRec (wLink 0xF1)) 0 16384) = none ∧ (k.R.buffers.filter fun b => b.box == 5).length < 16
      ∧ (sRecv.regions.map fun R => R.buffers.length).sum < 4096)
    ∧ (let k := theTake sNred
       linked sNred 0xF3 ∧ 3 ≤ k.t.len.toNat ∧ treeOk sNred k.R 5 = true ∧ k.R.checkSram 4 [0, 4] = none ∧ readWords sNred 0xF3 0 2 = some [0#32, 0#32]
        ∧ (∀ x ∈ k.R.sends, x.kept = false)
        ∧ isRoom k.R sNred (recordSend sNred k.R k (theRec (wLink 0xF3)) (linkHdr k) none (.contribution 5 1 0#2 .i32 [0#32, 0#32] false) 4#16 0) = true)
    ∧ (let k := theTake sCall
       linked sCall 0xF4 ∧ (∀ x ∈ k.R.calls, x.kept = false) ∧ k.R.linkRoom sCall k.u.page (linkHdr k).round 1 = .room) := by
  unfold linked; decide +kernel

/-- A packet of a body for the region 0 of partition 7, here. -/
def pktOf (body : Body) : Packet := { srcDev := 0, srcRid := 0, cap := 5, dstDev := 0, dstRid := 0, eport := 5, part := 7#16, id := 3, body := body }
/-- A region of partition 7. -/
def r7 : Region := { theRegion sIadd with part := 7#16 }
def sent7 (body : Body) : Send :=
  { pkt := pktOf body, gate := 32, round := 0#12, key := default, st := .sent, since := 0, cap := some 5, report := none, site := ⟨0, 0⟩, raddr := 0, kept := false }
def with7 (R : Region) : State := { sIadd with regions := [R] }
/-- Port 15 is up and holds partition 7. -/
def ported : State :=
  let s := with7 r7
  { s with links := { s.links with ports := modNth s.links.ports 15 (fun x => { x with up := true }), parts := [(15 * 16 + 15, (true, 7#16))] } }

/-- The same beside a region whose share is all of the link gateway's Siding. -/
def crowded : State :=
  let R := theRegion sSend
  { ported with regions := [r7, { R with rid := 1, cfg := { R.cfg with egress := 131072 } }] }

theorem test_meets_LinkEventsComplete_room :
    r7.inRoom ported (keptItem (pktOf (.token emptyToken)) emptyToken) = true ∧ r7.inRoom crowded (keptItem (pktOf (.token emptyToken)) emptyToken) = false
      ∧ (crowded.links.ports[15]?).any (fun x => x.up && x.en) ∧ partOn crowded 15 7#16 = true ∧ crowded.receiver? 0 7#16 = some r7 := by
  decide +kernel

theorem test_meets_LinkEventsComplete_packets :
    (let s := with7 { r7 with sends := [sent7 (.post 0 [])] }
     s.regions = { r7 with sends := [sent7 (.post 0 [])] } :: [] ∧ (sent7 (.post 0 [])).st = .sent ∧ (sent7 (.post 0 [])).report = none)
    ∧ ((ported.links.ports[15]?).any (fun x => x.up && x.en) ∧ partOn ported 15 7#16 = true ∧ (pktOf (.token emptyToken)).dstDev = ported.self
      ∧ ported.receiver? 0 7#16 = some r7)
    ∧ (let b : Buffer := { box := 5, global := false, addr := 0x40, cap := 4, unit := ⟨0, 0⟩, dest := 4#16, hdr := emptyToken, queue := 0, trig := default }
       let it := { keptItem (pktOf (.message [1#32, 2#32] 8 9#32)) emptyToken with onWay := false }
       let s := with7 { r7 with items := [it], buffers := [b] }
       let R := theRegion s
       s.region? 0 = some R ∧ R.live = true ∧ R.items = [it] ∧ it.pkt = some (pktOf (.message [1#32, 2#32] 8 9#32)) ∧ s.links.waiting = []
        ∧ (R.buffers.find? fun b => b.box == 5) = some b ∧ b.global = false ∧ 4 = min 8 b.cap) := by
  decide +kernel

theorem test_meets_LinkEventsComplete_noToken : ∀ t, (sent7 (.post 0 [])).pkt.body ≠ .token t := by intro t h; cases h

/-- An entry of a page table (Table 8-7): valid, a leaf or not, readable and writable, of an address. -/
def pte (leaf : Bool) (pa : Nat) : List Byte := toBytes 8 (2 ^ 63 + (if leaf then 2 ^ 62 + 2 ^ 61 + 2 ^ 60 else 0) + pa)
/-- A page table at 0x10000 that maps the lowest gigabyte of addresses to itself. -/
def mapped (s : State) : State :=
  let s1 := inRegion s fun R => { R with cfg := { R.cfg with rt := 0x10000 } }
  memWrite (memWrite s1 0 0x10000 (pte false 0x11000)) 0 0x11000 (pte true 0)
def lowPage : Tlb := { va := 0, lg := 30, pa := 0, r := true, w := true }
def key7 (s : State) : State := { s with trust := { s.trust with keys := modNth s.trust.keys 63 fun _ => { v := true, part := 7#16, key := 5 } } }
def sPosted : State :=
  let s := key7 (mapped (with7 r7))
  { s with links := { s.links with waiting := [pktOf (.post 0x40 [1#32])] } }
def isOkWalk : Walked → Option (List Tlb)
  | .ok ts => some ts
  | _ => none

theorem test_meets_LinkEventsComplete_post :
    let s := sPosted
    let R := theRegion s
    s.links.waiting = pktOf (.post 0x40 [1#32]) :: [] ∧ s.gone 0 = false ∧ s.receiver? 0 7#16 = some R ∧ s.slotOf R.part = some 63
      ∧ isOkWalk (walkAll s R false true [0x40] []) = some [lowPage] ∧ tlbFind [lowPage] 0x40 = some lowPage ∧ lowPage.paOf 0x40 = 0x40
      ∧ provBlocks s (some R.keyRid) 0x40 = false := by
  decide +kernel

def aCall : Call :=
  { ticket := 0, strong := false, queue := 0, tok := emptyToken, unit := ⟨0, 0⟩, dest := 4#16, key := default, raddr := 0, st := .answered, came := 0,
    kept := false, resp := some (0#3, .n32, false, [5#32]) }
def anInst : Inst := { tree := 5, inst := 1, fmt := .i32, op := 0#2, inputs := [(16, .i32, 0#2, [5#32], false)], first := 0, up := false, out := none, loc := none }
/-- A tree of the local input and, perhaps, port 0, of one microsecond. -/
def treed (child : BitVec 16) (cycle : Nat) : State :=
  let s := with7 r7
  { s with cycle := cycle, links := { s.links with insts := [anInst], trees := [(5, { v := true, loc := true, root := true, parent := 0#4, child := child, part := 7#16, deadline := 1#20 })] } }

theorem test_meets_LinkEventsComplete_others :
    (let x := { sent7 (.post 0 []) with report := some (⟨0, 0⟩, 4#16, emptyToken), pkt := { pktOf (.post 0 []) with dstDev := 1 } }
     let s := with7 { r7 with sends := [x] }
     s.region? 0 = some (theRegion s) ∧ (theRegion s).live = true ∧ (theRegion s).sends = [x] ∧ x.pkt.id = 3 ∧ x.st = .sent ∧ x.pkt.dstDev ≠ s.self)
    ∧ (let s := with7 { r7 with responses := [aCall] }
       s.region? 0 = some (theRegion s) ∧ (theRegion s).live = true ∧ (theRegion s).responses = aCall :: [] ∧ aCall.resp = some (0#3, .n32, false, [5#32]))
    ∧ ((with7 r7).receiver? 0 7#16 = some r7 ∧ (1, 2, 0) ∉ (with7 r7).links.answers ∧ 1 ≠ (with7 r7).self)
    ∧ (let s := with7 { r7 with armed := true, probes := [(1, 2)] }
       s.region? 0 = some (theRegion s) ∧ (theRegion s).armed = true ∧ (1, 2) ∈ (theRegion s).probes ∧ 1 ≠ s.self)
    ∧ (State.reset.links.ports[0]?).any (fun x => !x.up) ∧ (State.reset.links.ports[15]?).any (fun x => !x.up) := by
  decide +kernel

/-- The item by which the response of `aCall` arrives. -/
def respItem (s : State) : Item :=
  { id := s.links.nextId, pins := [], pkt := none, dest := some (aCall.unit, aCall.dest), tok := { aCall.tok with fmt := .n32, e := clearAbove 0 [5#32] },
    global := false, addr := 0, words := [], onWay := true, stamped := none }
def sProbed : State := with7 { r7 with armed := true, probes := [(0, 0)] }

theorem test_meets_LinkEventsComplete_own :
    (theRegion (with7 { r7 with responses := [aCall] })).inRoom (with7 { r7 with responses := [aCall] }) (respItem (with7 { r7 with responses := [aCall] })) = true
      ∧ sProbed.receiver? 0 7#16 = some (theRegion sProbed) ∧ sProbed.self = 0 ∧ sProbed.region? 0 = some (theRegion sProbed) ∧ (theRegion sProbed).armed = true
      ∧ (0, 0) ∈ (theRegion sProbed).probes ∧ (theRegion sProbed).part = 7#16 ∧ (0, 0, 0) ∉ sProbed.links.answers := by
  decide +kernel

theorem test_meets_LinkEventsComplete_trees :
    ((treed 0#16 0).inst? 5 1 = some anInst ∧ anInst.out.isNone ∧ anInst.up = false ∧ treeInputs ((treed 0#16 0).tree 5) = [16])
    ∧ (let s := treed 1#16 Config.microsecond
       s.inst? 5 1 = some anInst ∧ 0 < (s.tree 5).deadline.toNat ∧ anInst.first + (s.tree 5).deadline.toNat * Config.microsecond ≤ s.cycle
        ∧ ∃ p ∈ treeInputs (s.tree 5), ∀ q ∈ anInst.inputs, q.1 ≠ p) := by
  decide +kernel

theorem test_meets_LinkEventsComplete_input : anInst.inputs = [(16, .i32, 0#2, [5#32], false)] ∧ anInst.out = none := ⟨rfl, rfl⟩

/-! The Yard, rounds, strikes -/

def sWalk (table : State → State) : State :=
  let s := table (buffered [bufAcc wAtomGlobal 1 .buffered 0])
  { s with walks := [{ rid := 0, unit := ⟨0, 3⟩, acc := 1, va := 0x40, rd := true, wr := true }] }

theorem test_meets_PageWalkCompletes :
    (let s := sWalk mapped
     let R := theRegion s
     s.region? 0 = some R ∧ (s.walks.all fun w => R.wants w) ∧ s.walks.length = 1 ∧ walkVa s R.cfg.rt 0x40 true true = .page lowPage)
    ∧ (let s := sWalk absentTable
       let R := theRegion s
       s.region? 0 = some R ∧ (s.walks.all fun w => R.wants w) ∧ s.walks.length = 1 ∧ walkVa s R.cfg.rt 0x40 true true = .absent) := by
  decide +kernel

/-- A RUNNING region of one page with idle units, changed. -/
def idleRegion (g : Region → Region) : Region :=
  g { theRegion sIadd with units := [0, 1, 2, 3].map probeSite }
/-- The device with such a region. -/
def oneRegion (g : Region → Region) : State := with7 (idleRegion g)
/-- What all of `YardEventsComplete` but its last part asks. -/
def calm (s : State) : Prop :=
  s.region? 0 = some (theRegion s) ∧ (theRegion s).killing = false ∧ (theRegion s).aside = false ∧ (theRegion s).roll = none
    ∧ (theRegion s).errand = none
/-- An item that no port can carry. -/
def farSend : Send := { sent7 (.post 0 []) with pkt := { pktOf (.post 0 []) with dstDev := 1 } }
def sLinkdown : State := oneRegion fun R => { R with st := .frozen, draining := true, sends := [farSend] }
/-- A region that has had its slice, and an EVICTED one; the pool is in use. -/
def twoRegions (prio : Nat) : State :=
  let s := oneRegion fun R => { R with oneSlice := true }
  let out := idleRegion fun R => { R with rid := 1, st := .evicted, backTo := .running, prio := prio, x0 := 1 }
  { s with regions := s.regions ++ [out], cycle := 1000000000, yard := { s.yard with poolSize := 1#32, minwait := 1#16 } }

theorem test_meets_YardEventsComplete_start :
    (let s := oneRegion fun R => { R with st := .allocated, loading := true }
     calm s ∧ (theRegion s).loading = true ∧ (theRegion s).dies = [0])
    ∧ (let s := oneRegion fun R => { R with st := .loaded, armed := true, acks := [0] }
       calm s ∧ (theRegion s).armed = true ∧ (theRegion s).st = .loaded ∧ (theRegion s).dep = none ∧ (theRegion s).probes = []
        ∧ (theRegion s).treesReady s = true ∧ s.boot.thermtrip = false ∧ ∀ d ∈ (theRegion s).dies, d ∈ (theRegion s).acks)
    ∧ (let s := oneRegion fun R => { R with halting := true }
       calm s ∧ (theRegion s).st = .running ∧ (theRegion s).halting = true ∧ (theRegion s).halted s.cycle = true) := by
  unfold calm; decide +kernel

theorem test_meets_YardEventsComplete_linkdown :
    calm sLinkdown ∧ (theRegion sLinkdown).st = .frozen ∧ (theRegion sLinkdown).draining = true ∧ (theRegion sLinkdown).enginesDone sLinkdown = true
      ∧ ((theRegion sLinkdown).unacked.any fun x => x.stuck sLinkdown) = true ∧ (theRegion sLinkdown).rid = 0
      ∧ ((quiesceRegion sLinkdown (theRegion sLinkdown)).region? 0).any (fun Q => Q.errand.isNone) = true := by
  unfold calm; decide +kernel

theorem test_meets_YardEventsComplete_share :
    (let s := twoRegions 0
     let R := theRegion s
     calm s ∧ s.yard.poolSize ≠ 0#32 ∧ allocWaits s = false ∧ errandsOpen s = false ∧ s.yard.restoring = none ∧ R.oneSlice = true ∧ R.idleRun = true
      ∧ noStall s 0 = true ∧ R.since + s.yard.sliceCycles ≤ s.cycle ∧ (restoreOrder s).length = 1)
    ∧ (let s := twoRegions 0
       (s.region? 1).any fun R => R.st == .evicted && s.yard.minwait != 0#16 && decide (R.since + s.yard.minwait.toNat * s.yard.sliceCycles ≤ s.cycle)
         && (originFor s R).isSome && R.backTo == .running && s.boot.thermtrip == false && R.roll.isNone && R.errand.isNone && !R.killing && !R.aside
         && (nextRestore s).any fun x => x.1 == R && x.1.rid == 1 && pagesDying s x.2.1 x.2.2 R.w R.h == false)
    ∧ (let s := oneRegion fun R => { R with killing := true }
       (theRegion s).killing = true ∧ (theRegion s).unacked = []) := by
  unfold calm; decide +kernel

/-- A SOURCE whose circuit ends at a SINK of the same cell, which has seen the marker of the open round. -/
def sSeal : State :=
  let w := rec3 2 0x80 1 0 0 12 0xFFFF 0 0x00020003
  let s := inUnit (holding w) fun U =>
    { U with elem := U.elem ++ [(3, BitVec.ofNat 32 (rec3 0 0x81 1 0 0 0xFFFF 0xFFFF 0 0))], marks := U.marks ++ [(3, 1#2)], switch := 0x80080000#32 :: List.replicate 15 0#32 }
  inRegion s fun R => { R with markers := [{ unit := ⟨0, 0⟩, kind := 3, node := 3, port := 0, round := 0#12, count := 1 }] }
def wRound : Call := { aCall with st := .queued }
/-- A pair whose members hold one call each at the comparator. -/
def sPair : State :=
  let s := oneRegion fun R => { R with pair := some (.primary 1) }
  let sh := idleRegion fun R => { R with rid := 1, pair := some (.shadow 0), x0 := 1 }
  let c (rid : Nat) (b : Bool) : Comp := { rid := rid, primary := b, round := 0#12, item := .call wRound }
  { s with regions := s.regions ++ [sh], comp := [c 0 true, c 1 false] }

theorem test_meets_RoundEventsComplete :
    ((theRegion sSeal).killing = false ∧ (theRegion sSeal).roll = none ∧ (theRegion sSeal).st = .running
      ∧ (theRegion sSeal).canSeal sSeal.self (theRegion sSeal).openRound = true)
    ∧ (let s := { (oneRegion fun R => { R with seals := [(0#12, 0)] }) with cycle := 288 }
       let R := theRegion s
       R.killing = false ∧ R.seals = (0#12, 0) :: [] ∧ 0 + 288 ≤ s.cycle ∧ R.roll = none ∧ R.deafPage s = false ∧ R.pair = none ∧ R.held = [] ∧ R.calls = []
        ∧ R.partner? s = none ∧ ((R.confirm s.ticks 0#12).stampCalls s.ticks 0#12).eosDue s.self = false)
    ∧ (let R := idleRegion fun R => { R with roll := some { c := none, area := [], back := .running } }
       R.killing = false ∧ R.roll = some { c := none, area := [], back := .running } ∧ R.fault = none ∧ R.badUndo none = none)
    ∧ (let R := idleRegion fun R => { R with errTags := [(0#12, default)] }
       R.killing = false ∧ R.errTags = [(0#12, default)] ∧ R.live = true ∧ 0#12 ∉ R.replayed ∧ R.badUndo none = none)
    ∧ (let R := idleRegion fun R => { R with errTags := [(5#12, default)], conf := some 3#12 }
       R.killing = false ∧ R.live = true ∧ 5#12 ∉ R.replayed ∧ R.badUndo (some 4#12) = none)
    ∧ (let R := theRegion sPair
       R.killing = false ∧ sPair.comp.length = 2 ∧ (R.partner? sPair).map (·.rid) = some 1 ∧ (CompItem.call wRound).agrees (.call wRound) = true
        ∧ (sPair.comp.find? fun e => e.rid == 1 && e.round == 0#12 && e.item.sameKey (.call wRound)).isSome
        ∧ (∀ e ∈ sPair.comp, e.rid = 0 → older e.round 0#12 = false) ∧ sPair.mismatched R ((R.partner? sPair).getD default) 0#12 = false) := by
  decide +kernel

/-- A sealed round with a held line and a call, alone or in a pair, at a cycle. -/
def heldLine (rid : Nat) : Held :=
  { siding := 0, va := 0x40, pa := some 0x40, op := .write, rel := false, mask := 1#16, data := List.replicate 16 7#32, key := { (default : Key) with rid := rid }, kept := false, under := [] }
def sealed (pair : Bool) (cycle : Nat) : State :=
  let R := idleRegion fun R =>
    { R with part := 7#16, seals := [(0#12, 0)], held := [heldLine 0], calls := [{ aCall with st := .unconfirmed, resp := none }], pair := if pair then some (.primary 1) else none }
  let sh := idleRegion fun R => { R with rid := 1, pair := some (.shadow 0), x0 := 1 }
  { (key7 (with7 R)) with regions := if pair then [R, sh] else [R], cycle := cycle, home := { Home.reset with dedup := [{ key := { (default : Key) with own := 9 }, line := 1, value := none, args := [] }] } }

theorem test_meets_RoundEventsComplete_confirm :
    (∀ p ∈ [false, true], let s := sealed p 288
      let R := theRegion s
      s.region? 0 = some R ∧ R.killing = false ∧ R.seals = (0#12, 0) :: [] ∧ 0 + 288 ≤ s.cycle ∧ R.roll = none ∧ R.deafPage s = false ∧ R.leaving = []
        ∧ (R.held.filter fun h => h.key.round == 0#12) = [heldLine 0] ∧ (R.pair = none ↔ p = false) ∧ (heldLine 0).blocked s R.keyRid = false
        ∧ R.calls.any fun c => c.st == .unconfirmed)
    ∧ (sealed false 287).cycle < 0 + 288
    ∧ (let s := { sealed false 288 with yard := { (sealed false 288).yard with deaf0 := 1#64 } }
       (theRegion s).deafPage s = true) := by
  decide +kernel

/-- A rollback under a fault, and a round that goes wrong a second time. -/
theorem test_meets_RoundEventsComplete_faults :
    (∀ h ∈ [false, true], let s := oneRegion fun R => { R with fault := some (alarmRecord 1), roll := some { c := none, area := [], back := .frozen }, halting := h }
      let R := theRegion s
      R.killing = false ∧ R.fault.isSome = true ∧ R.badUndo none = none
        ∧ ((countRollback ((rollRegion s 0 none false false).modRegion 0 fun Q => { Q with roll := none })).region? 0).any fun Q => (Q.scrub []).isNone)
    ∧ (let s := oneRegion fun R => { R with errTags := [(5#12, default)], replayed := [5#12] }
       (theRegion s).killing = false ∧ (theRegion s).live = true ∧ (theRegion s).errTags = [(5#12, default)] ∧ 5#12 ∈ (theRegion s).replayed) := by
  decide +kernel

/-- Lines of the pair's members at the comparator, the shadow's data its own or the primary's. -/
def twoLines (v : Nat) : State :=
  let d := { heldLine 0 with data := List.replicate 16 (BitVec.ofNat 32 v) }
  { sPair with comp := [{ rid := 0, primary := true, round := 0#12, item := .line (heldLine 0) }, { rid := 1, primary := false, round := 0#12, item := .line d }] }

theorem test_meets_RoundEventsComplete_lines :
    ∀ v ∈ [7, 8], let s := twoLines v
      let c := s.comp.headD default
      let R := theRegion s
      c.rid = 0 ∧ (R.partner? s).map (·.rid) = some 1
        ∧ (s.comp.find? fun e => e.rid == 1 && e.round == c.round && e.item.sameKey c.item).any (fun d => d.item.agrees c.item == (v == 7))
        ∧ c.primary = true ∧ (∀ e ∈ s.comp, e.rid = 0 → older e.round c.round = false)
        ∧ (v = 7 → s.mismatched R ((R.partner? s).getD default) c.round = false) ∧ (heldLine 0).blocked s R.keyRid = false := by
  decide +kernel

/-- A region in a rollback over its own strike cell, its MU's words marked. -/
def scrubbing (bad : List Nat) : State :=
  oneRegion fun R => (R.modMu 0 fun m => { m with bad := bad }) |> fun Q => { Q with roll := some { c := none, area := [R.cellOf 0], back := .running } }

theorem test_meets_RoundEventsComplete_scrub :
    ∀ p ∈ [(([] : List Nat), (none : Option (Nat × Nat))), ([65535], some (0, 65535))], let s := scrubbing p.1
      let x : Roll := { c := none, area := [(theRegion s).cellOf 0], back := .running }
      (theRegion s).killing = false ∧ (theRegion s).roll = some x ∧ (theRegion s).fault = none ∧ (theRegion s).badUndo none = none
        ∧ (((countRollback ((rollRegion s 0 none false false).modRegion 0 fun Q => { Q with roll := none, st := x.back })).region? 0).map fun Q => Q.scrub x.area)
          = some p.2 := by
  decide +kernel

theorem test_meets_StrikeEventsComplete :
    ((∀ R ∈ (oneRegion id).regions, R.seals = []) ∧ (oneRegion id).yard.reports ≠ 0xFFFFFFFF#32 ∧ (oneRegion id).boot.step = 9
      ∧ (oneRegion id).yard.iftTest = none ∧ State.reset.boot.step ≠ 9 ∧ 1 ≤ 1 ∧ 7 ≤ 7)
    ∧ (let s := oneRegion id
       let s := { s with yard := { s.yard with deaf0 := 1#64 } }
       let R := theRegion s
       calm s ∧ R.deafPage s = true ∧ R.st = .running ∧ R.loading = false ∧ (place s [0] R.w R.h (some R) none).any fun o =>
         pagesDying s o.1 o.2 R.w R.h == false && sharesBusy s (R.relocate o.1 o.2) == false)
    ∧ (let s := State.reset
       nextCluster s.yard.iftRet s.yard.iftNext.toNat = some 0 ∧ s.yard.iftTest = none ∧ errandsOpen s = false ∧ (∀ R ∈ s.regions, R.inCluster 0 = false))
    ∧ (let s := { State.reset with yard := { State.reset.yard with iftTest := some 31 } }
       s.yard.iftTest = some 31 ∧ (∀ R ∈ s.regions, R.inCluster 31 = true → R.aside = true))
    ∧ (let s := oneRegion fun R => { R with aside := true }
       let s := { s with yard := { s.yard with iftTest := some 0 } }
       s.yard.iftTest = some 0 ∧ (∀ R ∈ s.regions, R.inCluster 0 = true → R.aside = true) ∧ (theRegion s).inCluster 0 = true)
    ∧ (let s := sealed false 288
       s.boot.step = 9 ∧ (s.regions.foldl (fun s R => confirmDue R.rid R.seals.length s) s).regions.all fun R => R.seals.isEmpty) := by
  unfold calm; decide +kernel

/-- A line of memory that another slot's key wrote, slot 0 holding key 7. -/
def keptLine : State :=
  { State.reset with mem := [(64, 5#8)], owners := [{ line := 1, key := 9 }], trust := { State.reset.trust with keys := modNth State.reset.trust.keys 0 fun _ => { v := true, part := 0xFFFF#16, key := 7 } } }

theorem test_meets_DeviceEventsComplete_reset :
    Memory.wf keptLine.mem = true ∧ ownerOf keptLine.owners (64 / 64) ≠ some (keptLine.slotKey 0) ∧ keptLine.slotKey 0 ≠ 0
      ∧ memByte keptLine 9 64 = 5#8 ∧ memByte (warmReset keptLine) 9 64 = 5#8 ∧ (warmReset keptLine).trust.keys[0]?.isSome = true
      ∧ inDeviceMemory keptLine (64 * 1) = true := by
  decide +kernel

theorem test_meets_DeviceEventsComplete :
    (let s := { State.reset with trust := { State.reset.trust with dbg := 9#16 } }
     bit s.trust.dbg.toNat 0 = true ∧ bit s.trust.dbg.toNat 3 = true ∧ bit s.trust.dbg.toNat 4 = false)
    ∧ State.reset.boot.step = 1
    ∧ (let s := { State.reset with boot := { State.reset.boot with step := 2 } }
       s.boot.step = 2 ∧ s.boot.bootfail = none)
    ∧ (let s := { State.reset with boot := { State.reset.boot with step := 6 } }
       s.boot.step = 6 ∧ s.boot.bootfail = none ∧ s.trust.lcs ≤ 2) := by
  decide +kernel

/-- The device with TDI 63 running in partition 7, and a window 15 of a peer. -/
def sOutside : State :=
  let s := key7 ported
  { s with
    tdis := modNth s.tdis 63 fun T => { T with st := .run, en := true, bound := true, part := 7#16 }
    links := { s.links with windows := [(15, (true, true, 1#20))] } }

theorem test_meets_OutsideAccessesComplete :
    (sOutside.tdis[63]?).any (fun t => t.st == .run && t.en && t.part == 7#16) ∧ sOutside.slotOf 7#16 = some 63 ∧ inDeviceMemory sOutside 0x40 = true
      ∧ inDeviceMemory sOutside (2 ^ 39 - 8) = true ∧ (agentAccess sOutside (16 + 63) 63 0x40 (.store 3 5#64)).isSome
      ∧ (agentAccess sOutside (81 + 1) 63 0x40 (.lr 3 1#5)).isSome ∧ (agentAccess sOutside (81 + 1) 0 0x40 (.store 3 5#64)).isSome
      ∧ (agentAccess sOutside 80 0 0x40 (.store 3 5#64)).isSome ∧ sOutside.tdis.length ≤ 64 ∧ partOn sOutside 15 7#16 = true
      ∧ mapGet sOutside.links.windows 15 = some (true, true, 1#20) ∧ (1#20).toNat = 1 ∧ 7#16 ≠ 0xFFFF#16 := by
  decide +kernel

/-- A device with an identity, an open session of TDI 5 and one whose exchange is finished. -/
def sSpdm : State :=
  { State.reset with trust := { State.reset.trust with
      lcs := 2, nextSess := 3,
      sessions := [{ id := 1, owner := some 5, finished := false, keyNo := 0 }, { id := 2, owner := none, finished := true, keyNo := 0 }] } }
/-- A TDI 63 in a state. -/
def tdiAt (x : Tdisp) : State := { State.reset with tdis := modNth State.reset.tdis 63 fun T => { T with st := x } }

theorem test_meets_SpdmRequestsComplete :
    slotDie 0 = some 2 ∧ sSpdm.identity = true ∧ (∀ x ∈ sSpdm.trust.sessions, x.owner ≠ some 63) ∧ 63 < 64
      ∧ (sSpdm.trust.sessions.find? fun x => x.id == 1 && x.finished == false).isSome
      ∧ (sSpdm.trust.sessions.find? fun x => x.id == 2 && x.finished == true) = some { id := 2, owner := none, finished := true, keyNo := 0 }
      ∧ ((tdiAt .unlocked).tdis[63]?).map (·.st) = some .unlocked ∧ ((tdiAt .locked).tdis[63]?).map (·.st) = some .locked
      ∧ ((tdiAt .run).tdis[63]?).map (·.st) = some .run := by
  decide +kernel

/-! The Yard's instructions -/

theorem cellGet_row (b : Nat → Byte) (n k a : Nat) (h1 : k ≤ a) (h2 : a < k + n) :
    cellGet ((List.range' k n).map fun i => (i, b i)) a = some (b a) := by
  induction n generalizing k with
  | zero => omega
  | succ n ih =>
    rw [List.range'_succ, List.map_cons, cellGet]
    by_cases h : k = a
    · rw [if_pos h, h]
    · rw [if_neg h, if_neg (by omega), ih (k + 1) (by omega) (by omega)]

theorem ownerOf_row (key n k a : Nat) (h1 : k ≤ a) (h2 : a < k + n) :
    ownerOf ((List.range' k n).map fun i => { line := i, key := key }) a = some key := by
  induction n generalizing k with
  | zero => omega
  | succ n ih =>
    rw [List.range'_succ, List.map_cons, ownerOf, List.find?_cons]
    by_cases h : k = a
    · simp [h]
    · have e : (k == a) = false := by simp [h]
      simp only [e]
      exact ih (k + 1) (by omega) (by omega)

/-- A state whose hart accesses memory as it stands: M-mode, no PMP entry, no provisional line. -/
def bare (s : State) : Bool :=
  (s.hart s.me).dataPriv == .m && ((List.range 16).all fun i => bits (nth 0#8 (s.hart s.me).pmpcfg i).toNat 4 3 == 0) && s.home.prov.isEmpty

theorem hartAddr_of_bare {s : State} (h : bare s = true) (k : Kind3) (va n : Nat) (hv : va < 2 ^ 39) :
    s.hartAddr (s.hart s.me) (s.hart s.me).dataPriv k va n = .ok va := by
  simp only [bare, Bool.and_eq_true, beq_iff_eq, List.all_eq_true] at h
  obtain ⟨⟨h1, h2⟩, -⟩ := h
  have hp : (s.hart s.me).pmpOk .m k va n = true := by
    have : ((List.range 16).find? fun i => decide (((s.hart s.me).pmpRange i).1 < va + n) && decide (va < ((s.hart s.me).pmpRange i).2)) = none := by
      rw [List.find?_eq_none]
      intro i hi
      simp [Hart.pmpRange, h2 i hi]
    unfold Hart.pmpOk
    rw [this]
    rfl
  have ht : targetOf s va = .hbm := by unfold targetOf; rw [if_pos hv]
  have hw : windowOk s va (decide (k = .store)) = true := by simp [windowOk, ht]
  simp [State.hartAddr, h1, hp, hw]

theorem operand_of_bare {s : State} (h : bare s = true) (k : Kind3) (va : W64) (n : Nat) (hv : va.toNat + n + 8 < 2 ^ 39) :
    ∃ pa, s.operand k va n = .ok pa ∧ ∀ i, i < n → pa i = va.toNat + i := by
  have hp : s.home.prov = [] := by simp [bare] at h; exact h.2
  have first : ∀ j, (partOf va.toNat n j).1 ≤ va.toNat + 8 * j := by intro j; unfold partOf; dsimp only; split <;> omega
  have at8 : ∀ j, 8 * j < va.toNat % 8 + n + 7 → s.hartAddr (s.hart s.me) (s.hart s.me).dataPriv k ((partOf va.toNat n j).1 % 2 ^ 64) (partOf va.toNat n j).2
      = .ok (partOf va.toNat n j).1 := by
    intro j hj
    have := first j
    rw [Nat.mod_eq_of_lt (by omega)]
    exact hartAddr_of_bare h k _ _ (by omega)
  have hbad : ((List.range (ceilDiv (va.toNat % 8 + n) 8)).findSome? fun j =>
      match s.hartAddr (s.hart s.me) (s.hart s.me).dataPriv k ((partOf va.toNat n j).1 % 2 ^ 64) (partOf va.toNat n j).2 with
      | .error c => some (c, (partOf va.toNat n j).1 % 2 ^ 64)
      | .ok _ => none) = none := by
    rw [List.findSome?_eq_none_iff]
    intro j hj
    rw [List.mem_range] at hj
    rw [at8 j (by simp only [ceilDiv, if_neg (show ¬ (8 : Nat) = 0 by decide)] at hj; omega)]
  refine ⟨fun i => match s.hartAddr (s.hart s.me) (s.hart s.me).dataPriv k ((partOf va.toNat n ((va.toNat % 8 + i) / 8)).1 % 2 ^ 64)
      (partOf va.toNat n ((va.toNat % 8 + i) / 8)).2 with
    | .ok a => a + (va.toNat + i - (partOf va.toNat n ((va.toNat % 8 + i) / 8)).1)
    | .error _ => 0, ?_, ?_⟩
  · unfold State.operand
    simp only [provBlocks, hp, List.any_nil]
    generalize hx : List.findSome? _ _ = x
    have e : x = none := hx.symm.trans hbad
    rw [e]
    simp <;> rfl
  · intro i hi
    simp only [at8 ((va.toNat % 8 + i) / 8) (by omega)]
    have : (partOf va.toNat n ((va.toNat % 8 + i) / 8)).1 ≤ va.toNat + i := by unfold partOf; dsimp only; split <;> omega
    omega

/-- The state with what lies in memory from address 0 on, under no key. -/
def lies (s : State) (b : Bytes) (n : Nat) : State :=
  { s with mem := (List.range' 0 n).map (fun i => (i, b i)), owners := (List.range' 0 (n / 64)).map (fun i => { line := i, key := 0 }) }

theorem operandByte_lies (s : State) (b : Bytes) (n a i : Nat) (pa : Nat → Nat) (hk : s.slotKey 0 = 0) (hn : n % 64 = 0) (hp : pa i = a)
    (ha : a < n) (hn2 : n < 2 ^ 39) : (lies s b n).operandByte pa i = b a := by
  have ht : targetOf (lies s b n) a = .hbm := by unfold targetOf; rw [if_pos (by omega)]
  have hk' : keyFor (lies s b n) 0 a = 0 := by
    unfold keyFor
    split
    · exact hk
    · rfl
  simp only [State.operandByte, hp, readBytes, ht, memBytes, hk', nth, List.getD_cons_zero]
  simp only [memByte, lies]
  rw [ownerOf_row 0 _ 0 _ (by omega) (by omega), cellGet_row b n 0 a (by omega) (by omega)]
  simp

theorem bytesOf_lies (s : State) (b : Bytes) (n m : Nat) (pa : Nat → Nat) (hk : s.slotKey 0 = 0) (hn : n % 64 = 0) (hn2 : n < 2 ^ 39) (hm : m ≤ n)
    (hp : ∀ i, i < m → pa i = i) : (lies s b n).bytesOf pa m = fun i => if i < m then b i else 0#8 := by
  funext i
  unfold State.bytesOf
  split
  · exact operandByte_lies s b n i i pa hk hn (hp i ‹_›) (by omega) hn2
  · rfl

theorem readImage_lies (s : State) (b : Bytes) (n : Nat) (kind : Nat) (hb : bare s = true) (hk : s.slotKey 0 = 0) (hn : n % 64 = 0) (hn2 : n < 2 ^ 38)
    (hn3 : 0x2000 ≤ n) (hz : ∀ i, n ≤ i → b i = 0#8) (hm : numAt b 0 8 = imageMagic) (ht : numAt b 0x10 8 = n) (hok : imageOk b kind = true) :
    (lies s b n).readImage 0#64 [kind] = .ok b := by
  have hb' : bare (lies s b n) = true := hb
  obtain ⟨p, h1, h2⟩ := operand_of_bare hb' .load 0#64 0x2000 (by simp)
  obtain ⟨q, h3, h4⟩ := operand_of_bare hb' .load 0#64 n (by simp; omega)
  have hp := bytesOf_lies s b n 0x2000 p hk hn (by omega) hn3 (by intro i hi; rw [h2 i hi]; simp)
  have hq := bytesOf_lies s b n n q hk hn (by omega) (Nat.le_refl _) (by intro i hi; rw [h4 i hi]; simp)
  have hq' : (fun i => if i < n then b i else 0#8) = b := by
    funext i
    split
    · rfl
    · exact (hz i (by omega)).symm
  rw [hq'] at hq
  have e1 : numAt (fun i => if i < 0x2000 then b i else 0#8) 0x10 8 = n := by rw [← ht]; simp [numAt, List.range, List.range.loop]
  have e2 : numAt (fun i => if i < 0x2000 then b i else 0#8) 0 8 = imageMagic := by rw [← hm]; simp [numAt, List.range, List.range.loop]
  unfold State.readImage
  rw [h1]
  simp only [hp, e1, e2]
  rw [if_neg (by simp; omega), h3]
  simp only [hq]
  rw [if_pos (by simp [hok])]

/-- The bytes of an image of one page that are not zero, by 4 KiB: the header, four sites (a SINK at the first), four empty sections. -/
def imgParts (kind : Nat) : List (Nat × List (Nat × Nat)) :=
  let site (at_ type pos len : Nat) (more : List (Nat × Nat)) : Nat × List (Nat × Nat) :=
    (at_, [(0, type), (6, pos), (9, len / 256 % 256), (10, len / 65536), (0x98, 1)] ++ more)
  [(0, [(0, 0x49), (1, 0x52), (2, 0x5A), (3, 0x49), (4, 0x4D), (5, 0x47), (6, 0x30), (7, 0x31), (8, 1), (12, kind), (0x11, 0xF0), (0x12, 0x0B), (0x18, 1), (0x1A, 1), (0x36, 1), (0x80, 1)]),
   site 2 1 0 0x15000 [(0xC00, 1)], (3, [(0, 0xFF), (1, 0xFF), (2, 0x7C), (3, 0x20)]), site 0x17 1 1 0x15000 [], site 0x2C 1 2 0x15000 [], site 0x41 2 3 0x7A000 [],
   (0xBB, [(0, 6), (9, 16)]), (0xBC, [(0, 7), (9, 16)]), (0xBD, [(0, 8), (9, 16)]), (0xBE, [(0, 9), (9, 16)])]
/-- An image of one page, of a kind. The two masks tell the pages and the rows of 16 bytes in which a byte is not zero. -/
def img (kind : Nat) : Bytes := fun i =>
  if Nat.testBit 0x78000000000000000000000000000002000010000080000d (i / 4096) && Nat.testBit 0x100000000000000000000000000000000000000000000030b (i % 4096 / 16) then
    match (imgParts kind).find? fun p => p.1 == i / 4096 with
    | some p => match p.2.find? fun q => q.1 == i % 4096 with
      | some q => BitVec.ofNat 8 q.2
      | none => 0#8
    | none => 0#8
  else 0#8
/-- Its length. -/
def imgLen : Nat := 0xBF000
/-- A region 0 of one page, allocated and not configured, and the registers that name it and address 0; destination x10. -/
def allocated : State :=
  let R := freshRegion 0 1 3 0 0 1 1
  State.modHart { State.reset with regions := [R] } 0 fun H => { H with x := modNth (modNth H.x 11 fun _ => BitVec.ofNat 64 R.handle) 12 fun _ => 0#64 }

theorem strayByte_img (kind : Nat) (x : Sect)
    (h : ((imgParts kind).all fun p => p.2.all fun q => let i := p.1 * 4096 + q.1
      decide (i < x.off) || decide (x.off + x.len ≤ i) || configByte x.type (i - x.off)) = true) : strayByte (img kind) x = none := by
  unfold strayByte
  rw [List.find?_eq_none]
  intro i hi
  rw [List.mem_range] at hi
  by_cases h0 : img kind (x.off + i) = 0#8
  · simp [h0]
  · unfold img at h0
    split at h0
    · split at h0
      rename_i p hp
      split at h0
      · rename_i q hq
        have e1 := List.find?_some hp
        have e2 := List.find?_some hq
        simp only [beq_iff_eq] at e1 e2
        have e : p.1 * 4096 + q.1 = x.off + i := by omega
        simp only [List.all_eq_true] at h
        have := h p (List.mem_of_find?_eq_some hp) q (List.mem_of_find?_eq_some hq)
        rw [e] at this
        simp only [Bool.or_eq_true, decide_eq_true_eq] at this
        have h3 : configByte x.type i = true := by
          rcases this with (h1 | h1) | h1
          · omega
          · omega
          · rwa [Nat.add_sub_cancel_left] at h1
        simp [h3]
      · exact absurd rfl h0
      · exact absurd rfl h0
    · exact absurd rfl h0

/-- Without a stray byte a configuration image is checked as a context image is. -/
theorem loadFault_plain (R : Region) (self : Nat) (b : Bytes) (h1 : strayHeader b = none)
    (h2 : ∀ x ∈ siteSects b ++ (imageIslands b).1, strayByte b x = none) (h3 : ∀ x ∈ tailSects b (imageIslands b).2, strayByte b x = none) :
    R.loadFault self b true = R.loadFault self b false := by
  unfold Region.loadFault
  have e1 : ((siteSects b ++ (imageIslands b).1).map fun x => strayByte b x) = (siteSects b ++ (imageIslands b).1).map fun _ => none := by
    apply List.map_congr_left
    intro x hx
    rw [h2 x hx]
  have e2 : ((tailSects b (imageIslands b).2).filterMap fun x => (strayByte b x).map fun i =>
      ({ cause := 0x05, page := 0, pos := 7, word := 0xD000, off := i / 16 } : Refused)) = [] := by
    rw [List.filterMap_eq_nil_iff]
    intro x hx
    simp [h3 x hx]
  simp only [if_true, e1, e2, h1, Bool.false_eq_true, if_false]
  rfl

theorem img_end (kind i : Nat) (h : imgLen ≤ i) : img kind i = 0#8 := by
  unfold img
  split
  rotate_left
  · rfl
  split
  · rename_i p hp
    have e1 := List.find?_some hp
    have m := List.mem_of_find?_eq_some hp
    simp only [beq_iff_eq] at e1
    have : p.1 ≤ 0xBE := by
      have h5 : ((imgParts kind).all fun p => decide (p.1 ≤ 0xBE)) = true := by simp [imgParts]
      simpa using List.all_eq_true.mp h5 p m
    unfold imgLen at h
    omega
  · rfl

def theSects : List Sect := siteSects (img 0) ++ (imageIslands (img 0)).1
def theTail : List Sect := tailSects (img 0) (imageIslands (img 0)).2

/-- RGN.REST and RGN.LOAD: an allocated region of one page, and an image of one page in memory at address 0. -/
def resting (kind : Nat) : State := lies allocated (img kind) imgLen

theorem readImage_resting (kind : Nat) (hm : numAt (img kind) 0 8 = imageMagic) (ht : numAt (img kind) 0x10 8 = imgLen) (hok : imageOk (img kind) kind = true) :
    (resting kind).readImage 0#64 [kind] = .ok (img kind) :=
  readImage_lies allocated (img kind) imgLen kind (by decide +kernel) (by decide +kernel) (by decide) (by decide) (by decide) (img_end kind) hm ht hok

/-- The region of such a state. -/
def blank : Region := freshRegion 0 1 3 0 0 1 1

theorem resting_named (kind : Nat) : Names (resting kind) ((resting kind).x 11#5).toNat blank ∧ (resting kind).x 12#5 = 0#64 := by
  have h : Names allocated (allocated.x 11#5).toNat blank ∧ allocated.x 12#5 = 0#64 := by decide +kernel
  exact h

/-- The region knows the device it is in. -/
theorem blank_dev (kind : Nat) : { blank with dev := (resting kind).self } = blank := by
  show { blank with dev := allocated.self } = blank
  decide +kernel

theorem test_meets_RegionInstructionsComplete_rest :
    Names (resting 1) ((resting 1).x 11#5).toNat blank ∧ blank.st = .allocated ∧ blank.loading = false ∧ ((resting 1).x 12#5).toNat % 4096 = 0
      ∧ (resting 1).readImage ((resting 1).x 12#5) [1] = .ok (img 1) ∧ imageW (img 1) = blank.w ∧ imageH (img 1) = blank.h
      ∧ (blank.configured (img 1)).fits (resting 1).self = true ∧ (blank.configured (img 1)).loadFault (resting 1).self (img 1) false = none
      ∧ sharesBusy (resting 1) (blank.configured (img 1)) = false := by
  refine ⟨(resting_named 1).1, rfl, rfl, by rw [(resting_named 1).2]; rfl, ?_, by decide +kernel, by decide +kernel, by decide +kernel, ?_, ?_⟩
  · rw [(resting_named 1).2]
    exact readImage_resting 1 (by decide +kernel) (by decide +kernel) (by decide +kernel)
  · show (blank.configured (img 1)).loadFault allocated.self (img 1) false = none
    decide +kernel
  · show sharesBusy allocated (blank.configured (img 1)) = false
    decide +kernel

theorem test_meets_RegionInstructionsComplete_load :
    ((resting 0).x 11#5).toNat < 2 ^ 32 ∧ Names (resting 0) ((resting 0).x 11#5).toNat blank ∧ blank.st = .allocated ∧ blank.loading = false
      ∧ ((resting 0).x 12#5).toNat % 4096 = 0 ∧ (resting 0).readImage ((resting 0).x 12#5) [0] = .ok (img 0) ∧ imageW (img 0) = blank.w
      ∧ imageH (img 0) = blank.h ∧ (blank.loadedFrom (img 0)).roles = true ∧ (blank.loadedFrom (img 0)).loadFault (resting 0).self (img 0) true = none
      ∧ sharesBusy (resting 0) (blank.loadedFrom (img 0)) = false := by
  refine ⟨?_, (resting_named 0).1, rfl, rfl, by rw [(resting_named 0).2]; rfl, ?_, by decide +kernel, by decide +kernel, by decide +kernel, ?_, ?_⟩
  · show (allocated.x 11#5).toNat < 2 ^ 32
    decide +kernel
  · rw [(resting_named 0).2]
    exact readImage_resting 0 (by decide +kernel) (by decide +kernel) (by decide +kernel)
  · show (blank.loadedFrom (img 0)).loadFault allocated.self (img 0) true = none
    rw [loadFault_plain]
    · decide +kernel
    · decide +kernel
    · have h : (theSects.all fun x => (imgParts 0).all fun p => p.2.all fun q => let i := p.1 * 4096 + q.1
          decide (i < x.off) || decide (x.off + x.len ≤ i) || configByte x.type (i - x.off)) = true := by decide +kernel
      exact fun x hx => strayByte_img 0 x (List.all_eq_true.mp h x hx)
    · have h : (theTail.all fun x => (imgParts 0).all fun p => p.2.all fun q => let i := p.1 * 4096 + q.1
          decide (i < x.off) || decide (x.off + x.len ≤ i) || configByte x.type (i - x.off)) = true := by decide +kernel
      exact fun x hx => strayByte_img 0 x (List.all_eq_true.mp h x hx)
  · show sharesBusy allocated (blank.loadedFrom (img 0)) = false
    decide +kernel

/-- A region of one idle page in a state, and the registers of hart 0: x11 names it, x12 is a number. -/
def yardly (st : RState) (v : Nat) : State :=
  let R := idleRegion fun R => { R with st := st }
  State.modHart { with7 R with turn := { State.reset.turn with who := .hart 0 } } 0 fun H =>
    { H with x := modNth (modNth H.x 11 fun _ => BitVec.ofNat 64 R.handle) 12 fun _ => BitVec.ofNat 64 v }
def ry (st : RState) : Region := idleRegion fun R => { R with st := st }

theorem test_meets_RegionInstructionsComplete_states :
    (∀ st ∈ [RState.loaded, .quiesced, .running], Names (yardly st 0) ((yardly st 0).x 11#5).toNat (ry st) ∧ (yardly st 0).x 12#5 = 0#64)
    ∧ (yardly .quiesced 0).boot.thermtrip = false ∧ (ry .quiesced).roll = none ∧ (ry .quiesced).errand = none ∧ (ry .running).errand = none
    ∧ (Names (yardly .running 11) ((yardly .running 11).x 11#5).toNat (ry .running) ∧ ((yardly .running 11).x 12#5).toNat ≤ 11)
    ∧ (let s := yardly .quiesced (63 + 2 ^ 8 * 31)
       let R := ry .quiesced
       Names s (s.x 11#5).toNat R ∧ (s.x 12#5).toNat = 63 + 2 ^ 8 * 31 ∧ placeAt s [R.rid] R.w R.h none 63 31 = true
        ∧ (R.atOrigin 63 31).fits s.self = true ∧ sharesBusy s (R.relocate 63 31) = false ∧ R.roll = none ∧ pagesDying s 63 31 R.w R.h = false) := by
  decide +kernel

theorem test_meets_RegionInstructionsComplete_slow :
    (yardly .quiesced 0).turn.slow = false ∧ ({ yardly .quiesced 0 with turn := { (yardly .quiesced 0).turn with slow := true } } : State).turn.slow = true := by
  decide +kernel

theorem test_meets_RegionInstructionsComplete_save :
    let s := yardly .quiesced 0
    Names s (s.x 11#5).toNat (ry .quiesced) ∧ (ry .quiesced).st = .quiesced ∧ (ry .quiesced).roll = none ∧ (s.x 12#5).toNat % 4096 = 0
      ∧ ∃ pa, s.operand .store (s.x 12#5) (ry .quiesced).imageLen = .ok pa := by
  have h : Names (yardly .quiesced 0) ((yardly .quiesced 0).x 11#5).toNat (ry .quiesced) ∧ (ry .quiesced).roll = none
      ∧ ((yardly .quiesced 0).x 12#5).toNat % 4096 = 0 ∧ bare (yardly .quiesced 0) = true
      ∧ ((yardly .quiesced 0).x 12#5).toNat + (ry .quiesced).imageLen + 8 < 2 ^ 39 := by decide +kernel
  obtain ⟨h1, h2, h3, h4, h5⟩ := h
  obtain ⟨pa, hp, -⟩ := operand_of_bare h4 .store _ _ h5
  exact ⟨h1, rfl, h2, h3, pa, hp⟩

/-- A placement spec of a register: W, H, priority, and the highest origin for one page with FIXED. -/
def specOf (w h more : Nat) : State :=
  State.modHart State.reset 0 fun H => { H with x := modNth H.x 11 fun _ => BitVec.ofNat 64 (w + 2 ^ 8 * h + more) }
def isAt (p : Placement) (x y : Nat) : Bool :=
  match p with
  | .at a b => a == x && b == y
  | _ => false

theorem test_meets_RegionInstructionsComplete_alloc :
    ∀ c ∈ [(specOf 64 32 0, 0, 0), (specOf 1 1 (2 ^ 16 * 11 + 2 ^ 21 + 2 ^ 32 * 63 + 2 ^ 40 * 31), 63, 31)],
      let s := c.1
      let v := (s.x 11#5).toNat
      s.sm = true ∧ s.trust.lock = false ∧ s.x 12#5 = 0#64 ∧ specOk v = true ∧ myTurn s 2048 = true ∧ s.freeRid = some 0
        ∧ isAt (findPages s (bits v 19 16) (bits v 7 0) (bits v 15 8) none (if bit v 21 then some (bits v 37 32, bits v 44 40) else none)
          (!bit v 20)) c.2.1 c.2.2 = true := by
  decide +kernel

/-! Calls, registers, the Trust Engine -/

/-- The registers x11 and x12 of hart 0. -/
def withRegs (s : State) (a t : Nat) : State :=
  State.modHart s 0 fun H => { H with x := modNth (modNth H.x 11 fun _ => BitVec.ofNat 64 a) 12 fun _ => BitVec.ofNat 64 t }

theorem ok_of_bare {s : State} (k : Kind3) (va : W64) (n : Nat) (h : bare s = true) (hn : va.toNat + n + 8 < 2 ^ 39) :
    ∃ pa, s.operand k va n = .ok pa := by
  obtain ⟨pa, h1, -⟩ := operand_of_bare h k va n hn
  exact ⟨pa, h1⟩

/-- Calls of region 0 and of TDI 63; the buffer near the end of HBM. -/
def called : State :=
  let s := withRegs (oneRegion fun R => { R with calls := [{ aCall with st := .queued, came := 5 }] }) 0x7FFFFFF000 0
  { s with tdis := modNth s.tdis 63 fun T => { T with calls := [{ aCall with st := .queued, came := 3 }] } }

theorem test_meets_CallInstructionsComplete_take :
    (called.sm = true ∧ called.x 12#5 = 0#64 ∧ (called.x 11#5).toNat % 64 = 0
      ∧ oldestCall (called.allCalls.filter fun x => x.2.1.ready x.2.2) = some (.host 63 0, { aCall with st := .queued, came := 3 }))
      ∧ ∃ pa, called.operand .store (called.x 11#5) 64 = .ok pa :=
  ⟨by decide +kernel, ok_of_bare _ _ _ (by decide +kernel) (by decide +kernel)⟩

/-- The answer to the call of ticket 7: one n32 value. -/
def answerBlock : Bytes := fun i => if i = 0 then 7#8 else if i = 5 then 1#8 else if i = 8 then 9#8 else 0#8
def answering : State :=
  lies (withRegs (oneRegion fun R => { R with calls := [{ aCall with st := .taken, ticket := 7 }] }) 0 0) answerBlock 64

theorem test_meets_CallInstructionsComplete_done :
    ∃ pa, answering.operand .load (answering.x 11#5) 64 = .ok pa ∧ answering.sm = true ∧ responseOk (answering.bytesOf pa 64) = true
      ∧ (answering.allCalls.find? fun x => x.2.1.ticket == numAt (answering.bytesOf pa 64) 0 4 && (x.2.1.st == .taken || x.2.1.st == .answered))
        = some (.region 0 0, { aCall with st := .taken, ticket := 7 }, [{ aCall with st := .taken, ticket := 7 }]) := by
  have hb : bare answering = true := by decide +kernel
  obtain ⟨pa, h1, h2⟩ := operand_of_bare hb .load (answering.x 11#5) 64 (by decide +kernel)
  have h0 : (answering.x 11#5).toNat = 0 := by decide +kernel
  have hq := bytesOf_lies (withRegs (oneRegion fun R => { R with calls := [{ aCall with st := .taken, ticket := 7 }] }) 0 0) answerBlock 64 64 pa
    (by decide +kernel) (by decide) (by decide) (by decide) (by intro i hi; rw [h2 i hi, h0, Nat.zero_add])
  refine ⟨pa, h1, by decide +kernel, ?_⟩
  rw [show answering.bytesOf pa 64 = _ from hq]
  decide +kernel

/-- TDI 63 at work, a call in its queue. -/
def windowed : State :=
  let s := State.reset
  { s with tdis := modNth s.tdis 63 fun T => { T with st := .run, en := true, calls := List.replicate 63 { aCall with st := .queued } } }
/-- A call written to a window: LEN 7, FMT 15, strong, queue 3. -/
def aWindowWrite : BitVec 512 := BitVec.ofNat 512 (2 ^ 64 * 7 + 2 ^ 72 * 15 + 2 ^ 80 + 2 ^ 88 * 3 + 2 ^ 384 * 64)

theorem test_meets_CallInstructionsComplete_window :
    let v := aWindowWrite
    let byte (i : Nat) : Nat := bits v.toNat (8 * i + 7) (8 * i)
    (nth Tdi.reset windowed.tdis 63).st = .run ∧ (nth Tdi.reset windowed.tdis 63).en = true
      ∧ ((nth Tdi.reset windowed.tdis 63).calls.filter fun c => c.st == .queued).length < 64
      ∧ byte 8 = 7 ∧ byte 9 = 15 ∧ byte 10 = 1 ∧ byte 11 = 3 ∧ bits v.toNat 127 96 = 0 ∧ bits v.toNat 511 448 = 0 ∧ bits v.toNat 447 384 % 64 = 0 := by
  decide +kernel

theorem test_meets_RegisterRowsComplete :
    (State.reset.sm = true ∧ State.reset.isM = true ∧ State.reset.yard.xpark = [])
    ∧ (let s := { State.reset with yard := { State.reset.yard with xpark := [⟨2047, 2 ^ 41 - 1, true, ⟨1023, 5⟩, 7⟩] } }
       s.sm = true ∧ s.yard.xpark = ⟨2047, 2 ^ 41 - 1, true, ⟨1023, 5⟩, 7⟩ :: [])
    ∧ (let p : Report := ⟨0, 2 ^ 41 - 1, true, ⟨0, 3⟩, 1⟩
       let v : W64 := xparkValue p ||| 0x4000000000000000#64
       (∀ ps ∈ [[⟨⟨0, 3⟩, 2, 2 ^ 57 - 16, false, true⟩, ⟨⟨0, 3⟩, 1, 2 ^ 57 - 8, true, true⟩], ([] : List Parked)],
        let s := oneRegion fun R => { R with parked := ps }
        let s : State := { s with yard := { s.yard with xpopped := [⟨0, 5, true, ⟨0, 3⟩, 9⟩, p] } }
        s.sm = true ∧ (s.yard.xpopped.find? fun p => v == xparkValue p ||| 0x4000000000000000#64) = some p ∧ (s.region? 0).map (·.parked) = some ps)
       ∧ (let s : State := { State.reset with yard := { State.reset.yard with xpopped := [p] } }
          (s.yard.xpopped.find? fun p => v == xparkValue p ||| 0x4000000000000000#64) = some p ∧ s.region? p.rid = none)
       ∧ (State.reset.yard.xpopped.find? fun p => v == xparkValue p ||| 0x4000000000000000#64) = none)
    ∧ (let s := oneRegion id
       s.sm = true ∧ s.yard.inval = none ∧ s.named ((BitVec.ofNat 64 (2 ^ 16) : W64).toNat % 2 ^ 32) = some (theRegion s))
    ∧ (let s := oneRegion fun R => { R with units := [] }
       let s := { s with yard := { s.yard with inval := some (0, 2 ^ 41 - 1, 2 ^ 31 - 1) } }
       s.yard.inval = some (0, 2 ^ 41 - 1, 2 ^ 31 - 1) ∧ (s.region? 0).any fun R => R.units == [] && R.parked == [])
    ∧ (let s := oneRegion id
       let s := { s with yard := { s.yard with capHandle := BitVec.ofNat 32 (2 ^ 16), capIndex := 255#8 } }
       s.sm = true ∧ s.capSel = some (theRegion s, 255) ∧ allCap.toNat % 256 = 0 ∧ (theRegion s).capOut 255 = 0)
    ∧ (let s := oneRegion fun R => { R with capUses := [{ idx := 255, out := 0, pending := some allCap }] }
       (s.region? 0).any fun R => R.capPending 255 == some allCap && R.capOut 255 == 0)
    ∧ (State.reset.isM = true ∧ (lnkStore State.reset 0).isSome = true)
    ∧ (let s := oneRegion fun R => { R with st := .allocated }
       s.sm = true ∧ s.named ((BitVec.ofNat 64 (2 ^ 48 + 7) : W64).toNat / 2 ^ 32) = some (theRegion s) ∧ (theRegion s).st = .allocated)
    ∧ (State.reset.csrOk (0x5C2#12).toNat = true ∧ State.reset.csrOk (0x7C0#12).toNat = true)
    ∧ (let s := { State.reset with home := { State.reset.home with resv := [(79, 5, 0)] }, cycle := 2 * Config.microsecond }
       s.home.resv = [(79, 5, 0)] ∧ 0 + 2 * Config.microsecond ≤ s.cycle) := by
  decide +kernel

theorem test_meets_RegisterRowsComplete_memory :
    let s := State.reset
    ∃ u, (0x40#64 : W64).toNat % opBytes (.store 3 5#64) = 0
      ∧ s.hartAddr (s.hart s.me) (s.hart s.me).dataPriv .store (0x40#64 : W64).toNat (opBytes (.store 3 5#64)) = .ok 0x40
      ∧ agentAccess s s.me 0 0x40 (.store 3 5#64) = some u := by
  have h : (agentAccess State.reset State.reset.me 0 0x40 (.store 3 5#64)).isSome = true := by decide +kernel
  obtain ⟨u, hu⟩ := Option.isSome_iff_exists.mp h
  exact ⟨u, by decide, hartAddr_of_bare (by decide +kernel) .store 0x40 _ (by decide), hu⟩

/-- A device in a lifecycle state, its registers set. -/
def trusted (lcs a t : Nat) : State :=
  let s := withRegs State.reset a t
  { s with trust := { s.trust with lcs := lcs } }

theorem test_meets_SecInstructionsComplete :
    (let s := trusted 4 63 0
     s.isM = true ∧ (s.x 11#5).toNat < 64 ∧ s.x 12#5 = 0#64)
    ∧ (let s := trusted 2 12 (2 ^ 32 - 1)
       s.isM = true ∧ s.trust.lcs ≠ 4 ∧ (s.x 11#5).toNat < 64 ∧ (s.x 12#5).toNat < 2 ^ 32 ∧ blowOk s (s.x 11#5).toNat (s.x 12#5).toNat = true)
    ∧ (let s := trusted 2 0x27 0x1000
       s.isM = true ∧ s.trust.lcs ≠ 4 ∧ measOk (s.x 11#5).toNat (s.x 12#5).toNat = true ∧ bit (s.x 11#5).toNat 8 = false)
    ∧ (∀ i ∈ [3, 6], let s := trusted 2 (0x120 + i) 0x1000
       s.isM = true ∧ measOk (s.x 11#5).toNat (s.x 12#5).toNat = true ∧ bit (s.x 11#5).toNat 8 = true ∧ bits (s.x 11#5).toNat 3 0 = i)
    ∧ (∀ v ∈ [0x81, 0xBF], let s := trusted 2 v 0
       s.sm = true ∧ s.trust.lcs ≠ 4 ∧ s.trust.lock = false ∧ wipeOk (s.x 11#5).toNat (s.x 12#5).toNat = true ∧ bit (s.x 11#5).toNat 6 = false ∧ bit (s.x 11#5).toNat 7 = true)
    ∧ (∀ v ∈ [0x01, 0x3F], let s := trusted 2 v 0
       s.sm = true ∧ wipeOk (s.x 11#5).toNat (s.x 12#5).toNat = true ∧ bit (s.x 11#5).toNat 6 = false ∧ bit (s.x 11#5).toNat 7 = false
        ∧ bit (s.x 12#5).toNat 0 = false ∧ s.regions = [])
    ∧ (∀ v ∈ [0, 1, 2], let s := trusted 2 v 0
       s.isM = true ∧ s.trust.lcs = 2 ∧ s.trust.lock = false ∧ s.x 11#5 = BitVec.ofNat 64 v ∧ (s.x 12#5).toNat % 64 = 0 ∧ s.trust.ufail ≠ 3#2 ∧ s.regions = [])
    ∧ (∀ v ∈ [0, 2], let s := trusted 1 v 0
       s.sm = true ∧ s.trust.lcs ≠ 0 ∧ s.trust.lcs ≠ 4 ∧ (s.x 11#5).toNat ≤ 2 ∧ (s.x 12#5).toNat % 64 = 0) := by
  decide +kernel

/-- Hart 1 waits for the Trust Engine. -/
def waitingTre : State :=
  State.modHart (trusted 2 1 0) 1 fun H => { H with stall := some { rid := 2050, kind := .again, since := 0, d := 1#5 } }

theorem test_meets_SecInstructionsComplete_turn :
    (waitingTre.isM = true ∧ waitingTre.trust.lcs ≠ 4 ∧ myTurn waitingTre 2050 = false)
    ∧ ∀ lcs ∈ [1, 2, 4], myTurn (trusted lcs 1 0) 2050 = true := by
  decide +kernel

theorem test_meets_SecInstructionsComplete_operands :
    ∀ (lcs a t n : Nat), t + n + 8 < 2 ^ 39 → ∀ k : Kind3, ∃ pa, (trusted lcs a t).operand k (BitVec.ofNat 64 t) n = .ok pa := by
  intro lcs a t n hn k
  refine ok_of_bare k _ n (show bare (withRegs State.reset a t) = true from ?_) ?_
  · have h : bare State.reset = true := by decide +kernel
    exact h
  · rw [BitVec.toNat_ofNat, Nat.mod_eq_of_lt (by omega)]
    exact hn

/-- An unlock token of 192 bytes as a number, signed outside under the key whose digest the fuses hold. -/
def aToken : Nat := 847121611672624485883128216054508769257449302066575843286717139331058241893943085592430878875663661459592808798675717000347647171438039362743670170078235160429598601262176089451516709460709125961449439479316507426488025707979769079781206561976019287594916053154254293262871478032702377760376615623810114110112257863425395645533355435677004881868428159474277065230379045774128020133532138818593379616557713959549980012571709994683874938170143750622439176321912405
def tokenBytes : Bytes := fun i => BitVec.ofNat 8 (aToken >>> (8 * i))
/-- A device of that owner key, serial number 0x2_0000_0001 and nonce 7. -/
def unlocking : State :=
  let s := trusted 2 1 0
  { s with trust := { s.trust with
      nonce := some 7#256, fuses := List.replicate 2 0#32 ++ [0x4183d2b3#32, 0x1648e6a#32, 0x8f989ad3#32, 0x129a462e#32, 0x3cc68d96#32, 0xf2a38743#32, 0xad3873c6#32, 0xd0e6a114#32] ++ [1#32, 2#32] ++ List.replicate 52 0#32 } }

theorem test_meets_SecInstructionsComplete_token :
    ∃ pa, (lies unlocking tokenBytes 192).operand .load ((lies unlocking tokenBytes 192).x 12#5) 192 = .ok pa
      ∧ tokenFault (lies unlocking tokenBytes 192) ((lies unlocking tokenBytes 192).bytesOf pa 192) = none := by
  have hb : bare (lies unlocking tokenBytes 192) = true := by decide +kernel
  obtain ⟨pa, h1, h2⟩ := operand_of_bare hb .load ((lies unlocking tokenBytes 192).x 12#5) 192 (by decide +kernel)
  have h0 : ((lies unlocking tokenBytes 192).x 12#5).toNat = 0 := by decide +kernel
  have hq := bytesOf_lies unlocking tokenBytes 192 192 pa
    (by decide +kernel) (by decide) (by decide) (by decide) (by intro i hi; rw [h2 i hi, h0, Nat.zero_add])
  refine ⟨pa, h1, ?_⟩
  rw [hq]
  show tokenFault unlocking (fun i => if i < 192 then tokenBytes i else 0#8) = none
  decide +kernel

/-! Words, steps, traps, alarms, frames -/

theorem test_meets_DecodeEncode :
    wellFormed (.iadd ⟨2#2, .raw, true, true, 0xFFFF#16, 0xFFFF#16, 0xFFFF#16, 0xFFFFFFFF#32⟩) = true ∧ wellFormed (.rgnLoad 31#5 31#5 31#5) = true := by
  decide +kernel

def isOkInstr (x : Except DecodeError Instr) : Bool :=
  match x with
  | .ok _ => true
  | .error _ => false

theorem test_meets_EncodeDecode :
    (isOkInstr (decodeFabric [word0 0#2 0x01#8 0#4 0#1 0#1 4#16]) = true ∧ (wordLen (word0 0#2 0x01#8 0#4 0#1 0#1 4#16)).toNat + 1 = 1)
    ∧ wordLen (word0 3#2 0xFF#8 15#4 1#1 1#1 0xFFFF#16) = 3#2
    ∧ ([] : List W32).length < (wordLen (word0 1#2 0x01#8 0#4 0#1 0#1 4#16)).toNat
    ∧ (∀ op ∈ [0x22, 0x3F, 0x4E, 0x86, 0xF5, 0xFF], wordLen (word0 0#2 (BitVec.ofNat 8 op) 0#4 0#1 0#1 4#16) ≠ 3#2
        ∧ assigned (wordOp (word0 0#2 (BitVec.ofNat 8 op) 0#4 0#1 0#1 4#16)).toNat = false)
    ∧ (∀ op ∈ [0x00, 0x21, 0x40, 0x85, 0xF4], assigned (wordOp (word0 0#2 (BitVec.ofNat 8 op) 0#4 0#1 0#1 4#16)).toNat = true)
    ∧ inTable220 0x0A#7 31#5 0#3 0b0001011#7 = true ∧ inTable220 0x0B#7 0#5 0#3 0b0001011#7 = false
    ∧ inTable220 0x03#7 1#5 0#3 0b0001011#7 = false ∧ inTable220 0x04#7 0#5 0#3 0b0101011#7 = true ∧ inTable220 0x05#7 0#5 0#3 0b0101011#7 = false := by
  decide +kernel

/-- Hart `h` runs, and a word lies at address 0, where its pc is. -/
def hartAt (h w : Nat) : State :=
  let s := { State.reset with boot := { State.reset.boot with step := 9 }, sched := [{ dt := 3, who := .hart h }] }
  let s := s.modHart h fun H => { H with running := true, pc := 0#64 }
  { s with mem := (List.range 4).map (fun i => (i, BitVec.ofNat 8 (w >>> (8 * i)))), owners := [{ line := 0, key := 0 }] }
def fetchedAt (s : State) (h : Nat) : Option (W32 × Nat) :=
  match s.beginTurn.fetchHart h with
  | .ok p => some p
  | .error _ => none
def fetchFault (s : State) (h : Nat) : Option W64 :=
  match s.beginTurn.fetchHart h with
  | .ok _ => none
  | .error e => some e.1
/-- What all of the harts' part of `StepRunsDecoded` asks. -/
def hartGoes (s : State) (h : Nat) : Bool :=
  let t := s.beginTurn
  t.turn.who == .hart h && decide (h < 16) && t.boot.step == 9 && (t.hart h).running && (t.hart h).held == false
    && (t.hart h).stall == none && t.yardIrq (t.hart h) == false && (t.hart h).irq == none

theorem test_meets_StepRunsDecoded_harts :
    (∀ w ∈ [0x02C5850B, 0x0BC5850B, 0xFFC5850B, 0x00100093], hartGoes (hartAt 15 w) 15 = true ∧ fetchedAt (hartAt 15 w) 15 = some (BitVec.ofNat 32 w, 4))
    ∧ isCustom 0x02C5850B#32 = true ∧ isOkInstr (decodeCustom 0x02C5850B#32) = true
    ∧ isCustom 0xFFC5850B#32 = true ∧ isOkInstr (decodeCustom 0xFFC5850B#32) = false ∧ isCustom 0x00100093#32 = false
    ∧ (hartGoes (hartAt 0 0x0001) 0 = true ∧ fetchedAt (hartAt 0 0x0001) 0 = some (1#32, 2) ∧ (expand 1).isSome = true)
    ∧ (hartGoes (hartAt 0 0x0000) 0 = true ∧ fetchedAt (hartAt 0 0x0000) 0 = some (0#32, 2) ∧ expand 0 = none)
    ∧ (let s := (hartAt 0 0).modHart 0 fun H => { H with pc := BitVec.ofNat 64 (2 ^ 52) }
       hartGoes s 0 = true ∧ fetchFault s 0 = some 1#64) := by
  decide +kernel

theorem test_meets_StepRunsDecoded_rows :
    (let t := ({ hartAt 15 0 with sched := [{ dt := 0, who := .hartDoes 15 (.xinvcmd 0#64) }] } : State).beginTurn
     t.turn.who = .hartDoes 15 (.xinvcmd 0#64) ∧ t.boot.step = 9 ∧ (t.hart 15).running = true ∧ (t.hart 15).stall = none ∧ hartRow (.xinvcmd 0#64) = true)
    ∧ (let t := (State.reset.withFetchWord 96 wIadd).beginTurn
       t.turn.who = .take 0 ⟨0, 0⟩ 0 ∧ t.boot.step = 9 ∧ t.stopped.isNone ∧ t.arrival.any fun p => isOkInstr (decodeFabric (p.2.1.U.words p.2.1.node)))
    ∧ (let t := (State.reset.withFetchWord 96 (rec3 2 0x80 0 0 0 4 0xFFFF 1 1)).beginTurn
       t.turn.who = .source 0 ⟨0, 0⟩ ∧ t.boot.step = 9 ∧ t.stopped.isNone ∧ ((t.region? 0).bind fun R => (R.unit? ⟨0, 0⟩).bind (·.source?)).isSome = true)
    ∧ (let t := ({ State.reset with sched := [{ dt := 0, who := .event .tamperEvent }] } : State).beginTurn
       t.turn.who = .event .tamperEvent ∧ eventRow .tamperEvent = true ∧ bootRow .tamperEvent = true ∧ t.lateRegion = none)
    ∧ (let t := ({ oneRegion id with sched := [{ dt := 0, who := .event (.aluResultEmit 0 ⟨0, 0⟩) }] } : State).beginTurn
       t.turn.who = .event (.aluResultEmit 0 ⟨0, 0⟩) ∧ eventRow (.aluResultEmit 0 ⟨0, 0⟩) = true ∧ t.boot.step = 9 ∧ t.lateRegion = none)
    ∧ (State.reset.withFetchWord 96 wIadd).beginTurn.lateRegion = none
    ∧ (State.reset.withFetchWord 96 (rec3 2 0x80 0 0 0 4 0xFFFF 1 1)).beginTurn.lateRegion = none := by
  decide +kernel

/-- A turn of a region that a fault of the same cycle has frozen. -/
def sLate : State :=
  let s := oneRegion fun R => { R with st := .frozen, fault := some { alarmRecord 1 with cause := .roundBound } }
  inRegion { s with sched := [{ dt := 0, who := .event (.aluResultEmit 0 ⟨0, 0⟩) }] } fun R => { R with faultAt := s.cycle }

theorem test_meets_StepRunsDecoded_late :
    sLate.beginTurn.lateRegion = some 0 ∧ (match runTurn (sLate.beginTurn.thawed 0) with | .next _ => true | _ => false) = true := by
  decide +kernel

/-- A head whose slot lies behind the overflow pointer, before its turn. -/
def overflowing : State :=
  inUnit (withHead (State.reset.withFetchWord 96 wIadd) fun t => { t with frame := 5#10 }) fun U => { U with stride := 255, slots := [] }
/-- The turn's head, R35's choice, with what keeps it from its take. -/
def stopOf (s : State) : Option HeadStop :=
  let t := s.beginTurn
  ((t.region? 0).bind fun R => (R.unit? ⟨0, 0⟩).bind fun U => (R.takeAt t.cycle ⟨0, 0⟩ 0).bind fun k =>
    if t.turn.who == .take 0 ⟨0, 0⟩ 0 && t.boot.step == 9 && R.live && t.choice R U == some 0 then t.headStop R k else none)

theorem test_meets_StepRunsDecoded_stops :
    stopOf (inUnit (State.reset.withFetchWord 96 wIadd) fun U => { U with bad := [0] }) = some .bad
      ∧ (stopOf (keyed (absentTable overflowing))).any (fun x => match x with
          | .absent _ => true
          | _ => false)
      ∧ (stopOf overflowing).any (fun x => match x with
          | .fault _ _ => true
          | _ => false) := by
  decide +kernel

def goesOn (o : Host.Outcome State Fault Refusal) : Bool :=
  match o with
  | .next _ => true
  | _ => false
theorem next_of_goesOn {o : Host.Outcome State Fault Refusal} (h : goesOn o = true) : ∃ t, o = .next t := by
  cases o with
  | next t => exact ⟨t, rfl⟩
  | _ => simp [goesOn] at h

theorem test_meets_MemoryStaysCanonical :
    Memory.wf (hartAt 0 0x00100093).mem = true ∧ ∃ t, step (hartAt 0 0x00100093) = .next t :=
  ⟨by decide +kernel, next_of_goesOn (by decide +kernel)⟩

theorem test_meets_MemoryReadsBack :
    Memory.wf [(0, 1#8), (63, 0#8), (2 ^ 39 - 1, 255#8)] = true ∧ Sram.wf [(0, 1#8), (2 ^ 18 - 1, 255#8)] = true := by decide +kernel

/-- Hart 0 in a mode. -/
def inMode (p : Priv) : State := State.modHart State.reset 0 fun H => { H with priv := p }

theorem test_meets_IllegalInstructionsTrap :
    ((customOf (.secFuseRead 1#5 2#5 3#5)).isSome = true ∧ (encode (.secFuseRead 1#5 2#5 3#5)).length = 1
      ∧ listedAt (.secFuseRead 1#5 2#5 3#5) ((inMode .s).hart (inMode .s).me).priv = false)
    ∧ ((customOf (.rgnStat 1#5 2#5 3#5)).isSome = true ∧ (encode (.rgnStat 1#5 2#5 3#5)).length = 1
      ∧ listedAt (.rgnStat 1#5 2#5 3#5) ((inMode .u).hart (inMode .u).me).priv = false)
    ∧ inTable220 0x0B#7 0#5 0#3 0b0001011#7 = false ∧ inTable220 0x00#7 0#5 7#3 0b0101011#7 = false
    ∧ (∀ n ∈ [0x5C0, 0x5FF, 0x7C0, 0x7FF], (0x5C0 ≤ n ∧ n ≤ 0x5FF) ∨ (0x7C0 ≤ n ∧ n ≤ 0x7FF))
    ∧ table1210 0x5FF = false ∧ table1210 0x7FF = false ∧ ((inMode .s).hart (inMode .s).me).priv ≠ .m
    ∧ ((0x5FF01073#32 : W32).toNat % 128 = 0x73 ∧ wF3 0x5FF01073#32 % 4 ≠ 0 ∧ wI12 0x5FF01073#32 = 0x5FF)
    ∧ ((0x7C001073#32 : W32).toNat % 128 = 0x73 ∧ wF3 0x7C001073#32 % 4 ≠ 0 ∧ wI12 0x7C001073#32 = 0x7C0)
    ∧ ((inMode .u).hart (inMode .u).me).priv = .u ∧ (expand 1).any (fun x => isCustom x == false) := by
  decide +kernel

/-- A trap of hart 0 in a mode, cause 2 delegated or not. -/
def trapping (p : Priv) (deleg : W64) : Hart := { (inMode p).hart 0 with medeleg := deleg, mtvec := 0x1001#64, stvec := 0x2001#64, pc := 0x40#64 }
theorem test_meets_HartTrapsAndReturns :
    (∀ H ∈ [trapping .m 4#64, trapping .s 0#64, trapping .u 0#64], ¬ (H.priv ≠ .m ∧ bit H.medeleg.toNat 2 = true))
    ∧ (∀ H ∈ [trapping .s 4#64, trapping .u 4#64], H.priv ≠ .m ∧ bit H.medeleg.toNat 2 = true) ∧ (2#64 : W64).msb = false := by
  decide +kernel

theorem test_meets_FreezingFaultFreezes :
    ((oneRegion id).region? 0 = some (theRegion (oneRegion id)) ∧ (theRegion (oneRegion id)).st = .running)
    ∧ (let s := oneRegion fun R => { R with st := .frozen, fault := some (alarmRecord 1) }
       s.region? 0 = some (theRegion s) ∧ (theRegion s).st ≠ .running ∧ (theRegion s).fault.isSome = true
        ∧ (theRegion s).fault.any (fun g => g.cause == .securityAlarm))
    ∧ (∀ at_ ∈ [3, 4], let s := { (oneRegion fun R => { R with st := .frozen, faultAt := at_, fault := some { alarmRecord 1 with cause := .roundBound } }) with cycle := 3 }
       (theRegion s).fault.any (fun g => g.cause != .securityAlarm) ∧ ((theRegion s).faultAt = s.cycle ↔ at_ = 3))
    ∧ ([(2047, 3), (0, 3), (2047, 5), (0, 4), (0, 6)].map fun p => ({ alarmRecord 1 with page := p.1, pos := p.2 } : FaultRec).pos) = [3, 3, 5, 4, 6] := by
  decide +kernel

/-- A running region, and every alarm class under a policy. -/
def policed (p : Nat) : State :=
  let s := oneRegion id
  { s with trust := { s.trust with fuses := modNth s.trust.fuses 1 fun _ => BitVec.ofNat 32 (p * 0x555) } }

theorem test_meets_AlarmActs :
    (∀ p ∈ [0, 1, 2, 3], (policed p).policy 0 = p ∧ (policed p).policy 5 = p ∧ ((theRegion (policed p)).st = .running ∧ (theRegion (policed p)).roll = none))
    ∧ (∀ x ∈ [(⟨none, [], .running⟩ : Roll)], (idleRegion fun R => { R with roll := some x }).roll = some x ∧ x.back = .running)
    ∧ (∀ p cls code, ∃ t, exec (.securityAlarm cls code) (policed p) = .next t)
    ∧ (∀ p ∈ [0, 1, 2, 3], ∀ R ∈ (policed p).regions, R.roll = none)
    ∧ (∃ t, exec (.securityAlarm 5 1#8) (oneRegion fun R => { R with roll := some ⟨none, [], .running⟩ }) = .next t)
    ∧ (∀ roll ∈ [none, some (⟨none, [], .frozen⟩ : Roll)], let s := oneRegion fun R => { R with roll := roll }
       let s := { s with trust := { s.trust with due := [(5, (1#8).toNat)] } }
       s.trust.due = [(5, (1#8).toNat)] ∧ (∀ R ∈ s.regions, R.roll = roll)) :=
  ⟨by decide +kernel, by decide +kernel, fun _ _ _ => ⟨_, rfl⟩, by decide +kernel, ⟨_, rfl⟩, by decide +kernel⟩

theorem test_meets_LockdownDenies :
    let s := { State.reset with trust := { State.reset.trust with lock := true } }
    s.trust.lock = true ∧ s.sm = true ∧ s.isM = true ∧ myTurn s 2050 = true := by decide +kernel

theorem test_meets_FabricRecordsFrame :
    (opOf (.iadd (theRec wIadd))).isSome = true ∧ headRow .slotWrite = true
      ∧ State.reset.turnRegion = none ∧ (holding wIadd).turnRegion = some 0
      ∧ (∃ t, exec (.iadd (theRec wIadd)) (holding wIadd) = .next t) ∧ (∃ t, exec (.iadd (theRec wIadd)) State.reset = .next t)
      ∧ (∃ op r, opOf (.ld (theRec wIadd)) = some (op, r) ∧ op.toNat < 0xC0 ∧ op ≠ 0x7D#8) :=
  ⟨by decide +kernel, by decide +kernel, by decide +kernel, by decide +kernel, next_of_goesOn (by decide +kernel), next_of_goesOn (by decide +kernel),
    ⟨_, _, rfl, by decide, by decide⟩⟩

theorem test_meets_RegionEventsFrame :
    eventRegion (.tokenHop 0 0) = some 0 ∧ eventRegion (.streamComplete 2047 ⟨0, 4⟩ 0) = some 2047
      ∧ ∃ t, exec (.aluResultEmit 0 ⟨0, 0⟩) (oneRegion id) = .next t :=
  ⟨by decide +kernel, by decide +kernel, next_of_goesOn (by decide +kernel)⟩

theorem test_meets_HartRowsFrame :
    ccRow (.secFuseRead 10#5 11#5 12#5) = true ∧ storesNothing (.secFuseRead 10#5 11#5 12#5) = true
      ∧ (∃ t, exec (.secFuseRead 10#5 11#5 12#5) (trusted 2 63 0) = .next t)
      ∧ (ccRow (.secMeasRead 10#5 11#5 12#5) = true ∧ storeOperand (trusted 2 0x27 0x1000) (.secMeasRead 10#5 11#5 12#5) = some (0x1000#64, 32)
        ∧ (∃ t, exec (.secMeasRead 10#5 11#5 12#5) (trusted 2 0x27 0x1000) = .next t) ∧ Memory.wf (trusted 2 0x27 0x1000).mem = true
        ∧ (∃ pa, (trusted 2 0x27 0x1000).operand .store 0x1000#64 32 = .ok pa ∧ ∀ j, j < 32 → pa j ≠ 0x1020))
      ∧ ((∃ e a, (trusted 2 0x27 (2 ^ 52)).operand .store (BitVec.ofNat 64 (2 ^ 52)) 32 = .trap e a))
      ∧ (ccRow (.ccHartMemoryAccess 0x40#64 (.store 3 5#64)) = true ∧ wellFormed (.ccHartMemoryAccess 0x40#64 (.store 3 5#64)) = true
        ∧ State.reset.hartAddr (State.reset.hart State.reset.me) (State.reset.hart State.reset.me).dataPriv .store (0x40#64 : W64).toNat (opBytes (.store 3 5#64)) = .ok 0x40
        ∧ ∃ t, exec (.ccHartMemoryAccess 0x40#64 (.store 3 5#64)) State.reset = .next t) := by
  refine ⟨by decide +kernel, by decide +kernel, next_of_goesOn (by decide +kernel), ⟨by decide +kernel, by decide +kernel, next_of_goesOn (by decide +kernel),
    by decide +kernel, ?_⟩, ?_, by decide +kernel, by decide +kernel, hartAddr_of_bare (by decide +kernel) .store 0x40 _ (by decide),
    next_of_goesOn (by decide +kernel)⟩
  · have hb : bare (trusted 2 0x27 0x1000) = true := by decide +kernel
    obtain ⟨pa, h1, h2⟩ := operand_of_bare hb .store 0x1000#64 32 (by decide)
    refine ⟨pa, h1, fun j hj => ?_⟩
    rw [h2 j hj, show (0x1000#64 : W64).toNat = 0x1000 from rfl]
    omega
  · have h : (match (trusted 2 0x27 (2 ^ 52)).operand .store (BitVec.ofNat 64 (2 ^ 52)) 32 with | .trap _ _ => true | _ => false) = true := by decide +kernel
    split at h
    · exact ⟨_, _, ‹_›⟩
    · cases h

/-! ### One step of a few instructions, the expected values from the manual -/

/-- R143: 0x7FFF_FFFF + 1 in i32 wraps to 0x8000_0000; with M = 1 it stays 0x7FFF_FFFF and sets EXC. -/
theorem test_iadd_wraps :
    (let o := okOf (iaddOut (theRec (rec3 1 0x01 0 0 0 4 0xFFFF 0 0)) [opnd 0 0x7FFFFFFF, opnd 1 1])
     o.e.head? = some 0x80000000#32 ∧ o.exc = false)
    ∧ (let o := okOf (iaddOut (theRec (rec3 1 0x01 0 0 1 4 0xFFFF 0 0)) [opnd 0 0x7FFFFFFF, opnd 1 1])
       o.e.head? = some 0x7FFFFFFF#32 ∧ o.exc = true) := by decide +kernel

end Sys2Proof.Tests
end

section
/-! SUPPORT. The values of the cell's integer and logic records: the encodings on the ports as bit vectors, the
operations of Table 4-6 on numbers and on bit vectors, and the quotient and remainder of R144. -/

namespace Sys2Proof
open Machine

/-! ### Encodings as bit vectors and as integers -/

theorem Fmt.width_pos (f : Fmt) : 0 < f.width := by cases f <;> decide

theorem Fmt.width_of_pair {f : Fmt} (h : f.pair = true) : f.width = 64 := by
  revert h
  cases f <;> decide

theorem Fmt.get_lt (f : Fmt) (e : List W32) (i : Nat) : f.get e i < 2 ^ f.width := by
  unfold Fmt.get
  split
  next hp =>
    rw [Fmt.width_of_pair hp]
    have := (nth 0#32 e (2 * i)).isLt
    have := (nth 0#32 e (2 * i + 1)).isLt
    omega
  next => exact Nat.mod_lt _ (Nat.two_pow_pos _)

@[simp] theorem toNat_bitsAt (f : Fmt) (ops : List Operand) (i p : Nat) :
    (Claim.bitsAt f ops i p).toNat = (opAt ops p).val ops f i :=
  (BitVec.toNat_ofNat ..).trans (Nat.mod_eq_of_lt (Fmt.get_lt ..))

@[simp] theorem wrap_eq_toNat_ofInt (w : Nat) (x : Int) : wrap w x = (BitVec.ofInt w x).toNat :=
  (BitVec.toNat_ofInt ..).symm

theorem signed_toNat {w : Nat} (hw : 0 < w) (x : BitVec w) : signed w x.toNat = x.toInt := by
  have hhalf := Nat.two_pow_pred_mul_two hw
  simp only [signed, Nat.mod_eq_of_lt x.isLt, BitVec.toInt_eq_toNat_cond]
  split <;> split <;> omega

theorem intsAt_eq (f : Fmt) (ops : List Operand) (i p : Nat) : Claim.intsAt f ops i p =
    if f.isSigned then (Claim.bitsAt f ops i p).toInt else ((Claim.bitsAt f ops i p).toNat : Int) := rfl

theorem int_val_eq_intsAt (f : Fmt) (ops : List Operand) (i p : Nat) :
    f.int ((opAt ops p).val ops f i) = Claim.intsAt f ops i p := by
  rw [intsAt_eq, ← toNat_bitsAt, Fmt.int, signed_toNat f.width_pos, Nat.mod_eq_of_lt (Claim.bitsAt f ops i p).isLt]

theorem minI_le_intsAt (f : Fmt) (ops : List Operand) (i p : Nat) : f.minI ≤ Claim.intsAt f ops i p := by
  rw [intsAt_eq, Fmt.minI]
  split
  · exact_mod_cast BitVec.le_toInt _
  · exact Int.natCast_nonneg _

theorem intsAt_le_maxI (f : Fmt) (ops : List Operand) (i p : Nat) : Claim.intsAt f ops i p ≤ f.maxI := by
  rw [intsAt_eq, Fmt.maxI]
  split
  · have := BitVec.toInt_lt (x := Claim.bitsAt f ops i p)
    push_cast
    omega
  · have := (Claim.bitsAt f ops i p).isLt
    omega

/-! ### Records that work value by value -/

/-- A result computed value by value, from the value and the EXC of each index. -/
theorem perValue_ok {inF outF : Fmt} {ops : List Operand} {g : (Nat → Nat) → Nat × Bool} {val : Nat → Nat} {exc : Nat → Bool}
    (hl : lensOk inF ops = true) (hg : ∀ i, g (fun p => (opAt ops p).val ops inF i) = (val i, exc i)) :
    perValue inF outF ops g = .ok (.one outF (maxLen ops) (outF.pack ((List.range (inF.nv (maxLen ops))).map val))
      ((List.range (inF.nv (maxLen ops))).any exc)) := by
  simp [perValue, hl, hg, Function.comp_def, List.any_map]

/-- The record `r` gives `g` of the encodings at each value index, and no EXC (R142, R143). -/
def ActsOnEncodings (f : AluFn) (r : Rec) (g : (Nat → BitVec r.fmt.width) → BitVec r.fmt.width) : Prop :=
  ∀ ops, lensOk r.fmt ops = true → f r ops = .ok (.one r.fmt (maxLen ops)
    (r.fmt.pack ((List.range (r.fmt.nv (maxLen ops))).map fun j => (g (Claim.bitsAt r.fmt ops j)).toNat)) false)

/-- A bitwise record acts on the encodings as `g` where its formula over numbers is `g` modulo 2^w. -/
theorem actsOnEncodings_of_bitwise {f : AluFn} {r : Rec} {m : (Nat → Nat) → Nat}
    {g : (Nat → BitVec r.fmt.width) → BitVec r.fmt.width} (hf : ∀ ops, f r ops = bitwise r ops m)
    (hm : ∀ v : Nat → BitVec r.fmt.width, m (fun p => (v p).toNat) % 2 ^ r.fmt.width = (g v).toNat) :
    ActsOnEncodings f r g := by
  intro ops hl
  rw [hf, bitwise, perValue_ok (val := fun j => (g (Claim.bitsAt r.fmt ops j)).toNat) (exc := fun _ => false) hl]
  · rw [List.any_eq_false.mpr fun _ _ => Bool.false_ne_true]
  · intro i
    simp [← hm]

/-! ### The formulas of Table 4-6 at every width -/

section
variable {w : Nat} (x y z : BitVec w)

theorem notBits_toNat : notBits w x.toNat = (~~~x).toNat := by
  rw [notBits, Nat.mod_eq_of_lt x.isLt, BitVec.toNat_not]

theorem toNat_shl_or_zero (n : Nat) :
    (if n ≥ w then 0 else x.toNat * 2 ^ n) % 2 ^ w = (if n < w then x <<< n else 0#w).toNat := by
  by_cases h : n < w
  · rw [if_neg (by omega), if_pos h, BitVec.toNat_shiftLeft, Nat.shiftLeft_eq]
  · rw [if_pos (by omega), if_neg h, BitVec.toNat_zero, Nat.zero_mod]

theorem toNat_shr_or_zero (n : Nat) :
    (if n ≥ w then 0 else x.toNat / 2 ^ n) % 2 ^ w = (if n < w then x >>> n else 0#w).toNat := by
  by_cases h : n < w
  · rw [if_neg (by omega), if_pos h, ← Nat.shiftRight_eq_div_pow, ← BitVec.toNat_ushiftRight, BitVec.toNat_mod_cancel]
  · rw [if_pos (by omega), if_neg h, BitVec.toNat_zero, Nat.zero_mod]

theorem wrap_signed_div_two_pow (hw : 0 < w) (n : Nat) :
    wrap w (signed w x.toNat / (2 ^ n : Nat)) = (x.sshiftRight n).toNat := by
  rw [signed_toNat hw, ← Int.shiftRight_eq_div_pow, wrap_eq_toNat_ofInt, ← BitVec.sshiftRight_eq]

/-- The bits rotated out at the top lie below those that move up: their sum is their disjunction. -/
theorem toNat_rotateLeft_eq_add {n : Nat} (hn : n < w) :
    x.toNat * 2 ^ n % 2 ^ w + x.toNat / 2 ^ (w - n) = (x.rotateLeft n).toNat := by
  have hpow : 2 ^ w = 2 ^ n * 2 ^ (w - n) := by rw [← Nat.pow_add, Nat.add_sub_cancel' hn.le]
  have hlow : x.toNat / 2 ^ (w - n) < 2 ^ n := Nat.div_lt_of_lt_mul (by rw [Nat.mul_comm, ← hpow]; exact x.isLt)
  rw [BitVec.toNat_rotateLeft, Nat.mod_eq_of_lt hn, Nat.shiftLeft_eq, Nat.shiftRight_eq_div_pow, Nat.mul_comm x.toNat,
    hpow, Nat.mul_mod_mul_left, Nat.two_pow_add_eq_or_of_lt hlow]

/-- The upper half of the double-width word shifted left (FUNL). -/
theorem toNat_funnel (n : Nat) :
    (x.toNat * 2 ^ w + y.toNat) * 2 ^ n / 2 ^ w % 2 ^ w = (((x ++ y) <<< n >>> w).setWidth w).toNat := by
  have happ : (x ++ y).toNat = x.toNat * 2 ^ w + y.toNat := by
    rw [BitVec.toNat_append, ← Nat.shiftLeft_add_eq_or_of_lt y.isLt, Nat.shiftLeft_eq]
  rw [BitVec.toNat_setWidth, BitVec.toNat_ushiftRight, BitVec.toNat_shiftLeft, happ, Nat.shiftLeft_eq,
    Nat.shiftRight_eq_div_pow, Nat.pow_add, Nat.mod_mul_left_div_self, Nat.mod_mod]

theorem toNat_select :
    (if bit x.toNat 0 then y.toNat else z.toNat) % 2 ^ w = (if x.getLsbD 0 then y else z).toNat := by
  rw [show bit x.toNat 0 = x.getLsbD 0 from BitVec.testBit_toNat x]
  split <;> exact BitVec.toNat_mod_cancel _

theorem leadingZeros_eq_toNat_clz (hw : 0 < w) :
    (if x.toNat = 0 then w else w - 1 - log2 x.toNat) = x.clz.toNat := by
  by_cases hx : x = 0#w
  · subst hx
    simp [BitVec.clz_eq_iff_eq_zero.mpr, Nat.mod_eq_of_lt Nat.lt_two_pow_self]
  · have hx0 : x.toNat ≠ 0 := fun h => hx (BitVec.eq_of_toNat_eq (by simpa using h))
    have hlt : x.clz.toNat < w := by
      have := BitVec.lt_def.mp (BitVec.clz_lt_iff_ne_zero.mpr hx)
      simpa [Nat.mod_eq_of_lt Nat.lt_two_pow_self] using this
    have hlog : x.toNat.log2 = w - 1 - x.clz.toNat := by
      refine (Nat.log2_eq_iff hx0).mpr ⟨BitVec.two_pow_sub_clz_le_toNat_of_ne_zero hw hx, ?_⟩
      rw [show w - 1 - x.clz.toNat + 1 = w - x.clz.toNat by omega]
      exact BitVec.toNat_lt_two_pow_sub_clz
    rw [if_neg hx0, log2, hlog]
    omega

theorem length_filter_bit_eq_cpopNatRec (n : Nat) :
    ((List.range n).filter (bit x.toNat)).length = x.cpopNatRec n 0 := by
  induction n with
  | zero => simp
  | succ n ih =>
    rw [BitVec.cpopNatRec_succ, BitVec.cpopNatRec_add, ← ih, List.range_succ, List.filter_append, List.length_append]
    cases h : x.getLsbD n <;> simp [bit, BitVec.testBit_toNat, h]

theorem onesCount_eq_toNat_cpop : ((List.range w).filter (bit x.toNat)).length = x.cpop.toNat := by
  rw [length_filter_bit_eq_cpopNatRec, BitVec.toNat_cpop]

end

/-! ### Words put together bit by bit -/

theorem foldl_add_eq_sum (h : Nat → Nat) (w : Nat) :
    (List.range w).foldl (fun y q => y + h q) 0 = ∑ q ∈ Finset.range w, h q := by
  induction w with
  | zero => rfl
  | succ w ih => rw [List.range_succ, List.foldl_append, ih, Finset.sum_range_succ]; rfl

theorem sum_two_pow_mul_b2n_eq_ofBits (w : Nat) (p : Nat → Bool) :
    ∑ q ∈ Finset.range w, 2 ^ q * b2n (p q) = Nat.ofBits fun q : Fin w => p q := by
  induction w generalizing p with
  | zero => simp
  | succ w ih =>
    have htail : (∑ q ∈ Finset.range w, 2 ^ (q + 1) * b2n (p (q + 1))) = 2 * Nat.ofBits fun q : Fin w => p (q + 1) := by
      rw [← ih fun q => p (q + 1), Finset.mul_sum]
      exact Finset.sum_congr rfl fun q _ => by ring
    rw [Finset.sum_range_succ', htail, Nat.ofBits_succ]
    cases h : p 0 <;> simp [b2n, h, Function.comp_def]

theorem foldl_two_pow_mul_b2n (w : Nat) (p : Nat → Bool) :
    (List.range w).foldl (fun y q => y + 2 ^ q * b2n (p q)) 0 = (BitVec.ofFnLE fun q : Fin w => p q).toNat := by
  rw [foldl_add_eq_sum, sum_two_pow_mul_b2n_eq_ofBits, BitVec.toNat_ofFnLE]

/-- Bit q written at w−1−q is the reversal (BREV). -/
theorem foldl_reflected_eq_toNat_reverse {w : Nat} (x : BitVec w) :
    (List.range w).foldl (fun y q => y + 2 ^ (w - 1 - q) * b2n (bit x.toNat q)) 0 = x.reverse.toNat := by
  have hrev : x.reverse = BitVec.ofFnLE fun q : Fin w => bit x.toNat (w - 1 - q) := by
    ext i hi
    simp [BitVec.getElem_reverse, BitVec.getMsbD, hi, bit, BitVec.testBit_toNat]
  rw [hrev, ← foldl_two_pow_mul_b2n w fun q => bit x.toNat (w - 1 - q), foldl_add_eq_sum, foldl_add_eq_sum,
    ← Finset.sum_range_reflect]
  refine Finset.sum_congr rfl fun q hq => ?_
  have : q < w := Finset.mem_range.mp hq
  rw [show w - 1 - (w - 1 - q) = q by omega]

/-- Bit TT[i] of the truth table is bit 8 + i of AUX (R149). -/
theorem bit_truthTable (aux : BitVec 16) (i : Nat) : bit (aux.toNat / 256) i = aux.getLsbD (8 + i) := by
  rw [bit, show 256 = 2 ^ 8 from rfl, Nat.testBit_div_two_pow, BitVec.testBit_toNat, Nat.add_comm]

theorem b2n_eq_toNat (b : Bool) : b2n b = b.toNat := by cases b <;> rfl

/-! ### Each logic record on encodings -/

section
variable (r : Rec)

theorem copyOut_acts : ActsOnEncodings copyOut r fun v => v 0 :=
  actsOnEncodings_of_bitwise (fun _ => rfl) fun _ => BitVec.toNat_mod_cancel _

theorem andOut_acts : ActsOnEncodings andOut r fun v => v 0 &&& v 1 :=
  actsOnEncodings_of_bitwise (fun _ => rfl) fun v => by rw [← BitVec.toNat_and, BitVec.toNat_mod_cancel]

theorem orOut_acts : ActsOnEncodings orOut r fun v => v 0 ||| v 1 :=
  actsOnEncodings_of_bitwise (fun _ => rfl) fun v => by rw [← BitVec.toNat_or, BitVec.toNat_mod_cancel]

theorem xorOut_acts : ActsOnEncodings xorOut r fun v => v 0 ^^^ v 1 :=
  actsOnEncodings_of_bitwise (fun _ => rfl) fun v => by rw [← BitVec.toNat_xor, BitVec.toNat_mod_cancel]

theorem andnOut_acts : ActsOnEncodings andnOut r fun v => v 0 &&& ~~~ v 1 :=
  actsOnEncodings_of_bitwise (fun _ => rfl) fun v => by
    rw [notBits_toNat, ← BitVec.toNat_and, BitVec.toNat_mod_cancel]

theorem notOut_acts : ActsOnEncodings notOut r fun v => ~~~ v 0 :=
  actsOnEncodings_of_bitwise (fun _ => rfl) fun v => by rw [notBits_toNat, BitVec.toNat_mod_cancel]

theorem lut3Out_acts : ActsOnEncodings lut3Out r fun v => BitVec.ofFnLE fun q : Fin r.fmt.width =>
    r.aux.getLsbD (8 + 4 * ((v 0).getLsbD q).toNat + 2 * ((v 1).getLsbD q).toNat + ((v 2).getLsbD q).toNat) :=
  actsOnEncodings_of_bitwise (fun _ => rfl) fun v => by
    rw [foldl_two_pow_mul_b2n, BitVec.toNat_mod_cancel]
    simp only [bit_truthTable]
    simp only [bit, BitVec.testBit_toNat, b2n_eq_toNat, Nat.add_assoc]

theorem shlOut_acts : ActsOnEncodings shlOut r fun v =>
    if (v 1).toNat < r.fmt.width then v 0 <<< (v 1).toNat else 0#r.fmt.width :=
  actsOnEncodings_of_bitwise (fun _ => rfl) fun v => toNat_shl_or_zero (v 0) (v 1).toNat

theorem shrOut_acts : ActsOnEncodings shrOut r fun v =>
    if (v 1).toNat < r.fmt.width then v 0 >>> (v 1).toNat else 0#r.fmt.width :=
  actsOnEncodings_of_bitwise (fun _ => rfl) fun v => toNat_shr_or_zero (v 0) (v 1).toNat

theorem sarOut_acts : ActsOnEncodings sarOut r fun v => (v 0).sshiftRight (min (v 1).toNat (r.fmt.width - 1)) :=
  actsOnEncodings_of_bitwise (fun _ => rfl) fun v => by
    rw [wrap_signed_div_two_pow _ r.fmt.width_pos, BitVec.toNat_mod_cancel]

theorem rotlOut_acts : ActsOnEncodings rotlOut r fun v => (v 0).rotateLeft ((v 1).toNat % r.fmt.width) :=
  actsOnEncodings_of_bitwise (fun _ => rfl) fun v => by
    rw [toNat_rotateLeft_eq_add _ (Nat.mod_lt _ r.fmt.width_pos), BitVec.toNat_mod_cancel]

theorem funlOut_acts : ActsOnEncodings funlOut r fun v =>
    (((v 0 ++ v 1) <<< ((v 2).toNat % r.fmt.width)) >>> r.fmt.width).setWidth r.fmt.width :=
  actsOnEncodings_of_bitwise (fun _ => rfl) fun v => toNat_funnel (v 0) (v 1) _

theorem clzOut_acts : ActsOnEncodings clzOut r fun v => (v 0).clz :=
  actsOnEncodings_of_bitwise (fun _ => rfl) fun v => by
    rw [leadingZeros_eq_toNat_clz _ r.fmt.width_pos, BitVec.toNat_mod_cancel]

theorem popcOut_acts : ActsOnEncodings popcOut r fun v => (v 0).cpop :=
  actsOnEncodings_of_bitwise (fun _ => rfl) fun v => by rw [onesCount_eq_toNat_cpop, BitVec.toNat_mod_cancel]

theorem brevOut_acts : ActsOnEncodings brevOut r fun v => (v 0).reverse :=
  actsOnEncodings_of_bitwise (fun _ => rfl) fun v => by rw [foldl_reflected_eq_toNat_reverse, BitVec.toNat_mod_cancel]

theorem selOut_acts : ActsOnEncodings selOut r fun v => if (v 0).getLsbD 0 then v 1 else v 2 :=
  actsOnEncodings_of_bitwise (fun _ => rfl) fun v => toNat_select (v 0) (v 1) (v 2)

end

/-- Settles O4: the row of Table 4-6 names the record's function, and that function acts on the encodings. -/
theorem logicRecordValues : Obligations.LogicRecordValues := by
  intro i op r c f g ops hrow hform hlens
  unfold Claim.logicFormula at hform
  split at hform
  all_goals cases hform
  all_goals cases hrow
  next => exact copyOut_acts r ops hlens
  next => exact andOut_acts r ops hlens
  next => exact orOut_acts r ops hlens
  next => exact xorOut_acts r ops hlens
  next => exact andnOut_acts r ops hlens
  next => exact notOut_acts r ops hlens
  next => exact lut3Out_acts r ops hlens
  next => exact shlOut_acts r ops hlens
  next => exact shrOut_acts r ops hlens
  next => exact sarOut_acts r ops hlens
  next => exact rotlOut_acts r ops hlens
  next => exact funlOut_acts r ops hlens
  next => exact clzOut_acts r ops hlens
  next => exact popcOut_acts r ops hlens
  next => exact brevOut_acts r ops hlens
  next => exact selOut_acts r ops hlens

/-! ### Division towards zero (R144) -/

/-- Truncation never passes the dividend's magnitude, so a quotient is never below the least value of the format. -/
theorem minI_le_tdiv {f : Fmt} {a b : Int} (ha : f.minI ≤ a) (hb : f.minI ≤ b) (hmax : a ≤ f.maxI) :
    f.minI ≤ Int.tdiv a b := by
  have hmag : (Int.tdiv a b).natAbs ≤ a.natAbs := by
    rw [Int.natAbs_tdiv]
    exact Nat.div_le_self ..
  unfold Fmt.minI Fmt.maxI at *
  cases hs : f.isSigned
  · simp only [hs, Bool.false_eq_true, if_false] at *
    exact Int.tdiv_nonneg ha hb
  · simp only [hs, if_true] at *
    omega

/-- A result that is not below the format's range is stored wrapped, or with M = 1 capped, EXC telling that it was (R98). -/
theorem storeI_of_minI_le {f : Fmt} {x : Int} (m : Bool) (h : f.minI ≤ x) :
    storeI f m x = ((BitVec.ofInt f.width (if m && decide (x > f.maxI) then f.maxI else x)).toNat, m && decide (x > f.maxI)) := by
  cases m
  · simp [storeI]
  · by_cases hx : x > f.maxI
    · simp [storeI, satI, hx, hx.ne]
    · simp [storeI, satI, hx, not_lt.mpr h]

/-- Settles O6: at each index the divisor is zero, or the quotient can pass its format at the top alone. -/
theorem divisionTowardsZero : Obligations.DivisionTowardsZero := by
  intro r ops _ hlens
  refine ⟨perValue_ok hlens fun j => ?_, perValue_ok hlens fun j => ?_⟩
  · have hq := minI_le_tdiv (minI_le_intsAt r.fmt ops j 0) (minI_le_intsAt r.fmt ops j 1)
      (intsAt_le_maxI r.fmt ops j 0)
    rw [int_val_eq_intsAt, int_val_eq_intsAt]
    by_cases hb : Claim.intsAt r.fmt ops j 1 = 0
    · simp [idivVal, hb]
    · simp [idivVal, hb, storeI_of_minI_le r.m hq]
  · simp only [int_val_eq_intsAt]
    by_cases hb : Claim.intsAt r.fmt ops j 1 = 0
    · simp [hb]
    · simp [hb, Int.tmod_def]

end Sys2Proof
end

section
/-! SUPPORT. A take of the Tag and Frame Unit whose operands are complete and whose sends have credit, and what STEER
sends (R189). -/

namespace Sys2Proof
open Machine

/-! ### A firing and its commit (R128, R129, R174 to R176) -/

/-- A complete firing comes to what the record computes from its operands, in the region they leave. -/
theorem firing_of_fires {k : Take} {op : Nat} {r : Rec} {ops : List Operand} {R : Region}
    (hfires : Claim.Fires k op r ops R) (f : List Operand → Region → TRes) : k.firing op r f = f ops R := by
  obtain ⟨hmatch, slots, seals, R0, harrive, hseals, rfl⟩ | ⟨hsole, rfl, rfl⟩ := hfires
  · simp [Take.firing, hmatch, harrive, hseals]
  · simp [Take.firing, hsole]

theorem sendFiring_of_fires {k : Take} {op : Nat} {r : Rec} {ops : List Operand} {R : Region}
    {f : List Operand → Except Cause Sends} {es : Sends} (hfires : Claim.Fires k op r ops R) (hf : f ops = .ok es) :
    k.sendFiring op r f = .ok es R := by
  rw [Take.sendFiring, firing_of_fires hfires, hf]

/-- A take that sends tokens for which there is credit is committed as the state after a firing (R129, R131). -/
theorem commitCell_ok {s : State} {rid : Nat} {k : Take} {R : Region} {lat occ : Nat} {es : Sends} (hroom : Claim.Room k R es) :
    commitCell s rid k lat occ (.ok es R) = Claim.sent s rid k R lat occ es := by
  obtain ⟨U, hunit, hsend⟩ := hroom
  simp [commitCell, hunit, hsend, Claim.sent, Site.queueSends]

theorem tfuExec_of_served {s : State} {rid : Nat} {k : Take} (hserved : Claim.Served s rid k) (f : Take → TRes) :
    tfuExec s f = commitCell s rid k 2 0 (f k) := by
  rw [tfuExec, hserved]

/-- A TFU record that sends tokens and does nothing else leaves the state after a firing, two cycles of latency (R188). -/
theorem tfuExec_sent {s : State} {rid : Nat} {k : Take} {R : Region} {f : Take → TRes} {es : Sends}
    (hserved : Claim.Served s rid k) (hres : f k = .ok es R) (hroom : Claim.Room k R es) :
    tfuExec s f = Claim.sent s rid k R 2 0 es := by
  rw [tfuExec_of_served hserved, hres, commitCell_ok hroom]

/-! ### STEER (R189) -/

theorem exec_steer (r : Rec) (s : State) : exec (.steer r) s = .next (tfuExec s fun k => steerRes k r) := rfl

/-- What a TFU record sends is struck when any of its operands is (R64, R188). -/
@[simp] theorem passToken_err (ops : List Operand) : (passToken ops).err = ops.any (·.tok.err) := rfl

/-- STEER has two ports, and without LIT both take tokens. -/
theorem matching_steer {r : Rec} (himm : r.imm = false) : matching 0x70 r = true := by
  simp [matching, tokenPorts, portsOf, himm]

/-- What STEER sends for the predicate `q`, the data `a` and the cancel `cut`, in the order D0, D1 (R75, R189). -/
def steerSends (r : Rec) (q : Bool) (a cut : Token) : Sends :=
  (if q then (r.d0, a) :: (if r.m then [] else [(r.d1, cut)])
    else (if r.m then [] else [(r.d0, cut)]) ++ [(r.d1, a)]).filter fun p => p.1 != noDest

theorem steerRes_of_fires {k : Take} {r : Rec} {ops : List Operand} {R : Region} (hfires : Claim.Fires k 0x70 r ops R)
    (hfit : (opAt ops 0).tok.oddPair = false) :
    steerRes k r = .ok (steerSends r ((nth 0#32 (opAt ops 1).tok.e 0).getLsbD 0) (passToken ops)
      (cancelOf (if (opAt ops 0).sticky then passToken ops else (opAt ops 0).tok))) R := by
  refine sendFiring_of_fires hfires ?_
  rw [show bit (nth 0#32 (opAt ops 1).tok.e 0).toNat 0 = (nth 0#32 (opAt ops 1).tok.e 0).getLsbD 0 from BitVec.testBit_toNat _]
  cases (nth 0#32 (opAt ops 1).tok.e 0).getLsbD 0 <;> cases hm : r.m <;> simp [steerSends, hfit, hm]

/-- Settles O8: the firing's one result is the sends of the chosen side, and they have credit. -/
theorem steerRoutesByThePredicate : Obligations.SteerRoutesByThePredicate := by
  intro r s rid k ops R hserved hfires hfit
  refine ⟨matching_steer, passToken_err ops, fun hroom => ?_⟩
  rw [exec_steer]
  exact congrArg Host.Outcome.next (tfuExec_sent hserved (steerRes_of_fires hfires hfit) hroom)

end Sys2Proof
end

section
/-! SUPPORT. Decoding of what is encoded, for every instruction (R72 to R76, R87). -/

namespace Sys2Proof
open Laws Laws.RoundTrip

/-- A row that a partial function of rows does not have. -/
theorem elim_none {α : Type} {x : α} {P : Prop} (h : none = some x) : P := (Option.some_ne_none x h.symm).elim

theorem roundTrip_of_opOf {i : Instr} (ho : (opOf i).isSome = true) : Statement i := by
  cases i
  case tagget r => exact tagget r
  case taggetTag r => exact taggetTag r
  all_goals try exact Bool.noConfusion ho
  all_goals exact ofRecord rfl (fun h => h) fun _ => rfl

/-- The custom instructions are the 18 of Table 2-20 and the five further rows of SEC's words. -/
theorem roundTrip_of_customOf {i : Instr} (hc : (customOf i).isSome = true) : Statement i := by
  cases i
  case rgnAlloc => exact rgnAlloc _ _ _
  case rgnLoad => exact rgnLoad _ _ _
  case rgnStart => exact rgnStart _ _ _
  case rgnFreeze => exact rgnFreeze _ _
  case rgnDrain => exact rgnDrain _ _
  case rgnSave => exact rgnSave _ _ _
  case rgnRest => exact rgnRest _ _ _
  case rgnMove => exact rgnMove _ _ _
  case rgnKill => exact rgnKill _ _
  case rgnPrio => exact rgnPrio _ _ _
  case rgnStat => exact rgnStat _ _ _
  case callTake => exact callTake _ _ _
  case callDone => exact callDone _ _
  case secFuseRead => exact secFuseRead _ _ _
  case secMeasRead => exact secMeasRead _ _ _
  case secWipeQuery => exact secWipeQuery _ _ _
  case secUnlkNonce => exact secUnlkNonce _ _ _
  case secAtst => exact secAtst _ _ _
  case secFuseBlow => exact secFuseBlow _ _ _
  case secMeasExtend => exact secMeasExtend _ _ _
  case secWipe => exact secWipe _ _ _
  case secUnlkSubmit => exact secUnlkSubmit _ _ _
  case secUnlkClose => exact secUnlkClose _ _ _
  all_goals exact Bool.noConfusion hc

theorem roundTrip (i : Instr) : Statement i := by
  cases ho : opOf i with
  | some p => exact roundTrip_of_opOf (ho ▸ rfl)
  | none =>
    cases hc : customOf i with
    | some p => exact roundTrip_of_customOf (hc ▸ rfl)
    | none => exact ofEvent ho hc

/-- Each of the five rows that share the word of a first variant is chosen by a value of rs1 or rs2 (R456 to R459). -/
theorem refine_firstVariant (i : Instr) : ∃ a b : W64, refine (firstVariant i) a b = i := by
  unfold firstVariant
  split
  case h_1 => exact ⟨0#64, 1#64, rfl⟩
  case h_2 => exact ⟨256#64, 0#64, rfl⟩
  case h_3 => exact ⟨0#64, 0#64, rfl⟩
  case h_4 => exact ⟨1#64, 0#64, rfl⟩
  case h_5 => exact ⟨2#64, 0#64, rfl⟩
  case h_6 =>
    refine ⟨128#64, 0#64, ?_⟩
    unfold refine
    split
    all_goals rfl

/-- Settles O45: records, custom instructions and events by their round trips, and the variants of SEC's words. -/
theorem decodeEncode : Obligations.DecodeEncode := fun i => ⟨roundTrip i, refine_firstVariant i⟩

end Sys2Proof
end

section
/-! SUPPORT. What decodes is what the encoder gives: records by their fields (R72, R73, R85), custom words by the mask of
Table 2-20 (R87, R88). -/

namespace Sys2Proof
open Laws

/-! ### Records -/

theorem codeOfFmt_fmtOfCode (c : BitVec 4) : codeOfFmt (fmtOfCode c) = c := by
  revert c
  decide

theorem ofBool_getLsbD (w : W32) (i : Nat) : BitVec.ofBool (w.getLsbD i) = w.extractLsb' i 1 := by
  refine BitVec.eq_of_getLsbD_eq fun j hj => ?_
  obtain rfl : j = 0 := by omega
  simp

/-- Neighbouring fields of a word, put together, are one field. -/
theorem append_fields (w : W32) (a n k : Nat) {b : Nat} (h : b = a + n) :
    w.extractLsb' b k ++ w.extractLsb' a n = w.extractLsb' a (k + n) := BitVec.extractLsb'_append_extractLsb'_eq_extractLsb' h

/-- A word is its six fields of Table 2-4 put together. -/
theorem encodeWord0_recOfWords (w0 w1 w2 : W32) : encodeWord0 (wordOp w0) (recOfWords w0 w1 w2) = w0 := by
  simp only [encodeWord0, recOfWords, codeOfFmt_fmtOfCode, wordLen, wordOp, ofBool_getLsbD]
  rw [append_fields w0 22 8 2 rfl, append_fields w0 18 4 10 rfl, append_fields w0 17 1 14 rfl, append_fields w0 16 1 15 rfl,
    append_fields w0 0 16 16 rfl]
  exact BitVec.extractLsb'_eq_self

theorem word1_of_fields (w : W32) : (w.extractLsb' 16 16 ++ w.extractLsb' 0 16 : W32) = w := by
  rw [append_fields w 0 16 16 rfl]
  exact BitVec.extractLsb'_eq_self

/-- The opcode that the decoder matches is the one that the encoder writes. -/
theorem instrOfOp_bind_opOf (op : BitVec 8) (r : Rec) : (instrOfOp op r).bind opOf = (instrOfOp op r).map fun _ => (op, r) := by
  obtain ⟨n, hn, rfl⟩ : ∃ n, n < 256 ∧ op = BitVec.ofNat 8 n := ⟨op.toNat, op.isLt, by simp⟩
  interval_cases n
  on_goal 132 =>
    change opOf (if _ then _ else _) = _
    split
  all_goals rfl

theorem opOf_instrOfOp {op : BitVec 8} {r : Rec} {i : Instr} (h : instrOfOp op r = some i) : opOf i = some (op, r) := by
  have := instrOfOp_bind_opOf op r
  rwa [h] at this

theorem instrOfOp_isSome_eq_assigned (op : BitVec 8) (r : Rec) : (instrOfOp op r).isSome = Claim.assigned op.toNat := by
  obtain ⟨n, hn, rfl⟩ : ∃ n, n < 256 ∧ op = BitVec.ofNat 8 n := ⟨op.toNat, op.isLt, by simp⟩
  interval_cases n
  all_goals rfl

theorem encodeRecord_recOfWords (w0 : W32) (t : List W32) (hlen : (w0 :: t).length = (wordLen w0).toNat + 1) (h3 : wordLen w0 ≠ 3#2) :
    encodeRecord (wordOp w0) (recOfWords w0 (t.getD 0 0#32) (t.getD 1 0#32)) = w0 :: t := by
  have hl : (recOfWords w0 (t.getD 0 0#32) (t.getD 1 0#32)).len = wordLen w0 := rfl
  simp only [encodeRecord, encodeWord0_recOfWords, hl]
  match t, hlen with
  | [], hlen =>
    have e : wordLen w0 = 0#2 := BitVec.eq_of_toNat_eq (by simpa using hlen.symm)
    simp [e]
  | [a], hlen =>
    have e : wordLen w0 = 1#2 := BitVec.eq_of_toNat_eq (by simpa using hlen.symm)
    simp [recOfWords, e, word1_of_fields]
  | [a, b], hlen =>
    have e : wordLen w0 = 2#2 := BitVec.eq_of_toNat_eq (by simpa using hlen.symm)
    simp [recOfWords, e, word1_of_fields]
  | a :: b :: c :: t, hlen =>
    have := (wordLen w0).isLt
    have e : wordLen w0 = 3#2 := BitVec.eq_of_toNat_eq (by simp only [List.length_cons] at hlen; simp; omega)
    exact absurd e h3

/-- What the decoder makes of words that are not cut short (R72, R85). -/
theorem decodeFabric_cons {w0 : W32} {t : List W32} (h : (wordLen w0).toNat ≤ t.length) :
    decodeFabric (w0 :: t) = decodeRecord w0 (t.getD 0 0#32) (t.getD 1 0#32) := by
  rw [decodeFabric, if_neg (Nat.not_lt.mpr h)]

theorem decodeFabric_ok {w0 : W32} {t : List W32} {i : Instr} (h : decodeFabric (w0 :: t) = .ok i) :
    wordLen w0 ≠ 3#2 ∧ opOf i = some (wordOp w0, recOfWords w0 (t.getD 0 0#32) (t.getD 1 0#32)) := by
  rw [decodeFabric] at h
  split at h
  · exact absurd h nofun
  · rw [decodeRecord] at h
    split at h
    · exact absurd h nofun
    · next h3 =>
      refine ⟨h3, ?_⟩
      split at h
      · next hi =>
        cases h
        exact opOf_instrOfOp hi
      · exact absurd h nofun

/-! ### Custom words -/

/-- The bits of a word under the mask of Table 2-20, and its register fields, are all of it. -/
theorem encodeCustom_fields (w : W32) : encodeCustom (w &&& 0xFE00707F#32) (wordD w) (wordA w) (wordS w) = w := by
  refine BitVec.eq_of_getLsbD_eq fun i hi => ?_
  simp only [encodeCustom, wordD, wordA, wordS, BitVec.getLsbD_or, BitVec.getLsbD_and, getLsbD_field, BitVec.getLsbD_extractLsb']
  interval_cases i <;> simp

/-- A custom instruction that a word decodes to has the word's fixed bits and register fields. -/
theorem customOf_decodeCustom {w : W32} {i : Instr} (h : decodeCustom w = .ok i) :
    opOf i = none ∧ customOf i = some (w &&& 0xFE00707F#32, wordD w, wordA w, wordS w) := by
  have hm (n : Nat) (e : (w &&& 0xFE00707F#32).toNat = n) : w &&& 0xFE00707F#32 = BitVec.ofNat 32 n := by
    rw [← e, BitVec.ofNat_toNat, BitVec.setWidth_eq]
  unfold decodeCustom at h
  split at h
  case h_19 => exact absurd h nofun
  case h_4 e | h_5 e | h_9 e | h_13 e =>
    dsimp only at h
    split at h
    · next hs =>
      cases h
      rw [hm _ e, hs]
      exact ⟨rfl, rfl⟩
    · exact absurd h nofun
  all_goals
    next e =>
      cases h
      rw [hm _ e]
      exact ⟨rfl, rfl⟩

theorem decodeCustom_error {w : W32} {e : DecodeError} (h : decodeCustom w = .error e) : e = .illegalCustom w := by
  unfold decodeCustom at h
  split at h
  case h_19 => exact (Except.error.inj h).symm
  case h_4 | h_5 | h_9 | h_13 =>
    dsimp only at h
    split at h
    · exact absurd h nofun
    · exact (Except.error.inj h).symm
  all_goals exact absurd h nofun

section
variable (f7 : BitVec 7) (b a : BitVec 5) (f3 : BitVec 3) (d : BitVec 5) (major : BitVec 7)

/-- The bits that the mask of Table 2-20 keeps: funct7, funct3 and the major opcode. -/
def fixedWord (f7 : BitVec 7) (f3 : BitVec 3) (major : BitVec 7) : W32 := Claim.wordR f7 0#5 0#5 f3 0#5 major

theorem wordR_and_mask : Claim.wordR f7 b a f3 d major &&& 0xFE00707F#32 = fixedWord f7 f3 major := by
  refine BitVec.eq_of_getLsbD_eq fun i hi => ?_
  simp only [fixedWord, Claim.wordR, BitVec.getLsbD_and, BitVec.getLsbD_append]
  interval_cases i <;> simp

theorem wordS_wordR : wordS (Claim.wordR f7 b a f3 d major) = b := by
  simp only [wordS, Claim.wordR]
  rw [BitVec.extractLsb'_append_eq_of_le (by omega), BitVec.extractLsb'_append_eq_of_le (by omega),
    BitVec.extractLsb'_append_eq_of_le (by omega), BitVec.extractLsb'_append_eq_of_le (by omega)]
  exact BitVec.extractLsb'_append_eq_right

theorem funct7_fixedWord : (fixedWord f7 f3 major).extractLsb' 25 7 = f7 := by
  simp only [fixedWord, Claim.wordR]
  rw [BitVec.extractLsb'_append_eq_of_le (by omega), BitVec.extractLsb'_append_eq_of_le (by omega),
    BitVec.extractLsb'_append_eq_of_le (by omega), BitVec.extractLsb'_append_eq_of_le (by omega)]
  exact BitVec.extractLsb'_append_eq_left

theorem funct3_fixedWord : (fixedWord f7 f3 major).extractLsb' 12 3 = f3 := by
  simp only [fixedWord, Claim.wordR]
  rw [BitVec.extractLsb'_append_eq_of_le (by omega), BitVec.extractLsb'_append_eq_of_le (by omega)]
  exact BitVec.extractLsb'_append_eq_right

theorem major_fixedWord : (fixedWord f7 f3 major).extractLsb' 0 7 = major := BitVec.extractLsb'_append_eq_right

end

/-- The fixed bits tell funct7, funct3 and the major opcode. -/
theorem fields_of_fixedWord {f7 : BitVec 7} {f3 : BitVec 3} {major : BitVec 7} {m : W32} (h : fixedWord f7 f3 major = m) :
    f7 = m.extractLsb' 25 7 ∧ f3 = m.extractLsb' 12 3 ∧ major = m.extractLsb' 0 7 := by
  subst h
  exact ⟨(funct7_fixedWord ..).symm, (funct3_fixedWord ..).symm, (major_fixedWord ..).symm⟩

/-- A word that decodes lies in Table 2-20. -/
theorem inTable220_of_decodeCustom_ok {f7 : BitVec 7} {b a : BitVec 5} {f3 : BitVec 3} {d : BitVec 5} {major : BitVec 7} {i : Instr}
    (h : decodeCustom (Claim.wordR f7 b a f3 d major) = .ok i) : Claim.inTable220 f7 b f3 major = true := by
  have hm (n : Nat) (e : (fixedWord f7 f3 major).toNat = n) : fixedWord f7 f3 major = BitVec.ofNat 32 n := by
    rw [← e, BitVec.ofNat_toNat, BitVec.setWidth_eq]
  unfold decodeCustom at h
  rw [wordR_and_mask, wordS_wordR] at h
  split at h
  case h_19 => exact absurd h nofun
  case h_4 e | h_5 e | h_9 e | h_13 e =>
    dsimp only at h
    split at h
    · next hs =>
      obtain ⟨rfl, rfl, rfl⟩ := fields_of_fixedWord (hm _ e)
      subst hs
      decide
    · exact absurd h nofun
  all_goals
    next e =>
      obtain ⟨rfl, rfl, rfl⟩ := fields_of_fixedWord (hm _ e)
      simp [Claim.inTable220]

/-- The custom words that decode, by the values of their fields (Table 2-20). -/
theorem decodeCustom_of_inTable220 {f7 : BitVec 7} {b a : BitVec 5} {f3 : BitVec 3} {d : BitVec 5} {major : BitVec 7}
    (h : Claim.inTable220 f7 b f3 major = true) : ∃ i, decodeCustom (Claim.wordR f7 b a f3 d major) = .ok i := by
  have hf7 : f7 = BitVec.ofNat 7 f7.toNat := by rw [BitVec.ofNat_toNat, BitVec.setWidth_eq]
  unfold decodeCustom
  rw [wordR_and_mask, wordS_wordR]
  simp only [Claim.inTable220, Bool.or_eq_true, Bool.and_eq_true, beq_iff_eq, decide_eq_true_eq, Bool.not_eq_true'] at h
  obtain (⟨⟨⟨rfl, rfl⟩, hle⟩, hb⟩ | ⟨⟨rfl, rfl⟩, hf | ⟨hf, hb⟩⟩) | ⟨⟨rfl, rfl⟩, hle⟩ := h
  · have hb' (e : [0x03, 0x04, 0x08].contains f7.toNat = true) : b = 0#5 := hb.resolve_right (by rw [e]; exact Bool.noConfusion)
    obtain ⟨n, hn, rfl⟩ : ∃ n, n ≤ 10 ∧ f7 = BitVec.ofNat 7 n := ⟨_, hle, hf7⟩
    interval_cases n <;> simp [fixedWord, Claim.wordR, hb']
  · simp [fixedWord, Claim.wordR, hf]
  · simp [fixedWord, Claim.wordR, hf, hb]
  · obtain ⟨n, hn, rfl⟩ : ∃ n, n ≤ 4 ∧ f7 = BitVec.ofNat 7 n := ⟨_, hle, hf7⟩
    interval_cases n <;> simp [fixedWord, Claim.wordR]

/-- Settles O46: what decodes has the fields of its words, and an opcode or a custom word decodes where a table lists it. -/
theorem encodeDecode : Obligations.EncodeDecode := by
  refine ⟨fun ws i w0 hdec hhead hlen => ?_, fun w0 t h3 i hdec => (decodeFabric_ok hdec).1 h3, fun w0 t hlt => ?_,
    fun w0 t h3 hle => ?_, fun f7 b a f3 d major => ⟨fun hin => ?_, fun hout => ?_⟩⟩
  · obtain ⟨t, rfl⟩ := List.head?_eq_some_iff.mp hhead
    obtain ⟨h3, hop⟩ := decodeFabric_ok hdec
    rw [encode, hop]
    exact encodeRecord_recOfWords w0 t hlen h3
  · rw [decodeFabric, if_pos hlt]
  · rw [decodeFabric_cons hle, decodeRecord, if_neg h3, ← instrOfOp_isSome_eq_assigned _ (recOfWords w0 (t.getD 0 0#32) (t.getD 1 0#32))]
    cases instrOfOp (wordOp w0) (recOfWords w0 (t.getD 0 0#32) (t.getD 1 0#32)) with
    | none => exact ⟨fun _ => rfl, fun h => absurd h nofun⟩
    | some i => exact ⟨fun h => absurd h nofun, fun _ => ⟨i, rfl⟩⟩
  · obtain ⟨i, hi⟩ := decodeCustom_of_inTable220 hin
    obtain ⟨hop, hcustom⟩ := customOf_decodeCustom hi
    refine ⟨i, hi, ?_⟩
    simp only [encode, hop, hcustom, encodeCustom_fields]
  · cases hdec : decodeCustom (Claim.wordR f7 b a f3 d major) with
    | ok i => exact absurd (inTable220_of_decodeCustom_ok hdec) (by rw [hout]; exact Bool.noConfusion)
    | error e => rw [decodeCustom_error hdec]

/-- Settles O44: each word has the layout of Table 2-4 or of the R-type, and the decoder reads its fields. -/
theorem decodeWords : Obligations.DecodeWords := by
  unfold Obligations.DecodeWords
  decide +kernel

end Sys2Proof
end

section
/-! SUPPORT. Every record of the cell's ALU: what its firing leaves (R128 to R131), the one fault it has (R60, R140), the values of
the arithmetic records and of ICMP (R143, R150), and packed payloads (R59). -/

namespace Sys2Proof
open Machine

/-! ### A firing of the ALU -/

/-- Each row of Tables 2-11 to 2-13 runs by the one operation of the ALU. -/
theorem exec_of_aluRow {i : Instr} {op : Nat} {r : Rec} {c : Cost} {f : AluFn} (h : Claim.aluRow i = some (op, r, c, f)) (s : State) :
    exec i s = .next (aluExec s op r c f) := by
  cases i
  all_goals try exact elim_none h
  all_goals cases h
  all_goals rfl

theorem wide_of_fires {k : Take} {op : Nat} {r : Rec} {ops : List Operand} {R : Region} (hfires : Claim.Fires k op r ops R) :
    k.wide op r = decide (3 < maxLen ops) := by
  obtain ⟨hmatch, slots, seals, R0, harrive, -, -⟩ | ⟨hsole, rfl, -⟩ := hfires
  · simp [Take.wide, hmatch, harrive]
  · simp [Take.wide, hsole]

/-- A complete firing of a free ALU is committed with the occupancy and latency of its row. -/
theorem aluExec_of_fires {s : State} {rid : Nat} {k : Take} {op : Nat} {r : Rec} {c : Cost} {f : AluFn} {ops : List Operand} {R : Region}
    {x : TRes} (hserved : Claim.Served s rid k) (hfree : k.U.aluFree ≤ s.cycle) (hfires : Claim.Fires k op r ops R)
    (hres : k.sendFiring op r (fun ops => (f r ops).map (aluSends r ops)) = x) :
    aluExec s op r c f = commitCell s rid k (c.lat (decide (3 < maxLen ops))) (c.occ (decide (3 < maxLen ops))) x := by
  rw [aluExec, hserved]
  simp only [Nat.not_lt.mpr hfree, if_false, wide_of_fires hfires, hres]

/-- Settles O1: the one operation of the ALU, committed with credit on every route. -/
theorem aluRecordsComplete : Obligations.AluRecordsComplete := by
  intro i op r c f s rid k ops R o hrow hserved hfree hfires hout hroom
  have hres := sendFiring_of_fires (f := fun ops => (f r ops).map (aluSends r ops)) hfires (by rw [hout, Except.map])
  rw [exec_of_aluRow hrow, aluExec_of_fires hserved hfree hfires hres, commitCell_ok hroom]

/-! ### Arithmetic, value by value (R143) -/

theorem minI_le_maxI (f : Fmt) : f.minI ≤ f.maxI := by
  have h1 : (1 : Int) ≤ (2 ^ (f.width - 1) : Nat) := by exact_mod_cast Nat.one_le_two_pow
  have h2 : (1 : Int) ≤ (2 ^ f.width : Nat) := by exact_mod_cast Nat.one_le_two_pow
  unfold Fmt.minI Fmt.maxI
  split <;> omega

/-- Saturation is the nearest value of the format (R98). -/
theorem satI_eq (f : Fmt) (x : Int) : satI f x = max f.minI (min f.maxI x) := by
  have := minI_le_maxI f
  unfold satI
  split
  · omega
  · split <;> omega

theorem storeI_eq (f : Fmt) (m : Bool) (x : Int) :
    storeI f m x = ((BitVec.ofInt f.width (if m then max f.minI (min f.maxI x) else x)).toNat,
      m && (if m then max f.minI (min f.maxI x) else x) != x) := by
  cases m
  · simp [storeI]
  · simp [storeI, satI_eq, bne, beq_eq_decide]

/-- An arithmetic record stores its formula of the values at each index, wrapped or saturated. -/
theorem intArith_ok {r : Rec} {ops : List Operand} {g : (Nat → Int) → Int} {x : Nat → Int} (hl : lensOk r.fmt ops = true)
    (hx : ∀ j, g (Claim.intsAt r.fmt ops j) = x j) :
    let y (j : Nat) : Int := if r.m then max r.fmt.minI (min r.fmt.maxI (x j)) else x j
    let n := r.fmt.nv (maxLen ops)
    intArith r ops g = .ok (AluOut.one r.fmt (maxLen ops) (r.fmt.pack ((List.range n).map fun j => (BitVec.ofInt r.fmt.width (y j)).toNat))
      ((List.range n).any fun j => r.m && y j != x j)) := by
  refine perValue_ok hl fun j => ?_
  simp only [int_val_eq_intsAt]
  rw [← hx j, storeI_eq]

/-- Settles O3: each row of Table 4-6 names its formula. -/
theorem integerRecordValues : Obligations.IntegerRecordValues := by
  intro i op r c f g ops hrow hform _ hlens
  cases i
  all_goals try exact elim_none hform
  all_goals cases hform
  all_goals cases hrow
  all_goals refine intArith_ok hlens fun j => ?_
  case imulh =>
    dsimp only
    rw [Int.fdiv_eq_ediv_of_nonneg]
    · push_cast
      rfl
    · positivity
  case iabs => dsimp only; split <;> omega
  case ineg => dsimp only; omega
  case iclamp => dsimp only; split <;> split <;> omega
  all_goals rfl

/-! ### ICMP (R150) -/

theorem icmpCond_iff (sub : Nat) (a b : Int) : icmpCond sub a b = true ↔ Claim.holds sub a b := by
  unfold icmpCond Claim.holds
  split <;> simp

/-- Settles O5: the condition is tested at each index, and 0 and 1 fit every integer format. -/
theorem icmpWritesTheCondition : Obligations.IcmpWritesTheCondition := by
  intro r ops _ hlens
  let val (j : Nat) : Nat := b2n (icmpCond (recSub r) (Claim.intsAt r.fmt ops j 0) (Claim.intsAt r.fmt ops j 1))
  have hsmall (b : Bool) : b2n b % 2 ^ r.fmt.width = b2n b :=
    Nat.mod_eq_of_lt (lt_of_lt_of_le (by cases b <;> decide) (Nat.le_self_pow r.fmt.width_pos.ne' 2))
  refine ⟨(List.range (r.fmt.nv (maxLen ops))).map val, ?_, by simp, ?_⟩
  · rw [icmpOut, bitwise, perValue_ok (val := val) (exc := fun _ => false) hlens]
    · rw [List.any_eq_false.mpr fun _ _ => Bool.false_ne_true]
    · intro j
      simp only [int_val_eq_intsAt, hsmall, val]
  · intro j hj a b ha hb
    have hval : nth 0 ((List.range (r.fmt.nv (maxLen ops))).map val) j = b2n (icmpCond (recSub r) a b) := by
      rw [nth, List.getD_eq_getElem _ _ hj, List.getElem_map, List.getElem_range, ha, hb]
    rw [hval]
    exact ⟨fun h => by rw [(icmpCond_iff ..).mpr h]; rfl,
      fun h => by rw [Bool.not_eq_true _ |>.mp (mt (icmpCond_iff ..).mp h)]; rfl⟩

/-! ### Packed payloads (R59) -/

/-- The number whose digits of `w` bits are `v 0`, `v 1`, … below `v n`. -/
def digitSum (w : Nat) (v : Nat → Nat) (n : Nat) : Nat := (List.range n).foldl (fun acc k => acc + v k % 2 ^ w * 2 ^ (k * w)) 0

theorem digitSum_succ (w : Nat) (v : Nat → Nat) (n : Nat) : digitSum w v (n + 1) = digitSum w v n + v n % 2 ^ w * 2 ^ (n * w) := by
  rw [digitSum, List.range_succ, List.foldl_append]
  rfl

theorem digitSum_lt (w : Nat) (v : Nat → Nat) (n : Nat) : digitSum w v n < 2 ^ (n * w) := by
  induction n with
  | zero => simp [digitSum]
  | succ n ih =>
    have hd : v n % 2 ^ w * 2 ^ (n * w) ≤ (2 ^ w - 1) * 2 ^ (n * w) :=
      Nat.mul_le_mul_right _ (Nat.le_sub_one_of_lt (Nat.mod_lt _ (Nat.two_pow_pos w)))
    have hp : 2 ^ ((n + 1) * w) = 2 ^ w * 2 ^ (n * w) := by rw [← Nat.pow_add]; congr 1; ring
    have h1 : (2 ^ w - 1) * 2 ^ (n * w) = 2 ^ w * 2 ^ (n * w) - 2 ^ (n * w) := by rw [Nat.sub_mul, Nat.one_mul]
    have h2 : 2 ^ (n * w) ≤ 2 ^ w * 2 ^ (n * w) := Nat.le_mul_of_pos_left _ (Nat.two_pow_pos w)
    rw [digitSum_succ, hp]
    omega

theorem digitSum_digit (w : Nat) (v : Nat → Nat) {n k : Nat} (hk : k < n) : digitSum w v n / 2 ^ (k * w) % 2 ^ w = v k % 2 ^ w := by
  induction n with
  | zero => omega
  | succ n ih =>
    rw [digitSum_succ]
    obtain rfl | hlt := Nat.eq_or_lt_of_le (Nat.le_of_lt_succ hk)
    · rw [Nat.add_mul_div_right _ _ (Nat.two_pow_pos _), Nat.div_eq_of_lt (digitSum_lt ..), Nat.zero_add, Nat.mod_mod]
    · have hp : 2 ^ (n * w) = 2 ^ ((n - k - 1) * w) * 2 ^ w * 2 ^ (k * w) := by
        rw [← Nat.pow_add, ← Nat.pow_add]
        congr 1
        rw [← Nat.succ_mul, ← Nat.add_mul]
        congr 1
        omega
      rw [hp, ← Nat.mul_assoc, ← Nat.mul_assoc, Nat.add_mul_div_right _ _ (Nat.two_pow_pos _), Nat.add_mul_mod_self_right, ih hlt]

theorem nth_pack (f : Fmt) (vs : List Nat) {j : Nat} (hj : j < 8) : nth 0#32 (f.pack vs) j = f.elemOf vs j := by
  rw [nth, Fmt.pack, List.getD_eq_getElem _ _ (by simpa using hj), List.getElem_map, List.getElem_range]

theorem subs_mul_width_le (f : Fmt) (h : f.pair = false) : f.subs * f.width ≤ 32 ∧ 0 < f.subs := by
  revert h
  cases f <;> decide

/-- Settles O7: a pair is its two halves; elsewhere a value is one digit of its element. -/
theorem packedValuesReadBack : Obligations.PackedValuesReadBack := by
  intro f vs j hj
  unfold Fmt.get
  unfold Fmt.nv at hj
  split
  next hp =>
    rw [if_pos hp] at hj
    rw [nth_pack f vs (by omega), nth_pack f vs (by omega), Fmt.width_of_pair hp]
    simp only [Fmt.elemOf, hp, if_true, BitVec.toNat_ofNat, show 2 * j / 2 = j by omega, show (2 * j + 1) / 2 = j by omega,
      show 2 * j % 2 = 0 by omega, show (2 * j + 1) % 2 = 1 by omega, Nat.shiftRight_eq_div_pow]
    omega
  next hp =>
    rw [if_neg hp] at hj
    obtain ⟨hw, hs⟩ := subs_mul_width_le f (Bool.not_eq_true _ |>.mp hp)
    have hdiv : j / f.subs < 8 := Nat.div_lt_of_lt_mul (by rw [Nat.mul_comm]; exact hj)
    rw [nth_pack f vs hdiv, Fmt.elemOf, if_neg hp, BitVec.toNat_ofNat]
    have hsum := digitSum_lt f.width (fun k => nth 0 vs (j / f.subs * f.subs + k)) f.subs
    have hdigit := digitSum_digit f.width (fun k => nth 0 vs (j / f.subs * f.subs + k)) (Nat.mod_lt j hs)
    rw [show (List.range f.subs).foldl _ 0 = digitSum f.width (fun k => nth 0 vs (j / f.subs * f.subs + k)) f.subs from rfl,
      Nat.mod_eq_of_lt (lt_of_lt_of_le hsum (Nat.pow_le_pow_right (by omega) hw)), Nat.shiftRight_eq_div_pow, hdigit]
    congr 2
    rw [Nat.mul_comm]
    exact Nat.div_add_mod j f.subs

end Sys2Proof
end

section
/-! SUPPORT. The takes of the Tag and Frame Unit: the length rule (R60), and what each record sends (chapter 5, section 5). -/

namespace Sys2Proof
open Machine

/-! ### The one fault of an ALU record (R60, R63, R140) -/

/-- A result that fails in no way but "packet length mismatch". -/
def LengthFaultOnly {α : Type} (e : Except Cause α) : Prop := ∀ x, e = .error x → x = .packetLengthMismatch

section
variable {α : Type}

theorem lengthFaultOnly_ok (a : α) : LengthFaultOnly (.ok a : Except Cause α) := nofun

theorem lengthFaultOnly_error : LengthFaultOnly (.error .packetLengthMismatch : Except Cause α) := fun _ h => (Except.error.inj h).symm

theorem lengthFaultOnly_guard {c : Prop} [Decidable c] {e : Except Cause α} (h : LengthFaultOnly e) :
    LengthFaultOnly (if c then .error .packetLengthMismatch else e) := by
  split
  · exact lengthFaultOnly_error
  · exact h

end

theorem perValue_lengthFaultOnly (inF outF : Fmt) (ops : List Operand) (g : (Nat → Nat) → Nat × Bool) :
    LengthFaultOnly (perValue inF outF ops g) := lengthFaultOnly_guard (lengthFaultOnly_ok _)

theorem intArith_lengthFaultOnly (r : Rec) (ops : List Operand) (g : (Nat → Int) → Int) : LengthFaultOnly (intArith r ops g) :=
  perValue_lengthFaultOnly _ _ _ _

theorem bitwise_lengthFaultOnly (r : Rec) (ops : List Operand) (g : (Nat → Nat) → Nat) : LengthFaultOnly (bitwise r ops g) :=
  perValue_lengthFaultOnly _ _ _ _

theorem floatArith_lengthFaultOnly (r : Rec) (ops : List Operand) (g : (Nat → Machine.Num) → Machine.Num × Bool) : LengthFaultOnly (floatArith r ops g) :=
  perValue_lengthFaultOnly _ _ _ _

theorem perElement_lengthFaultOnly (outF : Fmt) (ops : List Operand) (g : Nat → Nat × Bool) :
    LengthFaultOnly (perElement outF ops g) := lengthFaultOnly_guard (lengthFaultOnly_ok _)

theorem perPosition_lengthFaultOnly (r : Rec) (ops : List Operand) (g : Nat → Nat → Nat → Nat × Bool) :
    LengthFaultOnly (perPosition r ops g) := by
  refine lengthFaultOnly_guard ?_
  dsimp only
  split <;> exact lengthFaultOnly_ok _

theorem wholeOut_lengthFaultOnly (f : Fmt) (len : Nat) (e : List W32) : LengthFaultOnly (wholeOut f len e) :=
  lengthFaultOnly_guard (lengthFaultOnly_ok _)

theorem carryOut_lengthFaultOnly (r : Rec) (ops : List Operand) (t : (Nat → Nat) → Int) : LengthFaultOnly (carryOut r ops t) := by
  unfold carryOut
  split
  · exact lengthFaultOnly_ok _
  · next h => exact fun x hx => by cases hx; exact perValue_lengthFaultOnly _ _ _ _ _ h
  · next h _ => exact fun x hx => by cases hx; exact perValue_lengthFaultOnly _ _ _ _ _ h

/-- Every record of Tables 2-11 to 2-13 computes by index, by element, by position, or from whole packets, under a test of lengths. -/
theorem aluRow_lengthFaultOnly {i : Instr} {op : Nat} {r : Rec} {c : Cost} {f : AluFn} (h : Claim.aluRow i = some (op, r, c, f))
    (ops : List Operand) : LengthFaultOnly (f r ops) := by
  cases i
  all_goals try exact elim_none h
  all_goals cases h
  case iaddc | isubb => exact carryOut_lengthFaultOnly _ _ _
  case idot4 | fdot2 => exact perElement_lengthFaultOnly _ _ _
  case cvt | cvts => exact perPosition_lengthFaultOnly _ _ _
  case qscale =>
    unfold qscaleOut
    exact lengthFaultOnly_ok _
  case pmerge | pext | pins | pbcast | pshuf => exact lengthFaultOnly_guard (wholeOut_lengthFaultOnly _ _ _)
  case qpack | qunpack | psplit | preduce | plen | ptest | draw | cadd128 => exact lengthFaultOnly_guard (lengthFaultOnly_ok _)
  case idiv | irem | fcmp | frnd | fclass | fscale => exact perValue_lengthFaultOnly _ _ _ _
  case fadd | fsub | fmul | ffma => exact floatArith_lengthFaultOnly _ _ _
  case iadd | isub | imul | imulh | imad | imin | imax | iabs | ineg | iclamp => exact intArith_lengthFaultOnly _ _ _
  all_goals exact bitwise_lengthFaultOnly _ _ _

/-! ### Faults of a TFU record's port 0 -/

theorem tfuExec_fault {s : State} {rid : Nat} {k : Take} {f : Take → TRes} {c : Cause} (hserved : Claim.Served s rid k)
    (hres : f k = .fault c) : tfuExec s f = takeFault s rid (mkFault k.u k.t.node k.t c 0) := by
  rw [tfuExec_of_served hserved, hres]
  rfl

theorem whole_of_oddPair {k : Take} (h : k.t.oddPair = true) (x : TRes) : k.whole x = .fault .packetLengthMismatch := if_pos h

theorem whole_of_fit {k : Take} (h : k.t.oddPair = false) (x : TRes) : k.whole x = x := by
  rw [Take.whole, h]
  rfl

theorem sendFiring_error {k : Take} {op : Nat} {r : Rec} {ops : List Operand} {R : Region}
    {f : List Operand → Except Cause Sends} {c : Cause} (hfires : Claim.Fires k op r ops R) (hf : f ops = .error c) :
    k.sendFiring op r f = .fault c := by
  rw [Take.sendFiring, firing_of_fires hfires, hf]

theorem exec_falloc_of_served {s : State} {rid : Nat} {k : Take} (hserved : Claim.Served s rid k) (r : Rec) :
    exec (.falloc r) s = .next (tfuExec s fun k => fallocRes k r) := by
  show execFalloc r s = _
  rw [execFalloc, tfuExec, hserved]

/-- A TFU record of one token commits a result that is whole only where the token is. -/
theorem exec_of_tfuSole {i : Instr} {r : Rec} (h : Claim.tfuSole i = some r) {s : State} {rid : Nat} {k : Take}
    (hserved : Claim.Served s rid k) : ∃ x : Take → TRes, exec i s = .next (tfuExec s fun k => k.whole (x k)) := by
  cases i
  all_goals try exact elim_none h
  all_goals cases h
  case falloc => exact ⟨_, exec_falloc_of_served hserved r⟩
  all_goals exact ⟨_, rfl⟩

/-- The records with two ports test the token of port 0 when both are there. -/
theorem exec_of_tfuPaired {i : Instr} {op : Nat} {r : Rec} (h : Claim.tfuPaired i = some (op, r)) (s : State) :
    ∃ f : Take → List Operand → Except Cause Sends, exec i s = .next (tfuExec s fun k => k.sendFiring op r (f k)) ∧
      ∀ k ops, (opAt ops 0).tok.oddPair = true → f k ops = .error .packetLengthMismatch := by
  cases i
  all_goals try exact elim_none h
  all_goals cases h
  case steer => exact ⟨_, rfl, fun k ops hodd => if_pos hodd⟩
  case gate => exact ⟨_, rfl, fun k ops hodd => if_pos hodd⟩
  case tagset => exact ⟨_, rfl, fun k ops hodd => by simp [hodd]⟩

/-- The accumulator with which a context of OREDUCE opens (R201). -/
def freshAccum (k : Take) (r : Rec) (outer : W64) : Accum :=
  { tag := outer, round := k.t.round, next := 0, k := none, fmt := r.fmt, seq := 0#15, sum := none, exc := false, err := false }

/-- The first value of a context is not taken where its format and LEN disagree (R60). -/
theorem oreduceRes_oddPair {k : Take} {r : Rec} {outer : W64} {i : Nat} (hport : k.t.port = 0#2) (hodd : k.t.oddPair = true)
    (hpop : popField k.R.cfg.tw k.t.tag (r.lit.toNat % 64) = .ok (outer, i))
    (hopen : mapGet k.U.slots (k.t.frame.toNat * k.U.stride + r.aux.toNat % 256 - 1) = none)
    (hbank : mapGet k.U.slots (k.t.frame.toNat * k.U.stride + r.aux.toNat % 256 + i % (bits r.aux.toNat 14 12 + 1)) = none) :
    oreduceRes k r = .fault .packetLengthMismatch := by
  have hact : k.t.act ≠ .cancel := fun h => by simp [Token.oddPair, h] at hodd
  simp only [oreduceRes, hport, hpop, hopen]
  by_cases hi : 0 < i
  · simp [hi, hbank, hodd]
  · simp [Nat.eq_zero_of_not_pos hi, Accum.consume, hact, hodd]

theorem bits_14_12 (n : Nat) : bits n 14 12 = n / 4096 % 8 := by rw [bits, Nat.shiftRight_eq_div_pow]; rfl

/-- Settles O2: an ALU record's errors are length mismatches, and a TFU record tests its token before anything else. -/
theorem lengthMismatchFreezes : Obligations.LengthMismatchFreezes := by
  refine ⟨fun i op r c f s rid k ops R x hrow hserved hfree hfires herr => ?_, fun i r s rid k hrow hserved hodd => ?_,
    fun i op r s rid k ops R hrow hserved hfires hodd => ?_, fun r s rid k outer i hserved hport hodd hpop hopen hbank => ?_⟩
  · obtain rfl := aluRow_lengthFaultOnly hrow ops x herr
    refine ⟨rfl, ?_⟩
    have hres := sendFiring_error (c := .packetLengthMismatch) (f := fun ops => (f r ops).map (aluSends r ops)) hfires
      (by rw [herr, Except.map])
    rw [exec_of_aluRow hrow, aluExec_of_fires hserved hfree hfires hres]
    rfl
  · obtain ⟨x, hexec⟩ := exec_of_tfuSole hrow hserved
    rw [hexec, tfuExec_fault hserved (whole_of_oddPair hodd _)]
  · obtain ⟨f, hexec, hf⟩ := exec_of_tfuPaired hrow s
    rw [hexec, tfuExec_fault hserved (sendFiring_error hfires (hf k ops hodd))]
  · exact congrArg Host.Outcome.next (tfuExec_fault hserved (oreduceRes_oddPair hport hodd hpop hopen (by rwa [bits_14_12])))

end Sys2Proof
end

section
/-! SUPPORT. What the records of the Tag and Frame Unit send (R187 to R200), one result for each record. -/

namespace Sys2Proof
open Machine

theorem sendsOf_eq_toBoth (r : Rec) (t : Token) : sendsOf r t t = Claim.toBoth r t := rfl

/-! ### GATE and MERGE (R187, R190, R191) -/

/-- Settles O9: GATE fires on its predicate and data, MERGE on either token. -/
theorem gateAndMergeComplete : Obligations.GateAndMergeComplete := by
  intro r s rid k ops R hserved
  refine ⟨fun hfires hfit hroom => ?_, fun hfit hroom => ?_⟩
  · have hres : gateRes k r = .ok (Claim.toBoth r (passToken ops)) R := sendFiring_of_fires hfires (by simp [hfit, sendsOf_eq_toBoth])
    exact congrArg Host.Outcome.next (tfuExec_sent hserved hres hroom)
  · exact congrArg Host.Outcome.next (tfuExec_sent hserved (whole_of_fit hfit _) hroom)

/-! ### STICK, PURGE, CANCEL (R194) -/

/-- Settles O14: each sends its token on both routes under its own ACT. -/
theorem actionRecordsComplete : Obligations.ActionRecordsComplete := fun _ _ _ _ hserved hfit =>
  ⟨fun hroom => congrArg Host.Outcome.next (tfuExec_sent hserved (whole_of_fit hfit _) hroom),
    fun hroom => congrArg Host.Outcome.next (tfuExec_sent hserved (whole_of_fit hfit _) hroom),
    fun hroom => congrArg Host.Outcome.next (tfuExec_sent hserved (whole_of_fit hfit _) hroom)⟩

/-! ### Contexts (R183, R192, R193) -/

/-- A step that is no field of its width, or the last value of one, is refused (R192). -/
theorem nextTag_ok {tw : List Nat} {t : W64} {w : Nat} (hd : depth tw t ≠ 0) (hw : twAt tw (depth tw t - 1) = w)
    (hv : inner tw t ≠ 2 ^ w - 1) : nextTag tw t w = .ok (setInner tw t (inner tw t + 1)) := by
  simp [nextTag, hd, hw, hv]

theorem nextTag_tagOverflow {tw : List Nat} {t : W64} {w : Nat} (hd : depth tw t ≠ 0) (hw : twAt tw (depth tw t - 1) = w)
    (hv : inner tw t = 2 ^ w - 1) : nextTag tw t w = .error .tagOverflow := by
  simp [nextTag, hd, hw, hv]

theorem nextTag_tagLayout {tw : List Nat} {t : W64} {w : Nat} (h : depth tw t = 0 ∨ twAt tw (depth tw t - 1) ≠ w) :
    nextTag tw t w = .error .tagLayout := by
  simp only [nextTag]
  rw [if_pos (by simpa using h)]

theorem popField_tagLayout {tw : List Nat} {t : W64} {w : Nat} (h : depth tw t = 0 ∨ twAt tw (depth tw t - 1) ≠ w) :
    popField tw t w = .error .tagLayout := by
  simp only [popField]
  rw [if_pos (by simpa using h)]

theorem pushField_tagLayout {tw : List Nat} {t : W64} {w : Nat} (v : Nat) (h : twAt tw (depth tw t) ≠ w) :
    pushField tw t w v = .error .tagLayout := if_pos h

theorem pushField_tagOverflow {tw : List Nat} {t : W64} {w : Nat} (v : Nat) (h : twAt tw (depth tw t) = w) (hb : 58 < tagTop t + w) :
    pushField tw t w v = .error .tagOverflow := by
  simp [pushField, h, hb]

/-- A counter of a round is raised by one while it is below 2^20 - 1 (R183). -/
theorem bumpCounter_of_lt {R : Region} {u : UnitId} {U : Site} {i : Nat} {round : BitVec 12} {e : CEntry} (isExp : Bool)
    (hunit : R.unit? u = some U) (hentry : entryFor (counterOf U.slots i) round = some e)
    (hlt : (if isExp then e.exp else e.got) + 1 < 2 ^ 20) :
    bumpCounter R u i round isExp = some (.ok (R.setSlots u (putCounter U.slots i round (putEntry (counterOf U.slots i)
      (if isExp then { e with exp := e.exp + 1 } else { e with got := e.got + 1 }))))) := by
  simp only [bumpCounter, hunit, hentry]
  rw [if_neg (by omega)]

theorem bumpCounter_roundCount {R : Region} {u : UnitId} {U : Site} {i : Nat} {round : BitVec 12} {e : CEntry} (isExp : Bool)
    (hunit : R.unit? u = some U) (hentry : entryFor (counterOf U.slots i) round = some e)
    (hge : 2 ^ 20 ≤ (if isExp then e.exp else e.got) + 1) : bumpCounter R u i round isExp = some (.error .roundCount) := by
  simp only [bumpCounter, hunit, hentry]
  rw [if_pos (by omega)]

theorem bumpCounter_none {R : Region} {u : UnitId} {U : Site} {i : Nat} {round : BitVec 12} (isExp : Bool)
    (hunit : R.unit? u = some U) (hentry : entryFor (counterOf U.slots i) round = none) : bumpCounter R u i round isExp = none := by
  simp only [bumpCounter, hunit, hentry]

/-- The turn is that of the head `k`, whether or not R35 serves it. -/
def HeadOf (s : State) (rid : Nat) (k : Take) : Prop :=
  ∃ q, s.turn.who = .take rid k.u q ∧ (s.region? rid).bind (·.takeAt s.cycle k.u q) = some k

/-- Of a turn that names a head no other head is taken. -/
theorem taking_of_headOf {s : State} {rid : Nat} {k : Take} (h : HeadOf s rid k) : s.taking = none ∨ Claim.Served s rid k := by
  obtain ⟨q, hwho, htake⟩ := h
  rw [Claim.Served, State.taking, hwho]
  dsimp only
  cases hR : s.region? rid with
  | none => exact .inl rfl
  | some R =>
    rw [hR] at htake
    dsimp only
    split
    · exact .inl rfl
    · split
      · next hk =>
        obtain rfl := Option.some.inj (htake.symm.trans hk)
        split
        · exact .inr rfl
        · exact .inl rfl
      · exact .inl rfl

/-- A head whose take must wait stays, and the state with it. -/
theorem tfuExec_wait {s : State} {rid : Nat} {k : Take} {f : Take → TRes} (h : HeadOf s rid k) (hres : f k = .wait) :
    tfuExec s f = s := by
  obtain hnone | hserved := taking_of_headOf h
  · rw [tfuExec, hnone]
  · rw [tfuExec_of_served hserved, hres]
    rfl

section
variable {k : Take} {r : Rec} {tag : W64} {v : Nat} {c : Cause}

/-- An ENTER with D1 counts the contexts that it opens (R183). -/
theorem countedEntry_enter (r : Rec) : countedEntry 0x73 r = (r.d1 != noDest) := rfl

/-- What an ENTER sends on D0, under the new tag. -/
def enterSends (k : Take) (r : Rec) (tag : W64) : Sends := [(r.d0, { Claim.passed k.t with tag := tag })].filter fun p => p.1 != noDest

theorem enterRes_uncounted (hfit : k.t.oddPair = false) (hpush : pushField k.R.cfg.tw k.t.tag (r.aux.toNat % 64) 0 = .ok tag)
    (hd1 : r.d1 = noDest) : enterRes k r = .ok (enterSends k r tag) k.R := by
  rw [enterRes, whole_of_fit hfit, recWidth, hpush]
  simp only [countedEntry_enter, hd1, bne_self_eq_false, Bool.false_eq_true, if_false]
  rfl

section
variable (hfit : k.t.oddPair = false) (hpush : pushField k.R.cfg.tw k.t.tag (r.aux.toNat % 64) 0 = .ok tag) (hd1 : r.d1 ≠ noDest)
include hfit hpush hd1

theorem enterRes_counted {R : Region} (hbump : bumpCounter k.R k.u (soff 0x73 r) k.t.round true = some (.ok R)) :
    enterRes k r = .ok (enterSends k r tag) R := by
  rw [enterRes, whole_of_fit hfit, recWidth, hpush]
  simp only [countedEntry_enter, bne_iff_ne.mpr hd1, if_true, hbump]
  rfl

theorem enterRes_counted_error (hbump : bumpCounter k.R k.u (soff 0x73 r) k.t.round true = some (.error c)) :
    enterRes k r = .fault c := by
  rw [enterRes, whole_of_fit hfit, recWidth, hpush]
  simp only [countedEntry_enter, bne_iff_ne.mpr hd1, if_true, hbump]

theorem enterRes_counted_wait (hbump : bumpCounter k.R k.u (soff 0x73 r) k.t.round true = none) : enterRes k r = .wait := by
  rw [enterRes, whole_of_fit hfit, recWidth, hpush]
  simp only [countedEntry_enter, bne_iff_ne.mpr hd1, if_true, hbump]

end

theorem enterRes_error (hfit : k.t.oddPair = false) (hpush : pushField k.R.cfg.tw k.t.tag (r.aux.toNat % 64) 0 = .error c) :
    enterRes k r = .fault c := by
  rw [enterRes, whole_of_fit hfit, recWidth, hpush]

theorem callfRes_of_push (hfit : k.t.oddPair = false)
    (hpush : pushField k.R.cfg.tw k.t.tag (r.aux.toNat % 64) (r.lit.toNat * 1024 + k.t.frame.toNat) = .ok tag) :
    callfRes k r = .ok (Claim.toBoth r { Claim.passed k.t with tag := tag }) k.R := by
  rw [callfRes, whole_of_fit hfit, recWidth, show 2 ^ 10 = 1024 from rfl, hpush]
  rfl

theorem callfRes_error (hfit : k.t.oddPair = false)
    (hpush : pushField k.R.cfg.tw k.t.tag (r.aux.toNat % 64) (r.lit.toNat * 1024 + k.t.frame.toNat) = .error c) :
    callfRes k r = .fault c := by
  rw [callfRes, whole_of_fit hfit, recWidth, show 2 ^ 10 = 1024 from rfl, hpush]

theorem nextRes_of_step (hfit : k.t.oddPair = false) (hstep : nextTag k.R.cfg.tw k.t.tag (r.aux.toNat % 64) = .ok tag) :
    nextRes k r = .ok (Claim.toBoth r { Claim.passed k.t with tag := tag }) k.R := by
  rw [nextRes, whole_of_fit hfit, recWidth, hstep]
  rfl

theorem nextRes_error (hfit : k.t.oddPair = false) (hstep : nextTag k.R.cfg.tw k.t.tag (r.aux.toNat % 64) = .error c) :
    nextRes k r = .fault c := by
  rw [nextRes, whole_of_fit hfit, recWidth, hstep]

theorem leaveRes_of_pop (hfit : k.t.oddPair = false) (hport : k.t.port = 0#2)
    (hpop : popField k.R.cfg.tw k.t.tag (r.aux.toNat % 64) = .ok (tag, v)) :
    leaveRes k r = leaveWith k r (Claim.toBoth r { Claim.passed k.t with tag := tag }) := by
  rw [leaveRes, whole_of_fit hfit, if_neg (not_not.mpr hport), recWidth, hpop]
  rfl

theorem leaveRes_error (hfit : k.t.oddPair = false) (hport : k.t.port = 0#2)
    (hpop : popField k.R.cfg.tw k.t.tag (r.aux.toNat % 64) = .error c) : leaveRes k r = .fault c := by
  rw [leaveRes, whole_of_fit hfit, if_neg (not_not.mpr hport), recWidth, hpop]

theorem leaveRes_of_marker_port (hfit : k.t.oddPair = false) (hport : k.t.port ≠ 0#2) : leaveRes k r = .fault .packetLengthMismatch := by
  rw [leaveRes, whole_of_fit hfit, if_pos hport]

theorem retfRes_of_pop (hfit : k.t.oddPair = false) (hpop : popField k.R.cfg.tw k.t.tag (r.aux.toNat % 64) = .ok (tag, v)) :
    retfRes k r =
      let back := { Claim.passed k.t with tag := tag, frame := BitVec.ofNat 10 v }
      .ok ([(r.d0, back), (r.d1, Claim.oneWord back (v / 1024))].filter fun p => p.1 != noDest) k.R := by
  rw [retfRes, whole_of_fit hfit, recWidth, hpop]
  dsimp only
  rw [Nat.shiftRight_eq_div_pow]
  rfl

theorem retfRes_error (hfit : k.t.oddPair = false) (hpop : popField k.R.cfg.tw k.t.tag (r.aux.toNat % 64) = .error c) :
    retfRes k r = .fault c := by
  rw [retfRes, whole_of_fit hfit, recWidth, hpop]

end

/-- Settles O11: each record's tag operation, its counters, and its faults. -/
theorem contextRecordsComplete : Obligations.ContextRecordsComplete := by
  refine ⟨fun r s rid k tag v hserved hfit => ?_, fun r s rid k tag v U hfit hunit => ?_, fun r s rid k hserved hfit => ?_⟩
  · refine ⟨fun hd1 hd0 hpush hroom => ?_, fun hd hw hv htag hroom => ?_, fun hport hcount hpop hroom => ?_, fun hpush hroom => ?_,
      fun hpop hroom => ?_⟩
    · have hres : enterRes k r = .ok [(r.d0, { Claim.passed k.t with tag := tag })] k.R := by
        rw [enterRes_uncounted hfit hpush hd1]
        simp [enterSends, hd0]
      exact congrArg Host.Outcome.next (tfuExec_sent hserved hres hroom)
    · exact congrArg Host.Outcome.next (tfuExec_sent hserved (nextRes_of_step hfit (htag ▸ nextTag_ok hd hw hv)) hroom)
    · have hres := leaveRes_of_pop hfit hport hpop
      rw [leaveWith, hcount] at hres
      exact congrArg Host.Outcome.next (tfuExec_sent hserved hres hroom)
    · exact congrArg Host.Outcome.next (tfuExec_sent hserved (callfRes_of_push hfit hpush) hroom)
    · exact congrArg Host.Outcome.next (tfuExec_sent hserved (retfRes_of_pop hfit hpop) hroom)
  · refine ⟨fun hd1 hpush => ⟨fun hlate hnone => ?_, fun e hserved hentry => ⟨fun hlt hroom => ?_, fun hge => ?_⟩⟩,
      fun hport hcount hpop => ⟨fun hlate hnone => ?_, fun e hserved hentry => ⟨fun es R' hforward hlt hroom => ?_, fun hge => ?_⟩⟩⟩
    · exact congrArg Host.Outcome.next (tfuExec_wait hlate (enterRes_counted_wait hfit hpush hd1 (bumpCounter_none true hunit hnone)))
    · exact congrArg Host.Outcome.next
        (tfuExec_sent hserved (enterRes_counted hfit hpush hd1 (bumpCounter_of_lt true hunit hentry hlt)) hroom)
    · exact congrArg Host.Outcome.next
        (tfuExec_fault hserved (enterRes_counted_error hfit hpush hd1 (bumpCounter_roundCount true hunit hentry hge)))
    · have hres : leaveRes k r = .wait := by
        rw [leaveRes_of_pop hfit hport hpop]
        simp [leaveWith, hcount, bumpCounter_none false hunit hnone]
      exact congrArg Host.Outcome.next (tfuExec_wait hlate hres)
    · have hres := leaveRes_of_pop hfit hport hpop
      rw [leaveWith, hcount, if_pos rfl, bumpCounter_of_lt false hunit hentry hlt] at hres
      exact congrArg Host.Outcome.next (tfuExec_sent hserved (hres.trans (by simp only [Region.afterExit]; exact hforward ▸ rfl)) hroom)
    · have hres : leaveRes k r = .fault .roundCount := by
        rw [leaveRes_of_pop hfit hport hpop]
        simp [leaveWith, hcount, bumpCounter_roundCount false hunit hentry hge]
      exact congrArg Host.Outcome.next (tfuExec_fault hserved hres)
  · refine ⟨fun hw => ⟨?_, ?_⟩, fun hw hb => ⟨?_, ?_⟩, fun h => ⟨?_, ?_, fun hport => ?_⟩, fun hd hw hv => ?_, fun hport => ?_⟩
    · exact congrArg Host.Outcome.next (tfuExec_fault hserved (enterRes_error hfit (pushField_tagLayout _ hw)))
    · exact congrArg Host.Outcome.next (tfuExec_fault hserved (callfRes_error hfit (pushField_tagLayout _ hw)))
    · exact congrArg Host.Outcome.next (tfuExec_fault hserved (enterRes_error hfit (pushField_tagOverflow _ hw hb)))
    · exact congrArg Host.Outcome.next (tfuExec_fault hserved (callfRes_error hfit (pushField_tagOverflow _ hw hb)))
    · exact congrArg Host.Outcome.next (tfuExec_fault hserved (nextRes_error hfit (nextTag_tagLayout h)))
    · exact congrArg Host.Outcome.next (tfuExec_fault hserved (retfRes_error hfit (popField_tagLayout h)))
    · exact congrArg Host.Outcome.next (tfuExec_fault hserved (leaveRes_error hfit hport (popField_tagLayout h)))
    · exact congrArg Host.Outcome.next (tfuExec_fault hserved (nextRes_error hfit (nextTag_tagOverflow hd hw hv)))
    · exact congrArg Host.Outcome.next (tfuExec_fault hserved (leaveRes_of_marker_port hfit hport))

end Sys2Proof
end

section
/-! SUPPORT. Frames (R178 to R180), rounds and streams (R185, R195 to R198), constants and tags (R199, R200), and the tag-ordered
reduction (R201) at the Tag and Frame Unit. -/

namespace Sys2Proof
open Machine

/-! ### Frames -/

/-- A frame granted is free, and no lower one that the depth may take first is (R179). -/
theorem freeFrame_spec {c : Config} {alloc : List Nat} {d f : Nat} (h : freeFrame c alloc d = some f) :
    f ∉ alloc ∧ (∀ g, g < c.common → g < f → g ∈ alloc)
      ∧ (f < c.common ∨ (reserveBase c d ≤ f ∧ f < reserveBase c d + nth 0 c.reserve d ∧ (∀ g, g < c.common → g ∈ alloc)
        ∧ ∀ g, reserveBase c d ≤ g → g < f → g ∈ alloc)) := by
  rw [freeFrame] at h
  split at h
  next f' hcommon =>
    cases h
    obtain ⟨hfree, hlt, hlow⟩ := List.find?_range_eq_some.mp hcommon
    exact ⟨by simpa using hfree, fun g _ hg => by simpa using hlow g hg, .inl (List.mem_range.mp hlt)⟩
  next hcommon =>
    have hall (g : Nat) (hg : g < c.common) : g ∈ alloc := by
      simpa using List.find?_eq_none.mp hcommon g (List.mem_range.mpr hg)
    rw [List.find?_map] at h
    obtain ⟨j, hj, rfl⟩ := Option.map_eq_some_iff.mp h
    obtain ⟨hfree, hlt, hlow⟩ := List.find?_range_eq_some.mp hj
    have := List.mem_range.mp hlt
    refine ⟨by simpa using hfree, fun g hg _ => hall g hg, .inr ⟨by omega, by omega, hall, fun g hbase hg => ?_⟩⟩
    have := hlow (g - reserveBase c d) (by omega)
    simpa [Nat.sub_add_cancel hbase] using this

theorem modFirst_congr {α : Type} {p : α → Bool} {f g : α → α} {l : List α} (h : ∀ a, l.find? p = some a → f a = g a) :
    modFirst p f l = modFirst p g l := by
  induction l with
  | nil => rfl
  | cons a t ih =>
    rw [modFirst, modFirst]
    cases ha : p a
    · simp only [ha, List.find?_cons, Bool.false_eq_true, if_false] at h ⊢
      rw [ih h]
    · simp only [if_true]
      rw [h a (by simp [ha])]

theorem modUnit_congr {R : Region} {u : UnitId} {f g : Site → Site} (h : ∀ U, R.unit? u = some U → f U = g U) :
    R.modUnit u f = R.modUnit u g := by
  rw [Region.modUnit, Region.modUnit, modFirst_congr h]

/-- A change of an MU is told by what it makes of the MU that stands there. -/
theorem modMu_congr {R : Region} {page : Nat} {f g : Mu → Mu} (h : ∀ m, R.mu? page = some m → f m = g m) :
    R.modMu page f = R.modMu page g := by
  refine modUnit_congr fun U hU => ?_
  split
  · next m hm => rw [h m (by simp [Region.mu?, hU, hm])]
  · rfl

theorem modPool_congr {R : Region} {f g : Pool → Pool} (h : f R.pool = g R.pool) : R.modPool f = R.modPool g := by
  refine modMu_congr fun m hm => ?_
  rw [Region.pool, hm] at h
  rw [h]

/-- FALLOC with no older request takes the lowest free frame (R179, R194). -/
theorem fallocRes_of_free {k : Take} {r : Rec} {f : Nat} (hfit : k.t.oddPair = false) (hroom : k.R.poolRoom = true)
    (hgranted : k.R.pool.granted = []) (hwaiting : k.R.pool.waiting = [])
    (hfree : freeFrame k.R.cfg k.R.pool.alloc (depth k.R.cfg.tw k.t.tag) = some f) :
    fallocRes k r = .ok (Claim.toBoth r { Claim.passed k.t with frame := BitVec.ofNat 10 f })
      ((k.R.modPool fun p => { p with alloc := setAdd p.alloc f }).logFrame k.t.round f false) := by
  rw [fallocRes, whole_of_fit hfit]
  simp only [hroom, hgranted, hwaiting, hfree, List.find?_nil, List.any_nil]
  rfl

theorem ffreeRes_of_held {k : Take} {r : Rec} (hfit : k.t.oddPair = false) (hroom : k.R.poolRoom = true)
    (hheld : k.R.pool.alloc.contains k.t.frame.toNat = true)
    (hclass : (frameClass k.R.cfg.common k.R.cfg.reserve k.t.frame.toNat 0).isSome = true) :
    ffreeRes k r = .ok (Claim.toBoth r (Claim.passed k.t))
      ((k.R.modPool fun p => { p with alloc := setDel p.alloc k.t.frame.toNat }).logFrame k.t.round k.t.frame.toNat true) := by
  rw [ffreeRes, whole_of_fit hfit]
  simp only [hroom, hheld, Option.isNone_eq_false_iff.mpr hclass]
  rfl

/-- Settles O13: FALLOC, FFREE and the grant all choose by `freeFrame`. -/
theorem frameRecordsComplete : Obligations.FrameRecordsComplete := by
  refine ⟨fun r s rid k hserved hfit hpool => ⟨fun f hgranted hwaiting hfree => ?_, ?_⟩, fun s rid f R u q d ws hR hlive hwaiting hfree => ?_,
    fun c alloc d f => freeFrame_spec⟩
  · intro R es hroom
    rw [exec_falloc_of_served hserved]
    exact congrArg Host.Outcome.next (tfuExec_sent hserved (fallocRes_of_free hfit hpool hgranted hwaiting hfree) hroom)
  · intro f R hheld hclass hroom
    exact congrArg Host.Outcome.next (tfuExec_sent hserved (ffreeRes_of_held hfit hpool hheld hclass) hroom)
  · show execFallocGrant rid s = _
    simp only [execFallocGrant, hR, hlive, hwaiting, List.findSome?_cons, hfree, Option.map_some]
    refine congrArg (fun R => Host.Outcome.next (s.putRegion R)) (modPool_congr ?_)
    simp [delFirst, hwaiting]

/-! ### Rounds and streams -/

/-- The unit that a name finds bears it. -/
theorem unit?_id {R : Region} {u : UnitId} {U : Site} (h : R.unit? u = some U) : U.id = u := by
  have := List.find?_some h
  simpa using this

theorem roundsOf_eq (r : Rec) : roundsOf r = r.lit.toNat / 65536 := by
  have := r.lit.isLt
  rw [roundsOf, bits, Nat.shiftRight_eq_div_pow]
  exact Nat.mod_eq_of_lt (by omega)

theorem perRound_eq (r : Rec) : perRound r = r.lit.toNat % 65536 := rfl

/-- Settles O15: R35 serves the SOURCE, and what it emits is the first case of R195 that holds. -/
theorem sourceEmits : Obligations.SourceEmits := by
  intro r s rid w u R U p hwho hR hlive hreleased hunit hpos hsource hbad hchoice hp heos np rounds duty bubble next out hsend
  have hemit : sourceEmit (s.dutyOf R) r p = some out := by
    simp only [sourceEmit, heos, roundsOf_eq, perRound_eq, out, bubble, next, rounds, np, duty, Bool.false_eq_true, if_false,
      decide_eq_true_eq, Bool.and_eq_true, ge_iff_le]
    split
    · rfl
    · split
      · rfl
      · split <;> rfl
  have hnext : s.sourceNext R U = some (w, r, out.1, out.2) := by
    have hpos' : ¬ U.id.pos > 2 := by rw [unit?_id hunit]; omega
    simp only [State.sourceNext, hreleased, hpos', hsource, ← hp, hemit]
    exact if_pos hsend
  show execSource r s = _
  simp only [execSource, hwho, hR, hunit, hlive, hchoice, hsource, hnext, Option.any_some, hbad]
  rfl

/-- Settles O16: MARK numbers and closes rounds, HOLD keeps its first value, EOS and SINK end a stream. -/
theorem roundRecordsComplete : Obligations.RoundRecordsComplete := by
  intro r s rid k m hserved hfit
  refine ⟨fun hmu hundo hitem => ?_, fun hempty => ?_, fun hroom => ?_, fun herr hsink => ?_⟩
  · intro i p np t last p1 p' es R hroom
    have hres : markRes k r = .ok es R := by
      rw [markRes, whole_of_fit hfit]
      simp only [hmu, hundo, hitem]
      rfl
    exact congrArg Host.Outcome.next (tfuExec_sent hserved hres hroom)
  · intro R hroom
    have hres : holdRes k r = .ok [] R := by
      rw [holdRes, whole_of_fit hfit]
      simp only [hempty]
      rfl
    exact congrArg Host.Outcome.next (tfuExec_sent hserved hres hroom)
  · exact congrArg Host.Outcome.next (tfuExec_sent hserved (whole_of_fit hfit _) hroom)
  · obtain ⟨U, hunit, hsend⟩ := hsink
    have hres : sinkRes k r = .ok [] (if k.t.exc then { k.R with heldLog := k.R.heldLog ++
        [{ tag := k.t.tag, node := k.t.node, round := k.t.round, page := k.u.page, pos := k.u.pos, seq := k.t.seq }] } else k.R) := by
      rw [sinkRes, whole_of_fit hfit, herr]
      cases k.t.exc <;> rfl
    refine congrArg Host.Outcome.next (tfuExec_sent hserved hres ⟨U, ?_, hsend⟩)
    split <;> exact hunit

/-! ### Constants and tags -/

/-- The new innermost field of TAGSET fits its width (R200). -/
theorem tagsetTag_field {tw : List Nat} {r : Rec} {t : W64} {b : Operand} (hm : r.m = false) (hlen : b.len = 0)
    (hd : depth tw t ≠ 0) (hv : (nth 0#32 b.tok.e 0).toNat < 2 ^ twAt tw (depth tw t - 1)) :
    tagsetTag tw r t b = .ok (setInner tw t (nth 0#32 b.tok.e 0).toNat) := by
  simp [tagsetTag, hm, hlen, hd, hv]

/-- Settles O17: the packet of CONST, the tag's words of TAGGET, the new tag of TAGSET. -/
theorem constantAndTagRecordsComplete : Obligations.ConstantAndTagRecordsComplete := by
  intro r s rid k ops R hserved
  refine ⟨?_, ?_, ?_, ?_⟩
  · intro len w e err es hfit hroom
    have hres : constRes k r = .ok es k.R := by
      rw [constRes, whole_of_fit hfit, bits_14_12]
      rfl
    exact congrArg Host.Outcome.next (tfuExec_sent hserved hres hroom)
  · intro es hfit hroom
    exact congrArg Host.Outcome.next (tfuExec_sent hserved (whole_of_fit hfit _) hroom)
  · intro e es hfit hroom
    have htag : (k.t.tag >>> 32).truncate 32 = k.t.tag.extractLsb' 32 32 := rfl
    have hlow : k.t.tag.truncate 32 = k.t.tag.extractLsb' 0 32 := BitVec.eq_of_toNat_eq (by simp)
    have hres : taggetTagRes k r = .ok es k.R := by
      rw [taggetTagRes, whole_of_fit hfit, htag, hlow]
      rfl
    exact congrArg Host.Outcome.next (tfuExec_sent hserved hres hroom)
  · intro hfires hm hlen hfit a v tw hd hv es hroom
    have hres : tagsetRes k r = .ok es R := by
      refine sendFiring_of_fires hfires ?_
      have htag : tagsetTag k.R.cfg.tw r (opAt ops 0).tok.tag (opAt ops 1) = .ok (setInner tw a.tag v) := tagsetTag_field hm hlen hd hv
      simp only [hfit, Bool.false_eq_true, if_false, htag]
      rfl
    exact congrArg Host.Outcome.next (tfuExec_sent hserved hres hroom)

/-! ### The tag-ordered reduction -/

/-- Where the bank of NEXT is empty there is nothing to consume (R201). -/
theorem drainBanks_of_empty {tw : List Nat} {r : Rec} {base banks fuel : Nat} {slots : SMap Slot} {a : Accum}
    (h : mapGet slots (base + a.next % banks) = none) : drainBanks tw r base banks fuel slots a = some (slots, a) := by
  cases fuel with
  | zero => rfl
  | succ n => simp [drainBanks, h]

/-- The first value of a context is read in the record's format (R100 to R102, R201). -/
theorem consume_first {a : Accum} {r : Rec} {t : Token} (hact : t.act = .normal) (hfit : t.oddPair = false)
    (hpair : r.fmt.pair = true → t.len.toNat % 2 = 1) (hsum : a.sum = none) :
    a.consume r t = some { a with sum := some (t.len, r.fmt.pack ((List.range (r.fmt.nv t.len.toNat)).map fun j =>
      r.fmt.read ((recSub r).testBit 3) (r.fmt.get t.e j))), next := a.next + 1, exc := a.exc || t.exc, err := a.err || t.err } := by
  have hguard : (t.oddPair || (r.fmt.pair && decide (t.len.toNat % 2 = 0))) = false := by
    cases hp : r.fmt.pair
    · simp [hfit]
    · simp [hfit, hpair hp]
  simp only [Accum.consume, hact, hguard, hsum]
  rfl

/-! The graph of a region lies in its records and switches, and not in its slots. -/

/-- A region without what its slots hold. -/
def withoutSlots (R : Region) : Region := { R with units := R.units.map fun U => { U with slots := [] } }

theorem withoutSlots_unit? (R : Region) (u : UnitId) : (withoutSlots R).unit? u = (R.unit? u).map fun U => { U with slots := [] } :=
  List.find?_map ..

theorem withoutSlots_islandAt (R : Region) (page pos : Nat) : (withoutSlots R).islandAt page pos = R.islandAt page pos := by
  simp only [Region.islandAt, withoutSlots, List.find?_map, Option.map_map]
  rfl

theorem withoutSlots_endsFrom (R : Region) (fuel page pos inp cin : Nat) :
    (withoutSlots R).endsFrom fuel page pos inp cin = R.endsFrom fuel page pos inp cin := by
  induction fuel generalizing page pos inp cin with
  | zero => rfl
  | succ n ih =>
    have hentry : ((withoutSlots R).unit? ⟨page, pos⟩).bind (·.entry? inp cin) = (R.unit? ⟨page, pos⟩).bind (·.entry? inp cin) := by
      rw [withoutSlots_unit?, Option.bind_map]
      rfl
    have hnext (d : Nat) : (withoutSlots R).neighbour page pos d = R.neighbour page pos d := rfl
    simp only [Region.endsFrom, hentry, withoutSlots_islandAt, hnext, ih]

theorem withoutSlots_endVia (R : Region) (fuel : Nat) (e : End) : (withoutSlots R).endVia fuel e = R.endVia fuel e := by
  induction fuel generalizing e with
  | zero => rfl
  | succ n ih =>
    have hcap (page pos i : Nat) : (withoutSlots R).gateCap page pos i = R.gateCap page pos i := by
      simp only [Region.gateCap, withoutSlots_unit?, Option.map_map]
      rfl
    have hends (x : Nat) : (withoutSlots R).ingressEnds x = R.ingressEnds x := withoutSlots_endsFrom ..
    cases e <;> simp only [Region.endVia, hcap, hends, ih]
    rfl

theorem withoutSlots_edges (R : Region) : (withoutSlots R).edges = R.edges := by
  have hends (U : Site) (route : Nat) : (withoutSlots R).ends { U with slots := [] } route = R.ends U route := withoutSlots_endsFrom ..
  have hof (U : Site) : (withoutSlots R).edgesOf { U with slots := [] } = R.edgesOf U := by
    funext w
    simp only [Region.edgesOf, hends, withoutSlots_endVia]
    rfl
  simp only [Region.edges, withoutSlots, List.flatMap_map]
  refine List.flatMap_congr fun U _ => ?_
  exact congrArg (fun f => U.recWords.flatMap f) (hof U)

theorem map_modFirst {α β : Type} {p : α → Bool} {f : α → α} {g : α → β} (hf : ∀ a, g (f a) = g a) (l : List α) :
    (modFirst p f l).map g = l.map g := by
  induction l with
  | nil => rfl
  | cons a t ih =>
    rw [modFirst]
    split <;> simp [hf, ih]

theorem setSlots_edges (R : Region) (u : UnitId) (slots : SMap Slot) : (R.setSlots u slots).edges = R.edges := by
  have h : withoutSlots (R.setSlots u slots) = withoutSlots R := by
    have hunits : (R.setSlots u slots).units.map (fun U => { U with slots := [] }) = R.units.map fun U => { U with slots := [] } :=
      map_modFirst (f := fun U => { U with slots := slots }) (fun _ => rfl) R.units
    rw [withoutSlots, withoutSlots, hunits]
    rfl
  rw [← withoutSlots_edges, h, withoutSlots_edges]

theorem setSlots_countedExit (R : Region) (u : UnitId) (slots : SMap Slot) (v : UnitId) (node op : Nat) :
    (R.setSlots u slots).countedExit v node op = R.countedExit v node op := by
  rw [Region.countedExit, setSlots_edges, ← Region.countedExit]

section
variable {k : Take} {r : Rec} {outer : W64} {i : Nat}

/-- The slot of bank 0 of a context at OREDUCE (R201); its accumulator lies in the slot before. -/
def bank0 (k : Take) (r : Rec) : Nat := k.t.frame.toNat * k.U.stride + r.aux.toNat % 256

/-- The banks of a context at OREDUCE. -/
def bankCount (r : Rec) : Nat := r.aux.toNat / 4096 % 8 + 1

/-- A value that comes before its turn opens its context and waits in its bank. -/
theorem oreduceRes_parked (hport : k.t.port = 0#2) (hact : k.t.act = .normal) (hfit : k.t.oddPair = false)
    (hpop : popField k.R.cfg.tw k.t.tag (r.lit.toNat % 64) = .ok (outer, i)) (hopen : mapGet k.U.slots (bank0 k r - 1) = none)
    (hi : 0 < i) (hbank : mapGet k.U.slots (bank0 k r + i % bankCount r) = none) :
    oreduceRes k r = .ok [] (k.R.setSlots k.u (mapPut (mapPut k.U.slots (bank0 k r - 1) (.accum (freshAccum k r outer)))
      (bank0 k r + i % bankCount r) (.operand false k.t))) := by
  unfold bank0 bankCount at *
  simp only [oreduceRes, hport, hpop, hopen, bits_14_12]
  simp [hact, hfit, hi, hbank, freshAccum]

/-- The first value of a context opens it, and is its sum. -/
theorem oreduceRes_first (hport : k.t.port = 0#2) (hact : k.t.act = .normal) (hfit : k.t.oddPair = false)
    (hpop : popField k.R.cfg.tw k.t.tag (r.lit.toNat % 64) = .ok (outer, 0)) (hopen : mapGet k.U.slots (bank0 k r - 1) = none)
    (hpair : r.fmt.pair = true → k.t.len.toNat % 2 = 1) (hbank : mapGet k.U.slots (bank0 k r + 1 % bankCount r) = none) :
    oreduceRes k r = .ok [] (k.R.setSlots k.u (mapPut k.U.slots (bank0 k r - 1) (.accum { freshAccum k r outer with
      next := 1, exc := k.t.exc, err := k.t.err,
      sum := some (k.t.len, r.fmt.pack ((List.range (r.fmt.nv k.t.len.toNat)).map fun j =>
        r.fmt.read ((recSub r).testBit 3) (r.fmt.get k.t.e j))) }))) := by
  unfold bank0 bankCount at *
  simp only [oreduceRes, hport, hpop, hopen, bits_14_12, consume_first hact hfit hpair]
  simp [drainBanks_of_empty, hbank, freshAccum]

/-- The end token of a context whose values have all come closes it. -/
theorem oreduceRes_end {a : Accum} {len : BitVec 3} {e : List W32} (hport : k.t.port = 1#2) (hact : k.t.act = .normal)
    (hpop : popField k.R.cfg.tw k.t.tag (r.lit.toNat % 64) = .ok (outer, i))
    (hopen : mapGet k.U.slots (bank0 k r - 1) = some (.accum a)) (htag : a.tag = outer) (hk : a.k = none) (hnext : a.next = i)
    (hsum : a.sum = some (len, e)) (hbank : mapGet k.U.slots (bank0 k r + i % bankCount r) = none)
    (hcount : k.R.countedExit k.u k.node 0x85 = false) :
    oreduceRes k r = .ok (Claim.toBoth r { emptyToken with tag := outer, frame := k.t.frame, round := a.round, seq := k.t.seq, fmt := r.fmt, len := len, e := e, exc := a.exc || k.t.exc, err := a.err || k.t.err })
      (k.R.setSlots k.u (mapDel k.U.slots (bank0 k r - 1))) := by
  subst hnext
  unfold bank0 bankCount at *
  simp only [oreduceRes, hport, hpop, hopen, bits_14_12, htag, hk, if_true]
  simp [drainBanks_of_empty, hbank, hact, hsum, setSlots_countedExit, hcount, sendsOf_eq_toBoth]

end

/-- Settles O18: a value opens its context and is summed or parked, and the end token of a full context closes it. -/
theorem oreduceCompletes : Obligations.OreduceCompletes := by
  refine ⟨fun r s rid k outer i hserved hport hact hfit hpop => ?_, fun r s rid k a outer n len e hserved hport hact hpop => ?_⟩
  · intro base banks fresh hopen
    refine ⟨fun hi hbank => ?_, fun hi hpair hbank => ?_⟩
    · intro R hroom
      exact congrArg Host.Outcome.next (tfuExec_sent hserved (oreduceRes_parked hport hact hfit hpop hopen hi hbank) hroom)
    · subst hi
      intro vs R hroom
      exact congrArg Host.Outcome.next (tfuExec_sent hserved (oreduceRes_first hport hact hfit hpop hopen hpair hbank) hroom)
  · intro base banks hopen htag hk hnext hsum hbank hcount out R hroom
    exact congrArg Host.Outcome.next
      (tfuExec_sent hserved (oreduceRes_end hport hact hpop hopen htag hk hnext hsum hbank hcount) hroom)

end Sys2Proof
end

section
/-! SUPPORT. Tags (R67 to R69): the fields of a tag, pushing and popping one, and the order of two tags. -/

namespace Sys2Proof
open Machine

/-! ### Depth -/

/-- The lowest bit of field `d` (R67). -/
def fieldBase (tw : List Nat) (d : Nat) : Nat := (tw.take d).sum

@[simp] theorem fieldBase_zero (tw : List Nat) : fieldBase tw 0 = 0 := rfl

theorem fieldBase_succ (tw : List Nat) (d : Nat) : fieldBase tw (d + 1) = fieldBase tw d + twAt tw d := by
  simp only [fieldBase, twAt, nth]
  by_cases h : d < tw.length
  · rw [List.sum_take_succ _ _ h, List.getD_eq_getElem _ _ h]
  · rw [List.take_of_length_le (by omega), List.take_of_length_le (by omega), List.getD_eq_default _ _ (by omega), Nat.add_zero]

/-- Counting fields from depth `m` stops at the one that ends at TOP. -/
theorem depthFrom_fieldBase {tw : List Nat} {top d fuel m : Nat} (hbelow : ∀ j, j < d → fieldBase tw j < top) (htop : fieldBase tw d = top)
    (hm : m ≤ d) (hfuel : d ≤ m + fuel) : depthFrom tw top fuel m (fieldBase tw m) = d := by
  induction fuel generalizing m with
  | zero => exact Nat.le_antisymm hm hfuel
  | succ n ih =>
    rw [depthFrom]
    split
    next hlt =>
      rw [← fieldBase_succ]
      refine ih (Nat.lt_of_le_of_ne hm fun h => ?_) (by omega)
      rw [h, htop] at hlt
      exact Nat.lt_irrefl _ hlt
    next hge => exact Nat.le_antisymm hm (Nat.not_lt.mp fun h => hge (hbelow m h))

theorem fieldBase_lt_of_pos {tw : List Nat} {d j : Nat} (hpos : ∀ i, i < d → 1 ≤ twAt tw i) (hj : j < d) : fieldBase tw j < fieldBase tw d := by
  induction d with
  | zero => omega
  | succ d ih =>
    rw [fieldBase_succ]
    have := hpos d (by omega)
    obtain rfl | hlt := Nat.eq_or_lt_of_le (Nat.le_of_lt_succ hj)
    · omega
    · have := ih (fun i hi => hpos i (by omega)) hlt
      omega

/-- A tag whose TOP is the end of field `d - 1`, no width below being 0, has depth `d` (R68). -/
theorem depth_eq_of_top {tw : List Nat} {t : W64} {d : Nat} (hd : d ≤ 59) (htop : tagTop t = fieldBase tw d)
    (hpos : ∀ i, i < d → 1 ≤ twAt tw i) : depth tw t = d :=
  depthFrom_fieldBase (fun j hj => by rw [htop]; exact fieldBase_lt_of_pos hpos hj) htop.symm (Nat.zero_le d) (by omega)

/-! ### The number of a tag: what lies below its innermost field, that field, and TOP -/

section
variable {b w low v top : Nat}

theorem pow_58_eq (h : b + w ≤ 58) : 2 ^ 58 = 2 ^ b * (2 ^ w * 2 ^ (58 - b - w)) := by
  rw [← Nat.pow_add, ← Nat.pow_add]
  congr 1
  omega

theorem field_lt (hlow : low < 2 ^ b) (hv : v < 2 ^ w) (h : b + w ≤ 58) : low + v * 2 ^ b < 2 ^ 58 := by
  have h1 : (v + 1) * 2 ^ b ≤ 2 ^ w * 2 ^ b := Nat.mul_le_mul_right _ hv
  have h2 : 2 ^ w * 2 ^ b ≤ 2 ^ 58 := by rw [← Nat.pow_add]; exact Nat.pow_le_pow_right (by omega) (by omega)
  rw [Nat.add_mul, Nat.one_mul] at h1
  omega

theorem bits_field (hw : 1 ≤ w) (hlow : low < 2 ^ b) (hv : v < 2 ^ w) (h : b + w ≤ 58) :
    bits (low + v * 2 ^ b + top * 2 ^ 58) (b + w - 1) b = v := by
  rw [bits, Nat.shiftRight_eq_div_pow, show b + w - 1 + 1 - b = w by omega, pow_58_eq h,
    show low + v * 2 ^ b + top * (2 ^ b * (2 ^ w * 2 ^ (58 - b - w))) = low + 2 ^ b * (v + 2 ^ w * (top * 2 ^ (58 - b - w))) by ring,
    Nat.add_mul_div_left _ _ (Nat.two_pow_pos b), Nat.div_eq_of_lt hlow, Nat.zero_add, Nat.add_mul_mod_self_left, Nat.mod_eq_of_lt hv]

theorem setField_of_field {t : W64} {x : Nat} (ht : t.toNat = low + v * 2 ^ b + top * 2 ^ 58) (hw : 1 ≤ w) (hlow : low < 2 ^ b)
    (hv : v < 2 ^ w) (h : b + w ≤ 58) (htop : top < 64) : (setField t b w x).toNat = low + x % 2 ^ w * 2 ^ b + top * 2 ^ 58 := by
  have hlt := field_lt hlow (Nat.mod_lt x (Nat.two_pow_pos w)) h
  rw [setField, BitVec.toNat_ofNat, ht, bits_field hw hlow hv h]
  have : low + v * 2 ^ b + top * 2 ^ 58 - v * 2 ^ b = low + top * 2 ^ 58 := by omega
  rw [this, Nat.mod_eq_of_lt] <;> omega

theorem setTop_of_field {t : W64} {m x : Nat} (ht : t.toNat = m + top * 2 ^ 58) (hm : m < 2 ^ 58) (hx : x < 64) :
    (setTop t x).toNat = m + x * 2 ^ 58 := by
  rw [setTop, BitVec.toNat_ofNat, ht, Nat.add_mul_mod_self_right, Nat.mod_eq_of_lt hm, Nat.mod_eq_of_lt]
  omega

theorem tagTop_of_field {t : W64} {m : Nat} (ht : t.toNat = m + top * 2 ^ 58) (hm : m < 2 ^ 58) : tagTop t = top := by
  rw [tagTop, Nat.shiftRight_eq_div_pow, ht, Nat.add_mul_div_right _ _ (Nat.two_pow_pos 58), Nat.div_eq_of_lt hm, Nat.zero_add]

end

/-- Settles O10: the push writes the bits that were zero above the tag's fields, and the pop takes out the same bits. -/
theorem popUndoesPush : Obligations.PopUndoesPush := by
  rintro tw t t' w v - hw - hlow ⟨d, hd, hbase, hpos⟩ hpush
  have hdepth : depth tw t = d := depth_eq_of_top (by omega) hbase.symm hpos
  obtain ⟨hwidth, hfit, rfl⟩ : twAt tw d = w ∧ tagTop t + w ≤ 58 ∧ setTop (setField t (tagTop t) w v) (tagTop t + w) = t' := by
    simp only [pushField, hdepth, ne_eq, ite_not] at hpush
    split at hpush
    · next h1 =>
      split at hpush
      · exact absurd hpush nofun
      · next h2 => exact ⟨h1, by omega, Except.ok.inj hpush⟩
    · exact absurd hpush nofun
  have htop : tagTop t = t.toNat / 2 ^ 58 := Nat.shiftRight_eq_div_pow ..
  have hb : fieldBase tw d = tagTop t := hbase
  generalize tagTop t = b at *
  have ht : t.toNat = t.toNat % 2 ^ 58 + 0 * 2 ^ b + b * 2 ^ 58 := by omega
  have hV : v % 2 ^ w < 2 ^ w := Nat.mod_lt v (Nat.two_pow_pos w)
  have hbelow := field_lt hlow hV hfit
  have hpushed := setTop_of_field (setField_of_field (x := v) ht hw hlow (Nat.two_pow_pos w) hfit (by omega)) hbelow (show b + w < 64 by omega)
  generalize setTop (setField t b w v) (b + w) = t' at *
  have htop' : tagTop t' = b + w := tagTop_of_field hpushed hbelow
  have hdepth' : depth tw t' = d + 1 := by
    refine depth_eq_of_top (by omega) (by rw [htop', fieldBase_succ, hb, hwidth]) fun i hi => ?_
    obtain rfl | hlt := Nat.eq_or_lt_of_le (Nat.le_of_lt_succ hi)
    · omega
    · exact hpos i hlt
  have hfield : bits t'.toNat (b + w - 1) b = v % 2 ^ w := by rw [hpushed]; exact bits_field hw hlow hV hfit
  have hcleared := setTop_of_field (setField_of_field (x := 0) hpushed hw hlow hV hfit (by omega))
    (field_lt hlow (Nat.mod_lt 0 (Nat.two_pow_pos w)) hfit) (show b < 64 by omega)
  have hpopped : setTop (setField t' b w 0) b = t := BitVec.eq_of_toNat_eq (by rw [hcleared, Nat.zero_mod]; exact ht.symm)
  refine ⟨?_, ?_, by rw [hdepth', hdepth]⟩
  · simp [popField, hdepth', htop', hwidth, hpopped, hfield]
  · rw [Machine.inner, htop', if_neg (by omega), hdepth', Nat.add_sub_cancel]
    dsimp only
    rw [hwidth, Nat.add_sub_cancel, hfield]

/-! ### The order of tags (R69) -/

/-- The field of a tag at a depth. -/
def tagField (tw : List Nat) (t : W64) (d : Nat) : Nat := bits t.toNat (fieldBase tw d + twAt tw d - 1) (fieldBase tw d)

theorem tagLtFrom_succ (tw : List Nat) (a b : W64) (n d : Nat) :
    tagLtFrom tw a b (n + 1) d (fieldBase tw d) =
      if tagField tw a d ≠ tagField tw b d then some (decide (tagField tw a d < tagField tw b d))
      else tagLtFrom tw a b n (d + 1) (fieldBase tw (d + 1)) := by
  rw [fieldBase_succ]
  rfl

/-- Where the common fields from depth `d` on are walked, the outcome is the order of the lists of fields. -/
theorem tagLtFrom_eq (tw : List Nat) (a b : W64) (m n d : Nat) :
    (tagLtFrom tw a b (min m n) d (fieldBase tw d)).getD (decide (m < n)) =
    decide ((List.range' d m).map (tagField tw a) < (List.range' d n).map (tagField tw b)) := by
  induction m generalizing n d with
  | zero =>
    cases n with
    | zero => rfl
    | succ n => simp [tagLtFrom, List.range'_succ]
  | succ m ih =>
    cases n with
    | zero => simp [tagLtFrom]
    | succ n =>
      rw [Nat.succ_min_succ, tagLtFrom_succ]
      simp only [List.range'_succ, List.map_cons, List.cons_lt_cons_iff]
      by_cases h : tagField tw a d = tagField tw b d
      · simp [h, ← ih n (d + 1)]
      · simp [h]

theorem tagFields_eq (tw : List Nat) (t : W64) : Claim.tagFields tw t = (List.range' 0 (depth tw t)).map (tagField tw t) := by
  rw [← List.range_eq_range']
  rfl

theorem tagLt_eq (tw : List Nat) (a b : W64) : tagLt tw a b = decide (Claim.tagFields tw a < Claim.tagFields tw b) := by
  rw [tagFields_eq, tagFields_eq, ← tagLtFrom_eq, tagLt]
  dsimp only [fieldBase_zero]
  cases tagLtFrom tw a b (min (depth tw a) (depth tw b)) 0 0 <;> rfl

/-- Settles O12: tag_lt decides the order of the lists of fields. -/
theorem tagOrderIsByFields : Obligations.TagOrderIsByFields := by
  refine ⟨fun tw a b => ?_, fun tw a b h => ?_, by decide, by decide, by decide, by decide⟩
  · rw [tagLt_eq, decide_eq_true_iff]
  · rw [tagLt_eq, decide_eq_true_iff] at h
    rw [tagLt_eq, decide_eq_false_iff_not]
    exact lt_asymm h

end Sys2Proof
end

section
/-! SUPPORT. Looking up what an update has changed: regions, units and harts; memory under its keys (O50, O52); the freezing fault (O55). -/

namespace Sys2Proof
open Machine

/-! ### Lists with one entry changed -/

/-- The first entry that meets `p`, changed by what keeps `p`, is still the first. -/
theorem find?_modFirst_self {α : Type} (p : α → Bool) (f : α → α) (hf : ∀ a, p a = true → p (f a) = true) (l : List α) :
    (modFirst p f l).find? p = (l.find? p).map f := by
  induction l with
  | nil => rfl
  | cons a t ih =>
    by_cases h : p a = true
    · simp [modFirst, h, hf a h]
    · simp [modFirst, h, ih]

/-- A search for what the changed entry is not finds what it found. -/
theorem find?_modFirst_other {α : Type} (p q : α → Bool) (f : α → α) (hq : ∀ a, p a = true → q a = false ∧ q (f a) = false) (l : List α) :
    (modFirst p f l).find? q = l.find? q := by
  induction l with
  | nil => rfl
  | cons a t ih =>
    by_cases h : p a = true
    · simp [modFirst, h, hq a h]
    · simp [modFirst, h, List.find?_cons, ih]

theorem region?_modRegion_self (s : State) (rid : Nat) (f : Region → Region) (hf : ∀ R, R.rid = rid → (f R).rid = rid) :
    (s.modRegion rid f).region? rid = (s.region? rid).map f :=
  find?_modFirst_self _ f (fun R h => by simpa using hf R (by simpa using h)) _

theorem region?_modRegion_ne (s : State) {rid q : Nat} (f : Region → Region) (hf : ∀ R, R.rid = rid → (f R).rid = rid) (hq : q ≠ rid) :
    (s.modRegion rid f).region? q = s.region? q :=
  find?_modFirst_other _ _ f (fun R h => by
    have hR : R.rid = rid := by simpa using h
    simp [hR, hf R hR, Ne.symm hq]) _

theorem region?_putRegion_self {s : State} {R Q : Region} (hR : s.region? R.rid = some Q) : (s.putRegion R).region? R.rid = some R := by
  rw [State.putRegion, region?_modRegion_self s R.rid _ fun _ _ => rfl, hR, Option.map_some]

theorem getElem?_modNth {α : Type} (f : α → α) (l : List α) (i j : Nat) :
    (modNth l i f)[j]? = if j = i then l[j]?.map f else l[j]? := by
  induction l generalizing i j with
  | nil => simp [modNth]
  | cons a t ih => cases i <;> cases j <;> simp [modNth, ih]

@[simp] theorem length_modNth {α : Type} (f : α → α) (l : List α) (i : Nat) : (modNth l i f).length = l.length := by
  induction l generalizing i with
  | nil => rfl
  | cons a t ih => cases i <;> simp [modNth, ih]

theorem nth_modNth_ne {α : Type} (d : α) (f : α → α) (l : List α) {i j : Nat} (h : j ≠ i) : nth d (modNth l i f) j = nth d l j := by
  simp [nth, getElem?_modNth, h]

theorem nth_modNth_self {α : Type} (d : α) (f : α → α) (l : List α) {i : Nat} (h : i < l.length) : nth d (modNth l i f) i = f (nth d l i) := by
  rw [nth, nth, List.getD_eq_getElem?_getD, getElem?_modNth, if_pos rfl, List.getElem?_eq_getElem h, List.getD_eq_getElem?_getD,
    List.getElem?_eq_getElem h]
  rfl

theorem hart_modHart_ne (s : State) {h k : Nat} (f : Hart → Hart) (hk : k ≠ h) : (s.modHart h f).hart k = s.hart k :=
  nth_modNth_ne _ f _ hk

/-! ### Bits of a register -/

theorem getLsbD_setBit (v : W64) {n m : Nat} (hm : m < 64) (b : Bool) :
    (setBit v n b).getLsbD m = if m = n then b else v.getLsbD m := by
  have hpow : (BitVec.ofNat 64 (2 ^ n)).getLsbD m = decide (m = n) := by
    rw [BitVec.getLsbD_ofNat, Nat.testBit_two_pow, decide_eq_true hm, Bool.true_and]
    exact decide_eq_decide.2 eq_comm
  cases b
  · rw [setBit, if_neg Bool.false_ne_true, BitVec.getLsbD_and, BitVec.getLsbD_not, hpow]
    by_cases h : m = n <;> simp [h, hm]
  · rw [setBit, if_pos rfl, BitVec.getLsbD_or, hpow]
    by_cases h : m = n <;> simp [h]

theorem bit_setBit (v : W64) {n m : Nat} (hm : m < 64) (b : Bool) :
    bit (setBit v n b).toNat m = if m = n then b else bit v.toNat m :=
  getLsbD_setBit v hm b

/-- Two neighbouring bits of a number. -/
theorem bits_pair (v n : Nat) : bits v (n + 1) n = b2n (bit v n) + 2 * b2n (bit v (n + 1)) := by
  have hw : n + 1 + 1 - n = 2 := by omega
  have h1 : bit v (n + 1) = bit (v >>> n) 1 := by simp [bit, Nat.testBit_shiftRight]
  have h0 : bit v n = bit (v >>> n) 0 := by simp [bit]
  rw [bits, hw, h0, h1]
  generalize v >>> n = x
  simp only [bit, b2n, Nat.testBit_eq_decide_div_mod_eq, decide_eq_true_eq]
  split <;> split <;> omega

/-! ### The trap of a hart and the return (O54) -/

@[simp] theorem ofCode_code (p : Priv) : Priv.ofCode p.code = p := by cases p <;> rfl

theorem code_eq_bits (p : Priv) : b2n (bit p.code 0) + 2 * b2n (bit p.code 1) = p.code := by cases p <;> rfl

/-- A trap is taken into S-mode where it is delegated, and else into M-mode. -/
def delegatedTrap (H : Hart) (code : W64) : Prop :=
  H.priv ≠ .m ∧ bit (if code.msb then H.mideleg else H.medeleg).toNat (code &&& 0x3F#64).toNat = true

/-- Where the pc goes for a cause, from a trap vector. -/
def trapTarget (base code : W64) : W64 :=
  if code.msb && base &&& 3#64 = 1#64 then (base &&& ~~~ 3#64) + BitVec.ofNat 64 (4 * (code &&& 0x3F#64).toNat) else base &&& ~~~ 3#64

theorem trapTarget_exception {base code : W64} (h : code.msb = false) : trapTarget base code = base &&& ~~~ 3#64 := by
  simp [trapTarget, h]

/-- mstatus after a trap into S-mode: the mode and the interrupt enable are stacked. -/
def stackedS (H : Hart) : W64 := setBit (setBit (setBit H.mstatus 5 (bit H.mstatus.toNat 1)) 1 false) 8 (decide (H.priv = .s))

/-- mstatus after a trap into M-mode. -/
def stackedM (H : Hart) : W64 := setBit (setBit (setBit (setBit H.mstatus 7 (bit H.mstatus.toNat 3)) 3 false) 11 (bit H.priv.code 0)) 12 (bit H.priv.code 1)

theorem trap_of_delegated {H : Hart} {code : W64} (h : delegatedTrap H code) (tval : W64) :
    H.trap code tval = { H with sepc := H.pc, scause := code, stval := tval, priv := .s, pc := trapTarget H.stvec code, mstatus := stackedS H, stall := none } := by
  obtain ⟨hpriv, hbit⟩ := h
  simp only [Hart.trap]
  rw [if_pos (by rw [hbit]; simp [hpriv])]
  rfl

theorem trap_of_not_delegated {H : Hart} {code : W64} (h : ¬ delegatedTrap H code) (tval : W64) :
    H.trap code tval = { H with mepc := H.pc, mcause := code, mtval := tval, priv := .m, pc := trapTarget H.mtvec code, mstatus := stackedM H, stall := none } := by
  simp only [Hart.trap]
  rw [if_neg (by simpa [delegatedTrap] using h)]
  rfl

/-- Settles O54: each register of a trap and of a return is a field of the record written, and the bits of mstatus are those set last. -/
theorem hartTrapsAndReturns : Obligations.HartTrapsAndReturns := by
  intro H code tval n T delegated
  refine ⟨fun h => ?_, fun h => ?_⟩
  · have hT : T = _ := trap_of_not_delegated h tval
    have hbits : bits T.mstatus.toNat 12 11 = H.priv.code := by
      rw [bits_pair, ← code_eq_bits, hT]
      simp [stackedM, bit_setBit]
    refine ⟨by rw [hT], by rw [hT], by rw [hT], by rw [hT], ?_, ?_, hbits, by rw [hT]; rfl, fun he => ?_, ?_, ?_, ?_⟩
    · rw [hT]; simp [stackedM, bit_setBit]
    · rw [hT]; simp [stackedM, bit_setBit]
    · rw [hT]; exact trapTarget_exception he
    · show T.mepc = H.pc
      rw [hT]
    · show Priv.ofCode (bits T.mstatus.toNat 12 11) = H.priv
      rw [hbits, ofCode_code]
    · simp only [Hart.mret]
      have h7 : bit T.mstatus.toNat 7 = bit H.mstatus.toNat 3 := by rw [hT]; simp [stackedM, bit_setBit]
      split <;> simp [bit_setBit, h7]
  · have hT : T = _ := trap_of_delegated h tval
    have h8 : bit T.mstatus.toNat 8 = decide (H.priv = .s) := by rw [hT]; simp [stackedS, bit_setBit]
    have h5 : bit T.mstatus.toNat 5 = bit H.mstatus.toNat 1 := by rw [hT]; simp [stackedS, bit_setBit]
    refine ⟨by rw [hT], by rw [hT], by rw [hT], by rw [hT], ?_, h5, h8, by rw [hT]; rfl, fun he => ?_, ?_, ?_, ?_⟩
    · rw [hT]; simp [stackedS, bit_setBit]
    · rw [hT]; exact trapTarget_exception he
    · show T.sepc = H.pc
      rw [hT]
    · show (if bit T.mstatus.toNat 8 then Priv.s else Priv.u) = H.priv
      have hm : H.priv ≠ .m := h.1
      rw [h8]
      cases hp : H.priv <;> simp_all
    · simp [Hart.sret, bit_setBit, h5]

/-! ### The freezing fault (O55) -/

theorem keptFault_of_none {R : Region} (h : R.fault = none) (now : Nat) (f : FaultRec) : R.keptFault now f = f := by
  simp [Region.keptFault, h]

theorem keptFault_of_some {R : Region} {g : FaultRec} (h : R.fault = some g) (now : Nat) (f : FaultRec) :
    R.keptFault now f = if R.faultAt = now ∧ g.cause ≠ .securityAlarm ∧ f.rank < g.rank then f else g := by
  simp [Region.keptFault, h, and_assoc]

/-- Settles O55: the fault is one update of its region, and the rank of a record is a number made of its place. -/
theorem freezingFaultFreezes : Obligations.FreezingFaultFreezes := by
  refine ⟨fun s rid f R hR => ?_, fun f g hf hg => ?_⟩
  · intro t kept
    refine ⟨?_, fun h => keptFault_of_none h _ f, fun g hg => ⟨fun h => ?_, fun hat hal => ?_⟩, fun q hq => ?_, rfl, fun now => ⟨rfl, rfl, rfl, rfl, rfl⟩⟩
    · have h := region?_modRegion_self s rid (fun R => { R with
          st := if R.st = .running then .frozen else R.st
          fault := some (R.keptFault s.cycle f)
          faultAt := if R.fault.isNone then s.cycle else R.faultAt }) (fun _ h => h)
      rw [hR] at h
      refine h.trans ?_
      simp [kept]
    · rw [show kept = _ from keptFault_of_some hg _ f, if_neg]
      rintro ⟨hat, hal, -⟩
      exact h.elim (· hat) hal
    · rw [show kept = _ from keptFault_of_some hg _ f]
      simp [hat, hal]
    · exact region?_modRegion_ne s _ (fun _ h => h) hq
  · simp only [FaultRec.rank]
    refine ⟨fun h1 h2 => ?_, fun h1 h2 => ?_, fun h1 h2 => ?_, fun h1 h2 => ?_⟩
    · rw [if_pos h1, if_pos h2]; omega
    · rw [if_pos h1, if_neg (by omega)]
      split <;> [skip; split <;> [skip; split]] <;> omega
    · rcases h2 with h2 | h2 <;> simp only [h1, h2] <;> norm_num <;> omega
    · simp [h1, h2]; omega

end Sys2Proof
end

section
/-! SUPPORT. Memory under its keys and slices read back (O52); the state at reset (O50, O51); lockdown (O57). -/

namespace Sys2Proof
open Machine

/-! ### Global memory under keys -/

theorem cellGet_filter_keep {p : Host.Cell → Bool} {x : Nat} (hp : ∀ c : Host.Cell, c.1 = x → p c = true) (m : List Host.Cell) {lo : Option Nat}
    (h : risesFrom lo m = true) : cellGet (m.filter p) x = cellGet m x := by
  induction m generalizing lo with
  | nil => rfl
  | cons c t ih =>
    obtain ⟨k, b⟩ := c
    rw [risesFrom_cons] at h
    rw [List.filter_cons]
    split
    · simp only [cellGet, ih h.2]
    · next hk =>
      have hne : k ≠ x := fun e => hk (hp _ e)
      rw [ih h.2, cellGet, if_neg hne]
      split
      · next hlt => exact cellGet_of_lt t k x h.2 (Nat.le_of_lt hlt)
      · rfl

theorem cellGet_filter_drop {p : Host.Cell → Bool} {x : Nat} (hp : ∀ c : Host.Cell, c.1 = x → p c = false) (m : List Host.Cell) :
    cellGet (m.filter p) x = none := by
  induction m with
  | nil => rfl
  | cons c t ih =>
    obtain ⟨k, b⟩ := c
    rw [List.filter_cons]
    split
    · next hk =>
      have hne : k ≠ x := fun e => by rw [hp _ e] at hk; exact Bool.false_ne_true hk
      simp [cellGet, hne, ih]
    · exact ih

theorem cellGet_dropLine_ne {m : List Host.Cell} (h : Memory.wf m = true) {line x : Nat} (hx : x / 64 ≠ line) :
    cellGet (dropLine m line) x = cellGet m x :=
  cellGet_filter_keep (fun c hc => by simpa [hc] using hx) m h

theorem cellGet_dropLine_self (m : List Host.Cell) (x : Nat) : cellGet (dropLine m (x / 64)) x = none :=
  cellGet_filter_drop (fun c hc => by simp [hc]) m

/-- Bytes put at the places `g i`, with the value that `v` gives each place. -/
theorem cellGet_foldl_cellPut (g : Nat → Nat) (v : Nat → Byte) (l : List Nat) (m : List Host.Cell) (x : Nat) :
    cellGet (l.foldl (fun y i => cellPut y (g i) (v (g i))) m) x = if ∃ i ∈ l, g i = x then some (v x) else cellGet m x := by
  induction l generalizing m with
  | nil => simp
  | cons i t ih =>
    rw [List.foldl_cons, ih]
    by_cases ht : ∃ j ∈ t, g j = x
    · rw [if_pos ht, if_pos (ht.imp fun j hj => ⟨List.mem_cons_of_mem _ hj.1, hj.2⟩)]
    · rw [if_neg ht]
      by_cases hi : g i = x
      · rw [if_pos ⟨i, List.mem_cons_self, hi⟩, hi, cellGet_cellPut_self]
      · rw [cellGet_cellPut_ne _ _ _ _ (Ne.symm hi), if_neg]
        rintro ⟨j, hj, e⟩
        rcases List.mem_cons.1 hj with rfl | hj
        · exact hi e
        · exact ht ⟨j, hj, e⟩

theorem cellGet_rekeyLine (m : List Host.Cell) (key old a x : Nat) :
    cellGet (rekeyLine m key old a) x = if x / 64 = a / 64 then some (Config.wrongKey key old x (lineOf m a)) else cellGet m x := by
  rw [rekeyLine, cellGet_foldl_cellPut (fun i => a / 64 * 64 + i) (fun y => Config.wrongKey key old y (lineOf m a))]
  refine if_congr ⟨fun ⟨i, hi, e⟩ => ?_, fun h => ⟨x % 64, ?_, ?_⟩⟩ rfl rfl
  · have := List.mem_range.1 hi; omega
  · exact List.mem_range.2 (Nat.mod_lt _ (by decide))
  · show a / 64 * 64 + x % 64 = x
    omega

theorem ownerOf_setOwner (os : List Owner) (line key l : Nat) : ownerOf (setOwner os line key) l = if l = line then some key else ownerOf os l := by
  by_cases h : l = line
  · simp [ownerOf, setOwner, h]
  · have hkeep : (fun o : Owner => decide ((o.line != line) = true ∧ (o.line == l) = true)) = fun o => o.line == l := by
      funext o
      by_cases ho : o.line = l <;> simp [ho, h]
    rw [if_neg h, ownerOf, setOwner, List.find?_cons_of_neg (by simpa using Ne.symm h), List.find?_filter, hkeep, ownerOf]

/-- Bytes of a line read the same where the list, the owner and the ticks are the same for it. -/
theorem memByte_congr {s t : State} {x : Nat} (key : Nat) (hticks : t.ticks = s.ticks) (howner : ownerOf t.owners (x / 64) = ownerOf s.owners (x / 64))
    (hline : ∀ y, y / 64 = x / 64 → cellGet t.mem y = cellGet s.mem y) : memByte t key x = memByte s key x := by
  have hlines : lineOf t.mem x = lineOf s.mem x := by
    refine List.map_congr_left fun i hi => hline _ ?_
    have := List.mem_range.1 hi
    omega
  rw [memByte, memByte, howner, hline x rfl, hlines, hticks]

theorem lineOf_congr (m : List Host.Cell) {x a : Nat} (h : x / 64 = a / 64) : lineOf m x = lineOf m a := by rw [lineOf, lineOf, h]

/-- What is read of a line that nothing has written. -/
theorem memByte_of_ownerless {s : State} {x : Nat} (h : ownerOf s.owners (x / 64) = none) (key : Nat) : memByte s key x = Config.freeByte s.ticks x := by
  rw [memByte, h]

/-- What is read under the key that wrote the line. -/
theorem memByte_of_owner {s : State} {x key : Nat} (h : ownerOf s.owners (x / 64) = some key) :
    memByte s key x = (cellGet s.mem x).getD (Config.freeByte s.ticks x) := by
  rw [memByte, h]
  cases cellGet s.mem x <;> simp

/-- What is read under another key. -/
theorem memByte_of_other {s : State} {x key k : Nat} (h : ownerOf s.owners (x / 64) = some k) (hk : k ≠ key) :
    memByte s key x = Config.wrongKey key k x (lineOf s.mem x) := by
  rw [memByte, h]
  cases cellGet s.mem x <;> simp [hk]

theorem memPut_of_owner {s : State} {key a : Nat} (h : ownerOf s.owners (a / 64) = some key) (b : Byte) :
    memPut s key a b = { s with mem := cellPut s.mem a b, bad := setDel s.bad a } := by
  rw [memPut, h]
  exact if_pos rfl

theorem memPut_of_other {s : State} {key k a : Nat} (h : ownerOf s.owners (a / 64) = some k) (hk : k ≠ key) (b : Byte) :
    memPut s key a b =
      { s with mem := cellPut (rekeyLine s.mem key k a) a b, bad := setDel s.bad a, owners := setOwner s.owners (a / 64) key } := by
  rw [memPut, h]
  exact if_neg hk

theorem memPut_of_ownerless {s : State} {a : Nat} (h : ownerOf s.owners (a / 64) = none) (key : Nat) (b : Byte) :
    memPut s key a b = { s with mem := cellPut (dropLine s.mem (a / 64)) a b, bad := setDel s.bad a, owners := setOwner s.owners (a / 64) key } := by
  rw [memPut, h]

/-- A write changes no other byte of the line for its key. -/
theorem memByte_memPut_line (s : State) {key a x : Nat} (b : Byte) (hx : x ≠ a) (hl : x / 64 = a / 64) :
    memByte (memPut s key a b) key x = memByte s key x := by
  have hwritten : ownerOf (setOwner s.owners (a / 64) key) (x / 64) = some key := by rw [ownerOf_setOwner, if_pos hl]
  cases h : ownerOf s.owners (a / 64) with
  | none =>
    rw [memByte_of_ownerless (s := s) (hl ▸ h), memPut_of_ownerless h key b]
    refine (memByte_of_owner (key := key) ?_).trans ?_
    · exact hwritten
    · show (cellGet (cellPut (dropLine s.mem (a / 64)) a b) x).getD (Config.freeByte s.ticks x) = _
      rw [cellGet_cellPut_ne _ _ _ _ hx, ← hl, cellGet_dropLine_self, Option.getD_none]
  | some k =>
    by_cases hk : k = key
    · subst hk
      rw [memPut_of_owner h, memByte_of_owner (s := { s with mem := _, bad := _ }) (hl ▸ h), memByte_of_owner (hl ▸ h)]
      show (cellGet (cellPut s.mem a b) x).getD _ = _
      rw [cellGet_cellPut_ne _ _ _ _ hx]
    · rw [memByte_of_other (s := s) (hl ▸ h) hk, memPut_of_other h hk b]
      have hline := cellGet_rekeyLine s.mem key k a x
      generalize rekeyLine s.mem key k a = m at hline ⊢
      refine (memByte_of_owner (key := key) ?_).trans ?_
      · exact hwritten
      · show (cellGet (cellPut m a b) x).getD _ = _
        rw [cellGet_cellPut_ne _ _ _ _ hx, hline, if_pos hl, Option.getD_some, lineOf_congr _ hl]

/-- A write changes no byte of another line for any key. -/
theorem memByte_memPut_ne_line {s : State} (hwf : Memory.wf s.mem = true) (key k : Nat) {a x : Nat} (b : Byte) (hl : x / 64 ≠ a / 64) :
    memByte (memPut s key a b) k x = memByte s k x := by
  have hne (y : Nat) (hy : y / 64 = x / 64) : y / 64 ≠ a / 64 ∧ y ≠ a := ⟨hy ▸ hl, fun e => hl (by rw [← hy, e])⟩
  have howner : ownerOf (setOwner s.owners (a / 64) key) (x / 64) = ownerOf s.owners (x / 64) := by rw [ownerOf_setOwner, if_neg hl]
  cases h : ownerOf s.owners (a / 64) with
  | none =>
    rw [memPut_of_ownerless h]
    refine memByte_congr k rfl howner fun y hy => ?_
    exact (cellGet_cellPut_ne _ _ _ _ (hne y hy).2).trans (cellGet_dropLine_ne hwf (hne y hy).1)
  | some j =>
    by_cases hj : j = key
    · subst hj
      rw [memPut_of_owner h]
      exact memByte_congr k rfl rfl fun y hy => cellGet_cellPut_ne _ _ _ _ (hne y hy).2
    · rw [memPut_of_other h hj]
      have hline := fun y => cellGet_rekeyLine s.mem key j a y
      generalize rekeyLine s.mem key j a = m at hline ⊢
      refine memByte_congr k rfl howner fun y hy => ?_
      exact (cellGet_cellPut_ne m a y b (hne y hy).2).trans (by rw [hline, if_neg (hne y hy).1])

/-! ### Words of a slice -/

theorem length_toBytes (n v : Nat) : (toBytes n v).length = n := by
  induction n generalizing v with
  | zero => rfl
  | succ n ih => simp [toBytes, ih]

theorem fromBytes_toBytes (n v : Nat) : fromBytes (toBytes n v) = v % 256 ^ n := by
  induction n generalizing v with
  | zero => simp [toBytes, fromBytes, Nat.mod_one]
  | succ n ih =>
    rw [toBytes, fromBytes, ih, BitVec.toNat_ofNat, show 256 ^ (n + 1) = 256 * 256 ^ n from pow_succ' 256 n, Nat.mod_mul]

theorem sramByte_sramWrite_outside {m : List Host.Cell} (h : Sram.wf m = true) {a x : Nat} (bs : List Byte) (hx : x < a ∨ a + bs.length ≤ x) :
    sramByte (sramWrite m a bs) x = sramByte m x := by
  induction bs generalizing m a with
  | nil => rfl
  | cons b t ih =>
    rw [List.length_cons] at hx
    rw [sramWrite, ih (wf_sramPut m a b h) (by omega), sramByte_sramPut m a x b h, if_neg (by omega)]

theorem sramBytes_sramWrite {m : List Host.Cell} (h : Sram.wf m = true) (a : Nat) (bs : List Byte) :
    sramBytes (sramWrite m a bs) a bs.length = bs := by
  induction bs generalizing m a with
  | nil => rfl
  | cons b t ih =>
    have hput := wf_sramPut m a b h
    rw [List.length_cons, sramBytes, sramWrite, ih hput, sramByte_sramWrite_outside hput t (by omega), sramByte_sramPut m a a b h, if_pos rfl]

theorem sramBytes_congr {m m' : List Host.Cell} {a n : Nat} (h : ∀ x, a ≤ x → x < a + n → sramByte m' x = sramByte m x) :
    sramBytes m' a n = sramBytes m a n := by
  induction n generalizing a with
  | zero => rfl
  | succ n ih => rw [sramBytes, sramBytes, h a (Nat.le_refl _) (by omega), ih fun x h1 h2 => h x (by omega) (by omega)]

theorem sramWord_sramSetWord_self {m : List Host.Cell} (h : Sram.wf m = true) (w : Nat) (v : W32) : sramWord (sramSetWord m w v) w = v := by
  have hb := sramBytes_sramWrite h (4 * w) (toBytes 4 v.toNat)
  rw [length_toBytes] at hb
  rw [sramWord, sramSetWord, hb, fromBytes_toBytes]
  exact BitVec.eq_of_toNat_eq (by rw [BitVec.toNat_ofNat, Nat.mod_mod_of_dvd _ (by decide)]; exact Nat.mod_eq_of_lt v.isLt)

theorem sramWord_sramSetWord_ne {m : List Host.Cell} (h : Sram.wf m = true) {w x : Nat} (v : W32) (hx : x ≠ w) :
    sramWord (sramSetWord m w v) x = sramWord m x := by
  rw [sramWord, sramWord, sramSetWord, sramBytes_congr fun y h1 h2 => ?_]
  refine sramByte_sramWrite_outside h _ ?_
  rw [length_toBytes]
  omega

/-- Settles O52: by the owner of the line written, and byte by byte in a slice. -/
theorem memoryReadsBack : Obligations.MemoryReadsBack := by
  refine ⟨fun s key a b hwf => ⟨memByte_memPut_self s key a b, fun x hx => ?_, fun k x hl => memByte_memPut_ne_line hwf key k b hl⟩,
    fun m w v h => ⟨wf_sramSetWord m w v h, sramWord_sramSetWord_self h w v, fun x hx => sramWord_sramSetWord_ne h v hx⟩⟩
  by_cases hl : x / 64 = a / 64
  · exact memByte_memPut_line s b hx hl
  · exact memByte_memPut_ne_line hwf key key b hl

/-! ### Reset -/

/-- Settles O50: nothing is listed at reset. -/
theorem resetIsCanonical : Obligations.ResetIsCanonical := ⟨reset_wf, rfl, rfl⟩

theorem nth_replicate {α : Type} (a : α) (n i : Nat) : nth a (List.replicate n a) i = a := by
  simp only [nth, List.getD_eq_getElem?_getD, List.getElem?_replicate]
  split <;> rfl

@[simp] theorem hart_reset (h : Nat) : State.reset.hart h = Hart.reset := nth_replicate _ _ _

theorem slotOf_reset (p : BitVec 16) : State.reset.slotOf p = none := by
  refine List.find?_eq_none.2 fun i _ => ?_
  have hk : nth { v := false, part := 0#16, key := 0 } State.reset.trust.keys i = { v := false, part := 0#16, key := 0 } := nth_replicate _ _ _
  rw [hk]
  exact Bool.false_ne_true

theorem fuse_reset (w : Nat) : State.reset.fuse w = 0#32 := nth_replicate _ _ _

theorem measure_reset {d : Nat} (hd : d < 3) (i : Nat) : State.reset.trust.measure d i = 0#256 := by
  have hrow : nth [] State.reset.trust.meas d = List.replicate 8 0#256 := by
    interval_cases d <;> rfl
  rw [Trust.measure, hrow, nth_replicate]

/-- Settles O51: each value is read off the state at reset. -/
theorem resetValues : Obligations.ResetValues := by
  refine ⟨rfl, rfl, ?_, rfl, rfl, rfl, rfl, rfl, rfl, rfl, rfl, rfl, rfl, rfl, rfl, rfl, rfl, rfl, fun h _ => ?_, rfl, rfl, rfl, rfl, rfl,
    fun p hp => ?_, rfl, rfl, rfl, rfl, rfl, rfl, rfl, fun t ht => ?_, rfl, rfl, rfl, fun w _ => fuse_reset w, fun d i hd _ => measure_reset hd i,
    slotOf_reset, rfl, rfl, rfl, rfl, rfl⟩
  · decide
  · rw [hart_reset]; exact ⟨rfl, rfl, rfl⟩
  · interval_cases p <;> rfl
  · exact List.getElem?_replicate_of_lt ht

/-! ### Lockdown -/

theorem onRegion_locked {s : State} (hlock : s.trust.lock = true) (hsm : s.sm = true) (i : Instr) (d : BitVec 5) (handle : Nat) (f : Region → State) :
    onRegion s i d handle true f = .next (retStatus s d 0x0B) := by
  simp [onRegion, hlock, hsm]

theorem onTre_denied {s : State} {machine : Bool} (hmode : (if machine then s.isM else s.sm) = true) (hturn : myTurn s 2050 = true) (i : Instr)
    (d : BitVec 5) {f : State} (hf : f = retStatus s d 0x0B) : onTre s i d machine f = .next (retStatus s d 0x0B) := by
  rw [onTre, if_neg (by simp [hmode])]
  split
  · rfl
  · rw [if_neg (by simp [hturn]), hf]

theorem unlkDenied_of_lock {s : State} (h : s.trust.lock = true) : s.unlkDenied = true := by simp [State.unlkDenied, h]

/-- Settles O57: lockdown is the first question of each of these instructions after that of the mode. -/
theorem lockdownDenies : Obligations.LockdownDenies := by
  intro s d a b hlock hsm
  have hregion := onRegion_locked hlock hsm
  have hunlk := unlkDenied_of_lock hlock
  refine ⟨fun i hi => ?_, fun hturn i hi => ?_, fun hm hturn i hi => ?_⟩
  · simp only [List.mem_cons, List.not_mem_nil, or_false] at hi
    rcases hi with rfl | rfl | rfl | rfl | rfl | rfl | rfl | rfl | rfl
    · show execRgnAlloc d a b s = _
      simp [execRgnAlloc, hsm, hlock]
    all_goals exact hregion _ d _ _
  · simp only [List.mem_cons, List.not_mem_nil, or_false] at hi
    rcases hi with rfl | rfl
    all_goals exact onTre_denied (machine := false) hsm hturn _ d (if_pos hlock)
  · simp only [List.mem_cons, List.not_mem_nil, or_false] at hi
    rcases hi with rfl | rfl | rfl
    · exact onTre_denied (machine := true) hm hturn _ d (if_pos hunlk)
    · exact onTre_denied (machine := true) hm hturn _ d (if_pos (by simp [hunlk]))
    · exact onTre_denied (machine := true) hm hturn _ d (if_pos hunlk)

end Sys2Proof
end

section
/-! SUPPORT. The step: what the turn of a hart, of a queue, of a SOURCE and of an event comes to (O47). -/

namespace Sys2Proof
open Machine

/-- Only the turn of a queue, of a SOURCE or of a region's own event moves a region. -/
theorem lateRegion_of_hart {t : State} (h : t.movesRegion = none) : t.lateRegion = none := by rw [State.lateRegion, h]

theorem movesRegion_of_hart {t : State} {h : Nat} (hw : t.turn.who = .hart h) : t.movesRegion = none := by
  rw [State.movesRegion, hw]
  show t.turnRegion = none
  rw [State.turnRegion, hw]

theorem movesRegion_of_hartDoes {t : State} {h : Nat} {i : Instr} (hw : t.turn.who = .hartDoes h i) : t.movesRegion = none := by
  rw [State.movesRegion, hw]
  show t.turnRegion = none
  rw [State.turnRegion, hw]

/-- Where firing goes on in the region of the turn, no fault has frozen it in this cycle. -/
theorem lateRegion_of_live {t : State} {rid q : Nat} {v : UnitId} {R : Region} (hw : t.turn.who = .take rid v q) (hR : t.region? rid = some R)
    (hlive : R.live = true) : t.lateRegion = none := by
  have hst : R.st = .running := by
    simp only [Region.live, Bool.and_eq_true, beq_iff_eq] at hlive
    exact hlive.1.1.1.1
  have hmoves : t.movesRegion = some rid := by
    rw [State.movesRegion, hw]
    show t.turnRegion = some rid
    rw [State.turnRegion, hw]
  simp [State.lateRegion, hmoves, hR, hst]

theorem step_of_lateRegion_none {s : State} (h : s.beginTurn.lateRegion = none) : step s = runTurn s.beginTurn := by
  rw [step, h]

theorem runTurn_run {t : State} {i : Instr} (h : t.fetched = .run i) : runTurn t = exec i t := by rw [runTurn, h]
theorem runTurn_base {t : State} {b : BaseWord} (h : t.fetched = .base b) : runTurn t = execBase b t := by rw [runTurn, h]
theorem runTurn_trap {t : State} {c v : W64} (h : t.fetched = .trap c v) : runTurn t = .next (t.takeTrap t.me c v) := by rw [runTurn, h]
theorem runTurn_headFault {t : State} {rid : Nat} {f : FaultRec} (h : t.fetched = .headFault rid f) : runTurn t = .next (takeFault t rid f) := by
  rw [runTurn, h]
theorem runTurn_headPark {t : State} {rid : Nat} {p : Parked} (h : t.fetched = .headPark rid p) : runTurn t = .next (t.parkHead rid p) := by
  rw [runTurn, h]

theorem takeTrap_of_ne {t : State} (h : Nat) {c : W64} (hc : c ≠ 0x8000000000000010#64) (v : W64) :
    t.takeTrap h c v = t.modHart h fun H => H.trap c v := by
  simp only [State.takeTrap, if_neg hc]

/-! ### A hart's turn -/

/-- A hart that may fetch: it runs, waits for nothing, and no interrupt comes first. -/
structure Fetches (t : State) (h : Nat) : Prop where
  lt : h < 16
  boot : t.boot.step = 9
  running : (t.hart h).running = true
  held : (t.hart h).held = false
  irq : (t.hart h).stall = none → t.yardIrq (t.hart h) = false ∧ (t.hart h).irq = none

theorem fetchRow_of_fetches {t : State} {h : Nat} (hf : Fetches t h) : 
    (∀ e, t.fetchHart h = .error e → t.fetchRow h = .trap e.1 e.2) ∧
    (∀ w n, t.fetchHart h = .ok (w, n) → t.fetchRow h = wordRow (t.hart h) w n) := by
  obtain ⟨hlt, hboot, hrun, hheld, hirq⟩ := hf
  have hyard : ((t.hart h).stall.isNone && t.yardIrq (t.hart h)) = false := by
    cases hs : (t.hart h).stall with
    | none => simp [(hirq hs).1]
    | some x => rfl
  have hmip : (if (t.hart h).stall.isNone then (t.hart h).irq else none) = none := by
    cases hs : (t.hart h).stall with
    | none => exact (hirq hs).2
    | some x => rfl
  have hmay : (decide (t.boot.step ≠ 9) || !(t.hart h).running || (t.hart h).held || decide (h ≥ 16)) = false := by
    simp [hboot, hrun, hheld, hlt]
  constructor
  · intro e he
    simp only [State.fetchRow]
    rw [if_neg (by rw [hmay]; exact Bool.false_ne_true), if_neg (by rw [hyard]; exact Bool.false_ne_true), hmip, he]
  · intro w n he
    simp only [State.fetchRow]
    rw [if_neg (by rw [hmay]; exact Bool.false_ne_true), if_neg (by rw [hyard]; exact Bool.false_ne_true), hmip, he]

theorem wordRow_custom {H : Hart} {w : W32} (h : isCustom w = true) : wordRow H w 4 = .run (customRow H w) := by simp [wordRow, h]
theorem wordRow_base {H : Hart} {w : W32} (h : isCustom w = false) : wordRow H w 4 = .base ⟨w, 4, w⟩ := by simp [wordRow, h]
theorem wordRow_expanded {H : Hart} {w x : W32} (h : expand w.toNat = some x) : wordRow H w 2 = .base ⟨x, 2, w⟩ := by
  rw [wordRow, if_pos rfl, h]
theorem wordRow_reserved {H : Hart} {w : W32} (h : expand w.toNat = none) : wordRow H w 2 = .trap 2#64 (w.zeroExtend 64) := by
  rw [wordRow, if_pos rfl, h]
theorem customRow_ok {H : Hart} {w : W32} {i : Instr} (h : decodeCustom w = .ok i) : customRow H w = refine i (H.get (wordA w)) (H.get (wordS w)) := by
  rw [customRow, h]
theorem customRow_error {H : Hart} {w : W32} {e : DecodeError} (h : decodeCustom w = .error e) : customRow H w = .illegalInstruction w := by
  rw [customRow, h]

theorem me_of_hart {t : State} {h : Nat} (hw : t.turn.who = .hart h) : t.me = h := by rw [State.me, hw]

/-! ### The turn of a queue -/

theorem fetched_of_take {t : State} {rid q : Nat} {u : UnitId} (hw : t.turn.who = .take rid u q) (hboot : t.boot.step = 9) :
    t.fetched = t.stopped.getD ((t.takeRow.map Fetched.run).getD .idle) := by
  rw [State.fetched, hw]
  exact if_pos hboot

theorem fetched_of_source {t : State} {rid : Nat} {u : UnitId} (hw : t.turn.who = .source rid u) (hboot : t.boot.step = 9) :
    t.fetched = t.stopped.getD (((t.sourceRow rid u).map Fetched.run).getD .idle) := by
  rw [State.fetched, hw]
  exact if_pos hboot

theorem takeRow_of_arrival {t : State} {x : Nat} {k : Take} {op : Nat} {r : Rec} {i : Instr} (h : t.arrival = some (x, k, op, r))
    (hi : decodeFabric (k.U.words k.node) = .ok i) : t.takeRow = some (rowOfHead k op r i) := by
  simp only [State.takeRow, h, hi]

theorem stopped_of_choice {t : State} {rid q : Nat} {u : UnitId} {R : Region} {U : Site} {k : Take} (hw : t.turn.who = .take rid u q)
    (hR : t.region? rid = some R) (hlive : R.live = true) (hU : R.unit? u = some U) (hpos : u.pos ≤ 3)
    (hk : R.takeAt t.cycle u q = some k) (hchoice : t.choice R U = some q) : t.stopped = (t.headStop R k).map (HeadStop.fetched rid k) := by
  simp [State.stopped, hw, hR, hlive, hU, if_pos hpos, hk, hchoice]

/-- What a stop of the head comes to. -/
theorem fetched_of_headStop {t : State} {rid q : Nat} {u : UnitId} {R : Region} {U : Site} {k : Take} {x : HeadStop}
    (hw : t.turn.who = .take rid u q) (hboot : t.boot.step = 9) (hR : t.region? rid = some R) (hlive : R.live = true)
    (hU : R.unit? u = some U) (hpos : u.pos ≤ 3) (hk : R.takeAt t.cycle u q = some k) (hchoice : t.choice R U = some q)
    (hstop : t.headStop R k = some x) : t.fetched = x.fetched rid k := by
  rw [fetched_of_take hw hboot, stopped_of_choice hw hR hlive hU hpos hk hchoice, hstop]
  rfl

/-- Settles O47: the turn's agent decides what is fetched, and what is fetched is run. -/
theorem stepRunsDecoded : Obligations.StepRunsDecoded := by
  intro s t ht
  subst ht
  refine ⟨rfl, fun x xs h => by rw [State.nextTurn, h], fun h hw hlt hboot hrun hheld hirq => ?_, fun h i hw hlt hboot hrun hstall hrow => ?_,
    fun rid u q x k op r i hw hboot hlate hstop harr hi => ?_, fun rid u R U w r hw hboot hlate hstop hR hU hsrc => ?_,
    fun rid u q R U k hw hboot hR hlive hU hpos hk hchoice => ?_, fun i hw hrow hboot hlate => ?_, fun rid hlate u hu => ?_⟩
  · have hstep := step_of_lateRegion_none (lateRegion_of_hart (movesRegion_of_hart hw))
    have hfetched : s.beginTurn.fetched = s.beginTurn.fetchRow h := by rw [State.fetched, hw]
    obtain ⟨herr, hok⟩ := fetchRow_of_fetches ⟨hlt, hboot, hrun, hheld, hirq⟩
    refine ⟨fun w i hf hc hi => ?_, fun w e hf hc he => ?_, fun w hf hc => ?_, fun w x hf hx => ?_, fun w hf hx => ?_, fun c v hc hf => ?_⟩
    · rw [hstep, runTurn_run (hfetched.trans ((hok w 4 hf).trans (wordRow_custom hc))), customRow_ok hi]
    · rw [hstep, runTurn_run (hfetched.trans ((hok w 4 hf).trans (wordRow_custom hc))), customRow_error he]
    · rw [hstep, runTurn_base (hfetched.trans ((hok w 4 hf).trans (wordRow_base hc)))]
    · rw [hstep, runTurn_base (hfetched.trans ((hok w 2 hf).trans (wordRow_expanded hx)))]
    · rw [hstep, runTurn_trap (hfetched.trans ((hok w 2 hf).trans (wordRow_reserved hx))), me_of_hart hw, takeTrap_of_ne h (by decide)]
    · rw [hstep, runTurn_trap (hfetched.trans (herr (c, v) hf)), me_of_hart hw, takeTrap_of_ne h hc]
  · rw [step_of_lateRegion_none (lateRegion_of_hart (movesRegion_of_hartDoes hw)), runTurn_run]
    simp [State.fetched, hw, hrow, hboot, hrun, hstall, hlt]
  · rw [step_of_lateRegion_none hlate, runTurn_run]
    rw [fetched_of_take hw hboot, hstop, takeRow_of_arrival harr hi]
    rfl
  · rw [step_of_lateRegion_none hlate, runTurn_run]
    have hsource : s.beginTurn.sourceRow rid u = some (.source r) := by simp [State.sourceRow, hR, hU, hsrc]
    rw [fetched_of_source hw hboot, hstop, hsource]
    rfl
  · rw [step_of_lateRegion_none (lateRegion_of_live hw hR hlive)]
    have hfetched := fun x => fetched_of_headStop (x := x) hw hboot hR hlive hU hpos hk hchoice
    refine ⟨fun hbad => ?_, fun va hva => ?_, fun c va hva => ?_⟩
    · rw [runTurn_headFault (hfetched .bad (by rw [State.headStop, if_pos hbad]))]
    · rw [runTurn_headPark (hfetched _ hva), State.parkHead, hR]
    · rw [runTurn_headFault (hfetched _ hva)]
  · rw [step_of_lateRegion_none hlate, runTurn_run]
    rw [State.fetched, hw]
    refine if_pos ?_
    simpa [hrow] using hboot
  · rw [step, hlate]
    simp only [hu]

end Sys2Proof
end

section
/-! SUPPORT. The illegal-instruction trap (O53) and the alarms (O56). -/

namespace Sys2Proof
open Machine

/-! ### Compressed instructions expand to no custom word -/

theorem isCustom_ofNat {v : Nat} (h1 : v % 128 ≠ 0x0B) (h2 : v % 128 ≠ 0x2B) : isCustom (BitVec.ofNat 32 v) = false := by
  have hmajor : (wordMajor (BitVec.ofNat 32 v)).toNat = v % 128 := by
    simp only [wordMajor, BitVec.extractLsb'_toNat, BitVec.toNat_ofNat, Nat.shiftRight_zero]
    omega
  have hne (m : BitVec 7) (hm : v % 128 ≠ m.toNat) : (wordMajor (BitVec.ofNat 32 v) == m) = false :=
    beq_eq_false_iff_ne.2 fun e => hm (by rw [← hmajor, e])
  rw [isCustom, hne 0x0B#7 h1, hne 0x2B#7 h2]
  rfl

/-- What a compressed instruction expands to, if anything, is a word of the base architecture. -/
def Standard (o : Option W32) : Prop := ∀ x, o = some x → isCustom x = false

theorem standard_none : Standard none := fun _ h => nomatch h
theorem standard_some {x : W32} (h : isCustom x = false) : Standard (some x) := fun _ e => Option.some.inj e ▸ h
theorem standard_ite {c : Prop} [Decidable c] {a b : Option W32} (ha : Standard a) (hb : Standard b) : Standard (if c then a else b) := by
  split
  · exact ha
  · exact hb

/-- A major opcode of the base architecture. -/
def baseMajor (op : Nat) : Bool := decide (op < 128) && op != 0x0B && op != 0x2B

theorem baseMajor_iff (op : Nat) : baseMajor op = true ↔ (op < 128 ∧ op ≠ 0x0B) ∧ op ≠ 0x2B := by simp [baseMajor]

theorem standard_iType {op : Nat} (h : baseMajor op = true) (rd f3 rs imm : Nat) : Standard (some (wordIType op rd f3 rs imm)) := by
  obtain ⟨⟨hlt, h1⟩, h2⟩ := (baseMajor_iff op).1 h
  exact standard_some (isCustom_ofNat (by omega) (by omega))

theorem standard_rType {op : Nat} (h : baseMajor op = true) (rd f3 rs1 rs2 f7 : Nat) : Standard (some (wordRType op rd f3 rs1 rs2 f7)) :=
  standard_iType h rd f3 rs1 _

theorem standard_sType {op : Nat} (h : baseMajor op = true) (f3 rs1 rs2 imm : Nat) : Standard (some (wordSType op f3 rs1 rs2 imm)) := by
  obtain ⟨⟨hlt, h1⟩, h2⟩ := (baseMajor_iff op).1 h
  exact standard_some (isCustom_ofNat (by omega) (by omega))

theorem standard_bType (f3 rs1 rs2 imm : Nat) : Standard (some (wordBType f3 rs1 rs2 imm)) :=
  standard_some (isCustom_ofNat (by omega) (by omega))

theorem standard_jType (rd imm : Nat) : Standard (some (wordJType rd imm)) :=
  standard_some (isCustom_ofNat (by omega) (by omega))

theorem standard_lui (rd imm : Nat) : Standard (some (BitVec.ofNat 32 (0x37 + rd * 2 ^ 7 + imm * 2 ^ 12))) :=
  standard_some (isCustom_ofNat (by omega) (by omega))

theorem standard_expand0 (h f3 : Nat) : Standard (expand0 h f3) := by
  unfold expand0
  dsimp only
  split
  · exact standard_ite standard_none (standard_iType rfl _ _ _ _)
  · exact standard_iType rfl _ _ _ _
  · exact standard_iType rfl _ _ _ _
  · exact standard_iType rfl _ _ _ _
  · exact standard_sType rfl _ _ _ _
  · exact standard_sType rfl _ _ _ _
  · exact standard_sType rfl _ _ _ _
  · exact standard_none

theorem standard_expandArith (h : Nat) : Standard (expandArith h) := by
  unfold expandArith
  dsimp only
  split
  · exact standard_iType rfl _ _ _ _
  · exact standard_iType rfl _ _ _ _
  · exact standard_iType rfl _ _ _ _
  · split
    · exact standard_rType rfl _ _ _ _ _
    · exact standard_rType rfl _ _ _ _ _
    · exact standard_rType rfl _ _ _ _ _
    · exact standard_rType rfl _ _ _ _ _
    · exact standard_rType rfl _ _ _ _ _
    · exact standard_rType rfl _ _ _ _ _
    · exact standard_none

theorem standard_expand1 (h f3 : Nat) : Standard (expand1 h f3) := by
  unfold expand1
  dsimp only
  split
  · exact standard_iType rfl _ _ _ _
  · exact standard_ite standard_none (standard_iType rfl _ _ _ _)
  · exact standard_iType rfl _ _ _ _
  · exact standard_ite (standard_ite standard_none (standard_iType rfl _ _ _ _)) (standard_ite standard_none (standard_lui _ _))
  · exact standard_expandArith h
  · exact standard_jType _ _
  · exact standard_bType _ _ _ _
  · exact standard_bType _ _ _ _

theorem standard_expand2 (h f3 : Nat) : Standard (expand2 h f3) := by
  unfold expand2
  dsimp only
  split
  · exact standard_iType rfl _ _ _ _
  · exact standard_iType rfl _ _ _ _
  · exact standard_ite standard_none (standard_iType rfl _ _ _ _)
  · exact standard_ite standard_none (standard_iType rfl _ _ _ _)
  · refine standard_ite (standard_ite (standard_ite standard_none (standard_iType rfl _ _ _ _)) (standard_rType rfl _ _ _ _ _))
      (standard_ite (standard_ite (standard_some (by decide)) (standard_iType rfl _ _ _ _)) (standard_rType rfl _ _ _ _ _))
  · exact standard_sType rfl _ _ _ _
  · exact standard_sType rfl _ _ _ _
  · exact standard_sType rfl _ _ _ _

theorem standard_expand (h : Nat) : Standard (expand h) := by
  unfold expand
  dsimp only
  split
  · exact standard_expand0 h _
  · exact standard_expand1 h _
  · exact standard_expand2 h _
  · exact standard_none

/-! ### CSRs that a hart may not access -/

theorem csrNumbers_eq : csrNumbers = [0x5C0, 0x5C1, 0x5C2, 0x5C3, 0x5C4, 0x5C5, 0x5C6, 0x5C7, 0x5C8, 0x5C9, 0x5CA, 0x5CB, 0x5F0, 0x5F1, 0x5F2, 0x5F4,
    0x5F5, 0x5F6, 0x5F7, 0x7C0, 0x7C1, 0x7C2, 0x7C3] := by decide

theorem csrOk_false {s : State} {n : Nat} (h : Claim.table1210 n = false ∨ (0x7C0 ≤ n ∧ (s.hart s.me).priv ≠ .m)) : s.csrOk n = false := by
  rcases h with h | ⟨hn, hp⟩
  · rw [State.csrOk, csrNumbers_eq, show List.contains _ n = false from h, Bool.false_and]
  · have hm : s.isM = false := by simpa [State.isM] using hp
    rw [State.csrOk, if_neg (by omega), hm, Bool.and_false]

theorem isDeviceCsr_of_range {n : Nat} (h : Claim.deviceRange n) : isDeviceCsr n = true := by
  simp only [Claim.deviceRange] at h
  simp only [isDeviceCsr, Bool.or_eq_true, Bool.and_eq_true, decide_eq_true_eq]
  omega

/-- A CSR instruction that names a CSR of the device that the hart may not access traps. -/
theorem csrInstr_illegal {s : State} {csr : Nat} (hdev : isDeviceCsr csr = true) (hok : s.csrOk csr = false) (f3 : Nat) (d : BitVec 5) (z : Bool)
    (src : W64) (w : W32) : csrInstr f3 csr d z src w s = .next (trapIllegal s w) := by
  simp only [csrInstr, hdev, hok, Bool.not_false, if_true]
  split <;> rfl

theorem execBase_system {b : BaseWord} (h : b.w.toNat % 128 = 0x73) (s : State) : execBase b s = baseSystem s b := by
  simp only [execBase, h]

theorem baseSystem_csr {b : BaseWord} (h : wF3 b.w % 4 ≠ 0) (s : State) : ∃ z src, baseSystem s b = csrInstr (wF3 b.w) (wI12 b.w) (wRd b.w) z src b.raw s :=
  ⟨_, _, by rw [baseSystem, if_pos h]⟩

theorem sm_false_of_u {s : State} (h : (s.hart s.me).priv = .u) : s.sm = false := by simp [State.sm, h]

/-! ### Custom instructions below their level -/

theorem trapCustom_of_word {i : Instr} {w : W32} (h : encode i = [w]) (s : State) : trapCustom s i = Claim.illegal s w := by
  rw [trapCustom, h]
  rfl

theorem onRegion_illegal {s : State} {i : Instr} {w : W32} (hw : encode i = [w]) (hsm : s.sm = false) (d : BitVec 5) (handle : Nat) (locked : Bool)
    (f : Region → State) : onRegion s i d handle locked f = .next (Claim.illegal s w) := by
  simp [onRegion, hsm, trapCustom_of_word hw]

theorem onTre_illegal {s : State} {i : Instr} {w : W32} {machine : Bool} (hw : encode i = [w]) (hmode : (if machine then s.isM else s.sm) = false)
    (d : BitVec 5) (f : State) : onTre s i d machine f = .next (Claim.illegal s w) := by
  rw [onTre, if_pos (by rw [hmode]; rfl), trapCustom_of_word hw]

theorem sm_of_listedAt {s : State} (h : ((s.hart s.me).priv != .u) = false) : s.sm = false := h
theorem isM_of_listedAt {s : State} (h : ((s.hart s.me).priv == .m) = false) : s.isM = false := h

/-- A custom instruction at a level that Table 2-20 does not list traps with its word. -/
theorem exec_custom_illegal {i : Instr} {w : W32} {s : State} (hc : (customOf i).isSome = true) (hw : encode i = [w])
    (hl : Claim.listedAt i (s.hart s.me).priv = false) : exec i s = .next (Claim.illegal s w) := by
  cases i
  case rgnAlloc d a b =>
    have hsm : s.sm = false := sm_of_listedAt hl
    show execRgnAlloc d a b s = _
    simp [execRgnAlloc, hsm, trapCustom_of_word hw]
  case rgnLoad => exact onRegion_illegal hw (sm_of_listedAt hl) _ _ _ _
  case rgnStart => exact onRegion_illegal hw (sm_of_listedAt hl) _ _ _ _
  case rgnFreeze => exact onRegion_illegal hw (sm_of_listedAt hl) _ _ _ _
  case rgnDrain => exact onRegion_illegal hw (sm_of_listedAt hl) _ _ _ _
  case rgnSave => exact onRegion_illegal hw (sm_of_listedAt hl) _ _ _ _
  case rgnRest => exact onRegion_illegal hw (sm_of_listedAt hl) _ _ _ _
  case rgnMove => exact onRegion_illegal hw (sm_of_listedAt hl) _ _ _ _
  case rgnKill => exact onRegion_illegal hw (sm_of_listedAt hl) _ _ _ _
  case rgnPrio => exact onRegion_illegal hw (sm_of_listedAt hl) _ _ _ _
  case rgnStat d a b =>
    have hsm : s.sm = false := sm_of_listedAt hl
    show execRgnStat d a b s = _
    simp only [execRgnStat, hsm, Bool.false_and, Bool.false_eq_true, if_false]
    exact onRegion_illegal hw hsm _ _ _ _
  case callTake d a b =>
    have hsm : s.sm = false := sm_of_listedAt hl
    show execCallTake d a b s = _
    simp only [execCallTake]
    split
    · rw [if_pos (by rw [hsm]; rfl), trapCustom_of_word hw]
    · exact onRegion_illegal hw hsm _ _ _ _
  case callDone d a =>
    have hsm : s.sm = false := sm_of_listedAt hl
    show execCallDone d a s = _
    simp [execCallDone, hsm, trapCustom_of_word hw]
  case secFuseRead d a b =>
    have hm : s.isM = false := isM_of_listedAt hl
    show execSecFuseRead d a b s = _
    simp [execSecFuseRead, hm, trapCustom_of_word hw]
  case secFuseBlow => exact onTre_illegal (machine := true) hw (isM_of_listedAt hl) _ _
  case secMeasRead => exact onTre_illegal (machine := false) hw (sm_of_listedAt hl) _ _
  case secMeasExtend => exact onTre_illegal (machine := false) hw (sm_of_listedAt hl) _ _
  case secWipeQuery => exact onTre_illegal (machine := false) hw (sm_of_listedAt hl) _ _
  case secWipe => exact onTre_illegal (machine := false) hw (sm_of_listedAt hl) _ _
  case secUnlkNonce => exact onTre_illegal (machine := true) hw (isM_of_listedAt hl) _ _
  case secUnlkSubmit => exact onTre_illegal (machine := true) hw (isM_of_listedAt hl) _ _
  case secUnlkClose => exact onTre_illegal (machine := true) hw (isM_of_listedAt hl) _ _
  case secAtst => exact onTre_illegal (machine := false) hw (sm_of_listedAt hl) _ _
  all_goals exact Bool.noConfusion hc

theorem wordMajor_wordR (f7 : BitVec 7) (b a : BitVec 5) (f3 : BitVec 3) (d : BitVec 5) (major : BitVec 7) :
    wordMajor (Claim.wordR f7 b a f3 d major) = major := BitVec.extractLsb'_append_eq_right

/-- Settles O53: the level, the CSR's number and the word's fields are asked first. -/
theorem illegalInstructionsTrap : Obligations.IllegalInstructionsTrap := by
  refine ⟨fun i w s hc hw hl => exec_custom_illegal hc hw hl, fun f7 b a f3 d major H s hmajor hno => ?_, fun n s hrange hno => ?_,
    fun s v d hm => ⟨?_, fun hu => ?_⟩, fun n x h => standard_expand n x h, by decide, by decide⟩
  · intro w
    refine ⟨?_, rfl⟩
    have hcustom : isCustom w = true := by
      rw [isCustom, wordMajor_wordR]
      rcases hmajor with rfl | rfl <;> decide
    obtain ⟨_, _, _, _, hwords⟩ := encodeDecode
    rw [wordRow_custom hcustom, customRow_error ((hwords f7 b a f3 d major).2 hno)]
  · have hok := csrOk_false hno
    refine ⟨fun b hb hf hn => ?_, fun v => ?_⟩
    · obtain ⟨z, src, hsys⟩ := baseSystem_csr hf s
      rw [execBase_system hb, hsys, hn]
      exact csrInstr_illegal (isDeviceCsr_of_range hrange) hok _ _ _ _ _
    · have hn : (BitVec.ofNat 12 n).toNat = n := by
        simp only [Claim.deviceRange] at hrange
        rw [BitVec.toNat_ofNat]
        omega
      show execCsrWrite (BitVec.ofNat 12 n) v s = _
      rw [execCsrWrite, hn, hok]
      rfl
  · have hM : s.isM = false := by simpa [State.isM] using hm
    show execLnkdataWrite v s = _
    rw [execLnkdataWrite, hM]
    rfl
  · have hsm := sm_false_of_u hu
    refine ⟨?_, ?_, ?_, ?_, ?_⟩
    · show execXparkPop d s = _
      rw [execXparkPop, hsm]
      rfl
    · show execXparkRefuse v s = _
      rw [execXparkRefuse, hsm]
      rfl
    · show execXinvcmd v s = _
      rw [execXinvcmd, hsm]
      rfl
    · show execCapdataWrite v s = _
      rw [execCapdataWrite, hsm]
      rfl
    · show execPartselWrite v s = _
      rw [execPartselWrite, hsm]
      rfl

/-! ### The actions of an alarm (O56) -/

/-- The key slots with one erased. -/
def erasedKeys (ks : List KeySlot) (i : Nat) : List KeySlot := modNth ks i fun x => { x with v := false, part := 0#16, bits := 0#512 }

/-- A state that differs from `s` in its memory, in who wrote it and in the key slots alone. -/
def SameButKeys (s t : State) : Prop :=
  t = { s with mem := t.mem, owners := t.owners, trust := { s.trust with keys := t.trust.keys } }

theorem SameButKeys.trans {s t u : State} (h : SameButKeys s t) (k : SameButKeys t u) : SameButKeys s u := by
  rw [SameButKeys] at h k
  rw [SameButKeys, k, h]

theorem SameButKeys.eq {s t : State} (h : SameButKeys s t) :
    t = { s with mem := t.mem, owners := t.owners, trust := { s.trust with keys := t.trust.keys } } := h
theorem SameButKeys.trust {s t : State} (h : SameButKeys s t) : t.trust = { s.trust with keys := t.trust.keys } := by
  have e := congrArg State.trust h.eq
  exact e
theorem SameButKeys.harts {s t : State} (h : SameButKeys s t) : t.harts = s.harts := by
  have e := congrArg State.harts h.eq
  exact e
theorem SameButKeys.regions {s t : State} (h : SameButKeys s t) : t.regions = s.regions := by
  have e := congrArg State.regions h.eq
  exact e
theorem SameButKeys.tdis {s t : State} (h : SameButKeys s t) : t.tdis = s.tdis := by
  have e := congrArg State.tdis h.eq
  exact e

theorem eraseSlot_same (s : State) (i : Nat) : SameButKeys s (eraseSlot s i) := by
  simp only [eraseSlot]
  split <;> rfl

theorem eraseSlot_keys (s : State) (i : Nat) : (eraseSlot s i).trust.keys = erasedKeys s.trust.keys i := by
  simp only [eraseSlot]
  split <;> rfl

theorem eraseSlots_same (l : List Nat) (s : State) : SameButKeys s (l.foldl (fun s i => eraseSlot s (i + 1)) s) := by
  induction l generalizing s with
  | nil => rfl
  | cons i t ih => exact (eraseSlot_same s (i + 1)).trans (ih _)

/-- The slot, where there is one, is not valid. -/
def slotEmpty (ks : List KeySlot) (j : Nat) : Prop := ∀ k, ks[j]? = some k → k.v = false

theorem slotEmpty_erasedKeys_self (ks : List KeySlot) (i : Nat) : slotEmpty (erasedKeys ks i) i := by
  intro k hk
  rw [erasedKeys, getElem?_modNth, if_pos rfl] at hk
  obtain ⟨x, -, rfl⟩ := Option.map_eq_some_iff.1 hk
  rfl

theorem slotEmpty_erasedKeys {ks : List KeySlot} {j : Nat} (h : slotEmpty ks j) (i : Nat) : slotEmpty (erasedKeys ks i) j := by
  by_cases hj : j = i
  · exact hj ▸ slotEmpty_erasedKeys_self ks i
  · intro k hk
    rw [erasedKeys, getElem?_modNth, if_neg hj] at hk
    exact h k hk

theorem eraseSlots_keeps_empty (l : List Nat) {s : State} {j : Nat} (h : slotEmpty s.trust.keys j) :
    slotEmpty (l.foldl (fun s i => eraseSlot s (i + 1)) s).trust.keys j := by
  induction l generalizing s with
  | nil => exact h
  | cons i t ih => exact ih (by rw [eraseSlot_keys]; exact slotEmpty_erasedKeys h _)

theorem eraseSlots_empties {l : List Nat} {i : Nat} (hi : i ∈ l) (s : State) :
    slotEmpty (l.foldl (fun s i => eraseSlot s (i + 1)) s).trust.keys (i + 1) := by
  induction l generalizing s with
  | nil => cases hi
  | cons j t ih =>
    rcases List.mem_cons.1 hi with rfl | hi
    · exact eraseSlots_keeps_empty t (by rw [eraseSlot_keys]; exact slotEmpty_erasedKeys_self _ _)
    · exact ih hi _

theorem eraseSlots_first (l : List Nat) (s : State) : (l.foldl (fun s i => eraseSlot s (i + 1)) s).trust.keys[0]? = s.trust.keys[0]? := by
  induction l generalizing s with
  | nil => rfl
  | cons j t ih => rw [List.foldl_cons, ih, eraseSlot_keys, erasedKeys, getElem?_modNth, if_neg (by omega)]

theorem eraseTenants_same (s : State) : SameButKeys s (eraseTenants s) := by
  unfold eraseTenants
  exact eraseSlots_same (List.range 63) s

theorem eraseTenants_empties (s : State) {i : Nat} (h1 : 1 ≤ i) (h63 : i ≤ 63) : slotEmpty (eraseTenants s).trust.keys i := by
  obtain ⟨j, rfl⟩ : ∃ j, i = j + 1 := ⟨i - 1, by omega⟩
  unfold eraseTenants
  exact eraseSlots_empties (l := List.range 63) (List.mem_range.2 (by omega)) s

theorem eraseTenants_first (s : State) : (eraseTenants s).trust.keys[0]? = s.trust.keys[0]? := by
  unfold eraseTenants
  exact eraseSlots_first (List.range 63) s

theorem zero_elem (U : Site) : U.zero.elem = [] := by
  simp only [Site.zero]
  split <;> rfl

theorem zero_mu {U : Site} {m : Mu} (h : U.zero.eng = .mu m) : m.sram = [] ∧ m.fe = [] := by
  simp only [Site.zero] at h
  split at h
  · cases h
    exact ⟨rfl, rfl⟩
  · next hne => exact absurd h (hne m)

theorem zeroFabric_zeroed {s : State} {R : Region} (hR : R ∈ (zeroFabric s).regions) (hst : R.st ≠ .evicted) {U : Site} (hU : U ∈ R.units) :
    U.elem = [] ∧ ∀ m, U.eng = .mu m → m.sram = [] ∧ m.fe = [] := by
  obtain ⟨Q, -, rfl⟩ := List.mem_map.1 hR
  by_cases hQ : Q.st = .evicted
  · rw [if_pos hQ] at hst
    exact absurd hQ hst
  · rw [if_neg hQ] at hU
    obtain ⟨V, -, rfl⟩ := List.mem_map.1 hU
    exact ⟨zero_elem V, fun m hm => zero_mu hm⟩

/-- The state of the key slots and of the TDIs under a policy. -/
def afterKeys (s : State) (p : Nat) : State := if 1 ≤ p then failTdis (eraseTenants s) else s

/-- The state of the fabric's memories under a policy. -/
def afterZero (s : State) (p : Nat) : State := if 2 ≤ p then { zeroFabric s with trust := { s.trust with lock := true } } else s

/-- The actions of an alarm, one after another. -/
theorem alarmActions_eq (s : State) (cls code : Nat) : alarmActions s cls code =
    pendMachine { afterZero (afterKeys s (s.policy cls)) (s.policy cls) with trust :=
      { (afterZero (afterKeys s (s.policy cls)) (s.policy cls)).trust with
        lastalm := BitVec.ofNat 8 code
        alarms := if (afterZero (afterKeys s (s.policy cls)) (s.policy cls)).trust.alarms = 0xFF#8 then
            (afterZero (afterKeys s (s.policy cls)) (s.policy cls)).trust.alarms
          else (afterZero (afterKeys s (s.policy cls)) (s.policy cls)).trust.alarms + 1#8 } } 18 := rfl

theorem afterKeys_trust (s : State) (p : Nat) : (afterKeys s p).trust = { s.trust with keys := (afterKeys s p).trust.keys } := by
  have h := eraseTenants_same s
  unfold afterKeys
  generalize eraseTenants s = u at h ⊢
  split
  · exact h.trust
  · rfl

theorem afterKeys_harts (s : State) (p : Nat) : (afterKeys s p).harts = s.harts := by
  have h := eraseTenants_same s
  unfold afterKeys
  generalize eraseTenants s = u at h ⊢
  split
  · exact h.harts
  · rfl

theorem afterKeys_regions (s : State) (p : Nat) : (afterKeys s p).regions = s.regions := by
  have h := eraseTenants_same s
  unfold afterKeys
  generalize eraseTenants s = u at h ⊢
  split
  · exact h.regions
  · rfl

theorem afterKeys_tdis {s : State} {p : Nat} (hp : 1 ≤ p) : (afterKeys s p).tdis = (failTdis s).tdis := by
  rw [afterKeys, if_pos hp, failTdis, (eraseTenants_same s).tdis]
  rfl

theorem afterZero_keeps (s : State) (p : Nat) : afterZero s p = { s with regions := (afterZero s p).regions, trust := (afterZero s p).trust } := by
  unfold afterZero
  split <;> rfl

theorem alarmActions_harts (s : State) (cls code : Nat) : (alarmActions s cls code).harts =
    s.harts.map fun H => if bit H.mie.toNat 18 then { H with mip := setBit H.mip 18 true } else H := by
  rw [alarmActions_eq, pendMachine]
  simp only
  rw [afterZero_keeps]
  simp only [afterKeys_harts]

theorem alarmActions_tdis (s : State) (cls code : Nat) : (alarmActions s cls code).tdis = (afterKeys s (s.policy cls)).tdis := by
  rw [alarmActions_eq, pendMachine]
  simp only
  rw [afterZero_keeps]

theorem alarmActions_memory (s : State) (cls code : Nat) : (alarmActions s cls code).mem = (afterKeys s (s.policy cls)).mem ∧
    (alarmActions s cls code).owners = (afterKeys s (s.policy cls)).owners := by
  rw [alarmActions_eq, pendMachine]
  simp only
  rw [afterZero_keeps]
  exact ⟨rfl, rfl⟩

theorem alarmActions_regions (s : State) (cls code : Nat) : (alarmActions s cls code).regions =
    if 2 ≤ s.policy cls then (zeroFabric s).regions else s.regions := by
  rw [alarmActions_eq, pendMachine]
  simp only [afterZero]
  split
  · simp only [zeroFabric, afterKeys_regions]
  · exact afterKeys_regions s _

/-- What the actions of an alarm leave of the Trust Engine. -/
theorem alarmActions_trust (s : State) (cls code : Nat) : (alarmActions s cls code).trust =
    { s.trust with keys := (afterKeys s (s.policy cls)).trust.keys, lock := if 2 ≤ s.policy cls then true else s.trust.lock,
                   lastalm := BitVec.ofNat 8 code, alarms := if s.trust.alarms = 0xFF#8 then s.trust.alarms else s.trust.alarms + 1#8 } := by
  rw [alarmActions_eq, pendMachine]
  simp only [afterZero]
  have h := afterKeys_trust s (s.policy cls)
  generalize afterKeys s (s.policy cls) = u at h ⊢
  obtain ⟨ks, hks⟩ : ∃ ks, ks = u.trust.keys := ⟨_, rfl⟩
  rw [← hks] at h ⊢
  split <;> simp only [h]

theorem afterKeys_zero {s : State} {p : Nat} (hp : p = 0) : afterKeys s p = s := if_neg (by omega)

theorem afterKeys_keys {s : State} {p : Nat} (hp : 1 ≤ p) : (afterKeys s p).trust.keys = (eraseTenants s).trust.keys := by
  rw [afterKeys, if_pos hp, failTdis]

theorem alarmDone_alarmActions (s : State) (cls : Nat) (code : BitVec 8) :
    Claim.AlarmDone s (alarmActions s cls code.toNat) (s.policy cls) code := by
  have htrust := alarmActions_trust s cls code.toNat
  dsimp only at htrust
  obtain ⟨hmem, howners⟩ := alarmActions_memory s cls code.toNat
  refine ⟨?_, ?_, alarmActions_harts s cls _, fun hp => ?_, fun hp => ⟨fun i k h1 h63 hk => ?_, ?_, ?_⟩, fun hp => ?_, fun hp => ⟨?_, fun R hR hst U hU => ?_⟩⟩
  · rw [htrust]; simp
  · rw [htrust]
    exact if_ctx_congr Iff.rfl id fun _ => rfl
  · rw [alarmActions_tdis, hmem, howners, htrust, afterKeys_zero hp, if_neg (by omega)]
    exact ⟨rfl, rfl, rfl, rfl, rfl⟩
  · rw [htrust] at hk
    rw [afterKeys_keys hp] at hk
    exact eraseTenants_empties s h1 h63 k hk
  · rw [htrust]
    show (afterKeys s (s.policy cls)).trust.keys[0]? = _
    rw [afterKeys_keys hp, eraseTenants_first]
  · rw [alarmActions_tdis, afterKeys_tdis hp]
    rfl
  · rw [htrust]
    exact if_neg (by omega)
  · rw [htrust]
    exact if_pos hp
  · rw [alarmActions_regions, if_pos hp] at hR
    exact zeroFabric_zeroed hR hst hU

/-! ### The freeze of an alarm -/

theorem alarm_of_running {R : Region} (hst : R.st = .running) (hroll : R.roll = none) (code : Nat) :
    R.alarm code = { R with st := .frozen, fault := some (alarmRecord code) } := by
  simp [Region.alarm, hroll, hst]

theorem alarm_of_rolling {R : Region} {x : Roll} (hroll : R.roll = some x) (hback : x.back = .running) (code : Nat) :
    R.alarm code = { R with fault := some (alarmRecord code), roll := some { x with back := .frozen } } := by
  simp [Region.alarm, hroll, hback]

theorem alarm_roll_isSome (R : Region) (code : Nat) : (R.alarm code).roll.isSome = R.roll.isSome := by
  simp only [Region.alarm]
  cases hroll : R.roll with
  | none => repeat' split
            all_goals simp_all
  | some x => simp only [hroll, apply_ite Region.roll, apply_ite Option.isSome, Option.isSome_some, ite_self]

/-- The freeze alone: what an alarm does before its actions. -/
def alarmFreeze (s : State) (code : Nat) : State :=
  if s.regions.any (fun R => R.st == .running) then { s with regions := s.regions.map (Region.alarm code) }.pend 1
  else { s with regions := s.regions.map (Region.alarm code) }

theorem raiseAlarm_eq (s : State) (cls code : Nat) : raiseAlarm s cls code =
    if (alarmFreeze s code).rollingBack then
      { alarmFreeze s code with trust := { (alarmFreeze s code).trust with due := (alarmFreeze s code).trust.due ++ [(cls, code)] } }
    else alarmActions (alarmFreeze s code) cls code := rfl

theorem alarmFreeze_keeps (s : State) (code : Nat) :
    alarmFreeze s code = { s with regions := s.regions.map (Region.alarm code), yard := (alarmFreeze s code).yard } := by
  unfold alarmFreeze
  split <;> rfl

theorem alarmFreeze_regions (s : State) (code : Nat) : (alarmFreeze s code).regions = s.regions.map (Region.alarm code) := by
  rw [alarmFreeze_keeps]

theorem rollingBack_alarmFreeze (s : State) (code : Nat) : (alarmFreeze s code).rollingBack = s.rollingBack := by
  rw [State.rollingBack, alarmFreeze_regions, List.any_map]
  exact congrArg (List.any s.regions) (funext fun R => alarm_roll_isSome R code)

theorem rollingBack_iff (s : State) : s.rollingBack = true ↔ ∃ R ∈ s.regions, R.roll.isSome = true := List.any_eq_true

theorem rollingBack_of_none {s : State} (h : ∀ R ∈ s.regions, R.roll = none) : s.rollingBack = false := by
  refine Bool.eq_false_iff.2 fun hr => ?_
  obtain ⟨R, hR, hsome⟩ := (rollingBack_iff s).1 hr
  rw [h R hR] at hsome
  cases hsome

/-- Every region that the freeze leaves is there after the alarm, but for the memories that its actions zero. -/
theorem raiseAlarm_region {s : State} {cls code : Nat} {Q : Region} (hQ : Q ∈ (alarmFreeze s code).regions) :
    ∃ P ∈ (raiseAlarm s cls code).regions, P.rid = Q.rid ∧ P.st = Q.st ∧ P.fault = Q.fault ∧ P.roll = Q.roll := by
  rw [raiseAlarm_eq]
  split
  · exact ⟨Q, hQ, rfl, rfl, rfl, rfl⟩
  · rw [alarmActions_regions]
    split
    · refine ⟨_, List.mem_map.2 ⟨Q, hQ, rfl⟩, ?_⟩
      split <;> exact ⟨rfl, rfl, rfl, rfl⟩
    · exact ⟨Q, hQ, rfl, rfl, rfl, rfl⟩

/-- Settles O56: the freeze is one map over the regions; the actions follow at once or when the rollbacks have ended. -/
theorem alarmActs : Obligations.AlarmActs := by
  refine ⟨fun s t cls code hexec => ?_, fun s cls code hdue => ⟨fun hnone => ?_, fun R hR hroll => ?_⟩⟩
  · have ht : t = raiseAlarm s cls code.toNat := (Host.Outcome.next.inj hexec).symm
    subst ht
    have hmem (R : Region) (hR : R ∈ s.regions) : R.alarm code.toNat ∈ (alarmFreeze s code.toNat).regions := by
      rw [alarmFreeze_regions]
      exact List.mem_map_of_mem hR
    have hkeeps := alarmFreeze_keeps s code.toNat
    refine ⟨fun R hR hst hroll => ?_, fun R hR x hroll hback => ?_, fun hnone => ?_, fun R hR hroll => ?_⟩
    · obtain ⟨Q, hQ, hrid, hqst, hfault, -⟩ := raiseAlarm_region (cls := cls) (hmem R hR)
      rw [alarm_of_running hst hroll] at hrid hqst hfault
      exact ⟨Q, hQ, hrid, hqst, hfault⟩
    · obtain ⟨Q, hQ, hrid, -, hfault, hqroll⟩ := raiseAlarm_region (cls := cls) (hmem R hR)
      rw [alarm_of_rolling hroll hback] at hrid hqroll hfault
      exact ⟨Q, hQ, hrid, hqroll, hfault⟩
    · rw [raiseAlarm_eq, rollingBack_alarmFreeze, rollingBack_of_none hnone, if_neg Bool.false_ne_true]
      have hdone := alarmDone_alarmActions (alarmFreeze s code.toNat) cls code
      rw [hkeeps] at hdone ⊢
      exact hdone
    · rw [raiseAlarm_eq, rollingBack_alarmFreeze, (rollingBack_iff s).2 ⟨R, hR, hroll⟩, if_pos rfl, hkeeps]
      exact ⟨rfl, rfl, rfl, rfl, rfl⟩
  · have hnow : s.alarmsDue = alarmActions { s with trust := { s.trust with due := [] } } cls code.toNat := by
      rw [State.alarmsDue, rollingBack_of_none hnone, hdue]
      rfl
    rw [hnow]
    exact ⟨alarmDone_alarmActions { s with trust := { s.trust with due := [] } } cls code, by rw [alarmActions_trust]⟩
  · rw [State.alarmsDue, (rollingBack_iff s).2 ⟨R, hR, hroll⟩, Bool.or_true, if_pos rfl]

end Sys2Proof
end

section
/-! SUPPORT. The records of the function unit and of the memory unit, taken (O19, O20). -/

namespace Sys2Proof
open Machine

/-! ### The Column Function Unit -/

theorem exec_of_cfuRow {i : Instr} {op : Nat} {r : Rec} (h : Claim.cfuRow i = some (op, r)) (s : State) : exec i s = .next (cfuExec s op r) := by
  cases i
  all_goals try exact elim_none h
  all_goals cases h
  all_goals rfl

theorem cfuSend_of_unit {R : Region} {u : UnitId} {U : Site} (hU : R.unit? u = some U) (now route op : Nat) (fmt : Fmt) (ds : List (BitVec 16))
    (t : Token) : R.cfuSend now u route op fmt ds t =
      { (R.modUnit u fun U => { U with nextSid := U.nextSid + max 1 ds.length }) with
        flights := R.flights ++ [{ tok := t, org := u, route := route, sid := U.nextSid, loc := .cfuRequest, since := now, cfuOp := some (op, fmt, ds) }] } := by
  rw [Region.cfuSend, hU]
  rfl

/-- Settles O19: the request, its service and the reply are each one update of a region's flights. -/
theorem functionUnitCompletes : Obligations.FunctionUnitCompletes := by
  refine ⟨fun i op r s rid k U V hrow hserved hU hsend => ?_, fun s col => ⟨fun rid row op fmt d ds f hnext hop => ?_,
    fun R Rs f op fmt d hregions hdue hkill hop => ?_⟩⟩
  · intro R1 hV
    have hsend' : U.canSend (sendsOf r k.t k.t) = true := hsend
    rw [exec_of_cfuRow hrow, cfuExec, hserved]
    simp only [hU, hsend', Bool.not_true, Bool.false_eq_true, if_false]
    exact congrArg (fun R => Host.Outcome.next (s.putRegion R)) ((cfuSend_of_unit hV _ _ _ _ _ _).trans (by rw [List.length_map]; rfl))
  · show execCfuRequestServe col s = _
    rw [execCfuRequestServe, hnext]
    simp only [hop]
    rfl
  · show execCfuReply col s = _
    rw [execCfuReply, hregions, List.findSome?_cons, hdue]
    simp only [Option.map_some, hkill, cfuReplies, hop]
    rfl

/-! ### A memory record -/

theorem exec_of_memRow {i : Instr} {op : Nat} {r : Rec} (h : Claim.memRow i = some (op, r)) (s : State) : exec i s = .next (memExec s op r) := by
  cases i
  all_goals try exact elim_none h
  all_goals cases h
  all_goals rfl

theorem memRes_of_fires {k : Take} {op : Nat} {r : Rec} {ops : List Operand} {R : Region} (h : Claim.Fires k op r ops R) :
    memRes k op r = memFiring k op r ops R := by
  rcases h with ⟨hm, slots, seals, R0, harr, hlog, rfl⟩ | ⟨hm, rfl, rfl⟩
  · simp only [memRes, hm, if_true, harr, hlog]
  · simp [memRes, hm]

theorem admitted_of_full {R : Region} {page : Nat} {m : Mu} (hm : R.mu? page = some m) (hfull : 32 ≤ m.accs.length) (a : Access) :
    R.admitted page a = none := by
  simp [Region.admitted, hm, hfull]

theorem admitted_of_known {R : Region} {page : Nat} {m : Mu} {a : Access} (hm : R.mu? page = some m) (hroom : m.accs.length < 32)
    (hknown : (m.wave? (mrChain a.r) a.hdr).isSome = true) :
    R.admitted page a = some (R.modMu page fun m => { m with accs := m.accs ++ [{ a with id := m.nextId }], nextId := m.nextId + 1 }) := by
  simp [Region.admitted, hm, Nat.not_le.2 hroom, hknown]

theorem memFiring_of_full {k : Take} {op : Nat} {r : Rec} {ops : List Operand} {R : Region} {m : Mu} (hlens : memLensOk op r ops = true)
    (hm : R.mu? k.u.page = some m) (hfull : 32 ≤ m.accs.length) : memFiring k op r ops R = .wait := by
  simp only [memFiring, hlens, Bool.not_true, Bool.false_eq_true, if_false]
  split <;> rw [admitted_of_full hm hfull]

theorem commitMu_ok {s : State} {rid : Nat} {k : Take} {reserve : Sends} {R : Region} (hroom : Claim.Room k R reserve) :
    commitMu s rid k (.ok reserve [] R) = s.putRegion
      ((R.modUnit k.u fun U => { U with credits := spend U.credits reserve, rot := k.q, nextTake := s.cycle + 1 }).sendReserved s.cycle k.u []) := by
  obtain ⟨U, hU, hsend⟩ := hroom
  simp [commitMu, hU, hsend]

/-- The take of a turn is what the turn's queue gives. -/
theorem takeAt_of_taking {s : State} {rid rid' q : Nat} {u : UnitId} {k : Take} (hw : s.turn.who = .take rid u q) (h : s.taking = some (rid', k)) :
    (s.region? rid).bind (·.takeAt s.cycle u q) = some k := by
  simp only [State.taking, hw] at h
  split at h
  · cases h
  · next R hR =>
    split at h
    · cases h
    · split at h
      · next U k' hU hk =>
        split at h
        · cases h
          rw [hR]
          exact hk
        · cases h
      · cases h

/-- Settles O20: an access that is admitted enters the buffer, and a full buffer admits none. -/
theorem memoryRecordsEnterTheBuffer : Obligations.MemoryRecordsEnterTheBuffer := by
  refine ⟨fun i op r s rid k ops R m hrow hserved hfires hlens herr hm hroom hwave => ?_,
    fun i op r s rid q k ops R m hrow hw htake hpos hrec hkind hact hfires hlens hm hfull => ?_⟩
  · intro a es R1 hRoom
    have hfiring : memFiring k op r ops R = .ok es [] R1 := by
      simp only [memFiring, hlens, herr, Bool.not_true, Bool.false_eq_true, if_false]
      rw [admitted_of_known (a := newAccess k op r ops (outToken ops r.fmt 0 false []) .buffered) hm hroom hwave]
      rfl
    rw [exec_of_memRow hrow, memExec, hserved]
    simp only
    rw [memRes_of_fires hfires, hfiring, commitMu_ok hRoom]
  · have hwait : memRes k op r = .wait := by rw [memRes_of_fires hfires, memFiring_of_full hlens hm hfull]
    rw [exec_of_memRow hrow, memExec]
    cases htaking : s.taking with
    | none => rfl
    | some p =>
      obtain ⟨rid', k'⟩ := p
      have hk : k' = k := Option.some.inj ((takeAt_of_taking hw htaking).symm.trans htake)
      simp only [hk, hwait, commitMu]

end Sys2Proof
end

section
/-! SUPPORT. The accesses of the buffer (O21): performed on slices and on global memory, retired, retried, served. -/

namespace Sys2Proof
open Machine

/-! ### What sending leaves of a region -/

/-- A region that differs from `R` in its units and its flights alone. -/
def OnlyUnits (R Q : Region) : Prop := Q = { R with units := Q.units, flights := Q.flights }

theorem OnlyUnits.refl (R : Region) : OnlyUnits R R := rfl
theorem OnlyUnits.eq {R Q : Region} (h : OnlyUnits R Q) : Q = { R with units := Q.units, flights := Q.flights } := h
theorem OnlyUnits.trans {R Q P : Region} (h : OnlyUnits R Q) (k : OnlyUnits Q P) : OnlyUnits R P := by
  rw [OnlyUnits] at h k
  rw [OnlyUnits, k, h]

theorem OnlyUnits.cfg {R Q : Region} (h : OnlyUnits R Q) : Q.cfg = R.cfg := by rw [h.eq]
theorem OnlyUnits.part {R Q : Region} (h : OnlyUnits R Q) : Q.part = R.part := by rw [h.eq]
theorem OnlyUnits.rid {R Q : Region} (h : OnlyUnits R Q) : Q.rid = R.rid := by rw [h.eq]

theorem onlyUnits_modUnit (R : Region) (u : UnitId) (f : Site → Site) : OnlyUnits R (R.modUnit u f) := rfl
theorem onlyUnits_modAcc (R : Region) (page id : Nat) (f : Access → Access) : OnlyUnits R (R.modAcc page id f) := rfl

theorem onlyUnits_launch (R : Region) (now : Nat) (u : UnitId) (route : Nat) (t : Token) : OnlyUnits R (R.launch now u route t) := by
  unfold Region.launch
  split <;> rfl

theorem onlyUnits_emitOut {R Q : Region} {now : Nat} {u : UnitId} {o : Out} (h : R.emitOut now u o = some Q) : OnlyUnits R Q := by
  have hgo (V : Site) : OnlyUnits R ((R.putUnit V).launch now u o.route o.tok) :=
    (onlyUnits_modUnit R V.id fun _ => V).trans (onlyUnits_launch _ now u o.route o.tok)
  unfold Region.emitOut at h
  split at h
  · cases h
  · dsimp only at h
    split at h
    · cases h
    · split at h
      · cases h; exact hgo _
      · split at h
        · cases h; exact hgo _
        · split at h
          · cases h; exact hgo _
          · cases h

theorem onlyUnits_emitNext {R Q : Region} {now : Nat} {u : UnitId} (h : R.emitNext now u = some Q) : OnlyUnits R Q := by
  unfold Region.emitNext at h
  split at h
  · cases h
  · obtain ⟨o, -, ho⟩ := List.exists_of_findSome?_eq_some h
    split at ho
    · exact onlyUnits_emitOut ho
    · cases ho

theorem onlyUnits_flushOut (now : Nat) (u : UnitId) (n : Nat) (R : Region) : OnlyUnits R (Region.flushOut now u n R) := by
  induction n generalizing R with
  | zero => exact OnlyUnits.refl R
  | succ n ih =>
    unfold Region.flushOut
    split
    · exact OnlyUnits.refl R
    · next Q h => exact (onlyUnits_emitNext h).trans (ih Q)

theorem onlyUnits_sendReserved (R : Region) (now : Nat) (u : UnitId) (es : Sends) : OnlyUnits R (R.sendReserved now u es) :=
  (onlyUnits_modUnit R u _).trans (onlyUnits_flushOut now u _ _)

theorem onlyUnits_issuedIn (s : State) (R : Region) (page : Nat) (a : Access) : OnlyUnits R (Claim.issuedIn s R page a) := by
  unfold Claim.issuedIn
  split
  · exact (onlyUnits_sendReserved R _ _ _).trans (onlyUnits_modAcc _ _ _ _)
  · exact onlyUnits_modAcc _ _ _ _

theorem globalAddrs_issued (s : State) (R : Region) (page : Nat) (a : Access) :
    (Claim.issuedIn s R page a).globalAddrs (Claim.issued a) = R.globalAddrs a := by
  have hbase : (Claim.issuedIn s R page a).chainBase (mrChain a.r) = R.chainBase (mrChain a.r) := by
    rw [Region.chainBase, Region.chainBase, (onlyUnits_issuedIn s R page a).cfg]
  simp only [Region.globalAddrs]
  rw [show (Claim.issued a).r = a.r from rfl, hbase]
  rfl

/-! ### Lists -/

theorem eraseDups_of_forall_eq {l : List Nat} {x : Nat} (hne : l ≠ []) (h : ∀ y ∈ l, y = x) : l.eraseDups = [x] := by
  cases l with
  | nil => exact absurd rfl hne
  | cons y t =>
    obtain rfl := h y List.mem_cons_self
    have hrest : t.filter (fun z => !z == y) = [] := by
      refine List.filter_eq_nil_iff.2 fun z hz => ?_
      simp [h z (List.mem_cons_of_mem _ hz)]
    rw [List.eraseDups_cons, hrest]
    rfl

theorem nth_map {α β : Type} (d : α) (d' : β) (f : α → β) {l : List α} {i : Nat} (h : i < l.length) : nth d' (l.map f) i = f (nth d l i) := by
  simp [nth, h]

/-- The first index below `n` that meets `p`. -/
theorem find?_range_first {p : Nat → Bool} {n i : Nat} (hi : i < n) (hp : p i = true) (hlt : ∀ j, j < i → p j = false) :
    (List.range n).find? p = some i := by
  rw [List.find?_range_eq_some]
  exact ⟨hp, List.mem_range.2 hi, fun j hj => by simp [hlt j hj]⟩

/-! ### An access performed -/

section
variable {s : State} {rid page k : Nat} {R : Region} {m : Mu} {a : Access}

/-- The access of a turn: it is in the buffer of its page and may be performed. -/
structure Performable (s : State) (rid page k : Nat) (R : Region) (m : Mu) (a : Access) : Prop where
  region : s.region? rid = some R
  live : R.live = true
  mu : R.mu? page = some m
  acc : m.accs[k]? = some a
  buffered : a.st = .buffered
  may : R.mayPerform m a = true
  ready : R.releaseReady s.links.insts m a = true

theorem perform_again (h : Performable s rid page k R m a) {vals : List Nat} (hrec : recorded R m.dedup a = some vals) :
    exec (.accessPerform rid page k) s = .next ((s.metLines R a).putRegion ((R.finish s.cycle page a vals false).metAgain a)) := by
  obtain ⟨hR, hlive, hm, ha, hst, hmay, hready⟩ := h
  show execAccessPerform rid page k s = _
  simp [execAccessPerform, hR, hm, ha, hlive, hst, hmay, hready, hrec]

theorem perform_new (h : Performable s rid page k R m a) (hrec : recorded R m.dedup a = none) (hroom : m.dedupRoom a = true) :
    exec (.accessPerform rid page k) s = if a.op = 0xAE ∨ a.op = 0xAF then .next (s.putRegion (R.finish s.cycle page a [] false))
      else if mrGlobal a.r then .next (globalAccess s R page m a) else .next (sramPerform s R page a) := by
  obtain ⟨hR, hlive, hm, ha, hst, hmay, hready⟩ := h
  show execAccessPerform rid page k s = _
  simp [execAccessPerform, hR, hm, ha, hlive, hst, hmay, hready, hrec, hroom]

theorem perform_sram (h : Performable s rid page k R m a) (hrec : recorded R m.dedup a = none) (hroom : m.dedupRoom a = true)
    (h1 : a.op ≠ 0xAE) (h2 : a.op ≠ 0xAF) (hg : mrGlobal a.r = false) : exec (.accessPerform rid page k) s = .next (sramPerform s R page a) := by
  rw [perform_new h hrec hroom, if_neg (by simp [h1, h2]), if_neg (by simp [hg])]

theorem perform_global (h : Performable s rid page k R m a) (hrec : recorded R m.dedup a = none) (hroom : m.dedupRoom a = true)
    (h1 : a.op ≠ 0xAE) (h2 : a.op ≠ 0xAF) (hg : mrGlobal a.r = true) : exec (.accessPerform rid page k) s = .next (globalAccess s R page m a) := by
  rw [perform_new h hrec hroom, if_neg (by simp [h1, h2]), if_pos hg]

/-! ### On slices -/

theorem sramPerform_fault (hcheck : R.checkSram a.align a.addrs = none) (hone : oneSlice a.op = true)
    (hlen : 1 < ((a.addrs.map saPage).eraseDups).length) : sramPerform s R page a = accFault s R page a .addressRange (nth 0 a.addrs 0) false := by
  simp only [sramPerform, hcheck]
  rw [if_pos (by simp [hone, hlen])]

/-- The region with the request ports of `pages` asked by an access. -/
def askPorts (R : Region) (page : Nat) (a : Access) (pages : List Nat) : Region :=
  pages.foldl (fun R p => R.modMu p fun m => { m with portq := m.portq ++ [{ unit := ⟨page, 3⟩, acc := a.id }] }) R

theorem sramPerform_ok {R1 : Region} (hcheck : R.checkSram a.align a.addrs = none)
    (hone : oneSlice a.op = false ∨ ((a.addrs.map saPage).eraseDups).length ≤ 1)
    (hown : page ∈ (a.addrs.map saPage).eraseDups → R.performSlice s.cycle page a page = .ok R1)
    (hnot : page ∉ (a.addrs.map saPage).eraseDups → R1 = R) :
    sramPerform s R page a = s.putRegion
      (if (((a.addrs.map saPage).eraseDups).filter (· != page)).isEmpty then askPorts R1 page a (((a.addrs.map saPage).eraseDups).filter (· != page))
       else (askPorts R1 page a (((a.addrs.map saPage).eraseDups).filter (· != page))).modAcc page a.id fun x =>
        if x.st = .buffered then { x with st := .issued } else x) := by
  have hsplit : (oneSlice a.op && decide (((a.addrs.map saPage).eraseDups).length > 1)) = false := by
    rcases hone with h | h
    · simp [h]
    · simp [Nat.not_lt.2 h]
  have hres : (if ((a.addrs.map saPage).eraseDups).contains page then R.performSlice s.cycle page a page else .ok R) = .ok R1 := by
    by_cases hp : page ∈ (a.addrs.map saPage).eraseDups
    · rw [if_pos (List.contains_iff_mem.2 hp), hown hp]
    · rw [if_neg fun hc => hp (List.contains_iff_mem.1 hc), hnot hp]
  simp only [sramPerform, hcheck, hsplit, hres, Bool.false_eq_true, if_false]
  rfl

theorem sramPerform_here {R1 : Region} (hcheck : R.checkSram a.align a.addrs = none) (hne : a.addrs ≠ []) (hall : ∀ x ∈ a.addrs, saPage x = page)
    (hown : R.performSlice s.cycle page a page = .ok R1) : sramPerform s R page a = s.putRegion R1 := by
  have hpages : (a.addrs.map saPage).eraseDups = [page] := by
    refine eraseDups_of_forall_eq (by simpa using hne) fun y hy => ?_
    obtain ⟨x, hx, rfl⟩ := List.mem_map.1 hy
    exact hall x hx
  have haway : [page].filter (· != page) = [] := by simp
  rw [sramPerform_ok (R1 := R1) hcheck (.inr (by simp [hpages])) (fun _ => hown) (fun h => absurd (by simp [hpages]) h), hpages, haway]
  rfl

/-! ### On global memory -/

theorem globalAccess_checked {slot : Nat} {gas : List Nat} (hok : Claim.GlobalOk s R a slot gas) {i : Option Nat}
    (hfind : (List.range gas.length).find? (fun i => (nth none (gas.map (tlbFind m.tlb)) i).isNone) = i) :
    globalAccess s R page m a = i.elim
      (globalPerform (s.putRegion (Claim.issuedIn s R page a)) (Claim.issuedIn s R page a) page (Claim.issued a)
        ((gas.map (tlbFind m.tlb)).map (·.getD default)))
      fun i => askWalk (s.putRegion (Claim.issuedIn s R page a))
        { rid := R.rid, unit := ⟨page, 3⟩, acc := a.id, va := nth 0 gas i, rd := globalRead a.op, wr := globalWrite a.op } := by
  obtain ⟨-, -, -, rfl, hcheck, hslot⟩ := hok
  have hrange : (R.globalAddrs a).find? (fun x => decide (x ≥ 2 ^ 57)) = none :=
    List.find?_eq_none.2 fun x hx => by simpa using (hcheck x hx).1
  have halign : (R.globalAddrs a).find? (fun x => decide (x % a.align ≠ 0)) = none :=
    List.find?_eq_none.2 fun x hx => by simpa using (hcheck x hx).2
  have hissued : (if (a.op == 0xA1 || a.op == 0xAC) && !a.sent then
      (R.sendReserved s.cycle ⟨page, 3⟩ (accessSends a [] false)).modAcc page a.id fun x => { x with sent := true, st := .issued }
      else R.modAcc page a.id fun x => { x with st := .issued }) = Claim.issuedIn s R page a := by
    unfold Claim.issuedIn
    exact if_congr (by simp) rfl rfl
  unfold globalAccess
  simp only [hrange, halign, hslot, Option.isNone_some, Bool.false_eq_true, if_false, hissued, hfind]
  cases i <;> rfl

theorem globalAccess_untranslated {slot : Nat} {gas : List Nat} (hok : Claim.GlobalOk s R a slot gas) {i : Nat} (hi : i < gas.length)
    (hbefore : ∀ j, j < i → (tlbFind m.tlb (nth 0 gas j)).isSome = true) (hmiss : tlbFind m.tlb (nth 0 gas i) = none) :
    globalAccess s R page m a = askWalk (s.putRegion (Claim.issuedIn s R page a))
      { rid := R.rid, unit := ⟨page, 3⟩, acc := a.id, va := nth 0 gas i, rd := globalRead a.op, wr := globalWrite a.op } := by
  refine globalAccess_checked (i := some i) hok (find?_range_first hi ?_ fun j hj => ?_)
  · rw [nth_map 0 none _ hi, hmiss]
    rfl
  · rw [nth_map 0 none _ (by omega)]
    have hsome := hbefore j hj
    cases h : tlbFind m.tlb (nth 0 gas j)
    · rw [h] at hsome
      cases hsome
    · rfl

theorem getD_map_some (ts : List Tlb) : (ts.map some).map (fun x => x.getD default) = ts := by
  rw [List.map_map]
  exact List.map_id ts

theorem globalAccess_translated {slot : Nat} {gas pas : List Nat} {ts : List Tlb} (hok : Claim.GlobalOk s R a slot gas)
    (htr : Claim.Translated s m a gas pas ts) : globalAccess s R page m a =
      globalPerform (s.putRegion (Claim.issuedIn s R page a)) (Claim.issuedIn s R page a) page (Claim.issued a) ts := by
  obtain ⟨hmap, -, -, -⟩ := htr
  have hlen : gas.length = ts.length := by simpa using congrArg List.length hmap
  rw [globalAccess_checked (i := none) hok ?_, hmap, getD_map_some]
  · rfl
  · refine List.find?_eq_none.2 fun i hi => ?_
    have hi := List.mem_range.1 hi
    rw [hmap, nth_map default none _ (by omega)]
    exact Bool.false_ne_true

/-- A global access that is translated, permitted and aimed at targets that are there. -/
structure Permitted (s : State) (R : Region) (a : Access) (slot : Nat) (gas pas : List Nat) (ts : List Tlb) : Prop where
  slot : s.slotOf R.part = some slot
  virtual : R.globalAddrs a = gas
  physical : pas = (List.range gas.length).map fun i => (nth default ts i).paOf (nth 0 gas i)
  allowed : (List.range gas.length).find? (fun i => globalRead a.op && !(nth default ts i).r || globalWrite a.op && !(nth default ts i).w) = none
  there : (List.range gas.length).find? (fun i => !windowOk s (nth 0 pas i) (globalWrite a.op)) = none

theorem permitted_issued {slot : Nat} {gas pas : List Nat} {ts : List Tlb} (hok : Claim.GlobalOk s R a slot gas)
    (htr : Claim.Translated s m a gas pas ts) :
    Permitted (s.putRegion (Claim.issuedIn s R page a)) (Claim.issuedIn s R page a) (Claim.issued a) slot gas pas ts := by
  obtain ⟨-, -, -, hgas, -, hslot⟩ := hok
  obtain ⟨hmap, hpas, hperm, hwindow⟩ := htr
  have hlen : gas.length = ts.length := by simpa using congrArg List.length hmap
  refine ⟨?_, (globalAddrs_issued s R page a).trans hgas.symm, hpas, ?_, ?_⟩
  · rw [(onlyUnits_issuedIn s R page a).part]
    exact hslot
  · refine List.find?_eq_none.2 fun i hi => ?_
    have hi := List.mem_range.1 hi
    have hmem : nth default ts i ∈ ts := by
      rw [nth, List.getD_eq_getElem?_getD, List.getElem?_eq_getElem (by omega), Option.getD_some]
      exact List.getElem_mem _
    obtain ⟨hr, hw⟩ := hperm _ hmem
    simp only [Bool.or_eq_true, Bool.and_eq_true, Bool.not_eq_true', not_or, not_and, Bool.not_eq_false]
    exact ⟨hr, hw⟩
  · refine List.find?_eq_none.2 fun i hi => ?_
    have hi := List.mem_range.1 hi
    have hmem : nth 0 pas i ∈ pas := by
      rw [nth, List.getD_eq_getElem?_getD, List.getElem?_eq_getElem (by rw [hpas]; simpa using hi), Option.getD_some]
      exact List.getElem_mem _
    have hthere : windowOk (s.putRegion (Claim.issuedIn s R page a)) (nth 0 pas i) (globalWrite a.op) = true := hwindow _ hmem
    show ¬ (!windowOk (s.putRegion (Claim.issuedIn s R page a)) (nth 0 pas i) (globalWrite a.op)) = true
    rw [hthere]
    exact Bool.false_ne_true

theorem globalPerform_load {slot : Nat} {gas pas : List Nat} {ts : List Tlb} (h : Permitted s R a slot gas pas ts) (hop : a.op ∈ [0xA0, 0xA2])
    (hheld : R.heldUntranslated = false) (hblock : ∀ pa ∈ pas, provBlocks s (some R.keyRid) pa = false) :
    globalPerform s R page a ts = s.putRegion (R.finish s.cycle page
      (a.withErr (pas.any fun pa => viewBad s R pa || (a.r.fmt.pair && viewBad s R (pa + 4))))
      (pas.map fun pa => (viewWord s R slot pa).toNat + (if a.r.fmt.pair then 2 ^ 32 * (viewWord s R slot (pa + 4)).toNat else 0)) false) := by
  obtain ⟨hslot, rfl, rfl, hallowed, hthere⟩ := h
  have hblock' : (List.any ((List.range (R.globalAddrs a).length).map fun i => (nth default ts i).paOf (nth 0 (R.globalAddrs a) i))
      fun pa => provBlocks s (some R.keyRid) pa) = false := by
    rw [List.any_eq_false]
    exact fun pa hpa => by rw [hblock pa hpa]; exact Bool.false_ne_true
  have hload : (decide (a.op = 0xA0) || decide (a.op = 0xA2)) = true := by simpa using hop
  simp only [globalPerform, hslot, hallowed, hthere, hheld, hload, hblock', Bool.false_and, Bool.false_eq_true, if_false, if_true]

theorem globalPerform_hold {slot : Nat} {gas pas : List Nat} {ts : List Tlb} (h : Permitted s R a slot gas pas ts) (hop : a.op ∈ [0xA1, 0xA3, 0xAC])
    (hroom : R.sidingRoom s.self (R.muSiding page) a.hdr.round
      ((R.holdAll (R.muSiding page) a gas pas).heldIn (R.muSiding page) - R.heldIn (R.muSiding page)) = .room) :
    globalPerform s R page a ts =
      s.putRegion ((R.holdAll (R.muSiding page) a gas pas).finish s.cycle page a (List.replicate a.count 0) false) := by
  obtain ⟨hslot, rfl, rfl, hallowed, hthere⟩ := h
  have hzeros : (List.range a.count).map (fun _ => 0) = List.replicate a.count 0 := by simp
  have hread : globalRead a.op = false := by
    simp only [List.mem_cons, List.not_mem_nil, or_false] at hop
    rcases hop with h | h | h <;> rw [h] <;> rfl
  have hload : (decide (a.op = 0xA0) || decide (a.op = 0xA2)) = false := by
    simp only [List.mem_cons, List.not_mem_nil, or_false] at hop
    rcases hop with h | h | h <;> rw [h] <;> rfl
  have hstore : (decide (a.op = 0xA1) || decide (a.op = 0xA3) || decide (a.op = 0xAC)) = true := by simpa [or_assoc] using hop
  rw [hread] at hallowed
  simp only [globalPerform, hslot, hread, hallowed, hthere, hload, hstore, hroom, hzeros, Bool.and_false, Bool.false_eq_true, if_false, if_true]

theorem globalPerform_home {slot : Nat} {gas pas : List Nat} {ts : List Tlb} (h : Permitted s R a slot gas pas ts) (hop : a.op ∈ [0xAA, 0xAB, 0xAD])
    (hheld : R.heldUntranslated = false) :
    globalPerform s R page a ts = { (s.putRegion (R.modAcc page a.id fun x => { x with st := .home })) with
      home := { s.home with queue := s.home.queue ++ [{ key := s.slotKey slot, rid := R.rid, page := page, acc := a.id, pas := pas }] } } := by
  obtain ⟨hslot, rfl, rfl, hallowed, hthere⟩ := h
  have hload : (decide (a.op = 0xA0) || decide (a.op = 0xA2)) = false := by
    simp only [List.mem_cons, List.not_mem_nil, or_false] at hop
    rcases hop with h | h | h <;> rw [h] <;> rfl
  have hstore : (decide (a.op = 0xA1) || decide (a.op = 0xA3) || decide (a.op = 0xAC)) = false := by
    simp only [List.mem_cons, List.not_mem_nil, or_false] at hop
    rcases hop with h | h | h <;> rw [h] <;> rfl
  simp only [globalPerform, hslot, hallowed, hthere, hheld, hload, hstore, Bool.false_and, Bool.false_eq_true, if_false]

end

/-! ### Retirement, waiters and the request port -/

theorem retire_in_turn {s : State} {rid page k : Nat} {R R3 : Region} {m : Mu} {a : Access} {U : Site} {es : Sends} (hR : s.region? rid = some R)
    (hlive : R.live = true) (hm : R.mu? page = some m) (ha : m.accs[k]? = some a) (hst : a.st = .performed) (hturn : R.inTurn m a = true)
    (htail : mrTail a.r = false)
    (hfw : (R.modMu page fun x => { x with
      accs := delNth x.accs k
      waves := m.waves.map fun w =>
        if w.chain == mrChain a.r && w.tag == a.hdr.tag && w.frame == a.hdr.frame then { w with last := some (mrOwn a.r) } else w
      iters := m.iters }).forwards ⟨page, 3⟩ a.node.toNat a.op a.r = (es, R3))
    (hU : R3.unit? ⟨page, 3⟩ = some U) (hsend : U.canSend es = true) :
    exec (.accessRetire rid page k) s = .next (s.putRegion (R3.sendNow s.cycle ⟨page, 3⟩ es)) := by
  have hopen : a.open = false := by simp [Access.open, hst]
  show execAccessRetire rid page k s = _
  simp only [execAccessRetire, hR, hm, ha, hlive, hopen, hturn, htail, Bool.false_and, Bool.not_true, Bool.or_false, Bool.false_eq_true, if_false,
    hfw, hU, hsend, if_true]

/-- Settles O21: the buffer's events are the branches of the access's own function, taken one by one. -/
theorem accessEventsComplete : Obligations.AccessEventsComplete := by
  intro s rid page k R R1 m a hR hlive hm ha
  refine ⟨fun hst hmay hready => ?_, fun es R3 U hst hturn htail => ?_, fun q rest hq hlen hunit hacc => ?_, fun q rest b hq hown hb hperf => ?_⟩
  · have hp : Performable s rid page k R m a := ⟨hR, hlive, hm, ha, hst, hmay, hready⟩
    refine ⟨fun vals hrec => perform_again hp hrec, fun hrec hroom => ⟨fun hop => ?_, fun h1 h2 hg hcheck hne hall hperf => ?_,
      fun h1 h2 hg hcheck => ?_, fun slot gas pas ts hok => ?_⟩⟩
    · rw [perform_new hp hrec hroom, if_pos hop]
    · rw [perform_sram hp hrec hroom h1 h2 hg, sramPerform_here hcheck hne hall hperf]
    · intro pages away
      refine ⟨fun hone hlen => ?_, fun hone haway hperf hnot => ?_⟩
      · rw [perform_sram hp hrec hroom h1 h2 hg, sramPerform_fault hcheck hone hlen]
      · intro R2
        rw [perform_sram hp hrec hroom h1 h2 hg, sramPerform_ok hcheck hone hperf hnot, if_neg (fun h => haway (List.isEmpty_iff.1 h))]
        rfl
    · intro R2 s2
      have hkind := hok
      obtain ⟨hg, h1, h2, -, -, -⟩ := hkind
      have hexec := perform_global hp hrec hroom h1 h2 hg
      refine ⟨fun i hi hbefore hmiss => ?_, fun htr => ?_⟩
      · rw [hexec, globalAccess_untranslated hok hi hbefore hmiss]
      · have hper := permitted_issued (page := page) hok htr
        rw [globalAccess_translated hok htr] at hexec
        refine ⟨fun hop => ?_, fun hop hheld hblock => ?_, fun hop hheld => ?_⟩
        · intro sd R4 hroom'
          rw [hexec, globalPerform_hold hper hop hroom']
          rfl
        · intro word hit
          rw [hexec, globalPerform_load hper hop hheld hblock]
          rfl
        · rw [hexec, globalPerform_home hper hop hheld, (onlyUnits_issuedIn s R page a).rid]
          rfl
  · intro mine R2 hfw hU hsend
    exact retire_in_turn hR hlive hm ha hst hturn htail hfw hU hsend
  · intro R2 hfind hperf
    show execWaiterRetry rid page s = _
    have hfind' : (R.modMu page fun m => { m with refused := rest }).acc? q.unit.page q.acc = some a := by rw [hunit, hacc]; exact hfind
    have hperf' : (R.modMu page fun m => { m with refused := rest }).performSlice s.cycle q.unit.page a page = .ok R1 := by rw [hunit]; exact hperf
    have hroom : (!R.live || decide (m.waiters.length ≥ 64)) = false := by simp [hlive, hlen]
    simp only [execWaiterRetry, hR, hm, hroom, hq, hfind', hperf', Bool.false_eq_true, if_false]
  · show execMuRequestPortServe rid page s = _
    simp only [execMuRequestPortServe, hR, hm, hlive, hown, hq, hb, hperf, Option.bind_some, List.head?_cons]
    rfl

end Sys2Proof
end

section
/-! SUPPORT. The home agents (O22): a read-modify-write, the report of a dropped contribution, the end of a reservation. -/

namespace Sys2Proof
open Machine

theorem agentsHold_of_le {cap : Nat} {lines : List Nat} (h : lines.length ≤ cap) : agentsHold cap lines = true := by simp [agentsHold, h]

theorem length_eraseDups_le (l : List Nat) : l.eraseDups.length ≤ l.length := by
  obtain ⟨n, hn⟩ : ∃ n, l.length = n := ⟨_, rfl⟩
  induction n using Nat.strong_induction_on generalizing l with
  | _ n ih =>
    cases l with
    | nil => rfl
    | cons a t =>
      have hrest := List.length_filter_le (fun b => !b == a) t
      rw [List.length_cons] at hn
      rw [List.eraseDups_cons, List.length_cons, List.length_cons]
      have := ih (t.filter fun b => !b == a).length (by omega) _ rfl
      omega

/-- The state after a read-modify-write of one word at its home agent. -/
theorem rmwValue_atom {s : State} {rid slot pa : Nat} {a : Access} {R : Region} (hR : s.region? rid = some R) (hop : a.op = 0xAA)
    (hpair : a.r.fmt.pair = false) (hbad : viewBad s R pa = false) (i : Nat) :
    (∀ w off, targetOf s pa = .peer w off → rmwValue s rid slot a i pa = (s.toPeer R.part w (a.atomicBody i off), plainWord s R slot pa, false)) ∧
    ((∀ w off, targetOf s pa ≠ .peer w off) → rmwValue s rid slot a i pa =
      (memWrite (s.takeUp rid a.hdr.round pa 1) (keyFor s slot pa) pa
        (toBytes a.bytes (atomNew (mrOpx a.r) a.r.fmt (plainWord s R slot pa) (accData a.r.fmt a.operands 1 i))), plainWord s R slot pa, false)) := by
  have hnot : ¬ a.op = 0xAD := by rw [hop]; decide
  have hbad0 : (List.range 1).any (fun k => viewBad s R (pa + 4 * k)) = false := by simp [hbad]
  refine ⟨fun w off htarget => ?_, fun hno => ?_⟩
  · simp only [rmwValue, htarget, hR, Option.getD_some, if_neg hnot, hpair, Bool.false_eq_true, if_false]
    rfl
  · have hnew (old : Nat) : rmwNew a i old = some (atomNew (mrOpx a.r) a.r.fmt old (accData a.r.fmt a.operands 1 i)) := if_pos hop
    cases htarget : targetOf s pa
    case peer w off => exact absurd htarget (hno w off)
    all_goals
      simp only [rmwValue, htarget, hR, Option.getD_some, if_neg hnot, hpair, Bool.false_eq_true, if_false, hnew, hbad0]
      rfl

theorem homeValues_one {s : State} {R : Region} {a : Access} {q : HomeReq} {pa : Nat} (hpas : q.pas = [pa])
    (hnew : s.home.dedup.find? (fun d => d.key == R.keyOf a 0) = none) {t : State} {old : Nat}
    (hval : rmwValue s R.rid (64 + q.key) a 0 pa = (t, old, false)) : homeValues s R a q = (t, [old], []) := by
  have hrange : List.range q.pas.length = [0] := by rw [hpas]; rfl
  have hpa : nth 0 q.pas 0 = pa := by rw [hpas]; rfl
  simp only [homeValues, hrange, List.foldl_cons, List.foldl_nil, hpa, hnew, hval]
  rfl

/-- The keys that a read-modify-write leaves, one for each value. -/
theorem dedupOf_atom {R : Region} {a : Access} (hop : a.op = 0xAA) (old : Nat) :
    R.dedupOf a [old] = [{ key := R.keyOf a 0, line := 0, value := some (BitVec.ofNat 64 old), args := a.args }] := by
  have hside : sideEffect a.op = true := by rw [hop]; decide
  have hret : returnsValues a.op = true := by rw [hop]; decide
  simp [Region.dedupOf, hside, hret, nth]

section
variable {s : State} {k pa : Nat} {q : HomeReq} {R : Region} {a : Access}

/-- The home agents' state with the line of a read-modify-write provisional for its region. -/
def provisional (s : State) (k pa : Nat) (R : Region) (a : Access) : State :=
  State.metLines { s with home := { s.home with
    queue := delNth s.home.queue k
    prov := s.home.prov ++ [{ kept := [], wrote := false, line := pa / 64, rid := R.keyRid, round := a.hdr.round, old := lineBytes s (pa / 64),
                              oldKey := ownerOf s.owners (pa / 64) }] } } R a

/-- The home agents' state with the key of a read-modify-write kept (R232). -/
def keptKeys (t : State) (R : Region) (a : Access) (pa old : Nat) : State :=
  { t with home := { t.home with dedup := t.home.dedup ++ ((R.dedupOf a [old]).map fun d => { d with line := nth 0 [pa] d.key.idx / 64 }) } }

theorem homeAgentRmw_new (hq : s.home.queue[k]? = some q) (hR : s.region? q.rid = some R) (ha : R.acc? q.page q.acc = some a) (hop : a.op = 0xAA)
    (hpas : q.pas = [pa]) (hkey : ∀ d ∈ s.home.dedup, d.key ≠ R.keyOf a 0) (hblock : provBlocks s (some R.keyRid) pa = false)
    (hheld : R.heldUntranslated = false) (hprov : ∀ p ∈ s.home.prov, ¬ (p.line = pa / 64 ∧ p.rid = R.keyRid ∧ p.round = a.hdr.round))
    (hprovs : s.home.prov.length < 32) (hdedups : s.home.dedup.length < 8192) {t : State} {old : Nat}
    (hval : rmwValue (provisional s k pa R a) R.rid (64 + q.key) a 0 pa = (t, old, false)) :
    exec (.homeAgentRmw k) s = .next ((keptKeys t R a pa old).modRegion R.rid fun Q => Q.finish s.cycle q.page (a.withErr false) [old] false) := by
  have hknown : s.home.dedup.find? (fun d => d.key == R.keyOf a 0) = none :=
    List.find?_eq_none.2 fun d hd => by simpa using hkey d hd
  have hrange : List.range q.pas.length = [0] := by rw [hpas]; rfl
  have hpa : nth 0 q.pas 0 = pa := by rw [hpas]; rfl
  have hlines : [pa / 64].eraseDups = [pa / 64] := rfl
  have hnone : (s.home.prov.any fun p => p.line == pa / 64 && p.rid == R.keyRid && p.round == a.hdr.round) = false := by
    refine List.any_eq_false.2 fun p hp => ?_
    simpa [and_assoc] using hprov p hp
  have hroom : s.home.provRoom [pa / 64] = true := by
    refine agentsHold_of_le ((length_eraseDups_le _).trans ?_)
    simpa using Nat.succ_le_of_lt hprovs
  have hdroom : s.home.dedupRoom [pa / 64] = true := agentsHold_of_le (by simpa using Nat.succ_le_of_lt hdedups)
  have hvalues : homeValues (provisional s k pa R a) R a q = (t, [old], []) := homeValues_one (s := provisional s k pa R a) hpas hknown hval
  have hidx : (R.keyOf a 0).idx = 0 := rfl
  show execHomeAgentRmw k s = _
  simp only [execHomeAgentRmw, hq, hR, ha, hrange, List.any_cons, List.any_nil, hknown, Option.any_none, Bool.or_false]
  split
  · next h => cases h
  · simp only [List.filter_cons, List.filter_nil, hknown, Option.isNone_none, if_true, List.map_cons, List.map_nil, hpa, List.any_cons, List.any_nil,
      hblock, hheld, Bool.or_false, hlines, hroom, hdroom, Bool.not_true, Bool.and_false, Bool.false_eq_true, if_false,
      List.filterMap_cons, List.filterMap_nil, hnone]
    rw [provisional] at hvalues
    simp only [hvalues, dedupOf_atom hop, List.filter_cons, List.filter_nil, hidx, hpas]
    rw [keptKeys, dedupOf_atom hop]
    rfl

end

/-- Settles O22. -/
theorem homeAgentEventsComplete : Obligations.HomeAgentEventsComplete := by
  refine ⟨fun s k pa slot q R a hq hR ha hop hpair hpas hkey hslot hblock hheld hprov hprovs hdedups => ?_, fun s c rest R hreports hR => ?_,
    fun s h hh line since hresv hdue => ?_⟩
  · intro p s1 hbad old s2 keys s3
    have hrid : R.rid = q.rid := region?_rid hR
    have hregion : s1.region? R.rid = some R := by rw [hrid]; exact hR
    obtain ⟨hpeer, hhere⟩ := rmwValue_atom (slot := 64 + q.key) hregion hop hpair hbad 0
    have hval : rmwValue s1 R.rid (64 + q.key) a 0 pa = (s2, old, false) := by
      subst hslot
      cases htarget : targetOf s pa
      case peer w off => simpa only [s2, htarget] using hpeer w off htarget
      all_goals
        have h := hhere fun w off e => by cases htarget.symm.trans e
        simpa only [s2, htarget] using h
    exact homeAgentRmw_new hq hR ha hop hpas hkey hblock hheld hprov hprovs hdedups hval
  · show execHomeAgentOrdinalReport s = _
    simp only [execHomeAgentOrdinalReport, hreports]
    rw [hR]
  · show execReservationExpiry h s = _
    simp only [execReservationExpiry, if_neg (Nat.not_le.2 hh), hresv, hdue]
    rfl

end Sys2Proof
end

section
/-! SUPPORT. The streamers (O23, O24): the take of a stream record, the two passes, SFEED's packets, the completion. -/

namespace Sys2Proof
open Machine

theorem exec_of_strRow {i : Instr} {op : Nat} {r : Rec} (h : Claim.strRow i = some (op, r)) (s : State) : exec i s = .next (strExec s op r) := by
  cases i
  all_goals try exact elim_none h
  all_goals cases h
  all_goals rfl

theorem commitIsland_ok {s : State} {rid : Nat} {k : Take} {R : Region} {U : Site} {es : Sends} (hU : R.unit? k.u = some U)
    (hsend : U.canSend es = true) : commitIsland s rid k (.ok es R) = s.putRegion (R.sendNow s.cycle k.u es) := by
  simp [commitIsland, hU, hsend]

/-- The unit of an island's take is the one that stands in its region. -/
theorem unit?_of_islandServed {s : State} {rid : Nat} {k : Take} (h : Claim.IslandServed s rid k) : k.R.unit? k.u = some k.U := by
  rw [Claim.IslandServed, State.islandTaking] at h
  split at h
  · split at h
    · cases h
    · split at h
      · cases h
      · split at h
        · cases h
        · simp only [Option.map_eq_some_iff, Prod.mk.injEq] at h
          obtain ⟨V, hV, rfl, rfl⟩ := h
          exact (Option.filter_eq_some_iff.1 hV).1
  · cases h

theorem modStr_congr {R : Region} {u : UnitId} {U : Site} {x : Str} {f g : Str → Str} (hU : R.unit? u = some U) (hx : U.str? = some x)
    (h : f x = g x) : R.modStr u f = R.modStr u g := by
  refine modUnit_congr fun V hV => ?_
  obtain rfl : V = U := Option.some.inj (hV.symm.trans hU)
  cases he : V.eng <;> simp only [Site.str?, he] at hx ⊢
  cases hx
  rw [h]

theorem strExec_begins {s : State} {rid op : Nat} {k : Take} {r : Rec} {x : Str} (hserved : Claim.IslandServed s rid k) (hx : k.U.str? = some x)
    (herr : k.t.err = false) (hlen : trigMin op ≤ k.t.len.toNat) (hroom : x.ops.length < 8) (hsend : k.U.canSend (strReserve op r k.t) = true) :
    strExec s op r = s.putRegion ((k.R.modStr k.u fun y =>
      { y with ops := y.ops ++ [Claim.strOpOf k x.nextId op r], nextId := y.nextId + 1 }).modUnit k.u fun U =>
      { U with credits := spend U.credits (strReserve op r k.t) }) := by
  have hfull : (decide (x.ops.length ≥ 8) || !k.U.canSend (strReserve op r k.t)) = false := by simp [hroom, hsend]
  simp only [strExec, hserved, hx, herr, Bool.false_and, Bool.not_false, Bool.true_and, decide_eq_true_eq, Nat.not_lt.2 hlen, if_false, hfull,
    Bool.false_eq_true]
  rfl

/-- Settles O23: a stream record takes its slot, SXLAT answers at its take. -/
theorem streamRecordsComplete : Obligations.StreamRecordsComplete := by
  intro s rid k r hserved
  refine ⟨fun i op x hrow hx herr hlen hroom hsend => ?_, fun n e U hlen herr hwords => ?_⟩
  · rw [exec_of_strRow hrow, strExec_begins hserved hx herr hlen hroom hsend]
    refine congrArg (fun (R : Region) => Host.Outcome.next (s.putRegion (R.modUnit k.u fun U => { U with credits := spend U.credits (strReserve op r k.t) }))) ?_
    exact modStr_congr (unit?_of_islandServed hserved) hx rfl
  · intro out hU hsend
    have hn : (k.t.len.toNat + 1) / 2 = n + 1 := by omega
    have hodd : ¬ k.t.len.toNat % 2 = 0 := by omega
    show execSxlat r s = _
    simp only [execSxlat, hserved, herr, hn, hodd, hwords, Bool.false_eq_true, if_false, Bool.or_false, Nat.add_sub_cancel]
    exact congrArg Host.Outcome.next (commitIsland_ok hU hsend)

section
variable {s : State} {rid k : Nat} {u : UnitId} {R : Region} {U : Site} {x : Str} {o : StrOp}

theorem winding_of_live (h : R.live = true) : R.winding = true := by simp [Region.winding, h]

theorem pass1_done {slot : Nat} {pins : List Tlb} {es : Sends} {o1 : StrOp} (hR : s.region? rid = some R) (hlive : R.live = true)
    (hU : R.unit? u = some U) (hx : U.str? = some x) (ho : x.ops[k]? = some o) (hst : o.st = .pass1) (hslot : s.slotOf R.part = some slot)
    (ho1 : o1 = { o with index := if o.index.isEmpty then R.indexList (U.shapeOf o.r) o.op o.trig.tok else o.index })
    (hpass : pass1Over s R x.tlb (x.pageRoom o.id) (streamAddrs R (U.shapeOf o.r) o.op o.r o.trig.tok o1.index) o.pins = .ok pins)
    (hblock : streamBlocked s R (U.shapeOf o.r) o1 pins = false) (hes : strSends R o 0 false = .ok es) :
    exec (.streamPass1Done rid u k) s = .next (s.putRegion (R.modStr u fun x => { x with ops := x.ops.set k { o1 with
      st := .pass2, pins := pins, data := streamRead s R slot (U.shapeOf o.r) o1 pins, bad := streamBad s R (U.shapeOf o.r) o1 pins } })) := by
  have ho1' : (if o.index.isEmpty = true then { o with index := R.indexList (U.shapeOf o.r) o.op o.trig.tok } else o) = o1 := by
    rw [ho1]
    split <;> rfl
  have hgo : (!R.live || o.st != .pass1) = false := by simp [hlive, hst]
  show execStreamPass1Done rid u k s = _
  simp only [execStreamPass1Done, hR, hU, hx, Option.bind_some, Option.map_some, ho, hgo, hslot, ho1', hpass, hblock, hes, Bool.false_eq_true, if_false]

theorem sfeed_sends {t : Token} (hR : s.region? rid = some R) (hlive : R.live = true) (hU : R.unit? u = some U) (hx : U.str? = some x)
    (ho : x.ops[k]? = some o) (hop : o.op = 0xC2) (hst : o.st = .pass2) (hfed : o.fed < feedCount o) (ht : feedPacket R.cfg.tw o o.fed = .ok t)
    (hd : o.r.d0 ≠ noDest) (hsend : U.canSend [(o.r.d0, t)] = true) :
    exec (.sfeedPacket rid u k) s = .next (s.putRegion ((R.sendNow s.cycle u [(o.r.d0, t)]).modStr u fun x =>
      { x with ops := x.ops.set k { o with fed := o.fed + 1 } })) := by
  have hgo : (!(R.live || (R.draining && R.winding)) || decide (o.op ≠ 0xC2) || o.st != .pass2 || decide (o.fed ≥ feedCount o)) = false := by
    simp [hlive, hop, hst, hfed]
  have hes : ([(o.r.d0, t)] : Sends).filter (fun p => p.1 != noDest) = [(o.r.d0, t)] := by simp [hd]
  have hisland : R.islandSend s.cycle u [(o.r.d0, t)] = some (R.sendNow s.cycle u [(o.r.d0, t)]) := by simp [Region.islandSend, hU, hsend]
  show execSfeedPacket rid u k s = _
  simp only [execSfeedPacket, hR, hU, hx, Option.bind_some, ho, hgo, ht, hes, hisland, Bool.false_eq_true, if_false]

theorem stream_completes {R1 : Region} {es : Sends} (hR : s.region? rid = some R) (hlive : R.live = true) (hU : R.unit? u = some U)
    (hx : U.str? = some x) (ho : x.ops[k]? = some o) (hop : o.op ≠ 0xC2) (hst : o.st = .pass2) (hfirst : ∀ p ∈ x.ops, p.node = o.node → o.id ≤ p.id)
    (herr : o.trig.tok.err = false) (hperf : streamPerform s R U o = .ok R1)
    (hes : strSends R o (o.data.length - o.bad.length) (!o.bad.isEmpty) = .ok es) :
    exec (.streamComplete rid u k) s = .next (s.putRegion (((if !o.bad.isEmpty && es.isEmpty then R1.raiseErr u { o.trig.tok with node := o.node }
      else R1).modStr u fun x => { x with ops := x.ops.filter fun p => p.id != o.id }).endOperation s.cycle u es)) := by
  have hearly : (!o.r.m && x.ops.any fun p => p.node == o.node && decide (p.id < o.id) && (p.st == .pass2 || !R.draining)) = false := by
    rw [Bool.and_eq_false_iff, List.any_eq_false]
    refine .inr fun p hp => ?_
    by_cases hn : p.node = o.node
    · simp [Nat.not_lt.2 (hfirst p hp hn)]
    · simp [hn]
  have hop' : (o.op == 0xC2) = false := by simpa using hop
  have hop'' : (o.op != 0xC2) = true := by simpa using hop
  show execStreamComplete rid u k s = _
  simp only [execStreamComplete, hR, hU, hx, Option.bind_some, Option.map_some, ho, hearly, winding_of_live hlive, hst, hop, hop', hop'', herr, hperf,
    hes, Bool.false_or, Bool.or_false, Bool.true_and, Bool.not_true, bne_self_eq_false, decide_false, Bool.false_and, Bool.false_eq_true, if_false]

end

/-- Settles O24: pass 1, a packet and the completion each follow one branch of their event. -/
theorem streamEventsComplete : Obligations.StreamEventsComplete := by
  intro s rid u k R R1 U x o hR hlive hU hx ho
  refine ⟨fun slot pins es hst hslot => ?_, fun t hop hst hfed ht hd hsend => sfeed_sends hR hlive hU hx ho hop hst hfed ht hd hsend,
    fun es hop hst hfirst herr hperf => ?_⟩
  · intro h o1 hpass hblock hes
    exact pass1_done hR hlive hU hx ho hst hslot rfl hpass hblock hes
  · intro lost hes
    exact stream_completes hR hlive hU hx ho hop hst hfirst herr hperf hes

end Sys2Proof
end

section
/-! SUPPORT. The matrix islands (O25, O26): the acceptance of an operation, and what becomes of an accepted one. -/

namespace Sys2Proof
open Machine

/-- A key that the island does not hold is found at no entry of its key store. -/
theorem find?_is_of_newKey {ks : List IKey} {k : Take} {hdr : Token} {p : List W32} (h : Claim.NewKey ks (Claim.keyOf k hdr p)) :
    (ks.find? fun y => y.is k.t.node hdr) = none := by
  rw [List.find?_eq_none]
  intro y hy hfound
  simp only [IKey.is, Bool.and_eq_true, beq_iff_eq] at hfound
  obtain ⟨⟨⟨⟨hnode, htag⟩, hframe⟩, hround⟩, hseq⟩ := hfound
  exact h y hy ⟨hnode, htag, hframe, hround, hseq⟩

theorem headerOf_one_err (t : Token) : (headerOf [t] .n32).err = t.err := by simp [headerOf, outToken]

section
variable {k : Take} {x : Mxi} {op : Nat} {r : Rec} {ops : List Token}

/-- An operation with a free slot, room for its key and a credit on each destination route is accepted (R306). -/
theorem mxiAccept_new {R : Region} (hslots : x.ops.length < 8) (hkeys : x.keys.length < 256) (herr : (headerOf ops .n32).err = false)
    (hnew : Claim.NewKey x.keys (Claim.keyOf k (headerOf ops .n32) []))
    (hsend : k.U.canSend (sendsOf r (headerOf ops .n32) (headerOf ops .n32)) = true) (hchecks : R.mxiChecks k.U x op r ops = none) :
    R.mxiAccept k x op r ops = .ok (Claim.mxiAccepted R k op r ops x.nextId) (Claim.mxiOpOf k x.nextId op r ops) := by
  have hheld := find?_is_of_newKey hnew
  have hready : (decide (x.ops.length ≥ 8) || (true && decide (x.keys.length ≥ 256))
      || !k.U.canSend (sendsOf r (headerOf ops .n32) (headerOf ops .n32))) = false := by
    simp [Nat.not_le.2 hslots, Nat.not_le.2 hkeys, hsend]
  simp only [Region.mxiAccept, hheld, Option.isNone_none, hready, herr, hchecks, Option.isSome_none, Bool.or_self, Bool.false_eq_true, if_false,
    Option.map_none]
  rfl

theorem mxiExec_one {s : State} {rid : Nat} (hserved : Claim.IslandServed s rid k) (hx : k.U.mxi? = some x) (hop : isMma op = false)
    (hacc : k.R.mxiAccept k x op r [k.t] = .ok (Claim.mxiAccepted k.R k op r [k.t] x.nextId) (Claim.mxiOpOf k x.nextId op r [k.t])) :
    mxiExec s op r = ((if op = 0xD2 then mzeroApply (s.putRegion (Claim.mxiAccepted k.R k op r [k.t] x.nextId))
        (Claim.mxiAccepted k.R k op r [k.t] x.nextId) k.u (Claim.mxiOpOf k x.nextId op r [k.t])
      else if op = 0xD5 || op = 0xD6 then powerApply (s.putRegion (Claim.mxiAccepted k.R k op r [k.t] x.nextId))
        (Claim.mxiAccepted k.R k op r [k.t] x.nextId) k.u (Claim.mxiOpOf k x.nextId op r [k.t]) false else none).getD
      (s.putRegion (Claim.mxiAccepted k.R k op r [k.t] x.nextId))) := by
  simp only [mxiExec, hserved, hx, hop, hacc, Bool.false_eq_true, if_false]

/-- A record with one trigger passes the checks of acceptance where the trigger is long enough (R302, R318). -/
theorem mxiChecks_one {R : Region} {U : Site} (hop : op = 0xD2 ∨ op = 0xD3 ∨ op = 0xD4 ∨ op = 0xD5 ∨ op = 0xD6)
    (hlen : nth 0 (minLens op) 0 ≤ k.t.len.toNat) : R.mxiChecks U x op r [k.t] = none := by
  have htok : opTok [k.t] 0 = k.t := rfl
  have hlong : ((List.range (minLens op).length).any fun p => (opTok [k.t] p).len.toNat < nth 0 (minLens op) p) = false := by
    have hone : (minLens op).length = 1 := by rcases hop with rfl | rfl | rfl | rfl | rfl <;> rfl
    simpa [hone, htok] using hlen
  have hnomma : isMma op = false := by rcases hop with rfl | rfl | rfl | rfl | rfl <;> rfl
  simp only [Region.mxiChecks, hlong, hnomma, Bool.false_eq_true, if_false]

theorem mxiExec_fires {s : State} {rid ports : Nat} {items : List MItem} (hserved : Claim.IslandServed s rid k) (hx : k.U.mxi? = some x)
    (hop : op = 0xD0 ∧ ports = 2 ∨ op = 0xD1 ∧ ports = 4)
    (hfire : matchGroup x.store (mxOff r + inner k.R.cfg.tw k.t.tag % (mxLb r + 1)) ports k.t = .fire ops items)
    (hacc : (k.R.modMxi k.u fun x => { x with store := items }).mxiAccept k x op r ops =
      .ok (Claim.mxiAccepted (k.R.modMxi k.u fun x => { x with store := items }) k op r ops x.nextId) (Claim.mxiOpOf k x.nextId op r ops)) :
    mxiExec s op r = s.putRegion (Claim.mxiAccepted (k.R.modMxi k.u fun x => { x with store := items }) k op r ops x.nextId) := by
  rcases hop with ⟨rfl, rfl⟩ | ⟨rfl, rfl⟩
  all_goals
    simp only [mxiExec, hserved, hx]
    simp [hfire, hacc, isMma]

end

theorem exec_of_mxiRow {i : Instr} {op : Nat} {r : Rec} (h : Claim.mxiRow i = some (op, r)) (s : State) :
    exec i s = .next (mxiExec s op r) ∧ (op = 0xD3 ∨ op = 0xD4) := by
  cases i
  all_goals try exact elim_none h
  all_goals cases h
  · exact ⟨rfl, .inl rfl⟩
  · exact ⟨rfl, .inr rfl⟩

section
variable {s : State} {R : Region} {u : UnitId} {o : MxiOp} {y z : Mxi}

theorem mzeroApply_clears (hy : (R.unit? u).bind (·.mxi?) = some y) (hsend : y.mySend o = true) (hidle : o.idle = false) (hbusy : y.accBusy o = false)
    (hbad : y.bad.contains (mxAcc o.r) = false ∨ y.copied (mxAcc o.r) o.hdr.round = true) (hcopy : y.copyAcc (mxAcc o.r) o.hdr.round = .ok z) :
    mzeroApply s R u o = some (s.putRegion ((R.modMxi u fun _ => { z with
      accs := modNth z.accs (mxAcc o.r) fun _ => { i32 := decide (o.r.fmt = .i32), c := [], exc := [] }
      bad := z.bad.filter (· != mxAcc o.r) }).mxiComplete s.cycle u o false false)) := by
  have hclear : (y.bad.contains (mxAcc o.r) && !y.copied (mxAcc o.r) o.hdr.round) = false := by
    rcases hbad with h | h <;> simp only [h, Bool.false_and, Bool.not_true, Bool.and_false]
  simp only [mzeroApply, hy, hsend, hidle, hbusy, hclear, hcopy, Bool.not_true, Bool.false_eq_true, if_false]

theorem powerApply_done {go : Bool} (hy : (R.unit? u).bind (·.mxi?) = some y) (hsend : y.mySend o = true) (hidle : o.idle = false)
    (hfeeds : o.op = 0xD6 → y.feeds o (mxQm o.r) = false)
    (hnext : (if o.op = 0xD5 then y.awake ||| mxQm o.r else y.awake &&& ~~~ mxQm o.r) = y.awake) :
    powerApply s R u o go = some (s.putRegion ((R.modMxi u fun x => { x with
      awake := if o.op = 0xD5 then y.awake ||| mxQm o.r else y.awake &&& ~~~ mxQm o.r }).mxiComplete s.cycle u o false false)) := by
  have hgo : (decide (o.op = 0xD6) && y.feeds o (mxQm o.r) || (!go && (if o.op = 0xD5 then y.awake ||| mxQm o.r else
      y.awake &&& ~~~ mxQm o.r) != y.awake)) = false := by
    by_cases h6 : o.op = 0xD6
    · simp [hnext, hfeeds h6]
    · simp [hnext, h6]
  simp only [powerApply, hy, hsend, hidle, hgo, Bool.not_true, Bool.false_eq_true, if_false]

end

/-- The operation that an acceptance makes performs what it says where no operand bears ERR. -/
theorem mxiOpOf_idle {k : Take} {op : Nat} {r : Rec} {ops : List Token} {id : Nat} (herr : (headerOf ops .n32).err = false) :
    (Claim.mxiOpOf k id op r ops).idle = false := by simp [MxiOp.idle, Claim.mxiOpOf, herr]

theorem modMxi_congr {R : Region} {u : UnitId} {x : Mxi} {f g : Mxi → Mxi} (hx : (R.unit? u).bind (·.mxi?) = some x) (h : f x = g x) :
    R.modMxi u f = R.modMxi u g := by
  obtain ⟨U, hU, hmxi⟩ := Option.bind_eq_some_iff.1 hx
  refine modUnit_congr fun V hV => ?_
  obtain rfl : V = U := Option.some.inj (hV.symm.trans hU)
  cases he : V.eng <;> simp only [Site.mxi?, he] at hmxi ⊢
  cases hmxi
  rw [h]

/-- Settles O25: an accepted operation takes its slot, its key and its credits; MZERO, MWAKE and MGATE with nothing to wait for take effect
with it. -/
theorem matrixRecordsComplete : Obligations.MatrixRecordsComplete := by
  intro s rid k r x hserved hx hslots hkeys
  refine ⟨fun i op hrow herr hnew hlen hsend => ?_, fun i op ports ops items hi hfire herr hnew hsend => ?_, fun y herr hnew hsend => ?_⟩
  · have herr' := (headerOf_one_err k.t).trans herr
    obtain ⟨hexec, hop⟩ := exec_of_mxiRow hrow s
    have hacc := mxiAccept_new (R := k.R) hslots hkeys herr' hnew hsend (mxiChecks_one (.inr (hop.imp id .inl)) hlen)
    rw [hexec, mxiExec_one hserved hx (by rcases hop with rfl | rfl <;> rfl) hacc]
    rcases hop with rfl | rfl <;> rfl
  · intro R hchecks
    have hacc := mxiAccept_new (R := R) hslots hkeys herr hnew hsend hchecks
    have hop : op = 0xD0 ∧ ports = 2 ∨ op = 0xD1 ∧ ports = 4 := hi.imp And.right And.right
    have hfired := mxiExec_fires hserved hx hop hfire hacc
    rcases hi with ⟨rfl, rfl, _⟩ | ⟨rfl, rfl, _⟩ <;> exact congrArg Host.Outcome.next hfired
  · have herr' := (headerOf_one_err k.t).trans herr
    have haccept : ∀ op, op = 0xD2 ∨ op = 0xD5 ∨ op = 0xD6 → k.R.mxiAccept k x op r [k.t] = _ := fun op hop =>
      mxiAccept_new (R := k.R) hslots hkeys herr' hnew hsend
        (mxiChecks_one (by omega) (by rcases hop with rfl | rfl | rfl <;> exact Nat.zero_le _))
    refine ⟨?_, ?_, ?_⟩
    · intro o R hy hmine hbusy hbad z hcopy
      show Host.Outcome.next (mxiExec s 0xD2 r) = _
      rw [mxiExec_one hserved hx rfl (haccept 0xD2 (.inl rfl)), if_pos rfl,
        mzeroApply_clears hy hmine (mxiOpOf_idle herr') hbusy hbad hcopy]
      rfl
    · intro o R hy hmine hnext
      show Host.Outcome.next (mxiExec s 0xD5 r) = _
      rw [mxiExec_one hserved hx rfl (haccept 0xD5 (.inr (.inl rfl))), if_neg (by decide), if_pos (by decide),
        powerApply_done hy hmine (mxiOpOf_idle herr') (fun h => absurd (show (0xD5 : Nat) = 0xD6 from h) (by decide)) hnext]
      refine congrArg (fun (Q : Region) => Host.Outcome.next ((s.putRegion R).putRegion (Q.mxiComplete s.cycle k.u o false false))) ?_
      exact modMxi_congr hy rfl
    · intro o R hy hmine hfeeds hnext
      show Host.Outcome.next (mxiExec s 0xD6 r) = _
      rw [mxiExec_one hserved hx rfl (haccept 0xD6 (.inr (.inr rfl))), if_neg (by decide), if_pos (by decide),
        powerApply_done hy hmine (mxiOpOf_idle herr') (fun _ => hfeeds) hnext]
      refine congrArg (fun (Q : Region) => Host.Outcome.next ((s.putRegion R).putRegion (Q.mxiComplete s.cycle k.u o false false))) ?_
      exact modMxi_congr hy rfl

section
variable {s : State} {rid k : Nat} {u : UnitId} {R R1 : Region} {x y : Mxi} {o : MxiOp}

theorem mmaOperands_read (h : s.mxiOp? rid u k = some (R, x, o)) (hidle : o.idle = false) (hop : o.op = 0xD0) (hst : o.st = .accepted)
    (hsend : x.mySend o = true) (hbook : x.bookBusy o = false) (hawake : needQuads o.ops &&& ~~~ x.awake = 0#4) (hbusy : x.accBusy o = false)
    (hbad : x.bad.contains (mxAcc o.r) = false) (hspans : R.spansBad (mmaSpans o.op o.r o.ops) = false)
    (hcopy : x.copyAcc (mxAcc o.r) o.hdr.round = .ok y) :
    exec (.mmaOperandsRead rid u k) s = .next (s.putRegion ((R.modMxi u fun _ => y).mxiComplete s.cycle u { o with
      data := R.readTile (descOf (opTok o.ops 0)).n (mxBlocks o.r) (descOf (opTok o.ops 0)).seg (segBytes o.r.fmt)
      bdata := R.readTile (descOf (opTok o.ops 1)).n (mxBlocks o.r) (descOf (opTok o.ops 1)).seg (segBytes (mmaB o.r))
      sas := []
      sbs := []
      bookA := x.book (mxCba o.r)
      bookB := x.book (mxCbb o.r) } false true)) := by
  have hturn : (!isMma o.op || o.st != .accepted || !x.mySend o) = false := by simp [isMma, hop, hst, hsend]
  have hready : (x.bookBusy o || needQuads o.ops &&& ~~~ x.awake != 0#4) = false := by simp [hbook, hawake]
  have hsound : (x.bad.contains (mxAcc o.r) || R.spansBad (mmaSpans o.op o.r o.ops)) = false := by rw [hbad, hspans]; rfl
  have hnoscale : ¬ o.op = 0xD1 := by omega
  show execMmaOperandsRead rid u k s = _
  simp only [execMmaOperandsRead, h, hturn, hidle, hready, hbusy, hsound, hcopy, hnoscale, Bool.false_eq_true, if_false]

theorem mmaAccumulation_done (h : s.mxiOp? rid u k = some (R, x, o)) (hop : isMma o.op = true) (hst : o.st = .read) (hbusy : x.accBusy o = false)
    (hbad : x.bad.contains (mxAcc o.r) = false) :
    exec (.mmaAccumulationDone rid u k) s = .next (s.putRegion (R.modMxi u fun x => { x with
      ops := x.ops.filter fun p => p.id != o.id
      accs := modNth x.accs (mxAcc o.r) (mmaApply o) })) := by
  have hnozero : ¬ o.op = 0xD2 := fun h => by simp [isMma, h] at hop
  have hturn : (!isMma o.op || o.st != .read || x.accBusy o) = false := by simp [hop, hst, hbusy]
  show execMmaAccumulationDone rid u k s = _
  simp only [execMmaAccumulationDone, h, hnozero, hturn, hbad, Bool.false_eq_true, if_false]

theorem mout_writes {U : Site} (h : s.mxiOp? rid u k = some (R, x, o)) (hidle : o.idle = false) (hop : o.op = 0xD3) (hsend : x.mySend o = true)
    (hbusy : x.accBusy o = false) (hbad : x.bad.contains (mxAcc o.r) = false) (hU : R.unit? u = some U)
    (hspans : R.checkSpans U (moutSpans o.r (opTok o.ops 0)) = none) (hm : o.r.m = false) (hmode : o.r.fmt = .i32 ↔ (x.acc (mxAcc o.r)).i32 = true)
    (hwrite : (R.modMxi u fun _ => x).engineWrite s.cycle o.hdr.round
      (moutWords o.r { descOf (opTok o.ops 0) with bs := 0 } (x.acc (mxAcc o.r))).1 = some R1) :
    exec (.moutWrite rid u k) s = .next (s.putRegion (R1.mxiComplete s.cycle u o
      (moutWords o.r { descOf (opTok o.ops 0) with bs := 0 } (x.acc (mxAcc o.r))).2 false)) := by
  have hturn : (decide (o.op ≠ 0xD3) || !x.mySend o) = false := by simp [hop, hsend]
  have hfmt : (decide (o.r.fmt = .f32) && (x.acc (mxAcc o.r)).i32 || decide (o.r.fmt = .i32) && !(x.acc (mxAcc o.r)).i32
      || decide (o.r.fmt = .bf16x2) && (x.acc (mxAcc o.r)).i32) = false := by
    cases hi : (x.acc (mxAcc o.r)).i32
    · simp [mt hmode.1 (by simp [hi])]
    · simp [hmode.2 hi]
  show execMoutWrite rid u k s = _
  simp only [execMoutWrite, h, hturn, hidle, hbusy, hU, Option.bind_some, hspans, hbad, hfmt, hm, hwrite, Bool.false_eq_true, if_false]

theorem mcb_installs (h : s.mxiOp? rid u k = some (R, x, o)) (hidle : o.idle = false) (hop : o.op = 0xD4) (hsend : x.mySend o = true)
    (hfirst : x.before o = []) (hroom : x.bookUndo.length < 16) :
    exec (.mcbInstall rid u k) s = .next (s.putRegion ((R.modMxi u fun _ => { x with
      books := modNth x.books (mxCba o.r) fun _ => bookOf (opTok o.ops 0)
      bookUndo := x.bookUndo ++ [(mxCba o.r, o.hdr.round, x.book (mxCba o.r))] }).mxiComplete s.cycle u o false false)) := by
  have hturn : (decide (o.op ≠ 0xD4) || !x.mySend o) = false := by simp [hop, hsend]
  have hfull : decide (x.bookUndo.length ≥ 16) = false := by simp [hroom]
  show execMcbInstall rid u k s = _
  simp only [execMcbInstall, h, hturn, hidle, hfirst, List.any_nil, hfull, Bool.or_self, Bool.false_eq_true, if_false]

theorem quadrants_wake (h : s.mxiOp? rid u k = some (R, x, o)) (hidle : o.idle = false) (hop : isMma o.op = true) (hst : o.st = .accepted) :
    exec (.quadrantPowerChange rid u k) s = .next (s.putRegion (R.modMxi u fun x => { x with awake := x.awake ||| needQuads o.ops })) := by
  have hnopower : ¬ (o.op = 0xD5 ∨ o.op = 0xD6) := by rintro (h | h) <;> simp [isMma, h] at hop
  have hneeds : (isMma o.op && o.st == .accepted && !o.idle) = true := by simp [hop, hst, hidle]
  show execQuadrantPowerChange rid u k s = _
  simp only [execQuadrantPowerChange, h, Bool.or_eq_true, decide_eq_true_eq, hnopower, hneeds, if_true, if_false]

end

/-- Settles O26: each event of an accepted operation follows its one branch. -/
theorem matrixEventsComplete : Obligations.MatrixEventsComplete := by
  intro s rid u k R R1 x y o h hidle
  refine ⟨fun hop hst hsend hbook hawake hbusy hbad hspans hcopy => ?_, fun hop hst hbusy hbad => mmaAccumulation_done h hop hst hbusy hbad,
    fun U hop hsend hbusy hbad hU hspans hm hmode => ?_, fun hop hsend hfirst hroom => mcb_installs h hidle hop hsend hfirst hroom,
    fun hop hst => quadrants_wake h hidle hop hst⟩
  · intro da db data bdata o'
    exact mmaOperands_read h hidle hop hst hsend hbook hawake hbusy hbad hspans hcopy
  · intro w hwrite
    exact mout_writes h hidle hop hsend hbusy hbad hU hspans hm hmode hwrite

end Sys2Proof
end

section
/-! SUPPORT. The stochastic engines (O27) and the heads of a cell that fire no record (O28). -/

namespace Sys2Proof
open Machine

theorem exec_of_sbeRow {i : Instr} {op : Nat} {r : Rec} (h : Claim.sbeRow i = some (op, r)) (s : State) :
    exec i s = .next (sbeExec s op r) ∧ op ≠ 0xE0 := by
  cases i
  all_goals try exact elim_none h
  all_goals cases h
  all_goals exact ⟨rfl, by decide⟩

section
variable {s : State} {rid : Nat} {k : Take} {x : Sbe} {op : Nat} {r : Rec} {ops : List Token}

/-- With a free slot, room for its key and its credits an operation is ready to be accepted (R330). -/
theorem sbe_ready (hslots : x.ops.length < 8) (hkeys : x.keys.length < 256)
    (hsend : k.U.canSend (sendsOf r (headerOf ops .n32) (headerOf ops .n32)) = true) :
    (decide (x.ops.length ≥ 8) || (true && decide (x.keys.length ≥ 256))
      || !k.U.canSend (sendsOf r (headerOf ops .n32) (headerOf ops .n32))) = false := by
  simp [Nat.not_le.2 hslots, Nat.not_le.2 hkeys, hsend]

theorem sbeExec_one (hserved : Claim.IslandServed s rid k) (hx : k.U.sbe? = some x) (hslots : x.ops.length < 8) (hkeys : x.keys.length < 256)
    (hop : op ≠ 0xE0) (herr : (headerOf [k.t] .n32).err = false) (hnew : Claim.NewKey x.keys (Claim.keyOf k (headerOf [k.t] .n32) []))
    (hsend : k.U.canSend (sendsOf r (headerOf [k.t] .n32) (headerOf [k.t] .n32)) = true) (hlen : op = 0xE7 → (opTok [k.t] 0).len = 7#3) :
    sbeExec s op r = s.putRegion (Claim.sbeAccepted k.R k op r [k.t] x.nextId) := by
  have hlens : (!false && true && (false || decide (op = 0xE7)) && decide ((opTok [k.t] 0).len ≠ 7#3)) = false := by
    by_cases h7 : op = 0xE7
    · simp [hlen h7]
    · simp [h7]
  simp only [sbeExec, hserved, hx, hop, find?_is_of_newKey hnew, Option.isNone_none, sbe_ready hslots hkeys hsend, herr, hlens, Option.isSome_none,
    decide_false, Bool.and_false, Bool.false_and, Bool.false_eq_true, if_false, Option.map_none]
  rfl

theorem sgen_accepted {items : List MItem} (hserved : Claim.IslandServed s rid k) (hx : k.U.sbe? = some x) (hslots : x.ops.length < 8)
    (hkeys : x.keys.length < 256) (hfire : matchGroup x.store (sbGroup r) 2 k.t = .fire ops items) (herr : (headerOf ops .n32).err = false)
    (hnew : Claim.NewKey x.keys (Claim.keyOf k (headerOf ops .n32) []))
    (hsend : k.U.canSend (sendsOf r (headerOf ops .n32) (headerOf ops .n32)) = true) (hlen : (opTok ops 1).len = 7#3)
    (hregs : sbRd r + (opTok ops 0).len.toNat ≤ 511) :
    sbeExec s 0xE0 r = s.putRegion (Claim.sbeAccepted (k.R.modSbe k.u fun x => { x with store := items }) k 0xE0 r ops x.nextId) := by
  have hrange : decide (sbRd r + (opTok ops 0).len.toNat > 511) = false := by simp [hregs]
  simp only [sbeExec, hserved, hx, hfire, find?_is_of_newKey hnew, Option.isNone_none, sbe_ready hslots hkeys hsend, herr, hlen, hrange,
    Option.isSome_none, ne_eq, not_true_eq_false, decide_false, Bool.and_false, Bool.false_eq_true, if_false, if_true, Option.map_none]
  rfl

end

theorem sbeOperation_completes {s : State} {rid k : Nat} {u : UnitId} {R R2 : Region} {x : Sbe} {o : SbeOp} {f : SbeEffect}
    (hR : s.region? rid = some R) (hwind : R.winding = true) (hx : (R.unit? u).bind (·.sbe?) = some x) (ho : x.ops[k]? = some o)
    (hsend : x.mySend o = true) (hbusy : x.regBusy o = false) (hidle : o.idle = false) (hsound : x.struck o = []) (hload : R.loadBad o = false)
    (hf : sbeEffect R x o = .ok f) (hstale : x.staleRound o.hdr.round f.regs = false)
    (hroom : x.copies.length + x.copiesNeeded o.hdr.round f.regs ≤ 1024)
    (hwrite : (if f.mem.isEmpty then some (R.modSbe u fun x => x.setRegs o.hdr.round f.regs) else
      (R.modSbe u fun x => x.setRegs o.hdr.round f.regs).engineWrite s.cycle o.hdr.round f.mem) = some R2) :
    exec (.sbeOperationComplete rid u k) s =
      .next (s.putRegion (R2.sbeComplete s.cycle u o (o.tokens f.fmt f.d0 f.d1 f.exc) (some (f.d0, f.exc)))) := by
  have hturn : (!x.mySend o || x.regBusy o) = false := by simp [hsend, hbusy]
  show execSbeOperationComplete rid u k s = _
  simp only [execSbeOperationComplete, hR, hwind, hx, ho, hturn, hidle, hsound, List.isEmpty_nil, Bool.not_true, hf, hstale,
    Nat.not_lt.2 hroom, hwrite, hload, Bool.false_eq_true, if_false]

/-- Settles O27: the take of a stochastic record, and what its turn brings. -/
theorem stochasticRecordsComplete : Obligations.StochasticRecordsComplete := by
  refine ⟨fun s rid k r x hserved hx hslots hkeys => ⟨fun i op hrow herr hnew hsend hlen => ?_,
    fun ops items hfire herr hnew hsend hlen hregs => ?_⟩,
    fun s rid u k R x o f hR hwind hx ho hsend hbusy hidle hsound hload hf hstale hroom => ?_⟩
  · obtain ⟨hexec, hop⟩ := exec_of_sbeRow hrow s
    rw [hexec, sbeExec_one hserved hx hslots hkeys hop ((headerOf_one_err k.t).trans herr) hnew hsend hlen]
  · exact congrArg Host.Outcome.next (sgen_accepted hserved hx hslots hkeys hfire herr hnew hsend hlen hregs)
  · refine ⟨fun hmem => ?_, fun R2 hmem hwrite => ?_⟩
    · exact sbeOperation_completes hR hwind hx ho hsend hbusy hidle hsound hload hf hstale hroom (by rw [hmem]; rfl)
    · refine sbeOperation_completes hR hwind hx ho hsend hbusy hidle hsound hload hf hstale hroom ?_
      rw [if_neg (by simpa using hmem)]
      exact hwrite

/-! ### Heads that fire no record -/

section
variable {s : State} {rid : Nat} {k : Take} {op : Nat} {r : Rec}

theorem arrival_of_cellHead (h : Claim.CellHead s rid k op r) : s.arrival = some (rid, k, op, r) := by
  obtain ⟨hserved, hrec, _, _⟩ := h
  rw [State.arrival, hserved]
  simp [hrec]

theorem commitTake_of_cellHead (h : Claim.CellHead s rid k op r) (x : TRes) : commitTake s rid k op r x = commitCell s rid k 2 0 x := by
  obtain ⟨_, _, hpos, hcfu⟩ := h
  rw [commitTake, if_neg (by omega), if_neg (by simp [hcfu])]

theorem quietRes_stores {slots : SMap Slot} (harr : arrive k.R k.U op r k.t = .quiet slots []) :
    quietRes k op r = .ok [] (k.R.setSlots k.u slots) := by simp [quietRes, harr, Region.logSeals]

theorem commitTake_quiet {slots : SMap Slot} (h : Claim.CellHead s rid k op r) (harr : arrive k.R k.U op r k.t = .quiet slots [])
    (hroom : Claim.Room k (k.R.setSlots k.u slots) []) :
    commitTake s rid k op r (quietRes k op r) = Claim.sent s rid k (k.R.setSlots k.u slots) 2 0 [] := by
  rw [commitTake_of_cellHead h, quietRes_stores harr, commitCell_ok hroom]

theorem ne_of_matching (hm : matching op r = true) : op ≠ 0x75 ∧ op ≠ 0x85 := by
  constructor <;> rintro rfl <;> simp [matching] at hm

theorem purgeArrivalRes_matching (hm : matching op r = true) : purgeArrivalRes k op r = quietRes k op r := by
  obtain ⟨h75, h85⟩ := ne_of_matching hm
  simp [purgeArrivalRes, h75, h85, hm]

theorem execSlotWrite_stores {slots : SMap Slot} (h : Claim.CellHead s rid k op r) (hkind : k.t.kind = .data) (hm : matching op r = true)
    (harr : arrive k.R k.U op r k.t = .quiet slots []) (hroom : Claim.Room k (k.R.setSlots k.u slots) []) (hact : k.t.act = .normal) :
    execSlotWrite s = .next (Claim.sent s rid k (k.R.setSlots k.u slots) 2 0 []) := by
  have hpos := h.2.2.1
  have hquiet := commitTake_quiet h harr hroom
  have h4 : k.u.pos ≠ 4 := by omega
  have h5 : k.u.pos ≠ 5 := by omega
  have h6 : k.u.pos ≠ 6 := by omega
  simp [execSlotWrite, arrival_of_cellHead h, hkind, hact, h4, h5, h6, hm, hquiet]

theorem execStickyArrival_stores {slots : SMap Slot} (h : Claim.CellHead s rid k op r) (hkind : k.t.kind = .data) (hm : matching op r = true)
    (harr : arrive k.R k.U op r k.t = .quiet slots []) (hroom : Claim.Room k (k.R.setSlots k.u slots) []) (hact : k.t.act = .sticky) :
    execStickyArrival s = .next (Claim.sent s rid k (k.R.setSlots k.u slots) 2 0 []) := by
  have hpos := h.2.2.1
  have h3 : ¬ 3 < k.u.pos := by omega
  simp [execStickyArrival, arrival_of_cellHead h, hkind, hact, h3, hm, harr, commitTake_quiet h harr hroom]

theorem execPurgeArrival_clears {slots : SMap Slot} (h : Claim.CellHead s rid k op r) (hkind : k.t.kind = .data) (hm : matching op r = true)
    (harr : arrive k.R k.U op r k.t = .quiet slots []) (hroom : Claim.Room k (k.R.setSlots k.u slots) []) (hact : k.t.act = .purge) :
    execPurgeArrival s = .next (Claim.sent s rid k (k.R.setSlots k.u slots) 2 0 []) := by
  have hpos := h.2.2.1
  have h3 : ¬ 3 < k.u.pos := by omega
  simp [execPurgeArrival, arrival_of_cellHead h, hkind, hact, h3, purgeArrivalRes_matching hm, commitTake_quiet h harr hroom]

theorem execCancelArrival_cell (h : Claim.CellHead s rid k op r) (hkind : k.t.kind = .data) (hact : k.t.act = .cancel) :
    execCancelArrival s = .next (commitCell s rid k 2 0 (cancelArrivalRes k op r)) := by
  have hpos := h.2.2.1
  have h3 : ¬ 3 < k.u.pos := by omega
  have h3' : k.u.pos ≠ 3 := by omega
  have h5 : k.u.pos ≠ 5 := by omega
  have h6 : k.u.pos ≠ 6 := by omega
  simp [execCancelArrival, arrival_of_cellHead h, hkind, hact, h3, h3', h5, h6, commitTake_of_cellHead h]

theorem controlArrival_cell (h : Claim.CellHead s rid k op r) {kind : Kind} (hkind : k.t.kind = kind) (f : Take → Nat → Rec → TRes) :
    controlArrival s kind f = commitCell s rid k 2 0 (f k op r) := by
  have hpos := h.2.2.1
  have h3 : ¬ k.u.pos > 3 := by omega
  simp only [controlArrival, arrival_of_cellHead h, hkind, ne_eq, not_true_eq_false, if_false, h3, commitTake_of_cellHead h]

end

/-- The tag that a cancel leaves with where the record is no TAGSET is its own. -/
theorem cancelOf_retag (t : Token) (op : Nat) (first : Option W64) :
    (if op = 0x84 then { cancelOf t with tag := first.getD t.tag } else cancelOf t) =
      { cancelOf t with tag := if op = 0x84 then first.getD t.tag else t.tag } := by
  split <;> rfl

/-- Settles O28: a head of a cell that fires no record goes through its arrival event, whose result its cell commits. -/
theorem arrivalsComplete : Obligations.ArrivalsComplete := by
  intro s rid k op r slots es R R1 h
  refine ⟨fun hkind hm harr hroom => ⟨execSlotWrite_stores h hkind hm harr hroom, execStickyArrival_stores h hkind hm harr hroom,
    execPurgeArrival_clears h hkind hm harr hroom⟩, fun hkind hact hop hm harr => ?_, fun hkind htake hfwd hroom => ?_, fun hkind hop hfwd hroom => ?_,
    fun hkind hfwd hroom => ?_⟩
  · intro first cut hroom
    have hres : cancelArrivalRes k op r = .ok (Claim.toBoth r cut) (k.R.setSlots k.u slots) := by
      simp only [cancelArrivalRes, hop, if_false, hm, if_true, harr, cancelOf_retag]
      rfl
    exact (execCancelArrival_cell h hkind hact).trans (by rw [hres, commitCell_ok hroom])
  · show Host.Outcome.next (controlArrival s .marker markerArrivalRes) = _
    have hres : markerArrivalRes k op r = .ok es R := by simp [markerArrivalRes, htake, hfwd]
    rw [controlArrival_cell h hkind, hres, commitCell_ok hroom]
  · show Host.Outcome.next (controlArrival s .eos eosArrivalRes) = _
    have hres : eosArrivalRes k op r = .ok es R := by simp [eosArrivalRes, hop, hfwd]
    rw [controlArrival_cell h hkind, hres, commitCell_ok hroom]
  · show Host.Outcome.next (controlArrival s .bubble bubbleArrivalRes) = _
    have hres : bubbleArrivalRes k op r = .ok es R := by simp [bubbleArrivalRes, hfwd]
    rw [controlArrival_cell h hkind, hres, commitCell_ok hroom]

end Sys2Proof
end

section
/-! SUPPORT. The network (O29) and what a turn brings from outside (O30). -/

namespace Sys2Proof
open Machine

theorem unit?_modUnit_self {R : Region} {u : UnitId} {U : Site} {f : Site → Site} (hU : R.unit? u = some U) (hf : ∀ V : Site, (f V).id = V.id) :
    (R.modUnit u f).unit? u = some (f U) := by
  have hU' : R.units.find? (fun V => V.id == u) = some U := hU
  rw [Region.unit?, Region.modUnit, find?_modFirst_self _ f (fun V hV => by rw [hf V]; exact hV), hU', Option.map_some]

/-! ### The network -/

section
variable {s : State} {rid : Nat} {R : Region}

theorem any_take_of_forall_ne {fs : List Flight} {k : Nat} {l : Loc} (h : ∀ g ∈ fs.take k, g.loc ≠ l) : ((fs.take k).any fun g => g.loc == l) = false := by
  rw [List.any_eq_false]
  intro g hg
  simpa using h g hg

theorem emitNext_head {u : UnitId} {U : Site} {o : Out} {rest : List Out} {now : Nat} (hU : R.unit? u = some U) (hq : U.outq = o :: rest)
    (hdue : o.ready ≤ now) (hpaid : o.paid = true) (howed : nth 0 U.owed o.route = 0) :
    R.emitNext now u = some ((R.putUnit { U with outq := rest }).launch now u o.route o.tok) := by
  have hcovered : ¬ nth 0 U.credits o.route + ((o :: rest).filter fun p => p.route == o.route && p.paid).length ≤ 0 := by
    simp [hpaid]
  have hemit : R.emitOut now u o = some ((R.putUnit { U with outq := rest }).launch now u o.route o.tok) := by
    simp only [Region.emitOut, hU, hq, howed, hcovered, hpaid, if_false, if_true, delFirst, beq_self_eq_true]
  simp [Region.emitNext, hU, hq, hdue, hemit]

theorem tokenHop_hops {k page pos inp cin i d p q : Nat} {f : Flight} {e : W32} (hR : s.region? rid = some R) (hf : R.flights[k]? = some f)
    (hloc : f.loc = .at page pos inp cin) (he : R.entryOf f = some (i, e)) (hmay : R.mayHop s.cycle s.linkRot f = true) (hnoend : seLoc e = false)
    (hout : seOut e = [d]) (hnext : R.neighbour page pos d = some (p, q)) :
    exec (.tokenHop rid k) s = .next { s.putRegion { R with flights := delNth R.flights k ++
      [{ f with loc := .at p q (opposite d) (seCout e), since := R.arrival s.cycle page pos d }] } with
      linkRot := mapPut s.linkRot (R.linkNo page pos d) (circuitNo f) } := by
  have hplace : f.place? = some (page, pos, inp, cin) := by simp [Flight.place?, hloc]
  have hlinks : outLinks e = [d] := by simp [outLinks, hnoend, hout]
  have hnext' : Region.neighbour { R with flights := delNth R.flights k } page pos d = some (p, q) := hnext
  show execTokenHop rid k s = _
  simp only [execTokenHop, hR, hf, hplace, he, hmay, hnoend, hlinks, List.foldl_cons, List.foldl_nil, hnext', Bool.not_true, Bool.false_eq_true,
    if_false]
  rfl

theorem tokenHop_ends {k page pos inp cin i : Nat} {f : Flight} {e : W32} (hR : s.region? rid = some R) (hf : R.flights[k]? = some f)
    (hloc : f.loc = .at page pos inp cin) (he : R.entryOf f = some (i, e)) (hmay : R.mayHop s.cycle s.linkRot f = true) (hend : seLoc e = true)
    (hqueue : seEnd e = 0) (hout : seOut e = []) :
    exec (.tokenHop rid k) s = .next (s.putRegion (Region.enqueue { R with flights := delNth R.flights k } ⟨page, pos⟩ (seQ e)
      { tok := f.tok, org := f.org, route := f.route, sid := f.sid })) := by
  have hplace : f.place? = some (page, pos, inp, cin) := by simp [Flight.place?, hloc]
  have hlinks : outLinks e = [] := by simp [outLinks, hqueue, hout]
  show execTokenHop rid k s = _
  simp only [execTokenHop, hR, hf, hplace, he, hmay, hend, hlinks, List.foldl_nil, Region.arriveEnd, hqueue, Bool.not_true, Bool.false_eq_true,
    if_false, if_true]

theorem creditReturn_gives {org : UnitId} {route sid : Nat} {rest : List (UnitId × Nat × Nat)} (hR : s.region? rid = some R) (hlive : R.live = true)
    (hfreed : R.freed = (org, route, sid) :: rest) (hpos : org.pos ≤ 2) (hlast : Region.outstanding { R with freed := rest } org route sid = false) :
    exec (.creditReturn rid) s = .next
      (s.putRegion ((Region.giveCredit { R with freed := rest } org route).forwardMore s.cycle org)) := by
  have h7 : ¬ org.pos = 7 := by omega
  have hcredit : Region.returnCredit { R with freed := rest } org route sid = Region.giveCredit { R with freed := rest } org route := by
    simp only [Region.returnCredit, hlast, h7, Bool.false_eq_true, if_false]
  have hlive' : (Region.giveCredit { R with freed := rest } org route).live = true := hlive
  show execCreditReturn rid s = _
  simp only [execCreditReturn, hR, hfreed, h7, if_false, hcredit, hpos, if_true, hlive', Bool.true_or]

theorem gatewayPass_crosses {k page pos idx : Nat} {f : Flight} {U : Site} (hR : s.region? rid = some R) (hlive : R.live = true)
    (hf : R.flights[k]? = some f) (hloc : f.loc = .gateway page pos idx) (hU : R.unit? ⟨page, pos⟩ = some U)
    (hfirst : ∀ g ∈ R.flights.take k, g.loc ≠ .gateway page pos idx) {i c : Nat} (hi : i = seCap (nth 0#32 U.switch idx))
    (hc : c = (f.cap.map BitVec.toNat).getD (R.cap i)) (hvalid : bit c 63 = true) (hsend : bit c 62 = true) (hheld : capHeld s c = true)
    (hdev : capDev c = s.self) (hrid : capRid c = R.rid) (hallow : R.capOut i < capAllow c) :
    let freed := Region.free { R with flights := delNth R.flights k } f.org f.route f.sid
    let g := { f with org := ⟨rid, 7⟩, route := 16 + i, sid := ((f.sid * 1024 + f.org.page) * 8 + f.org.pos) * 4 + f.route, loc := .ingress (capEport c), since := s.cycle, cap := none }
    exec (.gatewayPass rid k) s = .next
      (s.putRegion (Region.setCapOut { freed with flights := freed.flights ++ [g] } i (R.capOut i + 1))) := by
  intro freed g
  have hearly := any_take_of_forall_ne hfirst
  have hok : (!bit c 63 || !bit c 62 || !capHeld s c) = false := by simp [hvalid, hsend, hheld]
  show execGatewayPass rid k s = _
  simp only [execGatewayPass, hR, hf, hloc, hlive, hU, Option.map_some, Option.getD_some, ← hi, ← hc, hearly, hok, hdev, hrid, decide_true,
    Bool.and_self, if_true, ge_iff_le, Nat.not_le.2 hallow, Bool.not_true, Bool.false_eq_true, if_false]
  rfl

theorem ingressPlace_places {k eport : Nat} {f : Flight} (hR : s.region? rid = some R) (hlive : R.live = true) (hf : R.flights[k]? = some f)
    (hloc : f.loc = .ingress eport) (hfirst : ∀ g ∈ R.flights.take k, g.loc ≠ .ingress eport) {e : Nat}
    (he : e = ((mapGet R.cfg.ingress eport).getD 0#32).toNat) (hdue : f.org = ⟨rid, 7⟩ → f.since + 6 ≤ s.cycle) (hok : R.ingressOk e f.tok = true) :
    let g := { f with loc := .at (bits e 23 12) (bits e 11 10) (bits e 30 28) (bits e 27 24), since := s.cycle }
    exec (.ingressPlace rid k) s = .next (s.putRegion { R with flights := R.flights.set k g }) := by
  intro g
  have hearly := any_take_of_forall_ne hfirst
  have hcrossed : (f.org == ⟨rid, 7⟩ && decide (s.cycle < f.since + 6)) = false := by
    by_cases horg : f.org = ⟨rid, 7⟩
    · simp [Nat.not_lt.2 (hdue horg)]
    · simp [horg]
  show execIngressPlace rid k s = _
  simp only [execIngressPlace, hR, hf, hloc, hlive, hearly, hcrossed, ← he, hok, Bool.not_true, Bool.or_self, Bool.false_eq_true, if_false]
  rfl

theorem ingressPlace_waits {k eport : Nat} {f : Flight} (hR : s.region? rid = some R) (hlive : R.live = true) (hf : R.flights[k]? = some f)
    (hloc : f.loc = .ingress eport) (hfirst : ∀ g ∈ R.flights.take k, g.loc ≠ .ingress eport) (horg : f.org = ⟨rid, 7⟩)
    (hearly : s.cycle < f.since + 6) : exec (.ingressPlace rid k) s = .next s := by
  have hcrossing : (f.org == ⟨rid, 7⟩ && decide (s.cycle < f.since + 6)) = true := by simp [horg, hearly]
  show execIngressPlace rid k s = _
  simp only [execIngressPlace, hR, hf, hloc, hlive, any_take_of_forall_ne hfirst, hcrossing, Bool.not_true, Bool.or_self, Bool.false_eq_true, if_false,
    if_true]

end

/-- Settles O29: each event of the network follows its one branch. -/
theorem networkEventsComplete : Obligations.NetworkEventsComplete := by
  intro s rid R hR hlive
  refine ⟨fun u U o rest hU hq hdue hpaid howed => ?_, fun k page pos inp cin i f e hf hloc he hmay =>
      ⟨fun d p q hnoend hout hnext => tokenHop_hops hR hf hloc he hmay hnoend hout hnext,
        fun hend hqueue hout => tokenHop_ends hR hf hloc he hmay hend hqueue hout⟩,
    fun org route sid rest hfreed hpos hlast => creditReturn_gives hR hlive hfreed hpos hlast,
    fun k page pos idx f U hf hloc hU hfirst => ?_, fun k eport f hf hloc hfirst => ?_⟩
  · show execAluResultEmit rid u s = _
    simp only [execAluResultEmit, hR, Option.bind_some, emitNext_head hU hq hdue hpaid howed]
  · intro i c hvalid hsend hheld hdev hrid hallow
    exact gatewayPass_crosses hR hlive hf hloc hU hfirst rfl rfl hvalid hsend hheld hdev hrid hallow
  · intro e g
    exact ⟨fun hdue hok => ingressPlace_places hR hlive hf hloc hfirst rfl hdue hok,
      fun horg hearly => ingressPlace_waits hR hlive hf hloc hfirst horg hearly⟩

/-! ### Uncorrectable errors -/

section
variable {s : State} {k rid : Nat} {R : Region} {u : UnitId} {U : Site}

theorem strikeToken_data (s : State) (k : Nat) {t : Token} (h : t.kind = .data) :
    ∃ e, s.strikeToken k t = { t with err := true, e := e } := ⟨_, by rw [State.strikeToken, if_pos h]⟩

@[simp] theorem setAdd_contains (l : List Nat) (x : Nat) : (setAdd l x).contains x = true := by
  induction l with
  | nil => simp [setAdd]
  | cons y t ih =>
    rw [setAdd]
    split
    · simp
    · split
      · next h => simp [h]
      · rw [List.contains_cons, ih, Bool.or_true]

theorem region?_modRegion_rid {f : Region → Region} (hR : s.region? rid = some R) (hf : ∀ Q, (f Q).rid = Q.rid) :
    (s.modRegion rid f).region? rid = some (f R) := by
  rw [region?_modRegion_self s rid f fun Q hQ => (hf Q).trans hQ, hR, Option.map_some]

theorem upset_queue_strikes (hR : s.region? rid = some R) (hU : R.unit? u = some U) {q i : Nat} {x : QTok} (hx : (nth [] U.queues q)[i]? = some x)
    (hkind : x.tok.kind = .data) :
    ∃ Q V e, (s.upset k (.queue rid u q i)).region? rid = some Q ∧ Q.unit? u = some V ∧
      (nth [] V.queues q)[i]? = some { x with tok := { x.tok with err := true, e := e } } ∧
      ∀ j, j ≠ i → (nth [] V.queues q)[j]? = (nth [] U.queues q)[j]? := by
  obtain ⟨e, he⟩ := strikeToken_data s k hkind
  have hq : q < U.queues.length := by
    by_contra hq
    simp [nth, List.getElem?_eq_none (Nat.le_of_not_lt hq)] at hx
  refine ⟨_, _, e, region?_modRegion_rid hR fun _ => rfl, unit?_modUnit_self hU fun _ => rfl, ?_, fun j hj => ?_⟩
  · rw [nth_modNth_self _ _ _ hq, getElem?_modNth, if_pos rfl, hx, Option.map_some, he]
  · rw [nth_modNth_self _ _ _ hq, getElem?_modNth, if_neg hj]

theorem upset_request_strikes (hR : s.region? rid = some R) {i : Nat} {f : Flight} (hf : R.flights[i]? = some f) (hloc : f.loc = .cfuRequest)
    (hkind : f.tok.kind = .data) :
    ∃ Q e, (s.upset k (.request rid i)).region? rid = some Q ∧ Q.flights[i]? = some { f with tok := { f.tok with err := true, e := e } } := by
  obtain ⟨e, he⟩ := strikeToken_data s k hkind
  refine ⟨_, e, region?_modRegion_rid hR fun _ => rfl, ?_⟩
  simp only [Region.upsetIn, getElem?_modNth, if_true, hf, Option.map_some, hloc, he]

theorem upset_element_marks (hR : s.region? rid = some R) (hU : R.unit? u = some U) (w : Nat) :
    ∃ Q V, (s.upset k (.element rid u w)).region? rid = some Q ∧ Q.unit? u = some V ∧ V.bad.contains w = true ∧ V.elem = U.elem :=
  ⟨_, _, region?_modRegion_rid hR fun _ => rfl, unit?_modUnit_self hU fun _ => rfl, setAdd_contains _ _, rfl⟩

theorem mu?_modMu_self {m : Mu} {f : Mu → Mu} {page : Nat} (hU : R.unit? ⟨page, 3⟩ = some U) (hm : U.eng = .mu m) :
    (R.modMu page f).mu? page = some (f m) := by
  have hunit : (R.modMu page f).unit? ⟨page, 3⟩ = some { U with eng := .mu (f m) } := by
    rw [Region.modMu, unit?_modUnit_self hU fun V => by split <;> rfl]
    simp only [hm]
  rw [Region.mu?, hunit]
  rfl

theorem upset_sram_marks {m : Mu} {w : Nat} (hR : s.region? rid = some R) (hU : R.unit? u = some U) (hpos : u.pos = 3) (hm : U.eng = .mu m)
    (hw : w < 65536) (hwf : Sram.wf m.sram = true) :
    ∃ Q n, (s.upset k (.sram rid u.page w)).region? rid = some Q ∧ Q.mu? u.page = some n ∧ n.bad.contains w = true ∧
      ∀ x, x ≠ w → sramWord n.sram x = sramWord m.sram x := by
  have hu : u = ⟨u.page, 3⟩ := by rw [← hpos]
  have hin : ∀ Q : Region, Q.upsetIn s k (.sram rid u.page w) =
      Q.modMu u.page fun m => { m with sram := sramSetWord m.sram w (s.lost k 0), bad := setAdd m.bad w } := fun Q => if_pos hw
  have hstruck := region?_modRegion_rid (f := fun Q => Q.upsetIn s k (.sram rid u.page w)) hR fun Q => by rw [hin]; rfl
  exact ⟨_, { m with sram := sramSetWord m.sram w (s.lost k 0), bad := setAdd m.bad w }, hstruck.trans (congrArg some (hin R)),
    mu?_modMu_self (hu ▸ hU) hm, setAdd_contains m.bad w, fun x hx => sramWord_sramSetWord_ne hwf _ hx⟩

end

/-! ### CHSTAT -/

/-- The value of CHSTAT holds a count below 2^16 and the two flags above it (Table 13-8). -/
theorem chstat_fields {n : Nat} (hn : n < 65536) (ovf bad : Bool) (c : W64) (hc : c = BitVec.ofNat 64 (n + 2 ^ 16 * b2n ovf + 2 ^ 17 * b2n bad)) :
    bits c.toNat 15 0 = n ∧ c.getLsbD 16 = ovf ∧ c.getLsbD 17 = bad := by
  subst hc
  have hlow : (n + 2 ^ 16 * b2n ovf + 2 ^ 17 * b2n bad) % 65536 = n := by cases ovf <;> cases bad <;> simp [b2n] <;> omega
  have h16 : (n + 2 ^ 16 * b2n ovf + 2 ^ 17 * b2n bad) / 2 ^ 16 = b2n ovf + 2 * b2n bad := by cases ovf <;> cases bad <;> simp [b2n] <;> omega
  have h17 : (n + 2 ^ 16 * b2n ovf + 2 ^ 17 * b2n bad) / 2 ^ 17 = b2n bad := by cases ovf <;> cases bad <;> simp [b2n] <;> omega
  have hlt : n + 2 ^ 16 * b2n ovf + 2 ^ 17 * b2n bad < 2 ^ 64 := by cases ovf <;> cases bad <;> simp [b2n] <;> omega
  refine ⟨?_, ?_, ?_⟩
  · rw [BitVec.toNat_ofNat, Nat.mod_eq_of_lt hlt]
    simpa [bits] using hlow
  · rw [BitVec.getLsbD_ofNat, Nat.testBit_eq_decide_div_mod_eq, h16]
    cases ovf <;> cases bad <;> rfl
  · rw [BitVec.getLsbD_ofNat, Nat.testBit_eq_decide_div_mod_eq, h17]
    cases bad <;> rfl

theorem chstat_of_tdi {s : State} {t : Nat} {T : Tdi} (hT : s.tdis[t]? = some T) (hlen : T.calls.length < 65536) :
    bits (s.chstat t).toNat 15 0 = (T.calls.filter fun x => x.st == .queued).length ∧ (s.chstat t).getLsbD 16 = T.ovf ∧
      (s.chstat t).getLsbD 17 = T.bad := by
  refine chstat_fields (Nat.lt_of_le_of_lt (List.length_filter_le _ _) hlen) _ _ _ ?_
  simp only [State.chstat, nth, List.getD_eq_getElem?_getD, hT, Option.getD_some]

theorem setChstat_clears {s : State} {t : Nat} {v : W64} {T : Tdi} (hT : s.tdis[t]? = some T) :
    (s.setChstat t v).tdis[t]? = some { T with ovf := T.ovf && !v.getLsbD 16, bad := T.bad && !v.getLsbD 17 } := by
  simp only [State.setChstat, getElem?_modNth, if_true, hT, Option.map_some]
  rfl

/-- Settles O30: an error strikes the one thing that it names; CHSTAT gives and clears its flags. -/
theorem outsideInputsAct : Obligations.OutsideInputsAct := by
  refine ⟨fun s k rid u R U hR hU => ⟨fun q i x _ hx hkind => upset_queue_strikes hR hU hx hkind,
    fun i f hf hloc hkind => upset_request_strikes hR hf hloc hkind, fun w => upset_element_marks hR hU w,
    fun w m hpos hm hw hwf => upset_sram_marks hR hU hpos hm hw hwf⟩, fun ops f len exc e => rfl, fun s t v T hT hlen => ?_⟩
  intro c d
  obtain ⟨hcount, hovf, hbad⟩ := chstat_of_tdi hT hlen
  obtain ⟨hcount', hovf', hbad'⟩ := chstat_of_tdi (setChstat_clears hT (v := v)) hlen
  exact ⟨hcount, hovf, hbad, hcount'.trans hcount.symm, hovf', hbad'⟩

end Sys2Proof
end

section
/-! SUPPORT. The links: the take of a link record (O31) and the events of the links (O32). -/

namespace Sys2Proof
open Machine

section
variable {s : State} {rid : Nat} {k : Take} {op : Nat} {r : Rec}

/-- A link record whose result is accepted, with a credit for what it reserves. -/
theorem linkExec_accepted {R : Region} {reserve now : Sends} (hserved : Claim.Served s rid k) (hres : linkRes s k op r = .ok reserve now R)
    (hsend : k.U.canSend reserve = true) : linkExec s op r = Claim.linkAccepted s k R reserve now := by
  have hserved' : s.taking = some (rid, k) := hserved
  simp only [linkExec, hserved', hres, hsend, Bool.not_true, Bool.false_eq_true, if_false]
  rfl

/-- The header of a trigger that bears no ERR stays as it is where no source word is struck. -/
theorem linkHdr_sound (herr : (Claim.linkHdr k).err = false) : { Claim.linkHdr k with err := false } = Claim.linkHdr k := by
  rw [← herr]

theorem any_kept_false {α : Type} {l : List α} {kept : α → Bool} {q : α → Bool} (h : ∀ x ∈ l, kept x = false) :
    (l.any fun x => kept x && q x) = false := by
  rw [List.any_eq_false]
  intro x hx
  simp [h x hx]

theorem acceptSend_room {R : Region} {reserve now : Sends} {x : Send} (hkept : ∀ y ∈ R.sends, y.kept = false)
    (hroom : R.linkRoom s k.u.page x.round x.lines = .room) :
    acceptSend s R k reserve now x = .ok reserve now { R with sends := R.sends ++ [x] } := by
  have hnone : (R.sends.any fun y => y.kept && y.key == x.key) = false := any_kept_false hkept
  simp only [acceptSend, hnone, hroom, Region.addSend, Bool.false_eq_true, if_false]

/-- The first tests of a link record: its trigger is long enough, in no odd pair and without ERR (R60, R424). -/
theorem linkRes_tests (hlen : linkMin op ≤ k.t.len.toNat) (hodd : k.t.oddPair = false) :
    ¬ (decide (k.t.len.toNat < linkMin op) || k.t.oddPair) = true := by simp [hodd, hlen]

theorem linkRes_sends {body : Body} {ws : List W32} (hop : op = 0xF0 ∨ op = 0xF2) (hlen : linkMin op ≤ k.t.len.toNat) (hodd : k.t.oddPair = false)
    (herr : (Claim.linkHdr k).err = false) {n : Nat} (hn : n = (nth 0#32 k.t.e 1).toNat) (h4 : n % 4 = 0) (hlo : 4 ≤ n) (hhi : n ≤ 65536)
    (hread : linkRead s k.R r (nth 0#32 k.t.e 0).toNat (n / 4) = .ok ws false) (hvalid : bit (k.R.cap (r.lit.toNat % 256)) 63 = true)
    (hperm : bit (k.R.cap (r.lit.toNat % 256)) 61 = true) (hheld : capHeld s (k.R.cap (r.lit.toNat % 256)) = true)
    (hkept : ∀ x ∈ k.R.sends, x.kept = false)
    (hbody : body = if op = 0xF0 then Body.message ws n (nth 0#32 k.t.e 2) else Body.post ((nth 0#32 k.t.e 2).toNat + 2 ^ 32 * (nth 0#32 k.t.e 3).toNat) ws)
    (hroom : k.R.linkRoom s k.u.page (recordSend s k.R k r (Claim.linkHdr k) (some (r.lit.toNat % 256)) body r.d1 0).round
      (recordSend s k.R k r (Claim.linkHdr k) (some (r.lit.toNat % 256)) body r.d1 0).lines = .room) :
    linkRes s k op r = .ok (Claim.toBoth r (Claim.linkHdr k)) (Claim.toFirst r (completion (Claim.linkHdr k) n))
      { k.R with sends := k.R.sends ++ [recordSend s k.R k r (Claim.linkHdr k) (some (r.lit.toNat % 256)) body r.d1 0] } := by
  have htests := linkRes_tests hlen hodd
  have hbytes : (decide (n < 4) || decide (65536 < n) || n % 4 != 0) = false := by simp [h4, Nat.not_lt.2 hlo, Nat.not_lt.2 hhi]
  have hcap : (!bit (k.R.cap (r.lit.toNat % 256)) 63 || !bit (k.R.cap (r.lit.toNat % 256)) 61
      || !capHeld s (k.R.cap (r.lit.toNat % 256))) = false := by simp [hvalid, hperm, hheld]
  have hdr := linkHdr_sound herr
  have hacc := acceptSend_room (reserve := Claim.toBoth r (Claim.linkHdr k)) (now := Claim.toFirst r (completion (Claim.linkHdr k) n)) hkept hroom
  unfold linkRes
  extract_lets +onlyGivenNames R e src hd d0 all badBytes
  have hhd : hd = Claim.linkHdr k := rfl
  clear_value hd
  subst hhd
  rcases hop with rfl | rfl
  all_goals
    subst hbody
    simp only [htests, herr, R, e, badBytes, ← hn, hbytes, hcap, hread, LRead.andThen, hdr, Bool.false_and, Bool.false_eq_true, if_false]
    exact hacc

theorem linkRes_receives (hlen : 1 ≤ k.t.len.toNat) (hodd : k.t.oddPair = false) (herr : (Claim.linkHdr k).err = false) {n : Nat}
    (hn : n = (nth 0#32 k.t.e 1).toNat) (h4 : n % 4 = 0) (hhi : n ≤ 65536)
    (hcheck : linkCheck k.R r (linkAddrs k.R r (nth 0#32 k.t.e 0).toNat (n / 4)) = none)
    (hbox : (k.R.buffers.filter fun b => b.box == r.lit.toNat % 256).length < 16) (htotal : (s.regions.map fun R => R.buffers.length).sum < 4096) :
    linkRes s k 0xF1 r = .ok (Claim.toBoth r (Claim.linkHdr k)) [] { k.R with buffers := k.R.buffers ++ [{ box := r.lit.toNat % 256, global := bit r.aux.toNat 9, addr := nth (nth 0#32 k.t.e 0).toNat (linkAddrs k.R r (nth 0#32 k.t.e 0).toNat 1) 0, cap := n, unit := k.u, dest := r.d0, hdr := Claim.linkHdr k, queue := k.q, trig := k.qt }] } := by
  have htests := linkRes_tests (op := 0xF1) hlen hodd
  have hbytes : (decide (n < 0) || decide (65536 < n) || n % 4 != 0) = false := by simp [h4, Nat.not_lt.2 hhi]
  have hroom : ¬ (decide ((k.R.buffers.filter fun b => b.box == r.lit.toNat % 256).length ≥ 16)
      || decide ((s.regions.map fun R => R.buffers.length).sum ≥ 4096)) = true := by simp [hbox, htotal]
  unfold linkRes
  extract_lets +onlyGivenNames R e src hd d0 all badBytes
  have hhd : hd = Claim.linkHdr k := rfl
  clear_value hd
  subst hhd
  simp only [htests, herr, R, e, badBytes, ← hn, hbytes, hcheck, hroom, Bool.false_eq_true, if_false]
  rfl

theorem linkRes_contributes {ws : List W32} (hlen : 3 ≤ k.t.len.toNat) (hodd : k.t.oddPair = false) (herr : (Claim.linkHdr k).err = false) {n : Nat}
    (hn : n = (nth 0#32 k.t.e 2).toNat) (htree : treeOk s k.R (r.lit.toNat % 64) = true) (hlo : 1 ≤ n) (hhi : n ≤ 16384)
    (hcheck : k.R.checkSram 4 ((List.range n).map fun i => (nth 0#32 k.t.e 1).toNat + 4 * i) = none)
    (hread : linkRead s k.R r (nth 0#32 k.t.e 0).toNat n = .ok ws false) (hkept : ∀ x ∈ k.R.sends, x.kept = false) {x : Send}
    (hx : x = recordSend s k.R k r (Claim.linkHdr k) none
      (.contribution (r.lit.toNat % 64) (nth 0#32 k.t.e 3).toNat (BitVec.ofNat 2 r.aux.toNat) r.fmt ws false) r.d0 (nth 0#32 k.t.e 1).toNat)
    (hroom : k.R.linkRoom s k.u.page x.round x.lines = .room) :
    linkRes s k 0xF3 r = .ok (Claim.toBoth r (Claim.linkHdr k)) [] { k.R with sends := k.R.sends ++ [x] } := by
  have htests := linkRes_tests (op := 0xF3) hlen hodd
  have hcount : ¬ (decide (n = 0) || decide (n > 16384)) = true := by simp; omega
  have hdr := linkHdr_sound herr
  have hacc := acceptSend_room (reserve := Claim.toBoth r (Claim.linkHdr k)) (now := []) hkept hroom
  unfold linkRes
  extract_lets +onlyGivenNames R e src hd d0 all badBytes
  have hhd : hd = Claim.linkHdr k := rfl
  clear_value hd
  subst hhd
  subst hx
  simp only [htests, herr, R, e, htree, ← hn, hcount, hcheck, hread, LRead.andThen, hdr, Bool.not_true, Bool.false_and, Bool.false_eq_true, if_false]
  exact hacc

theorem linkRes_calls (hodd : k.t.oddPair = false) (herr : (Claim.linkHdr k).err = false) (hkept : ∀ x ∈ k.R.calls, x.kept = false)
    (hroom : k.R.linkRoom s k.u.page (Claim.linkHdr k).round 1 = .room) :
    linkRes s k 0xF4 r = .ok (Claim.toBoth r (Claim.linkHdr k)) [] { k.R with calls := k.R.calls ++ [Claim.callOf k r] } := by
  have htests := linkRes_tests (op := 0xF4) (Nat.zero_le _) hodd
  have hnone : (k.R.calls.any fun x => x.kept && x.key == linkKey k.R k.u r (Claim.linkHdr k)) = false := any_kept_false hkept
  unfold linkRes
  extract_lets +onlyGivenNames R e src hd d0 all badBytes
  have hhd : hd = Claim.linkHdr k := rfl
  clear_value hd
  subst hhd
  simp only [htests, herr, R, hnone, hroom, Bool.false_eq_true, if_false]
  rfl

end

/-- Settles O31: each link record that passes its tests is accepted. -/
theorem linkRecordsComplete : Obligations.LinkRecordsComplete := by
  intro s rid k r hserved herr hodd R e both hsend
  refine ⟨fun ws h4 hlo hhi hread => ?_, fun hlen h4 hhi hcheck => ?_, fun ws hlen htree hlo hhi hcheck hread hkept => ?_, fun hkept hroom => ?_⟩
  · intro i hvalid hperm hheld hkept
    refine ⟨fun hlen => ?_, fun hlen => ?_⟩
    · intro x hroom
      exact congrArg Host.Outcome.next (linkExec_accepted hserved
        (linkRes_sends (.inl rfl) hlen hodd herr rfl h4 hlo hhi hread hvalid hperm hheld hkept rfl hroom) hsend)
    · intro x hroom
      exact congrArg Host.Outcome.next (linkExec_accepted hserved
        (linkRes_sends (.inr rfl) hlen hodd herr rfl h4 hlo hhi hread hvalid hperm hheld hkept rfl hroom) hsend)
  · intro box hbox htotal
    exact congrArg Host.Outcome.next (linkExec_accepted hserved (linkRes_receives hlen hodd herr rfl h4 hhi hcheck hbox htotal) hsend)
  · intro x hroom
    exact congrArg Host.Outcome.next (linkExec_accepted hserved
      (linkRes_contributes hlen hodd herr rfl htree hlo hhi hcheck hread hkept rfl hroom) hsend)
  · exact congrArg Host.Outcome.next (linkExec_accepted hserved (linkRes_calls hodd herr hkept hroom) hsend)

end Sys2Proof
end

section
/-! SUPPORT. The events of the links (O32). -/

namespace Sys2Proof
open Machine

section
variable {s : State} {rid : Nat} {R : Region}

theorem linkAcknowledge_leaves {Rs : List Region} {x : Send} (hregs : s.regions = R :: Rs) (hsends : R.sends = [x]) (hst : x.st = .sent)
    (hreport : x.report = none) :
    let s1 := s.putRegion { R with sends := [] }
    exec (.linkAcknowledge x.pkt.id) s = .next
      (dispatchSends { s1 with links := { s1.links with outbox := s1.links.outbox.filter fun p => p.2 != x.pkt } } R.rid) := by
  intro s1
  have hfound : (s.regions.findSome? fun Q => (Q.sends.find? fun y => y.pkt.id == x.pkt.id && y.st == .sent).map fun y => (Q, y)) = some (R, x) := by
    simp [hregs, hsends, hst]
  show execLinkAcknowledge x.pkt.id s = _
  simp only [execLinkAcknowledge, hfound, hreport, hsends, Option.isSome_none, delFirst, beq_self_eq_true, Bool.false_eq_true, if_false, if_true]
  rfl

section
variable {port : Nat} {x : Port} {p : Packet} {t : Token}

theorem packetReceive_here (hport : s.links.ports[port]? = some x) (hup : x.up = true) (hen : x.en = true) (hpart : partOn s port p.part = true)
    (hdev : p.dstDev = s.self) (hbody : p.body = .token t) :
    exec (.packetReceive port p) s = .next (((deliverItem s p).map dispatchAll).getD s) := by
  have harr : treeArrival s port p = deliverItem s p := by simp only [treeArrival, hbody]
  show execPacketReceive port p s = _
  simp [execPacketReceive, hport, hup, hen, hpart, hdev, harr]

theorem deliverItem_token (hbody : p.body = .token t) (hR : s.receiver? p.dstRid p.part = some R) :
    deliverItem s p = if R.inRoom s (keptItem p t) then some (s.putRegion (R.takeIn s p t)) else none := by
  simp only [deliverItem, hR, hbody]

end

theorem messageDelivery_meets {n bytes : Nat} {it : Item} {p : Packet} {b : Buffer} {ws : List W32} {mtag : W32}
    (hR : s.region? rid = some R) (hlive : R.live = true) (hitems : R.items = [it]) (hway : it.onWay = false) (hpkt : it.pkt = some p)
    (hbody : p.body = .message ws bytes mtag) (hwait : s.links.waiting = []) (hb : (R.buffers.find? fun b => b.box == p.eport) = some b)
    (hlocal : b.global = false) (hn : n = min bytes b.cap) {t : Token}
    (ht : t = { b.hdr with fmt := .n32, len := 3#3, e := clearAbove 3 [b2w (decide (n < bytes)), BitVec.ofNat 32 n, BitVec.ofNat 32 bytes, mtag] }) :
    exec (.messageDelivery rid 0) s = .next (answerSender (s.putRegion (Region.laterToken { R with items := [{ it with pins := [], dest := some (b.unit, b.dest), tok := t, global := false, addr := b.addr, words := ws.take (n / 4), onWay := true }], buffers := delFirst (· == b) R.buffers } s.cycle b.unit b.dest t)) p
      (if n < bytes then 1 else 0) n bytes) := by
  subst hn ht
  have hitem : [it][0]? = some it := rfl
  show execMessageDelivery rid 0 s = _
  simp only [execMessageDelivery, hR, hitem, hpkt, hbody, hb, hlive, hway, hwait, hlocal, hitems, List.take_zero, List.any_nil, Bool.or_self,
    Bool.not_true, Bool.not_false, Bool.false_eq_true, if_false, if_true, List.set_cons_zero]

theorem postDelivery_writes {va slot pa : Nat} {p : Packet} {ps : List Packet} {w : W32} {tl : Tlb} (hwait : s.links.waiting = p :: ps)
    (hbody : p.body = .post va [w]) (hrid : p.dstRid = rid) (hgone : s.gone rid = false) (hR : s.receiver? rid p.part = some R) (hva : va < 2 ^ 57)
    (hslot : s.slotOf R.part = some slot) (hwalk : walkAll s R false true [va] [] = .ok [tl]) (hfind : tlbFind [tl] va = some tl)
    (hpa : tl.paOf va = pa) (hfree : provBlocks s (some R.keyRid) pa = false) :
    exec (.postDelivery rid 0) s = .next (answerSender (writeBytes { s with links := { s.links with waiting := ps } } slot pa
      (toBytes 4 w.toNat)) p 0 4 4) := by
  have hva' : decide (va ≥ 2 ^ 57) = false := by simpa using hva
  have hp : (p :: ps)[0]? = some p := rfl
  have hvas : ((List.range [w].length).map fun i => va + 4 * i) = [va] := rfl
  have hpas : ([va].map fun v => ((tlbFind [tl] v).map fun t => t.paOf v).getD 0) = [pa] := by simp [hfind, hpa]
  show execPostDelivery rid 0 s = _
  simp only [execPostDelivery, hp, hbody, hrid, hgone, hR, hvas, List.any_cons, List.any_nil, hva', hslot, hwalk, hpas, hfree, List.take_zero, ne_eq,
    not_true_eq_false, decide_false, Bool.or_self, Bool.false_eq_true, if_false, hwait, delNth]
  rfl

theorem sendReport_arrives {id status placed n : Nat} {x : Send} {u : UnitId} {d : BitVec 16} {hdr t : Token} (hR : s.region? rid = some R)
    (hlive : R.live = true) (hsends : R.sends = [x]) (hid : x.pkt.id = id) (hst : x.st = .sent) (hreport : x.report = some (u, d, hdr))
    (hdev : x.pkt.dstDev ≠ s.self)
    (ht : t = { hdr with fmt := .n32, len := 2#3, e := clearAbove 2 ([status, placed, n].map (BitVec.ofNat 32)) }) :
    let s1 := s.putRegion (Region.laterToken { R with sends := [{ x with report := none }] } s.cycle u d t)
    exec (.sendReportArrival rid id status placed n) s = .next
      { s1 with links := { s1.links with replies := delFirst (· == (s.self, id, status, placed, n)) s1.links.replies } } := by
  intro s1
  subst ht
  have hfind : ([x].find? fun x => x.pkt.id == id && (x.st == .sent || x.st == .acked)) = some x := by simp [hid, hst]
  have hown : (x.pkt.dstDev == s.self) = false := by simpa using hdev
  have hst' : ¬ x.st = .acked := by simp [hst]
  show execSendReportArrival rid id status placed n s = _
  simp only [execSendReportArrival, hR, hfind, hreport, hlive, hown, hst', hsends, modFirst, beq_self_eq_true, Bool.not_true, Bool.false_and, Bool.or_self,
    Bool.false_eq_true, if_false, if_true]
  rfl

theorem callResponse_delivered {c : Call} {cs : List Call} {len : BitVec 3} {f : Fmt} {exc : Bool} {e : List W32} (hR : s.region? rid = some R)
    (hlive : R.live = true) (hresponses : R.responses = c :: cs) (hresp : c.resp = some (len, f, exc, e)) {t : Token} {it : Item}
    (ht : t = { c.tok with len := len, fmt := f, exc := exc, err := false, act := .normal, kind := .data, e := f.payload len.toNat e })
    (hit : it = { id := s.links.nextId, pins := [], pkt := none, dest := some (c.unit, c.dest), tok := t, global := false, addr := 0, words := [], onWay := true, stamped := none })
    (hroom : R.inRoom s it = true) :
    let s1 := s.putRegion (Region.laterToken { R with responses := cs, items := R.items ++ [it] } s.cycle c.unit c.dest t)
    exec (.callResponseDelivery rid) s = .next { s1 with links := { s1.links with nextId := s1.links.nextId + 1 } } := by
  intro s1
  subst hit
  subst ht
  show execCallResponseDelivery rid s = _
  simp only [execCallResponseDelivery, hR, hresponses, hlive, hresp, hroom, Bool.not_true, Bool.false_eq_true, if_false]
  rfl

theorem probe_answered {dev target : Nat} {part : BitVec 16} (hR : s.receiver? target part = some R)
    (hown : dev = s.self → ∃ Q, s.region? rid = some Q ∧ Q.armed = true ∧ (dev, target) ∈ Q.probes ∧ Q.part = part)
    (hnew : (dev, rid, target) ∉ s.links.answers) :
    exec (.probe dev rid part target) s = .next { s with links := { s.links with answers := s.links.answers ++ [(dev, rid, target)] } } := by
  have hmade : (dev != s.self || (s.region? rid).any fun R => R.armed && R.probes.contains (dev, target) && R.part == part) = true := by
    by_cases hdev : dev = s.self
    · obtain ⟨Q, hQ, harmed, hprobe, hpart⟩ := hown hdev
      simp [hQ, harmed, hprobe, hpart]
    · simp [hdev]
  have hnew' : s.links.answers.contains (dev, rid, target) = false := by simpa using hnew
  show execProbe dev rid part target s = _
  simp only [execProbe, hR, hmade, hnew', Bool.not_true, Bool.or_self, Bool.false_eq_true, if_false]

theorem probeAnswer_arrives {dev target : Nat} (hR : s.region? rid = some R) (harmed : R.armed = true) (hprobe : (dev, target) ∈ R.probes)
    (hdev : dev ≠ s.self) :
    let s1 := s.putRegion { R with probes := delFirst (· == (dev, target)) R.probes }
    exec (.probeAnswer rid dev target) s = .next
      { s1 with links := { s1.links with answers := delFirst (· == (dev, rid, target)) s1.links.answers } } := by
  intro s1
  have hgo : (!R.armed || !R.probes.contains (dev, target) || (dev == s.self && !s.links.answers.contains (dev, rid, target))) = false := by
    simp [harmed, hprobe, hdev]
  show execProbeAnswer rid dev target s = _
  simp only [execProbeAnswer, hR, hgo, Bool.false_eq_true, if_false]
  rfl

theorem nredCombine_one {tree inst : Nat} {x : Inst} {a : Nat × Fmt × BitVec 2 × List W32 × Bool} (hx : s.inst? tree inst = some x)
    (hout : x.out = none) (hup : x.up = false) (hneed : treeInputs (s.tree tree) = [a.1]) (hin : x.inputs = [a]) :
    exec (.nredCombine tree inst) s = .next (dispatchAll (outcomeHere s tree inst (.contribution tree inst a.2.2.1 a.2.1 a.2.2.2.1 a.2.2.2.2)
      (.ok (a.2.2.2.1, a.2.2.2.2)))) := by
  have hwait : (x.out.isSome || x.up || !(treeInputs (s.tree tree)).all (fun p => x.inputs.any fun q => q.1 == p)) = false := by
    simp [hout, hup, hneed, hin]
  have hins : ((treeInputs (s.tree tree)).filterMap fun p => x.inputs.find? fun q => q.1 == p) = [a] := by simp [hneed, hin]
  show execNredCombine tree inst s = _
  simp only [execNredCombine, hx, hwait, hins, List.any_nil, List.foldl_nil, Bool.false_eq_true, if_false]

theorem nredDeadline_missed {tree inst : Nat} {x : Inst} (hx : s.inst? tree inst = some x) (hout : x.out = none) (hup : x.up = false)
    (hpos : 0 < (s.tree tree).deadline.toNat) (hdue : x.first + (s.tree tree).deadline.toNat * Config.microsecond ≤ s.cycle)
    (hmiss : ∃ p ∈ treeInputs (s.tree tree), ∀ q ∈ x.inputs, q.1 ≠ p) :
    exec (.nredDeadline tree inst) s = .next (dispatchAll (failInst s x 1)) := by
  have hall : ((treeInputs (s.tree tree)).all fun p => x.inputs.any fun q => q.1 == p) = false := by
    obtain ⟨p, hp, hnone⟩ := hmiss
    rw [List.all_eq_false]
    refine ⟨p, hp, ?_⟩
    rw [Bool.not_eq_true, List.any_eq_false]
    intro q hq
    simpa using hnone q hq
  have hwait : (decide ((s.tree tree).deadline.toNat = 0) || x.out.isSome || x.up
      || decide (s.cycle < x.first + (s.tree tree).deadline.toNat * Config.microsecond)
      || (treeInputs (s.tree tree)).all fun p => x.inputs.any fun q => q.1 == p) = false := by
    rw [hall]
    simp [hout, hup, Nat.ne_of_gt hpos, Nat.not_lt.2 hdue]
  show execNredDeadline tree inst s = _
  simp only [execNredDeadline, hx, hwait, Bool.false_eq_true, if_false]

end

/-- Settles O32: each event of the links follows its one branch. -/
theorem linkEventsComplete : Obligations.LinkEventsComplete := by
  refine ⟨fun s R Rs x hregs hsends hst hreport _ => linkAcknowledge_leaves hregs hsends hst hreport,
    fun s port x p t R hport hup hen hpart hdev hbody hR => ⟨fun hroom => ?_, fun hfull => ?_⟩,
    fun s rid n bytes R it p b ws mtag hR hlive hitems hway hpkt hbody hwait hb hlocal hn => ?_,
    fun s rid va slot pa p ps w R tl hwait hbody hrid hgone hR hva hslot hwalk hfind hpa hfree =>
      postDelivery_writes hwait hbody hrid hgone hR hva hslot hwalk hfind hpa hfree,
    fun s rid id status placed n R x u d hdr hR hlive hsends hid hst hreport hdev => ?_,
    fun s rid R c cs len f exc e hR hlive hresponses hresp => ?_,
    fun s dev rid target part R hR hown hnew => probe_answered hR hown hnew,
    fun s rid dev target R hR harmed hprobe hdev => probeAnswer_arrives hR harmed hprobe hdev,
    fun s tree inst x hx hout hup => ⟨fun a hneed hin => nredCombine_one hx hout hup hneed hin,
      fun hpos hdue hmiss => nredDeadline_missed hx hout hup hpos hdue hmiss⟩,
    fun s port peer x hport hup => ?_⟩
  · rw [packetReceive_here hport hup hen hpart hdev hbody, deliverItem_token hbody hR, if_pos hroom]
    rfl
  · rw [packetReceive_here hport hup hen hpart hdev hbody, deliverItem_token hbody hR, if_neg (by simp [hfull])]
    rfl
  · intro t it' R1
    exact messageDelivery_meets hR hlive hitems hway hpkt hbody hwait hb hlocal hn rfl
  · intro t
    exact sendReport_arrives hR hlive hsends hid hst hreport hdev rfl
  · intro t it hroom
    exact callResponse_delivered hR hlive hresponses hresp rfl rfl hroom
  · show execPortUpChange port true peer s = _
    simp only [execPortUpChange, hport, hup, Bool.false_eq_true, if_false, if_true, Bool.or_true]

end Sys2Proof
end

section
/-! SUPPORT. Page walks (O33) and the events of a region's life (O34). -/

namespace Sys2Proof
open Machine

/-- Settles O33: a walk that its asker still wants ends in a translation or in a report. -/
theorem pageWalkCompletes : Obligations.PageWalkCompletes := by
  intro s w ws R hwalks hR hwants s0
  have hw : s.walks[0]? = some w := by rw [hwalks]; rfl
  have hrest : delNth s.walks 0 = ws := by rw [hwalks]; rfl
  have hruns : walkRuns s 0 w = true := rfl
  refine ⟨fun t hpage => ?_, fun habsent => ?_⟩
  · show execPageWalkComplete 0 s = _
    simp only [execPageWalkComplete, hw, hR, hruns, hwants, hpage, hrest, Bool.not_true, Bool.false_eq_true, if_false]
    rfl
  · show execPageWalkComplete 0 s = _
    simp only [execPageWalkComplete, hw, hR, hruns, hwants, habsent, hrest, Bool.not_true, Bool.false_eq_true, if_false]
    rfl

section
variable {s : State} {rid : Nat} {R : Region}

theorem dieConfigAck_loads {die : Nat} (hR : s.region? rid = some R) (hkilling : R.killing = false) (hloading : R.loading = true) (hdies : R.dies = [die]) :
    exec (.dieConfigAck rid die) s = .next (retireStalls (adoptWaiting (s.putRegion
      { R with acks := setAdd R.acks die, loading := false, st := .loaded }) rid) rid [.load] 0x00) := by
  have hgo : (!R.loading || !R.dies.contains die || R.killing) = false := by simp [hloading, hdies, hkilling]
  have hall : (Region.dies { R with acks := setAdd R.acks die }).all (setAdd R.acks die).contains = true := by
    show R.dies.all _ = true
    rw [hdies, List.all_cons, List.all_nil, Bool.and_true]
    exact setAdd_contains _ _
  show execDieConfigAck rid die s = _
  simp only [execDieConfigAck, hR, hgo, hall, Bool.false_eq_true, if_false, if_true]

theorem sourceRelease_runs (hR : s.region? rid = some R) (hkilling : R.killing = false) (haside : R.aside = false) (harmed : R.armed = true)
    (hst : R.st = .loaded) (hdep : R.dep = none) (hprobes : R.probes = []) (htrees : R.treesReady s = true) (htrip : s.boot.thermtrip = false)
    (hacks : ∀ d ∈ R.dies, d ∈ R.acks) :
    exec (.sourceRelease rid) s = .next
      (s.putRegion { R with st := .running, armed := false, dep := none, released := true, since := s.cycle }) := by
  have hall : R.dies.all R.acks.contains = true := by simpa using hacks
  have hgo : (!R.armed || decide (R.st ≠ .loaded) || R.killing || R.aside || !R.probes.isEmpty || !R.treesReady s || !true || s.boot.thermtrip
      || !R.dies.all R.acks.contains) = false := by
    rw [hall]
    simp [harmed, hst, hkilling, haside, hprobes, htrees, htrip]
  show execSourceRelease rid s = _
  simp only [execSourceRelease, hR, hdep, hgo, Bool.false_eq_true, if_false]

theorem freezeHalt_freezes (hR : s.region? rid = some R) (hkilling : R.killing = false) (haside : R.aside = false) (hroll : R.roll = none)
    (herrand : R.errand = none) (hst : R.st = .running) (hhalting : R.halting = true) (hhalted : R.halted s.cycle = true) :
    exec (.freezeHaltReport rid) s = .next (retireStalls (s.putRegion { R with st := .frozen }) rid [.freeze] 0x00) := by
  have hdrop : R.dropEviction = R := by simp [Region.dropEviction, herrand]
  have hgo : (R.killing || R.aside || R.roll.isSome || !(R.halting || R.draining)) = false := by simp [hkilling, haside, hroll, hhalting]
  show execFreezeHaltReport rid s = _
  have hquiet : ¬ (decide (R.st = .quiesced) && R.errand.isSome) = true := by simp [herrand]
  have hruns : ¬ (!(R.st == .running || R.st == .frozen)) = true := by simp [hst]
  simp only [execFreezeHaltReport, hR, hdrop, hgo, hquiet, hruns, hhalted, Bool.not_true, Bool.false_eq_true, if_false]
  rw [if_pos hst]

theorem drainLinkdown_reports {Q : Region} (hR : s.region? rid = some R) (hkilling : R.killing = false) (hroll : R.roll = none) (hst : R.st = .frozen)
    (hdraining : R.draining = true) (hdone : R.enginesDone s = true) (hstuck : R.unacked.any (·.stuck s) = true)
    (hQ : (quiesceRegion s R).region? rid = some Q) (herrand : Q.errand = none) :
    exec (.drainLinkdown rid) s = .next (retireStalls ((quiesceRegion s R).putRegion
      { Q with draining := false, halting := Q.fault.isNone }) rid [.drain] 0x0E) := by
  have hgo : (R.killing || R.roll.isSome || decide (R.st ≠ .frozen) || !R.draining || !R.enginesDone s || !R.unacked.any (·.stuck s)) = false := by
    rw [hdone, hstuck]
    simp [hkilling, hroll, hst, hdraining]
  show execDrainLinkdown rid s = _
  simp only [execDrainLinkdown, hR, hgo, hQ, herrand, Bool.false_eq_true, if_false]

theorem sliceExpiry_evicts (hR : s.region? rid = some R) (hpool : s.yard.poolSize ≠ 0#32) (halloc : allocWaits s = false)
    (herrands : errandsOpen s = false) (hrestoring : s.yard.restoring = none) (hone : R.oneSlice = true) (hidle : R.idleRun = true)
    (hstall : noStall s rid = true) (hdue : R.since + s.yard.sliceCycles ≤ s.cycle) (hwaits : restoreOrder s ≠ []) :
    exec (.yardSliceExpiry rid) s = .next (startEvictions s ((withPartner s R).map (·.rid))) := by
  have hgo : (decide (s.yard.poolSize = 0#32) || allocWaits s || errandsOpen s || s.yard.restoring.isSome) = false := by
    simp [hpool, halloc, herrands, hrestoring]
  have hover : (R.oneSlice && R.idleRun && noStall s rid && decide (R.since + s.yard.sliceCycles ≤ s.cycle)) = true := by
    simp [hone, hidle, hstall, hdue]
  have hothers : (restoreOrder s).isEmpty = false := by simpa using hwaits
  show execYardSliceExpiry rid s = _
  simp only [execYardSliceExpiry, hR, hgo, hover, hothers, Bool.false_eq_true, if_false, if_true]

theorem minimumShare_restores (hR : s.region? rid = some R) (hkilling : R.killing = false) (hst : R.st = .evicted) (hmin : s.yard.minwait ≠ 0#16)
    (halloc : allocWaits s = false) (herrands : errandsOpen s = false) (hrestoring : s.yard.restoring = none)
    (hdue : R.since + s.yard.minwait.toNat * s.yard.sliceCycles ≤ s.cycle) (horigin : (originFor s R).isSome = true) :
    let s1 := s.putRegion { R with oneSlice := true }
    exec (.yardMinimumShare rid) s = .next { s1 with yard := { s1.yard with restoring := some rid } } := by
  intro s1
  have hgo : (!R.out || decide (s.yard.minwait = 0#16) || allocWaits s || errandsOpen s || s.yard.restoring.isSome
      || decide (s.cycle < R.since + s.yard.minwait.toNat * s.yard.sliceCycles)) = false := by
    simp [Region.out, hst, hkilling, hmin, halloc, herrands, hrestoring, Nat.not_lt.2 hdue]
  show execYardMinimumShare rid s = _
  simp only [execYardMinimumShare, hR, hgo, horigin, Bool.false_eq_true, if_false, if_true]
  rfl

theorem yardRestore_restores {x y : Nat} (hR : s.region? rid = some R) (hkilling : R.killing = false) (hst : R.st = .evicted)
    (hback : R.backTo = .running) (htrip : s.boot.thermtrip = false) (halloc : allocWaits s = false) (herrands : errandsOpen s = false)
    (hnext : nextRestore s = some (R, x, y)) (hrid : R.rid = rid) (hdying : pagesDying s x y R.w R.h = false) :
    let s1 := dropPool (s.putRegion { R.relocate x y with st := .running, since := s.cycle, backTo := .running }) rid
    exec (.yardRestore rid) s = .next (adoptWaiting (State.pend { s1 with yard := { s1.yard with restoring := none } } 4) rid) := by
  intro s1
  have hgo : (!R.out || s.boot.thermtrip || allocWaits s || errandsOpen s) = false := by simp [Region.out, hst, hkilling, htrip, halloc, herrands]
  have hmine : (decide (R.rid ≠ rid) || pagesDying s x y R.w R.h) = false := by simp [hrid, hdying]
  have hrun : (if R.backTo = .free then RState.running else R.backTo) = .running := by simp [hback]
  show execYardRestore rid s = _
  simp only [execYardRestore, hR, hgo, hnext, hmine, hrun, Bool.false_eq_true, if_false]
  rfl

theorem killComplete_frees (hR : s.region? rid = some R) (hkilling : R.killing = true) (hacked : R.unacked = []) :
    exec (.killComplete rid) s = .next { s with regions := s.regions.filter fun Q => Q.rid != rid } := by
  have hgo : (!R.killing || !R.unacked.isEmpty) = false := by simp [hkilling, hacked]
  show execKillComplete rid s = _
  simp only [execKillComplete, hR, hgo, Bool.false_eq_true, if_false]

end

/-- Settles O34: each event of a region's life follows its one branch. -/
theorem yardEventsComplete : Obligations.YardEventsComplete := by
  refine ⟨fun s rid R hR hkilling haside hroll herrand => ⟨fun die hloading hdies => ?_,
    fun harmed hst hdep hprobes htrees htrip hacks => sourceRelease_runs hR hkilling haside harmed hst hdep hprobes htrees htrip hacks,
    fun hst hhalting hhalted => freezeHalt_freezes hR hkilling haside hroll herrand hst hhalting hhalted,
    fun Q hst hdraining hdone hstuck hQ hnone _ => drainLinkdown_reports hR hkilling hroll hst hdraining hdone hstuck hQ hnone,
    fun hpool halloc herrands hrestoring hone hidle hstall hdue hwaits =>
      sliceExpiry_evicts hR hpool halloc herrands hrestoring hone hidle hstall hdue hwaits,
    fun hst hmin halloc herrands hrestoring hdue horigin => minimumShare_restores hR hkilling hst hmin halloc herrands hrestoring hdue horigin,
    fun x y hst hback htrip halloc herrands hnext hrid hdying =>
      yardRestore_restores hR hkilling hst hback htrip halloc herrands hnext hrid hdying⟩,
    fun s rid R hR hkilling hacked => killComplete_frees hR hkilling hacked⟩
  intro R1
  exact dieConfigAck_loads hR hkilling hloading hdies

end Sys2Proof
end

section
/-! SUPPORT. Rounds: seal, confirmation, rollback, replay and the pair comparator (O35). -/

namespace Sys2Proof
open Machine

/-! ### What confirmation leaves of a region -/

theorem confirmed_mu {U : Site} {n : BitVec 12} {m : Mu} (h : (U.confirm n).eng = .mu m) :
    (∀ e ∈ m.undo, e.round ≠ n) ∧ ∀ d ∈ m.dedup, d.key.round ≠ n := by
  cases he : U.eng <;> simp only [Site.confirm, he] at h <;> try cases h
  simp

theorem confirm_leaves (R : Region) (t : Nat) (n : BitVec 12) (hpair : R.pair = none) :
    let Q := R.confirm t n
    Q.conf = some n ∧ Q.held = R.held.filter (fun h => h.key.round != n) ∧
      Q.sends = R.sends.map (fun x => if x.st = .held && x.round = n then { x with st := .ready } else x) ∧
      Q.calls = R.calls.map (fun c => if c.st = .unconfirmed && c.tok.round = n then { c with st := .queued } else c) ∧
      Q.heldLog = R.heldLog.filter (fun e => e.round != n) ∧ (∀ x ∈ Q.replayed, x ≠ n) ∧
      ∀ U ∈ Q.units, ∀ m, U.eng = .mu m → (∀ e ∈ m.undo, e.round ≠ n) ∧ ∀ d ∈ m.dedup, d.key.round ≠ n := by
  intro Q
  have hfalse : R.pair.isSome = false := by simp [hpair]
  refine ⟨rfl, rfl, ?_, ?_, rfl, fun x hx => ?_, fun U hU m hm => ?_⟩
  · simp only [Q, Region.confirm, hfalse, Bool.false_eq_true, if_false]
  · simp only [Q, Region.confirm, hfalse, Bool.false_eq_true, if_false]
  · simpa using (List.mem_filter.1 hx).2
  · obtain ⟨V, _, rfl⟩ := List.mem_map.1 hU
    exact confirmed_mu hm

/-! ### Seal and confirmation -/

section
variable {s : State} {rid : Nat} {R : Region}

theorem roundSeal_seals (hR : s.region? rid = some R) (hkilling : R.killing = false) (hroll : R.roll = none) (hst : R.st = .running)
    (hcan : R.canSeal s.self R.openRound = true) :
    exec (.roundSeal rid) s = .next (s.putRegion { R with seals := R.seals ++ [(R.openRound, s.cycle)] }) := by
  have hdue : R.sealDue s.self = true := by simp [Region.sealDue, hkilling, hroll, hst, hcan]
  show execRoundSeal rid s = _
  simp only [execRoundSeal, hR, hdue, if_true]
  rfl

theorem confirmOne_early {n : BitVec 12} {t : Nat} {rest : List (BitVec 12 × Nat)} (hR : s.region? rid = some R) (hseals : R.seals = (n, t) :: rest)
    (h : s.cycle < t + 288 ∨ R.roll.isSome = true ∨ R.deafPage s = true) : confirmOne s rid = none := by
  have hwait : (decide (s.cycle < t + Config.holdCycles) || R.killing || R.roll.isSome || R.deafPage s) = true := by
    rcases h with h | h | h <;> simp [Config.holdCycles, h]
  simp only [confirmOne, hR, hseals, hwait, if_true]

/-- Entries of a pair go to the comparator; those of any other region meet no line that is provisional for another. -/
theorem blocked_false {mine : List Held} (h : R.pair = none → ∀ x ∈ mine, x.blocked s R.keyRid = false) :
    (!R.pair.isSome && mine.any fun x => x.blocked s R.keyRid) = false := by
  cases hpair : R.pair with
  | some x => rfl
  | none => simpa using h hpair

theorem confirmOne_due {n : BitVec 12} {t : Nat} {rest : List (BitVec 12 × Nat)} (hR : s.region? rid = some R) (hkilling : R.killing = false)
    (hseals : R.seals = (n, t) :: rest) (hdue : t + 288 ≤ s.cycle) (hroll : R.roll = none) (hdeaf : R.deafPage s = false) (hleaving : R.leaving = []) :
    let mine := R.held.filter fun h => h.key.round == n
    (R.pair = none → ∀ h ∈ mine, h.blocked s R.keyRid = false) →
    let s1 := if R.pair.isSome then s else mine.foldl R.release s
    let keep (k : Nat) (r : BitVec 12) : Bool := !(k == R.keyRid && r == n && (R.partner? s).all fun Q => !newerThan Q.conf n)
    let shown := s1.home.prov.filter fun p => p.wrote && !keep p.rid p.round
    let s2 := shown.foldl (fun s p => breakResv s none (p.line * 64)) { s1 with home := { s1.home with prov := s1.home.prov.filter (fun p => keep p.rid p.round), dedup := s1.home.dedup.filter fun d => keep d.key.rid d.key.round } }
    let R1 := (((s2.region? rid).getD R).confirm s.ticks n).stampCalls s.ticks n
    let s3 := (s2.putRegion (if R.pair.isSome then { R1 with leaving := R.toComp n } else R1)).entered
    let s4 := if R1.calls.any (fun c => c.ready R1.calls && c.tok.round == n && c.came == s.ticks) then s3.pend 0 else s3
    confirmOne s rid = some (dispatchAll (releaseOutcomes ((noteEos s4 rid).recheck rid))) := by
  intro mine hfree s1 keep shown s2 R1 s3 s4
  have hgo : (decide (s.cycle < t + Config.holdCycles) || R.killing || R.roll.isSome || R.deafPage s) = false := by
    simp [Config.holdCycles, Nat.not_lt.2 hdue, hkilling, hroll, hdeaf]
  have hfree' := blocked_false hfree
  have hempty : (!R.leaving.isEmpty) = false := by simp [hleaving]
  cases hpartner : R.partner? s with
  | none =>
    simp only [s4, s3, R1, s2, shown, keep, s1, mine, hpartner, confirmOne, hR, hseals, hgo, hempty, Bool.false_eq_true, if_false]
    rw [if_neg (by simpa [mine] using hfree')]
    rfl
  | some Q =>
    simp only [s4, s3, R1, s2, shown, keep, s1, mine, hpartner, confirmOne, hR, hseals, hgo, hempty, Bool.false_eq_true, if_false]
    rw [if_neg (by simpa [mine] using hfree')]
    rfl

/-! ### Rollback and replay -/

theorem rollWith_sound {c : Option (BitVec 12)} {replay keepFault : Bool} {f : Region → Region} (hR : s.region? rid = some R)
    (hbad : R.badUndo c = none) : rollWith s R c replay keepFault f = (rollRegion s rid c replay keepFault).modRegion rid f := by
  simp only [rollWith, hbad, region?_rid hR]

theorem rollback_scrubs {x : Roll} (hR : s.region? rid = some R) (hroll : R.roll = some x) (hbad : R.badUndo x.c = none) :
    let undone (Q : Region) : Bool := R.fault.isSome && Q.fault.isNone && x.back == .frozen
    let s1 := countRollback ((rollRegion s rid x.c false false).modRegion rid fun Q =>
      { Q with roll := none, st := if undone Q && !R.halting && !s.boot.thermtrip then .running else x.back })
    ∀ Q, s1.region? rid = some Q →
      (Q.scrub x.area = none → exec (.rollback rid) s = .next (s1.recheck rid)) ∧
      (∀ page w, Q.scrub x.area = some (page, w) →
        exec (.rollback rid) s = .next ((takeFault s1 rid (muFault page .stateLost w)).recheck rid)) := by
  intro undone s1 Q hQ
  refine ⟨fun hscrub => ?_, fun page w hscrub => ?_⟩
  all_goals
    show execRollback rid s = _
    simp only [execRollback, hR, hroll, rollWith_sound hR hbad]
    simp only [s1, undone] at hQ ⊢
    simp only [hQ, Option.bind_some, hscrub]

theorem older_self (r : BitVec 12) : older r r = false := by simp [older]

theorem errTag_oldest {r : BitVec 12} {f : FaultRec} (htags : R.errTags = [(r, f)]) :
    (R.errTags.find? fun t => R.errTags.all fun q => !older q.1 t.1) = some (r, f) := by simp [htags, older_self]

theorem roundReplay_replays {r : BitVec 12} {f : FaultRec} (hR : s.region? rid = some R) (htags : R.errTags = [(r, f)]) (hlive : R.live = true)
    (hnew : r ∉ R.replayed) (hbad : R.badUndo (if R.conf.isNone && r = 0#12 then none else some (r - 1#12)) = none) :
    exec (.roundReplay rid) s = .next (((rollRegion s rid (if R.conf.isNone && r = 0#12 then none else some (r - 1#12)) true false).modRegion
      rid fun Q => { Q with replayed := Q.replayed ++ [r] }).recheck rid) := by
  have hnew' : R.replayed.contains r = false := by simpa using hnew
  show execRoundReplay rid s = _
  simp only [execRoundReplay, hR, errTag_oldest htags, hlive, hnew', Bool.not_true, Bool.false_eq_true, if_false, rollWith_sound hR hbad]

theorem roundReplay_repeats {r : BitVec 12} {f : FaultRec} (hR : s.region? rid = some R) (htags : R.errTags = [(r, f)]) (hlive : R.live = true)
    (hagain : r ∈ R.replayed) : exec (.roundReplay rid) s = .next (takeFault (s.putRegion { R with errTags := [] }) rid f) := by
  have hagain' : R.replayed.contains r = true := by simpa using hagain
  have hgone : delFirst (· == (r, f)) R.errTags = [] := by simp [htags, delFirst]
  show execRoundReplay rid s = _
  simp only [execRoundReplay, hR, errTag_oldest htags, hlive, hagain', hgone, Bool.not_true, Bool.false_eq_true, if_false, if_true]

/-! ### The comparator -/

theorem comparatorMatch_releases {c d : Comp} {cs : List Comp} {Q : Region} (hcomp : s.comp = c :: cs) (hR : s.region? c.rid = some R)
    (hQ : R.partner? s = some Q) (hd : (s.comp.find? fun e => e.rid == Q.rid && e.round == c.round && e.item.sameKey c.item) = some d)
    (hagrees : d.item.agrees c.item = true) (hprimary : c.primary = true)
    (holdest : ∀ e ∈ s.comp, e.rid = c.rid → older e.round c.round = false) (hmatch : s.mismatched R Q c.round = false)
    (hfree : ∀ h, c.item = .line h → h.blocked s R.keyRid = false) :
    exec (.comparatorMatch 0) s = .next (releaseComp { s with comp := s.comp.filter fun e => e != c && e != d } c) := by
  have hc : s.comp[0]? = some c := by rw [hcomp]; rfl
  have hlost : (s.comp.any fun e => e.rid == c.rid && decide (older e.round c.round = true)) = false := by
    rw [List.any_eq_false]
    intro e he
    by_cases hrid : e.rid = c.rid
    · simp [holdest e he hrid]
    · simp [hrid]
  show execComparatorMatch 0 s = _
  simp only [execComparatorMatch, hc, hR, hQ, hd, hagrees, hprimary, hlost, hmatch, List.take_zero, List.any_nil, Bool.not_true, Bool.or_self,
    Bool.false_eq_true, if_false]
  cases hitem : c.item with
  | line h => simp only [hfree h hitem, Bool.false_eq_true, if_false]
  | send x => rfl
  | call x => rfl

theorem comparatorMatch_faults {c d : Comp} {cs : List Comp} {Q : Region} (hcomp : s.comp = c :: cs) (hR : s.region? c.rid = some R)
    (hQ : R.partner? s = some Q) (hd : (s.comp.find? fun e => e.rid == Q.rid && e.round == c.round && e.item.sameKey c.item) = some d)
    (hagrees : d.item.agrees c.item = false) :
    exec (.comparatorMatch 0) s = .next
      (takeFault (takeFault s R.rid (R.keyFault c.item.key .redundancyMismatch)) Q.rid (Q.keyFault c.item.key .redundancyMismatch)) := by
  have hc : s.comp[0]? = some c := by rw [hcomp]; rfl
  show execComparatorMatch 0 s = _
  simp only [execComparatorMatch, hc, hR, hQ, hd, hagrees, Bool.not_false, if_true]

end

/-- Settles O35: what confirmation leaves of a region, and the branch that each event of a round takes. -/
theorem roundEventsComplete : Obligations.RoundEventsComplete := by
  refine ⟨confirm_leaves, fun s rid R hR hkilling => ⟨fun hroll hst hcan => roundSeal_seals hR hkilling hroll hst hcan,
    fun n t rest hseals => ⟨fun h => ?_, fun hdue hroll hdeaf hleaving => ?_⟩, fun x hroll hbad => rollback_scrubs hR hroll hbad,
    fun r f htags hlive hnew => ?_, fun r f htags hlive hagain => roundReplay_repeats hR htags hlive hagain,
    fun c d cs Q hcomp hrid hQ hd => ?_⟩⟩
  · show Host.Outcome.next ((confirmOne s rid).getD s) = _
    rw [confirmOne_early hR hseals h]
    rfl
  · intro mine hfree s1 keep shown s2 R1 s3 s4
    show Host.Outcome.next ((confirmOne s rid).getD s) = _
    exact congrArg (fun (o : Option State) => Host.Outcome.next (o.getD s)) (confirmOne_due hR hkilling hseals hdue hroll hdeaf hleaving hfree)
  · intro c hbad
    exact roundReplay_replays hR htags hlive hnew hbad
  · subst hrid
    exact ⟨fun hagrees hprimary holdest hmatch hfree => comparatorMatch_releases hcomp hR hQ hd hagrees hprimary holdest hmatch hfree,
      fun hagrees => comparatorMatch_faults hcomp hR hQ hd hagrees⟩

end Sys2Proof
end

section
/-! SUPPORT. Strikes, deaf cells and the in-field test (O36). -/

namespace Sys2Proof
open Machine

theorem foldl_confirmDue_none (l : List Region) (s : State) (h : ∀ R ∈ l, R.seals = []) :
    l.foldl (fun s R => confirmDue R.rid R.seals.length s) s = s := by
  induction l with
  | nil => rfl
  | cons R t ih =>
    obtain ⟨hR, ht⟩ := List.forall_mem_cons.1 h
    rw [List.foldl_cons, hR]
    exact ih ht

section
variable {s : State} {die cx cy : Nat}

/-- The site of a report lies on the device. -/
theorem strike_inside (hdie : die ≤ 1) (hcx : cx ≤ 7) (hcy : cy ≤ 7) : ¬ (decide (die > 1) || decide (cx > 7) || decide (cy > 7)) = true := by
  simp [hdie, hcx, hcy]

/-- The count of reports stays at its greatest value (R358). -/
theorem saturated_reports (r : BitVec 32) : (if r = 0xFFFFFFFF#32 then r else r + 1#32) = if r = 0xFFFFFFFF#32 then 0xFFFFFFFF#32 else r + 1#32 := by
  split
  · assumption
  · rfl

theorem asaSelfCheck_deaf (hcx : cx ≤ 7) (hcy : cy ≤ 7) :
    exec (.asaSelfCheck 0 cx cy true) s = .next { s with yard := { s.yard with deaf0 := setBit s.yard.deaf0 (8 * cy + cx) true } } ∧
    exec (.asaSelfCheck 1 cx cy true) s = .next { s with yard := { s.yard with deaf1 := setBit s.yard.deaf1 (8 * cy + cx) true } } := by
  have h0 : ¬ (!true || decide (0 > 1) || decide (cx > 7) || decide (cy > 7)) = true := by simp [hcx, hcy]
  have h1 : ¬ (!true || decide (1 > 1) || decide (cx > 7) || decide (cy > 7)) = true := by simp [hcx, hcy]
  refine ⟨?_, ?_⟩
  · show execAsaSelfCheck 0 cx cy true s = _
    rw [execAsaSelfCheck, if_neg h0]
    rfl
  · show execAsaSelfCheck 1 cx cy true s = _
    rw [execAsaSelfCheck, if_neg h1]
    rfl

theorem deafCell_moves {rid x y : Nat} {R : Region} (hR : s.region? rid = some R) (hdeaf : R.deafPage s = true) (hst : R.st = .running)
    (hkilling : R.killing = false) (haside : R.aside = false) (herrand : R.errand = none) (hroll : R.roll = none) (hloading : R.loading = false)
    (hplace : place s [rid] R.w R.h (some R) none = some (x, y)) (hdying : pagesDying s x y R.w R.h = false)
    (hshares : sharesBusy s (R.relocate x y) = false) : exec (.deafCellMove rid) s = .next
      (s.putRegion { R with errand := some (.move x y .running false), halting := true, draining := true }) := by
  have hgo : (!R.deafPage s || !R.resident || R.killing || R.aside || R.errand.isSome || R.roll.isSome || R.loading) = false := by
    simp [hdeaf, Region.resident, hst, hkilling, haside, herrand, hroll, hloading]
  have hfree : (pagesDying s x y R.w R.h || sharesBusy s (R.relocate x y)) = false := by rw [hdying, hshares]; rfl
  have hstill : R.still = false := by simp [Region.still, hst]
  have hwas : R.wasIn = .running := by simp [Region.wasIn, herrand, hst]
  show execDeafCellMove rid s = _
  simp only [execDeafCellMove, hR, hgo, hplace, hfree, yardMove, hstill, hwas, Bool.false_eq_true, if_false]

end

theorem mem_of_mem_insertBy {α : Type} {before : α → α → Bool} {a b : α} {l : List α} (h : b ∈ insertBy before a l) : b = a ∨ b ∈ l := by
  induction l with
  | nil => exact .inl (by simpa [insertBy] using h)
  | cons c t ih =>
    rw [insertBy] at h
    split at h
    · exact List.mem_cons.1 h
    · rcases List.mem_cons.1 h with rfl | h
      · exact .inr List.mem_cons_self
      · exact (ih h).imp_right (List.mem_cons_of_mem c)

theorem mem_of_mem_foldl_insertBy {α : Type} {before : α → α → Bool} {b : α} (l t : List α)
    (h : b ∈ l.foldl (fun t a => insertBy before a t) t) : b ∈ l ∨ b ∈ t := by
  induction l generalizing t with
  | nil => exact .inr h
  | cons a l ih =>
    rcases ih (insertBy before a t) h with h | h
    · exact .inl (List.mem_cons_of_mem a h)
    · rcases mem_of_mem_insertBy h with rfl | h
      · exact .inl List.mem_cons_self
      · exact .inr h

theorem mem_of_mem_sortBy {α : Type} {before : α → α → Bool} {b : α} {l : List α} (h : b ∈ sortBy before l) : b ∈ l := by
  cases l with
  | nil => exact h
  | cons a t => exact (mem_of_mem_foldl_insertBy (a :: t) [] h).resolve_right List.not_mem_nil

theorem mem_of_mem_byRid {s : State} {R : Region} (h : R ∈ s.byRid) : R ∈ s.regions := mem_of_mem_sortBy h

theorem iftInterval_withdraws {s : State} {k : Nat} (hnext : nextCluster s.yard.iftRet s.yard.iftNext.toNat = some k) (htest : s.yard.iftTest = none)
    (hempty : ∀ R ∈ s.regions, R.inCluster k = false) :
    exec .iftInterval s = .next { s with yard := { s.yard with iftTest := some k } } := by
  have hnone : (State.byRid { s with yard := { s.yard with iftTest := some k } }).filter (fun R => R.inCluster k && !R.killing) = [] := by
    rw [List.filter_eq_nil_iff]
    intro R hR
    simp [hempty R (mem_of_mem_byRid hR)]
  show execIftInterval s = _
  simp only [execIftInterval, hnext, htest, Option.isSome_none, Bool.false_eq_true, if_false, hnone, testPlan, List.foldl_nil]

theorem scanSelfTest_ends {s : State} {k : Nat} (htest : s.yard.iftTest = some k) (haside : ∀ R ∈ s.regions, R.inCluster k = true → R.aside = true) :
    let y (ret : BitVec 32) (fails : BitVec 16) : Yard :=
      { s.yard with iftTest := none, iftNext := BitVec.ofNat 8 ((nextCluster ret (k + 1)).getD 0), iftRet := ret, iftFails := fails }
    exec (.scanSelfTestDone true) s = .next (abandonTest { s with yard := y s.yard.iftRet s.yard.iftFails }) ∧
    (let s1 := { s with yard := y (s.yard.iftRet ||| BitVec.ofNat 32 (2 ^ k)) (s.yard.iftFails + 1#16) }
     exec (.scanSelfTestDone false) s = .next ((s1.byRid.filter Region.aside).foldl rehome (s1.pend 4))) := by
  intro y
  have hdone : (s.regions.any fun R => R.inCluster k && !R.aside) = false := by
    rw [List.any_eq_false]
    intro R hR
    by_cases hin : R.inCluster k = true
    · simp [haside R hR hin]
    · simp [hin]
  refine ⟨?_, ?_⟩
  · show execScanSelfTestDone true s = _
    simp only [execScanSelfTestDone, htest, hdone, Bool.false_eq_true, if_false, if_true]
    rfl
  · intro s1
    show execScanSelfTestDone false s = _
    simp only [execScanSelfTestDone, htest, hdone, Bool.false_eq_true, if_false]
    rfl

/-- Settles O36: a report's confirmations, its count and its rollbacks; deaf cells; the in-field test. -/
theorem strikeEventsComplete : Obligations.StrikeEventsComplete := by
  refine ⟨fun s die cx cy hdie hcx hcy => ?_, fun s die cx cy hcx hcy => ?_,
    fun s rid x y R hR hdeaf hst hkilling haside herrand hroll hloading hplace hdying hshares =>
      deafCell_moves hR hdeaf hst hkilling haside herrand hroll hloading hplace hdying hshares,
    fun s k hnext htest hempty => iftInterval_withdraws hnext htest hempty, fun s k htest haside => scanSelfTest_ends htest haside⟩
  · intro s0 y
    have hin := strike_inside hdie hcx hcy
    refine ⟨foldl_confirmDue_none _ s, fun hstep => ?_, fun hstep => ?_⟩
    · show execStrikeReport die cx cy s = _
      rw [execStrikeReport, if_neg hin]
      simp only [hstep, saturated_reports, ne_eq, not_false_eq_true, if_true]
      rfl
    · intro s2 s3 s4
      show execStrikeReport die cx cy s = _
      rw [execStrikeReport, if_neg hin]
      simp only [hstep, saturated_reports, ne_eq, not_true_eq_false, if_false]
      rfl
  · obtain ⟨h0, h1⟩ := asaSelfCheck_deaf (s := s) hcx hcy
    exact ⟨h0, h1, rfl⟩

end Sys2Proof
end

section
/-! SUPPORT. Sensors, pins, resets and bring-up (O37). -/

namespace Sys2Proof
open Machine

/-! ### A warm reset -/

theorem ownerOf_filter_ne {k line : Nat} (os : List Owner) (h : ownerOf os line ≠ some k) :
    ownerOf (os.filter fun o => o.key != k) line = ownerOf os line := by
  induction os with
  | nil => rfl
  | cons o t ih =>
    by_cases hline : o.line = line
    · have hkey : o.key ≠ k := fun hk => h (by simp [ownerOf, hline, hk])
      simp [ownerOf, hline, hkey]
    · have ht : ownerOf (o :: t) line = ownerOf t line := by simp [ownerOf, hline]
      rw [ht] at h ⊢
      by_cases hkey : o.key = k
      · simp only [List.filter_cons, hkey, bne_self_eq_false, Bool.false_eq_true, if_false]
        exact ih h
      · have hcons : (o :: t).filter (fun o => o.key != k) = o :: t.filter fun o => o.key != k := by simp [hkey]
        rw [hcons]
        have hrest : ownerOf (o :: t.filter fun o => o.key != k) line = ownerOf (t.filter fun o => o.key != k) line := by simp [ownerOf, hline]
        rw [hrest, ih h]

/-- What another key wrote last reads the same after a key is erased. -/
theorem memByte_eraseKey {s : State} {k : Nat} (key : Nat) {a : Nat} (hwf : Memory.wf s.mem = true) (howner : ownerOf s.owners (a / 64) ≠ some k) :
    memByte (eraseKey s k) key a = memByte s key a := by
  refine memByte_congr key rfl (ownerOf_filter_ne s.owners howner) fun y hy => ?_
  refine cellGet_filter_keep (fun c hc => ?_) s.mem hwf
  rw [hc, hy]
  simpa using howner

theorem memByte_eraseSlot {s : State} {i : Nat} (key : Nat) {a : Nat} (hwf : Memory.wf s.mem = true)
    (howner : ownerOf s.owners (a / 64) ≠ some (s.slotKey i)) : memByte (eraseSlot s i) key a = memByte s key a := by
  simp only [eraseSlot]
  split
  · exact memByte_congr key rfl rfl fun _ _ => rfl
  · refine (memByte_eraseKey key ?_ ?_).trans (memByte_congr key rfl rfl fun _ _ => rfl)
    · exact hwf
    · exact howner

theorem eraseSlot_owners {s : State} {i : Nat} (hkey : s.slotKey i ≠ 0) : ∀ o ∈ (eraseSlot s i).owners, o.key ≠ s.slotKey i := by
  simp only [eraseSlot, if_neg hkey]
  intro o ho
  simpa using (List.mem_filter.1 ho).2

/-- A reset keeps what it must and leaves the rest as at power-on. -/
theorem afterWarmReset (s : State) : Claim.AfterWarmReset s (warmReset s) := by
  have htrust := (eraseSlot_same s 0).trust
  have hkeys := eraseSlot_keys s 0
  refine ⟨?_, fun i hi => ?_, rfl, fun key a hwf howner => ?_, fun x hx => ?_, fun hkey => eraseSlot_owners hkey, rfl, rfl, rfl, rfl, rfl, rfl, rfl, rfl,
    ?_, rfl⟩
  · show (eraseSlot s 0).trust.fuses = _
    rw [htrust]
  · show (eraseSlot s 0).trust.keys[i]? = _
    rw [hkeys, erasedKeys, getElem?_modNth, if_neg (by omega)]
  · have herased : memByte (warmReset s) key a = memByte (eraseSlot s 0) key a :=
      memByte_congr key rfl rfl fun _ _ => rfl
    exact herased.trans (memByte_eraseSlot key hwf howner)
  · have hx' : (eraseSlot s 0).trust.keys[0]? = some x := hx
    rw [hkeys] at hx'
    exact slotEmpty_erasedKeys_self s.trust.keys 0 x hx'
  · show (eraseSlot s 0).trust.afterReset = _
    rw [Trust.afterReset, htrust]
    show _ = { Trust.reset with fuses := s.trust.fuses, keys := (eraseSlot s 0).trust.keys, nextKey := s.trust.nextKey, nextSess := s.trust.nextSess }
    rfl

/-! ### Memory whose rail was lost -/

theorem ownerOf_forgetMemory {s : State} {line : Nat} (h : inDeviceMemory s (64 * line) = true) : ownerOf (forgetMemory s).owners line = none := by
  rw [ownerOf, Option.map_eq_none_iff, List.find?_eq_none]
  intro o ho hline
  obtain ⟨_, hout⟩ := List.mem_filter.1 ho
  have hline' : o.line = line := by simpa using hline
  rw [hline', h] at hout
  exact absurd hout (by decide)

theorem mem_forgetMemory_ne {s : State} {a : Nat} (h : inDeviceMemory s a = true) : ∀ c ∈ (forgetMemory s).mem, c.1 ≠ a := by
  rintro c hc rfl
  obtain ⟨_, hout⟩ := List.mem_filter.1 hc
  rw [h] at hout
  exact absurd hout (by decide)

/-! ### Heat and the debug port -/

theorem trip_keeps_fault (R : Region) : R.trip.fault = R.fault := by
  unfold Region.trip
  extract_lets R1
  cases R.roll with
  | some x => rfl
  | none =>
    simp only []
    split <;> rfl

theorem trip_freezes {R : Region} (hst : R.st = .running) (hroll : R.roll = none) : R.trip.st = .frozen := by
  simp [Region.trip, hst, hroll]

theorem debugAccess_within {s : State} {b pa : Nat} (hb : b < 4) (hopen : bit s.trust.dbg.toNat b = true) : exec (.debugAccess b pa) s = .next s := by
  show execDebugAccess b pa s = _
  simp [execDebugAccess, hb, hopen]

theorem debugAccess_misuse {s : State} {b pa : Nat} (hshut : bit s.trust.dbg.toNat b = false) :
    exec (.debugAccess b pa) s = .next (raiseAlarm s 4 5) := by
  show execDebugAccess b pa s = _
  simp [execDebugAccess, hshut]

/-! ### Bring-up -/

section
variable {s : State}

theorem pwrgdAssert_on {lpddr : Bool} (hstep : s.boot.step = 1) :
    exec (.pwrgdAssert false lpddr) s = .next { s with boot := { s.boot with step := 2, powerOn := false, lpddr := lpddr } } ∧
    (let s1 := forgetMemory { s with boot := { s.boot with step := 2, powerOn := true, lpddr := lpddr } }
     exec (.pwrgdAssert true lpddr) s = .next { s1 with
       yard := { s1.yard with iftRet := 0#32 }, trust := { s1.trust with keys := Trust.reset.keys } }) := by
  refine ⟨?_, ?_⟩
  · show execPwrgdAssert false lpddr s = _
    rw [execPwrgdAssert, if_neg (by simp [hstep])]
    rfl
  · intro s1
    show execPwrgdAssert true lpddr s = _
    rw [execPwrgdAssert, if_neg (by simp [hstep])]
    rfl

theorem pllLock_boots (hstep : s.boot.step = 2) (hfail : s.boot.bootfail = none) :
    exec .pllLockTimeout s = .next { s with boot := { s.boot with bootfail := some (BitVec.ofNat 4 (8 + 2)) } } ∧
    (let s1 := extendMeas (measureDies (readFuses s)) 0 1 (bytes32 (Config.imageDigest 6))
     exec (.pllLock true true) s = .next { s1 with boot := { s1.boot with step := 6 } }) := by
  refine ⟨?_, ?_⟩
  · show execPllLockTimeout s = _
    rw [execPllLockTimeout, if_pos (by simp [hstep, hfail])]
    rfl
  · intro s1
    show execPllLock true true s = _
    rw [execPllLock, if_neg (by simp [hstep, hfail])]
    rfl

theorem memoryTraining_boots (hstep : s.boot.step = 6) (hfail : s.boot.bootfail = none) :
    exec (.memoryTrainingDone false true) s = .next { s with boot := { s.boot with bootfail := some (BitVec.ofNat 4 (8 + 6)) } } ∧
    (let key : KeySlot := { v := true, part := 0xFFFF#16, key := s.trust.nextKey, bits := Config.randomKey s.ticks }
     let s0 := if s.trust.lcs = 3 ∨ s.trust.lcs = 4 then forgetMemory s else s
     let s1 : State := { zeroFabric s0 with trust := { s.trust with keys := modNth s.trust.keys 0 (fun _ => key), nextKey := s.trust.nextKey + 1 } }
     let s2 := extendMeas s1 0 2 (bytes32 (Config.imageDigest 7))
     exec (.memoryTrainingDone true true) s = .next
       (State.modHart { s2 with boot := { s2.boot with step := 9 } } 0 fun H => { H with running := true, pc := Config.firmwareEntry })) := by
  have hgo : ¬ (decide (s.boot.step ≠ 6) || s.boot.bootfail.isSome) = true := by simp [hstep, hfail]
  refine ⟨?_, ?_⟩
  · show execMemoryTrainingDone false true s = _
    rw [execMemoryTrainingDone, if_neg hgo]
    rfl
  · intro key s0 s1 s2
    show execMemoryTrainingDone true true s = _
    rw [execMemoryTrainingDone, if_neg hgo]
    by_cases hlcs : s.trust.lcs = 3 ∨ s.trust.lcs = 4
    · have hb : (decide (s.trust.lcs = 3) || decide (s.trust.lcs = 4)) = true := by simpa using hlcs
      simp only [s2, s1, s0, if_pos hlcs, if_pos hb]
      rfl
    · have hb : ¬ (decide (s.trust.lcs = 3) || decide (s.trust.lcs = 4)) = true := by simpa using hlcs
      simp only [s2, s1, s0, if_neg hlcs, if_neg hb]
      rfl

end

/-- Settles O37: what each sensor, pin and port does, and what a reset keeps. -/
theorem deviceEventsComplete : Obligations.DeviceEventsComplete := by
  intro s
  exact ⟨fun _ _ => rfl, rfl, rfl, rfl, rfl, rfl, fun _ _ hb hopen => debugAccess_within hb hopen, fun _ _ hshut => debugAccess_misuse hshut,
    fun _ _ _ => rfl, rfl, fun R _ => ⟨trip_keeps_fault R, fun hst hroll => trip_freezes hst hroll⟩, rfl, rfl, rfl, afterWarmReset s,
    fun _ h => ownerOf_forgetMemory h, fun _ h => mem_forgetMemory_ne h, fun _ hstep => pwrgdAssert_on hstep,
    fun hstep hfail => pllLock_boots hstep hfail, fun hstep hfail => memoryTraining_boots hstep hfail⟩

end Sys2Proof
end

section
/-! SUPPORT. Accesses from outside (O38), SPDM and TDISP (O39). -/

namespace Sys2Proof
open Machine

section
variable {s u : State} {v : W64} {slot pa : Nat} {op : MemOp}

theorem hostAccess_tdi {tdi : Nat} {t : Tdi} (hmem : inDeviceMemory s pa = true) (ht : s.tdis[tdi]? = some t) (hrun : t.st = .run) (hen : t.en = true)
    (hslot : s.slotOf t.part = some slot) (hacc : agentAccess s (16 + tdi) slot pa op = some (u, v)) :
    exec (.hostMemoryAccess tdi pa op) s = .next u := by
  have hgo : (decide (t.st ≠ .run) || !t.en || !inDeviceMemory s pa) = false := by simp [hrun, hen, hmem]
  show execHostMemoryAccess tdi pa op s = _
  simp only [execHostMemoryAccess, ht, hgo, hslot, hacc, Bool.false_eq_true, if_false, Option.map_some, Option.getD_some]

theorem hostAccess_physical (hmem : inDeviceMemory s pa = true) (hlen : s.tdis.length ≤ 64) (hacc : agentAccess s 80 0 pa op = some (u, v)) :
    exec (.hostMemoryAccess 64 pa op) s = .next u := by
  have hnone : s.tdis[64]? = none := List.getElem?_eq_none hlen
  show execHostMemoryAccess 64 pa op s = _
  simp [execHostMemoryAccess, hnone, hmem, hacc]

theorem peerAccess_served {q : PeerReq} {w : Nat} (hmem : inDeviceMemory s q.off = true) (hpart : partOn s q.port q.part = true) (hw : w < 16)
    (hwindow : ∃ b d, mapGet s.links.windows w = some (true, b, d) ∧ d.toNat = q.dev)
    (hslot : if q.part = 0xFFFF#16 then slot = 0 else s.slotOf q.part = some slot)
    (hacc : agentAccess s (81 + q.dev) slot q.off q.op = some (u, v)) : exec (.peerAccess q) s = .next u := by
  have hknown : peerKnown s q.dev = true := by
    obtain ⟨b, d, hget, hd⟩ := hwindow
    rw [peerKnown, List.any_eq_true]
    exact ⟨w, List.mem_range.2 hw, by simp [hget, hd]⟩
  have hpeer : peerSlot s q.part = some slot := by
    unfold peerSlot
    split at hslot
    · next h => rw [if_pos h, hslot]
    · next h => rw [if_neg h, hslot]
  show execPeerAccess q s = _
  simp [execPeerAccess, serveAccess, hpart, hknown, hmem, hpeer, hacc]

end

/-- Settles O38: the slot that each agent's access goes under. -/
theorem outsideAccessesComplete : Obligations.OutsideAccessesComplete := by
  intro s u v slot pa op hmem
  refine ⟨fun tdi t ht hrun hen hslot hacc => hostAccess_tdi hmem ht hrun hen hslot hacc, fun hlen hslot hacc => ?_,
    fun q w hoff hop hpart hw hwindow hslot hacc => ?_⟩
  · subst hslot
    exact hostAccess_physical hmem hlen hacc
  · subst hoff hop
    exact peerAccess_served hmem hpart hw hwindow hslot hacc

/-! ### SPDM -/

section
variable {s : State}

theorem challenge_signed {slot d : Nat} (nonce : BitVec 256) (hslot : slotDie slot = some d) (hid : s.identity = true) :
    exec (.challenge slot nonce) s = .next (answer s (.challengeAuth slot nonce ((measurementBlocks s).map (·.2))
      (identitySign d (sha256 (signedBytes nonce (measurementBlocks s))) s.ticks))) := by
  show execChallenge slot nonce s = _
  simp only [execChallenge, hslot, hid]

theorem getMeasurements_signed {slot idx d : Nat} (nonce : BitVec 256) (hslot : slotDie slot = some d) (hid : s.identity = true)
    {blocks : List (Nat × BitVec 256)} (hblocks : (measurementBlocks s).filter (fun b => idx == 255 || b.1 == idx) = blocks)
    (hsome : blocks = [] → idx = 0) :
    exec (.getMeasurements slot idx nonce) s = .next (answer s (.measurements slot nonce blocks (identitySign d (sha256 (signedBytes nonce blocks)) s.ticks))) := by
  have hgo : (blocks.isEmpty && decide (idx ≠ 0)) = false := by
    cases blocks with
    | nil => simp [hsome rfl]
    | cons b t => rfl
  show execGetMeasurements slot idx nonce s = _
  simp only [execGetMeasurements, hslot, hid, hblocks, hgo, Bool.false_eq_true, if_false]

/-- The numbers of the measurement blocks begin at 1 (R446). -/
theorem measurementBlocks_pos : ∀ b ∈ measurementBlocks s, b.1 ≠ 0 := by
  intro b hb
  simp only [measurementBlocks, List.mem_append, List.mem_map, List.mem_range, List.mem_cons, List.not_mem_nil, or_false] at hb
  rcases hb with ⟨n, _, rfl⟩ | rfl | rfl <;> simp

theorem keyExchange_opens {owner : Option Nat} (hid : s.identity = true) (hknown : ∀ i, owner = some i → i < 64)
    (hnone : ∀ x ∈ s.trust.sessions, x.owner ≠ owner) :
    let x : Session := { id := s.trust.nextSess, owner := owner, finished := false, keyNo := 0 }
    exec (.keyExchange owner) s = .next (answer { s with trust := { s.trust with
      sessions := s.trust.sessions ++ [x], nextSess := s.trust.nextSess + 1 } } (.keyExchange x.id)) := by
  intro x
  have hfree : (s.trust.sessions.any fun x => x.owner == owner) = false := by
    rw [List.any_eq_false]
    intro y hy
    simpa using hnone y hy
  show execKeyExchange owner s = _
  cases owner with
  | none => simp only [execKeyExchange, hid, hfree, Bool.not_true, Bool.or_self, Bool.false_eq_true, if_false]; rfl
  | some i =>
    simp only [execKeyExchange, hid, hfree, hknown i rfl, decide_true, Bool.not_true, Bool.or_self, Bool.false_eq_true, if_false]
    rfl

theorem onSession_found {id : Nat} {finished : Bool} {x : Session} (f : Session → State)
    (hx : (s.trust.sessions.find? fun x => x.id == id && x.finished == finished) = some x) : onSession s id finished f = .next (f x) := by
  simp only [onSession, hx]

theorem vendor_keyProg {id t : Nat} {x : Session} (hx : (s.trust.sessions.find? fun x => x.id == id && x.finished == true) = some x) (ht : t < 64)
    (howner : x.owner = none ∨ x.owner = some t) :
    exec (.vendorDefined id (.ideKeyProg t)) s = .next
      (answer { s with tdis := modNth s.tdis t fun T => { T with ide := true } } (.vendor id)) := by
  refine (onSession_found _ hx).trans (congrArg Host.Outcome.next ?_)
  rcases howner with h | h
  · simp [h, ht, modTdi]
  · simp [h, ht, modTdi]

end

theorem modTdi_if {s : State} {t : Nat} (on : Tdisp → Bool) (p : Tdi → Prop) [DecidablePred p] (f : Tdi → Tdi) (h : ∀ T : Tdi, on T.st = true ↔ p T) :
    modTdi s t on f = { s with tdis := modNth s.tdis t fun T => if p T then f T else T } := by
  have hfun : (fun T : Tdi => if on T.st = true then f T else T) = fun T => if p T then f T else T := funext fun T => by simp only [h T]
  rw [modTdi, hfun]

/-- Settles O39: each request's response, and the moves of a TDI. -/
theorem spdmRequestsComplete : Obligations.SpdmRequestsComplete := by
  intro s
  refine ⟨rfl, rfl, rfl, fun _ => rfl, rfl, fun slot off len d hslot => ?_, fun slot nonce d hslot hid => ?_,
    fun owner hid hknown hnone => keyExchange_opens hid hknown hnone, fun id x hx => onSession_found _ hx, fun id x hx => ?_, fun t T _ => ?_⟩
  · show execGetCertificate slot off len s = _
    simp only [execGetCertificate, hslot]
  · intro sign
    refine ⟨challenge_signed nonce hslot hid, getMeasurements_signed nonce hslot hid ?_ (fun h => ?_), getMeasurements_signed nonce hslot hid ?_ fun _ => rfl⟩
    · simp
    · exact absurd h (by simp [measurementBlocks])
    · rw [List.filter_eq_nil_iff]
      intro b hb
      simpa using measurementBlocks_pos b hb
  · exact ⟨onSession_found _ hx, onSession_found _ hx, onSession_found _ hx, fun t ht howner => vendor_keyProg hx ht howner⟩
  · refine ⟨fun _ => ?_, fun _ => ?_, ?_, fun _ => ?_⟩
    · exact congrArg Host.Outcome.next (modTdi_if (· == .unlocked) (fun T => T.st = .unlocked) _ fun T => beq_iff_eq)
    · exact congrArg Host.Outcome.next (modTdi_if (· == .locked) (fun T => T.st = .locked) _ fun T => beq_iff_eq)
    · rfl
    · exact congrArg Host.Outcome.next (modTdi_if (fun x => x == .locked || x == .run) (fun T => T.st = .locked ∨ T.st = .run) _ fun T => by simp)

end Sys2Proof
end

section
/-! SUPPORT. The RGN instructions, each in the state that it asks for (O40). -/

namespace Sys2Proof
open Machine

/-! ### What an instruction meets before it runs -/

theorem onRegion_runs {s : State} {handle : Nat} {R : Region} (h : Claim.Names s handle R) (i : Instr) (d : BitVec 5) (locked : Bool) (f : Region → State) :
    onRegion s i d handle locked f = .next (f R) := by
  obtain ⟨hsm, hlock, hnamed, haside, herrand, hturn, hsubmit⟩ := h
  unfold onRegion
  rcases herrand with herrand | herrand <;> simp [hsm, hlock, hnamed, haside, herrand, hturn, hsubmit]

theorem faultedNow_running {R : Region} (hst : R.st = .running) (now : Nat) : R.faultedNow now = false := by
  rw [Region.faultedNow, hst]
  rfl

theorem aligned4k_of_mod {v : W64} (h : v.toNat % 4096 = 0) : aligned4k v = true := by
  rw [aligned4k, h]
  rfl

/-! ### One lemma for each instruction -/

section
variable {s : State} {d a t : BitVec 5} {R : Region}

theorem rgnStart_arms (h : Claim.Names s (s.x a).toNat R) (hst : R.st = .loaded) (ht : s.x t = 0#64) :
    exec (.rgnStart d a t) s = .next (retStatus (s.putRegion (R.arm none)) d 0x00) := by
  show execRgnStart d a t s = _
  simp only [execRgnStart, onRegion_runs h, ht]
  rw [hst]
  rfl

theorem rgnStart_resumes (h : Claim.Names s (s.x a).toNat R) (hst : R.st = .quiesced) (ht : s.x t = 0#64) (htrip : s.boot.thermtrip = false)
    (hroll : R.roll = none) (herrand : R.errand = none) :
    exec (.rgnStart d a t) s = .next (dispatchSends (retStatus (s.putRegion (R.resume s.cycle)) d 0x00) R.rid) := by
  have hgo : (R.roll.isSome || R.errand.isSome || (decide (R.st = .frozen) && R.provOpen s && R.pair.isNone)) = false := by simp [hroll, herrand, hst]
  show execRgnStart d a t s = _
  simp only [execRgnStart, onRegion_runs h, ht]
  rw [hgo, htrip, hst]
  rfl

theorem rgnFreeze_halts (h : Claim.Names s (s.x a).toNat R) (hst : R.st = .running) (herrand : R.errand = none) :
    exec (.rgnFreeze d a) s = .next (stallOn (s.putRegion { R with halting := true }) R.rid d .freeze) := by
  have hgo : (decide (R.st ≠ .running) || R.errand.isSome) = false := by simp [hst, herrand]
  show execRgnFreeze d a s = _
  simp only [execRgnFreeze, onRegion_runs h, faultedNow_running hst, hgo, Bool.false_eq_true, if_false]

theorem rgnDrain_drains (h : Claim.Names s (s.x a).toNat R) (hst : R.st = .running) (herrand : R.errand = none) :
    exec (.rgnDrain d a) s = .next (stallOn (s.putRegion { R with halting := true, draining := true }) R.rid d .drain) := by
  have hrun : (R.st == .running) = true := by rw [hst]; rfl
  have hgo : (!((R.st == .running) || (R.st == .frozen)) || R.errand.isSome) = false := by simp [hst, herrand]
  show execRgnDrain d a s = _
  simp only [execRgnDrain, onRegion_runs h, hgo, Bool.false_eq_true, if_false]
  rw [hrun, Bool.or_true]

theorem rgnSave_saves {pa : Nat → Nat} (h : Claim.Names s (s.x a).toNat R) (hst : R.st = .quiesced) (hroll : R.roll = none)
    (ht : (s.x t).toNat % 4096 = 0) (hpa : s.operand .store (s.x t) R.imageLen = .ok pa) :
    exec (.rgnSave d a t) s = .next (if s.turn.slow then stallOn s R.rid d .scan else retHigh (operandWrite pa 0 R.image s) d R.imgSize) := by
  have halign : (!aligned4k (s.x t)) = false := by simp [aligned4k_of_mod ht]
  have hst' : ¬ R.st ≠ .quiesced := not_not_intro hst
  have hroll' : R.roll.isSome = false := by rw [hroll]; rfl
  show execRgnSave d a t s = _
  simp only [execRgnSave, onRegion_runs h, if_neg hst', halign, hroll', hpa, Bool.false_eq_true, if_false]

theorem rgnMove_moves {x y : Nat} (h : Claim.Names s (s.x a).toNat R) (hst : R.st = .quiesced) (hx : x < 64) (hy : y < 32)
    (ht : (s.x t).toNat = x + 2 ^ 8 * y) (hplace : placeAt s [R.rid] R.w R.h none x y = true) (hfits : (R.atOrigin x y).fits s.self = true)
    (hbusy : sharesBusy s (R.relocate x y) = false) (hroll : R.roll = none) (hdying : pagesDying s x y R.w R.h = false) :
    exec (.rgnMove d a t) s
      = .next (if s.turn.slow then stallOn s R.rid d .scan else retStatus (s.putRegion (R.relocate x y)) d 0x00) := by
  have hbx : bits (x + 2 ^ 8 * y) 5 0 = x := by simp only [bits]; omega
  have hby : bits (x + 2 ^ 8 * y) 12 8 = y := by simp only [bits]; omega
  have hst' : ¬ R.st ≠ .quiesced := not_not_intro hst
  have hgo : (R.roll.isSome || pagesDying s x y R.w R.h) = false := by rw [hroll, hdying]; rfl
  show execRgnMove d a t s = _
  simp only [execRgnMove, onRegion_runs h, ht, hbx, hby, if_neg hst', ne_eq, not_true_eq_false, if_false, hplace, hfits, hbusy, hgo, Bool.not_true,
    Bool.false_eq_true]

theorem rgnKill_kills (h : Claim.Names s (s.x a).toNat R) : exec (.rgnKill d a) s = .next (retStatus (killRegion s R) d 0x00) := by
  show execRgnKill d a s = _
  simp only [execRgnKill, onRegion_runs h]

theorem rgnPrio_sets (h : Claim.Names s (s.x a).toNat R) (ht : (s.x t).toNat ≤ 11) :
    exec (.rgnPrio d a t) s = .next (retStatus (s.putRegion { R with prio := (s.x t).toNat }) d 0x00) := by
  show execRgnPrio d a t s = _
  simp only [execRgnPrio, onRegion_runs h]
  rw [if_neg (by omega)]

theorem rgnStat_reads (h : Claim.Names s (s.x a).toNat R) (ht : s.x t = 0#64) :
    exec (.rgnStat d a t) s = .next (retire (s.putRegion { R with rolled := false }) d (BitVec.ofNat 64 (R.statWord s.self))) := by
  have hnamed : (s.named (s.x a).toNat).isNone = false := by rw [h.2.2.1]; rfl
  show execRgnStat d a t s = _
  simp only [execRgnStat, onRegion_runs h, hnamed, ht, Bool.and_false, Bool.false_and, Bool.false_eq_true, if_false]
  rfl

theorem rgnRest_reads {b : Bytes} (h : Claim.Names s (s.x a).toNat R) (hst : R.st = .allocated) (hloading : R.loading = false)
    (ht : (s.x t).toNat % 4096 = 0) (hread : s.readImage (s.x t) [1] = .ok b) :
    exec (.rgnRest d a t) s = .next (restImage s d R b) := by
  have hgo : (decide (R.st ≠ .allocated) || R.loading) = false := by simp [hst, hloading]
  have halign : (!aligned4k (s.x t)) = false := by simp [aligned4k_of_mod ht]
  show execRgnRest d a t s = _
  simp only [execRgnRest, onRegion_runs h, hgo, halign, hread, withImage, Bool.false_eq_true, if_false]

/-- What RGN.REST leaves of a region whose image `b` is installed (R384). -/
theorem rgnRest_installs {b : Bytes} (h : Claim.Names s (s.x a).toNat R) (hst : R.st = .allocated) (hloading : R.loading = false)
    (ht : (s.x t).toNat % 4096 = 0) (hread : s.readImage (s.x t) [1] = .ok b) (hw : imageW b = R.w) (hh : imageH b = R.h) :
    let P := { R with dev := s.self }
    (P.configured b).fits s.self = true → (P.configured b).loadFault s.self b false = none → sharesBusy s (P.configured b) = false →
    let Q := { P.ofImage s.cycle b (overflowByte s P b) with st := .quiesced, released := true, acks := P.dies }
    let id := s.links.nextId
    let sends := (List.range Q.sends.length).map fun i => let x := nth default Q.sends i; { x with pkt := { x.pkt with id := id + i } }
    let s1 := { s.putRegion { Q with sends := sends } with links := { s.links with nextId := id + sends.length } }
    exec (.rgnRest d a t) s = .next (retStatus (adoptWaiting (askHeld s1 { Q with sends := sends }) R.rid) d 0x00) := by
  intro P hfits hfault hbusy Q id sends s1
  have hshape : (decide (imageW b ≠ R.w) || decide (imageH b ≠ R.h)) = false := by simp [hw, hh]
  simp only [P] at hfits hfault hbusy
  rw [rgnRest_reads h hst hloading ht hread, restImage]
  simp only [hshape, hfits, hfault, hbusy, Bool.not_true, Bool.false_eq_true, if_false, P, Q, id, sends, s1]

theorem rgnLoad_loads {b : Bytes} (hsmall : (s.x a).toNat < 2 ^ 32) (h : Claim.Names s (s.x a).toNat R) (hst : R.st = .allocated)
    (hloading : R.loading = false) (ht : (s.x t).toNat % 4096 = 0) (hread : s.readImage (s.x t) [0] = .ok b) :
    exec (.rgnLoad d a t) s = .next (loadImage s d R 0 b) := by
  have hP : (s.x a).toNat / 2 ^ 32 = 0 := Nat.div_eq_of_lt hsmall
  have hgo : (decide (R.st ≠ .allocated) || R.loading) = false := by simp [hst, hloading]
  have halign : (!aligned4k (s.x t)) = false := by simp [aligned4k_of_mod ht]
  show execRgnLoad d a t s = _
  simp only [execRgnLoad, Nat.mod_eq_of_lt hsmall, onRegion_runs h, hP, hgo, halign, hread, withImage, Bool.false_eq_true, if_false, ne_eq,
    not_true_eq_false, decide_false, Bool.false_and]

theorem loadImage_loads {b : Bytes} (hw : imageW b = R.w) (hh : imageH b = R.h)
    (hroles : (({ R with dev := s.self } : Region).loadedFrom b).roles = true)
    (hfault : (({ R with dev := s.self } : Region).loadedFrom b).loadFault s.self b true = none)
    (hbusy : sharesBusy s (({ R with dev := s.self } : Region).loadedFrom b) = false) :
    loadImage s d R 0 b = stallOn (s.putRegion { (({ R with dev := s.self } : Region).loadedFrom b).drawKey s.ticks with
      loading := true, acks := [], pair := none }) R.rid d .load := by
  have hshape : (decide (imageW b ≠ R.w) || decide (imageH b ≠ R.h)) = false := by simp [hw, hh]
  unfold loadImage
  simp only [hshape, hroles, hfault, hbusy, pairStatus, Bool.not_true, Bool.false_eq_true, if_false, if_true]

theorem rgnAlloc_allocates {rid x y : Nat} (hsm : s.sm = true) (hlock : s.trust.lock = false) (ht : s.x t = 0#64)
    (hspec : specOk (s.x a).toNat = true) (hturn : myTurn s 2048 = true) (hsubmit : submitRuns s = false) (hrid : s.freeRid = some rid)
    (hpages : findPages s (bits (s.x a).toNat 19 16) (bits (s.x a).toNat 7 0) (bits (s.x a).toNat 15 8) none
      (if bit (s.x a).toNat 21 then some (bits (s.x a).toNat 37 32, bits (s.x a).toNat 44 40) else none) (!bit (s.x a).toNat 20) = .at x y) :
    exec (.rgnAlloc d a t) s
      = .next (allocAt s d (bits (s.x a).toNat 19 16) (bits (s.x a).toNat 7 0) (bits (s.x a).toNat 15 8) x y) := by
  have halign : aligned4k 0#64 = true := rfl
  have hgo : (!myTurn s 2048 || submitRuns s) = false := by rw [hturn, hsubmit]; rfl
  show execRgnAlloc d a t s = _
  simp only [execRgnAlloc, hsm, hlock, hspec, halign, hgo, ht, allocPages, hrid, hpages, Option.isNone_some, Bool.or_false, Bool.not_true, Bool.false_eq_true, if_false, if_true]

theorem allocAt_issues {rid g p w h x y : Nat} (hrid : s.freeRid = some rid) (hgen : s.nextGen rid = g) :
    let R := { freshRegion rid g p x y w h with dev := s.self }
    allocAt s d p w h x y = retHigh { s with regions := s.regions ++ [R], yard := { s.yard with gens := mapPut s.yard.gens rid g } } d R.handle := by
  intro R
  unfold allocAt
  split
  case h_1 hnone =>
    rw [hrid] at hnone
    cases hnone
  case h_2 hsome =>
    rw [hrid] at hsome
    cases hsome
    subst hgen
    rfl

theorem rgnAlloc_issues {rid x y : Nat} (hsm : s.sm = true) (hlock : s.trust.lock = false) (ht : s.x t = 0#64) :
    let v := (s.x a).toNat
    specOk v = true → myTurn s 2048 = true → submitRuns s = false → s.freeRid = some rid →
    findPages s (bits v 19 16) (bits v 7 0) (bits v 15 8) none (if bit v 21 then some (bits v 37 32, bits v 44 40) else none)
      (!bit v 20) = .at x y →
    let g := s.nextGen rid
    let R := { freshRegion rid g (bits v 19 16) x y (bits v 7 0) (bits v 15 8) with dev := s.self }
    exec (.rgnAlloc d a t) s = .next (retire { s with regions := s.regions ++ [R], yard := { s.yard with gens := mapPut s.yard.gens rid g } }
      d (resultWord 0 0 (2 ^ 16 * R.handle))) := by
  intro v hspec hturn hsubmit hrid hpages g R
  rw [rgnAlloc_allocates hsm hlock ht hspec hturn hsubmit hrid hpages]
  exact congrArg Host.Outcome.next (allocAt_issues hrid rfl)

end

/-- Settles O40, by the lemma of each instruction. -/
theorem regionInstructionsComplete : Obligations.RegionInstructionsComplete := by
  refine ⟨fun s d a t R => ⟨fun h => ?_, ?_⟩, ?_⟩
  · refine ⟨fun hst ht => rgnStart_arms h hst ht, fun hst ht htrip hroll herrand => rgnStart_resumes h hst ht htrip hroll herrand,
      fun hst herrand => ⟨rgnFreeze_halts h hst herrand, rgnDrain_drains h hst herrand⟩, ?_, ?_, rgnKill_kills h, fun ht => rgnPrio_sets h ht,
      fun ht => rgnStat_reads h ht, ?_⟩
    · intro pa hst hroll ht hpa
      rw [rgnSave_saves h hst hroll ht hpa]
      exact ⟨fun hslow => by rw [hslow]; rfl, fun hslow => by rw [hslow]; rfl⟩
    · intro x y hst hx hy ht hplace hfits hbusy hroll hdying
      rw [rgnMove_moves h hst hx hy ht hplace hfits hbusy hroll hdying]
      exact ⟨fun hslow => by rw [hslow]; rfl, fun hslow => by rw [hslow]; rfl⟩
    · exact fun b hst hloading ht hread hw hh => rgnRest_installs h hst hloading ht hread hw hh
  · intro b hsmall h hst hloading ht hread hw hh P hroles hfault hbusy
    rw [rgnLoad_loads hsmall h hst hloading ht hread, loadImage_loads hw hh hroles hfault hbusy]
  · exact fun s d a t rid x y hsm hlock ht => rgnAlloc_issues hsm hlock ht

end Sys2Proof
end

section
/-! SUPPORT. System calls at the CC (O41) and the rows of its registers (O42). -/

namespace Sys2Proof
open Machine

/-! ### Calls -/

theorem callTake_takes {s : State} {d a t : BitVec 5} {x : CallAt} {c : Call} {pa : Nat → Nat} (hsm : s.sm = true) (ht : s.x t = 0#64)
    (halign : (s.x a).toNat % 64 = 0) (hold : oldestCall (s.allCalls.filter fun x => x.2.1.ready x.2.2) = some (x, c))
    (hpa : s.operand .store (s.x a) 64 = .ok pa) :
    let n := s.yard.nextTicket
    let s1 := modCall (operandWrite pa 0 (callBlock s x c n) s) (fun c => { c with st := .taken, ticket := n }) x
    exec (.callTake d a t) s = .next (retStatus { s1 with yard := { s1.yard with nextTicket := (n + 1) % 2 ^ 32 } } d 0x00) := by
  intro n s1
  have hv : (s.x t).toNat = 0 := by rw [ht]; rfl
  show execCallTake d a t s = _
  simp only [execCallTake, hv, hsm, halign, hold, hpa, Bool.true_and, Bool.not_true, Bool.false_eq_true, ne_eq, not_true_eq_false, if_true, if_false]
  rfl

theorem callDone_answers {s : State} {d a : BitVec 5} {x : CallAt} {c : Call} {cs : List Call} {pa : Nat → Nat} (hsm : s.sm = true)
    (hpa : s.operand .load (s.x a) 64 = .ok pa) (hst : c.st = .taken) (hok : responseOk (s.bytesOf pa 64) = true)
    (hfind : (s.allCalls.find? fun x => x.2.1.ticket == numAt (s.bytesOf pa 64) 0 4 && (x.2.1.st == .taken || x.2.1.st == .answered))
      = some (x, c, cs)) : exec (.callDone d a) s = .next (retStatus (respond s x c (s.bytesOf pa 64)) d 0x00) := by
  have hopen : ¬ c.st = .answered := by rw [hst]; decide
  show execCallDone d a s = _
  simp only [execCallDone, hsm, hpa, hfind, if_neg hopen, hok, Bool.not_true, Bool.false_eq_true, if_false]

/-- Settles O41. -/
theorem callInstructionsComplete : Obligations.CallInstructionsComplete := by
  refine ⟨fun s d a t x c pa hsm ht halign hold hpa => callTake_takes hsm ht halign hold hpa,
    fun s d a x c cs pa hsm hpa hst hok hfind => callDone_answers hsm hpa hst hok hfind, ?_⟩
  intro s tdi v htdi hrun hen hroom T byte h8 h9 h10 h11 hres1 hres2 halign tok c s1
  have hclosed : (decide (T.st ≠ .run) || !T.en || decide (64 ≤ (T.calls.filter fun c => c.st == .queued).length)) = false := by
    simp [T, hrun, hen, hroom]
  have hbad : (decide (byte 8 > 7) || decide (byte 9 > 15) || decide (byte 10 > 1) || decide (byte 11 > 3) || decide (bits v.toNat 127 96 ≠ 0)
      || decide (bits v.toNat 511 448 ≠ 0) || decide (bits v.toNat 447 384 % 64 ≠ 0)) = false := by
    simp [h8, h9, h10, h11, hres1, hres2, halign]
  have h64 : ¬ tdi ≥ 64 := Nat.not_le.2 htdi
  show execCallwin tdi v s = _
  unfold execCallwin
  rw [if_neg h64]
  exact (if_neg (by rw [Bool.not_eq_true]; exact hclosed)).trans (if_neg (by rw [Bool.not_eq_true]; exact hbad))

/-! ### The rows that a CSR access stands for -/

section
variable {s : State}

theorem xparkPop_empty {d : BitVec 5} (hsm : s.sm = true) (h : s.yard.xpark = []) : exec (.xparkPop d) s = .next (retire s d 0#64) := by
  show execXparkPop d s = _
  simp only [execXparkPop, hsm, popReport, h, Bool.not_true, Bool.false_eq_true, if_false]

theorem xparkPop_pops {d : BitVec 5} {p : Report} {rest : List Report} (hsm : s.sm = true) (h : s.yard.xpark = p :: rest) :
    exec (.xparkPop d) s = .next
      (retire (queueUnreported { s with yard := { s.yard with xpark := rest, xpopped := s.yard.xpopped ++ [p] } }) d (xparkValue p)) := by
  show execXparkPop d s = _
  simp only [execXparkPop, hsm, popReport, h, Bool.not_true, Bool.false_eq_true, if_false]

theorem xparkRefuse_ignored {v : W64} (hsm : s.sm = true) (h : (s.yard.xpopped.find? fun p => v == xparkValue p ||| 0x4000000000000000#64) = none) :
    exec (.xparkRefuse v) s = .next (retireNone s) := by
  show execXparkRefuse v s = _
  simp only [execXparkRefuse, hsm, h, Bool.not_true, Bool.false_eq_true, if_false]

theorem xparkRefuse_refuses {v : W64} {p : Report} (hsm : s.sm = true)
    (h : (s.yard.xpopped.find? fun p => v == xparkValue p ||| 0x4000000000000000#64) = some p) :
    let s0 := { s with yard := { s.yard with xpopped := s.yard.xpopped.filter fun q => !(q.rid == p.rid && q.page == p.page) } }
    (s.region? p.rid = none → exec (.xparkRefuse v) s = .next (retireNone s0)) ∧
    (∀ R, s.region? p.rid = some R →
      let here := R.parked.filter fun q => q.va / 2 ^ 16 == p.page
      let first := here.filter fun q => q.unit == p.unit && q.acc == p.acc
      let rest := here.filter fun q => !(q.unit == p.unit && q.acc == p.acc)
      exec (.xparkRefuse v) s = .next (retireNone ((first ++ rest).foldl (fun s q => refuseParked s p.rid q) s0))) := by
  intro s0
  have hregion : s0.region? p.rid = s.region? p.rid := rfl
  constructor
  · intro hnone
    show execXparkRefuse v s = _
    rw [hnone] at hregion
    simp only [execXparkRefuse, hsm, h, s0, Bool.not_true, Bool.false_eq_true, if_false] at hregion ⊢
    rw [hregion]
  · intro R hsome here first rest
    show execXparkRefuse v s = _
    rw [hsome] at hregion
    simp only [execXparkRefuse, hsm, h, s0, Bool.not_true, Bool.false_eq_true, if_false] at hregion ⊢
    rw [hregion]

theorem xinvcmd_starts {v : W64} {R : Region} (hsm : s.sm = true) (hfree : s.yard.inval = none) (hnamed : s.named (v.toNat % 2 ^ 32) = some R) :
    exec (.xinvcmd v) s
      = .next (retireNone { s with yard := { s.yard with inval := some (R.rid, s.yard.xinvVpn.toNat, bits v.toNat 62 32) } }) := by
  show execXinvcmd v s = _
  simp only [execXinvcmd, hsm, hfree, hnamed, Option.isSome_none, Bool.not_true, Bool.false_eq_true, if_false]

/-- The end of an invalidation (R289) for a region with no units and nothing parked. -/
theorem invalidationComplete_ends {rid vpn n : Nat} {R : Region} (hinval : s.yard.inval = some (rid, vpn, n)) (hR : s.region? rid = some R)
    (hunits : R.units = []) (hparked : R.parked = []) :
    exec .invalidationComplete s = .next (State.putRegion { s with yard := { s.yard with inval := none } } R) := by
  have hsame : { R with units := [], parked := [] } = R := by
    cases R
    simp only at hunits hparked
    subst hunits hparked
    rfl
  show execInvalidationComplete s = _
  rw [execInvalidationComplete, hinval]
  change (match s.region? rid with | none => _ | some R => _) = _
  rw [hR]
  simp only [hunits, hparked, List.any_nil, List.map_nil, List.filter_nil, List.foldl_nil, Bool.false_eq_true,
    if_false, hsame]

theorem capdataWrite_rewrites {v : W64} {R : Region} {i : Nat} (hsm : s.sm = true) (hsel : s.capSel = some (R, i)) (hv : v.toNat % 256 = 0)
    (hout : R.capOut i = 0) :
    let s1 := dispatchSends (s.putRegion ((R.setCapPending i none).setCap i v)) R.rid
    exec (.capdataWrite v) s = .next (retireNone { s1 with yard := { s1.yard with capErr := false, capLast := none } }) := by
  intro s1
  have hwait : (decide (bits (R.cap i) 59 21 ≠ bits v.toNat 59 21) && decide (R.capOut i ≠ 0)) = false := by simp [hout]
  show execCapdataWrite v s = _
  simp only [execCapdataWrite, hsm, hsel, hv, hwait, ne_eq, not_true_eq_false, Bool.not_true, Bool.false_eq_true, if_false]
  rfl

theorem capabilityPendingApply_applies {rid i : Nat} {R : Region} {v : W64} (hR : s.region? rid = some R) (hpending : R.capPending i = some v)
    (hout : R.capOut i = 0) :
    exec (.capabilityPendingApply rid i) s = .next (dispatchSends (s.putRegion ((R.setCapPending i none).setCap i v)) rid) := by
  show execCapabilityPendingApply rid i s = _
  simp only [execCapabilityPendingApply, hR, hpending, hout, ne_eq, not_true_eq_false, if_false]

theorem lnkdataWrite_stores {v : W64} {s1 : State} (hm : s.isM = true) (h : lnkStore s v.toNat = some s1) :
    exec (.lnkdataWrite v) s = .next (retireNone { s1 with links := { s1.links with err := false } }) := by
  show execLnkdataWrite v s = _
  simp only [execLnkdataWrite, hm, h, Bool.not_true, Bool.false_eq_true, if_false]

theorem partselWrite_sets {v : W64} {R : Region} (hsm : s.sm = true) (hnamed : s.named (v.toNat / 2 ^ 32) = some R) (hst : R.st = .allocated) :
    let s1 := adoptWaiting (s.putRegion { R with part := BitVec.ofNat 16 v.toNat }) R.rid
    exec (.partselWrite v) s = .next
      (retireNone { s1 with yard := { s1.yard with partHandle := BitVec.ofNat 32 (v.toNat / 2 ^ 32), partErr := false } }) := by
  intro s1
  have hgo : (!((R.st == .allocated) || (R.st == .loaded))) = false := by rw [hst]; rfl
  show execPartselWrite v s = _
  simp only [execPartselWrite, hsm, hnamed, hgo, Bool.not_true, Bool.false_eq_true, if_false]
  rfl

theorem csrWrite_stores {csr : BitVec 12} (v : W64) (hok : s.csrOk csr.toNat = true) (hplain : csr.toNat ∉ [0x5C4, 0x5C6, 0x5C8, 0x5CB, 0x7C3]) :
    exec (.csrWrite csr v) s = .next (retireNone (yardWrite s csr.toNat v.toNat)) := by
  show execCsrWrite csr v s = _
  rw [execCsrWrite, if_pos hok]
  generalize csr.toNat = n at hplain
  unfold csrStore
  split
  case h_6 => rfl
  all_goals exact absurd (by simp) hplain

theorem hartMemoryAccess_done {va : W64} {op : MemOp} {pa : Nat} {s1 : State} {v : W64} (halign : va.toNat % opBytes op = 0)
    (haddr : s.hartAddr (s.hart s.me) (s.hart s.me).dataPriv (if opWrites op then .store else .load) va.toNat (opBytes op) = .ok pa)
    (hacc : agentAccess s s.me 0 pa op = some (s1, v)) : exec (.ccHartMemoryAccess va op) s = .next (retire s1 (opDest op) v) := by
  show execCcHartMemoryAccess va op s = _
  simp only [execCcHartMemoryAccess, halign, haddr, hacc, ne_eq, not_true_eq_false, if_false]

theorem reservationExpiry_loses {h line since : Nat} (hh : 16 ≤ h) (hresv : s.home.resv = [(h, line, since)])
    (hdue : since + 2 * Config.microsecond ≤ s.cycle) :
    exec (.reservationExpiry h) s = .next { s with home := { s.home with resv := [] } } := by
  show execReservationExpiry h s = _
  simp [execReservationExpiry, hh, hresv, hdue]

end

/-- Settles O42, by the lemma of each row. -/
theorem registerRowsComplete : Obligations.RegisterRowsComplete := by
  intro s
  exact ⟨fun _ => rfl, fun _ => xparkPop_empty, fun _ _ _ => xparkPop_pops, fun _ => xparkRefuse_ignored, fun _ _ => xparkRefuse_refuses,
    fun _ _ => xinvcmd_starts, fun _ _ _ _ => invalidationComplete_ends, fun _ _ _ => capdataWrite_rewrites,
    fun _ _ _ _ => capabilityPendingApply_applies, fun _ _ => lnkdataWrite_stores, fun _ _ => partselWrite_sets, fun _ v => csrWrite_stores v,
    fun _ _ _ _ _ => hartMemoryAccess_done, fun _ _ _ => reservationExpiry_loses⟩

end Sys2Proof
end

section
/-! SUPPORT. The SEC instructions (O43). -/

namespace Sys2Proof
open Machine

section
variable {s : State} {d a t : BitVec 5}

/-! ### What a SEC instruction meets before it runs -/

theorem onTre_runs {machine : Bool} (hmode : (if machine then s.isM else s.sm) = true) (hlcs : s.trust.lcs ≠ 4) (hturn : myTurn s 2050 = true)
    (i : Instr) (d : BitVec 5) (f : State) : onTre s i d machine f = .next f := by
  simp [onTre, hmode, hlcs, hturn]

theorem onTre_waits {machine : Bool} (hmode : (if machine then s.isM else s.sm) = true) (hlcs : s.trust.lcs ≠ 4) (hturn : myTurn s 2050 = false)
    (i : Instr) (d : BitVec 5) (f : State) : onTre s i d machine f = .next (stallOn s 2050 d .again) := by
  simp [onTre, hmode, hlcs, hturn]

theorem sm_of_isM (h : s.isM = true) : s.sm = true := by
  have hpriv : (s.hart s.me).priv = .m := eq_of_beq h
  rw [State.sm, hpriv]
  rfl

/-- Every SEC instruction but the read of a fuse stalls its hart while an earlier one waits (R455). -/
theorem sec_waits (hm : s.isM = true) (hlcs : s.trust.lcs ≠ 4) (hturn : myTurn s 2050 = false) :
    ∀ i ∈ [Instr.secFuseBlow d a t, .secMeasRead d a t, .secMeasExtend d a t, .secWipeQuery d a t, .secWipe d a t, .secUnlkNonce d a t,
      .secUnlkSubmit d a t, .secUnlkClose d a t, .secAtst d a t], exec i s = .next (stallOn s 2050 d .again) := by
  have hM : (if (true : Bool) then s.isM else s.sm) = true := hm
  have hS : (if (false : Bool) then s.isM else s.sm) = true := sm_of_isM hm
  intro i hi
  simp only [List.mem_cons, List.not_mem_nil, or_false] at hi
  rcases hi with rfl | rfl | rfl | rfl | rfl | rfl | rfl | rfl | rfl
  · exact onTre_waits hM hlcs hturn _ _ _
  · exact onTre_waits hS hlcs hturn _ _ _
  · exact onTre_waits hS hlcs hturn _ _ _
  · exact onTre_waits hS hlcs hturn _ _ _
  · exact onTre_waits hS hlcs hturn _ _ _
  · exact onTre_waits hM hlcs hturn _ _ _
  · exact onTre_waits hM hlcs hturn _ _ _
  · exact onTre_waits hM hlcs hturn _ _ _
  · exact onTre_waits hS hlcs hturn _ _ _

/-! ### One lemma for each instruction -/

theorem secFuseRead_reads (hm : s.isM = true) (hv : (s.x a).toNat < 64) (ht : s.x t = 0#64) :
    exec (.secFuseRead d a t) s = .next (retire s d (resultWord 0 0 (s.fuse (s.x a).toNat).toNat)) := by
  have hgo : (decide ((s.x a).toNat ≥ 64) || decide (s.x t ≠ 0#64)) = false := by simp [hv, ht]
  show execSecFuseRead d a t s = _
  simp only [execSecFuseRead, hm, hgo, Bool.not_true, Bool.false_eq_true, if_false]

theorem secFuseBlow_blows (hm : s.isM = true) (hlcs : s.trust.lcs ≠ 4) (hturn : myTurn s 2050 = true) (hv : (s.x a).toNat < 64)
    (hn : (s.x t).toNat < 2 ^ 32) (hok : blowOk s (s.x a).toNat (s.x t).toNat = true) :
    let v := (s.x a).toNat
    let n := (s.x t).toNat
    let word := nth 0#32 s.trust.fuses v ||| (BitVec.ofNat 32 n &&& Config.blown s.ticks)
    let s1 : State := { s with trust := { s.trust with fuses := modNth s.trust.fuses v fun _ => word } }
    exec (.secFuseBlow d a t) s = .next
      (retire s1 d (resultWord (if (s1.fuse v).toNat &&& n = n then 0x00 else 0x0D) 0 (s1.fuse v).toNat)) := by
  intro v n word s1
  have hrange : (decide ((s.x a).toNat ≥ 64) || decide ((s.x t).toNat ≥ 2 ^ 32)) = false := by
    rw [decide_eq_false (by omega), decide_eq_false (by omega)]
    rfl
  show execSecFuseBlow d a t s = _
  rw [execSecFuseBlow, onTre_runs (machine := true) hm hlcs hturn]
  simp only [hrange, hok, Bool.not_true, Bool.false_eq_true, if_false]
  rfl

theorem secMeasRead_reads {pa : Nat → Nat} (hm : s.isM = true) (hlcs : s.trust.lcs ≠ 4) (hturn : myTurn s 2050 = true)
    (hok : measOk (s.x a).toNat (s.x t).toNat = true) (hext : bit (s.x a).toNat 8 = false) (hpa : s.operand .store (s.x t) 32 = .ok pa) :
    exec (.secMeasRead d a t) s = .next
      (retire (operandWrite pa 0 (bytes32 (s.trust.measure (bits (s.x a).toNat 5 4) (bits (s.x a).toNat 3 0))) s) d
        (resultWord 0 0 (nth 0 (nth [] s.trust.measCount (bits (s.x a).toNat 5 4)) (bits (s.x a).toNat 3 0)))) := by
  show execSecMeasRead d a t s = _
  rw [execSecMeasRead, onTre_runs (machine := false) (sm_of_isM hm) hlcs hturn]
  simp only [hok, hext, withOperand, withOperandAs, hpa, Bool.not_true, Bool.or_false, Bool.false_eq_true, if_false]

theorem secMeasExtend_extends {pa : Nat → Nat} (hm : s.isM = true) (hlcs : s.trust.lcs ≠ 4) (hturn : myTurn s 2050 = true)
    (hok : measOk (s.x a).toNat (s.x t).toNat = true) (hext : bit (s.x a).toNat 8 = true) (hlo : 3 ≤ bits (s.x a).toNat 3 0)
    (hhi : bits (s.x a).toNat 3 0 ≤ 6) (hpa : s.operand .load (s.x t) 32 = .ok pa) :
    let s1 := extendMeas s (bits (s.x a).toNat 5 4) (bits (s.x a).toNat 3 0) ((List.range 32).map (s.operandByte pa))
    exec (.secMeasExtend d a t) s = .next
      (retire s1 d (resultWord 0 0 (nth 0 (nth [] s1.trust.measCount (bits (s.x a).toNat 5 4)) (bits (s.x a).toNat 3 0)))) := by
  intro s1
  have hallowed : (decide (bits (s.x a).toNat 3 0 < 3) || decide (6 < bits (s.x a).toNat 3 0) || (decide (bits (s.x a).toNat 3 0 < 5) && !s.isM))
      = false := by
    rw [decide_eq_false (Nat.not_lt.2 hlo), decide_eq_false (Nat.not_lt.2 hhi), hm, Bool.not_true, Bool.and_false]
    rfl
  show execSecMeasExtend d a t s = _
  rw [execSecMeasExtend, onTre_runs (machine := false) (sm_of_isM hm) hlcs hturn]
  simp only [hok, hext, hallowed, withOperand, withOperandAs, hpa, Bool.not_true, Bool.or_false, Bool.false_eq_true, if_false]
  rfl

theorem secWipeQuery_answers (hsm : s.sm = true) (hlcs : s.trust.lcs ≠ 4) (hlock : s.trust.lock = false) (hturn : myTurn s 2050 = true)
    (hok : wipeOk (s.x a).toNat (s.x t).toNat = true) (hone : bit (s.x a).toNat 6 = false) (hquery : bit (s.x a).toNat 7 = true) :
    exec (.secWipeQuery d a t) s = .next (retire s d (resultWord 0 0 (slotValue s (bits (s.x a).toNat 5 0)))) := by
  show execSecWipeQuery d a t s = _
  rw [execSecWipeQuery, onTre_runs (machine := false) hsm hlcs hturn]
  simp only [hlock, hok, hone, hquery, Bool.not_true, Bool.or_false, Bool.false_eq_true, if_false]

theorem secWipe_wipes (hsm : s.sm = true) (hlcs : s.trust.lcs ≠ 4) (hlock : s.trust.lock = false) (hturn : myTurn s 2050 = true)
    (hok : wipeOk (s.x a).toNat (s.x t).toNat = true) (hone : bit (s.x a).toNat 6 = false) (hquery : bit (s.x a).toNat 7 = false)
    (hgen : bit (s.x t).toNat 0 = false) (hregions : s.regions = []) :
    let i := bits (s.x a).toNat 5 0
    let s1 := eraseSlot s i
    exec (.secWipe d a t) s = .next (retire { s1 with trust := { s1.trust with
      keys := modNth s1.trust.keys i fun _ => { v := false, part := 0#16, key := 0 }, nextKey := s.trust.nextKey } } d
        (resultWord 0 0 (slotValue s i))) := by
  intro i s1
  show execSecWipe d a t s = _
  rw [execSecWipe, onTre_runs (machine := false) hsm hlcs hturn]
  simp only [hlock, hok, hone, hquery, hgen, hregions, List.any_nil, List.foldl_cons, List.foldl_nil, Bool.not_true, Bool.or_false, Bool.false_and,
    Bool.false_eq_true, if_false]
  rfl

theorem unlkDenied_production (hlcs : s.trust.lcs = 2) (hlock : s.trust.lock = false) : s.unlkDenied = false := by
  rw [State.unlkDenied, hlcs, hlock]
  rfl

theorem secUnlkNonce_draws {pa : Nat → Nat} (hm : s.isM = true) (hlcs : s.trust.lcs = 2) (hlock : s.trust.lock = false)
    (hturn : myTurn s 2050 = true) (ha : s.x a = 0#64) (hn : (s.x t).toNat % 64 = 0) (hpa : s.operand .store (s.x t) 32 = .ok pa) :
    let r := Config.randomBits s.ticks
    let s1 := operandWrite pa 0 (bytes32 r) s
    exec (.secUnlkNonce d a t) s = .next (retStatus { s1 with trust := { s1.trust with nonce := some r } } d 0x00) := by
  intro r s1
  have hargs : (decide (s.x a ≠ 0#64) || decide ((s.x t).toNat % 64 ≠ 0)) = false := by simp [ha, hn]
  show execSecUnlkNonce d a t s = _
  rw [execSecUnlkNonce, onTre_runs (machine := true) hm (by omega) hturn]
  simp only [unlkDenied_production hlcs hlock, hargs, withOperand, withOperandAs, hpa, Bool.false_eq_true, if_false]
  rfl

theorem secUnlkSubmit_unlocks {pa : Nat → Nat} (hm : s.isM = true) (hlcs : s.trust.lcs = 2) (hlock : s.trust.lock = false)
    (hturn : myTurn s 2050 = true) (ha : s.x a = 1#64) (hn : (s.x t).toNat % 64 = 0) (hfails : s.trust.ufail ≠ 3#2) (hregions : s.regions = [])
    (hpa : s.operand .load (s.x t) 192 = .ok pa) (htoken : tokenFault s (s.bytesOf pa 192) = none) :
    exec (.secUnlkSubmit d a t) s
      = .next (retire (unlock s (s.bytesOf pa 192)) d (resultWord 0 0 (numAt (s.bytesOf pa 192) 0x30 4))) := by
  have hargs : (decide (s.x a ≠ 1#64) || decide ((s.x t).toNat % 64 ≠ 0)) = false := by simp [ha, hn]
  have hopen : (s.unlkDenied || decide (s.trust.ufail = 3#2)) = false := by simp [unlkDenied_production hlcs hlock, hfails]
  have hnone : (!s.regions.isEmpty) = false := by rw [hregions]; rfl
  show execSecUnlkSubmit d a t s = _
  rw [execSecUnlkSubmit, onTre_runs (machine := true) hm (by omega) hturn]
  simp only [hopen, hargs, hnone, withOperandAs, hpa, htoken, Bool.false_eq_true, if_false]

theorem secUnlkClose_closes (hm : s.isM = true) (hlcs : s.trust.lcs = 2) (hlock : s.trust.lock = false) (hturn : myTurn s 2050 = true)
    (ha : s.x a = 2#64) :
    let s1 := extendMeas s 0 7 (List.replicate 32 0xFF#8)
    exec (.secUnlkClose d a t) s = .next (retStatus { s1 with trust := { s1.trust with dbg := 0#16 } } d 0x00) := by
  intro s1
  show execSecUnlkClose d a t s = _
  rw [execSecUnlkClose, onTre_runs (machine := true) hm (by omega) hturn, if_neg (by simp [unlkDenied_production hlcs hlock]),
    if_neg (not_not_intro ha)]

theorem secAtst_reports {pr pa : Nat → Nat} {count : Nat} {body : List Byte} (hsm : s.sm = true) (hblank : s.trust.lcs ≠ 0)
    (hlcs : s.trust.lcs ≠ 4) (hturn : myTurn s 2050 = true) (hv : (s.x a).toNat ≤ 2) (hn : (s.x t).toNat % 64 = 0)
    (hpr : s.operand .load (s.x t) 32 = .ok pr) (hpa : s.operand .store (s.x t) 384 = .ok pa)
    (hcount : nth 0 s.trust.reports (s.x a).toNat + 1 = count)
    (hbody : reportBody s (s.x a).toNat ((List.range 32).map (s.operandByte pr)) count = body) :
    let s1 := operandWrite pa 0 (body ++ sigBytes (identitySign (s.x a).toNat (sha256 body) s.ticks)) s
    exec (.secAtst d a t) s = .next
      (retire { s1 with trust := { s1.trust with reports := modNth s1.trust.reports (s.x a).toNat fun _ => count } } d (resultWord 0 0 count)) := by
  intro s1
  have hargs : (decide ((s.x a).toNat > 2) || decide ((s.x t).toNat % 64 ≠ 0)) = false := by simp [hv, hn]
  show execSecAtst d a t s = _
  rw [execSecAtst, onTre_runs (machine := false) hsm hlcs hturn]
  simp only [if_neg hblank, hargs, withOperand, withOperandAs, hpr, hpa, hcount, hbody, Bool.false_eq_true, if_false, s1]

end

/-- Settles O43, by the lemma of each instruction. -/
theorem secInstructionsComplete : Obligations.SecInstructionsComplete := by
  refine ⟨fun s d a t hm hlcs hturn => sec_waits hm hlcs hturn, fun s d a t hturn => ⟨?_, ?_, ?_, ?_, ?_, ?_⟩⟩
  · exact fun hm hv ht => secFuseRead_reads hm hv ht
  · exact fun hm hlcs hv hn hok => secFuseBlow_blows hm hlcs hturn hv hn hok
  · exact fun hm hlcs hok => ⟨fun pa hext hpa => secMeasRead_reads hm hlcs hturn hok hext hpa,
      fun pa hext hlo hhi hpa => secMeasExtend_extends hm hlcs hturn hok hext hlo hhi hpa⟩
  · exact fun hsm hlcs hlock hok hone => ⟨fun hquery => secWipeQuery_answers hsm hlcs hlock hturn hok hone hquery,
      fun hquery hgen hregions => secWipe_wipes hsm hlcs hlock hturn hok hone hquery hgen hregions⟩
  · exact fun hm hlcs hlock => ⟨fun pa ha hn hpa => secUnlkNonce_draws hm hlcs hlock hturn ha hn hpa,
      fun pa ha hn hfails hregions hpa => secUnlkSubmit_unlocks hm hlcs hlock hturn ha hn hfails hregions hpa,
      fun ha => secUnlkClose_closes hm hlcs hlock hturn ha⟩
  · exact fun pr pa hsm hblank hlcs hv hn hpr hpa => secAtst_reports hsm hblank hlcs hturn hv hn hpr hpa rfl rfl

end Sys2Proof
end

section
/-! SUPPORT. The banks of a region: of each unit, its place and, at an MU, the bytes and the full/empty bits of its slice. What a record does
when it is taken leaves them (O58). -/

namespace Sys2Proof.Machine

/-- The bytes and the full/empty bits of the slice that an MU holds (R206, R209). -/
def Engine.bank : Engine → Option (List Host.Cell × List Nat)
  | .mu m => some (m.sram, m.fe)
  | _ => none

/-- The banks of a region, a unit at a time. -/
def Region.banks (R : Region) : List (UnitId × Option (List Host.Cell × List Nat)) := R.units.map fun U => (U.id, U.eng.bank)

/-- What a slice holds is read off the banks. -/
theorem slice_eq_of_banks {s t : State} {rid : Nat} (h : (t.region? rid).map Region.banks = (s.region? rid).map Region.banks) (page : Nat) :
    Safety.slice t rid page = Safety.slice s rid page := by
  have hbank (R : Region) : (R.mu? page).map (fun m => (m.sram, m.fe)) = ((R.banks.find? fun b => b.1 == ⟨page, 3⟩).bind (·.2)) := by
    rw [Region.banks, List.find?_map]
    show _ = ((R.unit? ⟨page, 3⟩).map fun U => (U.id, U.eng.bank)).bind (·.2)
    unfold Region.mu?
    cases R.unit? ⟨page, 3⟩ with
    | none => rfl
    | some U =>
      simp only [Option.map_some, Option.bind_some]
      cases U.eng <;> rfl
  have hslice (s : State) : Safety.slice s rid page
      = ((s.region? rid).map Region.banks).bind fun B => (B.find? fun b => b.1 == ⟨page, 3⟩).bind (·.2) := by
    unfold Safety.slice
    cases s.region? rid with
    | none => rfl
    | some R => exact hbank R
  rw [hslice, hslice, h]

/-! ### The operations of a take leave the banks -/

theorem map_modFirst_of_find {α β : Type} {p : α → Bool} {f : α → α} {g : α → β} {l : List α} (h : ∀ a, l.find? p = some a → g (f a) = g a) :
    (modFirst p f l).map g = l.map g := by
  induction l with
  | nil => rfl
  | cons a l ih =>
    simp only [modFirst]
    by_cases hp : p a = true
    · rw [if_pos hp, List.map_cons, List.map_cons, h a (by simp [hp])]
    · rw [if_neg hp, List.map_cons, List.map_cons, ih fun b hb => h b (by rw [List.find?_cons, Bool.eq_false_iff.2 hp]; exact hb)]

theorem Region.modUnit_banks {R : Region} {u : UnitId} {f : Site → Site}
    (h : ∀ U, R.unit? u = some U → ((f U).id, (f U).eng.bank) = (U.id, U.eng.bank)) : (R.modUnit u f).banks = R.banks :=
  map_modFirst_of_find h

theorem Region.modMu_banks {R : Region} {page : Nat} {f : Mu → Mu} (h : ∀ m, ((f m).sram, (f m).fe) = (m.sram, m.fe)) :
    (R.modMu page f).banks = R.banks :=
  Region.modUnit_banks fun U _ => by
    cases heng : U.eng with
    | mu m => exact congrArg (fun b => (U.id, some b)) (h m)
    | _ => simp only [heng]

theorem Engine.given_bank (f : Nat → Nat) (e : Engine) : (e.given f).bank = e.bank := by cases e <;> rfl

@[simp] theorem Region.popOnly_banks (R : Region) (u : UnitId) (q : Nat) : (R.popOnly u q).banks = R.banks :=
  Region.modUnit_banks fun U _ => by simp only [Engine.given_bank]

@[simp] theorem Region.setSlots_banks (R : Region) (u : UnitId) (slots : SMap Slot) : (R.setSlots u slots).banks = R.banks :=
  Region.modUnit_banks fun _ _ => rfl

@[simp] theorem Region.free_banks (R : Region) (org : UnitId) (route sid : Nat) : (R.free org route sid).banks = R.banks := rfl

@[simp] theorem Region.giveCredit_banks (R : Region) (org : UnitId) (route : Nat) : (R.giveCredit org route).banks = R.banks :=
  Region.modUnit_banks fun U _ => by unfold Site.regain; split <;> rfl

@[simp] theorem Region.returnCredit_banks (R : Region) (org : UnitId) (route sid : Nat) : (R.returnCredit org route sid).banks = R.banks := by
  unfold Region.returnCredit
  split
  · rfl
  · split <;> simp

@[simp] theorem Region.launch_banks (R : Region) (now : Nat) (u : UnitId) (route : Nat) (t : Token) : (R.launch now u route t).banks = R.banks := by
  unfold Region.launch
  split
  · rfl
  · exact Region.modUnit_banks fun _ _ => rfl

theorem Region.emitOut_banks {R R' : Region} {now : Nat} {u : UnitId} {o : Out} (h : R.emitOut now u o = some R') : R'.banks = R.banks := by
  unfold Region.emitOut at h
  split at h
  · cases h
  · next U hU =>
    have hput {V : Site} (hid : V.id = U.id) (heng : V.eng = U.eng) : (R.putUnit V).banks = R.banks :=
      Region.modUnit_banks fun W hW => by
        have hid' : U.id = u := eq_of_beq (List.find?_some hU :)
        rw [hid, hid', hU] at hW
        rw [← Option.some.inj hW, hid, heng]
    simp only at h
    repeat' split at h
    all_goals cases h
    all_goals simp only [Region.launch_banks]
    all_goals exact hput rfl rfl

theorem Region.emitNext_banks {R R' : Region} {now : Nat} {u : UnitId} (h : R.emitNext now u = some R') : R'.banks = R.banks := by
  unfold Region.emitNext at h
  split at h
  · cases h
  · obtain ⟨o, _, ho⟩ := List.exists_of_findSome?_eq_some h
    split at ho
    · exact Region.emitOut_banks ho
    · cases ho

@[simp] theorem Region.flushOut_banks (now : Nat) (u : UnitId) (n : Nat) (R : Region) : (Region.flushOut now u n R).banks = R.banks := by
  induction n generalizing R with
  | zero => rfl
  | succ n ih =>
    unfold Region.flushOut
    split
    · rfl
    · next R' h => rw [ih, Region.emitNext_banks h]

@[simp] theorem Region.sendReserved_banks (R : Region) (now : Nat) (u : UnitId) (es : Sends) : (R.sendReserved now u es).banks = R.banks := by
  rw [Region.sendReserved, Region.flushOut_banks]
  exact Region.modUnit_banks fun _ _ => rfl

theorem Region.logSeals_banks {R R' : Region} {u : UnitId} {round : BitVec 12} {seals : List (Nat × Slot)} (h : R.logSeals u round seals = some R') :
    R'.banks = R.banks := by
  unfold Region.logSeals at h
  repeat' split at h
  all_goals cases h
  · rfl
  · rfl
  · exact Region.modMu_banks fun m =>
      foldl_keeps (fun m : Mu => (m.sram, m.fe)) (fun m p => m.log round (.seal u.pos p.1 p.2)) (fun _ _ => rfl) seals m

@[simp] theorem Region.countMarker_banks (R : Region) (u : UnitId) (n p : Nat) (r : BitVec 12) : (R.countMarker u n p r).banks = R.banks := by
  unfold Region.countMarker; split <;> rfl
@[simp] theorem Region.countEos_banks (R : Region) (u : UnitId) (n p : Nat) (r : BitVec 12) : (R.countEos u n p r).banks = R.banks := by
  unfold Region.countEos; split <;> rfl
@[simp] theorem Region.dropMarkers_banks (R : Region) (u : UnitId) (n : Nat) (r : BitVec 12) : (R.dropMarkers u n r).banks = R.banks := rfl
@[simp] theorem Region.dropEos_banks (R : Region) (u : UnitId) (n : Nat) : (R.dropEos u n).banks = R.banks := rfl
@[simp] theorem Region.raiseErr_banks (R : Region) (u : UnitId) (t : Token) : (R.raiseErr u t).banks = R.banks := rfl
@[simp] theorem Region.sinkTook_banks (R : Region) (k : Nat) (u : UnitId) (n : Nat) (r : BitVec 12) : (R.sinkTook k u n r).banks = R.banks := by
  unfold Region.sinkTook; split <;> rfl

@[simp] theorem Region.forwardRound_banks (R : Region) (u : UnitId) (n op : Nat) (r : Rec) (k : BitVec 12) :
    (R.forwardRound u n op r k).2.banks = R.banks := by
  have hslots (R : Region) (f : Site → SMap Slot) : (R.modUnit u fun U => { U with slots := f U }).banks = R.banks :=
    Region.modUnit_banks fun _ _ => rfl
  unfold Region.forwardRound
  split
  · rfl
  · simp only
    repeat' split
    all_goals simp [hslots]

@[simp] theorem Region.forwards_banks (R : Region) (u : UnitId) (n op : Nat) (r : Rec) (pre : Sends) :
    (R.forwards u n op r pre).2.banks = R.banks := by
  unfold Region.forwards
  split
  · rfl
  · split
    · rfl
    · have hfold (f : Sends × Region × Bool → BitVec 12 → Sends × Region × Bool) (l : List (BitVec 12)) (x : Sends × Region × Bool)
          (hf : ∀ x n, (f x n).2.1.banks = x.2.1.banks) : (l.foldl f x).2.1.banks = x.2.1.banks := foldl_keeps (fun x => x.2.1.banks) f hf l x
      simp only
      repeat' split
      all_goals simp
      all_goals exact hfold _ _ _ fun x n => by split <;> simp

@[simp] theorem Region.cfuSend_banks (R : Region) (now : Nat) (u : UnitId) (r op : Nat) (f : Fmt) (ds : List (BitVec 16)) (t : Token) :
    (R.cfuSend now u r op f ds t).banks = R.banks := by
  unfold Region.cfuSend
  split
  · rfl
  · exact Region.modUnit_banks fun _ _ => rfl

@[simp] theorem Region.modPool_banks (R : Region) (f : Pool → Pool) : (R.modPool f).banks = R.banks := Region.modMu_banks fun _ => rfl

@[simp] theorem Region.logFrame_banks (R : Region) (round : BitVec 12) (f : Nat) (was : Bool) : (R.logFrame round f was).banks = R.banks :=
  Region.modMu_banks fun _ => rfl

@[simp] theorem Region.requestFrame_banks (R : Region) (u : UnitId) (q : Nat) (t : Token) : (R.requestFrame u q t).banks = R.banks := by
  unfold Region.requestFrame
  split <;> simp

/-! ### Near regions -/

/-- A region with the same identifier and, where `q` asks for it, the same banks. -/
def Region.Near (q : Bool) (R R' : Region) : Prop := R'.rid = R.rid ∧ (q = true → R'.banks = R.banks)

theorem Region.near_refl (q : Bool) (R : Region) : R.Near q R := ⟨rfl, fun _ => rfl⟩

theorem Region.Near.trans {q : Bool} {R R' R'' : Region} (h : R.Near q R') (k : R'.Near q R'') : R.Near q R'' :=
  ⟨k.1.trans h.1, fun hq => (k.2 hq).trans (h.2 hq)⟩

theorem Region.near_setSlots (q : Bool) (R : Region) (u : UnitId) (m : SMap Slot) : R.Near q (R.setSlots u m) := ⟨by simp, fun _ => by simp⟩

theorem Region.near_logSeals {q : Bool} {R R' : Region} {u : UnitId} {r : BitVec 12} {l : List (Nat × Slot)} (h : R.logSeals u r l = some R') :
    R.Near q R' := ⟨Region.logSeals_rid h, fun _ => Region.logSeals_banks h⟩

theorem Region.near_forwards (q : Bool) (R : Region) (u : UnitId) (n op : Nat) (r : Rec) (pre : Sends) : R.Near q (R.forwards u n op r pre).2 :=
  ⟨by simp, fun _ => by simp⟩

theorem Region.near_modUnit {q : Bool} {R : Region} {u : UnitId} {f : Site → Site} (h : ∀ U, ((f U).id, (f U).eng.bank) = (U.id, U.eng.bank)) :
    R.Near q (R.modUnit u f) := ⟨rfl, fun _ => Region.modUnit_banks fun U _ => h U⟩

theorem Region.near_sendReserved (q : Bool) (R : Region) (now : Nat) (u : UnitId) (es : Sends) : R.Near q (R.sendReserved now u es) :=
  ⟨by simp, fun _ => by simp⟩

theorem Region.near_cfuSend (q : Bool) (R : Region) (now : Nat) (u : UnitId) (route op : Nat) (f : Fmt) (ds : List (BitVec 16)) (t : Token) :
    R.Near q (R.cfuSend now u route op f ds t) := ⟨by simp, fun _ => by simp⟩

theorem Region.near_cfuSends (q : Bool) (R : Region) (f : Region → BitVec 16 × Token → Region) (hf : ∀ (R : Region) (x : BitVec 16 × Token), R.Near q (f R x)) (es : Sends) :
    R.Near q (es.foldl f R) := by
  induction es generalizing R with
  | nil => exact Region.near_refl q R
  | cons x es ih => exact (hf R x).trans (ih _)

theorem near_takeAt {q : Bool} {R : Region} {now : Nat} {u : UnitId} {i : Nat} {k : Take} (h : R.takeAt now u i = some k) : R.Near q k.R := by
  unfold Region.takeAt at h
  split at h
  · cases h
  · obtain ⟨U, _, rfl⟩ := Option.map_eq_some_iff.1 h
    exact ⟨by simp, fun _ => by simp⟩

/-- The take of a turn is near the region that the turn names. -/
theorem near_taking {q : Bool} {s : State} {rid : Nat} {k : Take} (h : s.taking = some (rid, k)) :
    s.turnRegion = some rid ∧ ∃ R, s.region? rid = some R ∧ R.Near q k.R := by
  unfold State.taking at h
  split at h
  · next rid' u i hw =>
    split at h
    · cases h
    · next R hR =>
      split at h
      · cases h
      · split at h
        · next U k' _ hk =>
          split at h
          · cases h
            exact ⟨by rw [State.turnRegion, hw], R, hR, near_takeAt hk⟩
          · cases h
        · cases h
  · cases h

theorem near_islandTaking {s : State} {rid : Nat} {k : Take} (h : s.islandTaking = some (rid, k)) :
    s.turnRegion = some rid ∧ ∃ R, s.region? rid = some R ∧ R.Near false k.R := by
  obtain ⟨hrid, u, i, hw⟩ := islandTaking_rid h
  unfold State.islandTaking at h
  rw [hw] at h
  simp only at h
  split at h
  · cases h
  · next R hR => exact ⟨by rw [State.turnRegion, hw], R, hR, hrid.trans (region?_rid hR).symm, Bool.noConfusion⟩

/-! ### The frame of a record's take -/

/-- Only region `rid` has changed, and with it neither the walks, nor the home agents, nor the rotation of the link ports, nor, where `q` asks for
it, a slice. -/
def OwnOnly (q : Bool) (rid : Nat) (s t : State) : Prop :=
  Safety.OnlyRegion rid s t ∧ t.walks = s.walks ∧ t.home = s.home ∧ t.linkRot = s.linkRot
    ∧ (q = true → ∀ page, Safety.slice t rid page = Safety.slice s rid page)

theorem ownOnly_refl (q : Bool) (rid : Nat) (s : State) : OwnOnly q rid s s := ⟨only_refl rid s, rfl, rfl, rfl, fun _ _ => rfl⟩

theorem OwnOnly.trans {q : Bool} {rid : Nat} {s t u : State} (h : OwnOnly q rid s t) (k : OwnOnly q rid t u) : OwnOnly q rid s u := by
  obtain ⟨h1, h2, h3, h4, h5⟩ := h
  obtain ⟨k1, k2, k3, k4, k5⟩ := k
  exact ⟨only_trans h1 k1, k2.trans h2, k3.trans h3, k4.trans h4, fun hq page => (k5 hq page).trans (h5 hq page)⟩

theorem ownOnly_modRegion {q : Bool} {rid : Nat} {s : State} {f : Region → Region} (h : ∀ R, s.region? rid = some R → R.Near q (f R))
    (hrid : ∀ R, R.rid = rid → (f R).rid = rid) : OwnOnly q rid s (s.modRegion rid f) := by
  refine ⟨only_modRegion rid s f hrid, rfl, rfl, rfl, fun hq page => slice_eq_of_banks ?_ page⟩
  rw [region?_modRegion_self s rid f hrid, Option.map_map]
  cases hR : s.region? rid with
  | none => rfl
  | some R => exact congrArg some ((h R hR).2 hq)

theorem ownOnly_putRegion {q : Bool} {rid : Nat} {s : State} {R R' : Region} (hR : s.region? rid = some R) (h : R.Near q R') :
    OwnOnly q rid s (s.putRegion R') := by
  have hrid : R'.rid = rid := h.1.trans (region?_rid hR)
  rw [State.putRegion, hrid]
  exact ownOnly_modRegion (fun Q hQ => by rw [hR] at hQ; cases hQ; exact h) fun _ _ => hrid

theorem ownOnly_pend (q : Bool) (rid : Nat) (s : State) (n : Nat) : OwnOnly q rid s (s.pend n) :=
  ⟨only_pend rid s n, rfl, rfl, rfl, fun _ _ => rfl⟩

theorem ownOnly_takeFault (q : Bool) (rid : Nat) (s : State) (f : FaultRec) : OwnOnly q rid s (takeFault s rid f) := by
  unfold takeFault
  refine OwnOnly.trans (ownOnly_modRegion ?_ ?_) (ownOnly_pend q rid _ 1)
  · exact fun R _ => ⟨rfl, fun _ => rfl⟩
  · exact fun R hR => hR

end Sys2Proof.Machine
end

section
/-! SUPPORT. What becomes of a record's take leaves its region near what it was (O58). -/

namespace Sys2Proof.Machine

/-- A result of a take at a cell whose region is near `R`. -/
def TRes.Near (q : Bool) (R : Region) : TRes → Prop
  | .ok _ R' => R.Near q R'
  | _ => True

/-- A result of a take at an MU whose region is near `R`. -/
def MRes.Near (q : Bool) (R : Region) : MRes → Prop
  | .ok _ _ R' => R.Near q R'
  | _ => True

theorem TRes.Near.after {q : Bool} {R R' : Region} {x : TRes} (h : R.Near q R') (hx : x.Near q R') : x.Near q R := by
  cases x with
  | ok es R'' => exact h.trans hx
  | _ => trivial

theorem MRes.Near.after {q : Bool} {R R' : Region} {x : MRes} (h : R.Near q R') (hx : x.Near q R') : x.Near q R := by
  cases x with
  | ok es fs R'' => exact h.trans hx
  | _ => trivial

theorem TRes.near_toM {q : Bool} {R : Region} {x : TRes} (h : x.Near q R) : x.toM.Near q R := by
  cases x with
  | ok es R' => exact h
  | _ => trivial

/-! ### The commits -/

section
variable {q : Bool} {s : State} {rid : Nat} {R : Region} {k : Take}

theorem ownOnly_commitCell {lat occ : Nat} {x : TRes} (hR : s.region? rid = some R) (h : x.Near q R) :
    OwnOnly q rid s (commitCell s rid k lat occ x) := by
  unfold commitCell
  split
  · exact ownOnly_refl q rid s
  · exact ownOnly_takeFault q rid s _
  · split
    · exact ownOnly_refl q rid s
    · split
      · exact ownOnly_refl q rid s
      · refine ownOnly_putRegion hR (Region.Near.trans h ?_)
        exact Region.near_modUnit fun _ => rfl

theorem ownOnly_commitMu {x : MRes} (hR : s.region? rid = some R) (h : x.Near q R) : OwnOnly q rid s (commitMu s rid k x) := by
  unfold commitMu
  split
  · exact ownOnly_refl q rid s
  · exact ownOnly_takeFault q rid s _
  · split
    · exact ownOnly_refl q rid s
    · split
      · exact ownOnly_refl q rid s
      · refine ownOnly_putRegion hR (Region.Near.trans (Region.Near.trans h ?_) (Region.near_sendReserved q _ _ _ _))
        exact Region.near_modUnit fun _ => rfl

theorem ownOnly_commitCfu {op : Nat} {r : Rec} {x : TRes} (hR : s.region? rid = some R) (h : x.Near q R) :
    OwnOnly q rid s (commitCfu s rid k op r x) := by
  unfold commitCfu
  split
  · exact ownOnly_refl q rid s
  · exact ownOnly_takeFault q rid s _
  · split
    · exact ownOnly_refl q rid s
    · split
      · exact ownOnly_refl q rid s
      · refine ownOnly_putRegion hR (Region.Near.trans (Region.Near.trans h ?_) (Region.near_cfuSends q _ _ (fun R x => ?_) _))
        · exact Region.near_modUnit fun _ => rfl
        · exact R.near_cfuSend q _ _ _ _ _ _ _

theorem ownOnly_commitIsland {x : TRes} (hR : s.region? rid = some R) (h : x.Near false R) : OwnOnly false rid s (commitIsland s rid k x) := by
  unfold commitIsland
  split
  · exact ownOnly_refl false rid s
  · exact ownOnly_takeFault false rid s _
  · split
    · exact ownOnly_refl false rid s
    · split
      · refine ownOnly_putRegion hR (Region.Near.trans h ⟨?_, Bool.noConfusion⟩)
        simp
      · exact ownOnly_refl false rid s

theorem ownOnly_commitTake {op : Nat} {r : Rec} {x : TRes} (hR : s.region? rid = some R) (h : x.Near q R) :
    OwnOnly q rid s (commitTake s rid k op r x) := by
  unfold commitTake
  split
  · exact ownOnly_commitMu hR (TRes.near_toM h)
  · split
    · exact ownOnly_commitCfu hR h
    · exact ownOnly_commitCell hR h

end

/-! ### The records of a cell -/

section
variable {q : Bool} {k : Take} {r : Rec} {op : Nat}

theorem near_whole {R : Region} {x : TRes} (h : x.Near q R) : (k.whole x).Near q R := by
  unfold Take.whole
  split
  · trivial
  · exact h

theorem near_firing {f : List Operand → Region → TRes} (hf : ∀ ops R, k.R.Near q R → (f ops R).Near q k.R) : (k.firing op r f).Near q k.R := by
  unfold Take.firing
  split
  · split
    · trivial
    · split
      · trivial
      · next R hlog => exact hf _ _ ((Region.near_logSeals hlog).trans (Region.near_setSlots q R _ _))
    · trivial
  · exact hf _ _ (Region.near_refl q k.R)

theorem near_sendFiring {f : List Operand → Except Cause Sends} : (k.sendFiring op r f).Near q k.R :=
  near_firing fun ops R h => by
    split
    · exact h
    · trivial

theorem near_bumpCounter {R R' : Region} {u : UnitId} {i : Nat} {round : BitVec 12} {isExp : Bool}
    (h : bumpCounter R u i round isExp = some (.ok R')) : R.Near q R' := by
  unfold bumpCounter at h
  split at h
  · cases h
  · simp only at h
    repeat' split at h
    all_goals cases h
    all_goals exact Region.near_setSlots q R u _

theorem near_afterExit {R R' : Region} {es : Sends} (h : R.Near q R') : (R'.afterExit k op r es).Near q R :=
  h.trans (Region.near_forwards q R' _ _ _ _ _)

theorem near_leaveWith {es : Sends} : (leaveWith k r es).Near q k.R := by
  unfold leaveWith
  split
  · split
    · trivial
    · trivial
    · next R hbump => exact near_afterExit (near_bumpCounter hbump)
  · exact Region.near_refl q k.R

theorem near_enterRes : (enterRes k r).Near q k.R := by
  refine near_whole ?_
  split
  · trivial
  · simp only
    split
    · split
      · trivial
      · trivial
      · next R hbump => exact near_bumpCounter hbump
    · exact Region.near_refl q k.R

theorem near_nextRes : (nextRes k r).Near q k.R := by
  refine near_whole ?_
  split
  · trivial
  · exact Region.near_refl q k.R

theorem near_leaveRes : (leaveRes k r).Near q k.R := by
  refine near_whole ?_
  split
  · trivial
  · split
    · trivial
    · exact near_leaveWith

theorem near_callfRes : (callfRes k r).Near q k.R := by
  refine near_whole ?_
  split
  · trivial
  · exact Region.near_refl q k.R

theorem near_retfRes : (retfRes k r).Near q k.R := by
  refine near_whole ?_
  split
  · trivial
  · exact Region.near_refl q k.R

theorem near_fallocRes : (fallocRes k r).Near q k.R := by
  have hpool (f : Pool → Pool) (round : BitVec 12) (i : Nat) (was : Bool) : k.R.Near q ((k.R.modPool f).logFrame round i was) :=
    ⟨rfl, fun _ => by simp⟩
  refine near_whole ?_
  simp only
  repeat' split
  all_goals first
    | trivial
    | exact hpool _ _ _ _

theorem near_ffreeRes : (ffreeRes k r).Near q k.R := by
  refine near_whole ?_
  simp only
  split
  · trivial
  · split
    · trivial
    · exact ⟨rfl, fun _ => by simp⟩

theorem near_holdRes : (holdRes k r).Near q k.R := by
  refine near_whole ?_
  simp only
  split
  · trivial
  · next R hlog => exact (Region.near_logSeals hlog).trans (Region.near_setSlots q R _ _)

theorem near_sinkRes : (sinkRes k r).Near q k.R := by
  refine near_whole ?_
  split
  · exact ⟨rfl, fun _ => rfl⟩
  · split
    · exact ⟨rfl, fun _ => rfl⟩
    · exact Region.near_refl q k.R

theorem near_oreduceRes : (oreduceRes k r).Near q k.R := by
  have hslots (m : SMap Slot) : k.R.Near q (k.R.setSlots k.u m) := Region.near_setSlots q k.R k.u m
  have hexit {R R' : Region} {i : Nat} {round : BitVec 12} (m : SMap Slot) (hR : R = k.R.setSlots k.u m)
      (hbump : bumpCounter R k.u i round false = some (.ok R')) (es : Sends) : (R'.afterExit k 0x85 r es).Near q k.R :=
    near_afterExit ((hR ▸ hslots m).trans (near_bumpCounter hbump))
  unfold oreduceRes
  simp only
  repeat' split
  all_goals first
    | trivial
    | exact hslots _
    | exact hexit _ rfl (by assumption) _

theorem holdItem_rid (R : Region) (k : Take) (round : BitVec 12) (it : Item) : (R.holdItem k round it).rid = R.rid := by
  unfold Region.holdItem
  simp only
  split
  · rfl
  · exact foldl_keeps Region.rid _ (fun R j => by simp) _ R

/-- MARK moves the words of an item, so only the identifier of its region is told (R424). -/
theorem near_markRes : (markRes k r).Near false k.R := by
  have hwords {R R' : Region} {now : Nat} {round : BitVec 12} {ws : List (Nat × W32)} (hR : R.rid = k.R.rid)
      (h : R.engineWrite now round ws = some R') : k.R.Near false R' := ⟨(Region.engineWrite_rid h).trans hR, Bool.noConfusion⟩
  refine near_whole ?_
  simp only
  repeat' split
  all_goals first
    | trivial
    | exact ⟨rfl, Bool.noConfusion⟩
    | exact ⟨holdItem_rid _ _ _ _, Bool.noConfusion⟩
    | refine hwords ?_ (by assumption)
      rfl

/-! ### Arrivals -/

theorem near_forwardCancel : (forwardCancel k op r).Near q k.R := by
  unfold forwardCancel
  simp only
  repeat' split
  all_goals first
    | trivial
    | exact Region.near_refl q k.R
    | exact near_leaveWith

theorem near_quietRes : (quietRes k op r).Near q k.R := by
  unfold quietRes
  split
  · trivial
  · split
    · trivial
    · next R hlog => exact (Region.near_logSeals hlog).trans (Region.near_setSlots q R _ _)
  · trivial

theorem near_cancelArrivalRes : (cancelArrivalRes k op r).Near q k.R := by
  unfold cancelArrivalRes
  split
  · exact near_oreduceRes
  · split
    · split
      · trivial
      · exact Region.near_setSlots q k.R _ _
      · exact Region.near_setSlots q k.R _ _
      · trivial
    · exact near_forwardCancel

theorem near_purgeArrivalRes : (purgeArrivalRes k op r).Near q k.R := by
  unfold purgeArrivalRes
  split
  · trivial
  · split
    · exact near_quietRes
    · exact Region.near_refl q k.R

theorem near_takeMarker {R R' : Region} {u : UnitId} {n : Nat} {t : Token} (h : R.takeMarker u n op r t = some R') : R.Near q R' := by
  unfold Region.takeMarker at h
  split at h
  · split at h
    · cases h
    · split at h
      · cases h
      · cases h
        exact Region.near_modUnit fun _ => rfl
  · split at h
    · cases h
      exact Region.near_refl q R
    · split at h
      · cases h
      · cases h
        exact ⟨by simp, fun _ => by simp⟩

theorem near_takeEos (R : Region) (u : UnitId) (n : Nat) (t : Token) : R.Near q (R.takeEos u n op r t) := by
  unfold Region.takeEos
  split
  · exact Region.near_refl q R
  · exact ⟨by simp, fun _ => by simp⟩

theorem near_markerArrivalRes : (markerArrivalRes k op r).Near q k.R := by
  unfold markerArrivalRes
  split
  · trivial
  · next R hmarker => exact Region.Near.trans (near_takeMarker hmarker) (Region.near_forwards q R _ _ _ _ _)

theorem near_markEosRes : (markEosRes k r).Near q k.R := by
  unfold markEosRes
  simp only
  split
  · exact Region.near_setSlots q k.R _ _
  · exact Region.near_setSlots q k.R _ _

theorem near_eosArrivalRes : (eosArrivalRes k op r).Near q k.R := by
  unfold eosArrivalRes
  split
  · exact near_markEosRes
  · exact Region.Near.trans (near_takeEos k.R _ _ _) (Region.near_forwards q _ _ _ _ _ _)

theorem near_bubbleArrivalRes : (bubbleArrivalRes k op r).Near q k.R := Region.near_forwards q k.R _ _ _ _ _

/-! ### The records of an MU -/

theorem near_admitted {R R' : Region} {page : Nat} {a : Access} (h : R.admitted page a = some R') : R.Near q R' := by
  unfold Region.admitted at h
  split at h
  · cases h
  · simp only at h
    repeat' split at h
    all_goals cases h
    all_goals exact ⟨rfl, fun _ => Region.modMu_banks fun _ => rfl⟩

theorem near_memFiring {R : Region} {ops : List Operand} : (memFiring k op r ops R).Near q R := by
  have herr {R' : Region} (h : R.Near q R') (u : UnitId) (t : Token) : R.Near q (R'.raiseErr u t) := h.trans ⟨rfl, fun _ => rfl⟩
  unfold memFiring
  split
  · trivial
  · simp only
    split
    · split
      · trivial
      · next R' hadm =>
        simp only [MRes.Near]
        split
        · exact herr (near_admitted hadm) _ _
        · exact near_admitted hadm
    · split
      · trivial
      · next R' hadm => exact near_admitted hadm

theorem near_memRes : (memRes k op r).Near q k.R := by
  unfold memRes
  split
  · split
    · trivial
    · split
      · trivial
      · next R hlog => exact MRes.Near.after ((Region.near_logSeals hlog).trans (Region.near_setSlots q R _ _)) near_memFiring
    · trivial
  · exact near_memFiring

theorem near_memCancelRes : (memCancelRes k op r).Near q k.R := by
  unfold memCancelRes
  simp only
  repeat' split
  all_goals first
    | trivial
    | exact Region.near_setSlots q k.R _ _
    | exact near_admitted (by assumption)
    | exact (Region.near_setSlots q k.R _ _).trans (near_admitted (by assumption))

end

end Sys2Proof.Machine
end

section
/-! SUPPORT. The frame of every record's take and of every arrival; settles O58. -/

namespace Sys2Proof.Machine

/-! ### Identifiers kept by the operations of an island -/

@[simp] theorem Region.forwardMore_rid (R : Region) (now : Nat) (u : UnitId) : (R.forwardMore now u).rid = R.rid := by
  unfold Region.forwardMore
  split
  · rfl
  · refine foldl_keeps Region.rid _ (fun R w => ?_) _ R
    simp only
    repeat' split
    · rfl
    · rfl
    · exact (foldl_keeps Region.rid _ (fun R p => by simp) _ _).trans (Region.forwards_rid _ _ _ _ _ _)
    · exact Region.forwards_rid _ _ _ _ _ _
    · exact (Region.sendNow_rid _ _ _ _).trans (Region.forwards_rid _ _ _ _ _ _)

@[simp] theorem Region.endOperation_rid (R : Region) (now : Nat) (u : UnitId) (es : Sends) : (R.endOperation now u es).rid = R.rid := by
  simp [Region.endOperation]

@[simp] theorem Region.putBack_rid (R : Region) (u : UnitId) (q : Nat) (x : QTok) : (R.putBack u q x).rid = R.rid := by
  unfold Region.putBack
  simp only
  repeat' split
  all_goals simp

@[simp] theorem Region.raiseErr_rid (R : Region) (u : UnitId) (t : Token) : (R.raiseErr u t).rid = R.rid := rfl

@[simp] theorem Region.mxiComplete_rid (R : Region) (now : Nat) (u : UnitId) (o : MxiOp) (exc keep : Bool) :
    (R.mxiComplete now u o exc keep).rid = R.rid := by
  unfold Region.mxiComplete
  simp only [Region.endOperation_rid]
  split <;> simp

@[simp] theorem Region.addSend_rid (R : Region) (x : Send) : (R.addSend x).rid = R.rid := by
  unfold Region.addSend
  split <;> rfl

/-! ### The frame where slices may change -/

section
variable {s t : State} {rid : Nat} {R : Region}

theorem ownOnly_put (h : R.rid = rid) : OwnOnly false rid s (s.putRegion R) :=
  ⟨only_putRegion rid s R h, rfl, rfl, rfl, Bool.noConfusion⟩

theorem ownOnly_putNext {n : Nat} (h : R.rid = rid) : OwnOnly false rid s { s.putRegion R with links := { s.links with nextId := n } } :=
  (ownOnly_put h).trans ⟨only_nextId rid (s.putRegion R) n, rfl, rfl, rfl, Bool.noConfusion⟩

theorem ownOnly_putFault (h : R.rid = rid) (f : FaultRec) : OwnOnly false rid s (takeFault (s.putRegion R) rid f) :=
  (ownOnly_put h).trans (ownOnly_takeFault false rid _ f)

theorem ownOnly_queueReport (h : R.rid = rid) (p : Parked) : OwnOnly false rid s (queueReport s R p) := by
  have hput : OwnOnly false rid s (s.putRegion { R with parked := R.parked ++ [{ p with reported := true }] }) := ownOnly_put h
  unfold queueReport
  simp only
  split
  · next hroom =>
    rw [hroom]
    refine hput.trans (OwnOnly.trans ?_ (ownOnly_pend false rid _ 2))
    exact ⟨⟨rfl, rfl, rfl, rfl, rfl, rfl, rfl, rfl, rfl, ⟨rfl, rfl⟩, rfl, rfl, rfl, rfl, rfl, rfl, rfl⟩, rfl, rfl, rfl, Bool.noConfusion⟩
  · exact ownOnly_put h

theorem ownOnly_mxiFault (h : R.rid = rid) (u : UnitId) (o : MxiOp) (c : Cause) (detail : Nat) : OwnOnly false rid s (mxiFault s R u o c detail) := by
  subst h
  unfold mxiFault
  refine ownOnly_putFault ?_ _
  simp

theorem ownOnly_mxiMeet (h : R.rid = rid) (u : UnitId) (o : MxiOp) (place : Nat) : OwnOnly false rid s (mxiMeet s R u o place) := by
  unfold mxiMeet
  split
  · exact ownOnly_put h
  · split
    · exact ownOnly_mxiFault h u o _ _
    · rw [h]
      exact ownOnly_takeFault false rid s _

theorem ownOnly_mzeroApply {u : UnitId} {o : MxiOp} (h : R.rid = rid) (ht : mzeroApply s R u o = some t) : OwnOnly false rid s t := by
  unfold mzeroApply at ht
  repeat' split at ht
  all_goals cases ht
  · exact ownOnly_put (by simpa using h)
  · exact ownOnly_mxiMeet h u o _
  · exact ownOnly_mxiFault h u o _ _
  · exact ownOnly_put (by simpa using h)

theorem ownOnly_powerApply {u : UnitId} {o : MxiOp} {go : Bool} (h : R.rid = rid) (ht : powerApply s R u o go = some t) : OwnOnly false rid s t := by
  unfold powerApply at ht
  split at ht
  · cases ht
  · simp only at ht
    repeat' split at ht
    all_goals cases ht
    all_goals exact ownOnly_put (by simpa using h)

theorem mxiAccept_rid {k : Take} {x : Mxi} {op : Nat} {r : Rec} {ops : List Token} {R' : Region} {o : MxiOp}
    (h : R.mxiAccept k x op r ops = .ok R' o) : R'.rid = R.rid := by
  unfold Region.mxiAccept at h
  simp only at h
  split at h
  · cases h
  · generalize (if (headerOf ops .n32).err || _ then none else R.mxiChecks k.U x op r ops) = bad at h
    split at h
    · cases h
    · cases h
      rfl

end

/-! ### The take of a link record -/

/-- What a take of a link record comes to leaves its region's identifier. -/
def LRes.ridOk (rid : Nat) : LRes → Prop
  | .ok _ _ R => R.rid = rid
  | _ => True

theorem ridOk_acceptSend {s : State} {R : Region} {k : Take} {es fs : Sends} {x : Send} {rid : Nat} (h : R.rid = rid) :
    (acceptSend s R k es fs x).ridOk rid := by
  unfold acceptSend
  split
  · simpa [LRes.ridOk] using h
  · split
    · trivial
    · trivial
    · simpa [LRes.ridOk] using h

theorem ridOk_andThen {x : LRead} {f : List W32 → Bool → LRes} {rid : Nat} (h : ∀ ws bad, (f ws bad).ridOk rid) : (x.andThen f).ridOk rid := by
  cases x with
  | ok ws bad => exact h ws bad
  | _ => trivial

theorem ridOk_linkRes (s : State) (k : Take) (op : Nat) (r : Rec) : (linkRes s k op r).ridOk k.R.rid := by
  have herr (R : Region) (c : Prop) [Decidable c] (u : UnitId) (t : Token) : (if c then R.raiseErr u t else R).rid = R.rid := by
    split <;> rfl
  unfold linkRes
  simp only
  repeat' split
  all_goals first
    | trivial
    | exact herr _ _ _ _
    | exact ridOk_andThen fun ws bad => ridOk_acceptSend (herr _ _ _ _)

/-! ### The frame of a turn -/

/-- What a turn of a take or an emission may do: nothing where it names no region, and what `OwnOnly` says where it names one. -/
def Framed (q : Bool) (s t : State) : Prop :=
  (s.turnRegion = none → t = s) ∧ ∀ rid, s.turnRegion = some rid → OwnOnly q rid s t

theorem framed_refl (q : Bool) (s : State) : Framed q s s := ⟨fun _ => rfl, fun rid _ => ownOnly_refl q rid s⟩

theorem framed_of_own {q : Bool} {s t : State} {rid : Nat} (hturn : s.turnRegion = some rid) (h : OwnOnly q rid s t) : Framed q s t :=
  ⟨fun hnone => (nomatch hturn.symm.trans hnone), fun _ hrid => Option.some.inj (hturn.symm.trans hrid) ▸ h⟩

theorem OwnOnly.weaken {q : Bool} {rid : Nat} {s t : State} (h : OwnOnly q rid s t) : OwnOnly false rid s t :=
  ⟨h.1, h.2.1, h.2.2.1, h.2.2.2.1, Bool.noConfusion⟩

theorem Framed.weaken {q : Bool} {s t : State} (h : Framed q s t) : Framed false s t := ⟨h.1, fun rid hrid => (h.2 rid hrid).weaken⟩

section
variable {q : Bool} {s : State} {op : Nat} {r : Rec}

theorem framed_aluExec (c : Cost) (f : AluFn) : Framed q s (aluExec s op r c f) := by
  unfold aluExec
  split
  · exact framed_refl q s
  · next rid k htaking =>
    obtain ⟨hturn, R, hR, hnear⟩ := near_taking (q := q) htaking
    split
    · exact framed_refl q s
    · exact framed_of_own hturn (ownOnly_commitCell hR (TRes.Near.after hnear near_sendFiring))

theorem framed_tfuExec {f : Take → TRes} (hf : ∀ k, (f k).Near q k.R) : Framed q s (tfuExec s f) := by
  unfold tfuExec
  split
  · exact framed_refl q s
  · next rid k htaking =>
    obtain ⟨hturn, R, hR, hnear⟩ := near_taking (q := q) htaking
    exact framed_of_own hturn (ownOnly_commitCell hR (TRes.Near.after hnear (hf k)))

theorem framed_cfuExec : Framed q s (cfuExec s op r) := by
  unfold cfuExec
  split
  · exact framed_refl q s
  · next rid k htaking =>
    obtain ⟨hturn, R, hR, hnear⟩ := near_taking (q := q) htaking
    simp only
    split
    · exact framed_refl q s
    · split
      · exact framed_refl q s
      · refine framed_of_own hturn (ownOnly_putRegion hR (hnear.trans (Region.Near.trans ?_ (Region.near_cfuSend q _ _ _ _ _ _ _ _))))
        exact Region.near_modUnit fun _ => rfl

theorem framed_memExec : Framed q s (memExec s op r) := by
  unfold memExec
  split
  · exact framed_refl q s
  · next rid k htaking =>
    obtain ⟨hturn, R, hR, hnear⟩ := near_taking (q := q) htaking
    exact framed_of_own hturn (ownOnly_commitMu hR (MRes.Near.after hnear near_memRes))

theorem framed_falloc : ∃ t, execFalloc r s = .next t ∧ Framed q s t := by
  unfold execFalloc
  split
  · next rid k htaking =>
    obtain ⟨hturn, R, hR, hnear⟩ := near_taking (q := q) htaking
    exact ⟨_, rfl, framed_of_own hturn (ownOnly_commitCell hR (TRes.Near.after hnear near_fallocRes))⟩
  · split
    · next R u i t htok =>
      split
      · refine ⟨_, rfl, ?_⟩
        unfold State.headTok at htok
        split at htok
        · next rid u' i' hw =>
          obtain ⟨Q, hQ, hhead⟩ := Option.bind_eq_some_iff.1 htok
          obtain ⟨x, _, hx⟩ := Option.map_eq_some_iff.1 hhead
          cases hx
          refine framed_of_own (by rw [State.turnRegion, hw]) (ownOnly_putRegion hQ ⟨?_, fun _ => Region.requestFrame_banks _ _ _ _⟩)
          unfold Region.requestFrame
          split <;> rfl
        · cases htok
      · exact ⟨s, rfl, framed_refl q s⟩
    · exact ⟨s, rfl, framed_refl q s⟩

theorem framed_source : ∃ t, execSource r s = .next t ∧ Framed q s t := by
  unfold execSource
  split
  · next rid u hw =>
    split
    · exact ⟨s, rfl, framed_refl q s⟩
    · next R hR =>
      split
      · exact ⟨s, rfl, framed_refl q s⟩
      · split
        · exact ⟨s, rfl, framed_refl q s⟩
        · split
          · exact ⟨s, rfl, framed_refl q s⟩
          · refine ⟨_, rfl, framed_of_own (by rw [State.turnRegion, hw]) (ownOnly_putRegion hR ?_)⟩
            exact Region.near_modUnit fun _ => rfl
  · exact ⟨s, rfl, framed_refl q s⟩

/-! ### The records of an island and of a link -/

theorem framed_strExec : Framed false s (strExec s op r) := by
  unfold strExec
  split
  · exact framed_refl false s
  · next rid k htaking =>
    obtain ⟨hturn, R, hR, hnear⟩ := near_islandTaking htaking
    have hrid : k.R.rid = rid := hnear.1.trans (region?_rid hR)
    split
    · exact framed_refl false s
    · simp only
      split
      · split
        · exact framed_of_own hturn (ownOnly_takeFault false rid s _)
        · refine framed_of_own hturn (ownOnly_commitIsland hR (TRes.Near.after hnear ⟨?_, Bool.noConfusion⟩))
          split <;> rfl
      · split
        · exact framed_of_own hturn (ownOnly_takeFault false rid s _)
        · split
          · exact framed_refl false s
          · exact framed_of_own hturn (ownOnly_put hrid)

theorem framed_sxlat : ∃ t, execSxlat r s = .next t ∧ Framed false s t := by
  unfold execSxlat
  split
  · exact ⟨s, rfl, framed_refl false s⟩
  · next rid k htaking =>
    obtain ⟨hturn, R, hR, hnear⟩ := near_islandTaking htaking
    simp only
    split
    · refine ⟨_, rfl, framed_of_own hturn (ownOnly_commitIsland hR (TRes.Near.after hnear ⟨?_, Bool.noConfusion⟩))⟩
      split <;> rfl
    · split
      · exact ⟨_, rfl, framed_of_own hturn (ownOnly_takeFault false rid s _)⟩
      · split
        · exact ⟨_, rfl, framed_of_own hturn (ownOnly_takeFault false rid s _)⟩
        · exact ⟨_, rfl, framed_of_own hturn (ownOnly_commitIsland hR (TRes.Near.after hnear (Region.near_refl false k.R)))⟩

/-- An operation of a matrix record accepted, with what MZERO, MWAKE and MGATE make of it at once (R306). -/
theorem ownOnly_mxiAccepted {rid : Nat} {R R' : Region} {k : Take} {x : Mxi} {o : MxiOp} {ops : List Token} (hR : R.rid = rid)
    (h : R.mxiAccept k x op r ops = .ok R' o) :
    OwnOnly false rid s ((if op = 0xD2 then mzeroApply (s.putRegion R') R' k.u o
      else if op = 0xD5 || op = 0xD6 then powerApply (s.putRegion R') R' k.u o false else none).getD (s.putRegion R')) := by
  have hR' : R'.rid = rid := (mxiAccept_rid h).trans hR
  have hput : OwnOnly false rid s (s.putRegion R') := ownOnly_put hR'
  split
  · cases hz : mzeroApply (s.putRegion R') R' k.u o with
    | none => exact hput
    | some t => exact hput.trans (ownOnly_mzeroApply hR' hz)
  · split
    · cases hp : powerApply (s.putRegion R') R' k.u o false with
      | none => exact hput
      | some t => exact hput.trans (ownOnly_powerApply hR' hp)
    · exact hput

theorem framed_mxiExec : Framed false s (mxiExec s op r) := by
  unfold mxiExec
  split
  · exact framed_refl false s
  · next rid k htaking =>
    obtain ⟨hturn, R, hR, hnear⟩ := near_islandTaking htaking
    have hrid : k.R.rid = rid := hnear.1.trans (region?_rid hR)
    split
    · exact framed_refl false s
    · extract_lets accept
      have haccept (R : Region) (ops : List Token) (hrid : R.rid = rid) : Framed false s (accept R ops) := by
        simp only [accept]
        split
        · exact framed_refl false s
        · exact framed_of_own hturn (ownOnly_takeFault false rid s _)
        · next R1 o hacc => exact framed_of_own hturn (ownOnly_mxiAccepted hrid hacc)
      split
      · split
        · exact framed_of_own hturn (ownOnly_takeFault false rid s _)
        · exact framed_of_own hturn (ownOnly_put hrid)
        · exact framed_of_own hturn (ownOnly_commitIsland hR (TRes.Near.after hnear ⟨rfl, Bool.noConfusion⟩))
        · exact haccept _ _ hrid
      · exact haccept _ _ hrid

theorem framed_linkExec : Framed false s (linkExec s op r) := by
  unfold linkExec
  split
  · exact framed_refl false s
  · next rid k htaking =>
    obtain ⟨hturn, R, hR, hnear⟩ := near_taking (q := false) htaking
    have hrid : k.R.rid = rid := hnear.1.trans (region?_rid hR)
    have hok := ridOk_linkRes s k op r
    split
    · exact framed_refl false s
    · exact framed_of_own hturn (ownOnly_takeFault false rid s _)
    · exact framed_of_own hturn (ownOnly_takeFault false rid s _)
    · split
      · exact framed_refl false s
      · next R' hR' =>
        split
        · exact framed_refl false s
        · exact framed_of_own hturn (ownOnly_queueReport (region?_rid hR') _)
    · next es fs R' hres =>
      rw [hres] at hok
      split
      · exact framed_refl false s
      · extract_lets R1
        have hR1 : R1.rid = rid := Eq.trans hok hrid
        clear_value R1
        exact framed_of_own hturn (ownOnly_putNext hR1)

theorem framed_sbeExec : Framed false s (sbeExec s op r) := by
  unfold sbeExec
  split
  · exact framed_refl false s
  · next rid k htaking =>
    obtain ⟨hturn, R, hR, hnear⟩ := near_islandTaking htaking
    have hrid : k.R.rid = rid := hnear.1.trans (region?_rid hR)
    split
    · exact framed_refl false s
    · extract_lets draw accept
      have haccept (R : Region) (ops : List Token) (hrid : R.rid = rid) : Framed false s (accept R ops) := by
        simp only [accept]
        split
        · exact framed_refl false s
        · split
          · exact framed_of_own hturn (ownOnly_takeFault false rid s _)
          · split
            · exact framed_of_own hturn (ownOnly_takeFault false rid s _)
            · exact framed_of_own hturn (ownOnly_put hrid)
      split
      · split
        · exact framed_of_own hturn (ownOnly_takeFault false rid s _)
        · exact framed_of_own hturn (ownOnly_put hrid)
        · exact framed_of_own hturn (ownOnly_commitIsland hR (TRes.Near.after hnear ⟨rfl, Bool.noConfusion⟩))
        · exact haccept _ _ hrid
      · exact haccept _ _ hrid

end

end Sys2Proof.Machine
end

section
/-! SUPPORT. Every record and every arrival has the frame of its region (O58). -/

namespace Sys2Proof
open Machine

/-- The record is of a cell or an MU and not MARK (R424): its take leaves the slices. -/
def keepsSlices (i : Instr) : Bool := (opOf i).any fun p => decide (p.1.toNat < 0xC0) && p.1 != 0x7D#8

section
variable {q : Bool} {k : Take} {r : Rec}

theorem near_pass {es : Sends} : (k.whole (.ok es k.R)).Near q k.R := near_whole (Region.near_refl q k.R)

/-- A record of the Tag and Frame Unit but MARK, taken, leaves its region near what it was, slices and all. -/
theorem exec_tfu_framed {f : Take → TRes} {i : Instr} {s : State} (hexec : exec i s = .next (tfuExec s f)) (hf : ∀ k, (f k).Near q k.R) :
    ∃ t, exec i s = .next t ∧ Framed q s t := ⟨_, hexec, framed_tfuExec hf⟩

end

/-- The take of a record, or the emission of a SOURCE, has its region's frame. -/
theorem exec_record_framed {i : Instr} (h : (opOf i).isSome = true) (s : State) : ∃ t, exec i s = .next t ∧ Framed (keepsSlices i) s t := by
  cases halu : Claim.aluRow i with
  | some x => exact ⟨_, exec_of_aluRow halu s, framed_aluExec _ _⟩
  | none =>
  cases hcfu : Claim.cfuRow i with
  | some x => exact ⟨_, exec_of_cfuRow hcfu s, framed_cfuExec⟩
  | none =>
  cases hmem : Claim.memRow i with
  | some x => exact ⟨_, exec_of_memRow hmem s, framed_memExec⟩
  | none =>
  cases i
  case steer r => exact exec_tfu_framed rfl fun k => near_sendFiring
  case gate r => exact exec_tfu_framed rfl fun k => near_sendFiring
  case tagset r => exact exec_tfu_framed rfl fun k => near_sendFiring
  case merge r => exact exec_tfu_framed rfl fun k => near_pass
  case stick r => exact exec_tfu_framed rfl fun k => near_pass
  case purge r => exact exec_tfu_framed rfl fun k => near_pass
  case cancel r => exact exec_tfu_framed rfl fun k => near_pass
  case eos r => exact exec_tfu_framed rfl fun k => near_pass
  case const r => exact exec_tfu_framed rfl fun k => near_pass
  case tagget r => exact exec_tfu_framed rfl fun k => near_pass
  case taggetTag r => exact exec_tfu_framed rfl fun k => near_pass
  case enter r => exact exec_tfu_framed rfl fun k => near_enterRes
  case next r => exact exec_tfu_framed rfl fun k => near_nextRes
  case leave r => exact exec_tfu_framed rfl fun k => near_leaveRes
  case callf r => exact exec_tfu_framed rfl fun k => near_callfRes
  case retf r => exact exec_tfu_framed rfl fun k => near_retfRes
  case ffree r => exact exec_tfu_framed rfl fun k => near_ffreeRes
  case mark r => exact exec_tfu_framed rfl fun k => near_markRes
  case hold r => exact exec_tfu_framed rfl fun k => near_holdRes
  case sink r => exact exec_tfu_framed rfl fun k => near_sinkRes
  case oreduce r => exact exec_tfu_framed rfl fun k => near_oreduceRes
  case falloc r => exact framed_falloc
  case source r => exact framed_source
  case sload r | sstore r | sfeed r | sgather r | sscatter r | scopy r => exact ⟨_, rfl, framed_strExec⟩
  case sxlat r => exact framed_sxlat
  case mma r | mmas r | mzero r | mout r | mcb r | mwake r | mgate r => exact ⟨_, rfl, framed_mxiExec⟩
  case sgen r | sand r | sxnor r | smux r | sor r | scnt r | sdot r | sregen r | slen r | sloadv r | sstorev r | sclr r =>
    exact ⟨_, rfl, framed_sbeExec⟩
  case send r | recv r | post r | nred r | call r => exact ⟨_, rfl, framed_linkExec⟩
  all_goals try exact Bool.noConfusion h
  all_goals try exact elim_none halu.symm
  all_goals try exact elim_none hcfu.symm
  all_goals exact elim_none hmem.symm

/-! ### Arrivals -/

section
variable {s : State} {rid : Nat} {k : Take} {op : Nat} {r : Rec}

theorem near_arrival (h : s.arrival = some (rid, k, op, r)) : s.turnRegion = some rid ∧ ∃ R, s.region? rid = some R ∧ R.Near false k.R := by
  unfold State.arrival at h
  split at h
  · next rid' k' htaking =>
    obtain ⟨p, _, hp⟩ := Option.map_eq_some_iff.1 h
    cases hp
    exact near_taking htaking
  · obtain ⟨p, htaking, hp⟩ := Option.bind_eq_some_iff.1 h
    obtain ⟨x, _, hx⟩ := Option.map_eq_some_iff.1 hp
    cases hx
    exact near_islandTaking htaking

theorem framed_fireMatching : ∃ t, fireMatching op r s = .next t ∧ Framed false s t := by
  unfold fireMatching
  split
  case h_58 => exact ⟨s, rfl, framed_refl false s⟩
  case h_47 | h_48 | h_49 => exact ⟨_, rfl, framed_tfuExec fun k => near_sendFiring⟩
  case h_50 | h_51 | h_52 | h_53 | h_54 | h_55 | h_56 | h_57 => exact ⟨_, rfl, framed_memExec⟩
  all_goals exact ⟨_, rfl, framed_aluExec _ _⟩

theorem framed_controlArrival {kind : Kind} {f : Take → Nat → Rec → TRes} (hf : ∀ k op r, (f k op r).Near false k.R) :
    Framed false s (controlArrival s kind f) := by
  unfold controlArrival
  split
  · exact framed_refl false s
  · next rid k op r harrival =>
    obtain ⟨hturn, R, hR, hnear⟩ := near_arrival harrival
    split
    · exact framed_refl false s
    · split
      · exact framed_of_own hturn (ownOnly_commitIsland hR (TRes.Near.after hnear (hf k op r)))
      · exact framed_of_own hturn (ownOnly_commitTake hR (TRes.Near.after hnear (hf k op r)))

theorem framed_slotWrite : ∃ t, execSlotWrite s = .next t ∧ Framed false s t := by
  unfold execSlotWrite
  split
  · exact ⟨s, rfl, framed_refl false s⟩
  · next rid k op r harrival =>
    obtain ⟨hturn, R, hR, hnear⟩ := near_arrival harrival
    split
    · exact ⟨s, rfl, framed_refl false s⟩
    · split
      · exact ⟨_, rfl, framed_mxiExec⟩
      · split
        · exact ⟨_, rfl, framed_sbeExec⟩
        · split
          · exact ⟨s, rfl, framed_refl false s⟩
          · exact ⟨_, rfl, framed_of_own hturn (ownOnly_commitTake hR (TRes.Near.after hnear near_quietRes))⟩

theorem framed_stickyArrival : ∃ t, execStickyArrival s = .next t ∧ Framed false s t := by
  unfold execStickyArrival
  split
  · exact ⟨s, rfl, framed_refl false s⟩
  · next rid k op r harrival =>
    obtain ⟨hturn, R, hR, hnear⟩ := near_arrival harrival
    split
    · exact ⟨s, rfl, framed_refl false s⟩
    · split
      · exact framed_fireMatching
      · exact ⟨_, rfl, framed_of_own hturn (ownOnly_commitTake hR (TRes.Near.after hnear near_quietRes))⟩

theorem framed_purgeArrival : ∃ t, execPurgeArrival s = .next t ∧ Framed false s t := by
  unfold execPurgeArrival
  split
  · exact ⟨s, rfl, framed_refl false s⟩
  · next rid k op r harrival =>
    obtain ⟨hturn, R, hR, hnear⟩ := near_arrival harrival
    split
    · exact ⟨s, rfl, framed_refl false s⟩
    · split
      · exact ⟨_, rfl, framed_of_own hturn (ownOnly_commitIsland hR hnear)⟩
      · exact ⟨_, rfl, framed_of_own hturn (ownOnly_commitTake hR (TRes.Near.after hnear near_purgeArrivalRes))⟩

theorem framed_cancelArrival : ∃ t, execCancelArrival s = .next t ∧ Framed false s t := by
  unfold execCancelArrival
  split
  · exact ⟨s, rfl, framed_refl false s⟩
  · next rid k op r harrival =>
    obtain ⟨hturn, R, hR, hnear⟩ := near_arrival harrival
    split
    · exact ⟨s, rfl, framed_refl false s⟩
    · split
      · exact ⟨_, rfl, framed_of_own hturn (ownOnly_commitMu hR (MRes.Near.after hnear near_memCancelRes))⟩
      · split
        · exact ⟨_, rfl, framed_mxiExec⟩
        · split
          · exact ⟨_, rfl, framed_sbeExec⟩
          · split
            · exact ⟨_, rfl, framed_of_own hturn (ownOnly_commitIsland hR hnear)⟩
            · exact ⟨_, rfl, framed_of_own hturn (ownOnly_commitTake hR (TRes.Near.after hnear near_cancelArrivalRes))⟩

end

theorem exec_head_framed {i : Instr} (h : headRow i = true) (s : State) : ∃ t, exec i s = .next t ∧ Framed false s t := by
  cases i
  case slotWrite => exact framed_slotWrite
  case stickyArrival => exact framed_stickyArrival
  case purgeArrival => exact framed_purgeArrival
  case cancelArrival => exact framed_cancelArrival
  case markerArrival => exact ⟨_, rfl, framed_controlArrival fun _ _ _ => near_markerArrivalRes⟩
  case endOfStreamArrival => exact ⟨_, rfl, framed_controlArrival fun _ _ _ => near_eosArrivalRes⟩
  case bubbleArrival => exact ⟨_, rfl, framed_controlArrival fun _ _ _ => near_bubbleArrivalRes⟩
  all_goals exact Bool.noConfusion h

theorem opOf_of_headRow {i : Instr} (h : headRow i = true) : opOf i = none := by
  cases i
  all_goals try exact Bool.noConfusion h
  all_goals rfl

/-- Settles O58: what becomes of a take is near the region that the turn names. -/
theorem fabricRecordsFrame : Obligations.FabricRecordsFrame := by
  have hframe {i : Instr} {s t : State} {q : Bool} (h : Framed q s t) (hq : ∀ op r, opOf i = some (op, r) → op.toNat < 0xC0 → op ≠ 0x7D#8 → q = true) :
      (s.turnRegion = none → t = s) ∧
      (∀ rid, s.turnRegion = some rid → Safety.OnlyRegion rid s t ∧ t.walks = s.walks ∧ t.home = s.home ∧ t.linkRot = s.linkRot ∧
        ∀ op r page, opOf i = some (op, r) → op.toNat < 0xC0 → op ≠ 0x7D#8 → Safety.slice t rid page = Safety.slice s rid page) := by
    refine ⟨h.1, fun rid hrid => ?_⟩
    obtain ⟨honly, hwalks, hhome, hrot, hslices⟩ := h.2 rid hrid
    exact ⟨honly, hwalks, hhome, hrot, fun op r page hop hlow hmark => hslices (hq op r hop hlow hmark) page⟩
  intro i s t hi hexec
  rcases hi with hrecord | hhead
  · obtain ⟨u, hu, hframed⟩ := exec_record_framed hrecord s
    cases hu.symm.trans hexec
    exact hframe hframed fun op r hop hlow hmark => by simp [keepsSlices, hop, hlow, hmark]
  · obtain ⟨u, hu, hframed⟩ := exec_head_framed hhead s
    cases hu.symm.trans hexec
    refine hframe hframed fun op r hop => ?_
    exact elim_none ((opOf_of_headRow hhead).symm.trans hop)

end Sys2Proof
end

section
/-! SUPPORT. The frame of every event of a region's own; settles O59. -/

namespace Sys2Proof.Machine
open Safety

/-! ### Identifiers kept by the operations of the events -/

@[simp] theorem Region.undoFiring_rid (R : Region) (page : Nat) (a : Access) : (R.undoFiring page a).rid = R.rid := by
  unfold Region.undoFiring
  simp only
  split
  · rfl
  · split <;> simp

@[simp] theorem Region.arriveEnd_rid (R : Region) (now : Nat) (f : Flight) (page pos index : Nat) (e : W32) :
    (R.arriveEnd now f page pos index e).rid = R.rid := by
  unfold Region.arriveEnd
  simp only
  repeat' split
  all_goals simp

theorem Region.islandSend_rid {R R' : Region} {now : Nat} {u : UnitId} {es : Sends} (h : R.islandSend now u es = some R') : R'.rid = R.rid := by
  unfold Region.islandSend at h
  repeat' split at h
  all_goals cases h
  simp

@[simp] theorem Region.holdAll_rid (R : Region) (sd : Nat) (a : Access) (gas pas : List Nat) : (R.holdAll sd a gas pas).rid = R.rid := by
  unfold Region.holdAll
  refine foldl_keeps Region.rid _ (fun R i => ?_) _ R
  simp only
  split
  · simp
  · exact foldl_keeps Region.rid _ (fun R j => by simp) _ R

@[simp] theorem Region.sbeComplete_rid (R : Region) (now : Nat) (u : UnitId) (o : SbeOp) (es : Sends) (payload : Option (List W32 × Bool)) :
    (R.sbeComplete now u o es payload).rid = R.rid := by
  unfold Region.sbeComplete
  simp only [Region.endOperation_rid]
  split <;> simp

theorem streamPerform_rid {s : State} {R R' : Region} {U : Site} {o : StrOp} (h : streamPerform s R U o = .ok R') : R'.rid = R.rid := by
  unfold streamPerform at h
  simp only at h
  split at h
  · split at h
    · next R1 hwrite =>
      cases h
      exact Region.engineWrite_rid hwrite
    · cases h
  · split at h <;> cases h
    exact foldl_keeps Region.rid _ (fun R p => by split <;> simp) _ _

/-! ### Faults and states that an event ends in -/

section
variable {s : State} {rid : Nat} {R : Region}

theorem only_put (h : R.rid = rid) : OnlyRegion rid s (s.putRegion R) := only_putRegion rid s R h

theorem only_putFault {R0 : Region} (h0 : R0.rid = rid) (h : R.rid = rid) (f : FaultRec) : OnlyRegion rid s (takeFault (s.putRegion R) R0.rid f) := by
  rw [h0]
  exact only_trans (only_put h) (only_takeFault rid _ f)

theorem only_accFault (h : R.rid = rid) (page : Nat) (a : Access) (c : Cause) (detail : Nat) (va : Bool) :
    OnlyRegion rid s (accFault s R page a c detail va) := by
  unfold accFault
  refine only_putFault h ?_ _
  split <;> simpa using h

theorem only_strFault (h : R.rid = rid) (u : UnitId) (o : StrOp) (c : Cause) (detail : Nat) (va : Bool) :
    OnlyRegion rid s (strFault s R u o c detail va) := by
  unfold strFault
  exact only_putFault h (by simpa using h) _

theorem only_sbeFault (h : R.rid = rid) (u : UnitId) (o : SbeOp) (c : Cause) (detail : Nat) : OnlyRegion rid s (sbeFault s R u o c detail) := by
  unfold sbeFault
  exact only_putFault h (by simpa using h) _

theorem only_sbeMeet (h : R.rid = rid) (u : UnitId) (x : Sbe) (o : SbeOp) : OnlyRegion rid s (sbeMeet s R u x o) := by
  unfold sbeMeet
  split
  · exact only_put h
  · exact only_sbeFault h u o _ _

theorem only_sramPerform (h : R.rid = rid) (page : Nat) (a : Access) : OnlyRegion rid s (sramPerform s R page a) := by
  unfold sramPerform
  split
  · exact only_accFault h page a _ _ _
  · simp only
    split
    · exact only_accFault h page a _ _ _
    · split
      · exact only_refl rid s
      · exact only_accFault h page a _ _ _
      · next R1 hown =>
        have hown : R1.rid = rid := by
          split at hown
          · exact (Region.performSlice_rid hown).trans h
          · cases hown
            exact h
        refine only_put ?_
        split
        · exact (foldl_keeps Region.rid _ (fun R p => by simp) _ _).trans hown
        · rw [Region.modAcc_rid]
          exact (foldl_keeps Region.rid _ (fun R p => by simp) _ _).trans hown

theorem only_asksHome (h : R.rid = rid) (q : List HomeReq) : OnlyRegion rid s { s.putRegion R with home := { s.home with queue := q } } :=
  only_trans (only_put h) ⟨rfl, rfl, rfl, rfl, rfl, rfl, rfl, rfl, rfl, ⟨rfl, rfl⟩, rfl, rfl, rfl, rfl, rfl, rfl, rfl⟩

theorem only_globalPerform (h : R.rid = rid) (page : Nat) (a : Access) (ts : List Tlb) : OnlyRegion rid s (globalPerform s R page a ts) := by
  unfold globalPerform
  simp only
  split
  · exact only_accFault h page a _ _ _
  · split
    · exact only_accFault h page a _ _ _
    · exact only_accFault h page a _ _ _
    · split
      · exact only_refl rid s
      · split
        · split
          · exact only_refl rid s
          · exact only_put (by simpa using h)
        · split
          · split
            · exact only_accFault h page a _ _ _
            · exact only_refl rid s
            · exact only_put (by simpa using h)
          · exact only_asksHome (by simpa using h) _

theorem only_globalAccess (h : R.rid = rid) (page : Nat) (m : Mu) (a : Access) : OnlyRegion rid s (globalAccess s R page m a) := by
  unfold globalAccess
  extract_lets gas weak R1 a1 ts
  split
  · exact only_accFault h page a _ _ _
  · split
    · exact only_accFault h page a _ _ _
    · split
      · exact only_accFault h page a _ _ _
      · have hR1 : R1.rid = rid := by
          unfold R1
          split <;> simpa using h
        split
        · exact only_trans (only_put hR1) (only_askWalk rid _ _)
        · exact only_trans (only_put hR1) (only_globalPerform hR1 page _ _)

end

/-! ### The events -/

/-- The outcome is a next state in the frame of region `rid`. -/
def StaysIn (rid : Nat) (s : State) (o : Host.Outcome State Fault Refusal) : Prop := ∃ t, o = .next t ∧ OnlyRegion rid s t

section
variable {s : State} {rid : Nat} {R : Region}

theorem staysIn_refl : StaysIn rid s (.next s) := ⟨s, rfl, only_refl rid s⟩

theorem StaysIn.of {t : State} (h : OnlyRegion rid s t) : StaysIn rid s (.next t) := ⟨t, rfl, h⟩

theorem staysIn_put (h : R.rid = rid) : StaysIn rid s (.next (s.putRegion R)) := .of (only_put h)

theorem staysIn_aluResultEmit (u : UnitId) : StaysIn rid s (execAluResultEmit rid u s) := by
  unfold execAluResultEmit
  split
  · exact staysIn_refl
  · next R' hemit =>
    obtain ⟨R, hR, hemit⟩ := Option.bind_eq_some_iff.1 hemit
    exact staysIn_put ((Region.emitNext_rid hemit).trans (region?_rid hR))

theorem staysIn_tokenHop (k : Nat) : StaysIn rid s (execTokenHop rid k s) := by
  unfold execTokenHop
  split
  · exact staysIn_refl
  · next R hR =>
    have hrid := region?_rid hR
    split
    · exact staysIn_refl
    · split
      · split
        · exact staysIn_refl
        · refine .of (only_trans (only_put ?_) (only_linkRot rid _ _))
          refine (foldl_keeps Region.rid _ (fun R d => by split <;> rfl) _ _).trans ?_
          split
          · simpa using hrid
          · exact hrid
      · exact staysIn_refl

theorem staysIn_ingressPlace (k : Nat) : StaysIn rid s (execIngressPlace rid k s) := by
  unfold execIngressPlace
  split
  · exact staysIn_refl
  · next R hR =>
    have hrid := region?_rid hR
    split
    · exact staysIn_refl
    · split
      · simp only
        split
        · exact staysIn_refl
        · split
          · exact staysIn_refl
          · split
            · exact .of (only_takeFault rid s _)
            · exact staysIn_put hrid
      · exact staysIn_refl

theorem staysIn_fallocGrant : StaysIn rid s (execFallocGrant rid s) := by
  unfold execFallocGrant
  split
  · exact staysIn_refl
  · next R hR =>
    have hrid := region?_rid hR
    split
    · exact staysIn_refl
    · simp only
      split
      · exact staysIn_refl
      · exact staysIn_put (by simpa using hrid)

theorem staysIn_accessPerform (page k : Nat) : StaysIn rid s (execAccessPerform rid page k s) := by
  unfold execAccessPerform
  split
  · exact staysIn_refl
  · next R hR =>
    have hrid := region?_rid hR
    split
    · exact staysIn_refl
    · split
      · exact staysIn_refl
      · next a ha =>
        split
        · exact staysIn_refl
        · split
          · exact staysIn_refl
          · split
            · exact .of (only_trans (only_metLines rid s R a) (only_put (by simpa using hrid)))
            · split
              · exact staysIn_refl
              · split
                · exact staysIn_put (by simpa using hrid)
                · split
                  · exact .of (only_globalAccess hrid page _ a)
                  · exact .of (only_sramPerform hrid page a)

theorem staysIn_accessRetire (page k : Nat) : StaysIn rid s (execAccessRetire rid page k s) := by
  unfold execAccessRetire
  split
  · exact staysIn_refl
  · next R hR =>
    have hrid := region?_rid hR
    split
    · exact staysIn_refl
    · split
      · exact staysIn_refl
      · next a ha =>
        split
        · exact staysIn_refl
        · extract_lets c mine more waves done iters R1
          have hR1 : R1.rid = rid := hrid
          clear_value R1
          split
          next R2 hforwards =>
          have hR2 : R2.rid = rid := by
            have hkept := Region.forwards_rid R1 ⟨page, 3⟩ a.node.toNat a.op a.r []
            rw [hforwards] at hkept
            exact hkept.trans hR1
          split
          · split
            · exact staysIn_put (by simpa using hR2)
            · exact staysIn_refl
          · exact staysIn_refl

theorem staysIn_waiterRetry (page : Nat) : StaysIn rid s (execWaiterRetry rid page s) := by
  unfold execWaiterRetry
  split
  · exact staysIn_refl
  · next R hR =>
    have hrid := region?_rid hR
    split
    · exact staysIn_refl
    · split
      · exact staysIn_refl
      · split
        · exact staysIn_refl
        · simp only
          split
          · exact staysIn_put hrid
          · split
            · next hslice => exact staysIn_put ((Region.performSlice_rid hslice).trans hrid)
            · exact staysIn_refl

theorem staysIn_muRequestPortServe (page : Nat) : StaysIn rid s (execMuRequestPortServe rid page s) := by
  unfold execMuRequestPortServe
  split
  · exact staysIn_refl
  · next R hR =>
    have hrid := region?_rid hR
    split
    · exact staysIn_refl
    · split
      · exact staysIn_refl
      · simp only
        split
        · exact staysIn_put hrid
        · split
          · exact staysIn_refl
          · exact .of (only_accFault hrid _ _ _ _ _)
          · next hslice => exact staysIn_put ((Region.performSlice_rid hslice).trans hrid)

theorem staysIn_streamPass1Done (u : UnitId) (k : Nat) : StaysIn rid s (execStreamPass1Done rid u k s) := by
  unfold execStreamPass1Done
  split
  · exact staysIn_refl
  · next R hR =>
    have hrid := region?_rid hR
    split
    · exact staysIn_refl
    · split
      · exact staysIn_refl
      · split
        · exact staysIn_refl
        · extract_lets h o1
          clear_value o1
          split
          · exact .of (only_strFault hrid u _ _ _ _)
          · split
            · exact .of (only_strFault hrid u _ _ _ _)
            · exact staysIn_refl
            · exact .of (only_trans (only_put (by simpa using hrid)) (only_askWalk rid _ _))
            · split
              · exact staysIn_refl
              · split
                · exact .of (only_strFault hrid u _ _ _ _)
                · exact staysIn_put hrid

theorem staysIn_sfeedPacket (u : UnitId) (k : Nat) : StaysIn rid s (execSfeedPacket rid u k s) := by
  unfold execSfeedPacket
  split
  · exact staysIn_refl
  · next R hR =>
    have hrid := region?_rid hR
    split
    · exact staysIn_refl
    · split
      · exact staysIn_refl
      · split
        · exact .of (only_strFault hrid u _ _ _ _)
        · simp only
          split
          · exact staysIn_refl
          · next R1 hsend => exact staysIn_put ((Region.islandSend_rid hsend).trans hrid)

theorem staysIn_streamComplete (u : UnitId) (k : Nat) : StaysIn rid s (execStreamComplete rid u k s) := by
  unfold execStreamComplete
  split
  · exact staysIn_refl
  · next R hR =>
    have hrid := region?_rid hR
    split
    · exact staysIn_refl
    · split
      · exact staysIn_refl
      · simp only
        split
        · exact staysIn_refl
        · split
          · exact staysIn_refl
          · exact .of (only_strFault hrid u _ _ _ _)
          · next R1 hdone =>
            have hR1 : R1.rid = rid := by
              split at hdone
              · cases hdone
                exact hrid
              · exact (streamPerform_rid hdone).trans hrid
            split
            · exact .of (only_strFault hrid u _ _ _ _)
            · refine staysIn_put ?_
              simp only [Region.endOperation_rid, Region.modStr_rid]
              split <;> simpa using hR1

/-- The region of an island's operation is the one asked for. -/
theorem mxiOp?_rid {u : UnitId} {k : Nat} {x : Mxi} {o : MxiOp} (h : s.mxiOp? rid u k = some (R, x, o)) : R.rid = rid := by
  unfold State.mxiOp? at h
  split at h
  · cases h
  · next R' hR =>
    split at h
    · cases h
    · split at h
      · cases h
      · obtain ⟨o', _, ho⟩ := Option.map_eq_some_iff.1 h
        cases ho
        exact region?_rid hR

theorem staysIn_mmaOperandsRead (u : UnitId) (k : Nat) : StaysIn rid s (execMmaOperandsRead rid u k s) := by
  unfold execMmaOperandsRead
  split
  · exact staysIn_refl
  · next R x o hop =>
    have hrid := mxiOp?_rid hop
    split
    · exact staysIn_refl
    · split
      · exact staysIn_put (by simpa using hrid)
      · split
        · exact staysIn_refl
        · simp only
          split
          · exact staysIn_refl
          · split
            · exact .of (ownOnly_mxiMeet hrid u o _).1
            · split
              · exact staysIn_refl
              · exact .of (ownOnly_mxiFault hrid u o _ _).1
              · exact staysIn_put (by simpa using hrid)

theorem staysIn_mmaAccumulationDone (u : UnitId) (k : Nat) : StaysIn rid s (execMmaAccumulationDone rid u k s) := by
  unfold execMmaAccumulationDone
  split
  · exact staysIn_refl
  · next R x o hop =>
    have hrid := mxiOp?_rid hop
    split
    · cases happly : mzeroApply s R u o with
      | none => exact staysIn_refl
      | some t => exact .of (ownOnly_mzeroApply hrid happly).1
    · split
      · exact staysIn_refl
      · split
        · exact .of (ownOnly_mxiMeet hrid u o _).1
        · exact staysIn_put hrid

theorem staysIn_moutWrite (u : UnitId) (k : Nat) : StaysIn rid s (execMoutWrite rid u k s) := by
  unfold execMoutWrite
  split
  · exact staysIn_refl
  · next R x o hop =>
    have hrid := mxiOp?_rid hop
    split
    · exact staysIn_refl
    · split
      · exact staysIn_put (by simpa using hrid)
      · split
        · exact staysIn_refl
        · split
          · exact .of (ownOnly_mxiFault hrid u o _ _).1
          · simp only
            split
            · exact .of (ownOnly_mxiMeet hrid u o _).1
            · split
              · exact .of (ownOnly_mxiFault hrid u o _ _).1
              · split
                · exact staysIn_refl
                · exact .of (ownOnly_mxiFault hrid u o _ _).1
                · split
                  · exact staysIn_refl
                  · next R1 hwrite => exact staysIn_put (by simpa using (Region.engineWrite_rid hwrite).trans hrid)

theorem staysIn_mcbInstall (u : UnitId) (k : Nat) : StaysIn rid s (execMcbInstall rid u k s) := by
  unfold execMcbInstall
  split
  · exact staysIn_refl
  · next R x o hop =>
    have hrid := mxiOp?_rid hop
    simp only
    split
    · exact staysIn_refl
    · split
      · exact staysIn_put (by simpa using hrid)
      · split
        · exact staysIn_refl
        · exact staysIn_put (by simpa using hrid)

theorem staysIn_quadrantPowerChange (u : UnitId) (k : Nat) : StaysIn rid s (execQuadrantPowerChange rid u k s) := by
  unfold execQuadrantPowerChange
  split
  · exact staysIn_refl
  · next R x o hop =>
    have hrid := mxiOp?_rid hop
    split
    · cases happly : powerApply s R u o true with
      | none => exact staysIn_refl
      | some t => exact .of (ownOnly_powerApply hrid happly).1
    · split
      · exact staysIn_put hrid
      · exact staysIn_refl

theorem staysIn_sbeOperationComplete (u : UnitId) (k : Nat) : StaysIn rid s (execSbeOperationComplete rid u k s) := by
  unfold execSbeOperationComplete
  split
  · exact staysIn_refl
  · next R hR =>
    have hrid := region?_rid hR
    split
    · exact staysIn_refl
    · split
      · exact staysIn_refl
      · next x hx =>
        split
        · exact staysIn_refl
        · next o ho =>
          split
          · exact staysIn_refl
          · split
            · exact staysIn_put (by simpa using hrid)
            · split
              · exact .of (only_sbeMeet hrid u x o)
              · split
                · exact .of (only_sbeFault hrid u o _ _)
                · split
                  · exact .of (only_sbeFault hrid u o _ _)
                  · split
                    · exact staysIn_refl
                    · simp only
                      split
                      · exact staysIn_refl
                      · next R2 hwrite =>
                        have hR2 : R2.rid = rid := by
                          split at hwrite
                          · cases hwrite
                            exact hrid
                          · exact (Region.engineWrite_rid hwrite).trans hrid
                        exact staysIn_put (by simpa using hR2)

end

/-! ### What a gateway lets out -/

/-- From `s` to `t` only the regions, the Yard's event bits and the links have changed. -/
def LinksOnly (s t : State) : Prop :=
  t.boot = s.boot ∧ t.cycle = s.cycle ∧ t.ticks = s.ticks ∧ t.turn = s.turn ∧ t.sched = s.sched ∧ t.harts = s.harts ∧ t.mem = s.mem
    ∧ t.owners = s.owners ∧ t.home = s.home ∧ t.comp = s.comp ∧ t.tdis = s.tdis ∧ t.trust = s.trust ∧ t.bad = s.bad

theorem LinksOnly.trans {s t u : State} (h : LinksOnly s t) (k : LinksOnly t u) : LinksOnly s u := by
  obtain ⟨h1, h2, h3, h4, h5, h6, h7, h8, h9, h10, h11, h12, h13⟩ := h
  obtain ⟨k1, k2, k3, k4, k5, k6, k7, k8, k9, k10, k11, k12, k13⟩ := k
  exact ⟨k1.trans h1, k2.trans h2, k3.trans h3, k4.trans h4, k5.trans h5, k6.trans h6, k7.trans h7, k8.trans h8, k9.trans h9, k10.trans h10,
    k11.trans h11, k12.trans h12, k13.trans h13⟩

section
variable {s t : State}

theorem linksOnly_same (h : t = { s with regions := t.regions, yard := t.yard, links := t.links }) : LinksOnly s t := by
  rw [h]
  exact ⟨rfl, rfl, rfl, rfl, rfl, rfl, rfl, rfl, rfl, rfl, rfl, rfl, rfl⟩

theorem linksOnly_refl (s : State) : LinksOnly s s := linksOnly_same rfl
theorem linksOnly_modRegion (s : State) (rid : Nat) (f : Region → Region) : LinksOnly s (s.modRegion rid f) := linksOnly_same rfl
theorem linksOnly_putRegion (s : State) (R : Region) : LinksOnly s (s.putRegion R) := linksOnly_same rfl
theorem linksOnly_takeFault (s : State) (rid : Nat) (f : FaultRec) : LinksOnly s (takeFault s rid f) := linksOnly_same rfl
theorem linksOnly_links (s : State) (L : Links) : LinksOnly s { s with links := L } := linksOnly_same rfl

theorem linksOnly_localOutcome (s : State) (tree i : Nat) (loc : Nat × Nat × UnitId × BitVec 16 × Token)
    (o : Except (Nat × Nat × Nat) (List W32 × Bool)) : LinksOnly s (localOutcome s tree i loc o) := linksOnly_same rfl

theorem linksOnly_contribute {tree i input : Nat} {op : BitVec 2} {f : Fmt} {ws : List W32} {exc : Bool}
    {loc : Option (Nat × Nat × UnitId × BitVec 16 × Token)} (h : contribute s tree i input op f ws exc loc = some t) : LinksOnly s t := by
  unfold contribute at h
  split at h
  · split at h
    · split at h <;> cases h
      · exact linksOnly_localOutcome s tree i _ _
      · exact linksOnly_links s _
    · split at h <;> cases h
      · exact linksOnly_refl s
      · exact linksOnly_links s _
  · split at h <;> cases h
    exact linksOnly_links s _

theorem linksOnly_returnAllow (s : State) (part : BitVec 16) (page i : Nat) : LinksOnly s (s.returnAllow part page i) := by
  unfold State.returnAllow
  split
  · exact linksOnly_modRegion s _ _
  · simp only
    split
    · exact linksOnly_refl s
    · exact linksOnly_links s _

theorem linksOnly_dropItem (s : State) (p : Packet) : LinksOnly s (dropItem s p) := by
  unfold dropItem
  split
  · exact linksOnly_returnAllow s _ _ _
  · exact linksOnly_links s _

theorem linksOnly_deliverItem {p : Packet} (h : deliverItem s p = some t) : LinksOnly s t := by
  unfold deliverItem at h
  simp only at h
  repeat' split at h
  all_goals cases h
  · exact linksOnly_putRegion s _
  · exact linksOnly_putRegion s _
  · exact linksOnly_links s _
  · exact linksOnly_dropItem s p
  · exact linksOnly_links s _

theorem linksOnly_dispatchOne {rid : Nat} {x : Send} (h : dispatchOne s rid x = .ok t) : LinksOnly s t := by
  unfold dispatchOne at h
  extract_lets here gone loc cap at h
  split at h
  · split at h
    · cases h
    · split at h
      · next hcontribute =>
        cases h
        exact (linksOnly_contribute hcontribute).trans (linksOnly_modRegion _ _ _)
      · cases h
  · extract_lets isTok draw at h
    clear_value isTok
    split at h
    · cases h
    · split at h
      · cases h
      · have hdraw : LinksOnly s (draw s) := by
          unfold draw
          split
          · exact linksOnly_modRegion s _ _
          · exact linksOnly_refl s
        split at h
        · split at h
          · cases h
          · next hdeliver =>
            cases h
            refine (hdraw.trans (linksOnly_deliverItem hdeliver)).trans ?_
            split <;> exact linksOnly_modRegion _ _ _
        · split at h
          · cases h
          · split at h
            · cases h
            · split at h
              · cases h
              · cases h
                exact (hdraw.trans (linksOnly_links _ _)).trans (linksOnly_modRegion _ _ _)

/-- A fold whose every step stays within the links does. -/
theorem linksOnly_foldl {α β : Type} (f : State × β → α → State × β) (hf : ∀ p a, LinksOnly p.1 (f p a).1) (l : List α) (p : State × β) :
    LinksOnly p.1 (l.foldl f p).1 := by
  induction l generalizing p with
  | nil => exact linksOnly_refl p.1
  | cons a l ih => exact (hf p a).trans (ih (f p a))

/-- What leaves a Siding changes regions and links alone. -/
theorem linksOnly_dispatchSends (s : State) (rid : Nat) : LinksOnly s (dispatchSends s rid) := by
  unfold dispatchSends
  split
  · exact linksOnly_refl s
  · refine linksOnly_foldl _ (fun p x => ?_) _ (s, [])
    simp only
    split
    · exact linksOnly_refl p.1
    · split
      · exact linksOnly_refl p.1
      · exact linksOnly_takeFault p.1 _ _
      · next hone => exact linksOnly_dispatchOne hone

/-- What a gateway does stays in its region, but for the items that then leave it. -/
theorem gatewayPass_frame (s : State) (rid k : Nat) : ∃ t, execGatewayPass rid k s = .next t ∧
    (OnlyRegion rid s t ∨ ∃ u, OnlyRegion rid s u ∧ t = dispatchSends u rid ∧ LinksOnly s t) := by
  have hstays {o : Host.Outcome State Fault Refusal} (h : StaysIn rid s o) :
      ∃ t, o = .next t ∧ (OnlyRegion rid s t ∨ ∃ u, OnlyRegion rid s u ∧ t = dispatchSends u rid ∧ LinksOnly s t) := by
    obtain ⟨t, ht, honly⟩ := h
    exact ⟨t, ht, .inl honly⟩
  unfold execGatewayPass
  split
  · exact hstays staysIn_refl
  · next R hR =>
    have hrid := region?_rid hR
    split
    · exact hstays staysIn_refl
    · split
      · split
        · exact hstays staysIn_refl
        · simp only
          split
          · exact hstays staysIn_refl
          · split
            · exact hstays (.of (only_takeFault rid s _))
            · split
              · split
                · exact hstays staysIn_refl
                · exact hstays (staysIn_put (by simpa using hrid))
              · split
                · exact hstays (.of (only_takeFault rid s _))
                · exact hstays staysIn_refl
                · refine ⟨_, rfl, .inr ⟨_, only_trans (only_put ?_) (only_nextId rid _ _), rfl,
                    ((linksOnly_putRegion s _).trans (linksOnly_links _ _)).trans (linksOnly_dispatchSends _ rid)⟩⟩
                  split
                  all_goals try rw [Region.sinkTook_rid]
                  all_goals split <;> exact hrid
      · exact hstays staysIn_refl

end

/-- An event of a region's own stays in its region; what a gateway passes may let the region's items out after that. -/
theorem regionEvent_frame {i : Instr} {rid : Nat} (h : eventRegion i = some rid) (s : State) : ∃ t, exec i s = .next t ∧
    (OnlyRegion rid s t ∨ ∃ k u, i = .gatewayPass rid k ∧ OnlyRegion rid s u ∧ t = dispatchSends u rid ∧ LinksOnly s t) := by
  have hstays (hs : StaysIn rid s (exec i s)) : ∃ t, exec i s = .next t ∧
      (OnlyRegion rid s t ∨ ∃ k u, i = .gatewayPass rid k ∧ OnlyRegion rid s u ∧ t = dispatchSends u rid ∧ LinksOnly s t) := by
    obtain ⟨t, ht, honly⟩ := hs
    exact ⟨t, ht, .inl honly⟩
  cases i
  case gatewayPass rid' k =>
    cases h
    obtain ⟨t, ht, honly | ⟨u, honly, hu, hlinks⟩⟩ := gatewayPass_frame s rid k
    · exact ⟨t, ht, .inl honly⟩
    · exact ⟨t, ht, .inr ⟨k, u, rfl, honly, hu, hlinks⟩⟩
  case aluResultEmit rid' u => cases h; exact hstays (staysIn_aluResultEmit u)
  case tokenHop rid' k => cases h; exact hstays (staysIn_tokenHop k)
  case ingressPlace rid' k => cases h; exact hstays (staysIn_ingressPlace k)
  case fallocGrant rid' => cases h; exact hstays staysIn_fallocGrant
  case accessPerform rid' page k => cases h; exact hstays (staysIn_accessPerform page k)
  case accessRetire rid' page k => cases h; exact hstays (staysIn_accessRetire page k)
  case waiterRetry rid' page => cases h; exact hstays (staysIn_waiterRetry page)
  case muRequestPortServe rid' page => cases h; exact hstays (staysIn_muRequestPortServe page)
  case streamPass1Done rid' u k => cases h; exact hstays (staysIn_streamPass1Done u k)
  case sfeedPacket rid' u k => cases h; exact hstays (staysIn_sfeedPacket u k)
  case streamComplete rid' u k => cases h; exact hstays (staysIn_streamComplete u k)
  case mmaOperandsRead rid' u k => cases h; exact hstays (staysIn_mmaOperandsRead u k)
  case mmaAccumulationDone rid' u k => cases h; exact hstays (staysIn_mmaAccumulationDone u k)
  case moutWrite rid' u k => cases h; exact hstays (staysIn_moutWrite u k)
  case mcbInstall rid' u k => cases h; exact hstays (staysIn_mcbInstall u k)
  case quadrantPowerChange rid' u k => cases h; exact hstays (staysIn_quadrantPowerChange u k)
  case sbeOperationComplete rid' u k => cases h; exact hstays (staysIn_sbeOperationComplete u k)
  all_goals exact elim_none h

end Sys2Proof.Machine

namespace Sys2Proof
open Machine

/-- Settles O59: a region's event ends in its frame, and what leaves a Siding changes the links and the regions alone. -/
theorem regionEventsFrame : Obligations.RegionEventsFrame := by
  intro i s t rid hi hexec
  obtain ⟨t', ht', honly | ⟨k, u, hk, honly, hu, hlinks⟩⟩ := regionEvent_frame hi s
  · cases ht'.symm.trans hexec
    exact .inl honly
  · cases ht'.symm.trans hexec
    exact .inr ⟨k, u, hk, honly, hu, hlinks⟩

end Sys2Proof
end

section
/-! SUPPORT. What the rows of the CC leave of the harts and of memory. -/

namespace Sys2Proof.Machine

/-! ### Harts whose registers stay -/

/-- The registers, the pc, the mode and the status of two harts are the same. -/
def Hart.SameRegs (H K : Hart) : Prop := K.x = H.x ∧ K.f = H.f ∧ K.pc = H.pc ∧ K.priv = H.priv ∧ K.mstatus = H.mstatus

theorem Hart.sameRegs_refl (H : Hart) : H.SameRegs H := ⟨rfl, rfl, rfl, rfl, rfl⟩

theorem Hart.SameRegs.trans {H K L : Hart} (h : H.SameRegs K) (k : K.SameRegs L) : H.SameRegs L := by
  obtain ⟨hx, hf, hpc, hpriv, hstatus⟩ := h
  obtain ⟨kx, kf, kpc, kpriv, kstatus⟩ := k
  exact ⟨kx.trans hx, kf.trans hf, kpc.trans hpc, kpriv.trans hpriv, kstatus.trans hstatus⟩

theorem Hart.SameRegs.get {H K : Hart} (h : H.SameRegs K) (r : BitVec 5) : K.get r = H.get r := by rw [Hart.get, Hart.get, h.1]

/-- The turn stands and no register of a hart changes. -/
def Quiet (s t : State) : Prop := t.turn = s.turn ∧ ∀ h, (s.hart h).SameRegs (t.hart h)

section
variable {s t u : State}

theorem Quiet.trans (h : Quiet s t) (k : Quiet t u) : Quiet s u := ⟨k.1.trans h.1, fun n => (h.2 n).trans (k.2 n)⟩

theorem quiet_of_harts (hturn : t.turn = s.turn) (hharts : t.harts = s.harts) : Quiet s t :=
  ⟨hturn, fun n => by rw [State.hart, State.hart, hharts]; exact Hart.sameRegs_refl _⟩

theorem quiet_refl (s : State) : Quiet s s := quiet_of_harts rfl rfl

theorem Quiet.me (h : Quiet s t) : t.me = s.me := by rw [State.me, State.me, h.1]

/-- Every hart changed by a function that keeps its registers. -/
theorem quiet_of_map {g : Nat × Hart → Hart} (hturn : t.turn = s.turn) (hharts : t.harts = ((List.range s.harts.length).zip s.harts).map g)
    (hg : ∀ p : Nat × Hart, p.2.SameRegs (g p)) : Quiet s t := by
  refine ⟨hturn, fun n => ?_⟩
  rw [State.hart, State.hart, nth, nth, List.getD_eq_getElem?_getD, List.getD_eq_getElem?_getD, hharts, List.getElem?_map]
  by_cases hn : n < s.harts.length
  · have hz : ((List.range s.harts.length).zip s.harts)[n]? = some (n, s.harts[n]) := by
      rw [List.getElem?_eq_getElem (by simpa using hn)]
      simp
    rw [hz, List.getElem?_eq_getElem hn]
    exact hg (n, s.harts[n])
  · have hnone : s.harts[n]? = none := List.getElem?_eq_none (Nat.le_of_not_lt hn)
    have hz : ((List.range s.harts.length).zip s.harts)[n]? = none := List.getElem?_eq_none (by simpa using Nat.le_of_not_lt hn)
    rw [hnone, hz]
    exact Hart.sameRegs_refl _

theorem quiet_breakResv (s : State) (but : Option Nat) (pa : Nat) : Quiet s (breakResv s but pa) := by
  refine quiet_of_map rfl rfl fun p => ?_
  simp only
  split
  · split <;> exact ⟨rfl, rfl, rfl, rfl, rfl⟩
  · exact Hart.sameRegs_refl _

theorem quiet_pendMachine (s : State) (n : Nat) : Quiet s (pendMachine s n) := by
  refine quiet_of_map (g := fun p => if bit p.2.mie.toNat n then { p.2 with mip := setBit p.2.mip n true } else p.2) rfl ?_ fun p => ?_
  · have hsnd : s.harts = ((List.range s.harts.length).zip s.harts).map Prod.snd := (List.map_snd_zip (by simp)).symm
    rw [pendMachine]
    simp only
    conv_lhs => rw [hsnd, List.map_map]
    rfl
  · simp only
    split <;> exact ⟨rfl, rfl, rfl, rfl, rfl⟩

/-- A hart's own reservation is no register of it. -/
theorem quiet_modHart (s : State) (n : Nat) {f : Hart → Hart} (hf : ∀ H : Hart, H.SameRegs (f H)) : Quiet s (s.modHart n f) := by
  refine ⟨rfl, fun k => ?_⟩
  rw [State.hart, State.hart, nth, nth, List.getD_eq_getElem?_getD, List.getD_eq_getElem?_getD, State.modHart, getElem?_modNth]
  split
  · cases s.harts[k]? with
    | none => exact Hart.sameRegs_refl _
    | some H => exact hf H
  · exact Hart.sameRegs_refl _

theorem quiet_setReserved (s : State) (agent : Nat) (g : Option Nat) : Quiet s (s.setReserved agent g) := by
  unfold State.setReserved
  split
  · exact quiet_modHart s agent fun H => ⟨rfl, rfl, rfl, rfl, rfl⟩
  · exact quiet_of_harts rfl rfl

/-! ### The harts after a row of the CC -/

/-- Of the hart whose turn it is no register but `d`, of the others no register, pc, mode or status changes. -/
def RowHarts (d : BitVec 5) (s t : State) : Prop :=
  (∀ r, r ≠ d → (t.hart s.me).get r = (s.hart s.me).get r) ∧ (t.hart s.me).f = (s.hart s.me).f ∧ ∀ h, h ≠ s.me → (s.hart h).SameRegs (t.hart h)

theorem rowHarts_of_quiet {d : BitVec 5} (h : Quiet s t) : RowHarts d s t := ⟨fun r _ => (h.2 _).get r, (h.2 _).2.1, fun n _ => h.2 n⟩

theorem rowHarts_modHart {d : BitVec 5} (h : Quiet s u) {f : Hart → Hart} (hget : ∀ H r, r ≠ d → (f H).get r = H.get r) (hf : ∀ H, (f H).f = H.f) :
    RowHarts d s (u.modHart u.me f) := by
  have hself : (u.modHart u.me f).hart s.me = f (u.hart s.me) ∨ (u.modHart u.me f).hart s.me = u.hart s.me := by
    rw [h.me, State.hart, State.hart, nth, nth, List.getD_eq_getElem?_getD, List.getD_eq_getElem?_getD, State.modHart, getElem?_modNth, if_pos rfl]
    cases u.harts[s.me]? with
    | none => exact .inr rfl
    | some H => exact .inl rfl
  refine ⟨fun r hr => ?_, ?_, fun n hn => ?_⟩
  · rcases hself with e | e
    · rw [e, hget _ r hr, (h.2 _).get]
    · rw [e, (h.2 _).get]
  · rcases hself with e | e
    · rw [e, hf, (h.2 _).2.1]
    · rw [e, (h.2 _).2.1]
  · rw [hart_modHart_ne u f (by rw [h.me]; exact hn)]
    exact h.2 n

theorem Hart.set_get_ne (H : Hart) {d r : BitVec 5} (v : W64) (h : r ≠ d) : (H.set d v).get r = H.get r := by
  unfold Hart.set
  split
  · rfl
  · rw [Hart.get, Hart.get]
    split
    · rfl
    · exact nth_modNth_ne _ _ _ fun e => h (BitVec.eq_of_toNat_eq e)

theorem Hart.set_f (H : Hart) (d : BitVec 5) (v : W64) : (H.set d v).f = H.f := by
  unfold Hart.set
  split <;> rfl

theorem rowHarts_retire {d : BitVec 5} (h : Quiet s u) (v : W64) : RowHarts d s (retire u d v) :=
  rowHarts_modHart h (fun H _ hr => H.set_get_ne v hr) fun H => H.set_f d v

theorem rowHarts_retireNone {d : BitVec 5} (h : Quiet s u) : RowHarts d s (retireNone u) := rowHarts_modHart h (fun _ _ _ => rfl) fun _ => rfl

theorem Hart.trap_regs (H : Hart) (code tval : W64) : (H.trap code tval).x = H.x ∧ (H.trap code tval).f = H.f := by
  unfold Hart.trap
  extract_lets irq n deleg vector
  split <;> exact ⟨rfl, rfl⟩

theorem rowHarts_trap {d : BitVec 5} (s : State) (code tval : W64) : RowHarts d s (s.modHart s.me fun H => H.trap code tval) :=
  rowHarts_modHart (quiet_refl s) (fun H r _ => by rw [Hart.get, Hart.get, (H.trap_regs code tval).1]) fun H => (H.trap_regs code tval).2

theorem rowHarts_stall {d : BitVec 5} (s : State) {f : Hart → Hart} (hf : ∀ H : Hart, H.SameRegs (f H)) : RowHarts d s (s.modHart s.me f) :=
  rowHarts_of_quiet (quiet_modHart s s.me hf)

end

/-! ### Memory after a row of the CC -/

/-- Global memory, who wrote its lines and the ticks are the same. -/
def MemSame (s t : State) : Prop := t.mem = s.mem ∧ t.owners = s.owners ∧ t.ticks = s.ticks

theorem MemSame.byte {s t : State} (h : MemSame s t) (key a : Nat) : memByte t key a = memByte s key a := by
  obtain ⟨hmem, howners, hticks⟩ := h
  rw [memByte, memByte, hmem, howners, hticks]

/-- The step changes memory, the marks of its errors and the owners of its lines alone. -/
def MemOnly (s t : State) : Prop := t = { s with mem := t.mem, bad := t.bad, owners := t.owners }

section
variable {s t u : State}

theorem MemOnly.trans (h : MemOnly s t) (k : MemOnly t u) : MemOnly s u := by rw [MemOnly, k, h]

theorem memOnly_memPut (s : State) (key a : Nat) (b : Byte) : MemOnly s (memPut s key a b) := by
  cases h : ownerOf s.owners (a / 64) with
  | none => rw [memPut_of_ownerless h]; rfl
  | some k =>
    by_cases hk : k = key
    · subst hk
      rw [memPut_of_owner h]; rfl
    · rw [memPut_of_other h hk]
      generalize rekeyLine s.mem key k a = m
      rfl

theorem memOnly_memWrite (bs : List Byte) (s : State) (key a : Nat) : MemOnly s (memWrite s key a bs) := by
  induction bs generalizing s a with
  | nil => rfl
  | cons b bs ih => exact (memOnly_memPut s key a b).trans (ih _ _)

theorem MemOnly.quiet (h : MemOnly s t) : Quiet s t := by
  rw [h]
  exact quiet_of_harts rfl rfl

theorem quiet_toPeer (s : State) (part : BitVec 16) (w : Nat) (b : Body) : Quiet s (s.toPeer part w b) := by
  unfold State.toPeer
  simp only
  split
  · exact quiet_refl s
  · exact quiet_of_harts rfl rfl

theorem quiet_writeBytes (s : State) (slot pa : Nat) (bs : List Byte) : Quiet s (writeBytes s slot pa bs) := by
  unfold writeBytes
  split
  · exact quiet_toPeer s _ _ _
  · exact quiet_refl s
  · exact (memOnly_memWrite bs s _ pa).quiet.trans (quiet_breakResv _ _ _)

theorem quiet_operandWrite (pa : Nat → Nat) (bs : List Byte) (i : Nat) (s : State) : Quiet s (operandWrite pa i bs s) := by
  induction bs generalizing i s with
  | nil => exact quiet_refl s
  | cons b bs ih => exact (quiet_writeBytes s 0 _ [b]).trans (ih _ _)

theorem quiet_agentWrite (s : State) (agent slot pa : Nat) (bs : List Byte) : Quiet s (agentWrite s agent slot pa bs) := by
  unfold agentWrite
  split
  · exact quiet_toPeer s _ _ _
  · exact quiet_refl s
  · exact (memOnly_memWrite bs s _ pa).quiet.trans (quiet_breakResv _ _ _)

/-! ### The key of a byte is that of its line -/

theorem inDeviceMemory_iff (s : State) (pa : Nat) :
    inDeviceMemory s pa = true ↔ pa < 2 ^ 39 ∨ (2 ^ 40 ≤ pa ∧ pa < 2 ^ 41 ∧ s.boot.lpddr = true) := by
  unfold inDeviceMemory targetOf
  split
  · next hhbm => simpa using Or.inl hhbm
  · next hhbm =>
    split
    · next hlpddr =>
      cases hb : s.boot.lpddr <;> simp_all
    · next hlpddr =>
      split
      · simp_all
      · split <;> simp_all

theorem keyFor_line (s : State) (slot : Nat) {a p : Nat} (h : p / 64 = a / 64) : keyFor s slot p = keyFor s slot a := by
  have hin : inDeviceMemory s p = inDeviceMemory s a := by
    rw [Bool.eq_iff_iff, inDeviceMemory_iff, inDeviceMemory_iff]
    cases s.boot.lpddr <;> simp <;> omega
  rw [keyFor, keyFor, hin]

/-! ### Bytes that a write does not name -/

theorem memByte_memPut_other {key k a x : Nat} (hwf : Memory.wf s.mem = true) (b : Byte) (hx : x ≠ a) (hkey : x / 64 = a / 64 → k = key) :
    memByte (memPut s key a b) k x = memByte s k x := by
  by_cases hl : x / 64 = a / 64
  · rw [hkey hl]
    exact memByte_memPut_line s b hx hl
  · exact memByte_memPut_ne_line hwf key k b hl

theorem memByte_memWrite_other (bs : List Byte) {key k a x : Nat} (hwf : Memory.wf s.mem = true) (hx : ∀ j, j < bs.length → x ≠ a + j)
    (hkey : ∀ j, j < bs.length → x / 64 = (a + j) / 64 → k = key) : memByte (memWrite s key a bs) k x = memByte s k x := by
  induction bs generalizing s a with
  | nil => rfl
  | cons b bs ih =>
    have htail : memByte (memWrite (memPut s key a b) key (a + 1) bs) k x = memByte (memPut s key a b) k x := by
      refine ih (wf_memPut s key a b hwf) (fun j hj => ?_) fun j hj => ?_
      · have := hx (j + 1) (by simpa using hj)
        omega
      · have := hkey (j + 1) (by simpa using hj)
        rwa [show a + (j + 1) = a + 1 + j by omega] at this
    exact htail.trans (memByte_memPut_other hwf b (hx 0 (by simp)) (hkey 0 (by simp)))

/-- The byte at `a` reads the same under key slot 0. -/
def SameByte (a : Nat) (s t : State) : Prop := keyFor t 0 a = keyFor s 0 a ∧ memByte t (keyFor s 0 a) a = memByte s (keyFor s 0 a) a

theorem SameByte.trans {a : Nat} (h : SameByte a s t) (k : SameByte a t u) : SameByte a s u := by
  obtain ⟨hkey, hbyte⟩ := h
  obtain ⟨kkey, kbyte⟩ := k
  exact ⟨kkey.trans hkey, (hkey ▸ kbyte).trans hbyte⟩

theorem memSame_toPeer (s : State) (part : BitVec 16) (w : Nat) (b : Body) : MemSame s (s.toPeer part w b) := by
  unfold State.toPeer
  simp only
  split <;> exact ⟨rfl, rfl, rfl⟩

theorem keyFor_congr {slot a : Nat} (hboot : t.boot = s.boot) (htrust : t.trust = s.trust) : keyFor t slot a = keyFor s slot a := by
  rw [keyFor, keyFor, inDeviceMemory, inDeviceMemory, targetOf, targetOf, State.slotKey, State.slotKey, hboot, htrust]

theorem toPeer_boot_trust (s : State) (part : BitVec 16) (w : Nat) (b : Body) :
    (s.toPeer part w b).boot = s.boot ∧ (s.toPeer part w b).trust = s.trust := by
  unfold State.toPeer
  simp only
  split <;> exact ⟨rfl, rfl⟩

theorem sameByte_toPeer (s : State) (part : BitVec 16) (w : Nat) (b : Body) (a : Nat) : SameByte a s (s.toPeer part w b) :=
  ⟨keyFor_congr (toPeer_boot_trust s part w b).1 (toPeer_boot_trust s part w b).2, (memSame_toPeer s part w b).byte _ a⟩

theorem sameByte_refl (a : Nat) (s : State) : SameByte a s s := ⟨rfl, rfl⟩

/-- A write of bytes within one line leaves every other byte of it, and of other lines. -/
theorem sameByte_memWrite (bs : List Byte) {a p : Nat} (hwf : Memory.wf s.mem = true) (hline : ∀ j, j < bs.length → (p + j) / 64 = p / 64)
    (ha : ∀ j, j < bs.length → a ≠ p + j) (but : Option Nat) : SameByte a s (breakResv (memWrite s (keyFor s 0 p) p bs) but p) := by
  have hbyte : memByte (memWrite s (keyFor s 0 p) p bs) (keyFor s 0 a) a = memByte s (keyFor s 0 a) a :=
    memByte_memWrite_other bs hwf ha fun j hj hl => keyFor_line s 0 (hl.trans (hline j hj))
  have honly := memOnly_memWrite bs s (keyFor s 0 p) p
  refine ⟨keyFor_congr ?_ ?_, hbyte⟩
  · show (memWrite s (keyFor s 0 p) p bs).boot = s.boot
    rw [honly]
  · show (memWrite s (keyFor s 0 p) p bs).trust = s.trust
    rw [honly]

theorem sameByte_writeByte {a p : Nat} (hwf : Memory.wf s.mem = true) (b : Byte) (ha : a ≠ p) : SameByte a s (writeBytes s 0 p [b]) := by
  unfold writeBytes
  split
  · exact sameByte_toPeer s _ _ _ a
  · exact sameByte_refl a s
  · refine sameByte_memWrite [b] hwf (fun j hj => ?_) (fun j hj => ?_) none
    all_goals
      have hj0 : j = 0 := by simpa using hj
      subst hj0
    · rfl
    · exact ha

theorem sameByte_operandWrite {pa : Nat → Nat} {a : Nat} (bs : List Byte) (i : Nat) (hwf : Memory.wf s.mem = true)
    (ha : ∀ j, i ≤ j → j < i + bs.length → pa j ≠ a) : SameByte a s (operandWrite pa i bs s) := by
  induction bs generalizing i s with
  | nil => exact sameByte_refl a s
  | cons b bs ih =>
    refine (sameByte_writeByte hwf b (ha i (Nat.le_refl i) (by simp)).symm).trans
      (ih (i + 1) (wf_writeBytes s 0 (pa i) [b] hwf) fun j hj hlt => ha j (by omega) ?_)
    rw [List.length_cons]
    omega

theorem sameByte_agentWrite {a p agent : Nat} (bs : List Byte) (hwf : Memory.wf s.mem = true) (hline : ∀ j, j < bs.length → (p + j) / 64 = p / 64)
    (ha : ∀ j, j < bs.length → a ≠ p + j) : SameByte a s (agentWrite s agent 0 p bs) := by
  unfold agentWrite
  split
  · exact sameByte_toPeer s _ _ _ a
  · exact sameByte_refl a s
  · exact sameByte_memWrite bs hwf hline ha _

end

end Sys2Proof.Machine
end

section
/-! SUPPORT. The frame of the rows of the CC; settles O60. -/

namespace Sys2Proof.Machine

/-! ### What a row comes to -/

/-- The outcome is a next state in which the harts are framed, `d` being the destination, and `P` holds. -/
def CcOut (d : BitVec 5) (s : State) (P : State → Prop) (o : Host.Outcome State Fault Refusal) : Prop :=
  ∃ t, o = .next t ∧ RowHarts d s t ∧ P t

/-- The operand of `n` bytes at `va` is written, or memory is as it was. -/
def Stores (va : W64) (n : Nat) (s t : State) : Prop :=
  MemSame s t ∨ ∃ pa bs, s.operand .store va n = .ok pa ∧ bs.length = n ∧ MemSame (operandWrite pa 0 bs s) t

/-- The canonical form of global memory is kept. -/
def KeepsWf (s t : State) : Prop := Memory.wf s.mem = true → Memory.wf t.mem = true

section
variable {s t u : State} {d : BitVec 5} {P : State → Prop}

theorem memSame_refl (s : State) : MemSame s s := ⟨rfl, rfl, rfl⟩

theorem MemSame.trans (h : MemSame s t) (k : MemSame t u) : MemSame s u := by
  obtain ⟨hmem, howners, hticks⟩ := h
  obtain ⟨kmem, kowners, kticks⟩ := k
  exact ⟨kmem.trans hmem, kowners.trans howners, kticks.trans hticks⟩

theorem CcOut.of (hharts : RowHarts d s t) (hP : P t) : CcOut d s P (.next t) := ⟨t, rfl, hharts, hP⟩

theorem ccOut_retire (hquiet : Quiet s u) (v : W64) (hP : P (retire u d v)) : CcOut d s P (.next (retire u d v)) :=
  .of (rowHarts_retire hquiet v) hP

/-- A register written changes nothing of memory. -/
theorem Stores.retire {va : W64} {n : Nat} (h : Stores va n s u) (v : W64) : Stores va n s (retire u d v) := h

theorem KeepsWf.retire (h : KeepsWf s u) (v : W64) : KeepsWf s (retire u d v) := h

theorem ccOut_retireNone (hquiet : Quiet s u) (hP : P (retireNone u)) : CcOut d s P (.next (retireNone u)) :=
  .of (rowHarts_retireNone hquiet) hP

/-- What leaves memory as it was satisfies `P`. -/
def Idle (P : State → Prop) (s : State) : Prop := ∀ t, MemSame s t → P t

theorem ccOut_trapIllegal (hidle : Idle P s) (w : W32) : CcOut d s P (.next (trapIllegal s w)) :=
  .of (rowHarts_trap s _ _) (hidle _ ⟨rfl, rfl, rfl⟩)

theorem ccOut_retStatus (hidle : Idle P s) (n : Nat) : CcOut d s P (.next (retStatus s d n)) :=
  ccOut_retire (quiet_refl s) _ (hidle _ ⟨rfl, rfl, rfl⟩)

theorem ccOut_stallOn (hidle : Idle P s) (rid : Nat) (kind : StallKind) : CcOut d s P (.next (stallOn s rid d kind)) :=
  .of (rowHarts_stall s fun _ => ⟨rfl, rfl, rfl, rfl, rfl⟩) (hidle _ ⟨rfl, rfl, rfl⟩)

theorem ccOut_onTre (hidle : Idle P s) {i : Instr} {machine : Bool} {f : State} (hf : CcOut d s P (.next f)) : CcOut d s P (onTre s i d machine f) := by
  unfold onTre
  generalize (if machine then s.isM else s.sm) = allowed
  split
  · exact ccOut_trapIllegal hidle _
  · split
    · exact ccOut_retStatus hidle _
    · split
      · exact ccOut_stallOn hidle _ _
      · exact hf

theorem ccOut_onRegion (hidle : Idle P s) {i : Instr} {handle : Nat} {locked : Bool} {f : Region → State} (hf : ∀ R, CcOut d s P (.next (f R))) :
    CcOut d s P (onRegion s i d handle locked f) := by
  unfold onRegion
  split
  · exact ccOut_trapIllegal hidle _
  · split
    · exact ccOut_retStatus hidle _
    · split
      · exact ccOut_retStatus hidle _
      · extract_lets moving
        clear_value moving
        split
        · exact ccOut_stallOn hidle _ _
        · exact hf _

theorem ccOut_withOperandAs (hidle : Idle P s) {kind : StallKind} {k : Kind3} {va : W64} {n : Nat} {f : (Nat → Nat) → State}
    (hf : ∀ pa, s.operand k va n = .ok pa → CcOut d s P (.next (f pa))) : CcOut d s P (.next (withOperandAs kind s d k va n f)) := by
  unfold withOperandAs
  split
  · exact ccOut_stallOn hidle _ _
  · exact .of (rowHarts_trap s _ _) (hidle _ ⟨rfl, rfl, rfl⟩)
  · next pa hpa => exact hf pa hpa

/-- Two outcomes of a row, by a condition. -/
theorem ccOut_ite {c : Prop} [Decidable c] {x y : State} (hx : CcOut d s P (.next x)) (hy : ¬c → CcOut d s P (.next y)) :
    CcOut d s P (.next (if c then x else y)) := by
  split
  · exact hx
  · next hc => exact hy hc

theorem idle_memSame (s : State) : Idle (MemSame s) s := fun _ h => h
theorem idle_stores (s : State) (va : W64) (n : Nat) : Idle (Stores va n s) s := fun _ h => .inl h
theorem idle_keepsWf (s : State) : Idle (KeepsWf s) s := fun _ h hwf => h.1.symm ▸ hwf

end

/-! ### The instructions of the Trust Engine -/

section
variable {s : State} {d a t : BitVec 5}

theorem secFuseRead_frame : CcOut d s (MemSame s) (execSecFuseRead d a t s) := by
  unfold execSecFuseRead
  extract_lets v
  split
  · exact ccOut_trapIllegal (idle_memSame s) _
  · split
    · exact ccOut_retStatus (idle_memSame s) _
    · exact ccOut_retire (quiet_refl s) _ ⟨rfl, rfl, rfl⟩

theorem secFuseBlow_frame : CcOut d s (MemSame s) (execSecFuseBlow d a t s) := by
  unfold execSecFuseBlow
  extract_lets v n
  refine ccOut_onTre (idle_memSame s) (ccOut_ite (ccOut_retStatus (idle_memSame s) _) fun _ =>
    ccOut_ite (ccOut_retStatus (idle_memSame s) _) fun _ => ?_)
  exact ccOut_retire (quiet_of_harts rfl rfl) _ ⟨rfl, rfl, rfl⟩

theorem secMeasRead_frame : CcOut d s (Stores (s.x t) 32 s) (execSecMeasRead d a t s) := by
  unfold execSecMeasRead
  extract_lets v die i
  refine ccOut_onTre (idle_stores s _ _) (ccOut_ite (ccOut_retStatus (idle_stores s _ _) _) fun _ =>
    ccOut_withOperandAs (idle_stores s _ _) fun pa hpa => ?_)
  exact ccOut_retire (quiet_operandWrite _ _ _ s) _ (.inr ⟨pa, _, hpa, length_toBytes 32 _, rfl, rfl, rfl⟩)

theorem secMeasExtend_frame : CcOut d s (MemSame s) (execSecMeasExtend d a t s) := by
  unfold execSecMeasExtend
  extract_lets v die i
  refine ccOut_onTre (idle_memSame s) (ccOut_ite (ccOut_retStatus (idle_memSame s) _) fun _ =>
    ccOut_ite (ccOut_retStatus (idle_memSame s) _) fun _ => ccOut_withOperandAs (idle_memSame s) fun pa hpa => ?_)
  exact ccOut_retire (quiet_of_harts rfl rfl) _ ⟨rfl, rfl, rfl⟩

theorem secWipeQuery_frame : CcOut d s (MemSame s) (execSecWipeQuery d a t s) := by
  unfold execSecWipeQuery
  extract_lets v
  refine ccOut_onTre (idle_memSame s) (ccOut_ite (ccOut_retStatus (idle_memSame s) _) fun _ =>
    ccOut_ite (ccOut_retStatus (idle_memSame s) _) fun _ => ?_)
  exact ccOut_retire (quiet_refl s) _ ⟨rfl, rfl, rfl⟩

theorem eraseSlots_keeps (l : List Nat) (s : State) :
    Quiet s (l.foldl eraseSlot s) ∧ KeepsWf s (l.foldl eraseSlot s) := by
  induction l generalizing s with
  | nil => exact ⟨quiet_refl s, id⟩
  | cons i l ih =>
    have hone : Quiet s (eraseSlot s i) ∧ KeepsWf s (eraseSlot s i) := by
      unfold eraseSlot
      simp only
      split
      · exact ⟨quiet_of_harts rfl rfl, id⟩
      · exact ⟨quiet_of_harts rfl rfl, wf_eraseKey _ _⟩
    exact ⟨hone.1.trans (ih _).1, fun hwf => (ih _).2 (hone.2 hwf)⟩

theorem secWipe_frame : CcOut d s (KeepsWf s) (execSecWipe d a t s) := by
  have hidle := idle_keepsWf s
  unfold execSecWipe
  extract_lets v n slots part slot used taken former s1 fill trust s2
  have hs2 : Quiet s s2 ∧ KeepsWf s s2 := by
    obtain ⟨hquiet, hwf⟩ := eraseSlots_keeps slots s
    exact ⟨hquiet.trans (quiet_of_harts rfl rfl : Quiet s1 s2), hwf⟩
  clear_value s2 used taken
  refine ccOut_onTre hidle (ccOut_ite (ccOut_retStatus hidle _) fun _ => ccOut_ite (ccOut_retStatus hidle _) fun _ =>
    ccOut_ite (ccOut_retStatus hidle _) fun _ => ccOut_ite (ccOut_retStatus hidle _) fun _ => ccOut_ite (ccOut_retStatus hidle _) fun _ => ?_)
  exact ccOut_retire hs2.1 _ (hs2.2.retire _)

theorem secUnlkNonce_frame : CcOut d s (Stores (s.x t) 32 s) (execSecUnlkNonce d a t s) := by
  unfold execSecUnlkNonce
  refine ccOut_onTre (idle_stores s _ _) (ccOut_ite (ccOut_retStatus (idle_stores s _ _) _) fun _ =>
    ccOut_ite (ccOut_retStatus (idle_stores s _ _) _) fun _ => ccOut_withOperandAs (idle_stores s _ _) fun pa hpa => ?_)
  refine ccOut_retire ?_ _ ?_
  · exact (quiet_operandWrite _ _ _ s).trans (quiet_of_harts rfl rfl)
  · exact .inr ⟨pa, _, hpa, length_toBytes 32 _, rfl, rfl, rfl⟩

theorem eraseTenants_keeps (s : State) : Quiet s (eraseTenants s) ∧ KeepsWf s (eraseTenants s) := by
  have hfold : eraseTenants s = ((List.range 63).map (· + 1)).foldl eraseSlot s := by rw [List.foldl_map, eraseTenants]
  rw [hfold]
  exact eraseSlots_keeps _ s

theorem alarmActions_keeps (s : State) (cls code : Nat) : Quiet s (alarmActions s cls code) ∧ KeepsWf s (alarmActions s cls code) := by
  have hkeys : Quiet s (afterKeys s (s.policy cls)) ∧ KeepsWf s (afterKeys s (s.policy cls)) := by
    unfold afterKeys
    split
    · obtain ⟨hquiet, hwf⟩ := eraseTenants_keeps s
      generalize eraseTenants s = e at hquiet hwf ⊢
      exact ⟨hquiet.trans (quiet_of_harts rfl rfl), hwf⟩
    · exact ⟨quiet_refl s, id⟩
  have hzero := afterZero_keeps (afterKeys s (s.policy cls)) (s.policy cls)
  constructor
  · rw [alarmActions_eq]
    refine Quiet.trans (hkeys.1.trans ?_) (quiet_pendMachine _ 18)
    rw [hzero]
    exact quiet_of_harts rfl rfl
  · intro hwf
    rw [(alarmActions_memory s cls code).1]
    exact hkeys.2 hwf

theorem raiseAlarm_keeps (s : State) (cls code : Nat) : Quiet s (raiseAlarm s cls code) ∧ KeepsWf s (raiseAlarm s cls code) := by
  have hfreeze : Quiet s (alarmFreeze s code) ∧ KeepsWf s (alarmFreeze s code) := by
    rw [alarmFreeze_keeps]
    exact ⟨quiet_of_harts rfl rfl, id⟩
  rw [raiseAlarm_eq]
  split
  · exact ⟨hfreeze.1.trans (quiet_of_harts rfl rfl), hfreeze.2⟩
  · obtain ⟨hquiet, hwf⟩ := alarmActions_keeps (alarmFreeze s code) cls code
    exact ⟨hfreeze.1.trans hquiet, fun h => hwf (hfreeze.2 h)⟩

theorem unlock_keeps (s : State) (b : Bytes) : Quiet s (unlock s b) ∧ KeepsWf s (unlock s b) := by
  obtain ⟨hquiet, hwf⟩ := eraseTenants_keeps s
  unfold unlock
  generalize eraseTenants s = e at hquiet hwf ⊢
  exact ⟨hquiet.trans (quiet_of_harts rfl rfl), hwf⟩

theorem secUnlkSubmit_frame : CcOut d s (KeepsWf s) (execSecUnlkSubmit d a t s) := by
  have hidle := idle_keepsWf s
  unfold execSecUnlkSubmit
  refine ccOut_onTre hidle (ccOut_ite (ccOut_retStatus hidle _) fun _ => ccOut_ite (ccOut_retStatus hidle _) fun _ =>
    ccOut_ite (ccOut_retStatus hidle _) fun _ => ccOut_withOperandAs hidle fun pa hpa => ?_)
  extract_lets b trust s1 s2
  clear_value b
  have hs2 : Quiet s s2 ∧ KeepsWf s s2 := by
    unfold s2
    split
    · obtain ⟨hquiet, hwf⟩ := raiseAlarm_keeps s1 4 5
      exact ⟨(quiet_of_harts rfl rfl : Quiet s s1).trans hquiet, hwf⟩
    · exact ⟨quiet_of_harts rfl rfl, id⟩
  clear_value s2
  split
  · exact ccOut_retire (unlock_keeps s b).1 _ ((unlock_keeps s b).2.retire _)
  · exact ccOut_retire hs2.1 _ (hs2.2.retire _)

theorem secUnlkClose_frame : CcOut d s (MemSame s) (execSecUnlkClose d a t s) := by
  unfold execSecUnlkClose
  refine ccOut_onTre (idle_memSame s) (ccOut_ite (ccOut_retStatus (idle_memSame s) _) fun _ =>
    ccOut_ite (ccOut_retStatus (idle_memSame s) _) fun _ => ?_)
  exact ccOut_retire (quiet_of_harts rfl rfl) _ ⟨rfl, rfl, rfl⟩

theorem length_fieldBytes (n : Nat) (fs : List Field) : (fieldBytes n fs).length = n := by simp [fieldBytes]

theorem secAtst_frame : CcOut d s (Stores (s.x t) 384 s) (execSecAtst d a t s) := by
  unfold execSecAtst
  extract_lets die count
  refine ccOut_onTre (idle_stores s _ _) (ccOut_ite (ccOut_retStatus (idle_stores s _ _) _) fun _ =>
    ccOut_ite (ccOut_retStatus (idle_stores s _ _) _) fun _ => ccOut_withOperandAs (idle_stores s _ _) fun pr hpr =>
    ccOut_withOperandAs (idle_stores s _ _) fun pa hpa => ?_)
  extract_lets body sig s1
  have hlength : (body ++ sigBytes sig).length = 384 := by
    rw [List.length_append, show body.length = 0x140 from length_fieldBytes _ _, sigBytes, List.length_reverse, length_toBytes]
  clear_value body sig count
  refine ccOut_retire ?_ _ ?_
  · exact (quiet_operandWrite _ _ _ s).trans (quiet_of_harts rfl rfl)
  · exact .inr ⟨pa, _, hpa, hlength, rfl, rfl, rfl⟩

/-! ### Calls -/

theorem modCall_keeps (s : State) (f : Call → Call) (at_ : CallAt) : Quiet s (modCall s f at_) ∧ MemSame s (modCall s f at_) := by
  cases at_ <;> exact ⟨quiet_of_harts rfl rfl, rfl, rfl, rfl⟩

theorem callTake_frame : CcOut d s (Stores (s.x a) 64 s) (execCallTake d a t s) := by
  have hidle := idle_stores s (s.x a) 64
  unfold execCallTake
  extract_lets v n take
  have htake (mine : CallAt → Bool) (rid : Nat) : CcOut d s (Stores (s.x a) 64 s) (.next (take mine rid)) := by
    unfold take
    refine ccOut_ite (ccOut_retStatus hidle _) fun _ => ?_
    split
    · exact ccOut_retStatus hidle _
    · next at_ c _ =>
      split
      · exact ccOut_stallOn hidle _ _
      · exact .of (rowHarts_trap s _ _) (hidle _ ⟨rfl, rfl, rfl⟩)
      · next pa hpa =>
        extract_lets s1 s2
        obtain ⟨hquiet, hsame⟩ := modCall_keeps s1 (fun c => { c with st := .taken, ticket := n }) at_
        refine ccOut_retire ?_ _ ?_
        · exact ((quiet_operandWrite _ _ _ s).trans hquiet).trans (quiet_of_harts rfl rfl)
        · exact .inr ⟨pa, _, hpa, length_fieldBytes 64 _, hsame⟩
  clear_value take
  split
  · split
    · exact ccOut_trapIllegal hidle _
    · exact htake _ _
  · exact ccOut_onRegion hidle fun R => htake _ _

/-! ### CSR accesses -/

theorem queueUnreported_keeps (s : State) : Quiet s (queueUnreported s) ∧ MemSame s (queueUnreported s) := by
  unfold queueUnreported
  split
  · exact ⟨quiet_refl s, memSame_refl s⟩
  · split
    · exact ⟨quiet_refl s, memSame_refl s⟩
    · exact ⟨quiet_of_harts rfl rfl, rfl, rfl, rfl⟩

theorem popReport_keeps {s t : State} {p : Report} (h : popReport s = some (p, t)) : Quiet s t ∧ MemSame s t := by
  unfold popReport at h
  split at h <;> cases h
  exact ⟨quiet_of_harts rfl rfl, rfl, rfl, rfl⟩

theorem xparkPop_frame : CcOut d s (MemSame s) (execXparkPop d s) := by
  unfold execXparkPop
  split
  · exact ccOut_trapIllegal (idle_memSame s) _
  · split
    · exact ccOut_retire (quiet_refl s) _ ⟨rfl, rfl, rfl⟩
    · next s1 hpop =>
      obtain ⟨hquiet, hsame⟩ := popReport_keeps hpop
      exact ccOut_retire (hquiet.trans (queueUnreported_keeps s1).1) _ (hsame.trans (queueUnreported_keeps s1).2)

theorem xinvcmd_frame (v : W64) : CcOut d s (MemSame s) (execXinvcmd v s) := by
  unfold execXinvcmd
  split
  · exact ccOut_trapIllegal (idle_memSame s) _
  · split
    · exact .of (rowHarts_stall s fun _ => ⟨rfl, rfl, rfl, rfl, rfl⟩) ⟨rfl, rfl, rfl⟩
    · split
      · exact ccOut_retireNone (quiet_refl s) ⟨rfl, rfl, rfl⟩
      · exact ccOut_retireNone (quiet_of_harts rfl rfl) ⟨rfl, rfl, rfl⟩

theorem lnkStore_keeps {s t : State} {v : Nat} (h : lnkStore s v = some t) : Quiet s t ∧ MemSame s t := by
  unfold lnkStore at h
  simp only at h
  repeat' split at h
  all_goals cases h
  all_goals exact ⟨quiet_of_harts rfl rfl, rfl, rfl, rfl⟩

theorem lnkdataWrite_frame (v : W64) : CcOut d s (MemSame s) (execLnkdataWrite v s) := by
  unfold execLnkdataWrite
  split
  · exact ccOut_trapIllegal (idle_memSame s) _
  · split
    · next s1 hstore =>
      obtain ⟨hquiet, hsame⟩ := lnkStore_keeps hstore
      exact ccOut_retireNone (hquiet.trans (quiet_of_harts rfl rfl)) hsame
    · exact ccOut_retireNone (quiet_of_harts rfl rfl) ⟨rfl, rfl, rfl⟩

theorem yardWrite_keeps (s : State) (csr v : Nat) : Quiet s (yardWrite s csr v) ∧ MemSame s (yardWrite s csr v) := by
  unfold yardWrite
  simp only
  split
  case h_1 => exact ⟨quiet_modHart s _ fun _ => ⟨rfl, rfl, rfl, rfl, rfl⟩, rfl, rfl, rfl⟩
  case h_6 | h_7 | h_8 | h_9 => split <;> exact ⟨quiet_of_harts rfl rfl, rfl, rfl, rfl⟩
  all_goals exact ⟨quiet_of_harts rfl rfl, rfl, rfl, rfl⟩

theorem csrWrite_frame {csr : BitVec 12} (h : ([0x5C4, 0x5C8, 0x5CB].contains csr.toNat) = false) (v : W64) :
    CcOut d s (MemSame s) (execCsrWrite csr v s) := by
  unfold execCsrWrite
  split
  · unfold csrStore
    split
    · next hcsr => rw [hcsr] at h; cases h
    · exact xinvcmd_frame v
    · next hcsr => rw [hcsr] at h; cases h
    · next hcsr => rw [hcsr] at h; cases h
    · exact lnkdataWrite_frame v
    · obtain ⟨hquiet, hsame⟩ := yardWrite_keeps s csr.toNat v.toNat
      exact ccOut_retireNone hquiet hsame
  · exact ccOut_trapIllegal (idle_memSame s) _

end

end Sys2Proof.Machine
end

section
/-! SUPPORT. A hart's memory access writes its own bytes alone; settles O60. -/

namespace Sys2Proof.Machine

/-! ### The address of an access -/

theorem svWalk_offset {s : State} {H : Hart} {p : Priv} {k : Kind3} {va pa : Nat} {l : Nat} {table : Nat} (h : svWalk s H p k va l table = .ok pa) :
    pa % 4096 = va % 4096 := by
  have hpage (a l : Nat) : (a * 2 ^ (12 + 9 * l) + va % 2 ^ (12 + 9 * l)) % 4096 = va % 4096 := by
    have hsplit : 2 ^ (12 + 9 * l) = 4096 * 2 ^ (9 * l) := pow_add 2 12 (9 * l)
    rw [hsplit, ← Nat.mul_assoc, Nat.mul_comm a 4096, Nat.mul_assoc, Nat.mul_add_mod, Nat.mod_mul_right_mod]
  induction l generalizing table with
  | zero =>
    unfold svWalk at h
    extract_lets at_ e ppn r w x sum mxr rights user at h
    split at h
    · cases h
    · split at h
      · cases h
      · split at h
        · split at h
          · cases h
          · cases h
            exact hpage _ 0
        · cases h
  | succ l ih =>
    unfold svWalk at h
    extract_lets at_ e ppn r w x sum mxr rights user at h
    split at h
    · cases h
    · split at h
      · cases h
      · split at h
        · split at h
          · cases h
          · cases h
            exact hpage _ (l + 1)
        · exact ih h

theorem hartAddr_offset {s : State} {H : Hart} {p : Priv} {k : Kind3} {va n pa : Nat} (h : s.hartAddr H p k va n = .ok pa) :
    pa % 4096 = va % 4096 := by
  unfold State.hartAddr at h
  extract_lets addr at h
  cases haddr : addr with
  | error c =>
    rw [haddr] at h
    cases h
  | ok a =>
    rw [haddr] at h
    simp only at h
    split at h
    · cases h
    · cases h
      unfold addr at haddr
      split at haddr
      · cases haddr
        rfl
      · split at haddr
        · cases haddr
        · have hpage := svWalk_offset haddr
          omega

/-! ### The bytes of an access -/

section
variable {s t : State} {agent slot pa : Nat} {op : MemOp} {v : W64}

theorem opBytes_of_ok (h : memOpOk op = true) : opBytes op = 1 ∨ opBytes op = 2 ∨ opBytes op = 4 ∨ opBytes op = 8 := by
  have hlog {l : Nat} (h : l < 4) : 2 ^ l = 1 ∨ 2 ^ l = 2 ∨ 2 ^ l = 4 ∨ 2 ^ l = 8 := by
    interval_cases l <;> simp
  cases op with
  | load l sgn d => exact hlog (by simpa [memOpOk] using h)
  | store l v => exact hlog (by simpa [memOpOk] using h)
  | lr l d => exact hlog (by simp [memOpOk] at h; omega)
  | sc l v d => exact hlog (by simp [memOpOk] at h; omega)
  | amo o l v d => exact hlog (by simp [memOpOk] at h; omega)

/-- An aligned access lies in one line. -/
theorem line_of_aligned (h : memOpOk op = true) (ha : pa % opBytes op = 0) {j : Nat} (hj : j < opBytes op) : (pa + j) / 64 = pa / 64 := by
  rcases opBytes_of_ok h with e | e | e | e <;> rw [e] at ha hj <;> omega

theorem memSame_setReserved (s : State) (agent : Nat) (g : Option Nat) : MemSame s (s.setReserved agent g) := by
  unfold State.setReserved
  split <;> exact ⟨rfl, rfl, rfl⟩

theorem setReserved_boot_trust (s : State) (agent : Nat) (g : Option Nat) :
    (s.setReserved agent g).boot = s.boot ∧ (s.setReserved agent g).trust = s.trust := by
  unfold State.setReserved
  split <;> exact ⟨rfl, rfl⟩

theorem sameByte_setReserved (s : State) (agent : Nat) (g : Option Nat) (a : Nat) : SameByte a s (s.setReserved agent g) :=
  ⟨keyFor_congr (setReserved_boot_trust s agent g).1 (setReserved_boot_trust s agent g).2, (memSame_setReserved s agent g).byte _ a⟩

theorem MemSame.keepsWf (h : MemSame s t) : KeepsWf s t := idle_keepsWf s t h

/-- What an access does, by its form: nothing to memory, or one write at its address, its reservation aside. -/
theorem agentAccess_cases (h : agentAccess s agent slot pa op = some (t, v)) :
    (∃ g, opWrites op = false ∧ t = s ∨ t = s.setReserved agent g) ∨ (∃ part w b, opWrites op = true ∧ t = s.toPeer part w b) ∨
      ∃ bs, opWrites op = true ∧ bs.length = opBytes op ∧
        (t = agentWrite s agent slot pa bs ∨ t = (agentWrite s agent slot pa bs).setReserved agent none) := by
  unfold agentAccess at h
  extract_lets n old at h
  split at h
  · cases h
  · split at h
    · cases h
      exact .inl ⟨none, .inl ⟨rfl, rfl⟩⟩
    · cases h
      exact .inr (.inr ⟨_, rfl, length_toBytes _ _, .inl rfl⟩)
    · cases h
      exact .inl ⟨_, .inr rfl⟩
    · split at h <;> cases h
      · exact .inr (.inr ⟨_, rfl, length_toBytes _ _, .inr rfl⟩)
      · exact .inl ⟨_, .inr rfl⟩
    · split at h <;> cases h
      · exact .inr (.inl ⟨_, _, _, rfl, rfl⟩)
      · exact .inr (.inr ⟨_, rfl, length_toBytes _ _, .inl rfl⟩)

theorem quiet_agentAccess (h : agentAccess s agent slot pa op = some (t, v)) : Quiet s t := by
  rcases agentAccess_cases h with ⟨g, ⟨_, rfl⟩ | rfl⟩ | ⟨part, w, b, _, rfl⟩ | ⟨bs, _, _, rfl | rfl⟩
  · exact quiet_refl _
  · exact quiet_setReserved s agent g
  · exact quiet_toPeer s part w b
  · exact quiet_agentWrite s agent slot pa bs
  · exact (quiet_agentWrite s agent slot pa bs).trans (quiet_setReserved _ agent none)

theorem memSame_agentAccess (h : agentAccess s agent slot pa op = some (t, v)) (hop : opWrites op = false) : MemSame s t := by
  rcases agentAccess_cases h with ⟨g, ⟨_, rfl⟩ | rfl⟩ | ⟨part, w, b, hwrites, rfl⟩ | ⟨bs, hwrites, _⟩
  · exact memSame_refl _
  · exact memSame_setReserved s agent g
  · cases hop.symm.trans hwrites
  · cases hop.symm.trans hwrites

theorem keepsWf_agentAccess (h : agentAccess s agent slot pa op = some (t, v)) : KeepsWf s t := by
  rcases agentAccess_cases h with ⟨g, ⟨_, rfl⟩ | rfl⟩ | ⟨part, w, b, _, rfl⟩ | ⟨bs, _, _, rfl | rfl⟩
  · exact id
  · exact (memSame_setReserved s agent g).keepsWf
  · exact (memSame_toPeer s part w b).keepsWf
  · exact wf_agentWrite s agent slot pa bs
  · exact fun hwf => (memSame_setReserved _ agent none).keepsWf (wf_agentWrite s agent slot pa bs hwf)

theorem sameByte_agentAccess (h : agentAccess s agent 0 pa op = some (t, v)) (hok : memOpOk op = true) (ha : pa % opBytes op = 0)
    (hwf : Memory.wf s.mem = true) {a : Nat} (hout : a < pa ∨ pa + opBytes op ≤ a) : SameByte a s t := by
  have hwrite (bs : List Byte) (hbs : bs.length = opBytes op) : SameByte a s (agentWrite s agent 0 pa bs) :=
    sameByte_agentWrite bs hwf (fun j hj => line_of_aligned hok ha (hbs ▸ hj)) fun j hj => by omega
  rcases agentAccess_cases h with ⟨g, ⟨_, rfl⟩ | rfl⟩ | ⟨part, w, b, _, rfl⟩ | ⟨bs, _, hbs, rfl | rfl⟩
  · exact sameByte_refl a _
  · exact sameByte_setReserved s agent g a
  · exact sameByte_toPeer s part w b a
  · exact hwrite bs hbs
  · exact (hwrite bs hbs).trans (sameByte_setReserved _ agent none a)

end

/-- What a hart's memory access leaves: memory where it reads, and where it writes every byte but its own. -/
def Accesses (va : W64) (op : MemOp) (s t : State) : Prop :=
  (opWrites op = false → MemSame s t) ∧ KeepsWf s t ∧
  ∀ pa a, memOpOk op = true → Memory.wf s.mem = true →
    s.hartAddr (s.hart s.me) (s.hart s.me).dataPriv .store va.toNat (opBytes op) = .ok pa → a < pa ∨ pa + opBytes op ≤ a →
    memByte t (keyFor s 0 a) a = memByte s (keyFor s 0 a) a

theorem idle_accesses (va : W64) (op : MemOp) (s : State) : Idle (Accesses va op s) s :=
  fun _ h => ⟨fun _ => h, h.keepsWf, fun _ a _ _ _ _ => h.byte _ a⟩

theorem hartMemoryAccess_frame (va : W64) (op : MemOp) (s : State) :
    CcOut (opDest op) s (Accesses va op s) (execCcHartMemoryAccess va op s) := by
  have hidle := idle_accesses va op s
  unfold execCcHartMemoryAccess
  extract_lets H
  split
  · exact .of (rowHarts_trap s _ _) (hidle _ ⟨rfl, rfl, rfl⟩)
  · next haligned =>
    split
    · exact .of (rowHarts_trap s _ _) (hidle _ ⟨rfl, rfl, rfl⟩)
    · next pa hpa =>
      split
      · exact .of (rowHarts_of_quiet (quiet_refl s)) (hidle _ (memSame_refl s))
      · next s1 v haccess =>
        refine ccOut_retire (quiet_agentAccess haccess) v ⟨fun hop => (memSame_agentAccess haccess hop : MemSame s s1), (keepsWf_agentAccess haccess).retire v,
          fun pa' a hok hwf hpa' hout => ?_⟩
        show memByte s1 (keyFor s 0 a) a = _
        cases hop : opWrites op with
        | false => exact (memSame_agentAccess haccess hop).byte _ a
        | true =>
          rw [hop, if_pos rfl, hpa'] at hpa
          cases hpa
          have hoffset := hartAddr_offset hpa'
          have hzero : pa % opBytes op = 0 := by
            rcases opBytes_of_ok hok with e | e | e | e <;> rw [e] at haligned ⊢ <;> omega
          exact (sameByte_agentAccess haccess hok hzero hwf hout).2

/-! ### Every row -/

/-- What O60 says of the state that a row leads to. -/
def RowFrame (i : Instr) (s t : State) : Prop :=
  (Claim.storesNothing i = true → MemSame s t) ∧
  (∀ va n, Claim.storeOperand s i = some (va, n) → Stores va n s t) ∧
  (∀ va op, i = .ccHartMemoryAccess va op → Accesses va op s t) ∧ KeepsWf s t

theorem Stores.keepsWf {va : W64} {n : Nat} {s t : State} (h : Stores va n s t) : KeepsWf s t := by
  rcases h with h | ⟨pa, bs, _, _, hmem, _⟩
  · exact h.keepsWf
  · intro hwf
    rw [hmem]
    exact wf_operandWrite pa bs 0 s hwf

theorem rowFrame_of_same {i : Instr} {s t : State} (h : MemSame s t) : RowFrame i s t :=
  ⟨fun _ => h, fun _ _ _ => .inl h, fun va op _ => idle_accesses va op s t h, h.keepsWf⟩

theorem CcOut.mono {d : BitVec 5} {s : State} {P Q : State → Prop} {o : Host.Outcome State Fault Refusal} (h : CcOut d s P o) (hPQ : ∀ t, P t → Q t) :
    CcOut d s Q o := by
  obtain ⟨t, ht, hharts, hP⟩ := h
  exact ⟨t, ht, hharts, hPQ t hP⟩

theorem rowFrame_of_stores {i : Instr} {s t : State} {va : W64} {n : Nat} (hop : Claim.storeOperand s i = some (va, n))
    (hi : Claim.storesNothing i = false) (hm : ∀ va op, i ≠ .ccHartMemoryAccess va op) (h : Stores va n s t) : RowFrame i s t := by
  refine ⟨fun h => (nomatch hi.symm.trans h), fun va' n' h' => ?_, fun va op e => (hm va op e).elim, h.keepsWf⟩
  cases hop.symm.trans h'
  exact h

theorem rowFrame_of_wf {i : Instr} {s t : State} (hop : Claim.storeOperand s i = none) (hi : Claim.storesNothing i = false)
    (hm : ∀ va op, i ≠ .ccHartMemoryAccess va op) (h : KeepsWf s t) : RowFrame i s t :=
  ⟨fun h => (nomatch hi.symm.trans h), fun _ _ h' => (nomatch hop.symm.trans h'), fun va op e => (hm va op e).elim, h⟩

/-- Every row of the CC whose frame is stated. -/
theorem ccRow_frame {i : Instr} (h : Claim.ccRow i = true) (s : State) : CcOut (Claim.destOf i) s (RowFrame i s) (exec i s) := by
  cases i
  case callTake d a t => exact callTake_frame.mono fun t h => rowFrame_of_stores rfl rfl (fun _ _ => nofun) h
  case secMeasRead d a t => exact secMeasRead_frame.mono fun t h => rowFrame_of_stores rfl rfl (fun _ _ => nofun) h
  case secUnlkNonce d a t => exact secUnlkNonce_frame.mono fun t h => rowFrame_of_stores rfl rfl (fun _ _ => nofun) h
  case secAtst d a t => exact secAtst_frame.mono fun t h => rowFrame_of_stores rfl rfl (fun _ _ => nofun) h
  case secWipe d a t => exact secWipe_frame.mono fun t h => rowFrame_of_wf rfl rfl (fun _ _ => nofun) h
  case secUnlkSubmit d a t => exact secUnlkSubmit_frame.mono fun t h => rowFrame_of_wf rfl rfl (fun _ _ => nofun) h
  case secFuseRead d a t => exact secFuseRead_frame.mono fun _ => rowFrame_of_same
  case secFuseBlow d a t => exact secFuseBlow_frame.mono fun _ => rowFrame_of_same
  case secMeasExtend d a t => exact secMeasExtend_frame.mono fun _ => rowFrame_of_same
  case secWipeQuery d a t => exact secWipeQuery_frame.mono fun _ => rowFrame_of_same
  case secUnlkClose d a t => exact secUnlkClose_frame.mono fun _ => rowFrame_of_same
  case illegalInstruction w => exact (ccOut_trapIllegal (idle_memSame s) w).mono fun _ => rowFrame_of_same
  case xparkPop d => exact xparkPop_frame.mono fun _ => rowFrame_of_same
  case xinvcmd v => exact (xinvcmd_frame v).mono fun _ => rowFrame_of_same
  case lnkdataWrite v => exact (lnkdataWrite_frame v).mono fun _ => rowFrame_of_same
  case csrWrite n v => exact (csrWrite_frame (Bool.not_eq_true' _ ▸ h) v).mono fun _ => rowFrame_of_same
  case ccHartMemoryAccess va op =>
    refine (hartMemoryAccess_frame va op s).mono fun t h => ⟨fun hi => h.1 ?_, fun _ _ h' => (nomatch h'), fun va' op' e => ?_, h.2.1⟩
    · exact (Bool.not_eq_true' (opWrites op)).mp hi
    · cases e
      exact h
  all_goals exact Bool.noConfusion h

end Sys2Proof.Machine

namespace Sys2Proof
open Machine

/-- Settles O60: each row changes its destination alone among the registers, and of memory the bytes that it names. -/
theorem hartRowsFrame : Obligations.HartRowsFrame := by
  intro i s t hi hexec
  obtain ⟨u, hu, ⟨hown, hfloat, hothers⟩, hnothing, hstores, haccess, _⟩ := ccRow_frame hi s
  cases hu.symm.trans hexec
  refine ⟨hown, hfloat, hothers, fun h => ⟨(hnothing h).1, (hnothing h).2.1⟩, fun va n hop => ?_, fun va op a e hwell hwf pa hpa hout => ?_⟩
  · rcases hstores va n hop with hsame | ⟨pa', bs, hpa', hlength, hsame⟩
    · exact ⟨fun _ a _ _ _ => hsame.byte _ a, fun _ => ⟨hsame.1, hsame.2.1⟩⟩
    · refine ⟨fun pa a hwf hpa hout => ?_, fun h => (h pa' hpa').elim⟩
      cases hpa'.symm.trans hpa
      have hbyte := sameByte_operandWrite (pa := pa') (a := a) bs 0 hwf fun j _ hj => hout j (by omega)
      exact (hsame.byte _ a).trans hbyte.2
  · subst e
    exact (haccess va op rfl).2.2 pa a hwell hwf hpa hout

end Sys2Proof
end

section
/-! SUPPORT. The canonical form of global memory under the operations that the rows share, and as a turn begins. -/

namespace Sys2Proof.Machine

/-- Global memory is in canonical form. -/
def Canonical (s : State) : Prop := Memory.wf s.mem = true

/-- The outcome is a next state, in canonical form where `s` is. -/
def Goes (s : State) (o : Host.Outcome State Fault Refusal) : Prop := ∃ t, o = .next t ∧ (Canonical s → Canonical t)

section
variable {s t : State}

theorem Goes.of (h : Canonical s → Canonical t) : Goes s (.next t) := ⟨t, rfl, h⟩

theorem canonical_of_mem (hmem : t.mem = s.mem) (h : Canonical s) : Canonical t := by
  rw [Canonical, hmem]
  exact h

theorem goes_of_mem (hmem : t.mem = s.mem) : Goes s (.next t) := .of (canonical_of_mem hmem)

theorem goes_refl (s : State) : Goes s (.next s) := .of id

theorem goes_ite {c : Prop} [Decidable c] {a b : Host.Outcome State Fault Refusal} (ha : Goes s a) (hb : Goes s b) : Goes s (if c then a else b) := by
  split
  · exact ha
  · exact hb

theorem canonical_ite {c : Prop} [Decidable c] {a b : State} (ha : Canonical a) (hb : Canonical b) : Canonical (if c then a else b) := by
  split
  · exact ha
  · exact hb

theorem canonical_getD {o : Option State} (h : Canonical s) (ho : ∀ t, o = some t → Canonical t) : Canonical (o.getD s) := by
  cases o with
  | none => exact h
  | some t => exact ho t rfl

theorem canonical_foldl {α : Type} {f : State → α → State} (hf : ∀ s a, Canonical s → Canonical (f s a)) (l : List α) (h : Canonical s) :
    Canonical (l.foldl f s) := by
  induction l generalizing s with
  | nil => exact h
  | cons a l ih => exact ih (hf s a h)

theorem canonical_of_only {rid : Nat} (honly : Safety.OnlyRegion rid s t) (h : Canonical s) : Canonical t := by
  obtain ⟨_, _, _, _, _, _, _, hmem, _⟩ := honly
  exact canonical_of_mem hmem h

theorem canonical_of_links (hlinks : LinksOnly s t) (h : Canonical s) : Canonical t := by
  obtain ⟨_, _, _, _, _, _, hmem, _⟩ := hlinks
  exact canonical_of_mem hmem h

/-! ### Operations that leave memory as it is -/

theorem canonical_putRegion (R : Region) (h : Canonical s) : Canonical (s.putRegion R) := h
theorem canonical_modRegion (rid : Nat) (f : Region → Region) (h : Canonical s) : Canonical (s.modRegion rid f) := h
theorem canonical_pend (n : Nat) (h : Canonical s) : Canonical (s.pend n) := h
theorem canonical_modHart (n : Nat) (f : Hart → Hart) (h : Canonical s) : Canonical (s.modHart n f) := h
theorem canonical_retire (d : BitVec 5) (v : W64) (h : Canonical s) : Canonical (retire s d v) := h
theorem canonical_retireNone (h : Canonical s) : Canonical (retireNone s) := h
theorem canonical_retStatus (d : BitVec 5) (n : Nat) (h : Canonical s) : Canonical (retStatus s d n) := h
theorem canonical_retHigh (d : BitVec 5) (n : Nat) (h : Canonical s) : Canonical (retHigh s d n) := h
theorem canonical_stallOn (rid : Nat) (d : BitVec 5) (k : StallKind) (h : Canonical s) : Canonical (stallOn s rid d k) := h
theorem canonical_trapOperand (c : W64) (va : Nat) (h : Canonical s) : Canonical (trapOperand s c va) := h
theorem canonical_takeFault (rid : Nat) (f : FaultRec) (h : Canonical s) : Canonical (takeFault s rid f) := h
theorem canonical_putOut (port : Nat) (p : Packet) (h : Canonical s) : Canonical (s.putOut port p) := h
theorem canonical_modInst (tree i : Nat) (f : Inst → Inst) (h : Canonical s) : Canonical (s.modInst tree i f) := h
theorem canonical_localOutcome (tree i : Nat) (loc : Nat × Nat × UnitId × BitVec 16 × Token) (o : Except (Nat × Nat × Nat) (List W32 × Bool))
    (h : Canonical s) : Canonical (localOutcome s tree i loc o) := h
theorem canonical_answerSender (p : Packet) (status placed sent : Nat) (h : Canonical s) : Canonical (answerSender s p status placed sent) := h
theorem canonical_retireStalls (rid : Nat) (kinds : List StallKind) (status : Nat) (h : Canonical s) :
    Canonical (retireStalls s rid kinds status) := h
theorem canonical_zeroFabric (h : Canonical s) : Canonical (zeroFabric s) := h
theorem canonical_pendMachine (n : Nat) (h : Canonical s) : Canonical (pendMachine s n) := h
theorem canonical_extendMeas (die i : Nat) (D : List Byte) (h : Canonical s) : Canonical (extendMeas s die i D) := h
theorem canonical_countRollback (h : Canonical s) : Canonical (countRollback s) := h
theorem canonical_dropPool (rid : Nat) (h : Canonical s) : Canonical (dropPool s rid) := h
theorem canonical_breakResv (but : Option Nat) (pa : Nat) (h : Canonical s) : Canonical (breakResv s but pa) := h
theorem canonical_recheck (rid : Nat) (h : Canonical s) : Canonical (s.recheck rid) := h
theorem canonical_takeUp (rid : Nat) (round : BitVec 12) (pa n : Nat) (h : Canonical s) : Canonical (s.takeUp rid round pa n) := h

theorem canonical_askWalk (w : Walk) (h : Canonical s) : Canonical (askWalk s w) := canonical_of_only (only_askWalk 0 s w) h

theorem canonical_queueReport (R : Region) (p : Parked) (h : Canonical s) : Canonical (queueReport s R p) :=
  canonical_of_only (ownOnly_queueReport (rid := R.rid) rfl p).1 h

theorem canonical_accFault (R : Region) (page : Nat) (a : Access) (c : Cause) (detail : Nat) (va : Bool) (h : Canonical s) :
    Canonical (accFault s R page a c detail va) := canonical_of_only (only_accFault (rid := R.rid) rfl page a c detail va) h

theorem canonical_strFault (R : Region) (u : UnitId) (o : StrOp) (c : Cause) (detail : Nat) (va : Bool) (h : Canonical s) :
    Canonical (strFault s R u o c detail va) := canonical_of_only (only_strFault (rid := R.rid) rfl u o c detail va) h

theorem canonical_dispatchSends (rid : Nat) (h : Canonical s) : Canonical (dispatchSends s rid) := canonical_of_links (linksOnly_dispatchSends s rid) h

theorem canonical_dispatchAll (h : Canonical s) : Canonical (dispatchAll s) := canonical_foldl (fun _ rid h => canonical_dispatchSends rid h) _ h

theorem canonical_deliverItem {p : Packet} (ht : deliverItem s p = some t) (h : Canonical s) : Canonical t := canonical_of_links (linksOnly_deliverItem ht) h

theorem canonical_returnAllow (part : BitVec 16) (page i : Nat) (h : Canonical s) : Canonical (s.returnAllow part page i) :=
  canonical_of_links (linksOnly_returnAllow s part page i) h

theorem canonical_dropItem (p : Packet) (h : Canonical s) : Canonical (dropItem s p) := canonical_of_links (linksOnly_dropItem s p) h

theorem canonical_queueUnreported (h : Canonical s) : Canonical (queueUnreported s) := (queueUnreported_keeps s).2.keepsWf h

theorem canonical_toPeer (part : BitVec 16) (w : Nat) (b : Body) (h : Canonical s) : Canonical (s.toPeer part w b) :=
  canonical_of_mem (toPeer_mem s part w b) h

theorem canonical_adoptWaiting (rid : Nat) (h : Canonical s) : Canonical (adoptWaiting s rid) := by
  unfold adoptWaiting
  split
  · exact h
  · refine canonical_foldl (fun s p h => ?_) _ h
    exact canonical_getD h fun t ht => canonical_deliverItem ht (canonical_of_mem rfl h)

/-! ### Operations that write memory -/

theorem canonical_writeBytes (slot pa : Nat) (bs : List Byte) (h : Canonical s) : Canonical (writeBytes s slot pa bs) := wf_writeBytes s slot pa bs h

theorem canonical_operandWrite (pa : Nat → Nat) (i : Nat) (bs : List Byte) (h : Canonical s) : Canonical (operandWrite pa i bs s) :=
  wf_operandWrite pa bs i s h

theorem canonical_agentWrite (agent slot pa : Nat) (bs : List Byte) (h : Canonical s) : Canonical (agentWrite s agent slot pa bs) :=
  wf_agentWrite s agent slot pa bs h

theorem canonical_memWrite (key a : Nat) (bs : List Byte) (h : Canonical s) : Canonical (memWrite s key a bs) := wf_memWrite bs s key a h

theorem canonical_restoreLines (ps : List Prov) (h : Canonical s) : Canonical (ps.foldl restoreLine s) :=
  canonical_foldl (fun s p h => wf_restoreLine s p h) ps h

theorem canonical_forgetMemory (h : Canonical s) : Canonical (forgetMemory s) := wf_forgetMemory s h

theorem canonical_eraseSlot (i : Nat) (h : Canonical s) : Canonical (eraseSlot s i) := (eraseSlots_keeps [i] s).2 h

theorem canonical_eraseTenants (h : Canonical s) : Canonical (eraseTenants s) := (eraseTenants_keeps s).2 h

theorem canonical_alarmActions (cls code : Nat) (h : Canonical s) : Canonical (alarmActions s cls code) := (alarmActions_keeps s cls code).2 h

theorem canonical_raiseAlarm (cls code : Nat) (h : Canonical s) : Canonical (raiseAlarm s cls code) := (raiseAlarm_keeps s cls code).2 h

/-! ### What the last cycle settled -/

theorem canonical_alarmsDue (h : Canonical s) : Canonical s.alarmsDue := by
  unfold State.alarmsDue
  split
  · exact h
  · exact canonical_foldl (fun _ a h => canonical_alarmActions a.1 a.2 h) _ (canonical_of_mem rfl h)

theorem canonical_putSlot {R : Region} {u : UnitId} {i n : Nat} (ht : s.putSlot R u i n = some t) (h : Canonical s) : Canonical t := by
  unfold State.putSlot at ht
  split at ht
  · cases ht
    exact canonical_putRegion _ h
  · split at ht
    · split at ht <;> cases ht
      exact canonical_writeBytes _ _ _ h
    · cases ht

theorem canonical_spillOne (rid : Nat) (u : UnitId) (i : Nat) (x : Option Slot) (h : Canonical s) : Canonical (s.spillOne rid u i x) := by
  unfold State.spillOne
  split
  · exact h
  · split
    · exact h
    · next s1 hput => exact canonical_modRegion _ _ (canonical_putSlot hput h)

theorem canonical_spillRegion (R : Region) (h : Canonical s) : Canonical (s.spillRegion R) := by
  unfold State.spillRegion
  simp only
  split
  · exact h
  · exact canonical_foldl (fun _ _ h => canonical_spillOne _ _ _ _ h) _ (canonical_foldl (fun _ _ h => canonical_spillOne _ _ _ _ h) _ h)

theorem canonical_spill (h : Canonical s) : Canonical s.spill := canonical_foldl (fun _ R h => canonical_spillRegion R h) _ h

theorem canonical_noteEos (rid : Nat) (h : Canonical s) : Canonical (noteEos s rid) := by
  unfold noteEos
  split
  · exact h
  · exact canonical_ite (canonical_pend 3 (canonical_putRegion _ h)) h

theorem canonical_askHeld (R : Region) (h : Canonical s) : Canonical (askHeld s R) := by
  unfold askHeld
  split
  · exact h
  · exact canonical_foldl (fun s x h => canonical_ite h (canonical_askWalk _ h)) _ h

theorem canonical_takeLate (rid : Nat) (h : Canonical s) : Canonical (takeLate s rid) := by
  unfold takeLate
  split
  · exact canonical_ite (canonical_accFault _ _ _ _ _ _ h) h
  · exact h

theorem canonical_enterComp (rid n : Nat) (h : Canonical s) : Canonical (enterComp rid n s) := by
  induction n generalizing s with
  | zero => exact h
  | succ n ih =>
    unfold enterComp
    split
    · exact h
    · split
      · exact ih (canonical_of_mem rfl h)
      · exact h

theorem canonical_entered (h : Canonical s) : Canonical s.entered := canonical_foldl (fun _ _ h => canonical_enterComp _ _ h) _ h

theorem canonical_settled (h : Canonical s) : Canonical s.settled := by
  unfold State.settled
  extract_lets s0 s1 s2 waiting
  have h1 : Canonical s1 := canonical_foldl (fun _ rid h => canonical_noteEos rid h) _ (canonical_of_mem rfl h)
  have h2 : Canonical s2 := canonical_foldl (fun _ R h => canonical_askHeld R h) _ h1
  exact canonical_foldl (fun _ rid h => canonical_takeLate rid h) _
    (canonical_foldl (fun _ rid h => canonical_recheck rid h) _ (canonical_entered h2))

/-! ### What a turn brings from outside -/

theorem canonical_ipis (hs : List Nat) (h : Canonical s) : Canonical (s.ipis hs) := by
  unfold State.ipis
  split
  · exact h
  · exact canonical_foldl (fun _ n h => canonical_modHart n _ h) _ h

theorem canonical_strikeMemory (k w : Nat) (h : Canonical s) : Canonical (s.strikeMemory k w) := by
  unfold State.strikeMemory
  split
  · exact h
  · refine canonical_foldl (fun s i h => ?_) _ h
    show Memory.wf (if _ then _ else _ : List Host.Cell) = true
    split
    · exact wf_cellPut _ _ _ h
    · exact h

theorem canonical_upset (k : Nat) (x : Upset) (h : Canonical s) : Canonical (s.upset k x) := by
  unfold State.upset
  split
  · exact canonical_strikeMemory k _ h
  · split
    · exact canonical_modRegion _ _ h
    · exact h

theorem canonical_upsets (k : Nat) (xs : List Upset) (h : Canonical s) : Canonical (s.upsets k xs) := by
  induction xs generalizing k s with
  | nil => exact h
  | cons x xs ih => exact ih (k + 1) (canonical_upset k x h)

theorem canonical_beginTurn (h : Canonical s) : Canonical s.beginTurn := by
  unfold State.beginTurn
  extract_lets turn s1
  have h1 : Canonical s1 := canonical_alarmsDue (canonical_spill (canonical_settled h))
  refine canonical_upsets 0 _ (canonical_ipis _ ?_)
  refine canonical_foldl (fun _ w h => ?_) _ (canonical_of_mem rfl h1)
  exact canonical_of_mem rfl h

end

end Sys2Proof.Machine
end

section
/-! SUPPORT. The instructions of the CC go on and keep the canonical form of memory. -/

namespace Sys2Proof.Machine

section
variable {s : State} {d a t : BitVec 5}

/-! ### What the rows share -/

theorem goes_trapCustom (s : State) (i : Instr) : Goes s (.next (trapCustom s i)) := goes_of_mem rfl
theorem goes_trapIllegal (s : State) (w : W32) : Goes s (.next (trapIllegal s w)) := goes_of_mem rfl

theorem goes_onRegion {i : Instr} {handle : Nat} {locked : Bool} {f : Region → State} (hf : ∀ R, Canonical s → Canonical (f R)) :
    Goes s (onRegion s i d handle locked f) := by
  unfold onRegion
  split
  · exact goes_trapCustom s i
  · split
    · exact .of (canonical_retStatus d _)
    · split
      · exact .of (canonical_retStatus d _)
      · extract_lets moving
        clear_value moving
        split
        · exact .of (canonical_stallOn _ d _)
        · exact .of (hf _)

theorem canonical_withImage {rid : Nat} {x : ImgRes} {f : Bytes → State} (hf : ∀ b, Canonical (f b)) (h : Canonical s) :
    Canonical (withImage s rid d x f) := by
  unfold withImage
  split
  · exact canonical_stallOn _ d _ h
  · exact canonical_trapOperand _ _ h
  · exact canonical_retStatus d _ h
  · exact hf _

/-! ### Pages -/

theorem canonical_startMoves (ms : List (Nat × Nat × Nat)) (h : Canonical s) : Canonical (startMoves s ms) := by
  refine canonical_foldl (fun _ m h => ?_) ms h
  exact canonical_modRegion m.1 _ h

theorem canonical_startEvictions (rids : List Nat) (h : Canonical s) : Canonical (startEvictions s rids) := by
  refine canonical_foldl (fun _ r h => ?_) rids h
  exact canonical_modRegion r _ h

theorem canonical_findPages {p w hh : Nat} {img : Option Region} {fixed : Option (Nat × Nat)} {preempt : Bool} {u : State}
    (hu : findPages s p w hh img fixed preempt = .plan u) (h : Canonical s) : Canonical u := by
  unfold findPages at hu
  split at hu
  · split at hu <;> cases hu
  · split at hu
    · cases hu
    · split at hu
      · cases hu
        exact canonical_startMoves _ h
      · split at hu <;> cases hu
        exact canonical_startEvictions _ h

theorem canonical_allocAt (prio w hh x y : Nat) (h : Canonical s) : Canonical (allocAt s d prio w hh x y) := by
  unfold allocAt
  split
  · exact canonical_retStatus d _ h
  · exact canonical_retHigh d _ (canonical_of_mem rfl h)

theorem canonical_allocPages (v : Nat) (img : Option Region) (h : Canonical s) : Canonical (allocPages s d v img) := by
  unfold allocPages
  extract_lets w hh p fixed
  split
  · exact canonical_retStatus d _ h
  · split
    · exact canonical_allocAt _ _ _ _ _ h
    · exact canonical_stallOn _ d _ h
    · next u hu => exact canonical_stallOn _ d _ (canonical_findPages hu h)
    · exact canonical_retStatus d _ h

theorem goes_rgnAlloc : Goes s (execRgnAlloc d a t s) := by
  unfold execRgnAlloc
  extract_lets v
  refine goes_ite (goes_trapCustom s _) (goes_ite (.of (canonical_retStatus d _)) (goes_ite (.of (canonical_retStatus d _))
    (goes_ite (.of (canonical_stallOn _ d _)) (goes_ite (.of (canonical_allocPages v none)) (.of fun h => ?_)))))
  exact canonical_withImage (fun b => canonical_ite (canonical_retStatus d _ h) (canonical_allocPages v _ h)) h

/-! ### A region's instructions -/

theorem canonical_loadImage (R : Region) (P : Nat) (b : Bytes) (h : Canonical s) : Canonical (loadImage s d R P b) := by
  unfold loadImage
  simp only
  split
  · exact canonical_retStatus d _ h
  · split
    · exact canonical_retStatus d _ h
    · split
      · exact canonical_retire d _ h
      · split
        · exact canonical_retStatus d _ h
        · split
          · exact canonical_retStatus d _ h
          · refine canonical_stallOn _ d _ ?_
            split
            · exact canonical_modRegion _ _ (canonical_putRegion _ h)
            · exact canonical_putRegion _ h

theorem goes_rgnLoad : Goes s (execRgnLoad d a t s) := by
  unfold execRgnLoad
  extract_lets P
  refine goes_onRegion fun R h => ?_
  exact canonical_ite (canonical_retStatus d _ h) (canonical_ite (canonical_retStatus d _ h) (canonical_ite (canonical_retStatus d _ h)
    (canonical_withImage (fun b => canonical_loadImage R P b h) h)))

theorem goes_rgnStart : Goes s (execRgnStart d a t s) := by
  unfold execRgnStart
  refine goes_onRegion fun R h => ?_
  extract_lets v
  have hresume : Canonical (if v ≠ 0 then retStatus s d 0x03
      else if s.boot.thermtrip then retStatus s d 0x01
      else if R.roll.isSome || R.errand.isSome || (R.st = .frozen && R.provOpen s && R.pair.isNone) then stallOn s R.rid d .again
      else dispatchSends (retStatus (s.putRegion (R.resume s.cycle)) d 0x00) R.rid) :=
    canonical_ite (canonical_retStatus d _ h) (canonical_ite (canonical_retStatus d _ h) (canonical_ite (canonical_stallOn _ d _ h)
      (canonical_dispatchSends _ (canonical_retStatus d _ (canonical_putRegion _ h)))))
  split
  · split
    · exact canonical_retStatus d _ (canonical_putRegion _ h)
    · split
      · exact canonical_retStatus d _ h
      · exact canonical_ite (canonical_retStatus d _ h) (canonical_retStatus d _ (canonical_putRegion _ h))
  · exact hresume
  · exact hresume
  · exact canonical_retStatus d _ h

theorem goes_rgnFreeze : Goes s (execRgnFreeze d a s) :=
  goes_onRegion fun _ h => canonical_ite (canonical_retStatus d _ h) (canonical_ite (canonical_retStatus d _ h)
    (canonical_stallOn _ d _ (canonical_putRegion _ h)))

theorem goes_rgnDrain : Goes s (execRgnDrain d a s) :=
  goes_onRegion fun _ h => canonical_ite (canonical_retStatus d _ h) (canonical_stallOn _ d _ (canonical_putRegion _ h))

theorem goes_rgnSave : Goes s (execRgnSave d a t s) := by
  refine goes_onRegion fun R h => canonical_ite (canonical_retStatus d _ h) (canonical_ite (canonical_retStatus d _ h)
    (canonical_ite (canonical_stallOn _ d _ h) ?_))
  split
  · exact canonical_stallOn _ d _ h
  · exact canonical_trapOperand _ _ h
  · exact canonical_ite (canonical_stallOn _ d _ h) (canonical_retHigh d _ (canonical_operandWrite _ _ _ h))

theorem canonical_restImage (R : Region) (b : Bytes) (h : Canonical s) : Canonical (restImage s d R b) := by
  unfold restImage
  simp only
  split
  · exact canonical_retStatus d _ h
  · split
    · exact canonical_retStatus d _ h
    · split
      · exact canonical_retire d _ h
      · split
        · exact canonical_retStatus d _ h
        · exact canonical_retStatus d _ (canonical_adoptWaiting _ (canonical_askHeld _ (canonical_of_mem rfl h)))

theorem goes_rgnRest : Goes s (execRgnRest d a t s) :=
  goes_onRegion fun R h => canonical_ite (canonical_retStatus d _ h) (canonical_ite (canonical_retStatus d _ h)
    (canonical_withImage (fun b => canonical_restImage R b h) h))

theorem goes_rgnMove : Goes s (execRgnMove d a t s) := by
  refine goes_onRegion fun R h => ?_
  extract_lets v x y
  exact canonical_ite (canonical_retStatus d _ h) (canonical_ite (canonical_retStatus d _ h) (canonical_ite (canonical_retStatus d _ h)
    (canonical_ite (canonical_retStatus d _ h) (canonical_ite (canonical_retStatus d _ h) (canonical_ite (canonical_stallOn _ d _ h)
    (canonical_ite (canonical_stallOn _ d _ h) (canonical_retStatus d _ (canonical_putRegion _ h))))))))

theorem canonical_killRegion (R : Region) (h : Canonical s) : Canonical (killRegion s R) := by
  unfold killRegion
  extract_lets alone lines s1 home yard s2 s3 late undelivered links s4
  have h1 : Canonical s1 := canonical_restoreLines _ h
  have h2 : Canonical s2 := canonical_of_mem rfl h1
  have h3 : Canonical s3 := canonical_foldl (fun _ _ h => canonical_returnAllow _ _ _ h) _ h2
  have h4 : Canonical s4 := canonical_foldl (fun _ p h => canonical_dropItem p h) _ (canonical_of_mem rfl h3)
  exact canonical_foldl (fun _ _ h => canonical_queueUnreported h) _ (canonical_putRegion _ (canonical_dropPool _ h4))

theorem goes_rgnKill : Goes s (execRgnKill d a s) := goes_onRegion fun R h => canonical_retStatus d _ (canonical_killRegion R h)

theorem goes_rgnPrio : Goes s (execRgnPrio d a t s) :=
  goes_onRegion fun _ h => canonical_ite (canonical_retStatus d _ h) (canonical_retStatus d _ (canonical_putRegion _ h))

theorem goes_rgnStat : Goes s (execRgnStat d a t s) := by
  unfold execRgnStat
  extract_lets v rid block stale go
  have hgo (word rolls : Nat) (conf : Option (BitVec 12)) (fault : Option FaultRec) (x : XLog) {s1 s2 : State} (h : Canonical s)
      (h1 : Canonical s1) (h2 : Canonical s2) : Canonical (go word rolls conf fault x s1 s2) := by
    unfold go
    split
    · exact canonical_retire d _ h1
    · split
      · exact canonical_stallOn _ d _ h
      · exact canonical_trapOperand _ _ h
      · have hstored : Canonical (if bit (s.x t).toNat 0 then s2 else s1) := canonical_ite h2 h1
        exact canonical_retire d _ (canonical_operandWrite _ _ _ hstored)
  clear_value go
  split
  · exact goes_ite (.of (canonical_retStatus d _)) (.of fun h => hgo _ _ _ _ _ h h h)
  · exact goes_onRegion fun R h => canonical_ite (canonical_retStatus d _ h)
      (hgo _ _ _ _ _ h (canonical_putRegion _ h) (canonical_putRegion _ h))

/-! ### Calls -/

theorem canonical_modCall (f : Call → Call) (at_ : CallAt) (h : Canonical s) : Canonical (modCall s f at_) := (modCall_keeps s f at_).2.keepsWf h

theorem canonical_answered (at_ : CallAt) (c : Call) (h : Canonical s) : Canonical (answered s at_ c) := by
  unfold answered
  extract_lets s1 waiting
  have h1 : Canonical s1 := canonical_modCall _ at_ h
  exact canonical_ite (canonical_pend 0 h1) h1

theorem canonical_respond (at_ : CallAt) (c : Call) (b : Bytes) (h : Canonical s) : Canonical (respond s at_ c b) := by
  unfold respond
  simp only
  split
  · exact canonical_modRegion _ _ (canonical_answered _ c h)
  · exact canonical_of_mem rfl (canonical_answered _ c h)

theorem goes_callDone : Goes s (execCallDone d a s) := by
  unfold execCallDone
  split
  · exact goes_trapCustom s _
  · split
    · exact .of (canonical_stallOn _ d _)
    · exact .of (canonical_trapOperand _ _)
    · simp only
      split
      · exact .of (canonical_retStatus d _)
      · exact goes_ite (.of (canonical_retStatus d _)) (goes_ite (.of (canonical_retStatus d _))
          (.of fun h => canonical_retStatus d _ (canonical_respond _ _ _ h)))

/-! ### CSR accesses -/

theorem canonical_headAbsent (R : Region) (p : Parked) (u : UnitId) (h : Canonical s) : Canonical (headAbsent s R p u) := by
  unfold headAbsent
  split
  · exact h
  · exact canonical_takeFault _ _ h

theorem canonical_walkFault (R : Region) (w : Walk) (c : Cause) (h : Canonical s) : Canonical (walkFault s R w c) := by
  unfold walkFault
  split
  · split
    · exact canonical_ite (canonical_accFault _ _ _ _ _ _ h) h
    · exact h
  · split
    · exact canonical_ite h (canonical_strFault _ _ _ _ _ _ h)
    · exact h
  · split
    · exact canonical_takeFault _ _ h
    · exact h

theorem canonical_refuseParked (rid : Nat) (p : Parked) (h : Canonical s) : Canonical (refuseParked s rid p) := by
  unfold refuseParked
  split
  · exact h
  · extract_lets R s'
    have h' : Canonical s' := canonical_putRegion _ h
    clear_value s'
    split
    · split
      · exact canonical_answerSender _ _ _ _ (canonical_of_mem rfl h')
      · split
        · exact h'
        · split
          · exact h'
          · exact canonical_takeFault _ _ h'
    · exact canonical_headAbsent _ _ _ h'
    · exact canonical_headAbsent _ _ _ h'
    · exact canonical_headAbsent _ _ _ h'
    · exact canonical_headAbsent _ _ _ h'
    · exact canonical_walkFault _ _ _ h'

theorem goes_xparkRefuse (v : W64) : Goes s (execXparkRefuse v s) := by
  unfold execXparkRefuse
  split
  · exact goes_trapIllegal s _
  · split
    · exact .of canonical_retireNone
    · extract_lets s0
      split
      · exact goes_of_mem rfl
      · exact .of fun h => canonical_retireNone (canonical_foldl (fun _ q h => canonical_refuseParked _ q h) _ (canonical_of_mem rfl h))

theorem goes_invalidationComplete : Goes s (execInvalidationComplete s) := by
  unfold execInvalidationComplete
  split
  · exact goes_refl s
  · extract_lets yard s1 lo n hit
    split
    · exact goes_of_mem rfl
    · extract_lets pinned units again R1 s2
      clear_value R1 pinned
      split
      · exact goes_refl s
      · exact .of fun h => canonical_foldl (fun _ _ h => canonical_askWalk _ h) _ (canonical_putRegion R1 (canonical_of_mem rfl h : Canonical s1))

theorem goes_capdataWrite (v : W64) : Goes s (execCapdataWrite v s) := by
  unfold execCapdataWrite
  split
  · exact goes_trapIllegal s _
  · extract_lets mark
    have hmark {u : State} (err : Bool) (last : Option (Nat × Nat)) (h : Canonical u) : Canonical (mark err last u) := h
    clear_value mark
    split
    · exact .of (hmark true none)
    · exact goes_ite (.of (hmark true none)) (goes_ite (.of fun h => hmark _ _ (canonical_putRegion _ h))
        (.of fun h => hmark _ _ (canonical_dispatchSends _ (canonical_putRegion _ h))))

theorem goes_capabilityPendingApply (rid idx : Nat) : Goes s (execCapabilityPendingApply rid idx s) := by
  unfold execCapabilityPendingApply
  split
  · exact goes_refl s
  · split
    · exact goes_refl s
    · exact goes_ite (goes_refl s) (.of fun h => canonical_dispatchSends _ (canonical_putRegion _ h))

theorem goes_partselWrite (v : W64) : Goes s (execPartselWrite v s) := by
  unfold execPartselWrite
  split
  · exact goes_trapIllegal s _
  · extract_lets handle mark
    have hmark {u : State} (err : Bool) (h : Canonical u) : Canonical (mark err u) := h
    clear_value mark
    split
    · exact .of (hmark true)
    · exact goes_ite (.of (hmark true)) (.of fun h => hmark false (canonical_adoptWaiting _ (canonical_putRegion _ h)))

theorem goes_of_ccOut {P : State → Prop} {o : Host.Outcome State Fault Refusal} (h : CcOut d s P o) (hP : ∀ t, P t → KeepsWf s t) : Goes s o := by
  obtain ⟨t, ht, _, ht'⟩ := h
  exact ⟨t, ht, hP t ht'⟩

theorem goes_csrStore (csr : Nat) (v : W64) : Goes s (csrStore csr v s) := by
  unfold csrStore
  split
  · exact goes_xparkRefuse v
  · exact goes_of_ccOut (xinvcmd_frame (d := 0#5) v) fun _ => MemSame.keepsWf
  · exact goes_capdataWrite v
  · exact goes_partselWrite v
  · exact goes_of_ccOut (lnkdataWrite_frame (d := 0#5) v) fun _ => MemSame.keepsWf
  · exact .of fun h => canonical_retireNone ((yardWrite_keeps s _ _).2.keepsWf h)

theorem goes_csrWrite (csr : BitVec 12) (v : W64) : Goes s (execCsrWrite csr v s) := goes_ite (goes_csrStore _ v) (goes_trapIllegal s _)

theorem goes_callwin (tdi : Nat) (call : BitVec 512) : Goes s (execCallwin tdi call s) := by
  unfold execCallwin
  split
  · exact goes_refl s
  · extract_lets T n byte put full bad tok c s1
    have hput (T : Tdi) : Goes s (.next (put T)) := goes_of_mem rfl
    split
    · exact hput _
    · split
      · exact hput _
      · exact .of fun h => canonical_ite (canonical_pend 0 (canonical_of_mem rfl h)) (canonical_of_mem rfl h)

end

end Sys2Proof.Machine
end

section
/-! SUPPORT. The events of the network, the home agents, the links and the Yard go on and keep the canonical form of memory. -/

namespace Sys2Proof.Machine

section
variable {s : State}

/-! ### The network and the home agents -/

theorem goes_creditReturn (rid : Nat) : Goes s (execCreditReturn rid s) := by
  unfold execCreditReturn
  split
  · exact goes_refl s
  · split
    · exact .of fun h => canonical_ite (canonical_putRegion _ h) h
    · simp only
      split
      · split
        · exact .of (canonical_putRegion _)
        · exact .of fun h => canonical_dispatchSends _ (canonical_returnAllow _ _ _ (canonical_putRegion _ h))
      · exact .of (canonical_putRegion _)

theorem goes_cfuRequestServe (col : Nat) : Goes s (execCfuRequestServe col s) := by
  unfold execCfuRequestServe
  split
  · exact goes_refl s
  · exact goes_of_mem rfl

theorem goes_cfuReply (col : Nat) : Goes s (execCfuReply col s) := by
  unfold execCfuReply
  split
  · exact goes_refl s
  · exact goes_ite (.of (canonical_putRegion _)) (.of (canonical_putRegion _))

theorem canonical_takeUpAgain (rid : Nat) (a : Access) (i pa old : Nat) (h : Canonical s) : Canonical (s.takeUpAgain rid a i pa old) := by
  unfold State.takeUpAgain
  split
  · exact canonical_ite h (canonical_takeUp _ _ _ _ h)
  · exact canonical_ite (canonical_takeUp _ _ _ _ h) h

theorem canonical_rmwValue (rid slot : Nat) (a : Access) (i pa : Nat) (h : Canonical s) : Canonical (rmwValue s rid slot a i pa).1 := by
  unfold rmwValue
  extract_lets key R w n bad old
  clear_value key bad old w
  split
  · exact canonical_toPeer _ _ _ h
  · split
    · exact canonical_ite (canonical_memWrite _ _ _ (canonical_takeUp _ _ _ _ h)) h
    · simp only
      split
      · exact canonical_ite h (canonical_memWrite _ _ _ (canonical_takeUp _ _ _ _ h))
      · exact h

/-- A fold that carries a state keeps its canonical form where every step does. -/
theorem canonical_foldl_fst {α β : Type} {f : State × β → α → State × β} (hf : ∀ p a, Canonical p.1 → Canonical (f p a).1) (l : List α)
    {p : State × β} (h : Canonical p.1) : Canonical (l.foldl f p).1 := by
  induction l generalizing p with
  | nil => exact h
  | cons a l ih => exact ih (hf p a h)

theorem canonical_homeValues (R : Region) (a : Access) (q : HomeReq) (h : Canonical s) : Canonical (homeValues s R a q).1 := by
  unfold homeValues
  refine canonical_foldl_fst (fun p i hp => ?_) _ h
  simp only
  split
  · exact canonical_takeUpAgain _ _ _ _ _ hp
  · exact canonical_rmwValue _ _ _ _ _ hp

theorem goes_homeAgentRmw (k : Nat) : Goes s (execHomeAgentRmw k s) := by
  unfold execHomeAgentRmw
  split
  · exact goes_refl s
  · next q _ =>
    simp only
    split
    · exact goes_of_mem rfl
    · next R _ =>
      split
      · exact goes_of_mem rfl
      · next a _ =>
        split
        · exact goes_of_mem rfl
        · split
          · exact goes_refl s
          · refine .of fun h => canonical_modRegion _ _ ?_
            exact canonical_of_mem rfl (canonical_homeValues R a q (canonical_of_mem rfl h))

theorem goes_homeAgentOrdinalReport : Goes s (execHomeAgentOrdinalReport s) := by
  unfold execHomeAgentOrdinalReport
  split
  · exact goes_refl s
  · simp only
    split <;> exact goes_of_mem rfl

theorem goes_reservationExpiry (n : Nat) : Goes s (execReservationExpiry n s) := by
  unfold execReservationExpiry
  simp only
  split
  · exact goes_of_mem rfl
  · split
    · exact .of fun h => canonical_ite (canonical_modHart _ _ h) h
    · exact goes_refl s

theorem goes_pageWalkComplete (k : Nat) : Goes s (execPageWalkComplete k s) := by
  unfold execPageWalkComplete
  split
  · exact goes_refl s
  · simp only
    split
    · exact goes_of_mem rfl
    · split
      · exact goes_refl s
      · split
        · exact goes_of_mem rfl
        · split
          · exact goes_of_mem rfl
          · exact .of fun h => canonical_walkFault _ _ _ (canonical_of_mem rfl h)
          · exact .of fun h => canonical_queueReport _ _ (canonical_of_mem rfl h)

/-! ### Reductions and contributions to memory -/

theorem canonical_changeGlobal (slot keyRid pa n : Nat) (under : Option (BitVec 12)) (f : Nat → Nat) (h : Canonical s) :
    Canonical (changeGlobal s slot keyRid pa n under f) := by
  unfold changeGlobal
  extract_lets mine s1
  have h1 : Canonical s1 := canonical_ite h (canonical_writeBytes _ _ _ h)
  exact canonical_of_mem rfl h1

theorem canonical_homeFold (slot keyRid w n : Nat) (h : Canonical s) : Canonical (homeFold slot keyRid w n s) := by
  induction n generalizing s with
  | zero => exact h
  | succ n ih =>
    unfold homeFold
    extract_lets next
    split
    · exact h
    · extract_lets s1
      have h1 : Canonical s1 := canonical_ite h (canonical_changeGlobal _ _ _ _ _ _ h)
      exact ih (canonical_of_mem rfl h1)

theorem canonical_homeContribute (slot keyRid : Nat) (c : Contribution) (h : Canonical s) : Canonical (homeContribute s slot keyRid c) := by
  unfold homeContribute
  extract_lets next home s1
  refine canonical_ite (canonical_of_mem rfl h) ?_
  exact canonical_of_mem rfl (canonical_homeFold slot keyRid c.word _ (canonical_of_mem rfl h : Canonical s1))

/-! ### Accesses from outside -/

theorem canonical_agentAccess {agent slot pa : Nat} {op : MemOp} (h : Canonical s) :
    ∀ t, (agentAccess s agent slot pa op).map (·.1) = some t → Canonical t := by
  intro t ht
  obtain ⟨⟨u, v⟩, hu, rfl⟩ := Option.map_eq_some_iff.1 ht
  exact keepsWf_agentAccess hu h

theorem goes_hostMemoryAccess (tdi pa : Nat) (op : MemOp) : Goes s (execHostMemoryAccess tdi pa op s) := by
  unfold execHostMemoryAccess
  split
  · exact goes_ite (.of fun h => canonical_getD h (canonical_agentAccess h)) (goes_refl s)
  · split
    · exact goes_refl s
    · split
      · exact goes_refl s
      · exact .of fun h => canonical_getD h (canonical_agentAccess h)

theorem canonical_serveAccess {dev : Nat} {part : BitVec 16} {off : Nat} {op : MemOp} (h : Canonical s) :
    ∀ t, serveAccess s dev part off op = some t → Canonical t := by
  intro t ht
  unfold serveAccess at ht
  split at ht
  · cases ht
    exact h
  · split at ht
    · cases ht
      exact h
    · exact canonical_agentAccess h t ht

theorem canonical_dropPacket (port : Nat) (h : Canonical s) : Canonical (dropPacket s port) := canonical_raiseAlarm 2 3 (canonical_of_mem rfl h)

theorem goes_peerAccess (req : PeerReq) : Goes s (execPeerAccess req s) :=
  goes_ite (.of (canonical_dropPacket _)) (goes_ite (goes_refl s) (.of fun h => canonical_getD h (canonical_serveAccess h)))

theorem canonical_serveWindow {dev : Nat} {part : BitVec 16} {off : Nat} {bs : List Byte} (h : Canonical s) :
    ∀ t, serveWindow s dev part off bs = some t → Canonical t := by
  intro t ht
  unfold serveWindow at ht
  split at ht
  · cases ht
    exact h
  · split at ht
    · cases ht
    · split at ht <;> cases ht
      · exact h
      · exact canonical_agentWrite _ _ _ _ h

theorem canonical_serveAtomic {dev : Nat} {part : BitVec 16} {off op opx : Nat} {f : Fmt} {ws : List W32} (h : Canonical s) :
    ∀ t, serveAtomic s dev part off op opx f ws = some t → Canonical t := by
  intro t ht
  unfold serveAtomic at ht
  extract_lets n bad e v at ht
  split at ht
  · cases ht
    exact h
  · split at ht
    · cases ht
    · split at ht
      · cases ht
        exact h
      · extract_lets word old put c at ht
        have hput (m x : Nat) : Canonical (put m x) := canonical_ite h (canonical_agentWrite _ _ _ _ h)
        clear_value put
        cases ht
        exact canonical_ite (canonical_homeContribute _ _ _ h) (canonical_ite (canonical_ite (hput _ _) h)
          (canonical_ite (canonical_ite (hput _ _) h) (hput _ _)))

/-! ### The links -/

theorem canonical_settleInst (tree i : Nat) (o : Except (Nat × Nat × Nat) (List W32 × Bool)) (h : Canonical s) : Canonical (settleInst s tree i o) := by
  unfold settleInst
  split
  · exact h
  · extract_lets s1 s2 s3 done old
    have h2 : Canonical s2 := canonical_foldl (fun _ _ h => canonical_putOut _ _ h) _ (canonical_modInst tree i _ h)
    have h3 : Canonical s3 := by
      unfold s3
      split
      · exact canonical_localOutcome _ _ _ _ h2
      · exact h2
    exact canonical_of_mem rfl h3

theorem canonical_outcomeHere (tree i : Nat) (up : Body) (o : Except (Nat × Nat × Nat) (List W32 × Bool)) (h : Canonical s) :
    Canonical (outcomeHere s tree i up o) := by
  unfold outcomeHere
  extract_lets e pUp
  split
  · exact canonical_settleInst _ _ _ h
  · split
    · exact canonical_ite (canonical_modInst _ _ _ (canonical_putOut _ _ h)) (canonical_settleInst _ _ _ h)
    · exact canonical_modInst _ _ _ (canonical_putOut _ _ h)

theorem canonical_failInst (x : Inst) (cause : Nat) (h : Canonical s) : Canonical (failInst s x cause) := canonical_outcomeHere _ _ _ _ h

theorem canonical_treeArrival {port : Nat} {p : Packet} (h : Canonical s) : ∀ t, treeArrival s port p = some t → Canonical t := by
  intro t ht
  unfold treeArrival at ht
  split at ht
  · exact canonical_of_links (linksOnly_contribute ht) h
  · cases ht
    exact canonical_settleInst _ _ _ h
  · extract_lets e at ht
    split at ht
    · cases ht
      exact canonical_settleInst _ _ _ h
    · split at ht
      · cases ht
        exact canonical_outcomeHere _ _ _ _ h
      · cases ht
        exact canonical_outcomeHere _ _ _ _ (canonical_of_mem rfl h)
  · cases ht
    exact canonical_dispatchSends _ (canonical_returnAllow _ _ _ h)
  · exact canonical_serveWindow h t ht
  · exact canonical_serveAtomic h t ht
  · exact canonical_serveAccess h t ht
  · exact canonical_deliverItem ht h

theorem goes_packetReceive (port : Nat) (p : Packet) : Goes s (execPacketReceive port p s) := by
  unfold execPacketReceive
  split
  · exact goes_refl s
  · refine goes_ite (goes_refl s) (goes_ite (.of (canonical_dropPacket port)) (goes_ite (.of fun h => ?_) ?_))
    · refine canonical_getD h fun t ht => ?_
      obtain ⟨u, hu, rfl⟩ := Option.map_eq_some_iff.1 ht
      exact canonical_dispatchAll (canonical_treeArrival h u hu)
    · split
      · exact .of fun h => canonical_ite (canonical_putOut _ _ h) h
      · exact goes_refl s

theorem goes_linkAcknowledge (id : Nat) : Goes s (execLinkAcknowledge id s) := by
  unfold execLinkAcknowledge
  split
  · exact goes_refl s
  · exact .of fun h => canonical_dispatchSends _ (canonical_of_mem rfl h)

theorem goes_messageDelivery (rid k : Nat) : Goes s (execMessageDelivery rid k s) := by
  unfold execMessageDelivery
  split
  · exact goes_refl s
  · split
    · exact goes_refl s
    · split
      · exact goes_refl s
      · split
        · extract_lets waits behind
          split
          · exact goes_refl s
          · split
            · exact goes_refl s
            · extract_lets n words e hdr tok done
              have hdone (pins : List Tlb) : Goes s (.next (done pins)) := goes_of_mem rfl
              clear_value done
              split
              · exact hdone []
              · split
                · exact .of (canonical_takeFault _ _)
                · exact .of (canonical_takeFault _ _)
                · exact goes_ite (goes_refl s) (.of (canonical_queueReport _ _))
                · exact hdone _
        · exact goes_refl s

theorem goes_postDelivery (rid k : Nat) : Goes s (execPostDelivery rid k s) := by
  unfold execPostDelivery
  split
  · exact goes_refl s
  · split
    · extract_lets bytes links rest vas
      have hrest (status placed sent : Nat) (p : Packet) : Goes s (.next (answerSender rest p status placed sent)) := goes_of_mem rfl
      split
      · exact goes_refl s
      · split
        · exact hrest _ _ _ _
        · split
          · exact goes_refl s
          · split
            · exact hrest _ _ _ _
            · split
              · exact hrest _ _ _ _
              · exact hrest _ _ _ _
              · exact goes_ite (goes_refl s) (.of (canonical_queueReport _ _))
              · extract_lets pas w
                refine goes_ite (goes_refl s) (.of fun h => canonical_answerSender _ _ _ _ ?_)
                exact canonical_foldl (fun _ i h => canonical_writeBytes _ _ _ h) _ (canonical_of_mem rfl h)
    · exact goes_refl s

theorem goes_sendReportArrival (rid id status placed sent : Nat) : Goes s (execSendReportArrival rid id status placed sent s) := by
  unfold execSendReportArrival
  split
  · exact goes_refl s
  · split
    · exact goes_refl s
    · split
      · exact goes_refl s
      · exact goes_ite (goes_refl s) (goes_of_mem rfl)

theorem goes_nredCombine (tree inst : Nat) : Goes s (execNredCombine tree inst s) := by
  unfold execNredCombine
  split
  · exact goes_refl s
  · simp only
    split
    · exact goes_refl s
    · split
      · exact goes_refl s
      · exact goes_ite (.of fun h => canonical_dispatchAll (canonical_failInst _ _ h))
          (.of fun h => canonical_dispatchAll (canonical_outcomeHere _ _ _ _ h))

theorem goes_nredDeadline (tree inst : Nat) : Goes s (execNredDeadline tree inst s) := by
  unfold execNredDeadline
  split
  · exact goes_refl s
  · exact goes_ite (goes_refl s) (.of fun h => canonical_dispatchAll (canonical_failInst _ _ h))

theorem goes_portUpChange (port : Nat) (up : Bool) (peer : BitVec 20) : Goes s (execPortUpChange port up peer s) := by
  unfold execPortUpChange
  split
  · exact goes_refl s
  · refine goes_ite (goes_refl s) ?_
    extract_lets s1 s2 on
    refine .of fun h => canonical_dispatchAll ?_
    have h2 : Canonical s2 := canonical_pendMachine 17 (canonical_of_mem rfl h)
    exact canonical_ite h2 (canonical_foldl (fun _ x h => canonical_failInst x 1 h) _ h2)

theorem goes_callResponseDelivery (rid : Nat) : Goes s (execCallResponseDelivery rid s) := by
  unfold execCallResponseDelivery
  split
  · exact goes_refl s
  · split
    · exact goes_refl s
    · refine goes_ite (goes_refl s) ?_
      split
      · exact goes_refl s
      · exact goes_ite (goes_refl s) (goes_of_mem rfl)

theorem goes_probe (dev rid : Nat) (part : BitVec 16) (target : Nat) : Goes s (execProbe dev rid part target s) := by
  unfold execProbe
  split
  · exact goes_refl s
  · exact goes_ite (goes_refl s) (goes_of_mem rfl)

theorem goes_probeAnswer (rid dev target : Nat) : Goes s (execProbeAnswer rid dev target s) := by
  unfold execProbeAnswer
  split
  · exact goes_refl s
  · exact goes_ite (goes_refl s) (goes_of_mem rfl)

end

end Sys2Proof.Machine
end

section
/-! SUPPORT. The events of regions, rounds, strikes, the Trust Engine and the package go on and keep the canonical form of memory. -/

namespace Sys2Proof.Machine

section
variable {s : State}

/-! ### The life of a region -/

theorem goes_dieConfigAck (rid die : Nat) : Goes s (execDieConfigAck rid die s) := by
  unfold execDieConfigAck
  split
  · exact goes_refl s
  · refine goes_ite (goes_refl s) ?_
    extract_lets R1
    exact goes_ite (.of fun h => canonical_retireStalls _ _ _ (canonical_adoptWaiting _ (canonical_putRegion _ h))) (.of (canonical_putRegion _))

theorem goes_sourceRelease (rid : Nat) : Goes s (execSourceRelease rid s) := by
  unfold execSourceRelease
  split
  · exact goes_refl s
  · exact goes_ite (goes_refl s) (.of (canonical_putRegion _))

theorem canonical_quiesceRegion (R : Region) (h : Canonical s) : Canonical (quiesceRegion s R) := h

theorem canonical_toPool (R : Region) (off : Nat) (h : Canonical s) : Canonical (toPool s R off) := by
  unfold toPool
  extract_lets s1
  have h1 : Canonical s1 := by
    unfold s1
    split
    · exact canonical_writeBytes _ _ _ h
    · exact h
  exact canonical_of_mem rfl h1

theorem canonical_abandonTest (h : Canonical s) : Canonical (abandonTest s) := by
  unfold abandonTest
  exact canonical_foldl (fun _ rid h => canonical_dropPool rid h) _ (canonical_of_mem rfl h)

theorem canonical_finishAside (R : Region) (back : RState) (h : Canonical s) : Canonical (finishAside s R back) := by
  unfold finishAside
  split
  · exact canonical_abandonTest (canonical_putRegion _ h)
  · exact canonical_putRegion _ (canonical_toPool _ _ (canonical_putRegion _ h))

theorem canonical_finishErrand (R : Region) (e : Errand) (h : Canonical s) : Canonical (finishErrand s R e) := by
  unfold finishErrand
  split
  · split
    · exact canonical_putRegion _ h
    · extract_lets Q s1
      have h1 : Canonical s1 := canonical_toPool Q _ (canonical_putRegion Q h)
      clear_value s1
      exact canonical_pend 4 (canonical_putRegion _ h1)
  · exact canonical_ite (canonical_ite (canonical_putRegion _ h) (canonical_ite (canonical_pend 4 (canonical_putRegion _ h)) (canonical_putRegion _ h)))
      (canonical_ite (canonical_putRegion _ h) (canonical_ite (canonical_finishAside R _ h) (canonical_putRegion _ h)))
  · exact canonical_finishAside R _ h

theorem canonical_settleDrain (R : Region) (h : Canonical s) : Canonical (settleDrain s R) := by
  have h1 : Canonical (quiesceRegion s R) := canonical_quiesceRegion R h
  unfold settleDrain
  generalize quiesceRegion s R = s1 at h1
  simp only
  split
  · exact h1
  · split
    · exact canonical_finishErrand _ _ h1
    · exact canonical_retireStalls _ _ _ (canonical_putRegion _ h1)

theorem goes_freezeHaltReport (rid : Nat) : Goes s (execFreezeHaltReport rid s) := by
  unfold execFreezeHaltReport
  split
  · exact goes_refl s
  · extract_lets R feeds
    clear_value feeds
    exact goes_ite (goes_refl s) (goes_ite (.of (canonical_settleDrain _)) (goes_ite (goes_refl s) (goes_ite (goes_refl s)
      (goes_ite (.of fun h => canonical_retireStalls _ _ _ (canonical_putRegion _ h))
      (goes_ite (.of fun h => canonical_retireStalls _ _ _ (canonical_putRegion _ h)) (goes_ite (.of (canonical_putRegion _))
      (goes_ite (.of (canonical_settleDrain _)) (.of (canonical_putRegion _)))))))))

theorem goes_drainLinkdown (rid : Nat) : Goes s (execDrainLinkdown rid s) := by
  unfold execDrainLinkdown
  split
  · exact goes_refl s
  · next R _ =>
    refine goes_ite (goes_refl s) ?_
    extract_lets s1
    have h1 (h : Canonical s) : Canonical s1 := canonical_quiesceRegion R h
    clear_value s1
    split
    · exact goes_refl s
    · split
      · exact .of fun h => canonical_putRegion _ (h1 h)
      · exact .of fun h => canonical_ite (canonical_abandonTest (canonical_putRegion _ (h1 h))) (canonical_putRegion _ (h1 h))
      · exact .of fun h => canonical_abandonTest (canonical_putRegion _ (h1 h))
      · exact .of fun h => canonical_retireStalls _ _ _ (canonical_putRegion _ (h1 h))

theorem goes_killComplete (rid : Nat) : Goes s (execKillComplete rid s) := by
  unfold execKillComplete
  split
  · exact goes_refl s
  · exact goes_ite (goes_refl s) (goes_of_mem rfl)

theorem canonical_makeRoom (R : Region) (vs : List Nat) (h : Canonical s) : Canonical (makeRoom s R vs) :=
  canonical_of_mem rfl (canonical_startEvictions vs h)

theorem goes_yardSliceExpiry (rid : Nat) : Goes s (execYardSliceExpiry rid s) := by
  unfold execYardSliceExpiry
  split
  · exact goes_refl s
  · refine goes_ite (goes_refl s) (goes_ite (goes_ite (.of (canonical_putRegion _)) (.of (canonical_startEvictions _))) (goes_ite (goes_refl s) ?_))
    simp only
    split
    · exact .of (canonical_makeRoom _ _)
    · exact goes_refl s

theorem goes_yardMinimumShare (rid : Nat) : Goes s (execYardMinimumShare rid s) := by
  unfold execYardMinimumShare
  split
  · exact goes_refl s
  · refine goes_ite (goes_refl s) (goes_ite (goes_of_mem rfl) (goes_ite (goes_refl s) ?_))
    simp only
    split
    · exact .of fun h => canonical_makeRoom _ _ (canonical_putRegion _ h)
    · exact goes_refl s

theorem goes_yardRestore (rid : Nat) : Goes s (execYardRestore rid s) := by
  unfold execYardRestore
  split
  · exact goes_refl s
  · refine goes_ite (goes_refl s) ?_
    split
    · exact goes_ite (goes_refl s) (.of fun h => canonical_adoptWaiting _ (canonical_of_mem rfl h))
    · extract_lets s1
      refine goes_ite (goes_of_mem rfl) ?_
      split
      · exact .of fun h => canonical_startMoves _ (canonical_of_mem rfl h)
      · exact goes_of_mem rfl

/-! ### Rounds -/

theorem goes_roundSeal (rid : Nat) : Goes s (execRoundSeal rid s) := by
  unfold execRoundSeal
  split
  · exact goes_refl s
  · exact .of fun h => canonical_ite (canonical_putRegion _ h) h

theorem canonical_releaseEntry (slot keyRid : Nat) (x : Held) (h : Canonical s) : Canonical (releaseEntry s slot keyRid x) := by
  unfold releaseEntry
  split
  · exact h
  · extract_lets d ws under
    split
    · exact canonical_foldl (fun _ _ h => canonical_changeGlobal _ _ _ _ _ _ h) _ h
    · split
      · exact canonical_foldl (fun _ _ h => canonical_ite h (canonical_toPeer _ _ _ h)) _ h
      · exact canonical_ite (canonical_foldl (fun _ _ h => canonical_homeContribute _ _ _ h) _ h)
          (canonical_ite (canonical_foldl (fun _ _ h => canonical_ite h (canonical_changeGlobal _ _ _ _ _ _ h)) _ h)
            (canonical_foldl (fun _ _ h => canonical_ite h (canonical_changeGlobal _ _ _ _ _ _ h)) _ h))

theorem canonical_release (R : Region) (x : Held) (h : Canonical s) : Canonical (R.release s x) := by
  unfold Region.release
  split
  · exact canonical_releaseEntry _ _ x h
  · exact canonical_takeFault _ _ h

theorem canonical_confirmOne {rid : Nat} (h : Canonical s) : ∀ t, confirmOne s rid = some t → Canonical t := by
  intro t ht
  unfold confirmOne at ht
  split at ht
  · cases ht
  · split at ht
    · cases ht
    · extract_lets mine pair lines partnerDone s1 keep shown home s2 R1 s3 s4 at ht
      have h1 : Canonical s1 := canonical_ite h (canonical_foldl (fun _ x h => canonical_release _ x h) _ h)
      have h2 : Canonical s2 := canonical_foldl (fun _ _ h => canonical_breakResv _ _ h) _ (canonical_of_mem rfl h1)
      have h3 : Canonical s3 := canonical_entered (canonical_putRegion _ h2)
      have h4 : Canonical s4 := canonical_ite (canonical_pend 0 h3) h3
      clear_value s4
      split at ht
      · cases ht
      · split at ht
        · cases ht
        · split at ht <;> cases ht
          exact canonical_dispatchAll (canonical_of_mem rfl (canonical_recheck rid (canonical_noteEos rid h4)))

theorem goes_roundConfirm (rid : Nat) : Goes s (execRoundConfirm rid s) := .of fun h => canonical_getD h (canonical_confirmOne h)

theorem canonical_confirmDue (rid n : Nat) (h : Canonical s) : Canonical (confirmDue rid n s) := by
  induction n generalizing s with
  | zero => exact h
  | succ n ih =>
    unfold confirmDue
    split
    · next s' hs' => exact ih (canonical_confirmOne h s' hs')
    · exact h

theorem canonical_releaseComp (c : Comp) (h : Canonical s) : Canonical (releaseComp s c) := by
  unfold releaseComp
  split
  · exact h
  · split
    · exact canonical_release _ _ h
    · exact canonical_dispatchSends _ (canonical_putRegion _ h)
    · exact canonical_ite (canonical_pend 0 (canonical_putRegion _ h)) (canonical_putRegion _ h)

theorem goes_comparatorMatch (k : Nat) : Goes s (execComparatorMatch k s) := by
  unfold execComparatorMatch
  split
  · exact goes_refl s
  · split
    · exact goes_of_mem rfl
    · split
      · exact goes_refl s
      · extract_lets lost isLine before both
        have hboth : Goes s (.next both) := .of fun h => canonical_takeFault _ _ (canonical_takeFault _ _ h)
        clear_value both lost before
        split
        · refine goes_ite hboth (goes_ite (goes_refl s) ?_)
          split
          · exact goes_ite (goes_refl s) (.of fun h => canonical_releaseComp _ (canonical_of_mem rfl h))
          · exact .of fun h => canonical_releaseComp _ (canonical_of_mem rfl h)
        · exact goes_ite (goes_refl s) hboth

/-! ### Rollbacks -/

theorem canonical_rollHome (keyRid : Nat) (c : Option (BitVec 12)) (h : Canonical s) : Canonical (rollHome s keyRid c) := by
  unfold rollHome
  extract_lets mine s1
  exact canonical_of_mem rfl (canonical_restoreLines _ h : Canonical s1)

theorem canonical_rollRegion (rid : Nat) (c : Option (BitVec 12)) (replay keepFault : Bool) (h : Canonical s) :
    Canonical (rollRegion s rid c replay keepFault) := by
  unfold rollRegion
  split
  · exact h
  · extract_lets R1 s1 mark
    have h1 : Canonical s1 := h
    exact canonical_ite (canonical_of_mem rfl h1) (canonical_ite (canonical_of_mem rfl h1) (canonical_rollHome _ _ h1))

theorem canonical_rollWith (R : Region) (c : Option (BitVec 12)) (replay keepFault : Bool) (f : Region → Region) (h : Canonical s) :
    Canonical (rollWith s R c replay keepFault f) := by
  unfold rollWith
  extract_lets s1
  have h1 : Canonical s1 := canonical_modRegion _ _ (canonical_rollRegion _ _ _ _ h)
  split
  · exact canonical_takeFault _ _ h1
  · exact h1

theorem canonical_rollOpen (R : Region) (h : Canonical s) : Canonical (rollOpen s R) :=
  canonical_ite (canonical_countRollback (canonical_rollWith _ _ _ _ _ h)) h

theorem canonical_rollPair (R Q : Region) (h : Canonical s) : Canonical (rollPair s R Q) :=
  canonical_ite (canonical_rollOpen R h) (canonical_rollHome _ _ (canonical_rollOpen Q (canonical_rollOpen R h)))

theorem goes_rollback (rid : Nat) : Goes s (execRollback rid s) := by
  unfold execRollback
  split
  · exact goes_refl s
  · split
    · extract_lets s1 s2
      refine .of fun h => canonical_recheck rid ?_
      have h1 : Canonical s1 := canonical_countRollback (canonical_rollWith _ _ _ _ _ h)
      unfold s2
      split
      · exact canonical_takeFault _ _ h1
      · exact h1
    · refine goes_ite (goes_refl s) ?_
      split
      · exact .of fun h => canonical_countRollback (canonical_rollWith _ _ _ _ _ h)
      · exact goes_ite (goes_refl s) (.of (canonical_rollPair _ _))

theorem goes_roundReplay (rid : Nat) : Goes s (execRoundReplay rid s) := by
  unfold execRoundReplay
  split
  · exact goes_refl s
  · split
    · exact goes_refl s
    · exact goes_ite (goes_refl s) (goes_ite (.of fun h => canonical_takeFault _ _ (canonical_putRegion _ h))
        (.of fun h => canonical_recheck _ (canonical_rollWith _ _ _ _ _ h)))

/-! ### Strikes and tests -/

theorem goes_strikeReport (die cx cy : Nat) : Goes s (execStrikeReport die cx cy s) := by
  unfold execStrikeReport
  refine goes_ite (goes_refl s) ?_
  extract_lets s0 y s1 s2 s3 area s4
  have h0 (h : Canonical s) : Canonical s0 := canonical_foldl (fun _ R h => canonical_confirmDue _ _ h) _ h
  have h1 (h : Canonical s) : Canonical s1 := canonical_of_mem rfl (h0 h)
  have h3 (h : Canonical s) : Canonical s3 := canonical_ite (canonical_abandonTest (canonical_pend 5 (h1 h))) (canonical_pend 5 (h1 h))
  have h4 (h : Canonical s) : Canonical s4 := canonical_of_mem rfl (h3 h)
  exact goes_ite (.of h1) (.of fun h => canonical_foldl (fun _ _ h => canonical_retireStalls _ _ _ h) _ (h4 h))

theorem goes_asaSelfCheck (die cx cy : Nat) (allFail : Bool) : Goes s (execAsaSelfCheck die cx cy allFail s) :=
  goes_ite (goes_refl s) (goes_of_mem rfl)

theorem canonical_yardMove (R : Region) (x y : Nat) (h : Canonical s) : Canonical (yardMove s R x y) :=
  canonical_ite (canonical_putRegion _ h) (canonical_putRegion _ h)

theorem goes_deafCellMove (rid : Nat) : Goes s (execDeafCellMove rid s) := by
  unfold execDeafCellMove
  split
  · exact goes_refl s
  · refine goes_ite (goes_refl s) ?_
    split
    · exact goes_refl s
    · exact goes_ite (goes_refl s) (.of (canonical_yardMove _ _ _))

theorem canonical_setAside (R : Region) (h : Canonical s) : Canonical (setAside s R) :=
  canonical_ite (canonical_finishErrand _ _ h) (canonical_putRegion _ h)

theorem goes_iftInterval : Goes s (execIftInterval s) := by
  unfold execIftInterval
  split
  · exact goes_refl s
  · extract_lets s1 rs
    refine goes_ite (goes_refl s) ?_
    split
    · exact goes_refl s
    · refine .of fun h => canonical_foldl (fun s p h => ?_) _ (canonical_of_mem rfl h)
      split
      · exact canonical_yardMove _ _ _ h
      · exact canonical_setAside _ h
      · exact h

theorem canonical_rehome (R : Region) (h : Canonical s) : Canonical (rehome s R) := by
  unfold rehome
  split
  · exact canonical_dropPool _ (canonical_putRegion _ h)
  · exact canonical_putRegion _ h

theorem goes_scanSelfTestDone (passed : Bool) : Goes s (execScanSelfTestDone passed s) := by
  unfold execScanSelfTestDone
  split
  · exact goes_refl s
  · exact goes_ite (goes_refl s) (goes_ite (.of fun h => canonical_abandonTest (canonical_of_mem rfl h))
      (.of fun h => canonical_foldl (fun _ R h => canonical_rehome R h) _ (canonical_of_mem rfl h)))

/-! ### The Trust Engine -/

theorem canonical_answer (x : Spdm) (h : Canonical s) : Canonical (answer s x) := h
theorem goes_answer (s : State) (x : Spdm) : Goes s (.next (answer s x)) := goes_of_mem rfl

theorem goes_getCertificate (slot off len : Nat) : Goes s (execGetCertificate slot off len s) := by
  unfold execGetCertificate
  split <;> exact goes_answer s _

theorem goes_challenge (slot : Nat) (nonce : BitVec 256) : Goes s (execChallenge slot nonce s) := by
  unfold execChallenge
  split <;> exact goes_answer s _

theorem goes_getMeasurements (slot idx : Nat) (nonce : BitVec 256) : Goes s (execGetMeasurements slot idx nonce s) := by
  unfold execGetMeasurements
  split
  · exact goes_ite (goes_answer s _) (goes_answer s _)
  · exact goes_answer s _

theorem goes_keyExchange (owner : Option Nat) : Goes s (execKeyExchange owner s) := goes_ite (goes_answer s _) (goes_of_mem rfl)

theorem goes_onSession {id : Nat} {finished : Bool} {f : Session → State} (hf : ∀ x, Canonical s → Canonical (f x)) :
    Goes s (onSession s id finished f) := by
  unfold onSession
  split
  · exact goes_answer s _
  · exact .of (hf _)

theorem canonical_modTdi (tdi : Nat) (on : Tdisp → Bool) (f : Tdi → Tdi) (h : Canonical s) : Canonical (modTdi s tdi on f) := h

theorem goes_vendorDefined (session : Nat) (msg : VendorMsg) : Goes s (execVendorDefined session msg s) := by
  unfold execVendorDefined
  extract_lets tdi
  refine goes_onSession fun x h => ?_
  refine canonical_ite (canonical_answer _ h) (canonical_answer _ ?_)
  cases msg <;> exact canonical_modTdi _ _ _ h

theorem goes_debugAccess (n pa : Nat) : Goes s (execDebugAccess n pa s) := .of fun h => canonical_ite h (canonical_raiseAlarm 4 5 h)

theorem goes_treHourlySelfTest (passed : Bool) : Goes s (execTreHourlySelfTest passed s) := .of fun h => canonical_ite h (canonical_raiseAlarm 5 6 h)

/-! ### Resets and bring-up -/

theorem canonical_warmReset (h : Canonical s) : Canonical (warmReset s) := by
  have h1 := canonical_eraseSlot 0 h
  unfold warmReset
  exact canonical_of_mem rfl h1

theorem goes_pwrgdFail (railsLost : Bool) : Goes s (execPwrgdFail railsLost s) :=
  .of fun h => canonical_ite (canonical_forgetMemory (canonical_warmReset h)) (canonical_warmReset h)

theorem goes_pllLockTimeout : Goes s (execPllLockTimeout s) := goes_ite (goes_of_mem rfl) (goes_refl s)

theorem goes_pwrgdAssert (powerOn lpddr : Bool) : Goes s (execPwrgdAssert powerOn lpddr s) := by
  unfold execPwrgdAssert
  refine goes_ite (goes_refl s) ?_
  extract_lets boot on s1 yard trust
  have h1 : Canonical s → Canonical s1 := fun h => canonical_forgetMemory (canonical_of_mem rfl h : Canonical on)
  exact goes_ite (.of fun h => canonical_of_mem rfl (h1 h)) (goes_of_mem rfl)

theorem canonical_readFuses (h : Canonical s) : Canonical (readFuses s) := by
  unfold readFuses
  extract_lets bad trust s1 s2 code s3
  have h1 : Canonical s1 := h
  have h2 : Canonical s2 := canonical_ite h1 (canonical_raiseAlarm 5 7 h1)
  have h3 : Canonical s3 := canonical_ite (canonical_eraseTenants (canonical_eraseSlot 0 h2)) h2
  exact canonical_of_mem rfl h3

theorem canonical_measured (d : Nat) (D0 D1 D2 : List Byte) (h : Canonical s) :
    Canonical (extendMeas (extendMeas (extendMeas s d 0 D0) d 0 D1) d 0 D2) := h

theorem canonical_measureDies (h : Canonical s) : Canonical (measureDies s) := by
  unfold measureDies
  refine canonical_foldl ?_ _ h
  intro s d
  exact canonical_measured d _ _ _

theorem canonical_bootFail (n : Nat) (h : Canonical s) : Canonical (bootFail s n) := h

theorem goes_pllLock (tests fwOk : Bool) : Goes s (execPllLock tests fwOk s) := by
  unfold execPllLock
  refine goes_ite (goes_refl s) ?_
  extract_lets s1 s2 s3 boot
  have h1 : Canonical s → Canonical s1 := canonical_readFuses
  clear_value s1
  have h2 : Canonical s1 → Canonical s2 := canonical_measureDies
  clear_value s2
  have h3 : Canonical s2 → Canonical s3 := canonical_extendMeas 0 1 (bytes32 (Config.imageDigest 6))
  clear_value s3
  exact goes_ite (.of fun h => canonical_bootFail 4 (canonical_raiseAlarm 5 6 (h1 h))) (goes_ite (.of fun h => canonical_bootFail 5 (h2 (h1 h)))
    (.of fun h => canonical_of_mem rfl (h3 (h2 (h1 h)))))

theorem goes_memoryTrainingDone (trained fwOk : Bool) : Goes s (execMemoryTrainingDone trained fwOk s) := by
  unfold execMemoryTrainingDone
  refine goes_ite (goes_refl s) (goes_ite (goes_of_mem rfl) ?_)
  extract_lets s1 key s0 trust s2 s3 boot s4
  have h1 : Canonical s → Canonical s1 := fun h => canonical_ite (canonical_forgetMemory h) h
  have h2 : Canonical s → Canonical s2 := fun h => canonical_of_mem rfl (canonical_zeroFabric (h1 h))
  have h3 : Canonical s → Canonical s3 := fun h => canonical_extendMeas 0 2 _ (h2 h)
  clear_value s3 s2
  exact goes_ite (.of fun h => canonical_bootFail 7 (h2 h)) (.of fun h => canonical_modHart _ _ (canonical_of_mem rfl (h3 h) : Canonical s4))

end

end Sys2Proof.Machine
end

section
/-! SUPPORT. The instructions of the base architecture, every row, and a turn: each goes on and keeps global memory canonical. -/

namespace Sys2Proof.Machine

section
variable {s : State} {d : BitVec 5}

/-! ### The base architecture -/

theorem goes_onHart (f : Hart → Hart) : Goes s (s.onHart f) := goes_of_mem rfl

theorem goes_writeRd (b : BaseWord) (v : Option W64) : Goes s (writeRd s b v) := by
  cases v with
  | none => exact goes_trapIllegal s b.raw
  | some v => exact goes_onHart _

theorem goes_baseAccess (va : W64) (op : MemOp) (fin : Hart → W64 → Hart) : Goes s (baseAccess s va op fin) := by
  unfold baseAccess
  refine goes_ite (goes_onHart _) ?_
  split
  · exact goes_onHart _
  · split
    · exact goes_refl s
    · next haccess => exact .of fun h => canonical_modHart _ _ (keepsWf_agentAccess haccess h)

theorem goes_baseLoadStore (b : BaseWord) (isStore : Bool) : Goes s (baseLoadStore s b isStore) :=
  goes_ite (goes_ite (goes_trapIllegal s _) (goes_baseAccess _ _ _)) (goes_ite (goes_trapIllegal s _) (goes_baseAccess _ _ _))

theorem goes_baseFloatMem (b : BaseWord) (isStore : Bool) : Goes s (baseFloatMem s b isStore) :=
  goes_ite (goes_trapIllegal s _) (goes_ite (goes_baseAccess _ _ _) (goes_baseAccess _ _ _))

theorem goes_baseAmo (b : BaseWord) : Goes s (baseAmo s b) := by
  unfold baseAmo
  extract_lets f3 f5 rd v op
  clear_value op
  split
  · exact goes_trapIllegal s _
  · exact goes_baseAccess _ _ _

theorem goes_baseMisc (b : BaseWord) : Goes s (baseMisc s b) := by
  unfold baseMisc
  extract_lets H env va cbo
  have hcbo (ok : Bool) : Goes s (cbo ok) := by
    refine goes_ite (goes_trapIllegal s _) ?_
    split
    · exact goes_onHart _
    · exact goes_onHart _
  clear_value cbo
  split
  · exact goes_onHart _
  · exact goes_onHart _
  · refine goes_ite (goes_trapIllegal s _) ?_
    split
    · exact hcbo _
    · exact hcbo _
    · exact hcbo _
    · exact goes_trapIllegal s _
  · exact goes_trapIllegal s _

theorem goes_baseFloat (b : BaseWord) (op : Nat) : Goes s (baseFloat s b op) := by
  unfold baseFloat
  extract_lets H fr frm dbl r
  clear_value r
  refine goes_ite (goes_trapIllegal s _) ?_
  split
  · exact goes_trapIllegal s _
  · exact goes_onHart _

theorem goes_baseJump (b : BaseWord) (target : W64) : Goes s (baseJump s b target) := goes_onHart _

theorem canonical_csrRead (csr : Nat) (h : Canonical s) : Canonical (csrRead s csr).1 := by
  unfold csrRead
  split
  · split
    · exact h
    · next hpop => exact canonical_queueUnreported ((popReport_keeps hpop).2.keepsWf h)
  · exact h
  · exact h

theorem goes_csrInstr (f3 csr : Nat) (z : Bool) (src : W64) (w : W32) : Goes s (csrInstr f3 csr d z src w s) := by
  unfold csrInstr
  extract_lets rd wr put r
  have hput (v : W64) {s1 : State} {o : Host.Outcome State Fault Refusal} (h1 : Canonical s → Canonical s1) (ho : Goes s1 o) : Goes s (put v o) := by
    obtain ⟨t, rfl, ht⟩ := ho
    exact .of fun h => canonical_ite (ht (h1 h)) (canonical_modHart _ _ (ht (h1 h)))
  clear_value put
  refine goes_ite (goes_trapIllegal s w) (goes_ite (goes_ite (goes_trapIllegal s w) ?_) ?_)
  · have hr : Canonical s → Canonical r.1 := by
      intro h
      show Canonical (if rd = true then csrRead s csr else (s, 0#64)).1
      split
      · exact canonical_csrRead csr h
      · exact h
    exact goes_ite (hput _ hr (goes_csrStore _ _)) (.of fun h => canonical_retire _ _ (hr h))
  · split
    · exact goes_trapIllegal s w
    · exact .of fun h => canonical_retire _ _ (canonical_ite (canonical_modHart _ _ h) h)

theorem goes_baseSystem (b : BaseWord) : Goes s (baseSystem s b) := by
  unfold baseSystem
  extract_lets H f3 m
  have htrap : Goes s (.next (trapIllegal s b.raw)) := goes_trapIllegal s b.raw
  refine goes_ite (goes_csrInstr _ _ _ _ _) (goes_ite htrap (goes_ite (goes_ite htrap (goes_onHart _)) (goes_ite htrap ?_)))
  split
  · exact goes_onHart _
  · exact goes_onHart _
  · exact goes_ite htrap (goes_onHart _)
  · exact goes_ite (goes_onHart _) htrap
  · exact goes_ite htrap (goes_onHart _)
  · exact htrap

theorem goes_base (b : BaseWord) : Goes s (execBase b s) := by
  unfold execBase
  extract_lets w pc a y
  split
  case h_1 => exact goes_baseLoadStore b false
  case h_2 => exact goes_baseFloatMem b false
  case h_3 => exact goes_baseMisc b
  case h_7 => exact goes_baseLoadStore b true
  case h_8 => exact goes_baseFloatMem b true
  case h_9 => exact goes_baseAmo b
  case h_18 =>
    split
    · exact goes_trapIllegal s _
    · exact goes_onHart _
  case h_19 => exact goes_ite (goes_baseJump b _) (goes_trapIllegal s _)
  case h_20 => exact goes_baseJump b _
  case h_21 => exact goes_baseSystem b
  case h_22 => exact goes_trapIllegal s _
  case h_13 | h_14 | h_15 | h_16 | h_17 => exact goes_baseFloat b _
  all_goals exact goes_writeRd b _

/-! ### Rows -/

theorem goes_of_framed {q : Bool} {o : Host.Outcome State Fault Refusal} (h : ∃ t, o = .next t ∧ Framed q s t) : Goes s o := by
  obtain ⟨t, rfl, hnone, hsome⟩ := h
  refine .of fun h => ?_
  cases hrid : s.turnRegion with
  | none => exact hnone hrid ▸ h
  | some rid => exact canonical_of_only (hsome rid hrid).1 h

theorem goes_record {i : Instr} (h : (opOf i).isSome = true) : Goes s (exec i s) := goes_of_framed (exec_record_framed h s)

theorem goes_head {i : Instr} (h : headRow i = true) : Goes s (exec i s) := goes_of_framed (exec_head_framed h s)

theorem goes_regionEvent {i : Instr} {rid : Nat} (h : eventRegion i = some rid) : Goes s (exec i s) := by
  obtain ⟨t, ht, honly | ⟨_, u, _, honly, rfl, _⟩⟩ := regionEvent_frame h s
  · exact ht ▸ .of (canonical_of_only honly)
  · exact ht ▸ .of fun h => canonical_dispatchSends rid (canonical_of_only honly h)

theorem goes_ccRow {i : Instr} (h : Claim.ccRow i = true) : Goes s (exec i s) :=
  goes_of_ccOut (ccRow_frame h s) fun _ ⟨_, _, _, hkeeps⟩ => hkeeps

/-- The rows that are not framed as those of a region, of a unit or of the CC. -/
def ownRow (i : Instr) : Bool := (opOf i).isNone && !headRow i && (eventRegion i).isNone && !Claim.ccRow i

theorem goes_ownRow {i : Instr} (h : ownRow i = true) : Goes s (exec i s) := by
  cases i
  case rgnAlloc => exact goes_rgnAlloc
  case rgnLoad => exact goes_rgnLoad
  case rgnStart => exact goes_rgnStart
  case rgnFreeze => exact goes_rgnFreeze
  case rgnDrain => exact goes_rgnDrain
  case rgnSave => exact goes_rgnSave
  case rgnRest => exact goes_rgnRest
  case rgnMove => exact goes_rgnMove
  case rgnKill => exact goes_rgnKill
  case rgnPrio => exact goes_rgnPrio
  case rgnStat => exact goes_rgnStat
  case callDone => exact goes_callDone
  case xparkRefuse => exact goes_xparkRefuse _
  case invalidationComplete => exact goes_invalidationComplete
  case capdataWrite => exact goes_capdataWrite _
  case capabilityPendingApply => exact goes_capabilityPendingApply _ _
  case partselWrite => exact goes_partselWrite _
  case csrWrite => exact goes_csrWrite _ _
  case callwin => exact goes_callwin _ _
  case pwrgdAssert => exact goes_pwrgdAssert _ _
  case pllLock => exact goes_pllLock _ _
  case memoryTrainingDone => exact goes_memoryTrainingDone _ _
  case creditReturn => exact goes_creditReturn _
  case packetReceive => exact goes_packetReceive _ _
  case cfuRequestServe => exact goes_cfuRequestServe _
  case cfuReply => exact goes_cfuReply _
  case homeAgentRmw => exact goes_homeAgentRmw _
  case homeAgentOrdinalReport => exact goes_homeAgentOrdinalReport
  case reservationExpiry => exact goes_reservationExpiry _
  case pageWalkComplete => exact goes_pageWalkComplete _
  case linkAcknowledge => exact goes_linkAcknowledge _
  case messageDelivery => exact goes_messageDelivery _ _
  case postDelivery => exact goes_postDelivery _ _
  case sendReportArrival => exact goes_sendReportArrival _ _ _ _ _
  case nredCombine => exact goes_nredCombine _ _
  case nredDeadline => exact goes_nredDeadline _ _
  case portUpChange => exact goes_portUpChange _ _ _
  case peerAccess => exact goes_peerAccess _
  case hostMemoryAccess => exact goes_hostMemoryAccess _ _ _
  case callResponseDelivery => exact goes_callResponseDelivery _
  case probe => exact goes_probe _ _ _ _
  case probeAnswer => exact goes_probeAnswer _ _ _
  case dieConfigAck => exact goes_dieConfigAck _ _
  case sourceRelease => exact goes_sourceRelease _
  case freezeHaltReport => exact goes_freezeHaltReport _
  case drainLinkdown => exact goes_drainLinkdown _
  case killComplete => exact goes_killComplete _
  case yardSliceExpiry => exact goes_yardSliceExpiry _
  case yardMinimumShare => exact goes_yardMinimumShare _
  case yardRestore => exact goes_yardRestore _
  case roundSeal => exact goes_roundSeal _
  case roundConfirm => exact goes_roundConfirm _
  case comparatorMatch => exact goes_comparatorMatch _
  case strikeReport => exact goes_strikeReport _ _ _
  case rollback => exact goes_rollback _
  case roundReplay => exact goes_roundReplay _
  case asaSelfCheck => exact goes_asaSelfCheck _ _ _ _
  case iftInterval => exact goes_iftInterval
  case scanSelfTestDone => exact goes_scanSelfTestDone _
  case thermalUpdate => exact goes_of_mem rfl
  case thermalTrip => exact goes_of_mem rfl
  case securityAlarm => exact .of (canonical_raiseAlarm _ _)
  case railGuardViolation => exact .of (canonical_raiseAlarm 0 1)
  case clockGuardViolation => exact .of (canonical_raiseAlarm 1 2)
  case tamperEvent => exact .of (canonical_raiseAlarm 3 4)
  case treHourlySelfTest => exact goes_treHourlySelfTest _
  case debugAccess n pa => exact goes_debugAccess n pa
  case getVersion => exact goes_answer s _
  case getCapabilities => exact goes_answer s _
  case negotiateAlgorithms => exact goes_answer s _
  case getDigests => exact goes_answer s _
  case getCertificate => exact goes_getCertificate _ _ _
  case challenge => exact goes_challenge _ _
  case getMeasurements => exact goes_getMeasurements _ _ _
  case keyExchange => exact goes_keyExchange _
  case finish => exact goes_onSession fun _ h => h
  case heartbeat => exact goes_onSession fun _ h => h
  case keyUpdate => exact goes_onSession fun _ h => h
  case endSession => exact goes_onSession fun _ h => h
  case vendorDefined => exact goes_vendorDefined _ _
  case spdmUnsupportedRequest => exact goes_answer s _
  case lockInterface => exact .of (canonical_modTdi _ _ _)
  case startInterface => exact .of (canonical_modTdi _ _ _)
  case stopInterface => exact .of (canonical_modTdi _ _ _)
  case tdiError => exact goes_of_mem rfl
  case resetNAssert => exact .of canonical_warmReset
  case pwrgdFail => exact goes_pwrgdFail _
  case pllLockTimeout => exact goes_pllLockTimeout
  case deafCellMove => exact goes_deafCellMove _
  all_goals exact Bool.noConfusion h

theorem goes_exec (i : Instr) : Goes s (exec i s) := by
  cases hrecord : (opOf i).isSome with
  | true => exact goes_record hrecord
  | false =>
  cases hhead : headRow i with
  | true => exact goes_head hhead
  | false =>
  cases hevent : eventRegion i with
  | some rid => exact goes_regionEvent hevent
  | none =>
  cases hcc : Claim.ccRow i with
  | true => exact goes_ccRow hcc
  | false => exact goes_ownRow (by simp [ownRow, hhead, hevent, hcc, Option.isSome_eq_false_iff.mp hrecord])

/-! ### A turn -/

theorem goes_runTurn : Goes s (runTurn s) := by
  unfold runTurn
  split
  · exact goes_refl s
  · exact goes_exec _
  · exact goes_of_mem rfl
  · exact goes_base _
  · exact .of (canonical_takeFault _ _)
  · unfold State.parkHead
    split
    · exact goes_refl s
    · exact .of (canonical_queueReport _ _)

theorem canonical_onlyFault {rid : Nat} {t : State} (h : Canonical s) (ht : Canonical t) : Canonical (s.onlyFault rid t) := canonical_ite ht h

theorem goes_step : Goes s (step s) := by
  unfold step
  extract_lets s1
  have h1 : Canonical s → Canonical s1 := canonical_beginTurn
  clear_value s1
  split
  · obtain ⟨t, ht, hcanonical⟩ := goes_runTurn (s := s1)
    exact ⟨t, ht, fun h => hcanonical (h1 h)⟩
  · next rid _ =>
    obtain ⟨t, ht, hcanonical⟩ := goes_runTurn (s := s1.thawed rid)
    rw [ht]
    exact .of fun h => canonical_onlyFault (h1 h) (hcanonical (canonical_modRegion rid _ (h1 h)))

end

end Sys2Proof.Machine

namespace Sys2Proof
open Machine

/-- Settles O48: whatever the turn comes to, its meaning answers a next state. -/
theorem stepGoesOn : Obligations.StepGoesOn := by
  intro s
  obtain ⟨t, ht, _⟩ := goes_step (s := s)
  exact ⟨t, ht⟩

/-- Settles O49: what a turn settles and brings keeps the canonical form, and so does each row, through the operations that write memory. -/
theorem memoryStaysCanonical : Obligations.MemoryStaysCanonical := by
  intro s t hwf ht
  obtain ⟨u, hu, hcanonical⟩ := goes_step (s := s)
  cases hu.symm.trans ht
  exact hcanonical hwf

end Sys2Proof
end
